-- ==== Sys2Proof/Word.lean ====
section
/-! DEFINITION. Word sizes and the plainest bit-field reading of the Z48 (R1, R2). -/

namespace Sys2Proof

/-- One byte of memory (R2). -/
abbrev Byte := BitVec 8

/-- A 32-bit register value (R7). -/
abbrev Word := BitVec 32

/-- A 64-bit value: an address, an instruction word, a register pair (R7, R25). -/
abbrev DWord := BitVec 64

/-- Bits(x, hi, lo) of R6 on a natural number: bits [hi:lo] as an unsigned integer. -/
def bitsOf (x hi lo : Nat) : Nat := (x / 2 ^ lo) % 2 ^ (hi + 1 - lo)

/-- Bit n of a natural number. -/
def bitOf (x n : Nat) : Bool := x.testBit n

end Sys2Proof
end

