-- ==== Sys2Proof/Config.lean ====
section
/-! DEFINITION. What the spec leaves free or names without giving: constants with no body, of which nothing can be proved
but that they are functions (log entries 1 and 5), and the fixed sizes of the part. -/

namespace Sys2Proof.Config

/-- The free values (entry 1): the n-th one drawn. State.freeIdx counts the draws. -/
opaque freeValue : Nat → DWord

/-- SHA-256 (R453, R460), named by its standard and not given by the spec (entry 5). -/
opaque sha256 : List Byte → BitVec 256

/-- SLH-DSA verification under a public key (R453): whether the signature is right for the message (entry 5). -/
opaque slhDsaVerify : (key message signature : List Byte) → Bool

/-- SLH-DSA signature by the part's identity key (R460) (entry 5). -/
opaque slhDsaSign : (message : List Byte) → List Byte

/-- The link among those in service on which requests of one chip to a granule of another travel: own chip, other chip, bits [47:8] of the
address, links out of service (R369, R371), which the spec does not name (entry 7). -/
opaque route : (own other granule : Nat) → (out : List Nat) → Nat

/-- Cores of a die (R9). -/
def coresPerDie : Nat := 96

/-- The four dies, 384 cores, 12 HBM stacks and 36 links of the package (R9). -/
def dies : Nat := 4
def cores : Nat := 384
def stackCount : Nat := 12
def links : Nat := 36

/-- Launch slots of a die (R99, R105). -/
def launchSlots : Nat := 32

end Sys2Proof.Config
end

