-- ==== Sys2Proof/Syntax.lean ====
section
/-! DEFINITION. The instructions: one constructor of Instr for every row of spec/opcode_table.json, encoded words and
device steps alike. The bodies are those of R25, R35, R41, R42 and R39; a device step carries what names its subject. -/

namespace Sys2Proof

/-- The fields every instruction word carries (R25) with its guard predicate (R35, R41, R42). -/
structure Common where
  /-- switch marker: 1 parks the gang after the word (R27) -/
  y : Bool
  /-- latch-use distance: no architectural effect (R25) -/
  lu : BitVec 3
  /-- 0-5 scoreboards w0-w5, 6 the clause counter, 7 untracked (R25, R26) -/
  sb : BitVec 3
  /-- guard predicate p0-p7 -/
  pred : BitVec 3
  /-- guard inversion -/
  pneg : Bool
  deriving DecidableEq, Repr, Inhabited

/-- What stands in source B: a specifier (FORM 00), the 24-bit immediate (R36), or the 64-bit literal with the SRCB field
beside which it stands, which must be 0x1FF (R37). -/
inductive BSource where
  | spec (x : BitVec 9)
  | imm (x : BitVec 24)
  | lit (x : BitVec 9) (l : DWord)
  deriving DecidableEq, Repr, Inhabited

/-- The standard body (R35), in its standard, immediate and literal forms. -/
structure StdWord where
  c : Common
  dst : BitVec 9
  srcA : BitVec 9
  srcB : BSource
  /-- absent (0) in the immediate form (R36) -/
  srcC : BitVec 9
  /-- every modifier at its default in the immediate form (R36) -/
  mod : BitVec 6
  deriving DecidableEq, Repr, Inhabited

/-- The memory body (R41). -/
structure MemWord where
  c : Common
  data : BitVec 9
  addr : BitVec 9
  ofs : BitVec 16
  size : BitVec 3
  scope : BitVec 2
  order : BitVec 2
  cache : Bool
  deriving DecidableEq, Repr, Inhabited

/-- The control body (R42). -/
structure CtlWord where
  c : Common
  mod : BitVec 6
  ofs : BitVec 36
  deriving DecidableEq, Repr, Inhabited

/-- The operations of the compact map (R52). -/
inductive PairOp where
  | iadd | isub | imul | imin | imax | and | or | xor | shl | shr | shra | rotl
  | fadd | fsub | fmul | fmin | fmax | hadd2 | hmul2
  deriving DecidableEq, Repr, Inhabited

/-- One half of a paired word (R39). -/
structure PairHalf where
  op : PairOp
  dst : BitVec 8
  srcA : BitVec 4
  srcB : BitVec 8
  deriving DecidableEq, Repr, Inhabited

/-- A paired word (FORM 01): two compact operations, no guard (R39). -/
structure PairWord where
  y : Bool
  lu : BitVec 3
  sb : BitVec 3
  /-- bit [54], reserved-zero -/
  rsv : Bool
  first : PairHalf
  second : PairHalf
  deriving DecidableEq, Repr, Inhabited

/-- An issue gang: the slices of home gang `home` of unit `unit` that carry issue-gang number `ig` (R153). -/
structure GangRef where
  unit : Nat
  home : Nat
  ig : Nat
  deriving DecidableEq, Repr, Inhabited

/-- Over which kind of connection a host message came (R109). -/
inductive Connection where
  | rod (n : Nat)
  | rud
  deriving DecidableEq, Repr, Inhabited

/-- A host RMA write message (R110, R111). -/
structure RmaWrite where
  port : Nat
  window : Nat
  key : Word
  offset : Nat
  data : List Byte
  conn : Connection
  deriving DecidableEq, Repr, Inhabited

/-- A host RMA read message (R110). -/
structure RmaRead where
  port : Nat
  window : Nat
  key : Word
  offset : Nat
  len : Nat
  deriving DecidableEq, Repr, Inhabited

/-- The kinds of access to the wake region that are no tail store, tail load or read-index load (R94). -/
inductive WakeKind where
  | load8
  | store8 (value : DWord)
  | atomic
  | other
  /-- a read or write by a copy, WBLD, search query or collective, or a counter add -/
  | engine
  deriving DecidableEq, Repr, Inhabited

/-- Such an access at an address of the wake region (local physical address), over a port or from a core. -/
structure WakeAccess where
  kind : WakeKind
  addr : DWord
  port : Option Nat
  deriving DecidableEq, Repr, Inhabited

/-- Where an uncorrectable error is found (R269). -/
inductive ErrorPlace where
  /-- the unit of storage that holds a local address goes bad: HBM sector, capacity-tier line or shared-store word -/
  | sector (address : DWord)
  /-- an 8-byte word of a unit's private scratchpad goes bad -/
  | scratch (unit : Nat) (offset : Nat)
  /-- an 8-byte word of a core's segment area goes bad -/
  | area (core offset : Nat)
  /-- a v, q or s register of a lane goes bad, by its specifier -/
  | register (unit lane spec : Nat)
  /-- a tile of a unit goes bad -/
  | tile (unit tile : Nat)
  /-- an 8-byte word of a unit's weight-buffer region goes bad -/
  | weights (unit word : Nat)
  /-- a directory, a TLB or device-owned state of a launch -/
  | device (die slot : Nat)
  deriving DecidableEq, Repr, Inhabited

/-- The parameters by which chips must agree on one collective (R309, R311). -/
structure CollParams where
  kind : BitVec 2
  fmt : BitVec 2
  rop : BitVec 2
  count : Nat
  deriving DecidableEq, Repr, Inhabited

/-- A contribution that a peer chip sends, its elements as bytes (R310). -/
structure CollMessage where
  generation : DWord
  chip : Nat
  cnum : Nat
  occurrence : Nat
  params : CollParams
  /-- none: the chip's part has failed, on its own buffers or, with `late`, by its time-out (R311) -/
  input : Option (List Byte)
  late : Bool
  deriving DecidableEq, Repr, Inhabited

/-- What the other chips of a replicated event domain have done by a commit: the events their lanes staged and the non-event arrivals of
the originator, as the records of R135, and the cancels (target, status reported, and the issuing event's ID, none for a lane that ran as no
event). -/
structure RunShare where
  staged : List (List DWord)
  cancels : List (DWord × Nat × Option DWord)
  /-- each with the number of this chip's own arrivals before it -/
  arrivals : List (Nat × List DWord)
  deriving DecidableEq, Repr, Inhabited

/-- A launch slot's event domain at a span agreement or a commit, with what comes from the other chips of its run. -/
structure DomainTurn where
  slot : Nat
  peers : RunShare
  deriving DecidableEq, Repr, Inhabited

/-- An outstanding result that is written: one lane's part of it, or all that is left (R34). -/
structure ResultPart where
  id : Nat
  lane : Option Nat
  deriving DecidableEq, Repr, Inhabited

/-- One contribution of an ordered-addition window (R280, R281). -/
structure Contribution where
  scope : Nat
  set : Nat
  k : Nat
  pa : Nat
  wide : Bool
  chip : Nat
  unitId : Nat
  rank : Nat
  order : Nat
  value : DWord
  deriving DecidableEq, Repr, Inhabited

/-- A replica run: its launch's generation and context, and its chips (R78, R106). -/
structure RunRef where
  generation : DWord
  ctx : Nat
  chip0 : Nat
  chips : Nat
  deriving DecidableEq, Repr, Inhabited

/-- What a link flit carries (R369, R371, R382, R383): a request of one chip to another with the number its sender gave it, or the answer to
one, which acknowledges it. -/
inductive FlitBody where
  | write (id : Nat) (address : DWord) (data : List Byte)
  | read (id : Nat) (address : DWord) (bytes : Nat)
  /-- an atomic by its opcode, under its context's FP mode: wide or not, its operand and its new value -/
  | atomic (id : Nat) (address : DWord) (fpmode : BitVec 4) (opc : Nat) (wide : Bool) (operand new : DWord)
  /-- SOP's operation k on a run of words -/
  | sop (id : Nat) (address : DWord) (fpmode : BitVec 4) (k : Nat) (data : List Byte)
  /-- a contribution to a word whose home is on the receiver -/
  | contribution (id : Nat) (run : RunRef) (c : Contribution)
  /-- a chip's units have closed a window (scope, set, k) of their launch, or with none they have all exited -/
  | closed (id : Nat) (run : RunRef) (chip : Nat) (window : Option (Nat × Nat × Nat))
  | answer (id : Nat) (data : List Byte)
  deriving DecidableEq, Repr, Inhabited

/-- A link flit: sequence number, whether its CRC is right, how many flits its sender has received in order, and its request or answer
(R370). -/
structure Flit where
  seq : Nat
  crcOk : Bool
  upTo : Nat
  body : FlitBody
  deriving DecidableEq, Repr, Inhabited

/-- The bytes of memory a flit carries or asks for. -/
def FlitBody.span : FlitBody → Nat × Nat
  | .write _ a bs => (a.toNat, bs.length)
  | .read _ a n => (a.toNat, n)
  | .atomic _ a _ _ wide _ _ => (a.toNat, if wide then 8 else 4)
  | .sop _ a _ _ bs => (a.toNat, bs.length)
  | .contribution _ _ c => (c.pa, if c.wide then 8 else 4)
  | .closed _ _ _ _ => (0, 0)
  | .answer _ bs => (0, bs.length)

/-- A flit is of 256 bytes: it reaches into one 256-byte granule (R13, R369). -/
def Flit.fits (f : Flit) : Bool := decide (f.body.span.1 % 256 + f.body.span.2 ≤ 256)

/-- The status with which a launch aborts: class and code of R445 and the chip the status concerns. -/
structure AbortStatus where
  cls : Nat
  code : Nat
  chip : Nat
  deriving DecidableEq, Repr, Inhabited

/-- Every row of the opcode table. -/
inductive Instr where
  -- Queues and ports (R91-R112)
  | tailStore (die queue : Nat) (value : DWord)
  | tailLoad (die queue : Nat)
  | readIndexLoad (die queue : Nat)
  | wakeOtherAccess (a : WakeAccess)
  | rmaWrite (m : RmaWrite)
  | rmaRead (m : RmaRead)
  | unsupportedRequest (port : Nat)
  | rereadTick (die : Nat)
  | crcReread (die queue : Nat)
  | arbitration (die : Nat)
  | systemCommandTake (die : Nat)
  | replicaArrival (generation : DWord) (context : Nat) (words : List DWord)
  | cinchArrival (die slot chip : Nat) (refusal : Option Byte)
  | cinchRelease (die slot : Nat)
  | cinchTimeout (die slot : Nat)
  -- The Xdreox instructions of the Tack cores (R101-R105)
  | rfetch (rd rs1 rs2 : BitVec 5)
  | bfex (rd rs1 rs2 : BitVec 5)
  | sigwait (rd rs1 rs2 : BitVec 5)
  | dispatch (rd rs1 : BitVec 5)
  | sigwaitTimeout (die core : Nat)
  -- Placement (R113-R133)
  | unitPlace (die slot core : Nat)
  | frontierDispatch (die slot core : Nat)
  | taskGather (die slot core : Nat)
  | taskRoundEnd (die slot : Nat)
  | attachWaitTimeout (unit : Nat)
  -- Banks, spills, congestion (R131-R133, R257, R258, R420-R427)
  | quantumEnd (core : Nat)
  | spill (unit : Nat)
  | spillTimeout (die slot : Nat)
  | restore (unit : Nat)
  | congestionReport (controller : Nat)
  | congestionLevelExpiry (core controller : Nat)
  | hbmRequestComplete (request : Nat)
  -- Issue (R21, R26, R27, R39, R55)
  | longResultWritten (unit : Nat) (result : ResultPart)
  | parkEnd (g : GangRef)
  | clauseStart (g : GangRef)
  | pairedWord (p : PairWord)
  | unassignedOpcode (w : DWord)
  -- Event domains (R140-R148, R449)
  | spanAgreement (die : Nat) (domain : DomainTurn)
  | batchCommit (die : Nat) (domain : DomainTurn)
  | nonEventSchedArrival (message : Nat)
  | nonEventCancelArrival (message : Nat)
  -- Memory system (R259-R269)
  | segmentEvict (core context : Nat) (name : DWord)
  | segmentReloadComplete (core context : Nat) (name : DWord)
  | pageEvict (die : Nat)
  | pageBringBack (die : Nat)
  | patrolScrub (address : DWord)
  | uncorrectableError (place : ErrorPlace)
  -- Engines (R296, R310, R314, R321)
  | copyPerform (core bank queue : Nat)
  | collContribution (c : CollMessage)
  | collComplete (collective : Nat)
  | collTimeout (collective : Nat)
  | kStep (unit : Nat)
  | matrixOperationPerform (unit : Nat)
  -- Search messages (R345)
  | searchExpand (query : Nat) (node : Word)
  | searchList (query : Nat) (node : Word)
  | searchEval (query : Nat) (node : Word)
  | searchDist (query : Nat) (node : Word)
  -- Windows, merges, links, retirement (R281, R370, R371, R402, R443, R447)
  | windowClose (die slot scope set k : Nat)
  | epochMerge (die slot : Nat)
  | flitReceive (link : Nat) (f : Flit)
  | replayRequest (link : Nat) (seq : Nat)
  | linkReplayTimeout (link : Nat)
  | launchRetire (die slot : Nat)
  | launchAbort (die slot : Nat) (st : AbortStatus)
  -- Integer, address and bit-field instructions (R165-R184)
  | iadd (w : StdWord)
  | isub (w : StdWord)
  | imul (w : StdWord)
  | imulh (w : StdWord)
  | imad (w : StdWord)
  | iadd64 (w : StdWord)
  | imad64 (w : StdWord)
  | imin (w : StdWord)
  | imax (w : StdWord)
  | iabs (w : StdWord)
  | ineg (w : StdWord)
  | iadds (w : StdWord)
  | and (w : StdWord)
  | or (w : StdWord)
  | xor (w : StdWord)
  | not (w : StdWord)
  | lop3 (w : StdWord)
  | shl (w : StdWord)
  | shr (w : StdWord)
  | shra (w : StdWord)
  | rotl (w : StdWord)
  | fshf (w : StdWord)
  | bfx (w : StdWord)
  | bfi (w : StdWord)
  | brev (w : StdWord)
  | popc (w : StdWord)
  | clz (w : StdWord)
  | ctz (w : StdWord)
  | icmp (w : StdWord)
  | sel (w : StdWord)
  | mov (w : StdWord)
  | movi (w : StdWord)
  | movq (w : StdWord)
  | movs (w : StdWord)
  | plut (w : StdWord)
  | pmov (w : StdWord)
  | icvt (w : StdWord)
  | retag (w : StdWord)
  | sread (w : StdWord)
  | swrite (w : StdWord)
  | vrdi (w : StdWord)
  | vwri (w : StdWord)
  -- Floating-point and conversion instructions (R227-R244)
  | fadd (w : StdWord)
  | fsub (w : StdWord)
  | fmul (w : StdWord)
  | ffma (w : StdWord)
  | fmin (w : StdWord)
  | fmax (w : StdWord)
  | fcmp (w : StdWord)
  | fclass (w : StdWord)
  | frnd (w : StdWord)
  | fcvt (w : StdWord)
  | fscale (w : StdWord)
  | frcp (w : StdWord)
  | fsqrt (w : StdWord)
  | frsq (w : StdWord)
  | fex2 (w : StdWord)
  | flg2 (w : StdWord)
  | fsin (w : StdWord)
  | fcos (w : StdWord)
  | dadd (w : StdWord)
  | dmul (w : StdWord)
  | dfma (w : StdWord)
  | dcmp (w : StdWord)
  | hadd2 (w : StdWord)
  | hmul2 (w : StdWord)
  | hfma2 (w : StdWord)
  | dot4 (w : StdWord)
  | qpack (w : StdWord)
  | qunpk (w : StdWord)
  | rand (w : StdWord)
  | fstat (w : StdWord)
  -- Cross-lane operations (R202-R211)
  | vote (w : StdWord)
  | ballot (w : StdWord)
  | lmask (w : StdWord)
  | bpick (w : StdWord)
  | lget (w : StdWord)
  | xchg (w : StdWord)
  | matchLanes (w : StdWord)
  | redux (w : StdWord)
  -- Control words with the standard body (R191-R200, R394, R397, R417)
  | brx (w : StdWord)
  | calli (w : StdWord)
  | cohnew (w : StdWord)
  | cohfree (w : StdWord)
  | join (w : StdWord)
  | leave (w : StdWord)
  | cbar (w : StdWord)
  | tkwait (w : StdWord)
  | fltrd (w : StdWord)
  -- Events, engines, matrix unit and search (R145-R149, R290-R311, R323-R330, R346)
  | sched (w : StdWord)
  | cancel (w : StdWord)
  | evqry (w : StdWord)
  | task (w : StdWord)
  | cpy (w : StdWord)
  | cpyg (w : StdWord)
  | cpys (w : StdWord)
  | tagexp (w : StdWord)
  | twait (w : StdWord)
  | cwait (w : StdWord)
  | twany (w : StdWord)
  | tfirst (w : StdWord)
  | eqfence (w : StdWord)
  | coll (w : StdWord)
  | tcfg (w : StdWord)
  | tzero (w : StdWord)
  | wbld (w : StdWord)
  | mma (w : StdWord)
  | mloop (w : StdWord)
  | mfence (w : StdWord)
  | mwait (w : StdWord)
  | tld (w : StdWord)
  | tst (w : StdWord)
  | annq (w : StdWord)
  -- Memory instructions (R270-R289, R387-R390)
  | ld (w : MemWord)
  | st (w : MemWord)
  | lds (w : MemWord)
  | sts (w : MemWord)
  | ldc (w : MemWord)
  | pref (w : MemWord)
  | fence (w : MemWord)
  | hint (w : MemWord)
  | stepadv (w : MemWord)
  | ordadd (w : MemWord)
  | oclose (w : MemWord)
  | sop (w : MemWord)
  | fatomAdd (w : MemWord)
  | fatomMin (w : MemWord)
  | fatomMax (w : MemWord)
  | segpub (w : MemWord)
  | segatt (w : MemWord)
  | segrel (w : MemWord)
  | segqry (w : MemWord)
  | qpush (w : MemWord)
  | qpop (w : MemWord)
  | qpeek (w : MemWord)
  -- Scratchpad atomics (R278)
  | atomsAdd (w : MemWord)
  | atomsSmin (w : MemWord)
  | atomsSmax (w : MemWord)
  | atomsUmin (w : MemWord)
  | atomsUmax (w : MemWord)
  | atomsAnd (w : MemWord)
  | atomsOr (w : MemWord)
  | atomsXor (w : MemWord)
  | atomsExch (w : MemWord)
  | atomsCas (w : MemWord)
  | atomsIncw (w : MemWord)
  | atomsDecw (w : MemWord)
  -- Memory atomics (R278)
  | atomAdd (w : MemWord)
  | atomSmin (w : MemWord)
  | atomSmax (w : MemWord)
  | atomUmin (w : MemWord)
  | atomUmax (w : MemWord)
  | atomAnd (w : MemWord)
  | atomOr (w : MemWord)
  | atomXor (w : MemWord)
  | atomExch (w : MemWord)
  | atomCas (w : MemWord)
  | atomIncw (w : MemWord)
  | atomDecw (w : MemWord)
  -- Control body (R185, R393, R398, R404, R415)
  | bra (w : CtlWord)
  | brc (w : CtlWord)
  | call (w : CtlWord)
  | ret (w : CtlWord)
  | exit (w : CtlWord)
  | regang (w : CtlWord)
  | yield (w : CtlWord)
  | nop (w : CtlWord)
  | bar (w : CtlWord)
  | arrive (w : CtlWord)
  | waitb (w : CtlWord)
  | tkpass (w : CtlWord)
  | dmerge (w : CtlWord)
  | tfence (w : CtlWord)
  | trap (w : CtlWord)
  | bkpt (w : CtlWord)
  | rtt (w : CtlWord)
  -- Bring-up, power and clocks (R453, R461)
  | reset
  | powerLimitThrottle
  | clockRaise
  | thermalStop
  | thermalResume
  -- System commands, on the die whose queue 0 took them (R456): the die whose turn it is
  | negotiate
  | readManifest
  | compareManifest
  | attest
  | createContext
  | destroyContext
  | ptUpdate
  | ptInvalidate
  | readCounters
  | discardSave
  | createQueue
  | destroyQueue
  | resumeQueue
  | setShared
  | setLowwater
  | windowAdd
  | windowRemove
  | suspendLaunch
  deriving DecidableEq, Repr

end Sys2Proof
end

