-- ==== Sys2Proof/Machine/State.lean ====
section
/-! DEFINITION. The state of the package as plain data: everything the spec gives the machine (INVENTORY.md, "State"), the
reasons a step can stop, and the state right after reset. -/

namespace Sys2Proof.Machine

/-- Why a step stops with a fault. No instruction of the table ends so. -/
inductive Fault where
  /-- Raised by step when a Tack core's turn comes and its instruction store lists no byte at its pc. Safe: the machine stops. -/
  | tackFetch (die core : Nat)
  deriving DecidableEq, Repr, Inhabited

/-- Why a step is refused. -/
inductive Refusal where
  /-- Answered by exec's arm of an instruction without a meaning yet. Safe: nothing follows from it. -/
  | notModelled (mnemonic : String)
  /-- Answered by step when a Tack core fetches a word that is no Xdreox instruction: RV64GC is named by R100 and described
  nowhere in the spec. Safe: nothing follows from it. -/
  | baseInstruction (word : Word)
  deriving DecidableEq, Repr, Inhabited

/-- The cause codes that are raised (R419). -/
inductive Cause where
  | clauseSig | illegalOpcode | reservedField | illegalOperand | pairConflict | clauseClass | branchTarget | callBudget
  | badEntry | formatMismatch | featureOff | reconvOverflow
  | pageNotPresent | pagePermission | misaligned | atomicStraddle | scratchBounds | memUncorrectable | physUnmapped
  | pteMalformed
  | fpInvalid | fpDivzero | fpOverflow | fpUnderflow | fpInexact | rngWrap
  | mergeConflict | mergeOverflow | ticketAbort | ringBad | cohortMisuse | ticketOrder
  | copyRights | tagOverrun | matrixConfig | collMismatch | collTimeout
  | evPast | evTimeOverflow | evBadHandler | evRebatchLimit | evOrdinalLimit | evPoolFull | frontierBadVector
  | segAttachMiss | segGenMismatch | bkpt | softTrap | trapNested
  deriving DecidableEq, Repr, Inhabited

/-- A main register: 32 bits and a format tag (R157, R161). -/
structure Reg where
  val : Word
  tag : Byte
  deriving DecidableEq, Repr, Inhabited

/-- The kinds of a reconvergence-stack entry (R187). -/
inductive StackKind where
  | join | ret | resume
  deriving DecidableEq, Repr, Inhabited

/-- An entry of the reconvergence stack (R151, R187). -/
structure StackEntry where
  kind : StackKind
  addr : DWord
  mask : BitVec 4
  deriving DecidableEq, Repr, Inhabited

/-- The clause a slice is in: its header's address, its word count and its class (R21). -/
structure Clause where
  header : DWord
  count : Nat
  cls : Nat
  deriving DecidableEq, Repr, Inhabited

/-- The state a lane holds (R150). -/
structure Lane where
  /-- main registers: sorted by number, none at zero with tag raw -/
  v : List (Nat × Reg)
  /-- operand file: the registers written in this clause, sorted (R31) -/
  q : List (Nat × Reg)
  /-- predicates p0-p6 (R158) -/
  p : BitVec 7
  /-- sticky flags, bits 0-4 and 7 (R223) -/
  flags : Byte
  rngctr : DWord
  schedOrd : Nat
  taskOrd : Nat
  evtime : DWord
  evtie : Word
  evid : DWord
  evser : DWord
  /-- the lane's task: insertion number in the pool and position in its round (R130, R242) -/
  taskNo : Nat
  taskPos : Nat
  /-- FLTRD detail of the slice's last trap (R417) -/
  fltAddr : DWord
  fltInfo : Word
  deriving DecidableEq, Repr, Inhabited

/-- One register write of a long-latency result: lane of the slice, or none for a scalar register. -/
structure RegWrite where
  lane : Option Nat
  reg : Nat
  val : Reg
  deriving DecidableEq, Repr, Inhabited

/-- Where a load reads (R270, R277). -/
inductive Space where
  | global | scratch | constant
  deriving DecidableEq, Repr, Inhabited

/-- A lane's read as a spill records it (R424). -/
structure PendingRead where
  lane : Nat
  space : Space
  va : DWord
  bytes : Nat
  dst : Nat
  scalar : Bool
  deriving DecidableEq, Repr, Inhabited

/-- A claimed or peeked ring item whose payload is awaited (R390). -/
structure RingRead where
  lane : Nat
  header : DWord
  slot : DWord
  idx : Nat
  consumer : Nat
  bytes : Nat
  dst : Nat
  /-- QPOP advances FREE once it has read; QPEEK does not -/
  pop : Bool
  deriving DecidableEq, Repr, Inhabited

/-- What an outstanding long-latency result waits for. -/
inductive LongKind where
  /-- its value is known and is written at LONG_RESULT_WRITTEN -/
  | ready
  /-- a load: read at issue, read again at a restore (R424) -/
  | load (reads : List PendingRead)
  /-- the payload reads of QPOP and QPEEK; `more`: the word is still held and may add items (R26, R390) -/
  | ring (reads : List RingRead) (more : Bool)
  /-- a TLD waiting for its turn in the matrix queue (R329) -/
  | tile
  /-- a SEGATT waiting for its reload (R288) -/
  | segment (name : DWord)
  /-- a CANCEL of a lane that runs as no event: answers still to come (R148) -/
  | rake (left : Nat)
  deriving DecidableEq, Repr, Inhabited

/-- An outstanding long-latency result of one slice (R34). -/
structure LongResult where
  id : Nat
  /-- 0-5, 6 the clause counter, 7 untracked (R25) -/
  sb : BitVec 3
  kind : LongKind
  writes : List RegWrite
  /-- the word that issued it (R269, R424) -/
  pc : DWord
  /-- HBM requests whose data it needs (R257) -/
  requests : List Nat
  /-- its slice has issued a word after it: what it read at issue stands, whatever happens to its unit (R354, R357, R424) -/
  bound : Bool
  deriving DecidableEq, Repr, Inhabited

/-- A load's fault still to be reported (R269, R424): its cause, whether it is an atomic's, its walk level, its lanes, PC and DATA, each
lane's lowest faulting byte. -/
structure LoadError where
  cause : Cause
  write : Bool
  level : Nat
  lanes : Word
  pc : DWord
  dst : BitVec 9
  addrs : List (Nat × DWord)
  deriving DecidableEq, Repr, Inhabited

/-- A leaf that covers an address (R248, R249). -/
structure Leaf where
  /-- the byte's physical address -/
  pa : Nat
  /-- 0 SO, 1 RC, 2 UO, 3 MG (R253) -/
  kind : Nat
  w : Bool
  x : Bool
  mov : Bool
  /-- the page's physical base and the logarithm of its size -/
  base : Nat
  logSize : Nat
  /-- the entry's physical address and walk level -/
  pte : Nat
  level : Nat
  deriving DecidableEq, Repr, Inhabited

/-- A TLB entry (R10, R251): a context's leaf, with the page's virtual base. -/
structure TlbEntry where
  ctx : Nat
  va : Nat
  leaf : Leaf
  deriving DecidableEq, Repr, Inhabited

/-- A page-table walk in progress (R10, R251): the core whose TLB missed, and the address. -/
structure Walk where
  core : Nat
  ctx : Nat
  va : Nat
  deriving DecidableEq, Repr, Inhabited

/-- Why a slice's gang is held at its word (R133). -/
inductive Wait where
  | none
  /-- the word is issued again when its condition holds (R430) -/
  | again
  /-- at a barrier slot, for the end of that phase (R392); with the epoch it waits for in deterministic mode (R402) -/
  | barrier (slot : Nat) (phase : Bool) (epoch : Option Nat)
  /-- at a BAR in deterministic mode whose phase has completed: the interval is to end (R400) -/
  | atBar (epoch : Nat)
  /-- at a merge point, for the merge of that interval (R402, R404) -/
  | merge (epoch : Nat)
  /-- at an OCLOSE: for the unit's other gangs (k = 0), then under .acq for the close of window k (R281) -/
  | window (scope k : Nat) (acquire : Bool)
  /-- the wait at the word is over: it goes on at the gang's next turn -/
  | done
  deriving DecidableEq, Repr, Inhabited

/-- A flag tracker's content (R408). -/
structure Tracker where
  pc : DWord
  dst : BitVec 9
  deriving DecidableEq, Repr, Inhabited

/-- The state a slice holds (R150, R410, R411, R430). -/
structure Slice where
  home : Nat
  idx : Nat
  ig : Nat
  pc : DWord
  clause : Option Clause
  active : BitVec 4
  exited : BitVec 4
  /-- it stands at the entry clause of its kernel, handler or task (R23) -/
  atEntry : Bool
  /-- main registers of the budget in force, and of the interrupted code while in a trap (R30, R194) -/
  regs : Nat
  tregs : Nat
  /-- top first -/
  stack : List StackEntry
  /-- s0-s63: sorted, none at zero (R159) -/
  s : List (Nat × Word)
  /-- scoreboards w0-w5, then the clause counter (R26) -/
  sb : List Nat
  fltcause : BitVec 7
  fltlanes : Word
  fltpc : DWord
  fltdst : BitVec 9
  mergeAddr : DWord
  inTrap : Bool
  tbkpt : Bool
  tpc : DWord
  tmask : BitVec 4
  tdepth : Nat
  /-- the interrupted code stood at its entry clause (R194) -/
  tentry : Bool
  /-- TQ: the operand file of each lane (R411) -/
  tq : List (List (Nat × Reg))
  /-- the clause TPC lies in; none where TPC is a header (R405, R416) -/
  tclause : Option Clause
  /-- the trap the slice is in, or that holds it (R410) -/
  trapId : Nat
  heldBy : Option Nat
  trackers : List (Option Tracker)
  /-- arrivals in phases that have not completed: barrier slot and phase (R392) -/
  arrivals : List (Nat × Bool)
  /-- the phase of its last arrival, kept after that phase; and whether it has arrived and not yet waited (R393, R430) -/
  lastPhase : Bool
  unwaited : Bool
  /-- after a YIELD: the issue gangs of its pipeline that have started a clause since (R197) -/
  yieldTo : Option (List GangRef)
  /-- it has issued the OCLOSE or DMERGE its unit's other gangs are still to issue (R281, R404) -/
  ocloseAt : Option Nat
  dmergeAt : Bool
  /-- lanes of the word at PC that have made their reserve or claim step (R430) -/
  ringHeld : BitVec 4
  parked : Bool
  wait : Wait
  pend : List LongResult
  errors : List LoadError
  lanes : List Lane
  deriving DecidableEq, Repr, Inhabited

/-- A completion tag (R302). -/
structure TagState where
  e : Nat
  c : Nat
  infl : Nat
  fail : Option Cause
  faulted : Bool
  deriving DecidableEq, Repr, Inhabited

/-- One word of a store buffer (R401): the interval's lane (0 for a workgroup), the address and the bytes held. -/
structure Buffered where
  owner : Nat
  va : DWord
  pa : Nat
  data : Word
  mask : BitVec 4
  deriving DecidableEq, Repr, Inhabited

/-- One lane's element of a TLD: its slice and lane, the result it belongs to, its destination and its index (R329). -/
structure TileRead where
  slice : Nat
  lane : Nat
  result : Nat
  dst : Nat
  index : Word
  deriving DecidableEq, Repr, Inhabited

/-- A word to which an interval contributed by ORDADD (R403): its lane, its address, and the contribution's order in its unit. -/
structure OrdWord where
  owner : Nat
  va : DWord
  pa : Nat
  order : Nat
  deriving DecidableEq, Repr, Inhabited

/-- The operations of the matrix queue (R314). -/
inductive MatKind where
  | tcfg (block : DWord)
  | tzero (mask : BitVec 16)
  /-- MMA (one step) and MLOOP: tile, whether the first step starts from zero, steps, increments -/
  | mma (tile : Nat) (z : Bool) (steps : Nat) (aofs asc bofs m1 m2 m3 : Word)
  | tld (tile : Nat) (reads : List TileRead)
  | tst (tile : Nat) (offset stride : Word) (bf16 : Bool)
  /-- an MFENCE's place in the queue (R314, R328), and a waiting MWAIT's with its gang -/
  | fence
  | wait (g : GangRef)
  deriving DecidableEq, Repr, Inhabited

structure MatOp where
  kind : MatKind
  /-- the configuration it was issued under (R317) -/
  cfg : DWord
  /-- an MLOOP's completed steps (R334) -/
  done : Nat
  /-- its instruction word, for an image (R429) -/
  word : DWord
  deriving DecidableEq, Repr, Inhabited

/-- A segment release that waits for the unit's earlier work (R289): copy commands and matrix operations still to be performed. -/
structure Release where
  name : DWord
  drop : Bool
  commands : List Nat
  matrix : Nat
  deriving DecidableEq, Repr, Inhabited

/-- How an attachment of a unit's start treats a segment that is not resident on the unit's core (R88, R122, R124). -/
inductive AttachMode where
  | reload
  | fault
  /-- FAULT of a handler in deterministic mode: a segment on no core is reloaded, one on another core is a fault (R124) -/
  | reloadAbsent
  deriving DecidableEq, Repr, Inhabited

/-- An attachment a unit is to acquire before its first instruction (R88): the segment, the generation demanded, the mode. -/
structure Attach where
  name : DWord
  gen : Option Nat
  mode : AttachMode
  deriving DecidableEq, Repr, Inhabited

/-- Where a unit of placement stands (R114, R131, R423). -/
inductive Residence where
  | waiting | resident | spilled
  /-- exited: kept until its launch retires, for the commands and results it left -/
  | exited
  deriving DecidableEq, Repr, Inhabited

/-- The commands of a copy queue (R290, R293, R309, R326, R346, R301). -/
inductive CommandKind where
  | cpy (desc : List Word)
  | cpyg (desc : List Word)
  | cpys (desc : List Word)
  | wbld (source : DWord) (scratch : Bool) (control : Word)
  /-- with the cycle it was issued in (R311) -/
  | coll (desc : List Word) (issued : Nat)
  | annq (packet : DWord)
  /-- the entry an EQFENCE places in each queue it names (R301) -/
  | fence (id : Nat)
  deriving DecidableEq, Repr, Inhabited

structure Command where
  id : Nat
  unit : Nat
  kind : CommandKind
  tag : Option Nat
  counter : Option DWord
  scope : BitVec 2
  begun : Bool
  /-- its instruction word, for an image (R429) -/
  word : DWord
  deriving DecidableEq, Repr, Inhabited

/-- A barrier slot of a bank (R156). -/
structure BarrierSlot where
  owner : Nat
  members : Word
  arrived : Word
  phase : Bool
  live : Bool
  deriving DecidableEq, Repr, Inhabited

/-- A unit of placement: a workgroup, a frontier point, an event gang or a task gang (R116). -/
structure WorkUnit where
  uid : Nat
  die : Nat
  lslot : Nat
  ctx : Nat
  unitId : Nat
  residence : Residence
  core : Nat
  bank : Nat
  /-- the gang slots of its home gangs, in order -/
  slots : List Nat
  /-- the barrier slots it received, the workgroup barrier first (R156) -/
  bslots : List Nat
  entry : DWord
  /-- its place in the order in which units started: later ones have greater numbers (R133) -/
  startNo : Nat
  /-- main registers a lane of its allocation: 8 times BUDGET (R80) -/
  regs : Nat
  /-- lanes it started with (R83, R129, R142) -/
  nlanes : Nat
  ntags : Nat
  ntiles : Nat
  cohs : Nat
  pgang : Nat
  scratchLen : Nat
  det : Bool
  wgid : Nat × Nat × Nat
  frpos : Nat × Nat × Nat
  slices : List Slice
  nextIg : Nat
  nextResult : Nat
  nextTrap : Nat
  /-- breakpoint traps in force (R413) -/
  bkpts : List Nat
  scratch : List (Nat × Byte)
  /-- uncorrectable 8-byte words of scratchpad and weight region (R268), registers (lane, specifier), tiles (R269, R333) -/
  badScratch : List Nat
  badRegs : List (Nat × Nat)
  badTiles : List Nat
  badWeights : List Nat
  buffer : List Buffered
  /-- words of ordered additions of the open interval (R403) -/
  ordWords : List OrdWord
  /-- bytes as the snapshot holds them where memory has moved on (R402) -/
  snapshot : List (Nat × Byte)
  interval : Nat
  tags : List TagState
  /-- e0-e3 (R307) -/
  latches : List (Option Cause)
  segs : List DWord
  releases : List Release
  /-- attachments still to acquire before the first instruction (R88), and since when the first of them has waited for a segment that is
  attached on another core (R88, R122) -/
  attaches : List Attach
  attachSince : Option Nat
  /-- a fault of an attachment, raised at the first instruction, with its FLTRD detail (R88, R266, R417) -/
  firstFault : Option (Cause × DWord × Word)
  /-- element (m, n) of tile t at t*4096 + 64m + n -/
  tiles : List (Nat × Word)
  tileTags : List (Nat × Byte)
  weights : List (Nat × Byte)
  cfgIssued : Option DWord
  cfgDone : Option DWord
  matq : List MatOp
  batchClosed : Word
  /-- the tile at which matrix work stopped on an error: still to be reported, and in force until the next TCFG (R333) -/
  matError : Option Nat
  matStopped : Option Nat
  /-- the window set it belongs to (R281) -/
  wset : Nat
  /-- OCLOSEs completed, by scope (R281) -/
  ocloses : List Nat
  /-- contributions made so far, for the issue order of R281 -/
  contribs : Nat
  /-- while spilled: its image's offset and length in the save area in 64 KiB granules (R427), and its queued commands that have
  not begun, with their queues (R423) -/
  image : Option (Nat × Nat)
  parked : List (Nat × Command)
  /-- and its barrier slots (R429, R426) -/
  savedBars : List (Nat × BarrierSlot)
  /-- the units spilled with it (R426) -/
  group : List Nat
  /-- since when a spill of it has found no room (R427) -/
  spillSince : Option Nat
  deriving DecidableEq, Repr, Inhabited

/-- A context bank's shared structures (R10, R156, R290). -/
structure Bank where
  barriers : List (Nat × BarrierSlot)
  /-- copy queues e0-e3 -/
  queues : List (List Command)
  /-- the issue gang that last issued on each pipeline (R164) -/
  pipes : List (Nat × GangRef)
  /-- the cycle of the last operation that several gangs take in gang-slot order, and its gang slot (R198, R287) -/
  lastOp : Option (Nat × Nat)
  deriving DecidableEq, Repr, Inhabited

/-- A core (R10, R131, R133, R420, R432). -/
structure Core where
  num : Nat
  active : Nat
  quantumStart : Nat
  /-- the cycle in which the last swap began: nothing issues in its 48 cycles (R420) -/
  swapAt : Option Nat
  /-- deficits in quarter core-cycles, by context; unlisted 0 (R432) -/
  deficits : List (Nat × Int)
  /-- (controller, level, cycle of the last report) (R133) -/
  congestion : List (Nat × Nat × Nat)
  /-- waiting order: units by uid (R131) -/
  waiting : List Nat
  /-- units of the outgoing bank of a swap that R131 requires, which the spill engine is to write (R131, R435) -/
  outgoing : List Nat
  bank0 : Bank
  bank1 : Bank
  /-- segment area bytes (R114, R254); none listed at zero -/
  segArea : List (Nat × Byte)
  /-- uncorrectable 8-byte words of the segment area (R268) -/
  badArea : List Nat
  /-- the L1 TLB, the oldest entry first (R10) -/
  tlb : List TlbEntry
  deriving DecidableEq, Repr, Inhabited

/-- A 64-byte event record (R135). -/
structure EventRec where
  time : DWord
  tie : BitVec 20
  handler : BitVec 12
  flags : BitVec 16
  id : BitVec 48
  serial : BitVec 36
  args : List Word
  deriving DecidableEq, Repr, Inhabited

/-- A cancel staged in a batch or by a non-event lane: target, status reported, issuer (R147-R149). -/
structure CancelRec where
  target : BitVec 48
  status : Nat
  issuer : Option (BitVec 48)
  deriving DecidableEq, Repr, Inhabited

/-- A handler-table entry (R86). -/
structure HandlerEntry where
  entry : DWord
  word : DWord
  deriving DecidableEq, Repr, Inhabited

/-- An event domain (R85, R134-R148, R448-R452). -/
structure Domain where
  number : Nat
  handlers : List HandlerEntry
  store : List EventRec
  counter : Nat
  /-- reserved creator serials taken so far: base_m of the next insertion batch (R138) -/
  base : Nat
  /-- window [T, E] once agreed (R140) -/
  window : Option (DWord × DWord)
  batch : List EventRec
  /-- gangs of the batch still to be placed: number and members (R142) -/
  gangs : List (Nat × List EventRec)
  batchNo : Nat
  running : Bool
  staged : List EventRec
  cancels : List CancelRec
  /-- non-event arrivals for the coming commit, and those that came after its batch's last gang had retired, for the next one (R448) -/
  arrivals : List EventRec
  next : List EventRec
  rebatches : Nat
  batches : Nat
  late : Nat
  removed : Nat
  dropped : Nat
  lastT : DWord
  /-- committed and waiting for a span agreement, or for the next batch (R449) -/
  committed : Bool
  deriving DecidableEq, Repr, Inhabited

/-- A lane task (R87, R129). -/
structure TaskRec where
  entry : DWord
  args : List Word
  number : Nat
  pos : Nat
  deriving DecidableEq, Repr, Inhabited

/-- A task pool (R87, R129, R130). -/
structure Pool where
  tasks : List TaskRec
  cap : Nat
  nextNumber : Nat
  /-- spawned in this round: (position of the spawner, ordinal, task) (R130) -/
  spawned : List (Nat × Nat × TaskRec)
  round : Nat
  /-- gangs gathered in this round, and in the whole launch -/
  roundGangs : Nat
  gangs : Nat
  deriving DecidableEq, Repr, Inhabited

/-- A frontier walker's table (R125-R128). -/
structure Frontier where
  /-- (P, W) of each line -/
  lines : List (Nat × DWord)
  dispatched : List Nat
  /-- suspended workgroups still to be restored, ascending (R440) -/
  restoring : List Nat
  stopped : Bool
  /-- the cycle of the last completion (R126) -/
  doneAt : Option Nat
  deriving DecidableEq, Repr, Inhabited

/-- An accepted SUSPEND_LAUNCH (R437). -/
structure Suspend where
  spill : Bool
  save : DWord
  images : List (Nat × Nat × Nat)
  deriving DecidableEq, Repr, Inhabited

/-- The Cinch state of a replicated launch (R106-R108). -/
structure Cinch where
  generation : DWord
  originator : Bool
  arrived : List Nat
  released : Bool
  since : Nat
  deriving DecidableEq, Repr, Inhabited

/-- A running launch (R75-R89, R441-R447). -/
structure Launch where
  die : Nat
  slot : Nat
  queue : Nat
  index : DWord
  ctx : Nat
  /-- tells it from every other launch, for messages on their way to it (R146, R452) -/
  serial : Nat
  /-- granules of its context's save area that its tables have taken: offset and length (R427) -/
  room : List (Nat × Nat)
  /-- the packet's sixteen words -/
  words : List DWord
  /-- the descriptor's eight words -/
  desc : List DWord
  attach : List (DWord × DWord)
  /-- the trap vector table: entry 0 the control word (R406) -/
  vectors : List DWord
  cinch : Option Cinch
  nextUnit : Nat
  exited : Nat
  units : Nat
  turn : DWord
  lastReload : Option Nat
  frontier : Option Frontier
  suspend : Option Suspend
  domain : Option Domain
  pool : Option Pool
  contribs : List Contribution
  /-- windows closed: (scope, set, k) (R281) -/
  closed : List (Nat × Nat × Nat)
  /-- windows whose close this chip has signalled to its run, and whether it has signalled the end of its units (R383) -/
  signals : List (Nat × Nat × Nat)
  endSignalled : Bool
  /-- units of window sets that have exited: (set, OCLOSE counts) are kept by unit; merged epochs (R402) -/
  epoch : Nat
  /-- COLL occurrences so far by CNUM (R310) -/
  occurrences : List (Nat × Nat)
  /-- the abort's class, code and chip (R445, R447), with the slice's fault record words 5-7 (R444) -/
  abort : Option (AbortStatus × DWord × DWord × DWord)
  /-- class 0 code when its retirement condition has been met (R442) -/
  ended : Option Nat
  deriving DecidableEq, Repr, Inhabited

/-- A command queue (R90, R91). -/
structure Queue where
  num : Nat
  base : DWord
  logsz : Nat
  ctx : Nat
  rdptr : DWord
  faultrec : DWord
  rd : DWord
  tail : DWord
  stopped : Bool
  crcReads : Nat
  crcDue : Nat
  deriving DecidableEq, Repr, Inhabited

/-- A registered RMA window (R110). -/
structure Window where
  num : Nat
  ctx : Nat
  va : DWord
  len : Nat
  key : Word
  deriving DecidableEq, Repr, Inhabited

/-- The privilege modes of a Tack core (R100). -/
inductive TackMode where
  | machine | supervisor | user
  deriving DecidableEq, Repr, Inhabited

/-- A Tack core: the RISC-V registers the Xdreox instructions use, and its pending signals (R100-R104). -/
structure TackCore where
  /-- x1-x31: sorted, none at zero; x0 reads as zero -/
  x : List (Nat × DWord)
  pc : DWord
  mode : TackMode
  mcause : DWord
  mepc : DWord
  mtval : DWord
  mtvec : DWord
  mstatus : DWord
  pending : DWord
  /-- a SIGWAIT in progress: since which cycle (R104) -/
  waiting : Option Nat
  deriving DecidableEq, Repr, Inhabited

/-- A packet buffer entry (R102, R105). -/
structure PacketEntry where
  words : List DWord
  /-- filled by an RFETCH that returned 1 -/
  filled : Bool
  dispatched : Bool
  queue : Nat
  index : DWord
  /-- the context that owns it, and a replica's Cinch generation (R106, R107) -/
  ctx : Nat
  generation : Option DWord
  deriving DecidableEq, Repr, Inhabited

/-- A system command taken and not yet finished (R455, R457). -/
structure SysCommand where
  code : Nat
  args : List DWord
  compl : DWord
  index : DWord
  deriving DecidableEq, Repr, Inhabited

/-- A compute die's firmware-side state (R90-R112, R255, R259). -/
structure Die where
  queues : List Queue
  xs : DWord
  cinchCount : Nat
  buffer : List (Nat × PacketEntry)
  /-- replica intake: generation, context and packet (R106, R107) -/
  intake : List (DWord × Nat × List DWord)
  windows : List Window
  strayWakes : Nat
  running : Option SysCommand
  shared : Nat
  lowWater : Nat
  /-- the eviction engine has started and not yet reached twice the mark (R259) -/
  evicting : Bool
  tacks : List TackCore
  /-- the Tack cores' instruction store -/
  firmware : List (Nat × Byte)
  /-- error log: kind, context, address (R268, R269, R308, R446) -/
  errorLog : List (Nat × Nat × DWord)
  /-- the L2 TLB, the oldest entry first, and the walks under way (R10, R251) -/
  tlb : List TlbEntry
  walks : List Walk
  /-- the launch slot the dispatcher serves next (R117) -/
  turn : Nat
  deriving DecidableEq, Repr, Inhabited

/-- A save of suspended workgroups (R437, R440). -/
structure SaveRec where
  addr : DWord
  units : List WorkUnit
  images : List (Nat × Nat × Nat)
  deriving DecidableEq, Repr, Inhabited

/-- An address space (R248, R263, R406, R427, R432). -/
structure Context where
  num : Nat
  weight : Nat
  fpmode : BitVec 4
  root : Nat
  vectab : DWord
  saveBase : DWord
  saveLen : Nat
  /-- allocated ranges of the save area: offset, length in 64 KiB granules (R427) -/
  saveUsed : List (Nat × Nat)
  step : Word
  elided : DWord
  saves : List SaveRec
  deriving DecidableEq, Repr, Inhabited

/-- A SEGATT waiting for a reload (R288): its unit, the numbers of its outstanding results and its tag. -/
structure SegWaiter where
  unit : Nat
  results : List Nat
  tag : Nat
  deriving DecidableEq, Repr, Inhabited

/-- A named segment's record (R264) with its place in its core's area. -/
structure Segment where
  name : DWord
  ctx : Nat
  backing : DWord
  size : Nat
  life : Nat
  n : Nat
  gen : BitVec 16
  core : Option Nat
  att : Nat
  dirty : BitVec 128
  offset : Nat
  lastAttach : Nat
  wbFailed : Bool
  dropAtZero : Bool
  /-- a reload onto `core` is in progress; with `fresh`, the load of a create, before which there was no record (R288) -/
  reloading : Bool
  fresh : Bool
  /-- SEGATTs waiting for it -/
  waiters : List SegWaiter
  deriving DecidableEq, Repr, Inhabited

/-- A lifetime hint record (R260), with the page's physical base and the logarithm of its size. -/
structure HintRec where
  base : Nat
  logSize : Nat
  next : Word
  hinted : Bool
  pri : BitVec 2
  dead : Bool
  deriving DecidableEq, Repr, Inhabited

/-- A memory request of one word to one controller (R257). -/
structure MemRequest where
  id : Nat
  controller : Nat
  core : Nat
  gang : GangRef
  sectors : Nat
  deriving DecidableEq, Repr, Inhabited

/-- A controller's averaging window (R258): requests in use summed over the cycles from `start` to `upTo`. -/
structure Controller where
  num : Nat
  acc : Nat
  start : Nat
  upTo : Nat
  deriving DecidableEq, Repr, Inhabited

/-- What answers a host message (R109-R111). -/
inductive Response where
  | ok
  | accessError
  | unsupported
  | data (bytes : List Byte)
  deriving DecidableEq, Repr, Inhabited

/-- What a request to another chip is for: a store, a result whose value its answer brings (its number, slice, lane or none for a scalar
register, first register, and the answer's offset in bytes), or the close of a window (R371, R383). -/
inductive Purpose where
  | store
  | result (id slice : Nat) (lane : Option Nat) (reg offset : Nat)
  | close (scope set k : Nat)
  deriving DecidableEq, Repr, Inhabited

/-- A request to another chip that is not answered yet (R371): its number, the launch, the unit and the slices it came from, and whether
their later words must wait for the answer (R357). -/
structure LinkRequest where
  id : Nat
  die : Nat
  lslot : Nat
  unit : Nat
  slices : List Nat
  strong : Bool
  purpose : Purpose
  deriving DecidableEq, Repr, Inhabited

/-- A window of a replica run as the home banks of this chip hold it (R383): its contributions, and the chips that have closed it, each with
the link and the number of the signal to be answered. -/
structure RunWindow where
  run : RunRef
  scope : Nat
  set : Nat
  k : Nat
  contribs : List Contribution
  signals : List (Nat × Option (Nat × Nat))
  deriving DecidableEq, Repr, Inhabited

/-- A scale-up link (R369-R371); one not listed is at its reset value. -/
structure Link where
  num : Nat
  /-- flits sent and not yet acknowledged -/
  replay : List Flit
  expected : Nat
  discarding : Bool
  inService : Bool
  /-- the number of the next flit sent -/
  nextSeq : Nat
  /-- since when a replay is under way, and the number of the first flit that is not part of it -/
  replaySince : Option (Nat × Nat)
  /-- requests not yet answered -/
  outstanding : List LinkRequest
  /-- flits on the wire, and replay requests sent back -/
  sent : List Flit
  requests : List Nat
  deriving DecidableEq, Repr, Inhabited

/-- A candidate of a search: distance bits, node, expanded (R341, R342). -/
structure Candidate where
  dist : Word
  node : Word
  expanded : Bool
  deriving DecidableEq, Repr, Inhabited

/-- A neighbour list as its home unit read it, or the fault met (R337, R345). -/
structure ListReply where
  node : Word
  count : Word
  ids : List Word
  fault : Option Cause
  deriving DecidableEq, Repr, Inhabited

/-- A node's distance as its home unit computed it, or the fault met (R340, R345). -/
structure DistReply where
  node : Word
  dist : Word
  fault : Option Cause
  deriving DecidableEq, Repr, Inhabited

/-- The messages of a query under way (R345). -/
inductive SearchMsg where
  | expand (node : Word)
  | list (r : ListReply)
  | eval (node : Word)
  | dist (r : DistReply)
  deriving DecidableEq, Repr, Inhabited

/-- A running search query (R338, R342, R345). -/
structure Query where
  id : Nat
  core : Nat
  bank : Nat
  queue : Nat
  unit : Nat
  ctx : Nat
  command : Nat
  packet : DWord
  /-- header words 0-7 and descriptor words 0-31 -/
  head : List DWord
  graph : List DWord
  vector : List Byte
  owner : Nat
  visited : List Word
  cands : List Candidate
  /-- members of this round's expansion, in key order; lists received; nodes to evaluate; distances received -/
  expand : List Word
  lists : List ListReply
  fresh : List Word
  dists : List DistReply
  msgs : List SearchMsg
  /-- round 0, which evaluates the entry points, is over -/
  started : Bool
  full : Bool
  rounds : Nat
  evals : Nat
  badids : Nat
  hops : Nat
  /-- finished with a status and cause, 0xFF where nothing is written; its writes follow in queue order (R348, R350) -/
  outcome : Option (Nat × Option Cause)
  deriving DecidableEq, Repr, Inhabited

/-- A collective in flight at this chip (R309-R311). -/
structure Collective where
  id : Nat
  die : Nat
  lslot : Nat
  unit : Nat
  core : Nat
  bank : Nat
  command : Nat
  cnum : Nat
  occurrence : Nat
  params : CollParams
  dst : DWord
  counter : DWord
  ctx : Nat
  generation : DWord
  inputs : List (Nat × List Byte)
  failed : Option Cause
  since : Nat
  deriving DecidableEq, Repr, Inhabited

/-- A SCHED or CANCEL of a lane that runs as no event, on its way to the originator (R146, R148): to the domain of one launch, or with
the target and the place of the status it is to report. -/
structure NonEventMsg where
  id : Nat
  ctx : Nat
  /-- the launch whose domain it is for -/
  launch : Nat
  sched : Option EventRec
  target : DWord
  unit : Nat
  slice : Nat
  lane : Nat
  result : Nat
  dst : Nat
  deriving DecidableEq, Repr, Inhabited

/-- One firmware image of the boot flash (R453). -/
structure BootImage where
  bytes : List Byte
  digest : BitVec 256
  svn : DWord
  signature : List Byte
  deriving DecidableEq, Repr, Inhabited

/-- Whose turn a step is: a device step of the table, the next word of an issue gang, or a Tack core's next instruction.
(The model's own: the schedule stands in the state as plain data.) -/
inductive Turn where
  | event (i : Instr)
  /-- a system command of the die's queue 0 (R455) -/
  | system (die : Nat) (i : Instr)
  | gang (g : GangRef)
  | tack (die core : Nat)
  /-- an interrupt reaches a Tack core (R104) -/
  | interrupt (die core cause : Nat)
  /-- a page-table walk of a core starts, or the oldest walk of a die ends and fills the TLBs (R251) -/
  | walk (core ctx va : Nat)
  | fill (die : Nat)
  /-- a soft error in a die's storage, at an address or place in it, that its code corrects (R268) -/
  | corrected (die : Nat) (place : DWord)
  deriving DecidableEq, Repr

/-- The package. -/
structure State where
  clock : Nat
  agenda : List (Nat × Turn)
  cur : GangRef
  curTack : Nat × Nat
  /-- the core through whose TLBs this step's accesses go; none for a device (R251) -/
  via : Option Nat
  freeIdx : Nat
  nextId : Nat
  booted : Bool
  bootFailed : Bool
  portsUp : Bool
  chip : Nat
  negotiated : Bool
  features : BitVec 256
  n : Nat
  place : Bool
  fpmode : BitVec 4
  seeds : List DWord
  flash : List BootImage
  rootDigest : BitVec 256
  rootKey : List Byte
  minSvn : List DWord
  resets : DWord
  idKey : List Byte
  idCert : List Byte
  inService : List Nat
  clockMHz : Nat
  power : Nat
  temps : List Nat
  limitClearSince : Nat
  thermalStopped : Bool
  mem : List Host.Cell
  /-- uncorrectable units of storage, by the address of their first byte (R268) -/
  badSectors : List Nat
  corrected : DWord
  uncorrected : DWord
  chips : List Nat
  /-- hint records by their leaf entry's address; one not listed is at its defaults (R260) -/
  hints : List (Nat × HintRec)
  /-- runs of frames in use, as the device last counted them (R259) -/
  usedFrames : List (Nat × Nat)
  dies : List Die
  contexts : List Context
  cores : List Core
  units : List WorkUnit
  launches : List Launch
  segments : List Segment
  requests : List MemRequest
  controllers : List Controller
  responses : List Response
  links : List Link
  queries : List Query
  collectives : List Collective
  early : List CollMessage
  messages : List NonEventMsg
  /-- windows of replica runs at this chip's home banks, and the chips of a run whose units have all exited (R383) -/
  runWindows : List RunWindow
  runEnds : List (DWord × Nat)
  /-- ring items read whose FREE has not come up yet (R390): header, consumer, index -/
  ringFrees : List (Nat × Nat × Nat)
  deriving DecidableEq, Repr

/-- A Tack core after reset: machine mode and every register zero (PRESUMED the RISC-V family's, entry 8). -/
def TackCore.reset : TackCore :=
  { x := [], pc := 0, mode := .machine, mcause := 0, mepc := 0, mtval := 0, mtvec := 0, mstatus := 0, pending := 0,
    waiting := none }

/-- A die after reset: no queue, the lottery state 1 (R99), SHARED 0 (R255), the low-water mark at 1/64 of the die's
196,608 MiB of HBM in 64 KiB frames (R259). -/
def Die.reset : Die :=
  { queues := [], xs := 1, cinchCount := 0, buffer := [], intake := [], windows := [], strayWakes := 0, running := none,
    shared := 0, lowWater := 49152, evicting := false, tacks := List.replicate 8 TackCore.reset, firmware := [], errorLog := [],
    tlb := [], walks := [], turn := 0 }

/-- The package right after reset, its boot ROMs not yet run (R453): ports down, nothing negotiated, nothing resident. -/
def State.reset : State :=
  { clock := 0, agenda := [], cur := ⟨0, 0, 0⟩, curTack := (0, 0), via := none, freeIdx := 0, nextId := 1, booted := false,
    bootFailed := false, portsUp := false, chip := 0, negotiated := false, features := 0, n := 0, place := false,
    fpmode := 0, seeds := [0, 0, 0, 0], flash := [], rootDigest := 0, rootKey := [], minSvn := [0, 0, 0, 0], resets := 0,
    idKey := [], idCert := [], inService := [96, 96, 96, 96], clockMHz := 1750, power := 0, temps := [0, 0, 0, 0],
    limitClearSince := 0, thermalStopped := false, mem := [], badSectors := [], corrected := 0, uncorrected := 0,
    chips := [0], hints := [], usedFrames := [], dies := List.replicate 4 Die.reset, contexts := [], cores := [], units := [],
    launches := [], segments := [], requests := [], controllers := [], responses := [], links := [], queries := [],
    collectives := [], early := [], messages := [], runWindows := [], runEnds := [], ringFrees := [] }

end Sys2Proof.Machine
end

