-- ==== Sys2Proof/Machine/Sparse.lean ====
section
/-! DEFINITION. Sparse tables: lists sorted by key that list no entry at the default, so that equal tables are equal data.
Memory, register files and scratchpads are held so. -/

namespace Sys2Proof.Machine

/-- The value at a key; the default where none is listed. -/
def sparseGet (d : α) : List (Nat × α) → Nat → α
  | [], _ => d
  | (k, v) :: t, a => if k = a then v else sparseGet d t a

/-- Put a value at a key of a sorted list. -/
def sparsePut : List (Nat × α) → Nat → α → List (Nat × α)
  | [], a, x => [(a, x)]
  | (k, v) :: t, a, x =>
    if k = a then (a, x) :: t else if a < k then (a, x) :: (k, v) :: t else (k, v) :: sparsePut t a x

/-- Take a key out of a list. -/
def sparseErase : List (Nat × α) → Nat → List (Nat × α)
  | [], _ => []
  | (k, v) :: t, a => if k = a then sparseErase t a else (k, v) :: sparseErase t a

/-- Set the value at a key: an entry at the default is not listed. -/
def sparseSet [DecidableEq α] (d : α) (l : List (Nat × α)) (a : Nat) (x : α) : List (Nat × α) :=
  if x = d then sparseErase l a else sparsePut l a x

/-- Whether a key is listed. -/
def sparseHas : List (Nat × α) → Nat → Bool
  | [], _ => false
  | (k, _) :: t, a => if k = a then true else sparseHas t a

/-- Keys strictly rising, the first above `low`. -/
def sparseSorted : Option Nat → List (Nat × α) → Bool
  | _, [] => true
  | low, (k, _) :: t => (match low with | none => true | some b => decide (b < k)) && sparseSorted (some k) t

/-- The canonical form: keys strictly rising, no entry at the default. -/
def sparseWf [DecidableEq α] (d : α) (l : List (Nat × α)) : Bool :=
  sparseSorted none l && l.all fun e => decide (e.2 ≠ d)

/-- The natural number of bytes, the first the lowest (R2). -/
def leNat : List Byte → Nat
  | [] => 0
  | b :: t => b.toNat + 256 * leNat t

/-- The n bytes of a number, the lowest first (R2). -/
def natLe : Nat → Nat → List Byte
  | 0, _ => []
  | n + 1, x => BitVec.ofNat 8 x :: natLe n (x / 256)

/-- n bytes of a sparse byte table from an address on. -/
def sparseBytes (l : List (Nat × Byte)) (a n : Nat) : List Byte :=
  (List.range n).map fun k => sparseGet 0 l (a + k)

/-- Bytes written to a sparse byte table from an address on. -/
def sparseWrite (l : List (Nat × Byte)) (a : Nat) : List Byte → List (Nat × Byte)
  | [] => l
  | b :: t => sparseWrite (sparseSet 0 l a b) (a + 1) t

/-- The element at a place of a list, or the default. -/
def listAt [Inhabited α] (l : List α) (i : Nat) : α := l.getD i default

/-- A list with the element at a place changed. -/
def listModify (l : List α) (i : Nat) (f : α → α) : List α := l.mapIdx fun j x => if j = i then f x else x

/-- A list with the element at a place changed; places that it does not reach hold d. -/
def listChange (d : α) (f : α → α) : List α → Nat → List α
  | [], 0 => [f d]
  | [], i + 1 => d :: listChange d f [] i
  | x :: t, 0 => f x :: t
  | x :: t, i + 1 => x :: listChange d f t i

/-- The least of a list. -/
def listMin : List Nat → Option Nat
  | [] => none
  | a :: t => some (t.foldl min a)

/-- The natural numbers of a mask, lowest first. -/
def maskList (n w : Nat) : List Nat := (List.range n).filter fun i => w.testBit i

/-- A mask of a list of natural numbers. -/
def maskOf (l : List Nat) : Nat := l.foldl (fun m i => m ||| 2 ^ i) 0

/-- Sort a list by a strict order, keeping equals in their order. -/
def insertBy (lt : α → α → Bool) (x : α) : List α → List α
  | [] => [x]
  | y :: t => if lt x y then x :: y :: t else y :: insertBy lt x t

def sortBy (lt : α → α → Bool) (l : List α) : List α := l.foldl (fun acc x => insertBy lt x acc) []

/-- Numbers of a list, each once, ascending. -/
def sortedNats (l : List Nat) : List Nat := (sortBy (fun a b => decide (a < b)) l).eraseDups

end Sys2Proof.Machine
end

