-- ==== Sys2Proof/Machine/Memory.lean ====
section
/-! DEFINITION. Physical memory and translation: the local map of R245, the unmapped accesses of R246, the page-table walk of
R248-R250, the hint records' dead pages of R262 and the uncorrectable sectors of R268 and R269. An unlisted byte of memory
reads as 0 (entry 4). -/

namespace Sys2Proof.Machine

/-! ### Cores and dies (R9, R10) -/

def emptyBank : Bank := { barriers := [], queues := [[], [], [], []], pipes := [], lastOp := none }

/-- A core at its reset value. -/
def freshCore (n : Nat) : Core :=
  { num := n, active := 0, quantumStart := 0, swapAt := none, deficits := [], congestion := [], waiting := [], outgoing := [], bank0 := emptyBank, bank1 := emptyBank,
    segArea := [], badArea := [], tlb := [] }

/-- A core; one not listed is at its reset value. -/
def State.core (s : State) (n : Nat) : Core := (s.cores.find? (·.num == n)).getD (freshCore n)

/-- Put a core into the list, which stays sorted by number. -/
def putCore : List Core → Core → List Core
  | [], c => [c]
  | d :: t, c => if d.num = c.num then c :: t else if c.num < d.num then c :: d :: t else d :: putCore t c

/-- The logical core's die: each die supplies a quarter of the logical cores, numbered by die (R113, R459). -/
def State.coreDie (s : State) (core : Nat) : Nat := if s.n < 4 then 0 else core / (s.n / 4)

/-- The cluster of eight cores that a die's core belongs to (R9). -/
def clusterOf (core : Nat) : Nat := core / 8

/-- The die a scale-up link belongs to (R9). -/
def linkDie (link : Nat) : Nat := link / 9

/-! ### Physical bytes -/

/-- The chip number of a fabric physical address (R245). -/
def fabChip (pa : Nat) : Nat := pa / 2 ^ 48

/-- The local address within a fabric physical address (R245). -/
def fabLocal (pa : Nat) : Nat := pa % 2 ^ 48

/-- The fabric address of a local one of this chip (R245). -/
def State.fab (s : State) (loc : Nat) : Nat := s.chip * 2 ^ 48 + loc

/-- Local HBM (R245). -/
def inHbm (loc : Nat) : Bool := decide (loc < 0x00C000000000)

/-- Local capacity tier (R245). -/
def inCapacity (loc : Nat) : Bool := decide (0x100000000000 ≤ loc ∧ loc < 0x130000000000)

/-- The wake region (R93, R245). -/
def inWake (pa : Nat) : Bool := (fabLocal pa) / 2 ^ 40 == 0xFE

/-- The die of a local address of HBM or the capacity tier (R245). -/
def memoryDie (loc : Nat) : Nat := if inHbm loc then loc / 0x3000000000 else (loc - 0x100000000000) / 0xC000000000

/-- The die and offset of an address of addressable shared store, if it is in that part of the map (R245). -/
def sharedPlace (loc : Nat) : Option (Nat × Nat) :=
  if 0xFC0000000000 ≤ loc ∧ loc < 0xFC0400000000 then some ((loc / 2 ^ 32) % 4, loc % 2 ^ 32) else none

/-- Bytes of addressable shared store of a die (R255); of another chip's, its greatest (entry 7). -/
def State.sharedSize (s : State) (chip die : Nat) : Nat :=
  if chip = s.chip then ((s.dies[die]?).map (·.shared)).getD 0 * 0x800000 else 12 * 0x800000

/-- Context 0's page table: its pages lie in the top 1 MiB of stack 0 (R454): the root, one level-2 table and eight level-3 tables
(entry 24). -/
def bootRoot : Nat := 0x0FFFF00000

/-- The pages of context 0's table, which no page of any context maps and no host access reaches (R454). -/
def inBootTables (loc : Nat) : Bool := decide (bootRoot ≤ loc ∧ loc < bootRoot + 0x100000)

/-- Whether a fabric address lies in a mapped range of a chip of the domain (R245, R246, R454). -/
def State.mapped (s : State) (pa : Nat) : Bool :=
  let loc := fabLocal pa
  decide (fabChip pa < 4608) && !inBootTables loc && (fabChip pa == s.chip || s.chips.contains (fabChip pa)) &&
  (inHbm loc || inCapacity loc || inWake pa ||
    match sharedPlace loc with
    | some (die, o) => decide (o < s.sharedSize (fabChip pa) die)
    | none => false)

/-- The byte at a fabric physical address: 0 where none is listed (entry 4). -/
def State.byteAt (s : State) (pa : Nat) : Byte := sparseGet 0 s.mem pa

/-- n bytes from a physical address on. -/
def State.bytesAt (s : State) (pa n : Nat) : List Byte := sparseBytes s.mem pa n

/-- The little-endian number in n bytes (R2). -/
def State.natAt (s : State) (pa n : Nat) : Nat := leNat (s.bytesAt pa n)

/-- The canonical form of memory: addresses strictly rising, no byte listed that reads as an unlisted one. -/
def Memory.wf (m : List Host.Cell) : Bool := sparseWf 0 m

/-- Bytes of each of a die's 256 shared-store banks (R9, R255). -/
def sharedBankBytes : Nat := 384 * 1024

/-- The home die and bank of a local address: of addressable shared store, HBM or the capacity tier (R256). -/
def homeBank (loc : Nat) : Nat × Nat :=
  match sharedPlace loc with
  | some (die, o) => (die, bitsOf o 15 8)
  | none => (memoryDie loc, bitsOf loc 15 8 ^^^ bitsOf loc 23 16)

/-- The unit in which storage goes bad (R268): 8 bytes of shared store, a 64-byte line of the capacity tier, a 32-byte HBM sector. -/
def errorUnit (loc : Nat) : Nat := if (sharedPlace loc).isSome then 8 else if inCapacity loc then 64 else 32

/-- The first byte of the unit that holds an address. -/
def unitStart (pa : Nat) : Nat := pa / errorUnit (fabLocal pa) * errorUnit (fabLocal pa)

/-- The 32-byte sectors of n bytes (R257). -/
def sectorsOf (pa n : Nat) : List Nat := if n = 0 then [] else (List.range ((pa % 32 + n + 31) / 32)).map (pa / 32 + ·)

/-- Whether an uncorrectable unit meets n bytes. -/
def meetsUnit (pa n b : Nat) : Bool := decide (b < pa + n ∧ pa < b + errorUnit (fabLocal b))

/-- Whether any of the bytes lies in an uncorrectable unit of storage (R269). -/
def State.uncorrectableAt (s : State) (pa n : Nat) : Bool := s.badSectors.any (meetsUnit pa n)

/-- A page's hint record at its defaults (R260). -/
def freshHint (base logSize : Nat) : HintRec :=
  { base := base, logSize := logSize, next := 0, hinted := false, pri := 1, dead := false }

/-- The hint record of the page that a leaf entry names (R260). -/
def State.hintOf (s : State) (pte base logSize : Nat) : HintRec := sparseGet (freshHint base logSize) s.hints pte

/-- Put a page's hint record. -/
def State.setHint (s : State) (pte : Nat) (r : HintRec) : State :=
  { s with hints := sparseSet (freshHint r.base r.logSize) s.hints pte r }

/-- Whether a record's page holds an address. -/
def HintRec.covers (r : HintRec) (pa : Nat) : Bool := decide (r.base ≤ pa ∧ pa < r.base + 2 ^ r.logSize)

/-- Whether an address lies in a dead page (R262). -/
def State.deadAt (s : State) (pa : Nat) : Bool := s.hints.any fun e => e.2.dead && e.2.covers pa

/-- The first write to a dead page clears DEAD (R262). -/
def State.revive (s : State) (pa : Nat) : State :=
  if s.deadAt pa then
    let clear := fun (e : Nat × HintRec) =>
      if e.2.covers pa then
        let r := { e.2 with dead := false }
        if r = freshHint r.base r.logSize then none else some (e.1, r)
      else some e
    { s with hints := s.hints.filterMap clear }
  else s

/-- A write reaches every snapshot: a word changed by other than a merge reads as memory holds it (R400). -/
def State.dropSnapshot (s : State) (pa n : Nat) : State :=
  if s.units.all (·.snapshot.isEmpty) then s
  else
    let keep := fun e : Nat × Byte => !(decide (pa ≤ e.1 ∧ e.1 < pa + n))
    { s with units := s.units.map fun u => { u with snapshot := u.snapshot.filter keep } }

/-- Store bytes at a physical address. -/
def State.storeBytes (s : State) (pa : Nat) (bs : List Byte) : State :=
  let s := (s.revive pa).dropSnapshot pa bs.length
  { s with mem := sparseWrite s.mem pa bs }

/-- Of the bad units a word or command wrote, those it wrote whole become good again; the others are logged with address and context
on the die of the address (R269). -/
def State.settleSectors (s : State) (ctx : Nat) (writes : List (Nat × Nat)) : State :=
  let hit := s.badSectors.filter fun b => writes.any fun w => meetsUnit w.1 w.2 b
  hit.foldl (init := s) fun s b =>
    let full := (List.range (errorUnit (fabLocal b))).all fun k => writes.any fun w => decide (w.1 ≤ b + k ∧ b + k < w.1 + w.2)
    if full then { s with badSectors := s.badSectors.erase b }
    else
      { s with dies := listModify s.dies (homeBank (fabLocal b)).1 fun d =>
                 { d with errorLog := d.errorLog ++ [(0x15, ctx, BitVec.ofNat 64 b)] } }

/-- Store the bytes of one word or command. -/
def State.storeAll (s : State) (ctx : Nat) (writes : List (Nat × List Byte)) : State :=
  let s := writes.foldl (init := s) fun s w => s.storeBytes w.1 w.2
  s.settleSectors ctx (writes.map fun w => (w.1, w.2.length))

/-! ### Translation -/

/-- The accesses that translation tells apart (R250). -/
inductive Access where
  | read | write | fetch
  deriving DecidableEq, Repr, Inhabited

/-- A translation fault with the walk level it came from, 0 when not from a walk (R417). -/
abbrev WalkFault := Cause × Nat

/-- Virtual addresses are 55 bits, sign-extended (R248). -/
def canonicalVa (va : Nat) : Bool := va / 2 ^ 54 == 0 || va / 2 ^ 54 == 1023

/-- A valid table entry obeys R249 (R250). -/
def tableEntryOk (e : Nat) : Bool :=
  bitsOf e 6 1 == 0 && bitsOf e 15 7 == 0 && bitsOf e 63 48 == 0 && inHbm (bitsOf e 47 16 * 65536)

/-- A valid leaf entry obeys R249 (R250). -/
def State.leafEntryOk (s : State) (level e : Nat) : Bool :=
  let frame := bitsOf e 47 16 * 65536
  bitOf e 1 && bitsOf e 15 7 == 0 && bitsOf e 63 61 == 0 && (level == 3 || bitsOf e 28 16 == 0) &&
  (!bitOf e 6 || (bitsOf e 60 48 == s.chip && (inHbm frame || inCapacity frame)))

/-- The walk's levels: number, lowest index bit (R248). -/
def walkLevels : List (Nat × Nat) := [(1, 42), (2, 29), (3, 16)]

/-- The page-table walk (R248-R250): the table at a local address, the levels still to walk. -/
def State.walk (s : State) (va : Nat) : Nat → List (Nat × Nat) → Except WalkFault Leaf
  | _, [] => .error (.pageNotPresent, 0)
  | table, (level, low) :: rest =>
    let pte := s.fab (table + 8 * (va / 2 ^ low % 8192))
    let e := s.natAt pte 8
    if !bitOf e 0 then .error (.pageNotPresent, level)
    else if bitOf e 1 then
      if level ≠ 1 ∧ s.leafEntryOk level e then
        let base := bitsOf e 60 48 * 2 ^ 48 + bitsOf e 47 16 * 65536
        .ok { pa := base + va % 2 ^ low, kind := bitsOf e 5 4, w := bitOf e 2, x := bitOf e 3, mov := bitOf e 6,
              base := base, logSize := low, pte := pte, level := level }
      else .error (.pteMalformed, level)
    else if level = 3 ∨ !tableEntryOk e then .error (.pteMalformed, level)
    else s.walk va (bitsOf e 47 16 * 65536) rest

/-- The context of a number. -/
def State.context (s : State) (n : Nat) : Option Context := s.contexts.find? (·.num == n)

/-- Whether a TLB entry holds a context's address. -/
def TlbEntry.covers (e : TlbEntry) (ctx va : Nat) : Bool :=
  e.ctx == ctx && decide (e.va ≤ va ∧ va < e.va + 2 ^ e.leaf.logSize)

/-- The leaf that the TLBs of the accessing core hold for an address: its own, then its die's (R10, R251). -/
def State.tlbLeaf (s : State) (ctx va : Nat) : Option Leaf :=
  match s.via with
  | none => none
  | some n =>
    let l2 := ((s.dies[s.coreDie n]?).map (·.tlb)).getD []
    (((s.core n).tlb ++ l2).find? (·.covers ctx va)).map fun e => { e.leaf with pa := e.leaf.base + (va - e.va) }

/-- The leaf of an address: from the TLBs, else by a walk from the context's root (R248, R251). -/
def State.leafOf (s : State) (c : Context) (va : Nat) : Except WalkFault Leaf :=
  match s.tlbLeaf c.num va with
  | some l => .ok l
  | none => s.walk va c.root walkLevels

/-- Translate one byte's virtual address for an access (R246, R248-R250). -/
def State.translate (s : State) (ctx : Nat) (acc : Access) (va : Nat) : Except WalkFault Leaf :=
  match s.context ctx with
  | none => .error (.pageNotPresent, 0)
  | some c =>
    if !canonicalVa va then .error (.pageNotPresent, 0)
    else match s.leafOf c va with
      | .error f => .error f
      | .ok l =>
        if (acc == .write && !l.w) || (acc == .fetch && !l.x) then .error (.pagePermission, l.level)
        else if !s.mapped l.pa then .error (.physUnmapped, l.level)
        else .ok l

/-- At most n elements of a list, the latest. -/
def keepLast (n : Nat) (l : List α) : List α := l.drop (l.length - n)

/-- A miss in a core's TLB asks for a walk: a die runs 128 at once, and further misses wait (R10, R251). -/
def State.startWalk (s : State) (core ctx va : Nat) : State :=
  { s with dies := listModify s.dies (s.coreDie core) fun d =>
      if d.walks.length < 128 then { d with walks := d.walks ++ [⟨core, ctx, va⟩] } else d }

/-- A die's oldest walk ends: a leaf it finds enters the core's TLB and the die's, in place of their oldest entries (R10, R251). -/
def State.endWalk (s : State) (die : Nat) : State :=
  match (s.dies[die]?).bind (·.walks.head?) with
  | none => s
  | some w =>
    let found := match s.context w.ctx with
      | some c => if canonicalVa w.va then (s.walk w.va c.root walkLevels).toOption else none
      | none => none
    let s := { s with dies := listModify s.dies die fun d => { d with walks := d.walks.drop 1 } }
    match found with
    | none => s
    | some l =>
      let e : TlbEntry := ⟨w.ctx, w.va - (l.pa - l.base), l⟩
      let c := s.core w.core
      { s with
        cores := putCore s.cores { c with tlb := keepLast 256 (c.tlb ++ [e]) }
        dies := listModify s.dies die fun d => { d with tlb := keepLast 8192 (d.tlb ++ [e]) } }

/-- Invalidate the TLB copies that a test picks, on every core and die (R252, R259). -/
def State.dropTlbs (s : State) (p : TlbEntry → Bool) : State :=
  let keep := fun (l : List TlbEntry) => l.filter fun e => !p e
  { s with
    cores := s.cores.map fun c => { c with tlb := keep c.tlb }
    dies := s.dies.map fun d => { d with tlb := keep d.tlb } }

/-- A piece of an access within one 64 KiB stretch of the virtual address: its virtual start, length and leaf (R253). -/
structure Piece where
  va : Nat
  len : Nat
  leaf : Leaf
  deriving DecidableEq, Repr, Inhabited

/-- A fault of a data access with the address of its lowest faulting byte and the walk level (R274, R417). -/
structure AccessFault where
  cause : Cause
  va : Nat
  level : Nat
  deriving DecidableEq, Repr, Inhabited

/-- The pieces of n bytes at va, split at 64 KiB boundaries (R253). -/
def pieceStarts (va n : Nat) : List (Nat × Nat) :=
  if va % 65536 + n ≤ 65536 then [(va, n)]
  else
    let first := 65536 - va % 65536
    [(va, first), ((va + first) % 2 ^ 64, n - first)]

/-- The rank of a memory cause in R274's order. -/
def memRank : Cause → Nat
  | .scratchBounds => 0
  | .atomicStraddle => 1
  | .misaligned => 2
  | .pageNotPresent => 3
  | .pteMalformed => 4
  | .pagePermission => 5
  | .physUnmapped => 6
  | .mergeOverflow => 8
  | _ => 7

/-- Of two faults the one R274 ranks first; of equals the first. -/
def AccessFault.first (a b : AccessFault) : AccessFault := if memRank b.cause < memRank a.cause then b else a

/-- The piece of one stretch, or its fault. -/
def State.piece (s : State) (ctx : Nat) (acc : Access) (p : Nat × Nat) : Except AccessFault Piece :=
  match s.translate ctx acc p.1 with
  | .error f => .error ⟨f.1, p.1, f.2⟩
  | .ok l => .ok ⟨p.1, p.2, l⟩

/-- Join a piece to the pieces after it: of two faults the one R274 ranks first (entry 11). -/
def joinPiece (a : Except AccessFault Piece) (b : Except AccessFault (List Piece)) : Except AccessFault (List Piece) :=
  match a, b with
  | .ok p, .ok ps => .ok (p :: ps)
  | .error e, .error f => .error (e.first f)
  | .error e, .ok _ => .error e
  | .ok _, .error f => .error f

/-- Translate an access of n bytes, n at most 64 KiB: all its pieces, or its fault. -/
def State.pieces (s : State) (ctx : Nat) (acc : Access) (va n : Nat) : Except AccessFault (List Piece) :=
  (pieceStarts va n).foldr (fun p rest => joinPiece (s.piece ctx acc p) rest) (.ok [])

/-- The bytes an access reads from memory. -/
def State.readPieces (s : State) (ps : List Piece) : List Byte := ps.flatMap fun p => s.bytesAt p.leaf.pa p.len

/-- Cut bytes to the pieces of a store. -/
def cutPieces : List Piece → List Byte → List (Nat × List Byte)
  | [], _ => []
  | p :: t, bs => (p.leaf.pa, bs.take p.len) :: cutPieces t (bs.drop p.len)

/-- Count a read of a dead page in its context's elided-read counter (R262). -/
def State.countElided (s : State) (ctx : Nat) (ps : List Piece) : State :=
  let n := (ps.filter fun p => s.deadAt p.leaf.pa).length
  if n = 0 then s
  else { s with contexts := s.contexts.map fun c => if c.num = ctx then { c with elided := c.elided + BitVec.ofNat 64 n } else c }

/-- A device's read of n bytes at a virtual address of a context: the bytes, or the cause that stops it. Pieces of at most
64 KiB are translated each on its own (R246, R250, R269). -/
def State.deviceRead (s : State) (ctx va n : Nat) : Except Cause (List Byte) :=
  match s.pieces ctx .read va n with
  | .error f => .error f.cause
  | .ok ps => if ps.any fun p => s.uncorrectableAt p.leaf.pa p.len then .error .memUncorrectable else .ok (s.readPieces ps)

/-- A device's write at a virtual address of a context; what of it would fall into the wake region is discarded (R94). -/
def State.deviceWrite (s : State) (ctx va : Nat) (bs : List Byte) : Except Cause State :=
  match s.pieces ctx .write va bs.length with
  | .error f => .error f.cause
  | .ok ps => .ok (s.storeAll ctx ((cutPieces ps bs).filter fun w => !inWake w.1))

/-- Count a device's reads of dead pages (R262). -/
def State.countRead (s : State) (ctx va n : Nat) : State :=
  match s.pieces ctx .read va n with
  | .ok ps => s.countElided ctx ps
  | .error _ => s

/-- The lowest byte of an access that lies in an uncorrectable unit, by its virtual address (R269, R417). -/
def State.badByte (s : State) (ps : List Piece) : Option Nat :=
  ps.findSome? fun p =>
    (listMin ((s.badSectors.filter (meetsUnit p.leaf.pa p.len)).map fun b => max b p.leaf.pa)).map fun b => p.va + (b - p.leaf.pa)

/-- A device's read of k consecutive 8-byte words. -/
def State.deviceWords (s : State) (ctx va : Nat) : Nat → Except Cause (List DWord)
  | 0 => .ok []
  | k + 1 =>
    match s.deviceRead ctx va 8, s.deviceWords ctx (va + 8) k with
    | .ok b, .ok t => .ok (BitVec.ofNat 64 (leNat b) :: t)
    | .error e, _ => .error e
    | _, .error e => .error e

end Sys2Proof.Machine
end

