-- ==== Sys2Proof/Machine/Fabric.lean ====
section
/-! DEFINITION. The scale-up links as the sender has them: routes, flits sent, requests outstanding, and their answers (R369-R371). -/

namespace Sys2Proof.Machine

/-! ### Links -/

/-- A link at its reset value. -/
def freshLink (n : Nat) : Link :=
  { num := n, replay := [], expected := 0, discarding := false, inService := true, nextSeq := 0, replaySince := none, outstanding := [],
    sent := [], requests := [] }

/-- A link of the package. -/
def State.link (s : State) (n : Nat) : Link := (s.links.find? (·.num == n)).getD (freshLink n)

/-- Put a link into the list, which stays sorted by number. -/
def putLink : List Link → Link → List Link
  | [], c => [c]
  | d :: t, c => if d.num = c.num then c :: t else if c.num < d.num then c :: d :: t else d :: putLink t c

/-- The package's 36 links are numbered from 0 (R9). -/
def State.modifyLink (s : State) (n : Nat) (f : Link → Link) : State :=
  if n < 36 then { s with links := putLink s.links (f (s.link n)) } else s

/-- The link on which requests to a granule of another chip leave (R369, R371). -/
def State.route (s : State) (pa : Nat) : Nat :=
  Config.route s.chip (fabChip pa) (bitsOf pa 47 8) ((s.links.filter (!·.inService)).map (·.num)) % 36

/-- A flit leaves on a link, and stays in the replay buffer until the other side has received it (R370). -/
def Link.put (k : Link) (body : FlitBody) : Link :=
  let f : Flit := { seq := k.nextSeq, crcOk := true, upTo := k.expected, body := body }
  { k with nextSeq := k.nextSeq + 1, sent := k.sent ++ [f], replay := k.replay ++ [f] }

/-- An answer leaves on the link on which its request came. -/
def State.answerFlit (s : State) (link id : Nat) (data : List Byte) : State := s.modifyLink link fun k => k.put (.answer id data)

/-! ### Requests -/

/-- A request about to be sent: where to, what its answer is for, and its flit. -/
structure Remote where
  pa : Nat
  purpose : Purpose
  body : Nat → FlitBody

/-- Send requests, each with a number of its own: the numbers. -/
def State.sendAll (s : State) (who : LinkRequest) (rs : List Remote) : List Nat × State :=
  rs.foldl (init := ([], s)) fun acc r =>
    let id := acc.2.nextId
    let s := { acc.2 with nextId := id + 1 }
    (acc.1 ++ [id], s.modifyLink (s.route r.pa) fun k =>
      { k.put (r.body id) with outstanding := k.outstanding ++ [{ who with id := id, purpose := r.purpose }] })

/-- Cut n bytes at an address at the granules of 256 bytes: address, length, offset (R369). -/
def granulesOf (pa n : Nat) : List (Nat × Nat × Nat) :=
  if n = 0 then []
  else (List.range ((pa % 256 + n + 255) / 256)).map fun i =>
    let a := max pa ((pa / 256 + i) * 256)
    (a, min (pa + n) ((pa / 256 + i + 1) * 256) - a, a - pa)

/-- The stretches of another chip among stretches (address, length) that follow each other, cut at granules, with their offsets. -/
def State.remoteParts (s : State) : Nat → List (Nat × Nat) → List (Nat × Nat × Nat)
  | _, [] => []
  | off, (pa, n) :: t =>
    (if fabChip pa = s.chip then [] else (granulesOf pa n).map fun x => (x.1, x.2.1, off + x.2.2)) ++ s.remoteParts (off + n) t

/-- The requests outstanding from slices of a unit. -/
def State.outstandingOf (s : State) (uid : Nat) (ps : List Nat) : List LinkRequest :=
  s.links.flatMap fun k => k.outstanding.filter fun q => q.unit == uid && q.slices.any ps.contains

/-- The requests outstanding of a launch. -/
def State.launchRequests (s : State) (die slot : Nat) : List LinkRequest :=
  s.links.flatMap fun k => k.outstanding.filter fun q => q.die == die && q.lslot == slot

end Sys2Proof.Machine
end

