-- ==== Sys2Proof/Decode.lean ====
section
/-! DEFINITION. The decoder and the encoder: the word layouts of R25, R35, R36, R37, R39, R41, R42 and R101, the opcode map of
R46-R53. Words become instructions here, once; a word that is none is rejected by name. -/

namespace Sys2Proof

/-- Why words are no instruction. -/
inductive DecodeError where
  /-- an assigned opcode of 0x000-0x13F or 0x180-0x1BF in a form it does not accept (R51): ILLEGAL_OPCODE -/
  | illegalForm
  /-- a memory-range or control-range opcode whose FORM is not 00 (R38): RESERVED_FIELD -/
  | reservedForm (opcode : Nat)
  /-- a literal form with no word after it in its clause (R24): CLAUSE_CLASS -/
  | noLiteral
  /-- a custom-0 word of a Tack core that R101 makes an illegal instruction -/
  | illegalTack
  /-- a Tack word that is no Xdreox instruction -/
  | baseInstruction
  deriving DecidableEq, Repr, Inhabited

/-- Opcodes with the standard body (R46), part 1. -/
def stdTable1 : List (Nat × (StdWord → Instr)) :=
  [(0x000, .iadd), (0x001, .isub), (0x002, .imul), (0x003, .imulh), (0x004, .imad),
   (0x005, .iadd64), (0x006, .imad64), (0x007, .imin), (0x008, .imax), (0x009, .iabs),
   (0x00A, .ineg), (0x00B, .iadds), (0x010, .and), (0x011, .or), (0x012, .xor),
   (0x013, .not), (0x014, .lop3), (0x015, .shl), (0x016, .shr), (0x017, .shra),
   (0x018, .rotl), (0x019, .fshf), (0x020, .bfx), (0x021, .bfi), (0x022, .brev),
   (0x023, .popc), (0x024, .clz), (0x025, .ctz), (0x030, .icmp), (0x031, .sel)]

/-- Opcodes with the standard body (R46), part 2. -/
def stdTable2 : List (Nat × (StdWord → Instr)) :=
  [(0x032, .mov), (0x033, .movi), (0x034, .movq), (0x035, .movs), (0x036, .plut),
   (0x037, .pmov), (0x038, .icvt), (0x039, .retag), (0x040, .sread), (0x041, .swrite),
   (0x042, .vrdi), (0x043, .vwri), (0x080, .fadd), (0x081, .fsub), (0x082, .fmul),
   (0x083, .ffma), (0x084, .fmin), (0x085, .fmax), (0x086, .fcmp), (0x087, .fclass),
   (0x088, .frnd), (0x089, .fcvt), (0x08A, .fscale), (0x090, .frcp), (0x091, .fsqrt),
   (0x092, .frsq), (0x093, .fex2), (0x094, .flg2), (0x095, .fsin), (0x096, .fcos)]

/-- Opcodes with the standard body (R46), part 3. -/
def stdTable3 : List (Nat × (StdWord → Instr)) :=
  [(0x0A0, .dadd), (0x0A1, .dmul), (0x0A2, .dfma), (0x0A3, .dcmp), (0x0B0, .hadd2),
   (0x0B1, .hmul2), (0x0B2, .hfma2), (0x0B3, .dot4), (0x0C0, .qpack), (0x0C1, .qunpk),
   (0x0C2, .rand), (0x0C3, .fstat), (0x100, .vote), (0x101, .ballot), (0x102, .lmask),
   (0x103, .bpick), (0x108, .lget), (0x109, .xchg), (0x10C, .matchLanes), (0x10D, .redux),
   (0x110, .brx), (0x111, .calli), (0x118, .cohnew), (0x119, .cohfree), (0x11A, .join),
   (0x11B, .leave), (0x11C, .cbar), (0x11D, .tkwait), (0x120, .fltrd), (0x180, .sched)]

/-- Opcodes with the standard body (R46), part 4. -/
def stdTable4 : List (Nat × (StdWord → Instr)) :=
  [(0x181, .cancel), (0x182, .evqry), (0x183, .task), (0x188, .cpy), (0x189, .cpyg),
   (0x18A, .cpys), (0x18B, .tagexp), (0x18C, .twait), (0x18D, .cwait), (0x18E, .twany),
   (0x18F, .tfirst), (0x190, .eqfence), (0x191, .coll), (0x1A0, .tcfg), (0x1A1, .tzero),
   (0x1A2, .wbld), (0x1A3, .mma), (0x1A4, .mloop), (0x1A5, .mfence), (0x1A6, .mwait),
   (0x1A7, .tld), (0x1A8, .tst), (0x1B0, .annq)]

/-- Opcodes with the standard body (R46): opcode number and constructor. -/
def stdTable : List (Nat × (StdWord → Instr)) := stdTable1 ++ stdTable2 ++ stdTable3 ++ stdTable4

/-- Opcodes with the memory body (R46, R47), part 1. -/
def memTable1 : List (Nat × (MemWord → Instr)) :=
  [(0x140, .ld), (0x141, .st), (0x142, .lds), (0x143, .sts), (0x144, .ldc),
   (0x145, .pref), (0x146, .fence), (0x147, .hint), (0x148, .stepadv), (0x149, .ordadd),
   (0x14A, .oclose), (0x14B, .sop), (0x14C, .fatomAdd), (0x14D, .fatomMin), (0x14E, .fatomMax),
   (0x150, .segpub), (0x151, .segatt), (0x152, .segrel), (0x153, .segqry), (0x154, .qpush),
   (0x155, .qpop), (0x156, .qpeek), (0x160, .atomsAdd), (0x161, .atomsSmin), (0x162, .atomsSmax),
   (0x163, .atomsUmin), (0x164, .atomsUmax), (0x165, .atomsAnd), (0x166, .atomsOr), (0x167, .atomsXor)]

/-- Opcodes with the memory body (R46, R47), part 2. -/
def memTable2 : List (Nat × (MemWord → Instr)) :=
  [(0x168, .atomsExch), (0x169, .atomsCas), (0x16A, .atomsIncw), (0x16B, .atomsDecw), (0x170, .atomAdd),
   (0x171, .atomSmin), (0x172, .atomSmax), (0x173, .atomUmin), (0x174, .atomUmax), (0x175, .atomAnd),
   (0x176, .atomOr), (0x177, .atomXor), (0x178, .atomExch), (0x179, .atomCas), (0x17A, .atomIncw),
   (0x17B, .atomDecw)]

/-- Opcodes with the memory body (R46, R47): opcode number and constructor. -/
def memTable : List (Nat × (MemWord → Instr)) := memTable1 ++ memTable2

/-- Opcodes with the control body (R46), part 1. -/
def ctlTable1 : List (Nat × (CtlWord → Instr)) :=
  [(0x1C0, .bra), (0x1C1, .brc), (0x1C2, .call), (0x1C3, .ret), (0x1C4, .exit),
   (0x1C5, .regang), (0x1C6, .yield), (0x1C7, .nop), (0x1D0, .bar), (0x1D1, .arrive),
   (0x1D2, .waitb), (0x1D3, .tkpass), (0x1D4, .dmerge), (0x1E0, .tfence), (0x1E1, .trap),
   (0x1E2, .bkpt), (0x1E3, .rtt)]

/-- Opcodes with the control body (R46): opcode number and constructor. -/
def ctlTable : List (Nat × (CtlWord → Instr)) := ctlTable1

/-- Opcodes that accept the immediate form (R49). -/
def immediateOps : List Nat :=
  [0x000, 0x001, 0x002, 0x003, 0x007, 0x008, 0x00B, 0x005, 0x010, 0x011, 0x012, 0x015, 0x016,
   0x017, 0x018, 0x020, 0x030, 0x033, 0x080, 0x081, 0x082, 0x084, 0x085, 0x086, 0x08A]

/-- Opcodes that accept the literal form (R50). -/
def literalOps : List Nat :=
  immediateOps ++ [0x004, 0x006, 0x014, 0x019, 0x021, 0x031, 0x083, 0x0A0, 0x0A1, 0x0A2, 0x0A3]

/-- Opcodes whose literal is 64 bits wide (R50). -/
def wideLiteralOps : List Nat := [0x005, 0x006, 0x0A0, 0x0A1, 0x0A2, 0x0A3]

/-- The compact map (R52). -/
def pairTable : List (Nat × PairOp) :=
  [(0x00, .iadd), (0x01, .isub), (0x02, .imul), (0x03, .imin), (0x04, .imax), (0x05, .and), (0x06, .or), (0x07, .xor), (0x08, .shl), (0x09, .shr), (0x0A, .shra), (0x0B, .rotl),
   (0x10, .fadd), (0x11, .fsub), (0x12, .fmul), (0x13, .fmin), (0x14, .fmax), (0x18, .hadd2), (0x19, .hmul2)]

/-- The number of MOVI, which has no standard form (R51). -/
def opMovi : Nat := 0x033

/-- What an instruction is encoded from: its body and opcode, or nothing for a device step. -/
inductive Body where
  | std (opcode : Nat) (w : StdWord)
  | mem (opcode : Nat) (w : MemWord)
  | ctl (opcode : Nat) (w : CtlWord)
  | pair (p : PairWord)
  | raw (w : DWord)
  | tack (funct3 : BitVec 3) (rd rs1 rs2 : BitVec 5)
  /-- a device step, and whether its subject is one the part has -/
  | event (inRange : Bool)
  deriving DecidableEq, Repr

/-- The body of each instruction, with its opcode number (R46, R47). -/
def Instr.body : Instr → Body
  | .reset => .event true
  | .powerLimitThrottle => .event true
  | .clockRaise => .event true
  | .thermalStop => .event true
  | .thermalResume => .event true
  | .tailStore die queue _ => .event (decide (die < 4 ∧ queue < 4096))
  | .tailLoad die queue => .event (decide (die < 4 ∧ queue < 4096))
  | .readIndexLoad die queue => .event (decide (die < 4 ∧ queue < 4096))
  | .wakeOtherAccess _ => .event true
  | .rmaWrite m => .event (decide (m.port < 4))
  | .rmaRead m => .event (decide (m.port < 4))
  | .unsupportedRequest port => .event (decide (port < 4))
  | .rereadTick die => .event (decide (die < 4))
  | .crcReread die queue => .event (decide (die < 4 ∧ queue < 4096))
  | .arbitration die => .event (decide (die < 4))
  | .systemCommandTake die => .event (decide (die < 4))
  | .replicaArrival _ context _ => .event (decide (context < 64))
  | .cinchArrival die slot chip _ => .event (decide (die < 4 ∧ slot < 32 ∧ chip < 4608))
  | .cinchRelease die slot => .event (decide (die < 4 ∧ slot < 32))
  | .cinchTimeout die slot => .event (decide (die < 4 ∧ slot < 32))
  | .rfetch rd rs1 rs2 => .tack 0 rd rs1 rs2
  | .bfex rd rs1 rs2 => .tack 1 rd rs1 rs2
  | .sigwait rd rs1 rs2 => .tack 2 rd rs1 rs2
  | .dispatch rd rs1 => .tack 3 rd rs1 0
  | .sigwaitTimeout die core => .event (decide (die < 4 ∧ core < 8))
  | .unitPlace die slot core => .event (decide (die < 4 ∧ slot < 32 ∧ core < 384))
  | .frontierDispatch die slot core => .event (decide (die < 4 ∧ slot < 32 ∧ core < 384))
  | .taskGather die slot core => .event (decide (die < 4 ∧ slot < 32 ∧ core < 384))
  | .taskRoundEnd die slot => .event (decide (die < 4 ∧ slot < 32))
  | .attachWaitTimeout _ => .event true
  | .quantumEnd core => .event (decide (core < 384))
  | .spill _ => .event true
  | .spillTimeout die slot => .event (decide (die < 4 ∧ slot < 32))
  | .restore _ => .event true
  | .congestionReport controller => .event (decide (controller < 16))
  | .congestionLevelExpiry core controller => .event (decide (core < 384 ∧ controller < 16))
  | .hbmRequestComplete _ => .event true
  | .longResultWritten _ _ => .event true
  | .parkEnd _ => .event true
  | .clauseStart _ => .event true
  | .pairedWord p => .pair p
  | .unassignedOpcode w => .raw w
  | .spanAgreement die x => .event (decide (die < 4 ∧ x.slot < 32))
  | .batchCommit die x => .event (decide (die < 4 ∧ x.slot < 32))
  | .nonEventSchedArrival _ => .event true
  | .nonEventCancelArrival _ => .event true
  | .segmentEvict core context _ => .event (decide (core < 384 ∧ context < 64))
  | .segmentReloadComplete core context _ => .event (decide (core < 384 ∧ context < 64))
  | .pageEvict die => .event (decide (die < 4))
  | .pageBringBack die => .event (decide (die < 4))
  | .patrolScrub _ => .event true
  | .uncorrectableError _ => .event true
  | .copyPerform core bank queue => .event (decide (core < 384 ∧ bank < 2 ∧ queue < 4))
  | .collContribution _ => .event true
  | .collComplete _ => .event true
  | .collTimeout _ => .event true
  | .kStep _ => .event true
  | .matrixOperationPerform _ => .event true
  | .searchExpand _ _ => .event true
  | .searchList _ _ => .event true
  | .searchEval _ _ => .event true
  | .searchDist _ _ => .event true
  | .windowClose die slot _ _ _ => .event (decide (die < 4 ∧ slot < 32))
  | .epochMerge die slot => .event (decide (die < 4 ∧ slot < 32))
  | .flitReceive link f => .event (decide (link < 36) && f.fits)
  | .replayRequest link _ => .event (decide (link < 36))
  | .linkReplayTimeout link => .event (decide (link < 36))
  | .launchRetire die slot => .event (decide (die < 4 ∧ slot < 32))
  | .launchAbort die slot _ => .event (decide (die < 4 ∧ slot < 32))
  | .negotiate => .event true
  | .readManifest => .event true
  | .compareManifest => .event true
  | .attest => .event true
  | .createContext => .event true
  | .destroyContext => .event true
  | .ptUpdate => .event true
  | .ptInvalidate => .event true
  | .readCounters => .event true
  | .discardSave => .event true
  | .createQueue => .event true
  | .destroyQueue => .event true
  | .resumeQueue => .event true
  | .setShared => .event true
  | .setLowwater => .event true
  | .windowAdd => .event true
  | .windowRemove => .event true
  | .suspendLaunch => .event true
  | .iadd w => .std 0x000 w
  | .isub w => .std 0x001 w
  | .imul w => .std 0x002 w
  | .imulh w => .std 0x003 w
  | .imad w => .std 0x004 w
  | .iadd64 w => .std 0x005 w
  | .imad64 w => .std 0x006 w
  | .imin w => .std 0x007 w
  | .imax w => .std 0x008 w
  | .iabs w => .std 0x009 w
  | .ineg w => .std 0x00A w
  | .iadds w => .std 0x00B w
  | .and w => .std 0x010 w
  | .or w => .std 0x011 w
  | .xor w => .std 0x012 w
  | .not w => .std 0x013 w
  | .lop3 w => .std 0x014 w
  | .shl w => .std 0x015 w
  | .shr w => .std 0x016 w
  | .shra w => .std 0x017 w
  | .rotl w => .std 0x018 w
  | .fshf w => .std 0x019 w
  | .bfx w => .std 0x020 w
  | .bfi w => .std 0x021 w
  | .brev w => .std 0x022 w
  | .popc w => .std 0x023 w
  | .clz w => .std 0x024 w
  | .ctz w => .std 0x025 w
  | .icmp w => .std 0x030 w
  | .sel w => .std 0x031 w
  | .mov w => .std 0x032 w
  | .movi w => .std 0x033 w
  | .movq w => .std 0x034 w
  | .movs w => .std 0x035 w
  | .plut w => .std 0x036 w
  | .pmov w => .std 0x037 w
  | .icvt w => .std 0x038 w
  | .retag w => .std 0x039 w
  | .sread w => .std 0x040 w
  | .swrite w => .std 0x041 w
  | .vrdi w => .std 0x042 w
  | .vwri w => .std 0x043 w
  | .fadd w => .std 0x080 w
  | .fsub w => .std 0x081 w
  | .fmul w => .std 0x082 w
  | .ffma w => .std 0x083 w
  | .fmin w => .std 0x084 w
  | .fmax w => .std 0x085 w
  | .fcmp w => .std 0x086 w
  | .fclass w => .std 0x087 w
  | .frnd w => .std 0x088 w
  | .fcvt w => .std 0x089 w
  | .fscale w => .std 0x08A w
  | .frcp w => .std 0x090 w
  | .fsqrt w => .std 0x091 w
  | .frsq w => .std 0x092 w
  | .fex2 w => .std 0x093 w
  | .flg2 w => .std 0x094 w
  | .fsin w => .std 0x095 w
  | .fcos w => .std 0x096 w
  | .dadd w => .std 0x0A0 w
  | .dmul w => .std 0x0A1 w
  | .dfma w => .std 0x0A2 w
  | .dcmp w => .std 0x0A3 w
  | .hadd2 w => .std 0x0B0 w
  | .hmul2 w => .std 0x0B1 w
  | .hfma2 w => .std 0x0B2 w
  | .dot4 w => .std 0x0B3 w
  | .qpack w => .std 0x0C0 w
  | .qunpk w => .std 0x0C1 w
  | .rand w => .std 0x0C2 w
  | .fstat w => .std 0x0C3 w
  | .vote w => .std 0x100 w
  | .ballot w => .std 0x101 w
  | .lmask w => .std 0x102 w
  | .bpick w => .std 0x103 w
  | .lget w => .std 0x108 w
  | .xchg w => .std 0x109 w
  | .matchLanes w => .std 0x10C w
  | .redux w => .std 0x10D w
  | .brx w => .std 0x110 w
  | .calli w => .std 0x111 w
  | .cohnew w => .std 0x118 w
  | .cohfree w => .std 0x119 w
  | .join w => .std 0x11A w
  | .leave w => .std 0x11B w
  | .cbar w => .std 0x11C w
  | .tkwait w => .std 0x11D w
  | .fltrd w => .std 0x120 w
  | .sched w => .std 0x180 w
  | .cancel w => .std 0x181 w
  | .evqry w => .std 0x182 w
  | .task w => .std 0x183 w
  | .cpy w => .std 0x188 w
  | .cpyg w => .std 0x189 w
  | .cpys w => .std 0x18A w
  | .tagexp w => .std 0x18B w
  | .twait w => .std 0x18C w
  | .cwait w => .std 0x18D w
  | .twany w => .std 0x18E w
  | .tfirst w => .std 0x18F w
  | .eqfence w => .std 0x190 w
  | .coll w => .std 0x191 w
  | .tcfg w => .std 0x1A0 w
  | .tzero w => .std 0x1A1 w
  | .wbld w => .std 0x1A2 w
  | .mma w => .std 0x1A3 w
  | .mloop w => .std 0x1A4 w
  | .mfence w => .std 0x1A5 w
  | .mwait w => .std 0x1A6 w
  | .tld w => .std 0x1A7 w
  | .tst w => .std 0x1A8 w
  | .annq w => .std 0x1B0 w
  | .ld w => .mem 0x140 w
  | .st w => .mem 0x141 w
  | .lds w => .mem 0x142 w
  | .sts w => .mem 0x143 w
  | .ldc w => .mem 0x144 w
  | .pref w => .mem 0x145 w
  | .fence w => .mem 0x146 w
  | .hint w => .mem 0x147 w
  | .stepadv w => .mem 0x148 w
  | .ordadd w => .mem 0x149 w
  | .oclose w => .mem 0x14A w
  | .sop w => .mem 0x14B w
  | .fatomAdd w => .mem 0x14C w
  | .fatomMin w => .mem 0x14D w
  | .fatomMax w => .mem 0x14E w
  | .segpub w => .mem 0x150 w
  | .segatt w => .mem 0x151 w
  | .segrel w => .mem 0x152 w
  | .segqry w => .mem 0x153 w
  | .qpush w => .mem 0x154 w
  | .qpop w => .mem 0x155 w
  | .qpeek w => .mem 0x156 w
  | .atomsAdd w => .mem 0x160 w
  | .atomsSmin w => .mem 0x161 w
  | .atomsSmax w => .mem 0x162 w
  | .atomsUmin w => .mem 0x163 w
  | .atomsUmax w => .mem 0x164 w
  | .atomsAnd w => .mem 0x165 w
  | .atomsOr w => .mem 0x166 w
  | .atomsXor w => .mem 0x167 w
  | .atomsExch w => .mem 0x168 w
  | .atomsCas w => .mem 0x169 w
  | .atomsIncw w => .mem 0x16A w
  | .atomsDecw w => .mem 0x16B w
  | .atomAdd w => .mem 0x170 w
  | .atomSmin w => .mem 0x171 w
  | .atomSmax w => .mem 0x172 w
  | .atomUmin w => .mem 0x173 w
  | .atomUmax w => .mem 0x174 w
  | .atomAnd w => .mem 0x175 w
  | .atomOr w => .mem 0x176 w
  | .atomXor w => .mem 0x177 w
  | .atomExch w => .mem 0x178 w
  | .atomCas w => .mem 0x179 w
  | .atomIncw w => .mem 0x17A w
  | .atomDecw w => .mem 0x17B w
  | .bra w => .ctl 0x1C0 w
  | .brc w => .ctl 0x1C1 w
  | .call w => .ctl 0x1C2 w
  | .ret w => .ctl 0x1C3 w
  | .exit w => .ctl 0x1C4 w
  | .regang w => .ctl 0x1C5 w
  | .yield w => .ctl 0x1C6 w
  | .nop w => .ctl 0x1C7 w
  | .bar w => .ctl 0x1D0 w
  | .arrive w => .ctl 0x1D1 w
  | .waitb w => .ctl 0x1D2 w
  | .tkpass w => .ctl 0x1D3 w
  | .dmerge w => .ctl 0x1D4 w
  | .tfence w => .ctl 0x1E0 w
  | .trap w => .ctl 0x1E1 w
  | .bkpt w => .ctl 0x1E2 w
  | .rtt w => .ctl 0x1E3 w

/-! ### Decoding -/

/-- Y, LU, SB, PRED and PNEG of a word (R25, R35). -/
def decodeCommon (w : DWord) : Common :=
  { y := w.getLsbD 63, lu := w.extractLsb' 60 3, sb := w.extractLsb' 57 3, pred := w.extractLsb' 43 3,
    pneg := w.getLsbD 42 }

/-- Source B, source C and MOD of a standard body in one of its forms (R35-R37, R49-R51). -/
def decodeSource (opc : Nat) (form : BitVec 2) (w : DWord) (lit : Option DWord) :
    Except DecodeError (BSource × BitVec 9 × BitVec 6) :=
  if form = 2 then
    if immediateOps.contains opc then .ok (.imm (w.extractLsb' 0 24), 0, 0) else .error .illegalForm
  else if form = 3 then
    if literalOps.contains opc then
      match lit with
      | some l => .ok (.lit (w.extractLsb' 15 9) l, w.extractLsb' 6 9, w.extractLsb' 0 6)
      | none => .error .noLiteral
    else .error .illegalForm
  else if opc = opMovi then .error .illegalForm
  else .ok (.spec (w.extractLsb' 15 9), w.extractLsb' 6 9, w.extractLsb' 0 6)

/-- The memory body (R41). -/
def decodeMem (w : DWord) : MemWord :=
  { c := decodeCommon w, data := w.extractLsb' 33 9, addr := w.extractLsb' 24 9, ofs := w.extractLsb' 8 16,
    size := w.extractLsb' 5 3, scope := w.extractLsb' 3 2, order := w.extractLsb' 1 2, cache := w.getLsbD 0 }

/-- The control body (R42). -/
def decodeCtl (w : DWord) : CtlWord :=
  { c := decodeCommon w, mod := w.extractLsb' 36 6, ofs := w.extractLsb' 0 36 }

/-- One half of a paired word (R39); none where its COPC is unassigned. -/
def decodeHalf (h : BitVec 27) : Option PairHalf :=
  (pairTable.lookup (h.extractLsb' 20 7).toNat).map fun op =>
    { op := op, dst := h.extractLsb' 12 8, srcA := h.extractLsb' 8 4, srcB := h.extractLsb' 0 8 }

/-- A paired word (R39); with an unassigned COPC, no assigned word (R52, R55). -/
def decodePair (w : DWord) : Instr :=
  match decodeHalf (w.extractLsb' 27 27), decodeHalf (w.extractLsb' 0 27) with
  | some a, some b =>
    .pairedWord { y := w.getLsbD 63, lu := w.extractLsb' 60 3, sb := w.extractLsb' 57 3, rsv := w.getLsbD 54,
                  first := a, second := b }
  | _, _ => .unassignedOpcode w

/-- The instruction of a Belga word and, for the literal form, the word after it. -/
def decodeBelga (w : DWord) (lit : Option DWord) : Except DecodeError Instr :=
  if w.extractLsb' 55 2 = 1 then .ok (decodePair w)
  else
    let opc := (w.extractLsb' 46 9).toNat
    match stdTable.lookup opc with
    | some c =>
      match decodeSource opc (w.extractLsb' 55 2) w lit with
      | .ok (b, srcC, mod) =>
        .ok (c { c := decodeCommon w, dst := w.extractLsb' 33 9, srcA := w.extractLsb' 24 9, srcB := b, srcC := srcC,
                 mod := mod })
      | .error e => .error e
    | none =>
      match memTable.lookup opc with
      | some c => if w.extractLsb' 55 2 = 0 then .ok (c (decodeMem w)) else .error (.reservedForm opc)
      | none =>
        match ctlTable.lookup opc with
        | some c => if w.extractLsb' 55 2 = 0 then .ok (c (decodeCtl w)) else .error (.reservedForm opc)
        | none => .ok (.unassignedOpcode w)

/-- The Xdreox instruction of a Tack core's word (R101). -/
def decodeTack (w : Word) : Except DecodeError Instr :=
  let rd := w.extractLsb' 7 5
  let rs1 := w.extractLsb' 15 5
  let rs2 := w.extractLsb' 20 5
  if w.extractLsb' 0 7 ≠ 0x0B then .error .baseInstruction
  else if w.extractLsb' 25 7 ≠ 0 then .error .illegalTack
  else match (w.extractLsb' 12 3).toNat with
    | 0 => .ok (.rfetch rd rs1 rs2)
    | 1 => .ok (.bfex rd rs1 rs2)
    | 2 => .ok (.sigwait rd rs1 rs2)
    | 3 => if rs2 = 0 then .ok (.dispatch rd rs1) else .error .illegalTack
    | _ => .error .illegalTack

/-- Whether the word at a clause position is one after which a literal stands (R37). -/
def takesLiteral (w : DWord) : Bool :=
  w.extractLsb' 55 2 == 3 && literalOps.contains (w.extractLsb' 46 9).toNat

/-- The words of one instruction: a Tack core's, or a Belga word with its literal. -/
inductive Code where
  | tack (w : Word)
  | belga (w : DWord) (lit : Option DWord)
  deriving DecidableEq, Repr

/-- The instruction of its words. -/
def decode : Code → Except DecodeError Instr
  | .tack w => decodeTack w
  | .belga w lit => decodeBelga w lit

/-- The instruction whose bits, the first word lowest, are w (the host's numbering): 32 bits are a Tack core's word, more a
Belga word and, above it, its literal. -/
def decodeTableWord (nbits w : Nat) : Option Instr :=
  let code := if nbits ≤ 32 then Code.tack (BitVec.ofNat 32 w)
    else .belga (BitVec.ofNat 64 w) (some (BitVec.ofNat 64 (w / 2 ^ 64)))
  match decode code with
  | .ok i => some i
  | .error _ => none

/-! ### Encoding -/

/-- FORM of a source B (R25). -/
def BSource.form : BSource → BitVec 2
  | .spec _ => 0
  | .imm _ => 2
  | .lit _ _ => 3

/-- Bits [23:0] of a standard body (R35-R37). -/
def encodeSource (b : BSource) (srcC : BitVec 9) (mod : BitVec 6) : BitVec 24 :=
  match b with
  | .spec x => x ++ srcC ++ mod
  | .imm x => x
  | .lit x _ => x ++ srcC ++ mod

/-- Bits [63:55] (R25). -/
def encodeHead (y : Bool) (lu sb : BitVec 3) (form : BitVec 2) : BitVec 9 := BitVec.ofBool y ++ lu ++ sb ++ form

def encodeStd (opc : Nat) (w : StdWord) : DWord :=
  encodeHead w.c.y w.c.lu w.c.sb w.srcB.form ++ BitVec.ofNat 9 opc ++ w.c.pred ++ BitVec.ofBool w.c.pneg ++ w.dst ++
    w.srcA ++ encodeSource w.srcB w.srcC w.mod

def encodeMem (opc : Nat) (w : MemWord) : DWord :=
  encodeHead w.c.y w.c.lu w.c.sb 0 ++ BitVec.ofNat 9 opc ++ w.c.pred ++ BitVec.ofBool w.c.pneg ++ w.data ++ w.addr ++
    w.ofs ++ w.size ++ w.scope ++ w.order ++ BitVec.ofBool w.cache

def encodeCtl (opc : Nat) (w : CtlWord) : DWord :=
  encodeHead w.c.y w.c.lu w.c.sb 0 ++ BitVec.ofNat 9 opc ++ w.c.pred ++ BitVec.ofBool w.c.pneg ++ w.mod ++ w.ofs

/-- The COPC of a compact operation (R52). -/
def PairOp.code : PairOp → BitVec 7
  | .iadd => 0x00
  | .isub => 0x01
  | .imul => 0x02
  | .imin => 0x03
  | .imax => 0x04
  | .and => 0x05
  | .or => 0x06
  | .xor => 0x07
  | .shl => 0x08
  | .shr => 0x09
  | .shra => 0x0A
  | .rotl => 0x0B
  | .fadd => 0x10
  | .fsub => 0x11
  | .fmul => 0x12
  | .fmin => 0x13
  | .fmax => 0x14
  | .hadd2 => 0x18
  | .hmul2 => 0x19

def encodeHalf (h : PairHalf) : BitVec 27 := h.op.code ++ h.dst ++ h.srcA ++ h.srcB

def encodePair (p : PairWord) : DWord :=
  encodeHead p.y p.lu p.sb 1 ++ BitVec.ofBool p.rsv ++ encodeHalf p.first ++ encodeHalf p.second

def encodeTack (f3 : BitVec 3) (rd rs1 rs2 : BitVec 5) : Word :=
  (0 : BitVec 7) ++ rs2 ++ rs1 ++ f3 ++ rd ++ (0x0B : BitVec 7)

/-- The literal that stands after a word (R37). -/
def BSource.literal : BSource → Option DWord
  | .lit _ l => some l
  | _ => none

/-- The words of an instruction; none for a device step, which has no encoding. -/
def encode (i : Instr) : Option Code :=
  match i.body with
  | .std opc w => some (.belga (encodeStd opc w) w.srcB.literal)
  | .mem opc w => some (.belga (encodeMem opc w) none)
  | .ctl opc w => some (.belga (encodeCtl opc w) none)
  | .pair p => some (.belga (encodePair p) none)
  | .raw w => some (.belga w none)
  | .tack f3 rd rs1 rs2 => some (.tack (encodeTack f3 rd rs1 rs2))
  | .event _ => none

/-- MOD of a word as a number: 0 in the immediate form (R36). -/
def StdWord.m (w : StdWord) : Nat := w.mod.toNat

/-- MOD of a control body as a number. -/
def CtlWord.m (w : CtlWord) : Nat := w.mod.toNat

/-! ### Class and feature of an opcode -/

/-- The opcode classes (R24). -/
inductive OpClass where
  | alu | special | memory | matrix | async | control | branch
  deriving DecidableEq, Repr, Inhabited

/-- The class of an assigned opcode; the branch-type opcodes are apart (R24, R46). -/
def opClass (opc : Nat) : OpClass :=
  if opc < 0x090 then .alu
  else if opc < 0x0A0 then .special
  else if opc < 0x108 then if opc = 0x0C2 then .special else .alu
  else if opc < 0x110 then .special
  else if opc < 0x118 then .branch
  else if opc < 0x120 then .control
  else if opc < 0x140 then .alu
  else if opc < 0x180 then .memory
  else if opc < 0x1A0 then .async
  else if opc < 0x1B0 then .matrix
  else if opc < 0x1C0 then .async
  else if opc < 0x1C5 then .branch
  else .control

/-- The feature bit that gates an opcode (R54). -/
def opFeature (opc : Nat) : Option Nat :=
  if 0x180 ≤ opc ∧ opc ≤ 0x182 then some 4
  else if opc = 0x183 then some 5
  else if 0x150 ≤ opc ∧ opc ≤ 0x153 then some 6
  else if opc = 0x1B0 then some 7
  else if opc = 0x191 then some 8
  else if opc = 0x149 ∨ opc = 0x14A then some 9
  else if opc = 0x1D4 then some 10
  else none

/-- Whether a clause of this CLASS accepts a word of this opcode class at the given position (R24). -/
def classAccepts (cls : Nat) (k : OpClass) (last : Bool) : Bool :=
  match k with
  | .branch => last
  | .alu => cls == 0 || cls == 6
  | .special => cls == 1 || cls == 6
  | .memory => cls == 2 || cls == 6
  | .matrix => cls == 3 || cls == 6
  | .async => cls == 4 || cls == 6
  | .control => cls == 5 || cls == 6

end Sys2Proof
end

