-- ==== Sys2Proof/Machine/Packet.lean ====
section
/-! DEFINITION. The fields of launch packets, kernel descriptors and tables (R75-R88), read from the words a launch keeps. -/

namespace Sys2Proof.Machine

/-- A field of a 64-bit word. -/
def wordBits (w : DWord) (hi lo : Nat) : Nat := bitsOf w.toNat hi lo

/-- Word n of a packet or record; 0 beyond its end. -/
def wordOf (ws : List DWord) (n : Nat) : DWord := ws.getD n 0

def pktKind (ws : List DWord) : Nat := wordBits (wordOf ws 0) 3 1
def pktChk (ws : List DWord) : Bool := (wordOf ws 0).getLsbD 4
def pktPrio (ws : List DWord) : Nat := wordBits (wordOf ws 0) 9 8
def pktTickets (ws : List DWord) : Nat := wordBits (wordOf ws 0) 31 16
def pktChips (ws : List DWord) : Nat := wordBits (wordOf ws 5) 6 0
def pktAttn (ws : List DWord) : Nat := wordBits (wordOf ws 5) 12 8
def pktChip0 (ws : List DWord) : Nat := wordBits (wordOf ws 5) 28 16

namespace Launch

def kind (l : Launch) : Nat := pktKind l.words
def compl (l : Launch) : DWord := wordOf l.words 2
def seed (l : Launch) : DWord := wordOf l.words 4
def chips (l : Launch) : Nat := pktChips l.words
def chip0 (l : Launch) : Nat := pktChip0 l.words

/-! Kernel descriptor (R80). -/
def entry (l : Launch) : DWord := wordOf l.desc 0
def budget (l : Launch) : Nat := wordBits (wordOf l.desc 1) 5 0
def det (l : Launch) : Bool := (wordOf l.desc 1).getLsbD 6
def scratch (l : Launch) : Nat := wordBits (wordOf l.desc 1) 16 8
def tags (l : Launch) : Nat := wordBits (wordOf l.desc 1) 23 17
def tiles (l : Launch) : Nat := wordBits (wordOf l.desc 1) 28 24
def pgang (l : Launch) : Nat := wordBits (wordOf l.desc 1) 33 29
def cohs (l : Launch) : Nat := wordBits (wordOf l.desc 1) 38 34
def kremap (l : Launch) (kind : Nat) : Nat := wordBits (wordOf l.desc 1) (41 + 2 * kind) (40 + 2 * kind)
def karg (l : Launch) : DWord := wordOf l.desc 2

/-! Grids and the workgroup shape (R83). -/
def gx (l : Launch) : Nat := wordBits (wordOf l.words 6) 31 0
def gy (l : Launch) : Nat := wordBits (wordOf l.words 6) 63 32
def gz (l : Launch) : Nat := wordBits (wordOf l.words 7) 31 0
def wx (l : Launch) : Nat := wordBits (wordOf l.words 8) 10 0
def wy (l : Launch) : Nat := wordBits (wordOf l.words 8) 21 11
def wz (l : Launch) : Nat := wordBits (wordOf l.words 8) 32 22

/-! Frontiers (R84). -/
def xi (l : Launch) : Nat := wordBits (wordOf l.words 6) 19 0
def xj (l : Launch) : Nat := wordBits (wordOf l.words 6) 39 20
def xk (l : Launch) : Nat := wordBits (wordOf l.words 6) 59 40
def nvec (l : Launch) : Nat := wordBits (wordOf l.words 7) 50 48

/-- Vector n as (i, j, k), each component 0 to 15 (R84). -/
def vec (l : Launch) (n : Nat) : Nat × Nat × Nat :=
  let v := wordBits (wordOf l.words 7) (12 * n + 11) (12 * n)
  (bitsOf v 11 8, bitsOf v 7 4, bitsOf v 3 0)

/-! Event domains (R85). -/
def look (l : Launch) : DWord := wordOf l.words 6
def endTime (l : Launch) : DWord := wordOf l.words 7
def domainNo (l : Launch) : Nat := wordBits (wordOf l.words 10) 47 32
def hcount (l : Launch) : Nat := wordBits (wordOf l.words 10) 59 48 + 1
def rblim (l : Launch) : Nat := let r := wordBits (wordOf l.words 11) 15 0; if r = 0 then 65535 else r
def bcap (l : Launch) : Nat := let b := wordBits (wordOf l.words 11) 36 16; if b = 0 then 2 ^ 20 else b
def stepsh (l : Launch) : Nat := wordBits (wordOf l.words 11) 57 52
def stepadv (l : Launch) : Bool := (wordOf l.words 11).getLsbD 58

/-- CORES of an event domain or a task pool; 0 for every logical core (R85, R87). -/
def coresField (l : Launch) : Nat :=
  if l.kind = 2 then wordBits (wordOf l.words 11) 45 37 else wordBits (wordOf l.words 9) 8 0

/-! Task pools (R87). -/
def pcap (l : Launch) : Nat := wordBits (wordOf l.words 8) 63 32

/-- Lanes of a workgroup (R83); event and task gangs have one gang of lanes (R80). -/
def lanes (l : Launch) : Nat := if l.kind < 2 then l.wx * l.wy * l.wz else 32

/-- Home gangs of a unit (R82). -/
def gangs (l : Launch) : Nat := (l.lanes + 31) / 32

/-- Units of a grid, points of a frontier (R83, R121). -/
def unitsTotal (l : Launch) : Nat :=
  if l.kind = 0 then l.gx * l.gy * l.gz else (l.xi + 1) * (l.xj + 1) * (l.xk + 1)

/-- Whether the launch is replicated (R78). -/
def replicated (l : Launch) : Bool := decide (l.chips > 1)

end Launch

/-- The kind a page of kind k is treated as in a launch (R81): 0 SO, 1 RC, 2 UO, 3 MG. -/
def Launch.effKind (l : Launch) (k : Nat) : Nat :=
  match l.kremap k with
  | 1 => 1
  | 2 => 0
  | _ => k

end Sys2Proof.Machine
end

