-- ==== Sys2Proof/Machine/Ops.lean ====
section
/-! DEFINITION. Operations over the state: units, slices, gangs, registers and launches; taking a trap (R410) and the return
from one (R416). -/

namespace Sys2Proof.Machine

/-! ### Finding and changing parts of the state -/

def State.unit? (s : State) (uid : Nat) : Option WorkUnit := s.units.find? (·.uid == uid)

def State.modifyUnit (s : State) (uid : Nat) (f : WorkUnit → WorkUnit) : State :=
  { s with units := s.units.map fun u => if u.uid = uid then f u else u }

def State.launch? (s : State) (die slot : Nat) : Option Launch :=
  s.launches.find? fun l => l.die == die && l.slot == slot

def State.modifyLaunch (s : State) (die slot : Nat) (f : Launch → Launch) : State :=
  { s with launches := s.launches.map fun l => if l.die = die ∧ l.slot = slot then f l else l }

def State.modifyDie (s : State) (die : Nat) (f : Die → Die) : State := { s with dies := listModify s.dies die f }

def State.die (s : State) (die : Nat) : Die := listAt s.dies die

def State.modifyContext (s : State) (n : Nat) (f : Context → Context) : State :=
  { s with contexts := s.contexts.map fun c => if c.num = n then f c else c }

def State.modifyCore (s : State) (n : Nat) (f : Core → Core) : State := { s with cores := putCore s.cores (f (s.core n)) }

/-- A context bank of a core: bank 0, or the other (R10). -/
def Core.bank (c : Core) (bank : Nat) : Bank := if bank = 0 then c.bank0 else c.bank1

def Core.modifyBank (c : Core) (bank : Nat) (f : Bank → Bank) : Core :=
  if bank = 0 then { c with bank0 := f c.bank0 } else { c with bank1 := f c.bank1 }

def State.modifyBank (s : State) (core bank : Nat) (f : Bank → Bank) : State :=
  s.modifyCore core fun c => c.modifyBank bank f

def State.bank (s : State) (core bank : Nat) : Bank := (s.core core).bank bank

/-- Draw free values: their first number, and the state that has drawn n (entry 1). -/
def State.drawFree (s : State) (n : Nat) : Nat × State := (s.freeIdx, { s with freeIdx := s.freeIdx + n })

/-- A fresh identity. -/
def State.newId (s : State) : Nat × State := (s.nextId, { s with nextId := s.nextId + 1 })

/-! ### Slices and lanes -/

/-- Active lanes: active and not exited (R150). -/
def Slice.live (sl : Slice) : BitVec 4 := sl.active &&& ~~~sl.exited

def Slice.hasExited (sl : Slice) : Bool := sl.exited == 15

def WorkUnit.slice (u : WorkUnit) (p : Nat) : Slice := listAt u.slices p

def Slice.lane (sl : Slice) (j : Nat) : Lane := listAt sl.lanes j

/-- The lane of a slice position and lane number. -/
def WorkUnit.lane (u : WorkUnit) (p j : Nat) : Lane := (u.slice p).lane j

def WorkUnit.modifySlice (u : WorkUnit) (p : Nat) (f : Slice → Slice) : WorkUnit :=
  { u with slices := listModify u.slices p f }

def WorkUnit.modifySlices (u : WorkUnit) (ps : List Nat) (f : Slice → Slice) : WorkUnit :=
  { u with slices := u.slices.mapIdx fun p sl => if ps.contains p then f sl else sl }

def Slice.modifyLane (sl : Slice) (j : Nat) (f : Lane → Lane) : Slice := { sl with lanes := listModify sl.lanes j f }

/-- The positions of the slices of an issue gang, ascending (R153). -/
def WorkUnit.positions (u : WorkUnit) (home ig : Nat) : List Nat :=
  (List.range u.slices.length).filter fun p =>
    let sl := u.slice p
    sl.home == home && sl.ig == ig && !sl.hasExited

/-- An issue gang with what it runs in. -/
structure Gang where
  ref : GangRef
  u : WorkUnit
  l : Launch
  c : Context
  /-- positions of its slices, ascending -/
  ps : List Nat

/-- The issue gang a reference names, if its unit is resident and it has slices. -/
def State.gangOf (s : State) (g : GangRef) : Option Gang :=
  match s.unit? g.unit with
  | none => none
  | some u =>
    match s.launch? u.die u.lslot, s.context u.ctx with
    | some l, some c =>
      let ps := u.positions g.home g.ig
      if u.residence = .resident ∧ ps ≠ [] then some ⟨g, u, l, c, ps⟩ else none
    | _, _ => none

/-- The issue gang whose turn it is. -/
def State.gang (s : State) : Option Gang := s.gangOf s.cur

/-- The first slice of the gang: its PC and clause are the gang's. -/
def Gang.head (g : Gang) : Slice := g.u.slice (g.ps.headD 0)

def Gang.pc (g : Gang) : DWord := g.head.pc

/-- Gang lane number of lane j of the slice at position p (R152). -/
def WorkUnit.gangLane (u : WorkUnit) (p j : Nat) : Nat := 4 * (u.slice p).idx + j

/-- Every lane of the gang: (position, lane), ascending by gang lane. -/
def Gang.places (g : Gang) : List (Nat × Nat) := g.ps.flatMap fun p => [(p, 0), (p, 1), (p, 2), (p, 3)]

/-- The guard predicate (R35): p7 reads as true (R158). -/
def Lane.guard (ln : Lane) (pred : BitVec 3) (neg : Bool) : Bool :=
  xor (if pred = 7 then true else ln.p.getLsbD pred.toNat) neg

/-- The active lanes. -/
def Gang.activePlaces (g : Gang) : List (Nat × Nat) := g.places.filter fun x => (g.u.slice x.1).live.getLsbD x.2

/-- The active lanes under a guard, in ascending gang lane number (R6). -/
def Gang.executing (g : Gang) (c : Common) : List (Nat × Nat) :=
  g.activePlaces.filter fun x => (g.u.lane x.1 x.2).guard c.pred c.pneg

/-- A mask over gang lane numbers. -/
def Gang.maskOf (g : Gang) (xs : List (Nat × Nat)) : Word :=
  BitVec.ofNat 32 (Machine.maskOf (xs.map fun x => g.u.gangLane x.1 x.2))

/-- The slices of the gang that hold one of the lanes. -/
def Gang.holding (g : Gang) (lanes : Word) : List Nat :=
  g.ps.filter fun p => [0, 1, 2, 3].any fun j => lanes.getLsbD (g.u.gangLane p j)

/-! ### Registers -/

/-- The raw register (tag 0). -/
def Reg.zero : Reg := ⟨0, 0⟩

def Lane.getV (ln : Lane) (n : Nat) : Reg := sparseGet Reg.zero ln.v n
def Lane.setV (ln : Lane) (n : Nat) (r : Reg) : Lane := { ln with v := sparseSet Reg.zero ln.v n r }

/-- An operand-file register; one not written reads zero, raw (R31). -/
def Lane.getQ (ln : Lane) (n : Nat) : Reg := sparseGet Reg.zero ln.q n
def Lane.setQ (ln : Lane) (n : Nat) (r : Reg) : Lane := { ln with q := sparsePut ln.q n r }

def Slice.getS (sl : Slice) (n : Nat) : Word := sparseGet 0 sl.s n
def Slice.setS (sl : Slice) (n : Nat) (x : Word) : Slice := { sl with s := sparseSet 0 sl.s n x }

/-- A predicate: p7 reads as true (R158). -/
def Lane.getP (ln : Lane) (n : Nat) : Bool := n == 7 || ln.p.getLsbD n

/-- Write a predicate: p7 discards it (R158). -/
def Lane.setP (ln : Lane) (n : Nat) (b : Bool) : Lane :=
  if n = 7 then ln
  else
    let bit : BitVec 7 := 1 <<< n
    { ln with p := if b then ln.p ||| bit else ln.p &&& ~~~bit }

/-- Empty the operand file (R31). -/
def Slice.clearQ (sl : Slice) : Slice := { sl with lanes := sl.lanes.map fun ln => { ln with q := [] } }

/-! ### Cause codes -/

/-- The code of a cause (R419). -/
def Cause.code : Cause → Nat
  | .clauseSig => 0x01 | .illegalOpcode => 0x02 | .reservedField => 0x03 | .illegalOperand => 0x04
  | .pairConflict => 0x05 | .clauseClass => 0x06 | .branchTarget => 0x07 | .callBudget => 0x08
  | .badEntry => 0x09 | .formatMismatch => 0x0A | .featureOff => 0x0B | .reconvOverflow => 0x0C
  | .pageNotPresent => 0x10 | .pagePermission => 0x11 | .misaligned => 0x12 | .atomicStraddle => 0x13
  | .scratchBounds => 0x14 | .memUncorrectable => 0x15 | .physUnmapped => 0x16 | .pteMalformed => 0x17
  | .fpInvalid => 0x30 | .fpDivzero => 0x31 | .fpOverflow => 0x32 | .fpUnderflow => 0x33 | .fpInexact => 0x34
  | .rngWrap => 0x37
  | .mergeConflict => 0x40 | .mergeOverflow => 0x41 | .ticketAbort => 0x42 | .ringBad => 0x43
  | .cohortMisuse => 0x44 | .ticketOrder => 0x45
  | .copyRights => 0x50 | .tagOverrun => 0x51 | .matrixConfig => 0x52 | .collMismatch => 0x53 | .collTimeout => 0x54
  | .evPast => 0x60 | .evTimeOverflow => 0x61 | .evBadHandler => 0x62 | .evRebatchLimit => 0x63
  | .evOrdinalLimit => 0x64 | .evPoolFull => 0x65 | .frontierBadVector => 0x66
  | .segAttachMiss => 0x67 | .segGenMismatch => 0x68
  | .bkpt => 0x70 | .softTrap => 0x71 | .trapNested => 0x72

/-- The cause of sticky flag b (R223). -/
def stickyCause : Nat → Cause
  | 0 => .fpInvalid
  | 1 => .fpDivzero
  | 2 => .fpOverflow
  | 3 => .fpUnderflow
  | 4 => .fpInexact
  | _ => .rngWrap

/-- Fetch 8 bytes as code (R19): the word, or the fault with its address and walk level. -/
def State.fetch (s : State) (ctx : Nat) (va : DWord) : Except AccessFault DWord :=
  match s.pieces ctx .fetch va.toNat 8 with
  | .error f => .error f
  | .ok ps =>
    if ps.any fun p => s.uncorrectableAt p.leaf.pa p.len then .error ⟨.memUncorrectable, va.toNat, 0⟩
    else .ok (BitVec.ofNat 64 (leNat (s.readPieces ps)))

/-! ### Ending a unit's work and aborting a launch -/

/-- Raise a signal bit in every Tack core of a die (R104). -/
def State.signal (s : State) (die bit : Nat) : State :=
  s.modifyDie die fun d => { d with tacks := d.tacks.map fun t => { t with pending := t.pending ||| (1 <<< bit) } }

/-- A slice whose lanes have all ended: no result, wait or hold is left to it. -/
def Slice.ended (sl : Slice) : Slice :=
  { sl with exited := 15, stack := [], pend := [], errors := [], parked := false, wait := .none, heldBy := none,
            inTrap := false, sb := [0, 0, 0, 0, 0, 0, 0] }

/-- A barrier slot; one not listed is all zero. -/
def Bank.slot (b : Bank) (n : Nat) : BarrierSlot := sparseGet ⟨0, 0, 0, false, false⟩ b.barriers n

def Bank.setSlot (b : Bank) (n : Nat) (x : BarrierSlot) : Bank :=
  { b with barriers := sparsePut b.barriers n x }

/-- Gang slots as a mask. -/
def slotMask (l : List Nat) : Word := BitVec.ofNat 32 (Machine.maskOf l)

/-- Take gang slots out of MEMBERS and ARRIVED of every barrier slot of a bank (R156). -/
def Bank.leave (b : Bank) (gone : Word) : Bank :=
  { b with barriers := b.barriers.map fun x => (x.1, { x.2 with members := x.2.members &&& ~~~gone, arrived := x.2.arrived &&& ~~~gone }) }

/-- Slots that are no longer LIVE (R201). -/
def Bank.free (b : Bank) (slots : List Nat) : Bank := { b with barriers := b.barriers.filter fun x => !slots.contains x.1 }

/-- A phase is complete when ARRIVED equals a nonzero MEMBERS (R392). -/
def BarrierSlot.complete (b : BarrierSlot) : Bool := b.live && b.members != 0 && b.arrived == b.members

/-- The end of a slot's phase for a slice: its arrival is over and its wait ends; in deterministic mode a BAR goes on to wait for
its epoch (R392, R402). -/
def Slice.phaseOver (slot : Nat) (sl : Slice) : Slice :=
  { sl with
    arrivals := sl.arrivals.filter (·.1 != slot),
    wait := match sl.wait with
      | .barrier n ph e => if n = slot then (match e with | some e => .atBar e | none => .done) else .barrier n ph e
      | w => w }

/-- Complete the phases whose members have all arrived, and let the waiters of slots that are complete or no longer LIVE go on
(R156, R201, R392). -/
def State.settleBarriers (s : State) (core bank : Nat) : State :=
  let b := s.bank core bank
  let done := (List.range 32).filter fun n => (b.slot n).complete || !(b.slot n).live
  let s := s.modifyBank core bank fun b =>
    { b with barriers := b.barriers.map fun x => if x.2.complete then (x.1, { x.2 with arrived := 0, phase := !x.2.phase }) else x }
  { s with units := s.units.map fun u =>
      if u.residence = .resident ∧ u.core = core ∧ u.bank = bank then
        { u with slices := u.slices.map fun sl => done.foldl (fun sl n => sl.phaseOver n) sl }
      else u }

/-- Free what a unit holds in its bank and its waiting place (R441 step 4). -/
def State.freeUnit (s : State) (u : WorkUnit) : State :=
  let s := if u.residence = .resident then
      (s.modifyBank u.core u.bank fun b => (b.leave (slotMask u.slots)).free u.bslots).settleBarriers u.core u.bank
    else s
  s.modifyCore u.core fun c => { c with waiting := c.waiting.filter (· != u.uid) }

/-- The copy commands of a unit still in its bank's queues, and those that a restore has yet to put back there. -/
def State.unitCommands (s : State) (u : WorkUnit) : List Nat :=
  ((s.bank u.core u.bank).queues.flatMap fun q => q.filter (·.unit == u.uid)).map (·.id) ++
    (if u.residence = .spilled then [] else u.parked.map (·.2.id))

/-- The releases of every attachment a unit still holds, at its end (R266, R289). -/
def State.exitReleases (s : State) (u : WorkUnit) : List Release :=
  let left := u.releases.foldl (fun l r => l.erase r.name) u.segs
  left.map fun n => { name := n, drop := false, commands := s.unitCommands u, matrix := u.matq.length }

/-- The lowest stretch of n granules free of the used ones. -/
def findRoom (used : List (Nat × Nat)) (total n : Nat) : Option Nat :=
  (List.range (total + 1 - n)).find? fun o => n ≤ total && used.all fun x => o + n ≤ x.1 || x.1 + x.2 ≤ o

/-- Granules of a length. -/
def granules (len : Nat) : Nat := (len + 65535) / 65536

/-- Take room for an image: its offset in granules. -/
def State.takeSave (s : State) (ctx len : Nat) : Option (Nat × State) :=
  match s.context ctx with
  | none => none
  | some c =>
    (findRoom c.saveUsed (c.saveLen / 65536) (granules len)).map fun o =>
      (o, s.modifyContext ctx fun c => { c with saveUsed := c.saveUsed ++ [(o, granules len)] })

/-- Free granules of a context's save area (R427). -/
def State.freeSave (s : State) (ctx : Nat) (image : Option (Nat × Nat)) : State :=
  match image with
  | none => s
  | some x => s.modifyContext ctx fun c => { c with saveUsed := c.saveUsed.erase x }

/-- A spilled unit is discarded unread: commands that have not begun and matrix operations are never performed, and no release waits for
them (R447). -/
def WorkUnit.discard (u : WorkUnit) : WorkUnit :=
  let gone := u.parked.map (·.2.id)
  { u with
    parked := [], matq := []
    releases := u.releases.map fun r => { r with commands := r.commands.filter (!gone.contains ·), matrix := 0 } }

/-- End a unit where it stands: its stores, atomics and begun commands complete as issued, all else of it is discarded, a spilled
unit's image unread (R447 steps 2-5). Its attachments are released once its earlier work is done (R289). -/
def State.endUnit (s : State) (u : WorkUnit) : State :=
  if u.residence = .waiting then { s.freeUnit u with units := s.units.filter (·.uid != u.uid) }
  else
    let work := if u.residence = .spilled then u.discard else u
    let releases := s.exitReleases work
    ((s.freeUnit u).freeSave u.ctx u.image).modifyUnit u.uid fun u =>
      { u with residence := .exited, slices := u.slices.map Slice.ended, buffer := [], ordWords := [], snapshot := [],
               bkpts := [], image := none, parked := work.parked, matq := work.matq, savedBars := [], group := [], spillSince := none,
               releases := work.releases ++ releases, attaches := [], firstFault := none }

/-- The fault record words 5 to 7 of a completion record (R444). -/
def recordWords (cause : Nat) (dst : BitVec 9) (slot idx : Nat) (lanes : Word) (pc : DWord) (unitId : Nat) :
    DWord × DWord × DWord :=
  (BitVec.ofNat 64 (cause + dst.toNat * 2 ^ 7 + slot * 2 ^ 16 + idx * 2 ^ 21 + lanes.toNat * 2 ^ 32), pc,
   BitVec.ofNat 64 unitId)

/-- A gang at a TKWAIT as its launch aborts: PD true with .p, else the record of TICKET_ABORT (R399). -/
def WorkUnit.endTicket (u : WorkUnit) (p : Nat) (w : StdWord) (pc : DWord) : WorkUnit :=
  u.modifySlice p fun sl =>
    let lanes := (List.range 4).filter fun j => sl.live.getLsbD j && (sl.lane j).guard w.c.pred w.c.pneg
    if lanes = [] then sl
    else if w.mod.getLsbD 0 then lanes.foldl (fun sl j => sl.modifyLane j fun ln => ln.setP w.dst.toNat true) sl
    else { sl with fltcause := BitVec.ofNat 7 Cause.ticketAbort.code, fltpc := pc, fltdst := w.dst,
                   fltlanes := BitVec.ofNat 32 (Machine.maskOf (lanes.map fun j => 4 * sl.idx + j)) }

/-- Every TKWAIT at which a unit is held completes as its launch aborts (R399, R447). -/
def State.endTickets (s : State) (u : WorkUnit) : State :=
  let held := (List.range u.slices.length).filter fun p => (u.slice p).wait == .again && !(u.slice p).hasExited
  let word := fun (p : Nat) => match s.fetch u.ctx (u.slice p).pc with
    | .ok w => match decode (.belga w none) with
      | .ok (.tkwait w) => some w
      | _ => none
    | .error _ => none
  s.modifyUnit u.uid fun u => held.foldl (init := u) fun u p =>
    match word p with
    | some w => u.endTicket p w (u.slice p).pc
    | none => u

/-- Abort a launch on this chip (R447): it stops, its units end, what it staged is discarded; its drain and record follow at
its retirement. An abort that comes second changes nothing. -/
def State.abortLaunch (s : State) (die slot : Nat) (st : AbortStatus) (rec : DWord × DWord × DWord) : State :=
  match s.launch? die slot with
  | none => s
  | some l =>
    if l.abort.isSome then s
    else
      let s := (s.units.filter fun u => u.die == die && u.lslot == slot).foldl (init := s) fun s u => (s.endTickets u).endUnit u
      s.modifyLaunch die slot fun l =>
        { l with abort := some (st, rec),
                 domain := l.domain.map fun d =>
                   { d with store := [], batch := [], gangs := [], staged := [], cancels := [], arrivals := [], next := [], running := false },
                 pool := l.pool.map fun p => { p with tasks := [], spawned := [] } }

/-! ### Fetching -/

/-- FLTRD.info of a memory cause (R417). -/
def accessInfo (write fetch : Bool) (level : Nat) : Word :=
  BitVec.ofNat 32 ((if write then 1 else 0) + (if fetch then 2 else 0) + level * 4)

/-- The fields of a clause header (R21). -/
structure Header where
  count : Nat
  cls : Nat
  wait : BitVec 6
  budget : Nat
  deriving DecidableEq, Repr, Inhabited

def headerFields (w : DWord) : Header :=
  { count := wordBits w 3 0 + 1, cls := wordBits w 6 4, wait := w.extractLsb' 8 6, budget := wordBits w 31 24 }

/-- The header faults of R22. -/
def headerFault (w : DWord) : Option Cause :=
  if wordBits w 63 56 ≠ 0xC5 then some .clauseSig
  else if wordBits w 6 4 = 7 ∨ wordBits w 31 24 > 32 ∨ wordBits w 7 7 ≠ 0 ∨ wordBits w 23 14 ≠ 0 ∨ wordBits w 55 32 ≠ 0 then
    some .reservedField
  else none

/-- The checks of an entry clause against a budget of main registers (R23). -/
def entryFault (w : DWord) (regs : Nat) : Option Cause :=
  if wordBits w 31 24 = 0 then some .badEntry
  else if wordBits w 31 24 * 8 > regs then some .callBudget
  else none

/-! ### Taking a trap -/

/-- A trap to enter (R410). -/
structure Trap where
  cause : Cause
  /-- L, over gang lane numbers -/
  lanes : Word
  /-- %fltpc and %fltdst of each trapping slice -/
  pc : Slice → DWord
  dst : Slice → BitVec 9
  tpc : DWord
  /-- FLTRD detail of each gang lane (R417) -/
  addr : Nat → DWord
  info : Nat → Word
  /-- the merge address latched by MERGE_CONFLICT (R403) -/
  merge : Option DWord
  /-- a breakpoint, which holds the unit (R413) -/
  bkpt : Bool

/-- Whether an address lies within a clause, after its header. -/
def Clause.holds (c : Clause) (a : DWord) : Bool :=
  decide (c.header.toNat < a.toNat ∧ a.toNat < c.header.toNat + 8 * (c.count + 1))

/-- Write the fault record (R410 step 1). -/
def Slice.recordFault (sl : Slice) (t : Trap) : Slice :=
  { sl with
    fltcause := BitVec.ofNat 7 t.cause.code, fltlanes := t.lanes, fltpc := t.pc sl, fltdst := t.dst sl,
    mergeAddr := t.merge.getD sl.mergeAddr,
    lanes := sl.lanes.mapIdx fun j ln =>
      if t.lanes.getLsbD (4 * sl.idx + j) then { ln with fltAddr := t.addr (4 * sl.idx + j), fltInfo := t.info (4 * sl.idx + j) }
      else { ln with fltAddr := 0, fltInfo := 0 } }

/-- A ring word of a slice ends or is left: its result takes no more items, and one whose items have all been written falls (R26). -/
def Slice.closeRings (sl : Slice) : Slice :=
  let spent := fun (r : LongResult) => r.kind == .ring [] true
  { sl with
    pend := (sl.pend.filter (!spent ·)).map fun r => { r with kind := match r.kind with | .ring x _ => .ring x false | k => k }
    sb := (sl.pend.filter spent).foldl (fun c r => listModify c r.sb.toNat (· - 1)) sl.sb }

/-- A trapping slice: record, trap state and handler start (R410 steps 1-3, R411). -/
def Slice.enter (sl : Slice) (t : Trap) (id ig regs : Nat) (vector : DWord) : Slice :=
  let sl := (sl.recordFault t).closeRings
  { sl with
    inTrap := true, tbkpt := t.bkpt, tpc := t.tpc, tmask := sl.live, tdepth := sl.stack.length,
    tq := sl.lanes.map (·.q),
    tclause := match sl.clause with
      | some c => if c.holds t.tpc then some c else none
      | none => none
    tregs := sl.regs, regs := regs, trapId := id, ig := ig, pc := vector, clause := none, active := sl.live,
    atEntry := false, tentry := sl.atEntry, parked := false, wait := .none, ringHeld := 0,
    lanes := sl.lanes.map fun ln => { ln with q := [] } }

/-- The record words of a slice's fault (R444). -/
def Gang.record (g : Gang) (t : Trap) (cause : Nat) : DWord × DWord × DWord :=
  let sl := g.u.slice ((g.holding t.lanes).headD 0)
  recordWords cause (t.dst sl) (g.u.slots.getD sl.home 0) sl.idx t.lanes (t.pc sl) g.u.unitId

/-- TRAP_NESTED: the launch aborts with the inner fault's record (R412). -/
def State.nested (s : State) (g : Gang) (rec : DWord × DWord × DWord) : State :=
  s.abortLaunch g.u.die g.u.lslot ⟨2, Cause.trapNested.code, s.chip⟩ rec

/-- Enter a trap (R410): by the slices of the gang that hold a named lane; the others are held at the word. Inside a handler
the launch aborts (R412); without a vector it aborts with the cause (R407). A trap that names no lane raises nothing. -/
def State.enterTrap (s : State) (g : Gang) (t : Trap) : State :=
  let trapping := g.holding t.lanes
  if trapping = [] then s
  else if trapping.any fun p => (g.u.slice p).inTrap then s.nested g (g.record t t.cause.code)
  else
    let vector := wordOf g.l.vectors t.cause.code
    if vector = 0 then
      s.abortLaunch g.u.die g.u.lslot ⟨2, t.cause.code, s.chip⟩ (g.record t t.cause.code)
    else
      let inner := fun (c : Cause) => recordWords c.code 0 (g.u.slots.getD g.head.home 0) (g.u.slice (trapping.headD 0)).idx
        (g.maskOf (g.activePlaces.filter fun x => trapping.contains x.1)) vector g.u.unitId
      match s.fetch g.u.ctx vector with
      | .error f => s.nested g (inner f.cause)
      | .ok h =>
        match (headerFault h).orElse fun _ => entryFault h g.u.regs with
        | some c => s.nested g (inner c)
        | none =>
          s.modifyUnit g.u.uid fun u =>
            let id := u.nextTrap
            let rest := g.ps.filter fun p => !trapping.contains p
            let u := u.modifySlices trapping fun sl => sl.enter t id u.nextIg (wordBits h 31 24 * 8) vector
            let u := u.modifySlices rest fun sl => { sl with heldBy := some id }
            { u with nextTrap := id + 1, nextIg := u.nextIg + 1, bkpts := if t.bkpt then u.bkpts ++ [id] else u.bkpts }

/-- The PC and DST that a trap at the gang's current word records in every slice. -/
def Gang.trapAt (g : Gang) (cause : Cause) (lanes : Word) (dst : BitVec 9) : Trap :=
  { cause := cause, lanes := lanes, pc := fun _ => g.pc, dst := fun _ => dst, tpc := g.pc, addr := fun _ => 0,
    info := fun _ => 0, merge := none, bkpt := false }

/-! ### The return from a trap -/

/-- When no slice of a trap is in it any more, its held slices are released and its breakpoint ends (R410, R413). -/
def WorkUnit.endTraps (u : WorkUnit) : WorkUnit :=
  let open' := u.slices.filterMap fun sl => if sl.inTrap ∧ !sl.hasExited then some sl.trapId else none
  { u with
    slices := u.slices.map fun sl => match sl.heldBy with
      | some id => if open'.contains id then sl else { sl with heldBy := none }
      | none => sl
    bkpts := u.bkpts.filter open'.contains }

/-- One slice's return (R416): `next` is where it goes on. -/
def Slice.leaveTrap (sl : Slice) (next : DWord) : Slice :=
  { sl with
    stack := sl.stack.drop (sl.stack.length - sl.tdepth), active := sl.tmask &&& ~~~sl.exited, pc := next,
    clause := match sl.tclause with
      | some c => if c.holds next then some c else none
      | none => none
    regs := sl.tregs, atEntry := sl.tentry && next == sl.tpc, inTrap := false, tbkpt := false,
    lanes := sl.lanes.mapIdx fun j ln => { ln with q := sl.tq.getD j [] } }

/-- The address of the word after TPC: past its literal, where it takes one within its clause (R24, R405, R416). -/
def State.wordAfter (s : State) (ctx : Nat) (sl : Slice) : DWord :=
  match sl.tclause, s.fetch ctx sl.tpc with
  | some c, .ok w => if takesLiteral w && c.holds (sl.tpc + 8) then sl.tpc + 16 else sl.tpc + 8
  | _, _ => sl.tpc + 8

end Sys2Proof.Machine
end

