-- ==== Sys2Proof/Machine/Settle.lean ====
section
/-! DEFINITION. What follows every word: the PC's advance, settling (R188), the split of an issue gang (R153), and the exit of
slices, home gangs and units (R195, R441). -/

namespace Sys2Proof.Machine

/-! ### Settling -/

/-- Go to an address: the clause ends and the operand file is not written (R31). -/
def Slice.jump (sl : Slice) (a : DWord) : Slice := { sl.clearQ with pc := a, clause := none }

/-- The first entry below the run of resume entries on top (R188). -/
def stackBase (st : List StackEntry) : Option StackEntry := (st.dropWhile (·.kind == .resume)).head?

/-- One look of Settle at the top entry (R188): the slice after a pop, or none where settling stops. -/
def Slice.popOnce (sl : Slice) : Option Slice :=
  match sl.stack with
  | [] => none
  | e :: rest =>
    let popped := { sl with stack := rest, active := e.mask &&& ~~~sl.exited }
    if sl.live = 0 then some (popped.jump e.addr)
    else match e.kind with
      | .join => if sl.pc = e.addr then some popped else none
      | .ret => none
      | .resume =>
        match stackBase sl.stack with
        | some b => if b.kind = .join ∧ sl.pc = b.addr then some (popped.jump e.addr) else none
        | none => none

/-- Settle's loop: at most one turn for each entry (R188). -/
def Slice.settleGo : Nat → Slice → Slice
  | 0, sl => sl
  | n + 1, sl => match sl.popOnce with
    | some sl' => sl'.settleGo n
    | none => sl

/-- Settle (R188). -/
def Slice.settle (sl : Slice) : Slice :=
  if sl.exited = 15 then sl.ended else sl.settleGo sl.stack.length

/-- Step past a word of n 8-byte words; past the clause's last word the clause ends (R19, R31). -/
def Slice.advance (sl : Slice) (n : Nat) : Slice :=
  let pc := sl.pc + BitVec.ofNat 64 (8 * n)
  match sl.clause with
  | some c => if c.holds pc then { sl with pc := pc } else sl.jump pc
  | none => sl.jump pc

/-! ### Splitting -/

/-- Slices of one issue gang whose PCs differ separate: those at the first slice's PC keep its number, every other PC gets one
of its own (R153). -/
def WorkUnit.split (u : WorkUnit) (ps : List Nat) : WorkUnit :=
  let ps := ps.filter fun p => !(u.slice p).hasExited
  let pcs := (ps.map fun p => (u.slice p).pc).eraseDups
  let base := u.nextIg
  { u with
    nextIg := base + (pcs.length - 1)
    slices := u.slices.mapIdx fun p sl =>
      if ps.contains p then
        match pcs.findIdx? (· == sl.pc) with
        | some (k + 1) => { sl with ig := base + k }
        | _ => sl
      else sl }

/-! ### Arrivals -/

/-- Whether a home gang has arrived at a slot: every slice of it that has not exited has (R392). -/
def WorkUnit.gangArrived (u : WorkUnit) (home slot : Nat) : Bool :=
  let mine := u.slices.filter fun sl => sl.home == home && !sl.hasExited
  !mine.isEmpty && mine.all fun sl => sl.arrivals.any (·.1 == slot)

/-- ARRIVED of every slot as the unit's slices stand (R392), with exited home gangs taken out (R156). -/
def State.refreshArrivals (s : State) (uid : Nat) : State :=
  match s.unit? uid with
  | none => s
  | some u =>
    let homes := List.range u.slots.length
    let goneHomes := homes.filter fun h => u.slices.all fun sl => sl.home != h || sl.hasExited
    let gone := slotMask (goneHomes.map fun h => u.slots.getD h 0)
    let s := s.modifyBank u.core u.bank fun b =>
      let b := b.leave gone
      { b with barriers := b.barriers.map fun x =>
          let come := homes.filter fun h => u.gangArrived h x.1 && x.2.members.getLsbD (u.slots.getD h 0)
          (x.1, { x.2 with arrived := x.2.arrived ||| slotMask (come.map fun h => u.slots.getD h 0) }) }
    s.settleBarriers u.core u.bank

/-! ### Tickets -/

/-- The counter moves past workgroups that have exited (R396). -/
def turnOver (gone : Nat → Bool) : Nat → DWord → DWord
  | 0, t => t
  | n + 1, t => if gone t.toNat then turnOver gone n (t + 1) else t

/-- Unit ids of a launch's exited units. -/
def State.exitedIds (s : State) (die slot : Nat) : List Nat :=
  (s.units.filter fun u => u.die == die && u.lslot == slot && u.residence == .exited).map (·.unitId)

/-- The table entry of a line; one not listed is zero. -/
def Frontier.line (f : Frontier) (l : Nat) : Nat × DWord :=
  if l < f.lines.length then f.lines.getD l (0, 0) else (0, 0)

/-- Set bits of a window. -/
def windowBits (w : DWord) : Nat := (maskList 64 w.toNat).length

/-- Points the table marks complete. -/
def Frontier.completed (f : Frontier) : Nat := (f.lines.map fun e => e.1 + windowBits e.2).sum

/-- Whether the table marks a point complete. -/
def Launch.pointDone (l : Launch) (id : Nat) : Bool :=
  l.frontier.any fun f =>
    let e := f.line (id / (l.xk + 1))
    let k := id % (l.xk + 1)
    decide (id / (l.xk + 1) < f.lines.length) && (decide (k < e.1) || e.2.getLsbD (k - e.1))

/-- The turn from an id on: past every unit that has exited or is marked complete (R396, R440). -/
def Launch.turnFrom (l : Launch) (exited : List Nat) (t : DWord) : DWord :=
  turnOver (fun id => exited.contains id || l.pointDone id)
    (exited.length + (l.frontier.map (·.completed)).getD 0) t

/-- Pass the turn on from a unit id (R398, R399). -/
def State.passTurn (s : State) (die slot unitId : Nat) : State :=
  let gone := s.exitedIds die slot
  s.modifyLaunch die slot fun l => { l with turn := l.turnFrom gone (BitVec.ofNat 64 unitId + 1) }

/-! ### Deterministic merge of one interval -/

/-- The bytes of a buffered word under its mask. -/
def Buffered.bytes (b : Buffered) : List (Nat × Byte) :=
  [0, 1, 2, 3].filterMap fun k => if b.mask.getLsbD k then some (b.pa + k, b.data.extractLsb' (8 * k) 8) else none

/-- A merge writes a byte: every interval in progress, of whatever launch, keeps it as its snapshot has it; the merging unit's own snapshot
takes the new one. Only atomics and engine writes are seen through a snapshot (R400, R402). -/
def State.mergeByte (s : State) (u : WorkUnit) (e : Nat × Byte) : State :=
  let old := s.byteAt e.1
  let s := s.revive e.1
  { s with
    mem := sparseSet 0 s.mem e.1 e.2
    units := s.units.map fun x =>
      if x.uid = u.uid then { x with snapshot := if sparseHas x.snapshot e.1 then sparsePut x.snapshot e.1 e.2 else x.snapshot }
      else if x.det ∧ (x.residence = .resident ∨ x.residence = .spilled) then
        { x with snapshot := if sparseHas x.snapshot e.1 then x.snapshot else sparsePut x.snapshot e.1 old }
      else x }

/-- Write buffered words to memory and settle the sectors they touch. -/
def State.mergeWords (s : State) (u : WorkUnit) (ws : List Buffered) : State :=
  let s := (ws.flatMap Buffered.bytes).foldl (fun s e => s.mergeByte u e) s
  s.settleSectors u.ctx ((ws.flatMap Buffered.bytes).map fun e => (e.1, 1))

/-- Merge a unit's own buffer and empty it. -/
def State.mergeUnit (s : State) (u : WorkUnit) : State :=
  (s.mergeWords u u.buffer).modifyUnit u.uid fun x => { x with buffer := [], ordWords := [] }

/-! ### Frontier completion -/

/-- Fold a line's window into its prefix (R126). -/
def foldLine : Nat → Nat × DWord → Nat × DWord
  | 0, e => e
  | n + 1, (p, w) => if w.getLsbD 0 then foldLine n (p + 1, w >>> 1) else (p, w)

/-- A point of a line completes (R126). -/
def completePoint (e : Nat × DWord) (k : Nat) : Nat × DWord := foldLine 64 (e.1, e.2 ||| (1 <<< (k - e.1)))

/-- The completion of a point is applied to the table (R126). -/
def Launch.complete (l : Launch) (unitId now : Nat) : Launch :=
  { l with frontier := l.frontier.map fun f =>
      let line := unitId / (l.xk + 1)
      { f with lines := listModify f.lines line fun e => completePoint e (unitId % (l.xk + 1)),
               dispatched := f.dispatched.filter (· != unitId), doneAt := some now } }

/-! ### Unit exit -/

/-- A unit's last home gang has exited (R441): turn, interval, frontier, resources, count. -/
def State.exitUnit (s : State) (u : WorkUnit) : State :=
  match s.launch? u.die u.lslot with
  | none => s
  | some l =>
    let releases := s.exitReleases u
    let s := s.freeUnit u
    let s := s.modifyUnit u.uid fun u =>
      { u with residence := .exited, slices := u.slices.map Slice.ended, bkpts := [],
               releases := u.releases ++ releases }
    let s := if l.kind < 2 ∧ l.turn = BitVec.ofNat 64 u.unitId then s.passTurn u.die u.lslot u.unitId else s
    let s := if u.det ∧ l.kind = 1 then s.mergeUnit u else s
    s.modifyLaunch u.die u.lslot fun l =>
      let l := if l.kind = 1 then l.complete u.unitId s.clock else l
      { l with exited := l.exited + 1, units := l.units + (if l.kind < 2 then 1 else u.nlanes) }

/-! ### Words that act once per unit (R281, R404) -/

/-- Slices that have not exited. -/
def WorkUnit.running (u : WorkUnit) : List Slice := u.slices.filter fun sl => !sl.hasExited

/-- Once every slice that has not exited has issued an OCLOSE of one scope the unit has completed it: .rlx goes on, .acq waits for
the window's close (R281). -/
def WorkUnit.closeOnce (u : WorkUnit) (closed : Nat → Nat → Bool) : WorkUnit :=
  match u.running.head?.bind (·.ocloseAt) with
  | none => u
  | some scope =>
    if u.running.all (·.ocloseAt == some scope) then
      let k := u.ocloses.getD scope 0 + 1
      { u with
        ocloses := listModify u.ocloses scope (· + 1)
        slices := u.slices.map fun sl =>
          { sl with ocloseAt := none,
                    wait := match sl.wait with
                      | .window _ 0 true => if closed scope k then .done else .window scope k true
                      | .window _ 0 false => .done
                      | w => w } }
    else u

/-- Whether a wait is at a BAR whose phase has completed. -/
def Wait.isAtBar : Wait → Bool
  | .atBar _ => true
  | _ => false

/-- The unit has reached a merge point: a BAR's phase has completed, or every slice that has not exited has issued DMERGE
(R400, R404). -/
def WorkUnit.mergeReached (u : WorkUnit) : Bool :=
  u.running.any (·.wait.isAtBar) || (!u.running.isEmpty && u.running.all (·.dmergeAt))

/-- The end of an interval at a merge point: a grid's workgroup waits for its epoch, a frontier point's interval merges alone
(R402). -/
def State.endInterval (s : State) (u : WorkUnit) (kind : Nat) : State :=
  let clear := fun (w : Wait) (sl : Slice) =>
    { sl with dmergeAt := false, wait := match sl.wait with | .merge _ => w | .atBar _ => w | x => x }
  if kind = 1 then
    (s.mergeUnit u).modifyUnit u.uid fun u => { u with interval := u.interval + 1, slices := u.slices.map (clear .done) }
  else
    s.modifyUnit u.uid fun u =>
      { u with interval := u.interval + 1, slices := u.slices.map (clear (.merge u.interval)) }

/-- What the unit's slices have completed together: an OCLOSE, a merge point. -/
def State.refreshOnce (s : State) (uid : Nat) : State :=
  match s.unit? uid with
  | none => s
  | some u =>
    match s.launch? u.die u.lslot with
    | none => s
    | some l =>
      let s := s.modifyUnit uid fun u => u.closeOnce fun scope k => l.closed.contains (scope, u.wset, k)
      if u.residence = .resident ∧ u.mergeReached then s.endInterval u l.kind else s

/-- What a change of a unit's slices brings about: arrivals, the end of traps, its exit (R392, R410, R441). -/
def State.afterSlices (s : State) (uid : Nat) : State :=
  let s := ((s.modifyUnit uid WorkUnit.endTraps).refreshArrivals uid).refreshOnce uid
  match s.unit? uid with
  | none => s
  | some u => if u.residence = .resident ∧ u.slices.all Slice.hasExited then s.exitUnit u else s

/-- The end of a word for the gang's slices: settle each, split, and what follows (R153, R188). -/
def State.settleGang (s : State) (uid : Nat) (ps : List Nat) : State :=
  let s := s.modifyUnit uid fun u => (u.modifySlices ps Slice.settle).split ps
  s.afterSlices uid

/-- The words of an instruction: a literal counts (R37). -/
def sourceWords : BSource → Nat
  | .lit _ _ => 2
  | _ => 1

/-- A word is done: Y parks the gang (R27), its slices step past the word and settle. -/
def State.finishWord (s : State) (g : Gang) (y : Bool) (n : Nat) : State :=
  let s := s.modifyUnit g.u.uid fun u =>
    u.modifySlices g.ps fun sl => ({ sl with parked := y, wait := .none, ringHeld := 0 }).advance n
  s.settleGang g.u.uid g.ps

/-- The same for a word that has set its slices' PCs itself. -/
def State.finishJump (s : State) (g : Gang) (y : Bool) : State :=
  let s := s.modifyUnit g.u.uid fun u => u.modifySlices g.ps fun sl => { sl with parked := y && !sl.hasExited, wait := .none }
  s.settleGang g.u.uid g.ps

end Sys2Proof.Machine
end

