-- ==== Sys2Proof/Machine/Operands.lean ====
section
/-! DEFINITION. Operand forms: specifiers, special constants, immediates and literals as sources (R28-R30, R36, R37), register
destinations, and the checks every word passes before it has an effect (R44, R45, R161). -/

namespace Sys2Proof.Machine

/-! ### Numbers in words -/

/-- Sext(x, n) of R6. -/
def sext (x n : Nat) : Int :=
  let v := x % 2 ^ n
  if v < 2 ^ (n - 1) then (v : Int) else (v : Int) - (2 ^ n : Nat)

/-- The low n bits of an integer. -/
def wrapTo (n : Nat) (x : Int) : Nat := (x % (2 ^ n : Nat)).toNat

/-- The bits of an integer as a 32-bit or 64-bit value. -/
def intBits (wide : Bool) (x : Int) : Nat := wrapTo (if wide then 64 else 32) x

/-! ### Sources -/

/-- A value read with its tag; raw (0) for constants, immediates and s registers (R29, R159). -/
structure Operand where
  val : Nat
  tag : Nat
  deriving DecidableEq, Repr, Inhabited

/-- How an instruction uses a source. -/
structure SrcUse where
  wide : Bool
  /-- the tags it accepts besides raw (R161) -/
  tags : Nat → Bool
  /-- an immediate specifier in the operand's format (R29) -/
  conv : Int → Nat
  /-- the 24-bit immediate (R36, R49) -/
  imm : BitVec 24 → Nat
  /-- a wide operand may be a pair of q registers (R227) -/
  qPair : Bool := false

/-- A source field of a word. -/
inductive Src where
  /-- not used: reserved-zero (R35) -/
  | unused
  /-- given another meaning by the entry, which checks it itself -/
  | field
  | use (u : SrcUse)

/-- The destination field of a word. -/
inductive Dst where
  /-- not used: reserved-zero -/
  | unused
  | field
  /-- a v or q register, a pair if wide, an s register where the entry allows it (R165) -/
  | reg (wide sAllowed : Bool)

/-- An integer source of 32 or 64 bits (R29, R36, R165). -/
def intUse (wide : Bool) (tags : Nat → Bool) : SrcUse :=
  { wide := wide, tags := tags, conv := intBits wide, imm := fun x => intBits wide x.toInt }

def anyTag : Nat → Bool := fun _ => true

/-- The special constants as 32-bit values (R29); gl is the gang lane number. -/
def constant32 (spec gl : Nat) : Nat :=
  match spec with
  | 0x150 => 0
  | 0x151 => 1
  | 0x152 => 0xFFFFFFFF
  | 0x153 => 0x3F800000
  | 0x154 => 0xBF800000
  | 0x155 => 0x3F000000
  | 0x156 => gl
  | 0x157 => gl % 4
  | 0x158 => gl / 4
  | 0x159 => 0x7F800000
  | 0x15A => 0x7FC00000
  | 0x15B => 0x80000000
  | 0x15C => 0x7FFFFFFF
  | _ => 0

/-- The special constants as 64-bit values: all ones and the least integer are sign-extended (R29). -/
def constant64 (spec gl : Nat) : Nat :=
  if spec = 0x152 then 0xFFFFFFFFFFFFFFFF
  else if spec = 0x15B then 0xFFFFFFFF80000000
  else constant32 spec gl

/-- Whether a specifier is an immediate, and its value (R28). -/
def isImmSpec (spec : Nat) : Bool := decide (0x180 ≤ spec)
def immSpec (spec : Nat) : Int := (spec : Int) - 0x1C0

/-- A specifier that names a special constant (R29). -/
def isConstSpec (spec : Nat) : Bool := decide (0x150 ≤ spec ∧ spec ≤ 0x15C)

/-- Whether a specifier names a run of n v registers within the budget, the first a multiple of `align` (R30, R271). -/
def vRunOk (regs spec n align : Nat) : Bool := decide (spec < 0x100 ∧ spec + n ≤ regs ∧ spec + n ≤ 256 ∧ spec % align = 0)

/-- The same for q registers, which have no budget. -/
def qRunOk (spec n align : Nat) : Bool := decide (0x100 ≤ spec ∧ spec + n ≤ 0x110 ∧ (spec - 0x100) % align = 0)

/-- The same for s registers. -/
def sRunOk (spec n align : Nat) : Bool := decide (0x110 ≤ spec ∧ spec + n ≤ 0x150 ∧ (spec - 0x110) % align = 0)

/-- Whether a source specifier is one R28, R30, R165 and R227 allow. -/
def srcSpecOk (regs : Nat) (wide qPair : Bool) (spec : Nat) : Bool :=
  if isImmSpec spec || isConstSpec spec then true
  else if wide then vRunOk regs spec 2 2 || sRunOk spec 2 2 || (qPair && qRunOk spec 2 2)
  else vRunOk regs spec 1 1 || qRunOk spec 1 1 || sRunOk spec 1 1

/-- Whether a destination specifier is one R28, R30 and R165 allow. -/
def dstSpecOk (regs : Nat) (wide sAllowed : Bool) (spec : Nat) : Bool :=
  let n := if wide then 2 else 1
  vRunOk regs spec n n || qRunOk spec n n || (sAllowed && sRunOk spec n n)

/-- A 32-bit register by specifier: v, q or s. -/
def Slice.getSpec (sl : Slice) (j spec : Nat) : Reg :=
  if spec < 0x100 then (sl.lane j).getV spec
  else if spec < 0x110 then (sl.lane j).getQ (spec - 0x100)
  else ⟨sl.getS (spec - 0x110), 0⟩

/-- A specifier's value for a lane under a use (R28, R29). -/
def Slice.readSpec (sl : Slice) (j : Nat) (use : SrcUse) (spec : Nat) : Operand :=
  if isImmSpec spec then ⟨use.conv (immSpec spec), 0⟩
  else if spec < 0x150 then
    let r := sl.getSpec j spec
    if use.wide then ⟨r.val.toNat + (sl.getSpec j (spec + 1)).val.toNat * 2 ^ 32, r.tag.toNat⟩ else ⟨r.val.toNat, r.tag.toNat⟩
  else ⟨if use.wide then constant64 spec (4 * sl.idx + j) else constant32 spec (4 * sl.idx + j), 0⟩

/-- Source B of a word in any of its forms (R36, R37). -/
def Slice.readB (sl : Slice) (j : Nat) (use : SrcUse) : BSource → Operand
  | .spec x => sl.readSpec j use x.toNat
  | .imm x => ⟨use.imm x, 0⟩
  | .lit _ l => ⟨if use.wide then l.toNat else l.toNat % 2 ^ 32, 0⟩

/-- A source's operand; 0 where the field is not used. -/
def Slice.operand (sl : Slice) (j : Nat) (src : Src) (b : BSource) : Operand :=
  match src with
  | .use u => sl.readB j u b
  | _ => ⟨0, 0⟩

/-- Whether a source's tag is accepted: raw always is (R161). -/
def Src.accepts (src : Src) (o : Operand) : Bool :=
  match src with
  | .use u => o.tag == 0 || u.tags o.tag
  | _ => true

/-- A used field names an allowed source; an unused one is left to the reserved check. -/
def Src.specOk (regs : Nat) (src : Src) (b : BSource) : Bool :=
  match src, b with
  | .use u, .spec x => srcSpecOk regs u.wide u.qPair x.toNat
  | _, .lit x _ => x == 0x1FF
  | _, _ => true

/-- An unused source field is zero (R35); of a literal for a 32-bit operand bits [63:32] are zero (R37). -/
def Src.reservedOk (src : Src) (b : BSource) : Bool :=
  match src, b with
  | .unused, .spec x => x == 0
  | .use u, .lit _ l => u.wide || l.toNat < 2 ^ 32
  | _, _ => true

/-- The registers a used field reads, by specifier. -/
def Src.readRegs (src : Src) (b : BSource) : List Nat :=
  match src, b with
  | .use u, .spec x => if x.toNat < 0x150 then (if u.wide then [x.toNat, x.toNat + 1] else [x.toNat]) else []
  | _, _ => []

/-! ### Destinations -/

def Dst.reservedOk (d : Dst) (spec : BitVec 9) : Bool :=
  match d with
  | .unused => spec == 0
  | _ => true

def Dst.specOk (regs : Nat) (d : Dst) (spec : BitVec 9) : Bool :=
  match d with
  | .reg wide sAllowed => dstSpecOk regs wide sAllowed spec.toNat
  | _ => true

/-- Write one 32-bit register of a lane: v or q. -/
def Lane.putSpec (ln : Lane) (spec : Nat) (r : Reg) : Lane :=
  if spec < 0x100 then ln.setV spec r else if spec < 0x110 then ln.setQ (spec - 0x100) r else ln

/-- Write a result: a pair's odd register takes tag raw (R157). -/
def Lane.putDst (ln : Lane) (wide : Bool) (spec val tag : Nat) : Lane :=
  let ln := ln.putSpec spec ⟨BitVec.ofNat 32 val, BitVec.ofNat 8 tag⟩
  if wide then ln.putSpec (spec + 1) ⟨BitVec.ofNat 32 (val / 2 ^ 32), 0⟩ else ln

/-- Write an s register or pair (R159). -/
def Slice.putS (sl : Slice) (wide : Bool) (spec val : Nat) : Slice :=
  let sl := sl.setS (spec - 0x110) (BitVec.ofNat 32 val)
  if wide then sl.setS (spec - 0x110 + 1) (BitVec.ofNat 32 (val / 2 ^ 32)) else sl

def isSSpec (spec : Nat) : Bool := decide (0x110 ≤ spec ∧ spec < 0x150)

/-! ### The checks before any effect -/

/-- Whether the gang's word is the last of its clause (R24). -/
def Gang.lastWord (g : Gang) (n : Nat) : Bool :=
  match g.head.clause with
  | some c => !c.holds (g.pc + BitVec.ofNat 64 (8 * n))
  | none => true

/-- Whether the clause accepts the opcode here (R24). A literal outside its clause is told by the fetch. -/
def Gang.classOk (g : Gang) (opc n : Nat) : Bool :=
  match g.head.clause with
  | some c => classAccepts c.cls (opClass opc) (g.lastWord n)
  | none => true

/-- Whether an opcode's feature was accepted (R54). -/
def State.featureOk (s : State) (opc : Nat) : Bool :=
  match opFeature opc with
  | some b => s.features.getLsbD b
  | none => true

/-- The decode causes of a word in the order of R44. -/
def Gang.decodeFault (g : Gang) (s : State) (opc n : Nat) (reserved illegal : Bool) : Option Cause :=
  if !s.featureOk opc then some .featureOff
  else if !g.classOk opc n then some .clauseClass
  else if reserved then some .reservedField
  else if illegal then some .illegalOperand
  else none

/-- The lane's number in its unit, by which bad registers are known. -/
def unitLane (sl : Slice) (j : Nat) : Nat := 32 * sl.home + 4 * sl.idx + j

/-- What a bad register is known by: its lane, a slice's lowest for a scalar register, and its specifier (R268). -/
def badKey (sl : Slice) (j r : Nat) : Nat × Nat := (unitLane sl (if r ≥ 0x110 then 0 else j), r)

/-- Executing lanes that read an uncorrectable register (R269). -/
def Gang.badReaders (g : Gang) (lanes : List (Nat × Nat)) (regs : List Nat) : List (Nat × Nat) :=
  if g.u.badRegs.isEmpty then []
  else lanes.filter fun x => regs.any fun r => g.u.badRegs.contains (badKey (g.u.slice x.1) x.2 r)

/-- A word's results become good registers. -/
def WorkUnit.healReg (u : WorkUnit) (p j r : Nat) : WorkUnit :=
  if u.badRegs.isEmpty then u else { u with badRegs := u.badRegs.filter (· != badKey (u.slice p) j r) }

/-- The operand file of a slice's lanes is not written: what was bad in it holds nothing any more (R31). -/
def WorkUnit.healQ (u : WorkUnit) (ps : List Nat) : WorkUnit :=
  if u.badRegs.isEmpty then u
  else
    let q := fun (b : Nat × Nat) => decide (0x100 ≤ b.2 ∧ b.2 < 0x110) && ps.any fun p => unitLane (u.slice p) 0 == b.1 / 4 * 4
    { u with badRegs := u.badRegs.filter (!q ·) }

end Sys2Proof.Machine
end

