-- ==== Sys2Proof/Machine/Flags.lean ====
section
/-! DEFINITION. The sticky flags (R223), their trackers (R408) and the trap fences (R409). -/

namespace Sys2Proof.Machine

/-! Flag masks (R223). -/
def flInvalid : Nat := 1
def flDivzero : Nat := 2
def flOverflow : Nat := 4
def flUnderflow : Nat := 8
def flInexact : Nat := 16
def flRng : Nat := 128

/-- The flag bits, in the trackers' order. -/
def flagBits : List Nat := [0, 1, 2, 3, 4, 7]

/-- Setting flags is an OR (R223). -/
def Lane.setFlags (ln : Lane) (f : Nat) : Lane := { ln with flags := ln.flags ||| BitVec.ofNat 8 f }

/-- Every flag a word set in a lane of the slice whose tracker is empty is tracked (R408). -/
def Slice.track (sl : Slice) (f : Nat) (pc : DWord) (dst : BitVec 9) : Slice :=
  { sl with trackers := sl.trackers.mapIdx fun i t =>
      if t.isNone && f.testBit (flagBits.getD i 0) then some ⟨pc, dst⟩ else t }

/-- Empty trackers (R408). -/
def noTrackers : List (Option Tracker) := [none, none, none, none, none, none]

/-- The ENABLE bits of a trap control word (R406). -/
def enableMask (control : DWord) : Nat := control.toNat % 32 + (if control.getLsbD 7 then 128 else 0)

/-- The least enabled flag set in one of the lanes (R409). -/
def fenceFlag (u : WorkUnit) (control : DWord) (lanes : List (Nat × Nat)) : Option Nat :=
  flagBits.find? fun b => (enableMask control).testBit b && lanes.any fun x => (u.lane x.1 x.2).flags.getLsbD b

/-- A trap fence over lanes (R409): the trap to take, or none where it passes. Slices in a handler are not checked (R412). -/
def Gang.fenceTrap (g : Gang) (checked : List (Nat × Nat)) : Option Trap :=
  let lanes := checked.filter fun x => !(g.u.slice x.1).inTrap
  match fenceFlag g.u (wordOf g.l.vectors 0) lanes with
  | none => none
  | some b =>
    let l := lanes.filter fun x => (g.u.lane x.1 x.2).flags.getLsbD b
    let tracker := fun (sl : Slice) => (sl.trackers.getD (if b = 7 then 5 else b) none).getD ⟨0, 0⟩
    let flagsOf := fun gl => (g.places.find? fun x => g.u.gangLane x.1 x.2 == gl).map fun x => (g.u.lane x.1 x.2).flags
    some { g.trapAt (stickyCause b) (g.maskOf l) 0 with
           pc := fun sl => (tracker sl).pc, dst := fun sl => (tracker sl).dst,
           info := fun gl => BitVec.ofNat 32 ((flagsOf gl).getD 0).toNat }

/-- The issuing slices' trackers empty at a fence that passes; inside a handler nothing is checked (R408, R412). -/
def WorkUnit.passFence (u : WorkUnit) (ps : List Nat) : WorkUnit :=
  u.modifySlices ps fun sl => if sl.inTrap then sl else { sl with trackers := noTrackers }

end Sys2Proof.Machine
end

