-- ==== Sys2Proof/Machine/Alu.lean ====
section
/-! DEFINITION. The course of a fixed-latency word on lanes: the checks of R44, the reads of every lane, the results and their
writes (R32, R33, R45, R161), for one operation or for the two halves of a paired word (R39, R53). -/

namespace Sys2Proof.Machine

/-- What a lane computes: result and tag, the flags it sets, and any further change of the lane. -/
structure LaneOut where
  val : Nat := 0
  tag : Nat := 0
  flags : Nat := 0
  lane : Lane → Lane := id
  /-- registers it writes beyond its destination, by specifier -/
  heal : List Nat := []

/-- What an operation computes in a lane, from the gang, the lane's place and its operands. -/
abbrev LaneFn := Gang → Nat × Nat → Operand → Operand → Operand → LaneOut

/-- One operation on lanes with its operands' fields. -/
structure LaneOp where
  dst : Dst
  dstSpec : BitVec 9
  a : Src
  srcA : BSource
  b : Src
  srcB : BSource
  c : Src
  srcC : BSource
  /-- registers it reads beyond its source fields', by specifier -/
  reads : List Nat := []
  fn : LaneFn

/-- Every specifier is allowed. -/
def LaneOp.specsOk (op : LaneOp) (regs : Nat) : Bool :=
  op.dst.specOk regs op.dstSpec && op.a.specOk regs op.srcA && op.b.specOk regs op.srcB && op.c.specOk regs op.srcC

/-- Every unused field is zero. -/
def LaneOp.reservedOk (op : LaneOp) : Bool :=
  op.dst.reservedOk op.dstSpec && op.a.reservedOk op.srcA && op.b.reservedOk op.srcB && op.c.reservedOk op.srcC

/-- The operands of a lane, read at issue (R32). -/
def LaneOp.operands (op : LaneOp) (g : Gang) (x : Nat × Nat) : Operand × Operand × Operand :=
  let sl := g.u.slice x.1
  (sl.operand x.2 op.a op.srcA, sl.operand x.2 op.b op.srcB, sl.operand x.2 op.c op.srcC)

/-- The first source of a lane whose tag is not accepted, and the tag (R161, R417). -/
def LaneOp.mismatch (op : LaneOp) (g : Gang) (x : Nat × Nat) : Option (Nat × Nat) :=
  let o := op.operands g x
  if !op.a.accepts o.1 then some (0, o.1.tag)
  else if !op.b.accepts o.2.1 then some (1, o.2.1.tag)
  else if !op.c.accepts o.2.2 then some (2, o.2.2.tag)
  else none

/-- The registers it reads, by their specifiers. -/
def LaneOp.regs (op : LaneOp) : List Nat := op.a.readRegs op.srcA ++ op.b.readRegs op.srcB ++ op.c.readRegs op.srcC ++ op.reads

/-- What an operation computes in a lane. -/
def LaneOp.out (op : LaneOp) (g : Gang) (x : Nat × Nat) : LaneOut :=
  let o := op.operands g x
  op.fn g x o.1 o.2.1 o.2.2

/-- Write a lane's result. -/
def LaneOp.writeLane (op : LaneOp) (o : LaneOut) (ln : Lane) : Lane :=
  let ln := (o.lane ln).setFlags o.flags
  match op.dst with
  | .reg wide _ => if isSSpec op.dstSpec.toNat then ln else ln.putDst wide op.dstSpec.toNat o.val o.tag
  | _ => ln

/-- Write an operation's results to a slice: outs holds them by lane, lowest first. -/
def LaneOp.writeSlice (op : LaneOp) (pc : DWord) (outs : List (Nat × LaneOut)) (sl : Slice) : Slice :=
  let sl := { sl with lanes := sl.lanes.mapIdx fun j ln =>
                match outs.lookup j with
                | some o => op.writeLane o ln
                | none => ln }
  let sl := sl.track (outs.foldl (fun f o => f ||| o.2.flags) 0) pc op.dstSpec
  match op.dst, outs.head? with
  | .reg wide _, some o => if isSSpec op.dstSpec.toNat then sl.putS wide op.dstSpec.toNat o.2.val else sl
  | _, _ => sl

/-- Results of an operation in executing lanes, by slice position. -/
def LaneOp.outs (op : LaneOp) (g : Gang) (lanes : List (Nat × Nat)) : List ((Nat × Nat) × LaneOut) :=
  lanes.map fun x => (x, op.out g x)

/-- The results of one slice. -/
def outsOf (p : Nat) (outs : List ((Nat × Nat) × LaneOut)) : List (Nat × LaneOut) :=
  outs.filterMap fun o => if o.1.1 = p then some (o.1.2, o.2) else none

/-- Registers an operation writes in a lane. -/
def LaneOp.written (op : LaneOp) : List Nat :=
  match op.dst with
  | .reg wide _ => if wide then [op.dstSpec.toNat, op.dstSpec.toNat + 1] else [op.dstSpec.toNat]
  | _ => []

/-- Apply an operation's results to the unit. -/
def WorkUnit.apply (u : WorkUnit) (op : LaneOp) (pc : DWord) (ps : List Nat) (outs : List ((Nat × Nat) × LaneOut)) : WorkUnit :=
  let u' := { u with slices := u.slices.mapIdx fun p sl => if ps.contains p then op.writeSlice pc (outsOf p outs) sl else sl }
  if u.badRegs.isEmpty then u'
  else outs.foldl (fun u o => (op.written ++ o.2.heal).foldl (fun u r => u.healReg o.1.1 o.1.2 r) u) u'

/-- The DST a fault of a word records: of the one operation that failed, or of the first where both or neither did (R410). -/
def failedDst (ops : List LaneOp) (fails : LaneOp → Bool) : BitVec 9 :=
  match ops.filter fails, ops with
  | [op], _ => op.dstSpec
  | _, op :: _ => op.dstSpec
  | _, [] => 0

/-- FORMAT_MISMATCH in the lanes whose tags fail (R45, R161). -/
def Gang.mismatchTrap (g : Gang) (ops : List LaneOp) (lanes : List (Nat × Nat)) : Option Trap :=
  let failed := lanes.filterMap fun x => (ops.findSome? fun op => op.mismatch g x).map fun m => (x, m)
  if failed = [] then none
  else
    let dst := failedDst ops fun op => lanes.any fun x => (op.mismatch g x).isSome
    let info := fun gl => match failed.find? fun f => g.u.gangLane f.1.1 f.1.2 == gl with
      | some f => BitVec.ofNat 32 (f.2.2 + f.2.1 * 256)
      | none => 0
    some { g.trapAt .formatMismatch (g.maskOf (failed.map (·.1))) dst with info := info }

/-- The trap of a word that fails its decode checks. `reserved` and `illegal` are the entry's own. -/
def Gang.decodeTrap (g : Gang) (s : State) (opc n : Nat) (lanes : List (Nat × Nat)) (ops : List LaneOp)
    (reserved illegal : Bool) : Option Trap :=
  let reserved := reserved || ops.any fun op => !op.reservedOk
  let illegal := illegal || ops.any fun op => !op.specsOk g.head.regs
  (g.decodeFault s opc n reserved illegal).map fun c =>
    g.trapAt c (g.maskOf lanes) (failedDst ops fun op => c == .illegalOperand && !op.specsOk g.head.regs)

/-- The trap of lanes that read an uncorrectable register (R269). -/
def Gang.unreadTrap (g : Gang) (ops : List LaneOp) (lanes : List (Nat × Nat)) : Option Trap :=
  match g.badReaders lanes (ops.flatMap LaneOp.regs) with
  | [] => none
  | bad => some (g.trapAt .memUncorrectable (g.maskOf bad) (failedDst ops fun op => g.badReaders lanes op.regs != []))

/-- The trap an ALU word takes in executing lanes, if any, in the order of R44. -/
def Gang.aluTrap (g : Gang) (s : State) (opc n : Nat) (lanes : List (Nat × Nat)) (ops : List LaneOp)
    (reserved illegal : Bool) : Option Trap :=
  ((g.decodeTrap s opc n lanes ops reserved illegal).orElse fun _ => g.unreadTrap ops lanes).orElse fun _ => g.mismatchTrap ops lanes

/-- All results are computed from the state before the word, then written (R6). -/
def WorkUnit.applyAll (u : WorkUnit) (g : Gang) (ops : List LaneOp) (lanes : List (Nat × Nat)) : WorkUnit :=
  ops.foldl (fun u op => u.apply op g.pc g.ps (op.outs g lanes)) u

/-! ### Scoreboards (R26) -/

/-- Slices that hold an executing lane. -/
def Gang.counted (g : Gang) (lanes : List (Nat × Nat)) : List Nat := g.ps.filter fun p => lanes.any (·.1 == p)

/-- Issue stalls while a named counter stands at 63 in a slice it would count in (R26). -/
def Gang.sbFull (g : Gang) (sb : BitVec 3) (lanes : List (Nat × Nat)) : Bool :=
  sb.toNat < 7 && (g.counted lanes).any fun p => (g.u.slice p).sb.getD sb.toNat 0 ≥ 63

/-- An outstanding result enters a slice, counted by its scoreboard (R26, R34). -/
def Slice.addResult (sl : Slice) (r : LongResult) : Slice :=
  { sl with pend := sl.pend ++ [r], sb := listModify sl.sb r.sb.toNat (· + 1) }

/-- Issue a word's long-latency results: one for each slice with an executing lane (R26, R34). -/
def WorkUnit.issueLong (u : WorkUnit) (g : Gang) (sb : BitVec 3) (lanes : List (Nat × Nat)) (requests : List Nat)
    (kind : Nat → LongKind) (writes : Nat → List RegWrite) : WorkUnit :=
  (g.counted lanes).foldl (init := u) fun u p =>
    { u.modifySlice p fun sl =>
        sl.addResult { id := u.nextResult, sb := sb, kind := kind p, writes := writes p, pc := g.pc, requests := requests, bound := false } with
      nextResult := u.nextResult + 1 }

/-- Hold the gang at its word, which is issued again at its next turn (R430). -/
def State.holdWord (s : State) (g : Gang) : State :=
  s.modifyUnit g.u.uid fun u => u.modifySlices g.ps fun sl => { sl with wait := .again }

/-- Whether a word of the gang has a result still to be written (R244, R409). -/
def Gang.awaiting (g : Gang) : Bool := g.ps.any fun p => !(g.u.slice p).pend.isEmpty

/-- A fixed-latency word: its trap, or its results and the next word. With no executing lane it has no effect (R158, R410). -/
def State.laneWord (s : State) (g : Gang) (opc n : Nat) (y : Bool) (sb : BitVec 3) (lanes : List (Nat × Nat)) (ops : List LaneOp)
    (reserved illegal : Bool) : State :=
  match (if lanes = [] then none else g.aluTrap s opc n lanes ops reserved illegal) with
  | some t => s.enterTrap g t
  | none => if g.sbFull sb lanes then s else (s.modifyUnit g.u.uid fun u => u.applyAll g ops lanes).finishWord g y n

/-- What an entry says of a standard-body instruction. -/
structure AluEntry where
  /-- the MOD bits it names (R35) -/
  mods : Nat := 0
  /-- fields or values of it that are reserved, beyond unused fields and MOD bits -/
  reserved : Bool := false
  illegal : Bool := false
  /-- LOP3 has no guard (R173) -/
  guarded : Bool := true
  /-- it acts once for the issue gang, on the operands of its lowest executing lane, and only in the producer gang (R290) -/
  once : Bool := false
  rights : Bool := false
  dst : Dst := .reg false false
  a : Src := .unused
  b : Src := .unused
  c : Src := .unused
  reads : List Nat := []
  fn : LaneFn

/-- The lane operation of a word under its entry. -/
def AluEntry.op (e : AluEntry) (w : StdWord) : LaneOp :=
  { dst := e.dst, dstSpec := w.dst, a := e.a, srcA := .spec w.srcA, b := e.b, srcB := w.srcB, c := e.c, srcC := .spec w.srcC,
    reads := e.reads, fn := e.fn }

/-- The lanes a word executes in. -/
def AluEntry.lanes (e : AluEntry) (g : Gang) (w : StdWord) : List (Nat × Nat) :=
  if e.guarded then g.executing w.c else g.activePlaces

/-- Reserved MOD bits, in the forms that have MOD. -/
def AluEntry.modBad (e : AluEntry) (w : StdWord) : Bool := w.mod.toNat &&& ((63 - e.mods % 64)) != 0

/-- Run a fixed-latency instruction with the standard body, whose entry may look at the gang. -/
def aluWordIn (opc : Nat) (w : StdWord) (entry : Gang → AluEntry) (s : State) : Host.Outcome State Fault Refusal :=
  match s.gang with
  | none => .next s
  | some g =>
    let e := entry g
    .next (s.laneWord g opc (sourceWords w.srcB) w.c.y w.c.sb (e.lanes g w) [e.op w] (e.reserved || e.modBad w) e.illegal)

/-- Run a fixed-latency instruction with the standard body. -/
def aluWord (opc : Nat) (w : StdWord) (e : AluEntry) (s : State) : Host.Outcome State Fault Refusal :=
  aluWordIn opc w (fun _ => e) s

end Sys2Proof.Machine
end

