-- ==== Sys2Proof/Machine/Integer.lean ====
section
/-! DEFINITION. Integer, address and bit-field instructions (R165-R184). -/

namespace Sys2Proof.Machine

/-! ### Tags and entry shapes (R166) -/

def tagI32 : Nat := 1
def tagN32 : Nat := 2

/-- The tags of integer arithmetic (R166). -/
def intTags (t : Nat) : Bool := t == 1 || t == 2

def tagIs (k : Nat) : Nat → Bool := fun t => t == k

def src32 (tags : Nat → Bool) : Src := .use (intUse false tags)
def src64 (tags : Nat → Bool) : Src := .use (intUse true tags)

/-- One 32-bit result of up to three 32-bit sources. -/
def op32 (tags : Nat → Bool) (sAllowed : Bool) (mods n : Nat) (f : Nat → Nat → Nat → Nat × Nat) : AluEntry :=
  { mods := mods, dst := .reg false sAllowed, a := src32 tags, b := if n ≥ 2 then src32 tags else .unused,
    c := if n ≥ 3 then src32 tags else .unused,
    fn := fun _ _ a b c => let r := f a.val b.val c.val; { val := r.1, tag := r.2 } }

/-! ### Arithmetic (R169-R171) -/

def s32 (x : Nat) : Int := sext x 32

/-- IADD: W(a + b). -/
def iaddEntry : AluEntry :=
  op32 intTags true 0 2 fun a b _ => ((a + b) % 2 ^ 32, tagI32)

/-- IADD: W(a + b). -/
def execIadd (w : StdWord) : State → Host.Outcome State Fault Refusal := aluWord 0x000 w iaddEntry

/-- ISUB: W(a - b). -/
def isubEntry : AluEntry :=
  op32 intTags true 0 2 fun a b _ => (wrapTo 32 ((a : Int) - b), tagI32)

/-- ISUB: W(a - b). -/
def execIsub (w : StdWord) : State → Host.Outcome State Fault Refusal := aluWord 0x001 w isubEntry

/-- IMUL: W(a × b). -/
def imulEntry : AluEntry :=
  op32 intTags false 0 2 fun a b _ => (a * b % 2 ^ 32, tagI32)

/-- IMUL: W(a × b). -/
def execImul (w : StdWord) : State → Host.Outcome State Fault Refusal := aluWord 0x002 w imulEntry

/-- The high word of a product, signed or unsigned. -/
def mulHigh (unsigned : Bool) (a b : Nat) : Nat :=
  if unsigned then a * b / 2 ^ 32 % 2 ^ 32 else wrapTo 64 (s32 a * s32 b) / 2 ^ 32

/-- The entry of IMULH. -/
def imulhEntry (w : StdWord) : AluEntry :=
  op32 intTags false 1 2 fun a b _ => (mulHigh (bitOf w.m 0) a b, if bitOf w.m 0 then tagN32 else tagI32)

/-- IMULH: bits [63:32] of the product, .s or .u. -/
def execImulh (w : StdWord) : State → Host.Outcome State Fault Refusal := aluWord 0x003 w (imulhEntry w)

/-- The entry of IMAD. -/
def imadEntry : AluEntry :=
  op32 intTags false 0 3 fun a b c => ((a * b + c) % 2 ^ 32, tagI32)

/-- IMAD: W(a × b + c). -/
def execImad (w : StdWord) : State → Host.Outcome State Fault Refusal := aluWord 0x004 w imadEntry

/-- The entry of IADD64. -/
def iadd64Entry : AluEntry :=
  { dst := .reg true false, a := src64 intTags, b := src64 intTags,
    fn := fun _ _ a b _ => { val := (a.val + b.val) % 2 ^ 64, tag := tagI32 } }

/-- IADD64: Bits(a + b, 63, 0) on pairs. -/
def execIadd64 (w : StdWord) : State → Host.Outcome State Fault Refusal := aluWord 0x005 w iadd64Entry

/-- The product of IMAD64 in its variants (R170). -/
def mad64 (m a b c : Nat) : Nat :=
  if m = 1 then wrapTo 64 (s32 a * s32 b + c) else (a * b + c) % 2 ^ 64

/-- The entry of IMAD64. -/
def imad64Entry (w : StdWord) : AluEntry :=
  let s := if w.m % 4 = 0 then src64 intTags else src32 intTags
  { mods := 3, reserved := w.m % 4 == 3, dst := .reg true false, a := s, b := s, c := src64 intTags,
    fn := fun _ _ a b c => { val := mad64 (w.m % 4) a.val b.val c.val, tag := tagI32 } }

/-- IMAD64: .lo of pairs, .ws and .wu of words, plus a pair (R170). -/
def execImad64 (w : StdWord) : State → Host.Outcome State Fault Refusal := aluWord 0x006 w (imad64Entry w)

/-- Whether a is less than b, compared signed or unsigned. -/
def lessInt (unsigned : Bool) (a b : Nat) : Bool := if unsigned then decide (a < b) else decide (s32 a < s32 b)

/-- IMIN: the lesser. -/
def iminEntry (m : Nat) : AluEntry :=
  op32 intTags false 1 2 fun a b _ =>
    (if lessInt (bitOf m 0) b a then b else a, if bitOf m 0 then tagN32 else tagI32)

/-- IMIN: the lesser. -/
def execImin (w : StdWord) : State → Host.Outcome State Fault Refusal := aluWord 0x007 w (iminEntry w.m)

/-- IMAX: the greater. -/
def imaxEntry (m : Nat) : AluEntry :=
  op32 intTags false 1 2 fun a b _ =>
    (if lessInt (bitOf m 0) a b then b else a, if bitOf m 0 then tagN32 else tagI32)

/-- IMAX: the greater. -/
def execImax (w : StdWord) : State → Host.Outcome State Fault Refusal := aluWord 0x008 w (imaxEntry w.m)

/-- The result of IABS and INEG: .sat turns 2^31 into the greatest integer. -/
def satNeg (sat : Bool) (x : Int) : Nat := if sat && x == 0x80000000 then 0x7FFFFFFF else wrapTo 32 x

/-- The entry of IABS. -/
def iabsEntry (w : StdWord) : AluEntry :=
  op32 intTags false 1 1 fun a _ _ => (satNeg (bitOf w.m 0) ((s32 a).natAbs : Int), tagI32)

/-- IABS: W(abs S(a)), .wrap or .sat. -/
def execIabs (w : StdWord) : State → Host.Outcome State Fault Refusal := aluWord 0x009 w (iabsEntry w)

/-- The entry of INEG. -/
def inegEntry (w : StdWord) : AluEntry :=
  op32 intTags false 1 1 fun a _ _ => (satNeg (bitOf w.m 0) (-(s32 a)), tagI32)

/-- INEG: W(-S(a)), .wrap or .sat. -/
def execIneg (w : StdWord) : State → Host.Outcome State Fault Refusal := aluWord 0x00A w (inegEntry w)

/-- Clamp to a range. -/
def clampInt (lo hi x : Int) : Int := if x < lo then lo else if x > hi then hi else x

/-- Sat of R171. -/
def satAdd (unsigned sub : Bool) (a b : Nat) : Nat :=
  let x : Int := if unsigned then (a : Int) else s32 a
  let y : Int := if unsigned then (b : Int) else s32 b
  let r := if sub then x - y else x + y
  wrapTo 32 (if unsigned then clampInt 0 0xFFFFFFFF r else clampInt (-0x80000000) 0x7FFFFFFF r)

/-- The entry of IADDS. -/
def iaddsEntry (w : StdWord) : AluEntry :=
  op32 intTags false 3 2 fun a b _ =>
    (satAdd (bitOf w.m 0) (bitOf w.m 1) a b, if bitOf w.m 0 then tagN32 else tagI32)

/-- IADDS: the saturated sum or difference (R171). -/
def execIadds (w : StdWord) : State → Host.Outcome State Fault Refusal := aluWord 0x00B w (iaddsEntry w)

/-! ### Logic and shifts (R172, R173) -/

/-- AND. -/
def andEntry : AluEntry :=
  op32 anyTag true 0 2 fun a b _ => (a &&& b, 0)

/-- AND. -/
def execAnd (w : StdWord) : State → Host.Outcome State Fault Refusal := aluWord 0x010 w andEntry

/-- OR. -/
def orEntry : AluEntry :=
  op32 anyTag true 0 2 fun a b _ => (a ||| b, 0)

/-- OR. -/
def execOr (w : StdWord) : State → Host.Outcome State Fault Refusal := aluWord 0x011 w orEntry

/-- XOR. -/
def xorEntry : AluEntry :=
  op32 anyTag true 0 2 fun a b _ => (a ^^^ b, 0)

/-- XOR. -/
def execXor (w : StdWord) : State → Host.Outcome State Fault Refusal := aluWord 0x012 w xorEntry

/-- The entry of NOT. -/
def notEntry : AluEntry :=
  op32 anyTag false 0 1 fun a _ _ => (0xFFFFFFFF - a, 0)

/-- NOT. -/
def execNot (w : StdWord) : State → Host.Outcome State Fault Refusal := aluWord 0x013 w notEntry

/-- The truth table of LOP3: TT[7:6] in bits [44:43], TT[5:0] in MOD (R173). -/
def lopTable (w : StdWord) : Nat := w.c.pred.toNat % 4 * 64 + w.m

/-- Any function of three inputs, bit by bit (R173). -/
def lop3Value (tt a b c : Nat) : Nat :=
  Machine.maskOf ((List.range 32).filter fun i =>
    tt.testBit ((if a.testBit i then 4 else 0) + (if b.testBit i then 2 else 0) + (if c.testBit i then 1 else 0)))

/-- The entry of LOP3. -/
def lop3Entry (w : StdWord) : AluEntry :=
  { op32 anyTag false 63 3 (fun a b c => (lop3Value (lopTable w) a b c, 0)) with
    guarded := false, reserved := w.c.pred.getLsbD 2 || w.c.pneg }

/-- LOP3: unguarded; bits [45] and [42] are reserved-zero (R173). -/
def execLop3 (w : StdWord) : State → Host.Outcome State Fault Refusal := aluWord 0x014 w (lop3Entry w)

/-- SHL: 0 from a count of 32 on. -/
def shlEntry : AluEntry :=
  op32 anyTag true 0 2 fun a n _ => (if n ≥ 32 then 0 else a * 2 ^ n % 2 ^ 32, 0)

/-- SHL: 0 from a count of 32 on. -/
def execShl (w : StdWord) : State → Host.Outcome State Fault Refusal := aluWord 0x015 w shlEntry

/-- SHR: 0 from a count of 32 on. -/
def shrEntry : AluEntry :=
  op32 anyTag true 0 2 fun a n _ => (if n ≥ 32 then 0 else a / 2 ^ n, 0)

/-- SHR: 0 from a count of 32 on. -/
def execShr (w : StdWord) : State → Host.Outcome State Fault Refusal := aluWord 0x016 w shrEntry

/-- SHRA: the sign fills in. -/
def shraEntry : AluEntry :=
  op32 anyTag false 0 2 fun a n _ => (wrapTo 32 (s32 a / (2 ^ (min n 31) : Nat)), 0)

/-- SHRA: the sign fills in. -/
def execShra (w : StdWord) : State → Host.Outcome State Fault Refusal := aluWord 0x017 w shraEntry

/-- ROTL: by n mod 32. -/
def rotlEntry : AluEntry :=
  op32 anyTag false 0 2 fun a n _ =>
    (a * 2 ^ (n % 32) % 2 ^ 32 + a / 2 ^ (32 - n % 32), 0)

/-- ROTL: by n mod 32. -/
def execRotl (w : StdWord) : State → Host.Outcome State Fault Refusal := aluWord 0x018 w rotlEntry

/-- The funnel shift of R172. -/
def funnel (left clamp : Bool) (a b c : Nat) : Nat :=
  let f := b * 2 ^ 32 + a
  let k := if clamp then min c 32 else c % 32
  if left then f * 2 ^ k / 2 ^ 32 % 2 ^ 32 else f / 2 ^ k % 2 ^ 32

/-- The entry of FSHF. -/
def fshfEntry (w : StdWord) : AluEntry :=
  op32 anyTag false 3 3 fun a b c => (funnel (bitOf w.m 0) (bitOf w.m 1) a b c, 0)

/-- FSHF: .r or .l, .wrap or .clamp. -/
def execFshf (w : StdWord) : State → Host.Outcome State Fault Refusal := aluWord 0x019 w (fshfEntry w)

/-! ### Bit fields and counts (R174, R175) -/

/-- The width of a bit field: at most 32. -/
def fieldWidth (b : Nat) : Nat := min (bitsOf b 15 8) 32

/-- BFX of R174. -/
def extractField (signed : Bool) (a b : Nat) : Nat :=
  let w := fieldWidth b
  let x : Int := if signed then s32 a else (a : Int)
  let f := ((x / (2 ^ bitsOf b 7 0 : Nat)) % (2 ^ w : Nat)).toNat
  if w = 0 then 0 else if signed then wrapTo 32 (sext f w) else f

/-- The entry of BFX. -/
def bfxEntry (w : StdWord) : AluEntry :=
  op32 anyTag false 1 2 fun a b _ =>
    (extractField (bitOf w.m 0) a b, if bitOf w.m 0 then tagI32 else tagN32)

/-- BFX: .u tags n32, .s tags i32. -/
def execBfx (w : StdWord) : State → Host.Outcome State Fault Refusal := aluWord 0x020 w (bfxEntry w)

/-- BFI of R174. -/
def insertField (a b c : Nat) : Nat :=
  let pos := bitsOf b 7 0
  let m := (2 ^ fieldWidth b - 1) * 2 ^ pos % 2 ^ 32
  (c &&& (0xFFFFFFFF - m)) ||| (a * 2 ^ pos % 2 ^ 32 &&& m)

/-- The entry of BFI. -/
def bfiEntry : AluEntry :=
  op32 anyTag false 0 3 fun a b c => (insertField a b c, 0)

/-- BFI. -/
def execBfi (w : StdWord) : State → Host.Outcome State Fault Refusal := aluWord 0x021 w bfiEntry

/-- The entry of BREV. -/
def brevEntry : AluEntry :=
  op32 anyTag false 0 1 fun a _ _ =>
    (Machine.maskOf ((List.range 32).filter fun i => a.testBit (31 - i)), 0)

/-- BREV: bit i of d is bit 31 - i of a. -/
def execBrev (w : StdWord) : State → Host.Outcome State Fault Refusal := aluWord 0x022 w brevEntry

/-- The number of set bits. -/
def popCount (a : Nat) : Nat := (Machine.maskList 32 a).length

/-- The entry of POPC. -/
def popcEntry : AluEntry :=
  op32 anyTag false 0 1 fun a _ _ => (popCount a, tagN32)

/-- POPC. -/
def execPopc (w : StdWord) : State → Host.Outcome State Fault Refusal := aluWord 0x023 w popcEntry

/-- The entry of CLZ. -/
def clzEntry : AluEntry :=
  op32 anyTag false 0 1 fun a _ _ => (if a = 0 then 32 else 31 - Nat.log2 a, tagN32)

/-- CLZ: 32 for 0. -/
def execClz (w : StdWord) : State → Host.Outcome State Fault Refusal := aluWord 0x024 w clzEntry

/-- The number of trailing zeros; 32 for 0. -/
def trailingZeros (a : Nat) : Nat := ((Machine.maskList 32 a).head?).getD 32

/-- The entry of CTZ. -/
def ctzEntry : AluEntry :=
  op32 anyTag false 0 1 fun a _ _ => (trailingZeros a, tagN32)

/-- CTZ: 32 for 0. -/
def execCtz (w : StdWord) : State → Host.Outcome State Fault Refusal := aluWord 0x025 w ctzEntry

/-! ### Comparison, selection and predicates (R176-R179) -/

/-- The comparisons of R176: 0 eq, 1 ne, 2 lt, 3 le, 4 gt, 5 ge. -/
def compareInt (cmp : Nat) (a b : Int) : Bool :=
  match cmp with
  | 0 => a == b
  | 1 => a != b
  | 2 => decide (a < b)
  | 3 => decide (a ≤ b)
  | 4 => decide (a > b)
  | _ => decide (a ≥ b)

/-- Combine a comparison with a predicate (R176): 0 none, 1 and, 2 or, 3 xor. -/
def combinePred (op : Nat) (r p : Bool) : Bool :=
  match op with
  | 0 => r
  | 1 => r && p
  | 2 => r || p
  | _ => xor r p

/-- The predicate an SRCC field names: [2:0] the predicate, [3] its inversion (R176, R177). -/
def Lane.srcPred (ln : Lane) (srcC : BitVec 9) : Bool := xor (ln.getP (srcC.toNat % 8)) (srcC.getLsbD 3)

/-- What stands in the DST of a comparison (R176, R233): whether its reserved parts are zero. -/
def cmpDstBad (dst : BitVec 9) : Bool := bitsOf dst.toNat 5 3 ≥ 6 || bitsOf dst.toNat 8 7 != 0

/-- Whether the combine's SRCC is as R176 lays it down. -/
def combineBad (m : Nat) (srcC : BitVec 9) : Bool :=
  if m % 4 = 0 then srcC != 0 else bitsOf srcC.toNat 8 4 != 0

/-- The entry of ICMP. -/
def icmpEntry (w : StdWord) : AluEntry :=
  let unsigned := w.dst.getLsbD 6
  { mods := 3, reserved := cmpDstBad w.dst || combineBad w.m w.srcC, dst := .field, a := src32 intTags, b := src32 intTags,
    c := .field,
    fn := fun g x a b _ =>
      let v := fun (o : Operand) => if unsigned then (o.val : Int) else s32 o.val
      let r := compareInt (bitsOf w.dst.toNat 5 3) (v a) (v b)
      let p := (g.u.lane x.1 x.2).srcPred w.srcC
      { lane := fun ln => ln.setP (w.dst.toNat % 8) (combinePred (w.m % 4) r p) } }

/-- ICMP: writes a predicate, combined or not (R176). -/
def execIcmp (w : StdWord) : State → Host.Outcome State Fault Refusal := aluWord 0x030 w (icmpEntry w)

/-- The entry of SEL. -/
def selEntry (w : StdWord) : AluEntry :=
  { reserved := bitsOf w.srcC.toNat 8 4 != 0, a := src32 anyTag, b := src32 anyTag, c := .field,
    fn := fun g x a b _ =>
      let r := if (g.u.lane x.1 x.2).srcPred w.srcC then a else b
      { val := r.val, tag := r.tag } }

/-- SEL: a or b by a predicate, with the chosen source's tag (R177). -/
def execSel (w : StdWord) : State → Host.Outcome State Fault Refusal := aluWord 0x031 w (selEntry w)

/-- The entry of PLUT. -/
def plutEntry (w : StdWord) : AluEntry :=
  let selB := match w.srcB with | .spec x => x | _ => 0
  let tt := bitsOf w.dst.toNat 4 3 * 64 + w.m
  { mods := 63, dst := .field, a := .field, b := .field, c := .field,
    reserved := bitsOf w.dst.toNat 8 5 != 0 || w.srcA.toNat ≥ 8 || selB.toNat ≥ 8 || w.srcC.toNat ≥ 8,
    fn := fun g x _ _ _ =>
      let p := fun n => if (g.u.lane x.1 x.2).getP n then 1 else 0
      let j := 4 * p w.srcA.toNat + 2 * p selB.toNat + p w.srcC.toNat
      { lane := fun ln => ln.setP (w.dst.toNat % 8) (tt.testBit j) } }

/-- PLUT: any function of three predicates (R178). -/
def execPlut (w : StdWord) : State → Host.Outcome State Fault Refusal := aluWord 0x036 w (plutEntry w)

/-- The entry of PMOV. Its `.fromv` source is accepted with any tag (DESIGN CHOICE, entry 32: R166's table has no row for it). -/
def pmovEntry (w : StdWord) : AluEntry :=
  if bitOf w.m 0 then
    { mods := 1, reserved := bitsOf w.dst.toNat 8 7 != 0, dst := .field, a := src32 anyTag,
      fn := fun _ _ a _ _ =>
        { lane := fun ln => (List.range 7).foldl (fun ln i => if w.dst.getLsbD i then ln.setP i (a.val.testBit i) else ln) ln } }
  else
    { mods := 1, illegal := w.dst.toNat ≥ 0x100,
      fn := fun g x _ _ _ => { val := (g.u.lane x.1 x.2).p.toNat + 128, tag := tagN32 } }

/-- PMOV: predicates to a v register, or bits of a source to predicates (R179). -/
def execPmov (w : StdWord) : State → Host.Outcome State Fault Refusal := aluWord 0x037 w (pmovEntry w)

/-! ### Moves, conversions and tags (R180-R182) -/

/-- The entry of MOV. Under .b64 a constant or an immediate stands for a pair, as R165 lets it stand for any 64-bit source (DESIGN
CHOICE, entry 32: R180 says that both operands are even pairs). -/
def movEntry (w : StdWord) : AluEntry :=
  let wide := bitOf w.m 0
  { mods := 1, dst := .reg wide true, a := if wide then src64 anyTag else src32 anyTag,
    fn := fun _ _ a _ _ => { val := a.val, tag := a.tag } }

/-- MOV: 32 bits or a pair, with its tag; an s destination is allowed. -/
def execMov (w : StdWord) : State → Host.Outcome State Fault Refusal := aluWord 0x032 w (movEntry w)

/-- The entry of MOVI. -/
def moviEntry : AluEntry :=
  { dst := .reg false true, b := src32 anyTag, fn := fun _ _ _ b _ => { val := b.val, tag := 0 } }

/-- MOVI: the immediate or the 32-bit literal, tag raw. -/
def execMovi (w : StdWord) : State → Host.Outcome State Fault Refusal := aluWord 0x033 w moviEntry

/-- The entry of MOVQ. -/
def movqEntry (w : StdWord) (g : Gang) : AluEntry :=
  let n := w.m % 16 + 1
  let d := w.dst.toNat
  let a := w.srcA.toNat
  { mods := 15, dst := .field, a := .field,
    reads := (List.range n).map (a + ·),
    illegal := !((qRunOk d n 1 && vRunOk g.head.regs a n 1) || (vRunOk g.head.regs d n 1 && qRunOk a n 1)),
    fn := fun g x _ _ _ =>
      let sl := g.u.slice x.1
      { lane := fun ln => (List.range n).foldl (fun ln k => ln.putSpec (d + k) (sl.getSpec x.2 (a + k))) ln,
        heal := (List.range n).map (d + ·) } }

/-- MOVQ: a run of registers between v and q (R180). -/
def execMovq (w : StdWord) : State → Host.Outcome State Fault Refusal := aluWordIn 0x034 w (movqEntry w)

/-- The entry of MOVS. Its sources are accepted with any tag (DESIGN CHOICE, entry 32: R166's table has no row for it). -/
def movsEntry (w : StdWord) : AluEntry :=
  let byLane := bitOf w.m 0
  { mods := 1, dst := .reg false true, a := src32 anyTag, b := if byLane then src32 anyTag else .unused,
    illegal := !isSSpec w.dst.toNat || w.srcA.toNat ≥ 0x110,
    fn := fun g x a b _ =>
      if byLane then { val := ((g.u.slice x.1).getSpec (b.val % 4) w.srcA.toNat).val.toNat } else { val := a.val } }

/-- MOVS: an s register from one lane's v or q register (R180). -/
def execMovs (w : StdWord) : State → Host.Outcome State Fault Refusal := aluWord 0x035 w (movsEntry w)

/-- Narrow an integer to n bits: .wrap keeps the low bits, .sat clamps to the range (R181). -/
def narrow (n : Nat) (signed sat : Bool) (x : Int) : Nat :=
  let lo : Int := if signed then -(2 ^ (n - 1) : Nat) else 0
  let hi : Int := if signed then (2 ^ (n - 1) : Nat) - 1 else (2 ^ n : Nat) - 1
  wrapTo n (if sat then clampInt lo hi x else x)

/-- What a conversion code of ICVT uses (R181): tags of a, of b and c, wide source and destination, result tag. -/
structure IcvtRow where
  tagA : Nat
  /-- the tag of b where b is data -/
  tagB : Option Nat := none
  /-- b is used -/
  useB : Bool := false
  tagC : Option Nat := none
  wideA : Bool := false
  wideD : Bool := false
  tagD : Nat

/-- The rows of R181. -/
def icvtRow : Nat → IcvtRow
  | 0 => { tagA := 3, tagD := 1 }
  | 1 => { tagA := 3, tagD := 1 }
  | 2 => { tagA := 4, tagD := 2 }
  | 3 => { tagA := 4, tagD := 2 }
  | 4 => { tagA := 5, useB := true, tagD := 1 }
  | 5 => { tagA := 6, useB := true, tagD := 2 }
  | 6 => { tagA := 1, useB := true, tagB := some 1, tagD := 3 }
  | 7 => { tagA := 2, useB := true, tagB := some 2, tagD := 4 }
  | 8 => { tagA := 1, useB := true, tagC := some 5, tagD := 5 }
  | 9 => { tagA := 2, useB := true, tagC := some 6, tagD := 6 }
  | 10 => { tagA := 1, tagD := 2 }
  | 11 => { tagA := 2, tagD := 1 }
  | 12 => { tagA := 1, wideD := true, tagD := 1 }
  | 13 => { tagA := 2, wideD := true, tagD := 2 }
  | 14 => { tagA := 1, wideA := true, tagD := 1 }
  | _ => { tagA := 2, wideA := true, tagD := 2 }

/-- The value of an ICVT (R181). -/
def icvtValue (code : Nat) (sat : Bool) (a b c : Nat) : Nat :=
  match code with
  | 0 => intBits false (sext a 16)
  | 1 => intBits false (sext (a / 2 ^ 16) 16)
  | 2 => a % 2 ^ 16
  | 3 => a / 2 ^ 16
  | 4 => intBits false (sext (a / 2 ^ (8 * (b % 4))) 8)
  | 5 => a / 2 ^ (8 * (b % 4)) % 256
  | 6 => narrow 16 true sat (s32 a) + narrow 16 true sat (s32 b) * 2 ^ 16
  | 7 => narrow 16 false sat a + narrow 16 false sat b * 2 ^ 16
  | 8 => c - c / 2 ^ (8 * (b % 4)) % 256 * 2 ^ (8 * (b % 4)) + narrow 8 true sat (s32 a) * 2 ^ (8 * (b % 4))
  | 9 => c - c / 2 ^ (8 * (b % 4)) % 256 * 2 ^ (8 * (b % 4)) + narrow 8 false sat a * 2 ^ (8 * (b % 4))
  | 10 => narrow 32 false sat (s32 a)
  | 11 => narrow 32 true sat a
  | 12 => intBits true (s32 a)
  | 13 => a
  | 14 => narrow 32 true sat (sext a 64)
  | _ => narrow 32 false sat a

/-- The entry of ICVT. Where B is the byte index it is accepted with any tag (DESIGN CHOICE, entry 32: R181's rows give tags of A and
C only). -/
def icvtEntry (w : StdWord) : AluEntry :=
  let r := icvtRow (w.m % 16)
  { mods := 31, dst := .reg r.wideD false, a := .use (intUse r.wideA (tagIs r.tagA)),
    b := if r.useB then .use (intUse false (match r.tagB with | some t => tagIs t | none => anyTag)) else .unused,
    c := match r.tagC with | some t => .use (intUse false (tagIs t)) | none => .unused,
    fn := fun _ _ a b c => { val := icvtValue (w.m % 16) (bitOf w.m 4) a.val b.val c.val, tag := r.tagD } }

/-- ICVT: conversions between integer widths (R181). -/
def execIcvt (w : StdWord) : State → Host.Outcome State Fault Refusal := aluWord 0x038 w (icvtEntry w)

/-- The tag codes of R218. -/
def tagAssigned (t : Nat) : Bool :=
  decide (t ≤ 6) || decide (0x10 ≤ t ∧ t ≤ 0x13) || decide (0x40 ≤ t ∧ t ≤ 0x5B) || decide (0x80 ≤ t ∧ t ≤ 0x8B)

/-- The entry of RETAG. -/
def retagEntry (w : StdWord) : AluEntry :=
  let wide := bitOf w.m 0
  let code := match w.srcB with | .spec x => x.toNat | _ => 0
  { mods := 1, reserved := code ≥ 256, illegal := !tagAssigned (code % 256), dst := .reg wide false,
    a := if wide then src64 anyTag else src32 anyTag, b := .field,
    fn := fun _ _ a _ _ => { val := a.val, tag := code % 256 } }

/-- RETAG: a's bits under another tag (R182). -/
def execRetag (w : StdWord) : State → Host.Outcome State Fault Refusal := aluWord 0x039 w (retagEntry w)

/-! ### Special registers (R163, R183) -/

/-- The width of a special register, or none where the number is reserved (R163). -/
def specialWide (n : Nat) : Option Bool :=
  if n ≤ 0x08 ∨ (0x10 ≤ n ∧ n ≤ 0x12) ∨ n = 0x19 ∨ n = 0x20 ∨ n = 0x28 ∨ n = 0x29 ∨ n = 0x2B then some false
  else if n = 0x18 ∨ n = 0x1A ∨ n = 0x1B ∨ n = 0x21 ∨ n = 0x2A then some true
  else none

/-- The value of a special register for a lane (R163). -/
def specialValue (s : State) (g : Gang) (x : Nat × Nat) (n : Nat) : Nat :=
  let sl := g.u.slice x.1
  let ln := sl.lane x.2
  match n with
  | 0x00 => 4 * sl.idx + x.2
  | 0x01 => sl.idx
  | 0x02 => sl.home
  | 0x03 => g.u.wgid.1
  | 0x04 => g.u.wgid.2.1
  | 0x05 => g.u.wgid.2.2
  | 0x06 => g.u.core
  | 0x07 => s.coreDie g.u.core
  | 0x08 => s.chip
  | 0x10 => g.u.frpos.1
  | 0x11 => g.u.frpos.2.1
  | 0x12 => g.u.frpos.2.2
  | 0x18 => ln.evtime.toNat
  | 0x19 => ln.evtie.toNat
  | 0x1A => ln.evid.toNat
  | 0x1B => ln.evser.toNat
  | 0x20 => g.c.step.toNat
  | 0x21 => ln.rngctr.toNat
  | 0x28 => sl.fltcause.toNat
  | 0x29 => sl.fltlanes.toNat
  | 0x2A => sl.fltpc.toNat
  | 0x2B => sl.fltdst.toNat
  | _ => 0

/-- The entry of SREAD: a 64-bit register goes to an even v or s pair, never to a q pair (R163). -/
def sreadEntry (s : State) (w : StdWord) : AluEntry :=
  let n := w.srcA.toNat
  { reserved := n ≥ 256, a := .field,
    illegal := match specialWide (n % 256) with
      | some wide => wide && decide (0x100 ≤ w.dst.toNat ∧ w.dst.toNat < 0x110)
      | none => true
    dst := .reg ((specialWide (n % 256)).getD false) true,
    fn := fun g x _ _ _ => { val := specialValue s g x (n % 256), tag := tagN32 } }

/-- SREAD: a special register to v, q or s, tag n32 (R183). -/
def execSread (w : StdWord) (s : State) : Host.Outcome State Fault Refusal := aluWord 0x040 w (sreadEntry s w) s

/-- The entry of SWRITE. Its source is accepted with any tag (DESIGN CHOICE, entry 32: R166's table has no row for it). -/
def swriteEntry (w : StdWord) : AluEntry :=
  { reserved := w.dst.toNat ≥ 256, illegal := w.dst.toNat % 256 != 0x21 || w.srcA.toNat ≥ 0x150, dst := .field,
    a := src64 anyTag, fn := fun _ _ a _ _ => { lane := fun ln => { ln with rngctr := BitVec.ofNat 64 a.val } } }

/-- SWRITE: %rngctr from an even v or s pair, per lane (R183). -/
def execSwrite (w : StdWord) : State → Host.Outcome State Fault Refusal := aluWord 0x041 w (swriteEntry w)

/-! ### Register-indexed access (R184) -/

/-- The indices that lanes read from source a (R184). -/
def laneIndex (g : Gang) (w : StdWord) (x : Nat × Nat) : Nat :=
  ((g.u.slice x.1).readSpec x.2 (intUse false anyTag) w.srcA.toNat).val % 512

/-- An index that names no main register of the budget, or an odd one of a pair (R184). -/
def indexBad (regs : Nat) (wide : Bool) (i : Nat) : Bool := !vRunOk regs i (if wide then 2 else 1) (if wide then 2 else 1)

/-- The entry of VRDI. -/
def vrdiEntry (w : StdWord) (g : Gang) : AluEntry :=
  let wide := bitOf w.m 0
  { mods := 1, dst := .reg wide false, a := src32 anyTag,
    illegal := (g.executing w.c).any fun x => indexBad g.head.regs wide (laneIndex g w x),
    reads := ((g.executing w.c).flatMap fun x => let i := laneIndex g w x; if wide then [i, i + 1] else [i]).eraseDups,
    fn := fun g x a _ _ =>
      let i := a.val % 512
      let ln := g.u.lane x.1 x.2
      { val := (ln.getV i).val.toNat + (if wide then (ln.getV (i + 1)).val.toNat * 2 ^ 32 else 0), tag := (ln.getV i).tag.toNat } }

/-- VRDI: d <- v[index] with its tag. -/
def execVrdi (w : StdWord) : State → Host.Outcome State Fault Refusal := aluWordIn 0x042 w (vrdiEntry w)

/-- The entry of VWRI. -/
def vwriEntry (w : StdWord) (g : Gang) : AluEntry :=
  let wide := bitOf w.m 0
  { mods := 1, dst := .unused, a := src32 anyTag, b := if wide then src64 anyTag else src32 anyTag,
    illegal := (g.executing w.c).any fun x => indexBad g.head.regs wide (laneIndex g w x),
    fn := fun _ _ a b _ =>
      { lane := fun ln => ln.putDst wide (a.val % 512) b.val b.tag,
        heal := if wide then [a.val % 512, a.val % 512 + 1] else [a.val % 512] } }

/-- VWRI: v[index] <- b with its tag. -/
def execVwri (w : StdWord) : State → Host.Outcome State Fault Refusal := aluWordIn 0x043 w (vwriEntry w)

end Sys2Proof.Machine
end

