-- ==== Sys2Proof/Machine/CrossLane.lean ====
section
/-! DEFINITION. Cross-lane operations (R202-R211). -/

namespace Sys2Proof.Machine

/-! ### Who takes part (R202) -/

/-- A source value of a lane, its tag unchecked (R204). -/
def Gang.value (g : Gang) (x : Nat × Nat) (wide : Bool) (spec : Nat) : Operand :=
  (g.u.slice x.1).readSpec x.2 (intUse wide anyTag) spec

/-- E as a mask. -/
def Gang.maskE (g : Gang) (lanes : List (Nat × Nat)) : Nat := (g.maskOf lanes).toNat

/-- M: the member-mask source of the lowest lane of E (R202). -/
def Gang.maskM (g : Gang) (lanes : List (Nat × Nat)) (spec : Nat) : Nat :=
  match lanes with
  | x :: _ => (g.value x false spec).val
  | [] => 0

/-- The specifier a standard-form source B names. -/
def specB (w : StdWord) : Nat := match w.srcB with | .spec x => x.toNat | _ => 0

/-- The present lanes: those of E that M names (R202). -/
def Gang.present (g : Gang) (lanes : List (Nat × Nat)) (m : Nat) : List (Nat × Nat) :=
  lanes.filter fun x => m.testBit (g.u.gangLane x.1 x.2)

/-- The present lane of a gang lane number. -/
def Gang.presentAt (g : Gang) (present : List (Nat × Nat)) (gl : Nat) : Option (Nat × Nat) :=
  present.find? fun x => g.u.gangLane x.1 x.2 == gl

/-! ### VOTE, BALLOT, LMASK and BPICK (R205-R207) -/

/-- The ballot word over the present lanes (R205). -/
def ballotWord (g : Gang) (present : List (Nat × Nat)) (srcA : BitVec 9) : Nat :=
  (g.maskOf (present.filter fun x => (g.u.lane x.1 x.2).srcPred srcA)).toNat

/-- The entry of VOTE. -/
def voteEntry (w : StdWord) (g : Gang) : AluEntry :=
    let lanes := g.executing w.c
    let m := g.maskM lanes (specB w)
    let b := ballotWord g (g.present lanes m) w.srcA
    let r := match w.m % 4 with | 0 => b == m | 1 => b != 0 | _ => b == 0 || b == m
  { mods := 3, reserved := w.m % 4 == 3 || bitsOf w.srcA.toNat 8 4 != 0 || w.dst.toNat ≥ 8, dst := .field, a := .field,
    b := src32 anyTag, fn := fun _ _ _ _ _ => { lane := fun ln => ln.setP (w.dst.toNat % 8) r } }

/-- VOTE: .all, .any or .uni over the present lanes, to a predicate (R205). -/
def execVote (w : StdWord) : State → Host.Outcome State Fault Refusal := aluWordIn 0x100 w (voteEntry w)

/-- The entry of BALLOT. -/
def ballotEntry (w : StdWord) (g : Gang) : AluEntry :=
    let lanes := g.executing w.c
    let b := ballotWord g (g.present lanes (g.maskM lanes (specB w))) w.srcA
  { reserved := bitsOf w.srcA.toNat 8 4 != 0, dst := .reg false true, a := .field, b := src32 anyTag,
    fn := fun _ _ _ _ _ => { val := b, tag := tagN32 } }

/-- BALLOT: the ballot word, tagged n32, to v, q or s (R205). -/
def execBallot (w : StdWord) : State → Host.Outcome State Fault Refusal := aluWordIn 0x101 w (ballotEntry w)

/-- The lane masks of R206. -/
def laneMask (k e l : Nat) : Nat :=
  match k with
  | 0 => e
  | 1 => (2 ^ l - 1) % 2 ^ 32
  | 2 => (2 * 2 ^ l - 1) % 2 ^ 32
  | 3 => 0xFFFFFFFF - (2 * 2 ^ l - 1) % 2 ^ 32
  | 4 => 0xFFFFFFFF - (2 ^ l - 1) % 2 ^ 32
  | _ => 0xF * 2 ^ (4 * (l / 4))

/-- The entry of LMASK. -/
def lmaskEntry (w : StdWord) (g : Gang) : AluEntry :=
    let e := g.maskE (g.executing w.c)
  { mods := 7, reserved := w.m % 8 ≥ 6, dst := .reg false true,
    fn := fun g x _ _ _ => { val := laneMask (w.m % 8) e (g.u.gangLane x.1 x.2), tag := tagN32 } }

/-- LMASK (R206). -/
def execLmask (w : StdWord) : State → Host.Outcome State Fault Refusal := aluWordIn 0x102 w (lmaskEntry w)

/-- One byte of BPICK (R207). -/
def pickByte (y s : Nat) : Nat :=
  let x := y / 2 ^ (8 * (s % 8)) % 256
  match bitsOf s 4 3 with
  | 0 => x
  | 1 => 0
  | 2 => if x.testBit 7 then 0xFF else 0
  | _ => Machine.maskOf ((List.range 8).filter fun i => x.testBit (7 - i))

/-- BPICK: four bytes picked from b:a by the selector c (R207). -/
def bpickValue (a b c : Nat) : Nat :=
  ((List.range 4).map fun i => pickByte (b * 2 ^ 32 + a) (c / 2 ^ (8 * i) % 256) * 2 ^ (8 * i)).sum

/-- The entry of BPICK. -/
def bpickEntry : AluEntry :=
  op32 anyTag false 0 3 fun a b c => (bpickValue a b c, 0)

def execBpick (w : StdWord) : State → Host.Outcome State Fault Refusal := aluWord 0x103 w bpickEntry

/-! ### LGET and XCHG (R208, R209) -/

/-- The source lane of lane l under LGET's mode; none where it is out of range (R208). -/
def lgetSource (mode l b : Nat) : Option Nat :=
  match mode with
  | 0 => some (l ^^^ (b % 32))
  | 1 => some (b % 32)
  | 2 => if l + b ≤ 31 then some (l + b) else none
  | _ => if b ≤ l then some (l - b) else none

/-- The entry of LGET. -/
def lgetEntry (w : StdWord) (g : Gang) : AluEntry :=
    let lanes := g.executing w.c
    let present := g.present lanes (g.maskM lanes w.srcC.toNat)
  { mods := 63, reserved := !bitOf w.m 2 && bitsOf w.m 5 3 != 0, a := src32 anyTag, b := src32 anyTag, c := src32 anyTag,
    fn := fun g x _ b _ =>
      let from' := (lgetSource (w.m % 4) (g.u.gangLane x.1 x.2) b.val).bind (g.presentAt present)
      let r := match from' with | some y => g.value y false w.srcA.toNat | none => ⟨0, 0⟩
      { val := r.val, tag := r.tag,
        lane := fun ln => if bitOf w.m 2 then ln.setP (bitsOf w.m 5 3) from'.isSome else ln } }

/-- LGET: another lane's value with its tag, 0 raw where that lane is absent; .p tells which (R208). -/
def execLget (w : StdWord) : State → Host.Outcome State Fault Refusal := aluWordIn 0x108 w (lgetEntry w)

/-- One step of the masked butterfly (R209). -/
def xchgValue (k l a x m : Nat) : Nat :=
  if !l.testBit k then (a &&& m) ||| ((x &&& m) * 2 ^ (2 ^ k) % 2 ^ 32)
  else (x / 2 ^ (2 ^ k) &&& m) ||| (a &&& (0xFFFFFFFF - m))

/-- The entry of XCHG. -/
def xchgEntry (w : StdWord) (g : Gang) : AluEntry :=
    let lanes := g.executing w.c
    let present := g.present lanes (g.maskM lanes (specB w))
  { mods := 7, reserved := w.m % 8 ≥ 5, a := src32 anyTag, b := src32 anyTag, c := src32 anyTag,
    fn := fun g x a _ c =>
      let l := g.u.gangLane x.1 x.2
      let other := match g.presentAt present (l ^^^ 2 ^ (w.m % 8)) with
        | some y => (g.value y false w.srcA.toNat).val
        | none => 0
      { val := xchgValue (w.m % 8) l a.val other c.val, tag := 0 } }

/-- XCHG (R209). -/
def execXchg (w : StdWord) : State → Host.Outcome State Fault Refusal := aluWordIn 0x109 w (xchgEntry w)

/-! ### MATCH and REDUX (R210, R211) -/

/-- A word with a long-latency result in a v register: its checks are the entry's, its values arrive at LONG_RESULT_WRITTEN
(R34). -/
def longLaneWord (opc : Nat) (w : StdWord) (entry : Gang → AluEntry) (s : State) : Host.Outcome State Fault Refusal :=
  match s.gang with
  | none => .next s
  | some g =>
    let lanes := g.executing w.c
    let e := { entry g with illegal := (entry g).illegal || w.dst.toNat ≥ 0x100 }
    match (if lanes = [] then none else
      g.aluTrap s opc 1 lanes [e.op w] (e.reserved || e.modBad w) e.illegal) with
    | some t => .next (s.enterTrap g t)
    | none =>
      if g.sbFull w.c.sb lanes then .next s
      else
        let outs := (e.op w).outs g lanes
        let writes := fun (p : Nat) => (outsOf p outs).map fun o =>
          ({ lane := some o.1, reg := w.dst.toNat, val := ⟨BitVec.ofNat 32 o.2.val, BitVec.ofNat 8 o.2.tag⟩ } : RegWrite)
        .next ((s.modifyUnit g.u.uid fun u => u.issueLong g w.c.sb lanes [] (fun _ => .ready) writes).finishWord g w.c.y 1)

/-- The entry of MATCHLANES. -/
def matchLanesEntry (w : StdWord) (g : Gang) : AluEntry :=
  let wide := bitOf w.m 1
    let lanes := g.executing w.c
    let present := g.present lanes (g.maskM lanes (specB w))
    let vals := present.map fun y => (g.value y wide w.srcA.toNat).val
  { mods := 3, a := if wide then src64 anyTag else src32 anyTag, b := src32 anyTag,
    fn := fun g _ a _ _ =>
      let v := if bitOf w.m 0 then
          (if vals.all (· == vals.headD 0) then g.maskOf present else 0)
        else g.maskOf (present.filter fun y => (g.value y wide w.srcA.toNat).val == a.val)
      { val := v.toNat, tag := tagN32 } }

/-- MATCH: present lanes whose values are equal (R210). -/
def execMatchLanes (w : StdWord) : State → Host.Outcome State Fault Refusal := longLaneWord 0x10C w (matchLanesEntry w)

/-- One step of a reduction (R211). -/
def reduxStep (k a b : Nat) : Nat :=
  match k with
  | 0 => (a + b) % 2 ^ 32
  | 1 => if lessInt false b a then b else a
  | 2 => if lessInt false a b then b else a
  | 3 => min a b
  | 4 => max a b
  | 5 => a &&& b
  | 6 => a ||| b
  | _ => a ^^^ b

/-- The identities of R211. -/
def reduxIdentity : Nat → Nat
  | 1 => 0x7FFFFFFF
  | 2 => 0x80000000
  | 3 => 0xFFFFFFFF
  | 5 => 0xFFFFFFFF
  | _ => 0

/-- The entry of REDUX. -/
def reduxEntry (w : StdWord) (g : Gang) : AluEntry :=
  let k := w.m % 8
    let lanes := g.executing w.c
    let present := g.present lanes (g.maskM lanes (specB w))
    let v := present.foldl (fun r y => reduxStep k r (g.value y false w.srcA.toNat).val) (reduxIdentity k)
  { mods := 7, a := src32 (if k < 5 then intTags else anyTag), b := src32 anyTag,
    fn := fun _ _ _ _ _ => { val := v, tag := if k < 3 then tagI32 else if k < 5 then tagN32 else 0 } }

/-- REDUX: the present lanes' values combined (R211). -/
def execRedux (w : StdWord) : State → Host.Outcome State Fault Refusal := longLaneWord 0x10D w (reduxEntry w)

end Sys2Proof.Machine
end

