-- ==== Sys2Proof/Machine/Numbers.lean ====
section
/-! DEFINITION. Number formats: IEEE layouts (R214), the binary8 and 4-bit formats (R215, R216), exact values and their single
rounding (R220, R221, R224-R226), NaNs (R219, R228), FTZ and DAZ (R222). -/

namespace Sys2Proof.Machine

/-! ### Exact values -/

/-- An exact dyadic value: (-1)^neg × mag × 2^exp. -/
structure Dy where
  neg : Bool
  mag : Nat
  exp : Int
  deriving DecidableEq, Repr, Inhabited

/-- The value whose magnitude lies strictly between mag × 2^exp and (mag + 1) × 2^exp stands at the middle: at any coarser
quantum it rounds alike. -/
def Dy.between (neg : Bool) (mag : Nat) (exp : Int) : Dy := ⟨neg, 2 * mag + 1, exp - 1⟩

/-- A magnitude known exactly or from below. -/
def Dy.from' (neg : Bool) (mag : Nat) (exp : Int) (exact : Bool) : Dy :=
  if exact then ⟨neg, mag, exp⟩ else Dy.between neg mag exp

/-- The signed magnitude at an exponent not above the value's own. -/
def Dy.at (x : Dy) (e : Int) : Int :=
  let m : Int := (x.mag * 2 ^ (x.exp - e).toNat : Nat)
  if x.neg then -m else m

/-- A signed magnitude as an exact value. -/
def Dy.ofInt (m : Int) (e : Int) : Dy := ⟨decide (m < 0), m.natAbs, e⟩

def Dy.add (x y : Dy) : Dy :=
  let e := min x.exp y.exp
  Dy.ofInt (x.at e + y.at e) e

def Dy.mul (x y : Dy) : Dy := ⟨xor x.neg y.neg, x.mag * y.mag, x.exp + y.exp⟩

def Dy.isZero (x : Dy) : Bool := x.mag == 0

/-! ### Rounding (R220) -/

/-- The rounding modes in the order of R230: 0 RNE, 1 RTZ, 2 RUP, 3 RDN. -/
def roundsUp (mode : Nat) (neg : Bool) (lowerOdd : Bool) (rem half : Nat) : Bool :=
  match mode with
  | 0 => rem > half || (rem == half && lowerOdd)
  | 1 => false
  | 2 => !neg && rem != 0
  | _ => neg && rem != 0

/-- A magnitude cut at a quantum 2^q: the lower multiple, the remainder and the divisor. -/
def cutAt (x : Dy) (q : Int) : Nat × Nat × Nat :=
  if x.exp ≥ q then (x.mag * 2 ^ (x.exp - q).toNat, 0, 1)
  else
    let d := 2 ^ (q - x.exp).toNat
    (x.mag / d, x.mag % d, d)

/-- The exponent of the leading bit of a nonzero value. -/
def Dy.lead (x : Dy) : Int := (Nat.log2 x.mag : Int) + x.exp

/-- A format by its precision (implicit bit included) and the exponent of its smallest normal value. -/
structure Prec where
  p : Nat
  emin : Int
  deriving DecidableEq, Repr, Inhabited

/-- The code of m multiples of the quantum at exponent q, counted from zero, the exponent unbounded above. -/
def Prec.code (f : Prec) (m : Nat) (q : Int) : Nat :=
  ((q - (f.emin - ((f.p : Int) - 1))).toNat + 1) * 2 ^ (f.p - 1) + m - 2 ^ (f.p - 1)

/-- Whether the code of m multiples of the quantum at exponent q has bit 0 set, the exponent unbounded below as above: with P = 1 that is
the exponent's own low bit (R220). -/
def Prec.odd (f : Prec) (m : Nat) (q : Int) : Bool := if f.p = 1 then m != 0 && (q - f.emin) % 2 == 0 else m % 2 == 1

/-- A rounding of a nonzero value: magnitude code with unbounded exponent, whether it is inexact, whether tiny after rounding. -/
structure Rounded where
  code : Nat
  inexact : Bool
  tiny : Bool
  deriving DecidableEq, Repr, Inhabited

/-- Round by a choice of direction given the lower code, remainder and divisor. -/
def Prec.round (f : Prec) (up : Bool → Nat → Nat → Bool) (x : Dy) : Rounded :=
  if x.mag = 0 then ⟨0, false, false⟩
  else
    let go := fun (q : Int) =>
      let c := cutAt x q
      let m := if up (f.odd c.1 q) c.2.1 c.2.2 then c.1 + 1 else c.1
      (m, q, c.2.1 != 0)
    let q0 := x.lead - ((f.p : Int) - 1)
    let free := go q0
    let tiny := decide ((Nat.log2 free.1 : Int) + q0 < f.emin)
    let r := go (max q0 (f.emin - ((f.p : Int) - 1)))
    ⟨f.code r.1 r.2.1, r.2.2, tiny⟩

/-- Round by one of the four modes. -/
def Prec.roundMode (f : Prec) (mode : Nat) (x : Dy) : Rounded :=
  f.round (fun odd rem d => roundsUp mode x.neg odd (2 * rem) d) x

/-- Round stochastically with the word r (R221). -/
def Prec.roundRs (f : Prec) (r : Nat) (x : Dy) : Rounded := f.round (fun _ rem d => decide (r < rem * 2 ^ 32 / d)) x

/-! ### IEEE formats (R214) -/

/-- Exponent and trailing field widths. -/
structure Ieee where
  e : Nat
  t : Nat
  deriving DecidableEq, Repr, Inhabited

def fp64 : Ieee := ⟨11, 52⟩
def fp32 : Ieee := ⟨8, 23⟩
def fp16 : Ieee := ⟨5, 10⟩
def bf16 : Ieee := ⟨8, 7⟩

namespace Ieee

def bias (f : Ieee) : Nat := 2 ^ (f.e - 1) - 1
def prec (f : Ieee) : Prec := ⟨f.t + 1, 1 - (f.bias : Int)⟩
def signBit (f : Ieee) : Nat := 2 ^ (f.e + f.t)
def width (f : Ieee) : Nat := f.e + f.t + 1
def neg (f : Ieee) (x : Nat) : Bool := x.testBit (f.e + f.t)
def expField (f : Ieee) (x : Nat) : Nat := x / 2 ^ f.t % 2 ^ f.e
def frac (f : Ieee) (x : Nat) : Nat := x % 2 ^ f.t
def infCode (f : Ieee) (neg : Bool) : Nat := (2 ^ f.e - 1) * 2 ^ f.t + (if neg then f.signBit else 0)
def zeroCode (f : Ieee) (neg : Bool) : Nat := if neg then f.signBit else 0
def isNan (f : Ieee) (x : Nat) : Bool := f.expField x == 2 ^ f.e - 1 && f.frac x != 0
def isInf (f : Ieee) (x : Nat) : Bool := f.expField x == 2 ^ f.e - 1 && f.frac x == 0
def isSnan (f : Ieee) (x : Nat) : Bool := f.isNan x && !x.testBit (f.t - 1)
def isZero (f : Ieee) (x : Nat) : Bool := f.expField x == 0 && f.frac x == 0
def isSub (f : Ieee) (x : Nat) : Bool := f.expField x == 0 && f.frac x != 0
/-- The canonical NaN (R219). -/
def nanCode (f : Ieee) : Nat := (2 ^ f.e - 1) * 2 ^ f.t + 2 ^ (f.t - 1)
def quiet (f : Ieee) (x : Nat) : Nat := x ||| 2 ^ (f.t - 1)
def flip (f : Ieee) (x : Nat) : Nat := x ^^^ f.signBit

/-- The exact value of a finite code. -/
def val (f : Ieee) (x : Nat) : Dy :=
  let base : Int := 1 - (f.bias : Int) - (f.t : Int)
  if f.expField x = 0 then ⟨f.neg x, f.frac x, base⟩
  else ⟨f.neg x, f.frac x + 2 ^ f.t, base + (f.expField x : Int) - 1⟩

end Ieee

/-- FTZ and DAZ of a format in the FP mode word (R222). -/
def ftz (f : Ieee) (mode : BitVec 4) : Bool := if f = fp64 then mode.getLsbD 2 else mode.getLsbD 0
def daz (f : Ieee) (mode : BitVec 4) : Bool := if f = fp64 then mode.getLsbD 3 else mode.getLsbD 1

/-- A source as read (R222). -/
def Ieee.read (f : Ieee) (mode : BitVec 4) (x : Nat) : Nat := if daz f mode && f.isSub x then f.zeroCode (f.neg x) else x

/-- A result code with the flags it sets (R223). -/
structure Fl where
  code : Nat
  flags : Nat
  deriving DecidableEq, Repr, Inhabited

/-- The result of an overflow (R224). -/
def Ieee.overflow (f : Ieee) (mode : Nat) (neg : Bool) : Nat :=
  let toInf := match mode with | 0 => true | 1 => false | 2 => !neg | _ => neg
  if toInf then f.infCode neg else f.infCode neg - 1

/-- Round a nonzero exact value to a format with flags, FTZ included (R220, R222-R224). -/
def Ieee.roundTo (f : Ieee) (fpm : BitVec 4) (mode : Nat) (x : Dy) : Fl :=
  let r := f.prec.roundMode mode x
  let sign := if x.neg then f.signBit else 0
  if r.code ≥ f.infCode false then ⟨f.overflow mode x.neg, flOverflow ||| flInexact⟩
  else if ftz f fpm && r.code != 0 && decide (r.code < 2 ^ f.t) then ⟨sign, flUnderflow ||| flInexact⟩
  else
    ⟨r.code + sign, (if r.inexact then flInexact else 0) ||| (if r.tiny && r.inexact then flUnderflow else 0)⟩

/-- The sign of an exact zero sum (R229): of equal signs that sign, else minus under RDN only. -/
def zeroSumSign (mode : Nat) (a b : Bool) : Bool := if a = b then a else mode == 3

/-- The first NaN of the sources, quieted, with the flag of a signalling one (R228). -/
def Ieee.nanOf (f : Ieee) (xs : List Nat) : Option Fl :=
  match xs.find? f.isNan with
  | some x => some ⟨f.quiet x, if xs.any f.isSnan then flInvalid else 0⟩
  | none => none

/-- a + b of codes as read (R229, R231). -/
def Ieee.addCodes (f : Ieee) (fpm : BitVec 4) (mode a b : Nat) : Fl :=
  if f.isInf a then
    if f.isInf b ∧ f.neg a ≠ f.neg b then ⟨f.nanCode, flInvalid⟩ else ⟨a, 0⟩
  else if f.isInf b then ⟨b, 0⟩
  else
    let s := (f.val a).add (f.val b)
    if s.isZero then ⟨f.zeroCode (zeroSumSign mode (f.neg a) (f.neg b)), 0⟩ else f.roundTo fpm mode s

/-- FADD and FSUB: NaNs keep their own sign; .na and the subtraction flip (R228, R231). -/
def Ieee.add (f : Ieee) (fpm : BitVec 4) (mode : Nat) (na sub : Bool) (a b : Nat) : Fl :=
  let a := f.read fpm (if na then f.flip a else a)
  let b := f.read fpm b
  match f.nanOf [a, b] with
  | some r => r
  | none => f.addCodes fpm mode a (if sub then f.flip b else b)

/-- FMUL (R231). -/
def Ieee.mul (f : Ieee) (fpm : BitVec 4) (mode : Nat) (na : Bool) (a b : Nat) : Fl :=
  let a := f.read fpm (if na then f.flip a else a)
  let b := f.read fpm b
  let sign := xor (f.neg a) (f.neg b)
  match f.nanOf [a, b] with
  | some r => r
  | none =>
    if f.isInf a ∨ f.isInf b then
      if f.isZero a ∨ f.isZero b then ⟨f.nanCode, flInvalid⟩ else ⟨f.infCode sign, 0⟩
    else
      let p := (f.val a).mul (f.val b)
      if p.isZero then ⟨f.zeroCode sign, 0⟩ else f.roundTo fpm mode p

/-- FFMA: the product is not rounded; zero times infinity is invalid even beside a NaN in c (R228, R231). -/
def Ieee.fma (f : Ieee) (fpm : BitVec 4) (mode : Nat) (na nc : Bool) (a b c : Nat) : Fl :=
  let a := f.read fpm (if na then f.flip a else a)
  let b := f.read fpm b
  let c := f.read fpm (if nc then f.flip c else c)
  let zeroInf := (f.isInf a && f.isZero b) || (f.isZero a && f.isInf b)
  let sign := xor (f.neg a) (f.neg b)
  match f.nanOf [a, b, c] with
  | some r => ⟨r.code, r.flags ||| (if zeroInf then flInvalid else 0)⟩
  | none =>
    if zeroInf then ⟨f.nanCode, flInvalid⟩
    else if f.isInf a ∨ f.isInf b then
      if f.isInf c ∧ f.neg c ≠ sign then ⟨f.nanCode, flInvalid⟩ else ⟨f.infCode sign, 0⟩
    else if f.isInf c then ⟨c, 0⟩
    else
      let p := (f.val a).mul (f.val b)
      let s := p.add (f.val c)
      if s.isZero then ⟨f.zeroCode (zeroSumSign mode sign (f.neg c)), 0⟩ else f.roundTo fpm mode s

/-- The order of two codes that are no NaN, -0 below +0: as signed magnitudes. -/
def Ieee.rank (f : Ieee) (x : Nat) : Int := if f.neg x then -((x - f.signBit : Nat) : Int) - 1 else (x : Int)

/-- FMIN and FMAX (R232). -/
def Ieee.minMax (f : Ieee) (fpm : BitVec 4) (max' nanMode : Bool) (a b : Nat) : Fl :=
  let a := f.read fpm a
  let b := f.read fpm b
  let fl := if f.isSnan a || f.isSnan b then flInvalid else 0
  if f.isNan a ∧ (f.isNan b ∨ nanMode) then ⟨f.quiet a, fl⟩
  else if f.isNan a then ⟨b, fl⟩
  else if f.isNan b then ⟨if nanMode then f.quiet b else a, fl⟩
  else ⟨if (if max' then decide (f.rank a < f.rank b) else decide (f.rank b < f.rank a)) then b else a, 0⟩

/-- The relation of FCMP and DCMP: less, equal, greater, or unordered (R233). -/
def Ieee.relation (f : Ieee) (a b : Nat) : Option Ordering :=
  if f.isNan a || f.isNan b then none
  else if f.isZero a && f.isZero b then some .eq
  else some (compare (f.rank a) (f.rank b))

/-- Whether a comparison of R233 holds. -/
def cmpHolds (cmp : Nat) (r : Option Ordering) : Bool :=
  match cmp with
  | 0 => r == some .eq
  | 1 => r == some .lt || r == some .gt
  | 2 => r == some .lt
  | 3 => r == some .lt || r == some .eq
  | 4 => r == some .gt
  | 5 => r == some .gt || r == some .eq
  | 6 => r.isSome
  | 7 => r.isNone
  | 8 => r.isNone || r == some .eq
  | 9 => r.isNone || r == some .lt || r == some .gt
  | 10 => r.isNone || r == some .lt
  | 11 => r.isNone || r == some .lt || r == some .eq
  | 12 => r.isNone || r == some .gt
  | _ => r.isNone || r == some .gt || r == some .eq

/-- The comparisons that are invalid on a quiet NaN (R233). -/
def cmpSignals (cmp : Nat) : Bool := decide ((2 ≤ cmp ∧ cmp ≤ 5) ∨ (10 ≤ cmp ∧ cmp ≤ 13))

/-- FCMP of two codes (R233). -/
def Ieee.cmp (f : Ieee) (fpm : BitVec 4) (cmp a b : Nat) : Bool × Nat :=
  let a := f.read fpm a
  let b := f.read fpm b
  let nan := f.isNan a || f.isNan b
  (cmpHolds cmp (f.relation a b), if f.isSnan a || f.isSnan b || (nan && cmpSignals cmp) then flInvalid else 0)

/-- FCLASS: the one-hot class (R234). -/
def Ieee.classMask (f : Ieee) (x : Nat) : Nat :=
  2 ^ (if f.isNan x then (if f.isSnan x then 0 else 1)
       else if f.isInf x then (if f.neg x then 2 else 9)
       else if f.isZero x then (if f.neg x then 5 else 6)
       else if f.isSub x then (if f.neg x then 4 else 7)
       else (if f.neg x then 3 else 8))

/-- Round an exact value to an integer: the magnitude and whether it changed. -/
def Dy.toIntegral (x : Dy) (mode : Nat) : Nat × Bool :=
  let c := cutAt x 0
  (if roundsUp mode x.neg (c.1 % 2 == 1) (2 * c.2.1) c.2.2 then c.1 + 1 else c.1, c.2.1 != 0)

/-- FRND (R235). -/
def Ieee.toIntegral (f : Ieee) (fpm : BitVec 4) (mode x : Nat) : Fl :=
  let x := f.read fpm x
  match f.nanOf [x] with
  | some r => r
  | none =>
    if f.isInf x ∨ f.isZero x then ⟨x, 0⟩
    else
      let m := ((f.val x).toIntegral mode).1
      if m = 0 then ⟨f.zeroCode (f.neg x), 0⟩ else ⟨(f.roundTo 0 0 ⟨f.neg x, m, 0⟩).code, 0⟩

/-- FSCALE: a × 2^n; an exponent beyond any format's range is as good as its bound (R235). -/
def Ieee.scale (f : Ieee) (fpm : BitVec 4) (mode x : Nat) (n : Int) : Fl :=
  let x := f.read fpm x
  match f.nanOf [x] with
  | some r => r
  | none =>
    if f.isInf x ∨ f.isZero x then ⟨x, 0⟩
    else
      let v := f.val x
      f.roundTo fpm mode ⟨v.neg, v.mag, v.exp + clampInt (-8192) 8192 n⟩

/-- An integer to a format (R224). -/
def Ieee.ofInt (f : Ieee) (fpm : BitVec 4) (mode : Nat) (x : Int) : Fl :=
  if x = 0 then ⟨0, 0⟩ else f.roundTo fpm mode (Dy.ofInt x 0)

/-- A value to an integer format of n bits (R225). -/
def Ieee.toInt (f : Ieee) (fpm : BitVec 4) (mode n : Nat) (signed : Bool) (x : Nat) : Fl :=
  let x := f.read fpm x
  let lo : Int := if signed then -(2 ^ (n - 1) : Nat) else 0
  let hi : Int := if signed then (2 ^ (n - 1) : Nat) - 1 else (2 ^ n : Nat) - 1
  if f.isNan x then ⟨0, flInvalid⟩
  else if f.isInf x then ⟨wrapTo n (if f.neg x then lo else hi), flInvalid⟩
  else
    let r := (f.val x).toIntegral mode
    let v : Int := if f.neg x then -(r.1 : Int) else r.1
    if v < lo then ⟨wrapTo n lo, flInvalid⟩
    else if v > hi then ⟨wrapTo n hi, flInvalid⟩
    else ⟨wrapTo n v, if r.2 then flInexact else 0⟩

/-- One IEEE format to another or to itself (R224, R236). -/
def Ieee.convert (f : Ieee) (g : Ieee) (fpm : BitVec 4) (mode x : Nat) : Fl :=
  let x := f.read fpm x
  if f.isNan x then
    let t := if f.t ≤ g.t then f.frac x * 2 ^ (g.t - f.t) else f.frac x / 2 ^ (f.t - g.t)
    ⟨g.infCode (f.neg x) + (t ||| 2 ^ (g.t - 1)), if f.isSnan x then flInvalid else 0⟩
  else if f.isInf x then ⟨g.infCode (f.neg x), 0⟩
  else if f.isZero x then ⟨g.zeroCode (f.neg x), 0⟩
  else g.roundTo fpm mode (f.val x)

/-! ### The binary8 family and the 4-bit extension (R215, R216) -/

/-- A format of width k and precision p, signed or not, with infinities (x) or not (f). -/
structure KFmt where
  k : Nat
  p : Nat
  signed : Bool
  inf : Bool
  deriving DecidableEq, Repr, Inhabited

/-- The format of a tag code (R218). -/
def kfmtOf (tag : Nat) : Option KFmt :=
  if 0x40 ≤ tag ∧ tag ≤ 0x5B then
    let n := tag - 0x40
    some ⟨8, n / 4 + 1, n / 2 % 2 == 0, n % 2 == 0⟩
  else if 0x80 ≤ tag ∧ tag ≤ 0x8B then
    let n := tag - 0x80
    some ⟨4, n / 4 + 1, n / 2 % 2 == 0, n % 2 == 0⟩
  else none

/-- What a code stands for. -/
inductive KVal where
  | nan
  | inf (neg : Bool)
  | fin (x : Dy)
  deriving DecidableEq, Repr, Inhabited

namespace KFmt

def bias (f : KFmt) : Int := (2 ^ (f.k - f.p) : Nat) / 2
def prec (f : KFmt) : Prec := ⟨f.p, 1 - f.bias⟩
/-- The code of NaN (R216, R219). -/
def nanCode (f : KFmt) : Nat := if f.signed then 2 ^ (f.k - 1) else 2 ^ f.k - 1
/-- The magnitude code of the largest finite value (R216). -/
def maxCode (f : KFmt) : Nat :=
  (if f.signed then 2 ^ (f.k - 1) - 1 else 2 ^ f.k - 2) - (if f.inf then 1 else 0)
def signBit (f : KFmt) (neg : Bool) : Nat := if neg && f.signed then 2 ^ (f.k - 1) else 0

/-- The value of a code (R215, R216). -/
def val (f : KFmt) (code : Nat) : KVal :=
  let neg := f.signed && code.testBit (f.k - 1)
  let m := if f.signed then code % 2 ^ (f.k - 1) else code % 2 ^ f.k
  if code = f.nanCode then .nan
  else if f.inf ∧ m = f.maxCode + 1 then .inf neg
  else
    let e := m / 2 ^ (f.p - 1)
    let t := m % 2 ^ (f.p - 1)
    let base : Int := 1 - f.bias - ((f.p : Int) - 1)
    .fin (if e = 0 then ⟨neg, t, base⟩ else ⟨neg, t + 2 ^ (f.p - 1), base + (e : Int) - 1⟩)

/-- ±infinity under .wrap: NaN where the format has none. -/
def infinity (f : KFmt) (neg : Bool) : Nat := if f.inf then f.maxCode + 1 + f.signBit neg else f.nanCode

/-- ±largest finite. -/
def largest (f : KFmt) (neg : Bool) : Nat := f.maxCode + f.signBit neg

/-- A conversion of an exact value (R226): mode 0-3 as R230, 4 stochastic with the word r. A negative value saturated to 0 is inexact,
and sets underflow too where it is tiny after rounding (DEDUCED, entry 34: R226 sets underflow for every tiny and inexact result). -/
def ofDy (f : KFmt) (mode r : Nat) (sat : Bool) (x : Dy) : Fl :=
  let y := if mode = 4 then f.prec.roundRs r x else f.prec.roundMode mode x
  if y.code = 0 then
    ⟨0, (if y.inexact then flInexact else 0) ||| (if y.inexact && y.tiny then flUnderflow else 0)⟩
  else if x.neg ∧ !f.signed then (if sat then ⟨0, flInexact ||| (if y.tiny then flUnderflow else 0)⟩ else ⟨f.nanCode, flInvalid⟩)
  else if y.code > f.maxCode then
    let toward := mode == 1 || (mode == 3 && !x.neg) || (mode == 2 && x.neg)
    ⟨if sat || toward then f.largest x.neg else f.infinity x.neg, flOverflow ||| flInexact⟩
  else
    ⟨y.code + f.signBit x.neg,
      (if y.inexact then flInexact else 0) ||| (if y.inexact && y.tiny then flUnderflow else 0)⟩

/-- A conversion of ±infinity (R226). -/
def ofInf (f : KFmt) (sat neg : Bool) : Fl :=
  if neg ∧ !f.signed then (if sat then ⟨0, flInexact⟩ else ⟨f.nanCode, flInvalid⟩)
  else if sat then ⟨f.largest neg, flInexact⟩
  else ⟨f.infinity neg, if f.inf then 0 else flInvalid⟩

end KFmt

/-- QPACK's conversion of an FP32 code as read (R226, R240). -/
def KFmt.ofFp32 (f : KFmt) (mode r : Nat) (sat : Bool) (x : Nat) : Fl :=
  if fp32.isNan x then ⟨f.nanCode, if fp32.isSnan x then flInvalid else 0⟩
  else if fp32.isInf x then f.ofInf sat (fp32.neg x)
  else f.ofDy mode r sat (fp32.val x)

/-- QUNPK's exact conversion to FP32 (R241). -/
def KFmt.toFp32 (f : KFmt) (code : Nat) : Nat :=
  match f.val code with
  | .nan => fp32.nanCode
  | .inf neg => fp32.infCode neg
  | .fin x => if x.isZero then 0 else (fp32.roundTo 0 0 x).code

end Sys2Proof.Machine
end

