-- ==== Sys2Proof/Machine/Functions.lean ====
section
/-! DEFINITION. The special functions of R237, each the exact value of its function rounded once: roots and reciprocals by
integer arithmetic, the transcendental ones by series in fixed point. No FP32 argument's value stands so near a rounding
boundary that the series could not tell its side (entry 14). -/

namespace Sys2Proof.Machine

/-- The greatest r below 2^k with r * r at most n, from r on, bit by bit. -/
def isqrtGo : Nat → Nat → Nat → Nat
  | 0, _, r => r
  | k + 1, n, r => isqrtGo k n (if (r + 2 ^ k) * (r + 2 ^ k) ≤ n then r + 2 ^ k else r)

/-- The integer square root of a number below 2^256. -/
def isqrt (n : Nat) : Nat := isqrtGo 128 n 0

/-- A positive value with an even exponent. -/
def Dy.even (x : Dy) : Nat × Int := if x.exp % 2 = 0 then (x.mag, x.exp) else (2 * x.mag, x.exp - 1)

/-- 1/x of a nonzero FP32 value. -/
def recip (x : Dy) : Dy := Dy.from' x.neg (2 ^ 80 / x.mag) (-x.exp - 80) (2 ^ 80 % x.mag == 0)

/-- The square root of a positive FP32 value. -/
def root (x : Dy) : Dy :=
  let e := x.even
  let n := e.1 * 2 ^ 128
  let r := isqrt n
  Dy.from' false r (e.2 / 2 - 64) (r * r == n)

/-- 1/√x of a positive FP32 value. -/
def recipRoot (x : Dy) : Dy :=
  let e := x.even
  let r := isqrt (2 ^ 160 / e.1)
  Dy.from' false r (-(e.2 / 2) - 80) (r * r * e.1 == 2 ^ 160)

/-- The sum of z^(2k+1)/(2k+1) from k on, with `t` = z^(2k+1) and `zz` = z² in fixed point of f fractional bits; signs alternate
where `alt`. -/
def oddSeries (f : Nat) (alt : Bool) (zz : Nat) : Nat → Nat → Nat → Int
  | 0, _, _ => 0
  | n + 1, k, t =>
    let rest := oddSeries f alt zz n (k + 1) (t * zz / 2 ^ f)
    ((t / (2 * k + 1) : Nat) : Int) + (if alt then -rest else rest)

/-- atanh z of a fixed-point z, at most 1/3. -/
def atanhFix (f z : Nat) : Nat := (oddSeries f false (z * z / 2 ^ f) 100 0 z).toNat

/-- ln 2 = 2 atanh (1/3) with 288 fractional bits. -/
def ln2Fix : Nat := 2 * atanhFix 288 (2 ^ 288 / 3)

/-- The sum of x^k/k! from k on, with `t` = x^k/k!, in 288 fractional bits. -/
def expSeries (x : Nat) : Nat → Nat → Nat → Nat
  | 0, _, _ => 0
  | n + 1, k, t => t + expSeries x n (k + 1) (t * x / (2 ^ 288 * (k + 1)))

/-- 2^a of a nonzero FP32 value; beyond ±1024 every format's range is passed. -/
def exp2 (a : Dy) : Dy :=
  if a.lead ≥ 10 then ⟨false, 1, if a.neg then -2000 else 2000⟩
  else
    let x := a.at (-288)
    let n := x / (2 ^ 288 : Nat)
    let frac := (x % (2 ^ 288 : Nat)).toNat
    if frac = 0 then ⟨false, 1, n⟩
    else Dy.between false (expSeries (frac * ln2Fix / 2 ^ 288) 80 0 (2 ^ 288) / 2 ^ 32) (n - 256)

/-- log2 of a positive FP32 value other than 1; exact for a power of two. -/
def log2 (x : Dy) : Dy :=
  let k := Nat.log2 x.mag
  let e := x.lead
  if x.mag = 2 ^ k then Dy.ofInt e 0
  else
    let m := x.mag * 2 ^ 288 / 2 ^ k
    let z := (m - 2 ^ 288) * 2 ^ 288 / (m + 2 ^ 288)
    let l : Nat := 2 * atanhFix 288 z * 2 ^ 288 / ln2Fix
    let t : Int := e * (2 ^ 288 : Nat) + (l : Int)
    Dy.between (decide (t < 0)) (t.natAbs / 2 ^ 32) (-256)

/-- π/2 = 8 atan (1/5) − 2 atan (1/239), with 480 fractional bits. -/
def halfPiFix : Nat :=
  let f := 512
  let atan := fun (n : Nat) => oddSeries f true (2 ^ f / (n * n)) 112 0 (2 ^ f / n)
  (8 * atan 5 - 2 * atan 239).toNat / 2 ^ 32

/-- The alternating sum of x^k/k! over every second k from k on, with `t` = x^k/k! and `xx` = x², in 480 fractional bits. -/
def trigSeries (xx : Nat) : Nat → Nat → Nat → Int
  | 0, _, _ => 0
  | n + 1, k, t => (t : Int) - trigSeries xx n (k + 2) (t * xx / (2 ^ 480 * ((k + 1) * (k + 2))))

/-- sin (or cos) of a nonzero FP32 value in radians: the argument is reduced by π/2 exactly. -/
def trig (cos : Bool) (x : Dy) : Dy :=
  if x.lead < -60 then
    if cos then Dy.between false (2 ^ 100 - 1) (-100) else Dy.between x.neg (x.mag * 2 ^ 200 - 1) (x.exp - 200)
  else
    let a := x.mag * 2 ^ (x.exp + 480).toNat
    let q := a / halfPiFix
    let r := a % halfPiFix
    let rr := r * r / 2 ^ 480
    let useCos := xor cos (q % 2 == 1)
    let v := if useCos then trigSeries rr 60 0 (2 ^ 480) else trigSeries rr 60 1 r
    let flip := if cos then q % 4 == 1 || q % 4 == 2 else xor x.neg (decide (q % 4 ≥ 2))
    Dy.between flip (v.natAbs / 2 ^ 96) (-384)

/-! ### The entries -/

/-- A special function's result where R237's table names one: zeros, infinities, values below −0. -/
structure SpecialCases where
  zero : Bool → Fl
  inf : Bool → Fl
  /-- a nonzero finite value below zero has no result -/
  noNegative : Bool
  fn : Dy → Dy

/-- A special function of an FP32 code (R237). -/
def SpecialCases.apply (f : SpecialCases) (fpm : BitVec 4) (mode x : Nat) : Fl :=
  let x := fp32.read fpm x
  match fp32.nanOf [x] with
  | some r => r
  | none =>
    if fp32.isZero x then f.zero (fp32.neg x)
    else if f.noNegative && fp32.neg x then ⟨fp32.nanCode, flInvalid⟩
    else if fp32.isInf x then f.inf (fp32.neg x)
    else
      let v := f.fn (fp32.val x)
      if v.isZero then ⟨0, 0⟩ else fp32.roundTo fpm mode v

def invalidNan : Fl := ⟨fp32.nanCode, flInvalid⟩

def rcpCases : SpecialCases :=
  { zero := fun n => ⟨fp32.infCode n, flDivzero⟩, inf := fun n => ⟨fp32.zeroCode n, 0⟩, noNegative := false, fn := recip }

def sqrtCases : SpecialCases :=
  { zero := fun n => ⟨fp32.zeroCode n, 0⟩, inf := fun n => ⟨fp32.infCode n, 0⟩, noNegative := true, fn := root }

def rsqCases : SpecialCases :=
  { zero := fun n => ⟨fp32.infCode n, flDivzero⟩, inf := fun _ => ⟨0, 0⟩, noNegative := true, fn := recipRoot }

def ex2Cases : SpecialCases :=
  { zero := fun _ => ⟨0x3F800000, 0⟩, inf := fun n => ⟨if n then 0 else fp32.infCode false, 0⟩, noNegative := false, fn := exp2 }

def lg2Cases : SpecialCases :=
  { zero := fun _ => ⟨fp32.infCode true, flDivzero⟩, inf := fun n => ⟨fp32.infCode n, 0⟩, noNegative := true, fn := log2 }

def sinCases : SpecialCases :=
  { zero := fun n => ⟨fp32.zeroCode n, 0⟩, inf := fun _ => invalidNan, noNegative := false, fn := trig false }

def cosCases : SpecialCases :=
  { zero := fun _ => ⟨0x3F800000, 0⟩, inf := fun _ => invalidNan, noNegative := false, fn := trig true }

end Sys2Proof.Machine
end

