-- ==== Sys2Proof/Machine/Float.lean ====
section
/-! DEFINITION. Floating-point and conversion instructions (R227-R244). -/

namespace Sys2Proof.Machine

/-! ### Entry shapes (R227-R230) -/

def tagF32 : Nat := 0x10
def tagF64 : Nat := 0x11

def Ieee.tag (f : Ieee) : Nat := if f = fp64 then 0x11 else if f = fp16 then 0x12 else if f = bf16 then 0x13 else 0x10

/-- A scalar floating-point source: an immediate specifier is the integer's value, the 24-bit immediate the top of an FP32 one
(R29, R49). -/
def fpSrc (f : Ieee) : Src :=
  .use { wide := f = fp64, tags := tagIs f.tag, conv := fun i => (f.ofInt 0 0 i).code, imm := fun x => x.toNat * 256,
         qPair := true }

/-- A packed half-precision source: an immediate specifier stands in both elements (entry 13). -/
def packSrc (f : Ieee) : Src :=
  .use { wide := false, tags := tagIs f.tag, conv := fun i => (f.ofInt 0 0 i).code * 0x10001, imm := fun x => x.toNat }

/-- A 64-bit integer source of a conversion, v, q or s pair (R227). -/
def fpInt64 (tags : Nat → Bool) : Src := .use { intUse true tags with qPair := true }

/-- A lane's result with its flags. -/
def flOut (tag : Nat) (r : Fl) : LaneOut := { val := r.code, tag := tag, flags := r.flags }

/-- An entry of one format with one to three sources of it. -/
def fpEntry (f : Ieee) (mods n : Nat) (fn : BitVec 4 → Nat → Nat → Nat → Fl) : AluEntry :=
  { mods := mods, dst := .reg (f = fp64) false, a := fpSrc f, b := if n ≥ 2 then fpSrc f else .unused,
    c := if n ≥ 3 then fpSrc f else .unused, fn := fun g _ a b c => flOut f.tag (fn g.c.fpmode a.val b.val c.val) }

/-- The modifiers in force: the literal form uses MOD = 0, as the immediate form does, and what its word's MOD bits hold selects nothing
(R230; entry 34). -/
def floatMod (w : StdWord) : Nat :=
  match w.srcB with
  | .lit _ _ => 0
  | _ => w.m

/-! ### Arithmetic (R231, R232) -/

/-- a + b. -/
def addEntry (f : Ieee) (m : Nat) (sub : Bool) : AluEntry :=
  fpEntry f 7 2 fun fpm a b _ => f.add fpm (m % 4) (bitOf m 2) sub a b

def mulEntry (f : Ieee) (m : Nat) : AluEntry := fpEntry f 7 2 fun fpm a b _ => f.mul fpm (m % 4) (bitOf m 2) a b

def fmaEntry (f : Ieee) (m : Nat) : AluEntry :=
  fpEntry f 15 3 fun fpm a b c => f.fma fpm (m % 4) (bitOf m 2) (bitOf m 3) a b c

/-- FADD: a + b (R231). -/
def execFadd (w : StdWord) : State → Host.Outcome State Fault Refusal := aluWord 0x080 w (addEntry fp32 (floatMod w) false)

/-- FSUB: a − b (R231). -/
def execFsub (w : StdWord) : State → Host.Outcome State Fault Refusal := aluWord 0x081 w (addEntry fp32 (floatMod w) true)

/-- FMUL: a × b (R231). -/
def execFmul (w : StdWord) : State → Host.Outcome State Fault Refusal := aluWord 0x082 w (mulEntry fp32 (floatMod w))

/-- FFMA: a × b + c, fused (R231). -/
def execFfma (w : StdWord) : State → Host.Outcome State Fault Refusal := aluWord 0x083 w (fmaEntry fp32 (floatMod w))

/-- DADD: a + b in FP64 (R231). -/
def execDadd (w : StdWord) : State → Host.Outcome State Fault Refusal := aluWord 0x0A0 w (addEntry fp64 (floatMod w) false)

/-- DMUL: a × b in FP64 (R231). -/
def execDmul (w : StdWord) : State → Host.Outcome State Fault Refusal := aluWord 0x0A1 w (mulEntry fp64 (floatMod w))

/-- DFMA: a × b + c in FP64, fused (R231). -/
def execDfma (w : StdWord) : State → Host.Outcome State Fault Refusal := aluWord 0x0A2 w (fmaEntry fp64 (floatMod w))

/-- The entry of FMIN and FMAX (R232). -/
def minMaxEntry (max' : Bool) (m : Nat) : AluEntry :=
  fpEntry fp32 1 2 fun fpm a b _ => fp32.minMax fpm max' (bitOf m 0) a b

/-- FMIN (R232). -/
def execFmin (w : StdWord) : State → Host.Outcome State Fault Refusal := aluWord 0x084 w (minMaxEntry false (floatMod w))

/-- FMAX (R232). -/
def execFmax (w : StdWord) : State → Host.Outcome State Fault Refusal := aluWord 0x085 w (minMaxEntry true (floatMod w))

/-! ### Comparison and classification (R233, R234) -/

/-- The entry of FCMP and DCMP: DST names the predicate and the comparison (R233). -/
def fcmpEntry (f : Ieee) (w : StdWord) : AluEntry :=
  { mods := 3, reserved := bitsOf w.dst.toNat 6 3 ≥ 14 || bitsOf w.dst.toNat 8 7 != 0 || combineBad (floatMod w) w.srcC,
    dst := .field, a := fpSrc f, b := fpSrc f, c := .field,
    fn := fun g x a b _ =>
      let r := f.cmp g.c.fpmode (bitsOf w.dst.toNat 6 3) a.val b.val
      let p := (g.u.lane x.1 x.2).srcPred w.srcC
      { flags := r.2, lane := fun ln => ln.setP (w.dst.toNat % 8) (combinePred ((floatMod w) % 4) r.1 p) } }

/-- FCMP (R233). -/
def execFcmp (w : StdWord) : State → Host.Outcome State Fault Refusal := aluWord 0x086 w (fcmpEntry fp32 w)

/-- DCMP (R233). -/
def execDcmp (w : StdWord) : State → Host.Outcome State Fault Refusal := aluWord 0x0A3 w (fcmpEntry fp64 w)

/-- The format MOD[2] selects (R234, R235). -/
def wideFormat (m : Nat) : Ieee := if bitOf m 2 then fp64 else fp32

/-- The entry of FCLASS. -/
def fclassEntry (w : StdWord) : AluEntry :=
  { mods := 4, a := fpSrc (wideFormat w.m), fn := fun _ _ a _ _ => { val := (wideFormat w.m).classMask a.val, tag := tagN32 } }

/-- FCLASS (R234). -/
def execFclass (w : StdWord) : State → Host.Outcome State Fault Refusal := aluWord 0x087 w (fclassEntry w)

/-! ### Rounding and scaling (R235) -/

/-- The entry of FRND. -/
def frndEntry (w : StdWord) : AluEntry :=
  fpEntry (wideFormat w.m) 7 1 fun fpm a _ _ => (wideFormat w.m).toIntegral fpm (w.m % 4) a

/-- FRND (R235). -/
def execFrnd (w : StdWord) : State → Host.Outcome State Fault Refusal := aluWord 0x088 w (frndEntry w)

/-- The entry of FSCALE. -/
def fscaleEntry (w : StdWord) : AluEntry :=
  let f := wideFormat (floatMod w)
  { mods := 7, dst := .reg (f = fp64) false, a := fpSrc f, b := src32 intTags,
    fn := fun g _ a b _ => flOut f.tag (f.scale g.c.fpmode ((floatMod w) % 4) a.val (s32 b.val)) }

/-- FSCALE: a × 2^S(b) (R235). -/
def execFscale (w : StdWord) : State → Host.Outcome State Fault Refusal := aluWord 0x08A w (fscaleEntry w)

/-! ### Conversion (R236) -/

/-- What a code of FCVT stands for. -/
inductive CvtFormat where
  | int (signed : Bool)
  | scalar (f : Ieee)
  | packed (f : Ieee)
  deriving DecidableEq, Repr, Inhabited

def cvtFormat (code : Nat) : Option CvtFormat :=
  match code with
  | 0x01 => some (.int true)
  | 0x02 => some (.int false)
  | 0x10 => some (.scalar fp32)
  | 0x11 => some (.scalar fp64)
  | 0x12 => some (.packed fp16)
  | 0x13 => some (.packed bf16)
  | _ => none

def isCvtInt (f : Option CvtFormat) : Bool := match f with | some (.int _) => true | _ => false
def isCvtPacked (f : Option CvtFormat) : Bool := match f with | some (.packed _) => true | _ => false
def isCvtScalar (f : Option CvtFormat) : Bool := f.isSome && !isCvtPacked f

/-- Whether an operand of a code is a pair. -/
def cvtWide (f : Option CvtFormat) (l : Bool) : Bool :=
  match f with
  | some (.int _) => l
  | some (.scalar f) => f = fp64
  | _ => false

/-- One element converted: `n` is the integer's width. -/
def cvtElement (src dst : CvtFormat) (fpm : BitVec 4) (mode n x : Nat) : Fl :=
  match src, dst with
  | .int signed, .scalar f => f.ofInt fpm mode (if signed then sext x n else (x : Int))
  | .int signed, .packed f => f.ofInt fpm mode (if signed then sext x n else (x : Int))
  | .scalar f, .int signed => f.toInt fpm mode n signed x
  | .packed f, .int signed => f.toInt fpm mode n signed x
  | .scalar f, .scalar g => f.convert g fpm mode x
  | .scalar f, .packed g => f.convert g fpm mode x
  | .packed f, .scalar g => f.convert g fpm mode x
  | .packed f, .packed g => f.convert g fpm mode x
  | .int _, .int _ => ⟨0, 0⟩

/-- Element k of a packed pair of halves. -/
def half (x k : Nat) : Nat := x / 2 ^ (16 * k) % 2 ^ 16

/-- Two halves put together. -/
def Fl.pair (lo hi : Fl) : Fl := ⟨lo.code + hi.code * 2 ^ 16, lo.flags ||| hi.flags⟩

/-- The elements R236 selects, converted. -/
def cvtValue (src dst : CvtFormat) (fpm : BitVec 4) (m x : Nat) : Fl :=
  let k := if bitOf m 4 then 1 else 0
  let cv := cvtElement src dst fpm (m % 4) (if bitOf m 5 then 64 else 32)
  match src, dst with
  | .packed _, .packed _ => Fl.pair (cv (half x 0)) (cv (half x 1))
  | .packed _, _ => cv (half x k)
  | _, .packed _ => let r := cv x; ⟨r.code * 2 ^ (16 * k), r.flags⟩
  | _, _ => cv x

/-- The source of a conversion. -/
def cvtSrc (f : Option CvtFormat) (code : Nat) (l : Bool) : Src :=
  match f with
  | some (.scalar f) => fpSrc f
  | some (.packed f) => packSrc f
  | _ => if l then fpInt64 (tagIs code) else src32 (tagIs code)

/-- The entry of FCVT. -/
def fcvtEntry (w : StdWord) : AluEntry :=
  let dcode := specB w % 256
  let scode := w.srcC.toNat % 256
  let src := cvtFormat scode
  let dst := cvtFormat dcode
  let l := bitOf w.m 5
  let hiBad := bitOf w.m 4 && ((isCvtScalar src && isCvtScalar dst) || (isCvtPacked src && isCvtPacked dst))
  { mods := 0x33
    reserved := specB w ≥ 256 || w.srcC.toNat ≥ 256 || (l && !isCvtInt src && !isCvtInt dst) || hiBad
    illegal := src.isNone || dst.isNone || (isCvtInt src && isCvtInt dst)
    dst := .reg (cvtWide dst l) false, a := cvtSrc src scode l, b := .field, c := .field
    fn := fun g _ a _ _ =>
      match src, dst with
      | some s, some d => flOut dcode (cvtValue s d g.c.fpmode w.m a.val)
      | _, _ => {} }

/-- FCVT (R236). -/
def execFcvt (w : StdWord) : State → Host.Outcome State Fault Refusal := aluWord 0x089 w (fcvtEntry w)

/-! ### Special functions (R237) -/

def specialEntry (f : SpecialCases) (m : Nat) : AluEntry := fpEntry fp32 3 1 fun fpm a _ _ => f.apply fpm (m % 4) a

/-- FRCP: 1/a. -/
def execFrcp (w : StdWord) : State → Host.Outcome State Fault Refusal := aluWord 0x090 w (specialEntry rcpCases w.m)

/-- FSQRT: √a. -/
def execFsqrt (w : StdWord) : State → Host.Outcome State Fault Refusal := aluWord 0x091 w (specialEntry sqrtCases w.m)

/-- FRSQ: 1/√a. -/
def execFrsq (w : StdWord) : State → Host.Outcome State Fault Refusal := aluWord 0x092 w (specialEntry rsqCases w.m)

/-- FEX2: 2^a. -/
def execFex2 (w : StdWord) : State → Host.Outcome State Fault Refusal := aluWord 0x093 w (specialEntry ex2Cases w.m)

/-- FLG2: log2 a. -/
def execFlg2 (w : StdWord) : State → Host.Outcome State Fault Refusal := aluWord 0x094 w (specialEntry lg2Cases w.m)

/-- FSIN: sin a. -/
def execFsin (w : StdWord) : State → Host.Outcome State Fault Refusal := aluWord 0x095 w (specialEntry sinCases w.m)

/-- FCOS: cos a. -/
def execFcos (w : StdWord) : State → Host.Outcome State Fault Refusal := aluWord 0x096 w (specialEntry cosCases w.m)

/-! ### Packed half precision (R238) -/

def halfFormat (m : Nat) : Ieee := if bitOf m 0 then bf16 else fp16

/-- An entry on both elements. -/
def packEntry (f : Ieee) (n : Nat) (fn : BitVec 4 → Nat → Nat → Nat → Fl) : AluEntry :=
  { mods := 7, a := packSrc f, b := packSrc f, c := if n ≥ 3 then packSrc f else .unused,
    fn := fun g _ a b c =>
      let el := fun k => fn g.c.fpmode (half a.val k) (half b.val k) (half c.val k)
      flOut f.tag (Fl.pair (el 0) (el 1)) }

def hadd2Entry (m : Nat) : AluEntry :=
  let f := halfFormat m
  packEntry f 2 fun fpm a b _ => f.add fpm (m / 2 % 4) false false a b

def hmul2Entry (m : Nat) : AluEntry :=
  let f := halfFormat m
  packEntry f 2 fun fpm a b _ => f.mul fpm (m / 2 % 4) false a b

/-- HADD2 (R238). -/
def execHadd2 (w : StdWord) : State → Host.Outcome State Fault Refusal := aluWord 0x0B0 w (hadd2Entry w.m)

/-- HMUL2 (R238). -/
def execHmul2 (w : StdWord) : State → Host.Outcome State Fault Refusal := aluWord 0x0B1 w (hmul2Entry w.m)

/-- The entry of HFMA2. -/
def hfma2Entry (w : StdWord) : AluEntry :=
  let f := halfFormat w.m
  packEntry f 3 fun fpm a b c => f.fma fpm (w.m / 2 % 4) false false a b c

/-- HFMA2 (R238). -/
def execHfma2 (w : StdWord) : State → Host.Outcome State Fault Refusal := aluWord 0x0B2 w (hfma2Entry w)

/-! ### Dot products (R239) -/

/-- Element k of a register of bytes. -/
def byteOf (x k : Nat) : Nat := x / 2 ^ (8 * k) % 256

/-- The sum of DOT4.i. -/
def dotInt (m : Nat) (a b : Nat) (c : Operand) : Nat :=
  let el := fun (unsigned : Bool) (x k : Nat) => if unsigned then (byteOf x k : Int) else sext (byteOf x k) 8
  let cv : Int := if bitOf m 3 && c.tag == tagN32 then (c.val : Int) else s32 c.val
  let sum := ([0, 1, 2, 3].map fun k => el (bitOf m 1) a k * el (bitOf m 2) b k).foldl (· + ·) cv
  wrapTo 32 (if bitOf m 3 then clampInt (-0x80000000) 0x7FFFFFFF sum else sum)

/-- A product of two elements: NaN, an infinity, or a value. -/
inductive Product where
  | nan
  | invalid
  | inf (neg : Bool)
  | fin (x : Dy)
  deriving DecidableEq, Repr, Inhabited

def KVal.mul : KVal → KVal → Product
  | .nan, _ => .nan
  | _, .nan => .nan
  | .inf s, .inf t => .inf (xor s t)
  | .inf s, .fin x => if x.isZero then .invalid else .inf (xor s x.neg)
  | .fin x, .inf t => if x.isZero then .invalid else .inf (xor x.neg t)
  | .fin x, .fin y => .fin (x.mul y)

/-- The format of a binary8 operand; raw reads as b8p4sx (R239). -/
def dotFormat (tag : Nat) : KFmt := (kfmtOf (if tag = 0 then 0x4C else tag)).getD ⟨8, 4, true, true⟩

/-- The sign of an exact zero sum of the products: their common sign, else that of R229. -/
def zeroSign (mode : Nat) (xs : List Dy) : Bool :=
  if xs.all Dy.neg then true else if xs.all (!·.neg) then false else mode == 3

/-- DOT4.f (R239). -/
def dotFloat (fpm : BitVec 4) (m : Nat) (a b : Operand) (c : Nat) : Fl :=
  let mode := m / 2 % 4
  let c := fp32.read fpm c
  let ps := [0, 1, 2, 3].map fun k => ((dotFormat a.tag).val (byteOf a.val k)).mul ((dotFormat b.tag).val (byteOf b.val k))
  let infs := (ps.filterMap fun p => match p with | .inf n => some n | _ => none) ++ (if fp32.isInf c then [fp32.neg c] else [])
  let opposite := infs.contains true && infs.contains false
  let invalid := ps.contains .invalid || opposite || fp32.isSnan c
  let fl := if invalid then flInvalid else 0
  if ps.contains .nan then ⟨fp32.nanCode, fl⟩
  else if fp32.isNan c then ⟨fp32.quiet c, fl⟩
  else if invalid then ⟨fp32.nanCode, fl⟩
  else match infs with
    | n :: _ => ⟨fp32.infCode n, 0⟩
    | [] =>
      let xs := ps.filterMap fun p => match p with | .fin x => some x | _ => none
      let p := xs.foldl Dy.add ⟨false, 0, 0⟩
      let sum := p.add (fp32.val c)
      if sum.isZero then ⟨fp32.zeroCode (zeroSumSign mode (if p.isZero then zeroSign mode xs else p.neg) (fp32.neg c)), 0⟩
      else fp32.roundTo fpm mode sum

/-- The tags of a binary8 format. -/
def b8Tags (t : Nat) : Bool := decide (0x40 ≤ t ∧ t ≤ 0x5B)

/-- The entry of DOT4. -/
def dot4Entry (w : StdWord) : AluEntry :=
  if bitOf w.m 0 then
    { mods := 7, a := src32 b8Tags, b := src32 b8Tags, c := fpSrc fp32,
      fn := fun g _ a b c => flOut tagF32 (dotFloat g.c.fpmode w.m a b c.val) }
  else
    let s := src32 fun t => t == 5 || t == 6
    { mods := 15, a := s, b := s, c := src32 intTags,
      fn := fun _ _ a b c => { val := dotInt w.m a.val b.val c, tag := tagI32 } }

/-- DOT4 (R239). -/
def execDot4 (w : StdWord) : State → Host.Outcome State Fault Refusal := aluWord 0x0B3 w (dot4Entry w)

/-! ### Random words (R242) -/

/-- Mix(K, C). -/
def mixWord (key counter : DWord) : Nat :=
  let round := fun (x : DWord) (i : Nat) =>
    let x := x + (key ^^^ (0x6A09E667F3BCC909 * BitVec.ofNat 64 (i + 1)))
    let x := x ^^^ (x >>> 29)
    let x := x * 0xBF58476D1CE4E5B9
    x ^^^ (x >>> 32)
  let x := [0, 1, 2, 3].foldl round counter
  ((x >>> 32) ^^^ x).toNat % 2 ^ 32

/-- The lane's global id; of an event, 2^63 plus its 48-bit ID, which leaves DOMAIN out. -/
def Gang.globalId (g : Gang) (x : Nat × Nat) : DWord :=
  let ln := g.u.lane x.1 x.2
  match g.l.kind with
  | 2 => 0x8000000000000000 + (ln.evid &&& 0xFFFFFFFFFFFF)
  | 3 => 0x4000000000000000 + BitVec.ofNat 64 ln.taskNo
  | _ => BitVec.ofNat 64 (g.u.unitId * 1024 + g.ref.home * 32 + g.u.gangLane x.1 x.2)

/-- The lane's key. -/
def Gang.laneKey (g : Gang) (x : Nat × Nat) : DWord := g.l.seed ^^^ g.globalId x

/-- The word a lane draws k words from now. -/
def Gang.draw (g : Gang) (x : Nat × Nat) (k : Nat) : Nat :=
  mixWord (g.laneKey x) ((g.u.lane x.1 x.2).rngctr + BitVec.ofNat 64 k)

/-- n words are drawn: whether the counter wraps. -/
def wrapFlag (ln : Lane) (n : Nat) : Nat := if ln.rngctr.toNat + n ≥ 2 ^ 64 then flRng else 0

/-- Advance a lane's counter by n draws. -/
def Lane.drawn (n : Nat) (ln : Lane) : Lane := { ln with rngctr := ln.rngctr + BitVec.ofNat 64 n }

/-! ### Quantisation (R240, R241) -/

/-- Put an element of k bits at place e of a register. -/
def putElement (k e x code : Nat) : Nat := x - x / 2 ^ (k * e) % 2 ^ k * 2 ^ (k * e) + code * 2 ^ (k * e)

/-- The entry of QPACK. -/
def qpackEntry (w : StdWord) : AluEntry :=
  let code := specB w % 256
  let fmt := kfmtOf code
  let f := fmt.getD ⟨8, 4, true, true⟩
  let mode := w.m % 8
  let e := w.m / 8
  { mods := 63, reserved := mode ≥ 5 || (fmt.isSome && f.k == 8 && e ≥ 4), illegal := fmt.isNone,
    a := fpSrc fp32, b := .field, c := src32 (tagIs code),
    fn := fun g x a _ c =>
      let r := f.ofFp32 mode (g.draw x 0) (specB w ≥ 256) (fp32.read g.c.fpmode a.val)
      let n := if mode = 4 then 1 else 0
      { val := putElement f.k e c.val r.code, tag := code, flags := r.flags ||| wrapFlag (g.u.lane x.1 x.2) n,
        lane := Lane.drawn n } }

/-- QPACK (R240). -/
def execQpack (w : StdWord) : State → Host.Outcome State Fault Refusal := aluWord 0x0C0 w (qpackEntry w)

/-- The entry of QUNPK. -/
def qunpkEntry (w : StdWord) : AluEntry :=
  let code := specB w % 256
  let fmt := kfmtOf code
  let f := fmt.getD ⟨8, 4, true, true⟩
  let e := w.m % 8
  { mods := 7, reserved := specB w ≥ 256 || (fmt.isSome && f.k == 8 && e ≥ 4), illegal := fmt.isNone,
    a := src32 (tagIs code), b := .field,
    fn := fun _ _ a _ _ => { val := f.toFp32 (a.val / 2 ^ (f.k * e) % 2 ^ f.k), tag := tagF32 } }

/-- QUNPK (R241). -/
def execQunpk (w : StdWord) : State → Host.Outcome State Fault Refusal := aluWord 0x0C1 w (qunpkEntry w)

/-- A word as FP32 in [0, 1): Bits(r, 31, 8) × 2^-24, exactly (R243). -/
def unitFloat (r : Nat) : Nat := if r / 256 = 0 then 0 else (fp32.roundTo 0 0 ⟨false, r / 256, -24⟩).code

/-- The entry of RAND. -/
def randEntry (w : StdWord) (g : Gang) : AluEntry :=
  let n := w.m / 2 % 4 + 1
  let d := w.dst.toNat
  { mods := 7, illegal := !(vRunOk g.head.regs d n 1 || qRunOk d n 1), dst := .field,
    fn := fun g x _ _ _ =>
      let put := fun (ln : Lane) (k : Nat) =>
        let r := g.draw x k
        ln.putSpec (d + k) (if bitOf w.m 0 then ⟨BitVec.ofNat 32 (unitFloat r), 0x10⟩ else ⟨BitVec.ofNat 32 r, 2⟩)
      { flags := wrapFlag (g.u.lane x.1 x.2) n, lane := fun ln => (List.range n).foldl put (ln.drawn n),
        heal := (List.range n).map (d + ·) } }

/-- RAND (R243). -/
def execRand (w : StdWord) : State → Host.Outcome State Fault Refusal := aluWordIn 0x0C2 w (randEntry w)

/-! ### Sticky flags (R244) -/

/-- The flag bits of a word. -/
def flagMask (x : Nat) : Nat := x &&& 0x9F

/-- FSTAT reads the flags and clears them, wholly or by a mask (R244). -/
def fstatEntry (w : StdWord) : AluEntry :=
  let mode := w.m % 4
  { mods := 3, reserved := mode == 3, a := if mode = 2 then src32 anyTag else .unused,
    fn := fun g x a _ _ =>
      let f := (g.u.lane x.1 x.2).flags
      let clear := if mode = 1 then 0xFF else if mode = 2 then flagMask a.val else 0
      { val := flagMask f.toNat, tag := tagN32, lane := fun ln => { ln with flags := ln.flags &&& ~~~(BitVec.ofNat 8 clear) } } }

/-- FSTAT: it waits until every earlier word of the gang has written its result (R244). -/
def execFstat (w : StdWord) (s : State) : Host.Outcome State Fault Refusal :=
  match s.gang with
  | none => .next s
  | some g =>
    let e := fstatEntry w
    let lanes := g.executing w.c
    if !lanes.isEmpty && (g.aluTrap s 0x0C3 1 lanes [e.op w] (e.reserved || e.modBad w) false).isNone &&
        g.awaiting then .next (s.holdWord g)
    else aluWord 0x0C3 w e s

end Sys2Proof.Machine
end

