-- ==== Sys2Proof/Machine/Wake.lean ====
section
/-! DEFINITION. Command queues as the wake region sees them: wake cells (R93-R95), queue faults and their record (R98). -/

namespace Sys2Proof.Machine

/-- A queue of a die. -/
def State.queue? (s : State) (die q : Nat) : Option Queue := (s.die die).queues.find? (·.num == q)

def State.modifyQueue (s : State) (die q : Nat) (f : Queue → Queue) : State :=
  s.modifyDie die fun d => { d with queues := d.queues.map fun x => if x.num = q then f x else x }

/-- Eight-byte words as bytes. -/
def wordsBytes (ws : List DWord) : List Byte := ws.flatMap fun w => natLe 8 w.toNat

/-- A device write that does nothing where it faults. -/
def State.tryWrite (s : State) (ctx : Nat) (va : DWord) (bs : List Byte) : State :=
  match s.deviceWrite ctx va.toNat bs with
  | .ok s' => s'
  | .error _ => s

/-- A queue fault (R98): the record is written and the queue stops, except queue 0 (R455). -/
def State.queueFault (s : State) (die q code : Nat) (index : DWord) (chip : Nat) : State :=
  match s.queue? die q with
  | none => s
  | some x =>
    let s := if q = 0 then s else s.modifyQueue die q fun x => { x with stopped := true }
    s.tryWrite x.ctx x.faultrec (wordsBytes [BitVec.ofNat 64 code, index, BitVec.ofNat 64 chip, 0, 0, 0, 0, 0])

/-- A tail store that reaches its queue's cell (R94). -/
def State.tailStore (s : State) (die q : Nat) (v : DWord) : State :=
  match (if q < 4095 then s.queue? die q else none) with
  | none => s.modifyDie die fun d => { d with strayWakes := d.strayWakes + 1 }
  | some x =>
    let tail := if x.tail < v then v else x.tail
    let s := (s.modifyQueue die q fun x => { x with tail := tail }).signal die 0
    if !x.stopped ∧ x.rd.toNat + 2 ^ x.logsz < tail.toNat then s.queueFault die q 0x10 x.rd 0 else s

/-- Where an address of the wake region points: chip, die, queue, offset, and whether no other bit is set (R93). -/
structure WakePlace where
  chip : Nat
  die : Nat
  queue : Nat
  offset : Nat
  clean : Bool
  deriving DecidableEq, Repr, Inhabited

def wakePlace (pa : Nat) : WakePlace :=
  let loc := fabLocal pa
  let die := bitsOf loc 25 24
  let q := bitsOf loc 17 6
  let o := bitsOf loc 5 0
  { chip := fabChip pa, die := die, queue := q, offset := o,
    clean := loc == 0xFE0000000000 + die * 2 ^ 24 + q * 2 ^ 6 + o }

/-- The value an aligned 8-byte load of the wake region gives (R94); `free` stands for another chip's cell. Queue 4,095's cell, of which R94
states the store alone, reads as a queue that does not exist: 0 (DESIGN CHOICE, entry 35). -/
def State.wakeLoad (s : State) (pa : Nat) (free : DWord) : DWord :=
  let p := wakePlace pa
  if p.chip ≠ s.chip then free
  else if !p.clean then 0
  else match (if p.queue < 4095 then s.queue? p.die p.queue else none) with
    | none => 0
    | some x => if p.offset = 0 then x.tail else if p.offset = 8 then x.rd else 0

/-- An aligned 8-byte store to the wake region (R94); one to another chip leaves this package (R93). -/
def State.wakeStore (s : State) (pa : Nat) (v : DWord) : State :=
  let p := wakePlace pa
  if p.chip ≠ s.chip then s
  else if !p.clean then s.modifyDie p.die fun d => { d with strayWakes := d.strayWakes + 1 }
  else if (if p.queue < 4095 then s.queue? p.die p.queue else none).isNone ∨ p.offset = 0 then s.tailStore p.die p.queue v
  else s

/-- A device's 8-byte store at a virtual address: to a wake cell it is an aligned 8-byte access like any other (R92, R94, R446). -/
def State.deviceStore8 (s : State) (ctx va : Nat) (v : DWord) : Except Cause State :=
  match s.pieces ctx .write va 8 with
  | .error f => .error f.cause
  | .ok ps =>
    match ps with
    | [p] => if inWake p.leaf.pa ∧ va % 8 = 0 then .ok (s.wakeStore p.leaf.pa v) else s.deviceWrite ctx va (natLe 8 v.toNat)
    | _ => s.deviceWrite ctx va (natLe 8 v.toNat)

end Sys2Proof.Machine
end

