-- ==== Sys2Proof/Machine/Access.lean ====
section
/-! DEFINITION. What memory words share: addresses and data runs (R270, R271), the faults of a word (R273, R274), the bytes a
lane reads and writes on each page kind (R253, R400, R401), scratchpad accesses (R254), the requests to the controllers
(R257) and uncorrectable loads (R269). -/

namespace Sys2Proof.Machine

/-! ### Fields -/

/-- Bytes per lane and registers of the DATA run (R271). -/
def sizeBytes (size : Nat) : Nat := 2 ^ size
def sizeRun (size : Nat) : Nat := 2 ^ (size - 2)

/-- The ADDR specifier of a global or a scratch address (R270). -/
def addrOk (regs : Nat) (wide : Bool) (spec : Nat) : Bool :=
  let n := if wide then 2 else 1
  vRunOk regs spec n n || sRunOk spec n n

/-- A load's DATA: a v run (R276). -/
def loadRunOk (regs spec n : Nat) : Bool := vRunOk regs spec n n

/-- A store's DATA: a v or s run, a constant or an immediate (R271, R278). -/
def storeRunOk (regs spec n : Nat) : Bool :=
  isImmSpec spec || isConstSpec spec || vRunOk regs spec n n || sRunOk spec n n

/-- The registers of a run, by specifier. -/
def runRegs (spec n : Nat) : List Nat := if spec < 0x150 then (List.range n).map (spec + ·) else []

/-- A lane's value of a run of n registers, the first the lowest. -/
def Slice.runValue (sl : Slice) (j spec : Nat) : Nat → Nat
  | 0 => 0
  | n + 1 => (sl.getSpec j spec).val.toNat + 2 ^ 32 * sl.runValue j (spec + 1) n

/-- A store's value of n bytes: a constant or immediate is sign-extended, except as R29 states (R271). -/
def Slice.storeValue (sl : Slice) (j spec n : Nat) : Nat :=
  if isImmSpec spec then wrapTo (8 * n) (immSpec spec)
  else if isConstSpec spec then
    (if n = 8 then constant64 spec (4 * sl.idx + j) else wrapTo (8 * n) (sext (constant32 spec (4 * sl.idx + j)) 32))
  else sl.runValue j spec ((n + 3) / 4) % 2 ^ (8 * n)

/-- A lane's global virtual address (R270). -/
def Gang.laneVa (g : Gang) (w : MemWord) (x : Nat × Nat) : Nat :=
  wrapTo 64 (((g.u.slice x.1).runValue x.2 w.addr.toNat 2 : Nat) + sext w.ofs.toNat 16)

/-- A lane's scratch offset (R270). -/
def Gang.laneOffset (g : Gang) (w : MemWord) (x : Nat × Nat) : Int :=
  ((g.u.slice x.1).runValue x.2 w.addr.toNat 1 : Nat) + sext w.ofs.toNat 16

/-- The writes of a run of registers, tag raw (R271). -/
def runWrites (lane : Option Nat) (d val : Nat) : Nat → List RegWrite
  | 0 => []
  | n + 1 => ⟨lane, d, ⟨BitVec.ofNat 32 val, 0⟩⟩ :: runWrites lane (d + 1) (val / 2 ^ 32) n

/-! ### Faults of a word (R274) -/

/-- A lane's memory fault with what FLTRD reports of it (R417). -/
structure LaneFault where
  cause : Cause
  addr : Nat
  info : Word
  deriving DecidableEq, Repr, Inhabited

def AccessFault.lane (f : AccessFault) (write : Bool) : LaneFault := ⟨f.cause, f.va, accessInfo write false f.level⟩

/-- The trap of a word some of whose lanes fault: the cause R274 ranks first, in the lanes that raised it; of causes of one rank, the
lowest lane's. -/
def Gang.laneTrap (g : Gang) (dst : BitVec 9) (lanes : List (Nat × Nat)) (f : Nat × Nat → Option LaneFault) : Option Trap :=
  let fs := lanes.filterMap fun x => (f x).map fun e => (x, e)
  match listMin (fs.map fun e => memRank e.2.cause) with
  | none => none
  | some r =>
    let cause := ((fs.find? fun e => memRank e.2.cause == r).map (·.2.cause)).getD .pageNotPresent
    let named := fs.filter fun e => e.2.cause == cause
    let at' := fun gl => named.find? fun e => g.u.gangLane e.1.1 e.1.2 == gl
    some { g.trapAt cause (g.maskOf (named.map (·.1))) dst with
           addr := fun gl => ((at' gl).map (·.2.addr)).getD 0, info := fun gl => ((at' gl).map (·.2.info)).getD 0 }

/-- The tag of a lane that a memory word's DATA does not accept: FORMAT_MISMATCH, its source given as 0 (entry 15). -/
def Gang.tagTrap (g : Gang) (dst : BitVec 9) (lanes : List (Nat × Nat)) (bad : Nat × Nat → Option Nat) : Option Trap :=
  let fs := lanes.filterMap fun x => (bad x).map fun t => (x, t)
  if fs = [] then none
  else some { g.trapAt .formatMismatch (g.maskOf (fs.map (·.1))) dst with
              info := fun gl => match fs.find? fun e => g.u.gangLane e.1.1 e.1.2 == gl with
                | some e => BitVec.ofNat 32 e.2
                | none => 0 }

/-- The checks of a memory word before its memory faults: decode causes, unreadable registers, tags (R44, R269). -/
def Gang.memTrap (g : Gang) (s : State) (opc : Nat) (w : MemWord) (lanes : List (Nat × Nat)) (reserved illegal : Bool)
    (reads : List Nat) (badTag : Nat × Nat → Option Nat) (fault : Nat × Nat → Option LaneFault) : Option Trap :=
  if lanes = [] then none
  else match g.decodeFault s opc 1 reserved illegal with
    | some c => some (g.trapAt c (g.maskOf lanes) w.data)
    | none =>
      match g.badReaders lanes reads with
      | _ :: _ => some (g.trapAt .memUncorrectable (g.maskOf (g.badReaders lanes reads)) w.data)
      | [] => (g.tagTrap w.data lanes badTag).orElse fun _ => g.laneTrap w.data lanes fault

/-- No tag is checked. -/
def noTagCheck : Nat × Nat → Option Nat := fun _ => none

/-- The registers of ADDR. -/
def addrRegs (w : MemWord) (wide : Bool) : List Nat := runRegs w.addr.toNat (if wide then 2 else 1)

/-! ### Global accesses -/

/-- How a lane's access is checked (R273). -/
structure AccessKind where
  acc : Access
  /-- alignment demanded; 1 for none -/
  align : Nat
  atomic : Bool
  deriving DecidableEq, Repr, Inhabited

def AccessKind.isWrite (k : AccessKind) : Bool := k.acc == .write || k.atomic

/-- The alignment fault of an access (R273). -/
def alignFault (k : AccessKind) (va n : Nat) : Option Cause :=
  if k.align ≤ 1 then none
  else if va % 65536 + n > 65536 then some .atomicStraddle
  else if va % k.align ≠ 0 then some .misaligned
  else none

/-- Whether any of n bytes lies in the wake region: its page maps it, whatever the access may do there (R93). -/
def State.meetsWake (s : State) (ctx va n : Nat) : Bool :=
  (pieceStarts va n).any fun p => match s.translate ctx .read p.1 with
    | .ok l => inWake l.pa
    | .error _ => false

/-- An access of the wake region that is no aligned 8-byte one (R94). -/
def State.wakeFault (s : State) (ctx : Nat) (k : AccessKind) (va n : Nat) : Option Cause :=
  if (k.atomic ∨ n ≠ 8 ∨ va % 8 ≠ 0) ∧ s.meetsWake ctx va n then some (if k.atomic then .atomicStraddle else .misaligned) else none

/-- The pieces of a lane's access of n bytes, or its fault: the causes of its form come before its translation's (R94, R273, R274). -/
def State.plan (s : State) (ctx : Nat) (k : AccessKind) (va n : Nat) : Except LaneFault (List Piece) :=
  match (s.wakeFault ctx k va n).orElse fun _ => alignFault k va n with
  | some c => .error ⟨c, va, accessInfo k.isWrite false 0⟩
  | none =>
    match s.pieces ctx k.acc va n with
    | .error f => .error (f.lane k.isWrite)
    | .ok ps => .ok ps

/-- The fault of a plan. -/
def planFault : Except LaneFault (List Piece) → Option LaneFault
  | .error f => some f
  | .ok _ => none

def planPieces : Except LaneFault (List Piece) → List Piece
  | .error _ => []
  | .ok ps => ps

/-- The interval a lane's buffered stores belong to: the workgroup's, or the lane's own (R400). -/
def Gang.owner (g : Gang) (x : Nat × Nat) : Nat := if g.l.kind < 2 then 0 else unitLane (g.u.slice x.1) x.2

/-- Whether plain accesses to a page run through the snapshot and the buffer (R400). -/
def Gang.buffered (g : Gang) (leaf : Leaf) : Bool := g.u.det && g.l.effKind leaf.kind == 3 && !inWake leaf.pa

/-- A byte as an interval sees it: its own buffered store, the snapshot, memory (R400). -/
def Gang.intervalByte (g : Gang) (s : State) (owner pa : Nat) : Byte :=
  match g.u.buffer.find? fun b => b.owner == owner && b.pa == pa / 4 * 4 && b.mask.getLsbD (pa % 4) with
  | some b => b.data.extractLsb' (8 * (pa % 4)) 8
  | none => if sparseHas g.u.snapshot pa then sparseGet 0 g.u.snapshot pa else s.byteAt pa

/-- The bytes a lane reads of one piece; `free` stands for what another chip's wake cell holds. -/
def Gang.readPiece (g : Gang) (s : State) (owner : Nat) (free : DWord) (p : Piece) : List Byte :=
  if inWake p.leaf.pa then natLe p.len (s.wakeLoad p.leaf.pa free).toNat
  else if g.buffered p.leaf then (List.range p.len).map fun i => g.intervalByte s owner (p.leaf.pa + i)
  else s.bytesAt p.leaf.pa p.len

/-- What a lane's load reads. -/
def Gang.readLane (g : Gang) (s : State) (x : Nat × Nat) (free : DWord) (ps : List Piece) : Nat :=
  leNat (ps.flatMap (g.readPiece s (g.owner x) free))

/-- Whether a lane's load meets an uncorrectable sector (R269). -/
def State.unreadable (s : State) (ps : List Piece) : Bool :=
  ps.any fun p => !inWake p.leaf.pa && s.uncorrectableAt p.leaf.pa p.len

/-! ### The store buffer (R401) -/

/-- Store one byte into a buffer: a word already held merges. -/
def bufferByte (buf : List Buffered) (owner va pa : Nat) (b : Byte) : List Buffered :=
  let k := pa % 4
  let mask : BitVec 4 := 1 <<< k
  let clear : Word := ~~~((0xFF : Word) <<< (8 * k))
  let bits : Word := (b.setWidth 32) <<< (8 * k)
  if buf.any fun e => e.owner == owner && e.pa == pa / 4 * 4 then
    buf.map fun e =>
      if e.owner = owner ∧ e.pa = pa / 4 * 4 then { e with data := (e.data &&& clear) ||| bits, mask := e.mask ||| mask } else e
  else buf ++ [{ owner := owner, va := BitVec.ofNat 64 (va - k), pa := pa / 4 * 4, data := bits, mask := mask }]

/-- Store a lane's bytes into a buffer, from an address on. -/
def bufferBytes (buf : List Buffered) (owner va pa : Nat) : List Byte → List Buffered
  | [] => buf
  | b :: t => bufferBytes (bufferByte buf owner va pa b) owner (va + 1) (pa + 1) t

/-- Cut a lane's bytes to its pieces. -/
def cutBytes : List Piece → List Byte → List (Piece × List Byte)
  | [], _ => []
  | p :: t, bs => (p, bs.take p.len) :: cutBytes t (bs.drop p.len)

/-- A lane's stores into the buffer. -/
def Gang.bufferLane (g : Gang) (buf : List Buffered) (x : Nat × Nat) (parts : List (Piece × List Byte)) : List Buffered :=
  parts.foldl (init := buf) fun buf e =>
    if g.buffered e.1.leaf then bufferBytes buf (g.owner x) e.1.va e.1.leaf.pa e.2 else buf

/-- The buffer after the lanes' stores, and the lanes that would have overflowed it (R401). -/
def Gang.bufferAll (g : Gang) (lanes : List ((Nat × Nat) × List (Piece × List Byte))) : List Buffered × List (Nat × Nat) :=
  lanes.foldl (init := (g.u.buffer, [])) fun acc e =>
    let buf := g.bufferLane acc.1 e.1 e.2
    if buf.length > 8192 then (acc.1, acc.2 ++ [e.1]) else (buf, acc.2)

/-- The plain stores of a word's lanes: wake cells, then memory, in ascending lane (R272). -/
def Gang.storePlain (g : Gang) (s : State) (parts : List (Piece × List Byte)) : State :=
  let s := parts.foldl (init := s) fun s e =>
    if inWake e.1.leaf.pa then s.wakeStore e.1.leaf.pa (BitVec.ofNat 64 (leNat e.2)) else s
  let plain := parts.filter fun e => !inWake e.1.leaf.pa && !g.buffered e.1.leaf
  s.storeAll g.u.ctx (plain.map fun e => (e.1.leaf.pa, e.2))

/-- Count a word's reads of dead pages (R262). -/
def State.countReads (s : State) (ctx : Nat) (lanes : List (List Piece)) : State :=
  lanes.foldl (fun s ps => s.countElided ctx ps) s

/-! ### Requests (R257) -/

/-- The controller a local address of this chip goes to: 0-11 the HBM stacks, 12-15 the capacity tiers. -/
def controllerOf (loc : Nat) : Option Nat :=
  if inHbm loc then some (loc / 0x1000000000)
  else if inCapacity loc then some (12 + (loc - 0x100000000000) / 0xC000000000)
  else none

/-- Entries in use of a controller's 512: a request that finds none free waits for one (R258). -/
def State.inUse (s : State) (c : Nat) : Nat := min 512 (s.requests.filter (·.controller == c)).length

/-- A controller's averaging brought up to now (R258). -/
def State.tally (s : State) : State :=
  let known := s.controllers
  let step := fun (c : Nat) =>
    let x := (known.find? (·.num == c)).getD ⟨c, 0, s.clock, s.clock⟩
    { x with acc := x.acc + s.inUse c * (s.clock - x.upTo), upTo := s.clock }
  { s with controllers := (List.range 16).filterMap fun c =>
      if s.inUse c = 0 ∧ (known.find? (·.num == c)).isNone then none else some (step c) }

/-- A word's requests: its sectors by controller (R257, entry 16). -/
def State.request (s : State) (core : Nat) (g : GangRef) (ps : List Piece) : List Nat × State :=
  let secs := (ps.flatMap fun p =>
    if fabChip p.leaf.pa = s.chip then sectorsOf p.leaf.pa p.len else []).eraseDups
  let of := fun (c : Nat) => (secs.filter fun x => controllerOf (fabLocal (x * 32)) == some c).length
  let cs := (List.range 16).filter fun c => of c != 0
  if cs = [] then ([], s)
  else
    let s := s.tally
    let s' := { s with
      nextId := s.nextId + cs.length
      requests := s.requests ++ cs.mapIdx fun i c =>
        { (default : MemRequest) with id := s.nextId + i, controller := c, core := core, gang := g, sectors := of c } }
    ((List.range cs.length).map (s.nextId + ·), s'.tally)

/-! ### Requests to other chips (R369, R371) -/

/-- Who asks: the gang whose word it is; `strong` where later words wait for the answer (R357). -/
def Gang.asks (g : Gang) (strong : Bool) : LinkRequest :=
  { id := 0, die := g.l.die, lslot := g.l.slot, unit := g.u.uid, slices := g.ps, strong := strong, purpose := .store }

/-- The pieceSpans of pieces. -/
def pieceSpans (ps : List Piece) : List (Nat × Nat) := ps.map fun p => (p.leaf.pa, p.len)

/-- A word's reads of another chip's memory: each lane's, but that a scalar result takes its slice's lowest lane's (R276). -/
def Gang.remoteReads (g : Gang) (s : State) (scalar : Bool) (reg : Nat) (lanes : List ((Nat × Nat) × List Piece)) : List Remote :=
  let slices := g.counted (lanes.map (·.1))
  lanes.flatMap fun e =>
    let first := (lanes.find? (·.1.1 == e.1.1)).any (·.1 == e.1)
    let id := g.u.nextResult + slices.idxOf e.1.1
    (s.remoteParts 0 (pieceSpans (e.2.filter fun p => !g.buffered p.leaf))).map fun t =>
      { pa := t.1
        purpose := if scalar && !first then .store
          else .result id e.1.1 (if scalar then none else some e.1.2) (if scalar then reg - 0x110 else reg) t.2.2
        body := fun n => .read n (BitVec.ofNat 64 t.1) t.2.1 }

/-- A word's stores to another chip's memory: the bytes of each stretch. -/
def State.remoteWrites (s : State) (parts : List (Piece × List Byte)) : List Remote :=
  parts.flatMap fun e => (s.remoteParts 0 [(e.1.leaf.pa, e.1.len)]).map fun t =>
    { pa := t.1, purpose := .store, body := fun n => .write n (BitVec.ofNat 64 t.1) ((e.2.drop t.2.2).take t.2.1) }

/-! ### Scratchpad (R254) -/

/-- A segment of a context. -/
def State.segment? (s : State) (ctx : Nat) (name : DWord) : Option Segment :=
  s.segments.find? fun x => x.ctx == ctx && x.name == name

/-- The attached segment that holds an area byte. -/
def State.segmentAt (s : State) (u : WorkUnit) (a : Nat) : Option Segment :=
  u.segs.findSome? fun n => (s.segment? u.ctx n).bind fun x =>
    if x.core = some u.core ∧ x.offset ≤ a ∧ a < x.offset + 4096 * x.size then some x else none

/-- Whether a unit may reach a scratch offset. -/
def State.scratchOk (s : State) (u : WorkUnit) (off : Int) : Bool :=
  if off < 0 then false
  else if off < u.scratchLen then true
  else if 0x100000 ≤ off ∧ off < 0x180000 then (s.segmentAt u (off - 0x100000).toNat).isSome
  else false

/-- The lowest of n bytes that a unit may not reach. -/
def State.scratchBad (s : State) (u : WorkUnit) (off : Int) (n : Nat) : Option Int :=
  ((List.range n).find? fun (i : Nat) => !s.scratchOk u (off + i)).map fun (i : Nat) => off + i

/-- The scratch fault of a lane's access. -/
def State.scratchFault (s : State) (u : WorkUnit) (write : Bool) (off : Int) (n : Nat) : Option LaneFault :=
  (s.scratchBad u off n).map fun (o : Int) => ⟨.scratchBounds, wrapTo 64 o, accessInfo write false 0⟩

/-- A byte at a scratch offset that the unit may reach. -/
def State.scratchByte (s : State) (u : WorkUnit) (off : Nat) : Byte :=
  if off < 0x100000 then sparseGet 0 u.scratch off else sparseGet 0 (s.core u.core).segArea (off - 0x100000)

def State.scratchRead (s : State) (u : WorkUnit) (off n : Nat) : List Byte :=
  (List.range n).map fun i => s.scratchByte u (off + i)

/-- Mark the block of a segment that holds an area byte (R266). -/
def State.markDirty (s : State) (core a : Nat) : State :=
  { s with segments := s.segments.map fun x =>
      if x.core = some core ∧ x.offset ≤ a ∧ a < x.offset + 4096 * x.size then
        { x with dirty := x.dirty ||| (1 <<< ((a - x.offset) / 4096)) } else x }

/-- Store bytes at a scratch offset that a unit may reach. -/
def State.scratchWrite (s : State) (uid core off : Nat) (bs : List Byte) : State :=
  if off < 0x100000 then s.modifyUnit uid fun u => { u with scratch := sparseWrite u.scratch off bs }
  else
    let a := off - 0x100000
    let s := s.modifyCore core fun c => { c with segArea := sparseWrite c.segArea a bs }
    (List.range bs.length).foldl (fun s i => if i = 0 ∨ (a + i) % 4096 = 0 then s.markDirty core (a + i) else s) s

/-- The 8-byte words of n bytes at an offset. -/
def scratchWords (off n : Nat) : List Nat := if n = 0 then [] else (List.range ((off % 8 + n + 7) / 8)).map (off / 8 + ·)

/-- The uncorrectable 8-byte words within a unit's reach, by scratch offset: its own, and its core's segment area's (R268). -/
def State.badScratchWords (s : State) (u : WorkUnit) : List Nat := u.badScratch ++ (s.core u.core).badArea.map (0x20000 + ·)

def State.scratchUnreadable (s : State) (u : WorkUnit) (off n : Nat) : Bool :=
  let bad := s.badScratchWords u
  !bad.isEmpty && (scratchWords off n).any bad.contains

/-- The lowest byte of a scratch access that lies in an uncorrectable word. -/
def State.scratchBadByte (s : State) (u : WorkUnit) (off n : Nat) : Nat :=
  match (scratchWords off n).find? (s.badScratchWords u).contains with
  | some k => max off (8 * k)
  | none => off

/-- An 8-byte word of the scratchpad is good again. -/
def State.healScratch (s : State) (u : WorkUnit) (k : Nat) : State :=
  if k < 0x20000 then s.modifyUnit u.uid fun u => { u with badScratch := u.badScratch.filter (· != k) }
  else s.modifyCore u.core fun c => { c with badArea := c.badArea.filter (· != k - 0x20000) }

/-- Words a word of stores wrote whole are good again; other bad ones are logged (R269). -/
def State.settleScratch (s : State) (u : WorkUnit) (writes : List (Nat × Nat)) : State :=
  let bad := s.badScratchWords u
  if bad.isEmpty then s
  else
    let ws := ((writes.flatMap fun w => scratchWords w.1 w.2).eraseDups).filter bad.contains
    ws.foldl (init := s) fun s k =>
      let full := (List.range 8).all fun i => writes.any fun w => decide (w.1 ≤ k * 8 + i ∧ k * 8 + i < w.1 + w.2)
      if full then s.healScratch u k
      else { s with dies := listModify s.dies (s.coreDie u.core) fun d =>
                      { d with errorLog := d.errorLog ++ [(0x15, u.ctx, BitVec.ofNat 64 (k * 8))] } }

/-! ### Uncorrectable loads (R269) -/

/-- Note an uncorrectable load in the slices of its lanes: it is reported before the gang's next word. -/
def State.noteLoadError (s : State) (g : Gang) (dst : BitVec 9) (write : Bool) (bad : List (Nat × Nat))
    (addr : Nat × Nat → Nat) : State :=
  if bad = [] then s
  else
    let e : LoadError := { cause := .memUncorrectable, write := write, level := 0, lanes := g.maskOf bad, pc := g.pc, dst := dst,
                           addrs := bad.map fun x => (g.u.gangLane x.1 x.2, BitVec.ofNat 64 (addr x)) }
    s.modifyUnit g.u.uid fun u =>
      u.modifySlices (g.counted bad) fun sl => { sl with errors := sl.errors ++ [e] }

/-- Finish a memory word that issues long-latency results. -/
def State.finishLong (s : State) (g : Gang) (w : MemWord) (lanes : List (Nat × Nat)) (requests : List Nat)
    (kind : Nat → LongKind) (writes : Nat → List RegWrite) : State :=
  (s.modifyUnit g.u.uid fun u => u.issueLong g w.c.sb lanes requests kind writes).finishWord g w.c.y 1

/-- A memory word without a result counts on its scoreboard as well; its count falls again within the word (R26). -/
def State.finishMem (s : State) (g : Gang) (w : MemWord) : State := s.finishWord g w.c.y 1

end Sys2Proof.Machine
end

