-- ==== Sys2Proof/Machine/MemInstr.lean ====
section
/-! DEFINITION. Loads and stores (R276, R277), fences and prefetch (R283, R284), lifetime hints and the step counter (R285,
R286). -/

namespace Sys2Proof.Machine

/-! ### Loads -/

/-- The register writes of a slice's loaded lanes; an s destination takes the lowest lane's value (R276). -/
def loadWrites (w : MemWord) (scalar : Bool) (p : Nat) (vals : List ((Nat × Nat) × Nat)) : List RegWrite :=
  let mine := vals.filter (·.1.1 == p)
  let k := sizeRun w.size.toNat
  if scalar then
    match mine with
    | [] => []
    | v :: _ => runWrites none (w.data.toNat - 0x110) v.2 k
  else mine.flatMap fun v => runWrites (some v.1.2) w.data.toNat v.2 k

/-- A slice's reads as a spill records them (R424). -/
def loadReads (w : MemWord) (space : Space) (scalar : Bool) (p : Nat) (vas : List ((Nat × Nat) × Nat)) : List PendingRead :=
  (vas.filter (·.1.1 == p)).map fun v =>
    { lane := v.1.2, space := space, va := BitVec.ofNat 64 v.2, bytes := sizeBytes w.size.toNat, dst := w.data.toNat,
      scalar := scalar }

/-- Issue a load's results: where a lane's data cannot be corrected no lane writes (R269). -/
def State.issueLoad (s : State) (g : Gang) (w : MemWord) (lanes bad : List (Nat × Nat)) (space : Space) (scalar : Bool)
    (requests : List Nat) (va badVa val : Nat × Nat → Nat) : State :=
  let s := s.noteLoadError g w.data false bad badVa
  let kind := fun p => if bad = [] then LongKind.load (loadReads w space scalar p (lanes.map fun x => (x, va x))) else .ready
  let writes := fun p => if bad = [] then loadWrites w scalar p (lanes.map fun x => (x, val x)) else []
  s.finishLong g w lanes requests kind writes

/-- Whether a lane reads another chip's wake cell. -/
def State.remoteWake (s : State) (ps : List Piece) : Bool := ps.any fun p => inWake p.leaf.pa && fabChip p.leaf.pa != s.chip

/-- A load from global memory (R276): LD and LDC. -/
def State.loadGlobal (s : State) (g : Gang) (opc : Nat) (w : MemWord) (reserved illegal : Bool) (space : Space)
    (scalar : Bool) (align : Nat) : State :=
  let lanes := g.executing w.c
  let n := sizeBytes w.size.toNat
  let plan := fun x => s.plan g.u.ctx ⟨.read, align, false⟩ (g.laneVa w x) n
  match g.memTrap s opc w lanes (reserved || w.size.toNat ≥ 6) illegal (addrRegs w true) noTagCheck fun x => planFault (plan x) with
  | some t => s.enterTrap g t
  | none =>
    if g.sbFull w.c.sb lanes then s
    else
      let ps := fun x => planPieces (plan x)
      let bad := lanes.filter fun x => s.unreadable (ps x)
      let d := s.drawFree (if lanes.any fun x => s.remoteWake (ps x) then 32 else 0)
      let val := fun x => g.readLane s x (Config.freeValue (d.1 + g.u.gangLane x.1 x.2)) (ps x)
      let r := (d.2.countReads g.u.ctx (lanes.map ps)).request g.u.core g.ref (lanes.flatMap ps)
      let q := r.2.sendAll (g.asks (w.order != 0)) (g.remoteReads s scalar w.data.toNat (lanes.map fun x => (x, ps x)))
      q.2.issueLoad g w lanes bad space scalar (r.1 ++ q.1) (g.laneVa w) (fun x => (s.badByte (ps x)).getD 0) val

/-- LD: a load of 1 to 32 bytes per lane (R276). -/
def execLd (w : MemWord) (s : State) : Host.Outcome State Fault Refusal :=
  match s.gang with
  | none => .next s
  | some g =>
    let k := sizeRun w.size.toNat
    .next (s.loadGlobal g 0x140 w (w.order.toNat ≥ 2)
      (!addrOk g.head.regs true w.addr.toNat || !loadRunOk g.head.regs w.data.toNat k) .global false
      (if w.order = 0 then 1 else sizeBytes w.size.toNat))

/-- LDC: a load through the constant cache; memory is read as it stands (R277, entry 9). -/
def execLdc (w : MemWord) (s : State) : Host.Outcome State Fault Refusal :=
  match s.gang with
  | none => .next s
  | some g =>
    let k := sizeRun w.size.toNat
    let scalar := sRunOk w.data.toNat k k
    .next (s.loadGlobal g 0x144 w (w.scope != 0 || w.order != 0)
      (!sRunOk w.addr.toNat 2 2 || !(loadRunOk g.head.regs w.data.toNat k || scalar)) .constant scalar 1)

/-- The reserved fields of a scratch access (R276). -/
def scratchReserved (w : MemWord) : Bool := w.size.toNat ≥ 6 || w.scope != 0 || w.cache

/-- The fault of an aligned scratch access, as R274 ranks it. -/
def State.scratchAccess (s : State) (g : Gang) (write : Bool) (align : Nat) (off : Int) (n : Nat) : Option LaneFault :=
  match s.scratchFault g.u write off n with
  | some f => some f
  | none => if off % (align : Int) = 0 then none else some ⟨.misaligned, wrapTo 64 off, accessInfo write false 0⟩

/-- LDS: a load from the scratchpad (R276). -/
def execLds (w : MemWord) (s : State) : Host.Outcome State Fault Refusal :=
  match s.gang with
  | none => .next s
  | some g =>
    let lanes := g.executing w.c
    let n := sizeBytes w.size.toNat
    let align := if w.order = 0 then 1 else n
    let illegal := !addrOk g.head.regs false w.addr.toNat || !loadRunOk g.head.regs w.data.toNat (sizeRun w.size.toNat)
    match g.memTrap s 0x142 w lanes (scratchReserved w || w.order.toNat ≥ 2) illegal (addrRegs w false) noTagCheck
        (fun x => s.scratchAccess g false align (g.laneOffset w x) n) with
    | some t => .next (s.enterTrap g t)
    | none =>
      if g.sbFull w.c.sb lanes then .next s
      else
        let off := fun x => (g.laneOffset w x).toNat
        let bad := lanes.filter fun x => s.scratchUnreadable g.u (off x) n
        .next (s.issueLoad g w lanes bad .scratch false [] off (fun x => s.scratchBadByte g.u (off x) n) fun x => leNat (s.scratchRead g.u (off x) n))

/-! ### Stores -/

/-- ST: a store of 1 to 32 bytes per lane, or into the interval's buffer (R276, R401). -/
def execSt (w : MemWord) (s : State) : Host.Outcome State Fault Refusal :=
  match s.gang with
  | none => .next s
  | some g =>
    let lanes := g.executing w.c
    let n := sizeBytes w.size.toNat
    let k := sizeRun w.size.toNat
    let plan := fun x => s.plan g.u.ctx ⟨.write, if w.order = 0 then 1 else n, false⟩ (g.laneVa w x) n
    let parts := lanes.map fun x =>
      (x, cutBytes (planPieces (plan x)) (natLe n ((g.u.slice x.1).storeValue x.2 w.data.toNat n)))
    let buf := g.bufferAll parts
    let illegal := !addrOk g.head.regs true w.addr.toNat || !storeRunOk g.head.regs w.data.toNat k
    let trap := g.memTrap s 0x141 w lanes (w.size.toNat ≥ 6 || bitOf w.order.toNat 0) illegal
      (addrRegs w true ++ runRegs w.data.toNat k) noTagCheck fun x => planFault (plan x)
    let overflow := if buf.2 = [] then none else some (g.trapAt .mergeOverflow (g.maskOf buf.2) w.data)
    match trap.orElse fun _ => overflow with
    | some t => .next (s.enterTrap g t)
    | none =>
      if g.sbFull w.c.sb lanes then .next s
      else
        let s := (g.storePlain s (parts.flatMap (·.2))).modifyUnit g.u.uid fun u => { u with buffer := buf.1 }
        let r := s.request g.u.core g.ref ((parts.flatMap (·.2)).map (·.1))
        let q := r.2.sendAll (g.asks false) (s.remoteWrites ((parts.flatMap (·.2)).filter fun e => !g.buffered e.1.leaf))
        .next (q.2.finishMem g w)

/-- STS: a store to the scratchpad (R276). -/
def execSts (w : MemWord) (s : State) : Host.Outcome State Fault Refusal :=
  match s.gang with
  | none => .next s
  | some g =>
    let lanes := g.executing w.c
    let n := sizeBytes w.size.toNat
    let k := sizeRun w.size.toNat
    let illegal := !addrOk g.head.regs false w.addr.toNat || !storeRunOk g.head.regs w.data.toNat k
    match g.memTrap s 0x143 w lanes (scratchReserved w || bitOf w.order.toNat 0) illegal
        (addrRegs w false ++ runRegs w.data.toNat k) noTagCheck
        (fun x => s.scratchAccess g true (if w.order = 0 then 1 else n) (g.laneOffset w x) n) with
    | some t => .next (s.enterTrap g t)
    | none =>
      if g.sbFull w.c.sb lanes then .next s
      else
        let off := fun x => (g.laneOffset w x).toNat
        let s := lanes.foldl (init := s) fun s x =>
          s.scratchWrite g.u.uid g.u.core (off x) (natLe n ((g.u.slice x.1).storeValue x.2 w.data.toNat n))
        .next ((s.settleScratch g.u (lanes.map fun x => (off x, n))).finishMem g w)

/-! ### Fences, prefetch, hints -/

/-- FENCE: every earlier access of the slice has been performed (R283, entry 9). -/
def execFence (w : MemWord) (s : State) : Host.Outcome State Fault Refusal :=
  match s.gang with
  | none => .next s
  | some g =>
    let d := w.data.toNat
    let reserved := w.order == 0 || d ≥ 4 || (bitOf d 0 && w.order != 3) || (bitOf d 1 && w.scope.toNat < 2) ||
      w.addr != 0 || w.ofs != 0 || w.size != 0 || w.cache
    let lanes := g.executing w.c
    match g.memTrap s 0x146 w lanes reserved false [] noTagCheck (fun _ => none) with
    | some t => .next (s.enterTrap g t)
    | none => if g.sbFull w.c.sb lanes then .next s else .next (s.finishMem g w)

/-- PREF: no effect on any result or order (R284). -/
def execPref (w : MemWord) (s : State) : Host.Outcome State Fault Refusal :=
  match s.gang with
  | none => .next s
  | some g =>
    let lanes := g.executing w.c
    let reserved := w.data != 0 || w.size != 0 || w.scope != 0 || w.order != 0
    match g.memTrap s 0x145 w lanes reserved (!addrOk g.head.regs true w.addr.toNat) (addrRegs w true) noTagCheck
        (fun _ => none) with
    | some t => .next (s.enterTrap g t)
    | none => if g.sbFull w.c.sb lanes then .next s else .next (s.finishMem g w)

/-- A page goes dead: from now on it reads as zeros, with no error (R262). -/
def State.zeroPage (s : State) (base size : Nat) : State :=
  let out := fun (a : Nat) => !(decide (base ≤ a ∧ a < base + size))
  { s.dropSnapshot base size with
    mem := s.mem.filter fun e => out e.1
    badSectors := s.badSectors.filter out }

/-- One lane's update of its page's hint record (R285). -/
def State.hintPage (s : State) (w : MemWord) (leaf : Leaf) (next : Word) : State :=
  if !leaf.mov then s
  else
    let r := s.hintOf leaf.pte leaf.base leaf.logSize
    let dead := bitOf w.size.toNat 2
    let r : HintRec :=
      { base := leaf.base, logSize := leaf.logSize, next := if w.cache then r.next else next, hinted := r.hinted || !w.cache,
        pri := w.size.extractLsb' 0 2, dead := r.dead || dead }
    let s := if dead then s.zeroPage leaf.base (2 ^ leaf.logSize) else s
    s.setHint leaf.pte r

/-- HINT (R285). -/
def execHint (w : MemWord) (s : State) : Host.Outcome State Fault Refusal :=
  match s.gang with
  | none => .next s
  | some g =>
    let lanes := g.executing w.c
    let dead := bitOf w.size.toNat 2
    let look := fun x => s.translate g.u.ctx (if dead then .write else .read) (g.laneVa w x)
    let fault := fun x => match look x with
      | .error f => some ⟨f.1, g.laneVa w x, accessInfo dead false f.2⟩
      | .ok _ => none
    let dataOk := w.cache || vRunOk g.head.regs w.data.toNat 1 1 || sRunOk w.data.toNat 1 1
    match g.memTrap s 0x147 w lanes (w.order != 0 || (w.cache && w.data != 0))
        (!addrOk g.head.regs true w.addr.toNat || !dataOk)
        (addrRegs w true ++ (if w.cache then [] else runRegs w.data.toNat 1)) noTagCheck fault with
    | some t => .next (s.enterTrap g t)
    | none =>
      if g.sbFull w.c.sb lanes then .next s
      else
        let s := lanes.foldl (init := s) fun s x =>
          match look x with
          | .ok leaf => s.hintPage w leaf ((g.u.slice x.1).getSpec x.2 w.data.toNat).val
          | .error _ => s
        .next (s.finishMem g w)

/-- STEPADV: the context's step counter, by the lowest active lane's value (R286). -/
def execStepadv (w : MemWord) (s : State) : Host.Outcome State Fault Refusal :=
  match s.gang with
  | none => .next s
  | some g =>
    let lanes := g.executing w.c
    let reserved := w.addr != 0 || w.ofs != 0 || w.size != 0 || w.scope != 0 || w.order != 0
    match g.memTrap s 0x148 w lanes reserved (!storeRunOk g.head.regs w.data.toNat 1) (runRegs w.data.toNat 1) noTagCheck
        (fun _ => none) with
    | some t => .next (s.enterTrap g t)
    | none =>
      if g.sbFull w.c.sb lanes then .next s
      else
        let s := match lanes with
          | [] => s
          | x :: _ =>
            let d := BitVec.ofNat 32 ((g.u.slice x.1).storeValue x.2 w.data.toNat 4)
            s.modifyContext g.u.ctx fun c => { c with step := if w.cache then d else c.step + d }
        .next (s.finishMem g w)

end Sys2Proof.Machine
end

