-- ==== Sys2Proof/Machine/Room.lean ====
section
/-! DEFINITION. What a launch's tables take of its context's save area (R128, R139, R145, R280, R427), and the windows of a replica run at
this chip's home banks (R383). -/

namespace Sys2Proof.Machine

/-! ### Room in the save area (R427) -/

/-- The home of an event among the dies of its run: chip and die (R139). -/
def Launch.eventHome (l : Launch) (id : BitVec 48) : Nat × Nat :=
  let n := wordBits ((id ^^^ (id >>> 24)).setWidth 64) 23 0 % (4 * l.chips)
  (l.chip0 + n / 4, n % 4)

/-- The share of the store that one die keeps (R139). -/
def Launch.share (l : Launch) (d : Domain) (chip die : Nat) : List EventRec :=
  d.store.filter fun e => l.eventHome e.id == (chip, die)

/-- How many of a list's members in each place go beyond what the place holds. -/
def beyond [BEq α] (cap : Nat) (l : List α) : Nat := (l.eraseDups.map fun x => l.count x - cap).sum

/-- A launch's contributions held at this chip: its own, and those of its run (R280, R383). -/
def State.heldContributions (s : State) (l : Launch) : List Contribution :=
  l.contribs ++ (s.runWindows.filter fun w => l.cinch.any (·.generation == w.run.generation)).flatMap (·.contribs)

/-- The bytes a launch's tables take of the save area: lines beyond 4,096, contributions beyond 4,096 in a bank, events beyond the 262,144 of
a die's near heap, and staged events. The sizes of an entry are the model's (DESIGN CHOICE, entry 36). -/
def State.roomBytes (s : State) (l : Launch) : Nat :=
  let d := l.domain.getD default
  16 * ((l.frontier.map (·.lines.length)).getD 0 - 4096) +
  32 * beyond 4096 ((s.heldContributions l).map fun c => homeBank (fabLocal c.pa)) +
  64 * beyond 262144 ((d.store.filter fun e => (l.eventHome e.id).1 == s.chip).map fun e => (l.eventHome e.id).2) + 64 * d.staged.length

/-- A launch takes granules for its tables, where there is room: whether there was (R427). -/
def State.growBy (s : State) (die slot ctx more : Nat) : State × Bool :=
  if more = 0 then (s, true)
  else match s.takeSave ctx (65536 * more) with
    | none => (s, false)
    | some x => (x.2.modifyLaunch die slot fun l => { l with room := l.room ++ [(x.1, more)] }, true)

/-- A launch takes the granules its tables want and do not have yet (R427). -/
def State.growRoom (s : State) (die slot : Nat) : State × Bool :=
  match s.launch? die slot with
  | none => (s, true)
  | some l => s.growBy die slot l.ctx (granules (s.roomBytes l) - (l.room.map (·.2)).sum)

/-- A launch's tables give their room back. -/
def State.dropRoom (s : State) (l : Launch) : State := l.room.foldl (fun s x => s.freeSave l.ctx (some x)) s

end Sys2Proof.Machine
end

