-- ==== Sys2Proof/Machine/Atomics.lean ====
section
/-! DEFINITION. Atomics on memory and on the scratchpad (R278, R279), streamed operations (R282), ordered additions and the
closing of their windows (R280, R281). -/

namespace Sys2Proof.Machine

/-! ### What an atomic computes (R278) -/

/-- Compare signed or unsigned numbers of n bits. -/
def lessBits (n : Nat) (unsigned : Bool) (a b : Nat) : Bool :=
  if unsigned then decide (a < b) else decide (sext a n < sext b n)

/-- The integer operations by OPC[3:0]: old, operand (or compare), new, in n bits (R278). -/
def atomicOp (op n old b new : Nat) : Nat :=
  match op with
  | 0 => (old + b) % 2 ^ n
  | 1 => if lessBits n false b old then b else old
  | 2 => if lessBits n false old b then b else old
  | 3 => if lessBits n true b old then b else old
  | 4 => if lessBits n true old b then b else old
  | 5 => old &&& b
  | 6 => old ||| b
  | 7 => old ^^^ b
  | 8 => b
  | 9 => if old = b then new else old
  | 10 => if old ≥ b then 0 else old + 1
  | _ => if old = 0 ∨ old > b then b else old - 1

/-- An atomic word: how it combines, and its checks. -/
structure AtomicEntry where
  opc : Nat
  cas : Bool := false
  /-- the tag DATA must have besides raw, with SIZE 2 and 3 (R279); none: no tag is checked -/
  tags : Option (Nat × Nat) := none
  /-- old, operand, new; wide or not -/
  op : Bool → Nat → Nat → Nat → Nat

/-- Bytes of an atomic. -/
def atomicBytes (w : MemWord) : Nat := if w.size = 3 then 8 else 4

/-- Registers of an atomic's DATA run (R278). -/
def AtomicEntry.run (e : AtomicEntry) (w : MemWord) : Nat := atomicBytes w / 4 * (if e.cas then 2 else 1)

/-- Whether DATA is one R278 allows: a v run, or under .nr a v or s run, or but for .CAS a constant or an immediate. -/
def AtomicEntry.dataOk (e : AtomicEntry) (regs : Nat) (w : MemWord) : Bool :=
  let d := w.data.toNat
  let k := e.run w
  if !w.cache then loadRunOk regs d k
  else if e.cas then vRunOk regs d k k || sRunOk d k k
  else storeRunOk regs d k

/-- The tag an atomic's DATA must have. -/
def AtomicEntry.tag (e : AtomicEntry) (w : MemWord) : Nat :=
  match e.tags with
  | some (t, t') => if w.size = 3 then t' else t
  | none => 0

/-- The tag of DATA's first register, where it has one. -/
def Gang.dataTag (g : Gang) (w : MemWord) (x : Nat × Nat) : Nat :=
  if w.data.toNat < 0x100 then ((g.u.lane x.1 x.2).getV w.data.toNat).tag.toNat else 0

/-- A DATA tag that is not accepted. -/
def AtomicEntry.badTag (e : AtomicEntry) (g : Gang) (w : MemWord) (x : Nat × Nat) : Option Nat :=
  match e.tags with
  | none => none
  | some _ => let t := g.dataTag w x; if t = 0 ∨ t = e.tag w then none else some t

/-- A lane's operand and, for .CAS, its new value. -/
def AtomicEntry.operands (e : AtomicEntry) (g : Gang) (w : MemWord) (x : Nat × Nat) : Nat × Nat :=
  let n := atomicBytes w
  let sl := g.u.slice x.1
  if e.cas then (sl.runValue x.2 w.data.toNat (n / 4), sl.runValue x.2 (w.data.toNat + n / 4) (n / 4))
  else (sl.storeValue x.2 w.data.toNat n, 0)

/-- The new value at a location that held `old`. -/
def AtomicEntry.result (e : AtomicEntry) (g : Gang) (w : MemWord) (x : Nat × Nat) (old : Nat) : Nat :=
  let o := e.operands g w x
  e.op (w.size == 3) old o.1 o.2

/-- The register writes of the old values (R278). -/
def AtomicEntry.writes (e : AtomicEntry) (w : MemWord) (p : Nat) (olds : List ((Nat × Nat) × Nat)) : List RegWrite :=
  (olds.filter (·.1.1 == p)).flatMap fun v =>
    match runWrites (some v.1.2) w.data.toNat v.2 (atomicBytes w / 4) with
    | r :: t => { r with val := ⟨r.val.val, BitVec.ofNat 8 (e.tag w)⟩ } :: t
    | [] => []

/-- The reserved fields common to atomics. -/
def atomicReserved (w : MemWord) : Bool := w.size != 2 && w.size != 3

/-- The end of an atomic word: old values on their way, or none under .nr (R278); an uncorrectable old value is reported as a
load's (R269). -/
def State.finishAtomic (s : State) (g : Gang) (e : AtomicEntry) (w : MemWord) (lanes bad : List (Nat × Nat))
    (requests : List Nat) (addr : Nat × Nat → Nat) (olds : List ((Nat × Nat) × Nat)) : State :=
  if w.cache then s.finishMem g w
  else
    let s := s.noteLoadError g w.data true bad addr
    s.finishLong g w lanes requests (fun _ => .ready) fun p => if bad = [] then e.writes w p olds else []

/-- A word's atomics on another chip's memory: each lane's is performed at its home, and its old value is the answer (R371, R382). -/
def AtomicEntry.remote (e : AtomicEntry) (g : Gang) (s : State) (w : MemWord) (lanes : List ((Nat × Nat) × Nat)) : List Remote :=
  let slices := g.counted (lanes.map (·.1))
  (lanes.filter fun x => fabChip x.2 != s.chip).map fun x =>
    let o := e.operands g w x.1
    { pa := x.2
      purpose := if w.cache then .store else .result (g.u.nextResult + slices.idxOf x.1.1) x.1.1 (some x.1.2) w.data.toNat 0
      body := fun n => .atomic n (BitVec.ofNat 64 x.2) g.c.fpmode e.opc (w.size == 3) (BitVec.ofNat 64 o.1) (BitVec.ofNat 64 o.2) }

/-- An atomic on memory (R278): every executing lane in ascending order, each as one step. -/
def atomWord (e : AtomicEntry) (w : MemWord) (s : State) : Host.Outcome State Fault Refusal :=
  match s.gang with
  | none => .next s
  | some g =>
    let lanes := g.executing w.c
    let n := atomicBytes w
    let plan := fun x => s.plan g.u.ctx ⟨.write, n, true⟩ (g.laneVa w x) n
    let illegal := !addrOk g.head.regs true w.addr.toNat || !e.dataOk g.head.regs w
    match g.memTrap s e.opc w lanes (atomicReserved w) illegal (addrRegs w true ++ runRegs w.data.toNat (e.run w))
        (e.badTag g w) fun x => planFault (plan x) with
    | some t => .next (s.enterTrap g t)
    | none =>
      if g.sbFull w.c.sb lanes then .next s
      else
        let ps := fun x => planPieces (plan x)
        let pa := fun x => ((ps x).head?.map (·.leaf.pa)).getD 0
        let bad := lanes.filter fun x => s.uncorrectableAt (pa x) n
        let r := (s.countReads g.u.ctx (lanes.map ps)).request g.u.core g.ref (lanes.flatMap ps)
        let go := lanes.foldl (init := (r.2, ([] : List ((Nat × Nat) × Nat)))) fun acc x =>
          if bad.contains x then
            -- the atomic is not performed, and without a returned value it is logged
            (if w.cache then acc.1.settleSectors g.u.ctx [(pa x, n)] else acc.1, acc.2)
          else
            let old := acc.1.natAt (pa x) n
            (acc.1.storeAll g.u.ctx [(pa x, natLe n (e.result g w x old))], acc.2 ++ [(x, old)])
        let q := go.1.sendAll (g.asks (bitOf w.order.toNat 0)) (e.remote g s w (lanes.map fun x => (x, pa x)))
        .next (q.2.finishAtomic g e w lanes bad (r.1 ++ q.1) (fun x => (s.badByte (ps x)).getD (g.laneVa w x)) go.2)

/-- An atomic on the scratchpad (R278). -/
def atomsWord (e : AtomicEntry) (w : MemWord) (s : State) : Host.Outcome State Fault Refusal :=
  match s.gang with
  | none => .next s
  | some g =>
    let lanes := g.executing w.c
    let n := atomicBytes w
    let fault := fun x =>
      match s.scratchFault g.u true (g.laneOffset w x) n with
      | some f => some f
      | none => if g.laneOffset w x % (n : Int) = 0 then none
          else some ⟨.misaligned, (g.laneOffset w x).toNat, accessInfo true false 0⟩
    let illegal := !addrOk g.head.regs false w.addr.toNat || !e.dataOk g.head.regs w
    match g.memTrap s e.opc w lanes (atomicReserved w || w.scope != 0) illegal
        (addrRegs w false ++ runRegs w.data.toNat (e.run w)) (e.badTag g w) fault with
    | some t => .next (s.enterTrap g t)
    | none =>
      if g.sbFull w.c.sb lanes then .next s
      else
        let off := fun x => (g.laneOffset w x).toNat
        let bad := lanes.filter fun x => s.scratchUnreadable g.u (off x) n
        let go := lanes.foldl (init := (s, ([] : List ((Nat × Nat) × Nat)))) fun acc x =>
          if bad.contains x then (if w.cache then acc.1.settleScratch g.u [(off x, n / 2)] else acc.1, acc.2)
          else
            let u := (acc.1.unit? g.u.uid).getD g.u
            let old := leNat (acc.1.scratchRead u (off x) n)
            (acc.1.scratchWrite g.u.uid g.u.core (off x) (natLe n (e.result g w x old)), acc.2 ++ [(x, old)])
        .next (go.1.finishAtomic g e w lanes bad [] (fun x => s.scratchBadByte g.u (off x) n) go.2)

/-- The entry of an integer atomic by OPC[3:0] (R47, R278). -/
def intAtomic (opc : Nat) : AtomicEntry :=
  { opc := opc, cas := opc % 16 == 9, op := fun wide old b new => atomicOp (opc % 16) (if wide then 64 else 32) old b new }

/-! ### ATOMS (R278) -/

/-- ATOMS.ADD (R278). -/
def execAtomsAdd (w : MemWord) : State → Host.Outcome State Fault Refusal := atomsWord (intAtomic 0x160) w

/-- ATOMS.SMIN (R278). -/
def execAtomsSmin (w : MemWord) : State → Host.Outcome State Fault Refusal := atomsWord (intAtomic 0x161) w

/-- ATOMS.SMAX (R278). -/
def execAtomsSmax (w : MemWord) : State → Host.Outcome State Fault Refusal := atomsWord (intAtomic 0x162) w

/-- ATOMS.UMIN (R278). -/
def execAtomsUmin (w : MemWord) : State → Host.Outcome State Fault Refusal := atomsWord (intAtomic 0x163) w

/-- ATOMS.UMAX (R278). -/
def execAtomsUmax (w : MemWord) : State → Host.Outcome State Fault Refusal := atomsWord (intAtomic 0x164) w

/-- ATOMS.AND (R278). -/
def execAtomsAnd (w : MemWord) : State → Host.Outcome State Fault Refusal := atomsWord (intAtomic 0x165) w

/-- ATOMS.OR (R278). -/
def execAtomsOr (w : MemWord) : State → Host.Outcome State Fault Refusal := atomsWord (intAtomic 0x166) w

/-- ATOMS.XOR (R278). -/
def execAtomsXor (w : MemWord) : State → Host.Outcome State Fault Refusal := atomsWord (intAtomic 0x167) w

/-- ATOMS.EXCH (R278). -/
def execAtomsExch (w : MemWord) : State → Host.Outcome State Fault Refusal := atomsWord (intAtomic 0x168) w

/-- ATOMS.CAS (R278). -/
def execAtomsCas (w : MemWord) : State → Host.Outcome State Fault Refusal := atomsWord (intAtomic 0x169) w

/-- ATOMS.INCW (R278). -/
def execAtomsIncw (w : MemWord) : State → Host.Outcome State Fault Refusal := atomsWord (intAtomic 0x16A) w

/-- ATOMS.DECW (R278). -/
def execAtomsDecw (w : MemWord) : State → Host.Outcome State Fault Refusal := atomsWord (intAtomic 0x16B) w

/-! ### ATOM (R278) -/

/-- ATOM.ADD (R278). -/
def execAtomAdd (w : MemWord) : State → Host.Outcome State Fault Refusal := atomWord (intAtomic 0x170) w

/-- ATOM.SMIN (R278). -/
def execAtomSmin (w : MemWord) : State → Host.Outcome State Fault Refusal := atomWord (intAtomic 0x171) w

/-- ATOM.SMAX (R278). -/
def execAtomSmax (w : MemWord) : State → Host.Outcome State Fault Refusal := atomWord (intAtomic 0x172) w

/-- ATOM.UMIN (R278). -/
def execAtomUmin (w : MemWord) : State → Host.Outcome State Fault Refusal := atomWord (intAtomic 0x173) w

/-- ATOM.UMAX (R278). -/
def execAtomUmax (w : MemWord) : State → Host.Outcome State Fault Refusal := atomWord (intAtomic 0x174) w

/-- ATOM.AND (R278). -/
def execAtomAnd (w : MemWord) : State → Host.Outcome State Fault Refusal := atomWord (intAtomic 0x175) w

/-- ATOM.OR (R278). -/
def execAtomOr (w : MemWord) : State → Host.Outcome State Fault Refusal := atomWord (intAtomic 0x176) w

/-- ATOM.XOR (R278). -/
def execAtomXor (w : MemWord) : State → Host.Outcome State Fault Refusal := atomWord (intAtomic 0x177) w

/-- ATOM.EXCH (R278). -/
def execAtomExch (w : MemWord) : State → Host.Outcome State Fault Refusal := atomWord (intAtomic 0x178) w

/-- ATOM.CAS (R278). -/
def execAtomCas (w : MemWord) : State → Host.Outcome State Fault Refusal := atomWord (intAtomic 0x179) w

/-- ATOM.INCW (R278). -/
def execAtomIncw (w : MemWord) : State → Host.Outcome State Fault Refusal := atomWord (intAtomic 0x17A) w

/-- ATOM.DECW (R278). -/
def execAtomDecw (w : MemWord) : State → Host.Outcome State Fault Refusal := atomWord (intAtomic 0x17B) w

/-! ### Floating-point atomics (R279) -/

/-- The format of a wide or narrow operand. -/
def atomFormat (wide : Bool) : Ieee := if wide then fp64 else fp32

/-- An operation of FATOM: the old value is source A, and no flag is set (R279). -/
def floatOp (fpm : BitVec 4) (k : Nat) (f : Ieee) (old b : Nat) : Nat :=
  match k with
  | 0 => (f.add fpm 0 false false old b).code
  | 1 => (f.minMax fpm false false old b).code
  | _ => (f.minMax fpm true false old b).code

/-- The FP mode word of the gang's context. -/
def State.gangMode (s : State) : BitVec 4 := match s.gang with | some g => g.c.fpmode | none => 0

def floatAtomic (fpm : BitVec 4) (opc k : Nat) : AtomicEntry :=
  { opc := opc, tags := some (tagF32, tagF64), op := fun wide old b _ => floatOp fpm k (atomFormat wide) old b }

/-- FATOM.ADD: old + b, rounded once (R279). -/
def execFatomAdd (w : MemWord) (s : State) : Host.Outcome State Fault Refusal := atomWord (floatAtomic s.gangMode 0x14C 0) w s

/-- FATOM.MIN: as FMIN.num (R279). -/
def execFatomMin (w : MemWord) (s : State) : Host.Outcome State Fault Refusal := atomWord (floatAtomic s.gangMode 0x14D 1) w s

/-- FATOM.MAX: as FMAX.num (R279). -/
def execFatomMax (w : MemWord) (s : State) : Host.Outcome State Fault Refusal := atomWord (floatAtomic s.gangMode 0x14E 2) w s

/-! ### Streamed operations (R282) -/

/-- The result of an element. -/
def sopElement (fpm : BitVec 4) (k old b : Nat) : Nat :=
  match k with
  | 0 => (old + b) % 2 ^ 32
  | 1 => floatOp fpm 0 fp32 old b
  | 2 => floatOp fpm 1 fp32 old b
  | 3 => floatOp fpm 2 fp32 old b
  | 4 => old &&& b
  | 5 => old ||| b
  | 6 => old ^^^ b
  | _ => (Fl.pair (bf16.add fpm 0 false false (half old 0) (half b 0)) (bf16.add fpm 0 false false (half old 1) (half b 1))).code

/-- The tags of each operation's DATA. -/
def sopTags (k : Nat) : Nat → Bool :=
  match k with
  | 0 => intTags
  | 1 => tagIs tagF32
  | 2 => tagIs tagF32
  | 3 => tagIs tagF32
  | 7 => tagIs 0x13
  | _ => anyTag

/-- The alignment fault of a run of 4-byte elements. -/
def sopAlign (va n : Nat) : Option Cause :=
  if va % 4 = 0 then none else if va % 65536 + n > 65536 then some .atomicStraddle else some .misaligned

/-- SOP: an element-wise operation at memory (R282). -/
def execSop (w : MemWord) (s : State) : Host.Outcome State Fault Refusal :=
  match s.gang with
  | none => .next s
  | some g =>
    let lanes := g.executing w.c
    let k := w.order.toNat * 2 + (if w.cache then 1 else 0)
    let n := sizeBytes w.size.toNat
    let run := sizeRun w.size.toNat
    let plan := fun x =>
      match (s.wakeFault g.u.ctx ⟨.write, 1, true⟩ (g.laneVa w x) n).orElse fun _ => sopAlign (g.laneVa w x) n with
      | some c => .error ⟨c, g.laneVa w x, accessInfo true false 0⟩
      | none => s.plan g.u.ctx ⟨.write, 1, true⟩ (g.laneVa w x) n
    let regs := runRegs w.data.toNat run
    let badTag := fun (x : Nat × Nat) =>
      ((regs.filter (· < 0x100)).map fun r => ((g.u.lane x.1 x.2).getV r).tag.toNat).find? fun t => t != 0 && !sopTags k t
    let illegal := !addrOk g.head.regs true w.addr.toNat || !storeRunOk g.head.regs w.data.toNat run
    match g.memTrap s 0x14B w lanes (w.size.toNat < 2 || w.size.toNat ≥ 6) illegal (addrRegs w true ++ regs) badTag
        fun x => planFault (plan x) with
    | some t => .next (s.enterTrap g t)
    | none =>
      if g.sbFull w.c.sb lanes then .next s
      else
        let ps := fun x => planPieces (plan x)
        let s := (s.countReads g.u.ctx (lanes.map ps)).request g.u.core g.ref (lanes.flatMap ps) |>.2
        let element := fun (s : State) (pa b : Nat) =>
          if s.uncorrectableAt pa 4 then s.settleSectors g.u.ctx [(pa, 4)]
          else s.storeAll g.u.ctx [(pa, natLe 4 (sopElement g.c.fpmode k (s.natAt pa 4) b))]
        let value := fun (x : Nat × Nat) => (g.u.slice x.1).storeValue x.2 w.data.toNat n
        let s := lanes.foldl (init := s) fun s x =>
          let pas := (ps x).flatMap fun p => (List.range (p.len / 4)).map fun i => p.leaf.pa + 4 * i
          (pas.zipIdx).foldl (fun s e => element s e.1 (value x / 2 ^ (32 * e.2) % 2 ^ 32)) s
        let rs := lanes.flatMap fun x => (s.remoteParts 0 (pieceSpans (ps x))).map fun t =>
          ({ pa := t.1, purpose := .store,
             body := fun i => .sop i (BitVec.ofNat 64 t.1) g.c.fpmode k (((natLe n (value x)).drop t.2.2).take t.2.1) } : Remote)
        .next ((s.sendAll (g.asks false) rs).2.finishMem g w)

/-! ### Ordered additions (R280, R281) -/

/-- A launch's run. -/
def Launch.runRef (l : Launch) : RunRef := ⟨(l.cinch.map (·.generation)).getD 0, l.ctx, l.chip0, l.chips⟩

def RunWindow.is (run : RunRef) (scope set k : Nat) (w : RunWindow) : Bool :=
  w.run.generation == run.generation && w.scope == scope && w.set == set && w.k == k

/-- Change a run's window, which is there from its first contribution or signal on. -/
def State.modifyRunWindow (s : State) (run : RunRef) (scope set k : Nat) (f : RunWindow → RunWindow) : State :=
  let is := RunWindow.is run scope set k
  { s with runWindows :=
      if s.runWindows.any is then s.runWindows.map fun w => if is w then f w else w
      else s.runWindows ++ [f ⟨run, scope, set, k, [], []⟩] }

/-- A contribution to a word whose home is on this chip. -/
def State.contribute (s : State) (run : RunRef) (c : Contribution) : State :=
  s.modifyRunWindow run c.scope c.set c.k fun w => { w with contribs := w.contribs ++ [c] }

/-- Several contributions. -/
def State.contributeAll (s : State) (run : RunRef) (cs : List Contribution) : State := cs.foldl (fun s c => s.contribute run c) s

/-- A word's contributions go to their home banks: of an unreplicated launch to its own windows, of a replicated one to its run's, over a link
where the home is on another chip (R280, R383). -/
def State.addContributions (s : State) (g : Gang) (cs : List Contribution) : State :=
  if !g.l.replicated then s.modifyLaunch g.u.die g.u.lslot fun l => { l with contribs := l.contribs ++ cs }
  else
    let run := g.l.runRef
    let rs := (cs.filter fun c => fabChip c.pa != s.chip).map fun c =>
      ({ pa := c.pa, purpose := .store, body := fun n => .contribution n run c } : Remote)
    (s.sendAll (g.asks false) rs).2.contributeAll run (cs.filter fun c => fabChip c.pa == s.chip)

/-- ORDADD: a contribution to an open window; memory does not change. Where its bank is full and the save area has no room for the rest, the
launch aborts (R280). -/
def execOrdadd (w : MemWord) (s : State) : Host.Outcome State Fault Refusal :=
  match s.gang with
  | none => .next s
  | some g =>
    let lanes := g.executing w.c
    let n := atomicBytes w
    let e : AtomicEntry := { opc := 0x149, tags := some (tagF32, tagF64), op := fun _ old _ _ => old }
    let plan := fun x => s.plan g.u.ctx ⟨.write, n, true⟩ (g.laneVa w x) n
    let illegal := !addrOk g.head.regs true w.addr.toNat || !storeRunOk g.head.regs w.data.toNat (n / 4)
    match g.memTrap s 0x149 w lanes (atomicReserved w || w.order != 0 || w.cache) illegal
        (addrRegs w true ++ runRegs w.data.toNat (n / 4)) (e.badTag g w) fun x => planFault (plan x) with
    | some t => .next (s.enterTrap g t)
    | none =>
      if g.sbFull w.c.sb lanes then .next s
      else
        let pa := fun x => ((planPieces (plan x)).head?.map (·.leaf.pa)).getD 0
        let scope := w.scope.toNat
        let k := g.u.ocloses.getD scope 0 + 1
        let news : List Contribution := lanes.mapIdx fun i x =>
          { scope := scope, set := g.u.wset, k := k, pa := pa x, wide := w.size == 3, chip := s.chip, unitId := g.u.unitId,
            rank := unitLane (g.u.slice x.1) x.2, order := g.u.contribs + i,
            value := BitVec.ofNat 64 ((g.u.slice x.1).storeValue x.2 w.data.toNat n) }
        let word := fun (e : (Nat × Nat) × Nat) (i : Nat) =>
          ({ owner := g.owner e.1, va := BitVec.ofNat 64 (g.laneVa w e.1 + 4 * i), pa := pa e.1 + 4 * i,
             order := g.u.contribs + e.2 } : OrdWord)
        let words := if g.u.det then lanes.zipIdx.flatMap fun e => (List.range (n / 4)).map (word e) else []
        let r := (s.addContributions g news).growRoom g.u.die g.u.lslot
        let s := r.1.modifyUnit g.u.uid fun u => { u with contribs := u.contribs + lanes.length, ordWords := u.ordWords ++ words }
        .next (if r.2 then s.finishMem g w else s.abortLaunch g.u.die g.u.lslot ⟨4, 1, s.chip⟩ (0, 0, 0))

/-- OCLOSE: it acts when every gang of the unit has issued it; under .acq it then waits for the window (R281). -/
def execOclose (w : MemWord) (s : State) : Host.Outcome State Fault Refusal :=
  match s.gang with
  | none => .next s
  | some g =>
    let lanes := g.executing w.c
    let reserved := w.data != 0 || w.addr != 0 || w.ofs != 0 || w.size != 0 || w.cache || w.order.toNat > 1
    match g.memTrap s 0x14A w lanes reserved false [] noTagCheck (fun _ => none) with
    | some t => .next (s.enterTrap g t)
    | none =>
      if lanes = [] ∨ g.head.wait = .done then .next (s.finishMem g w)
      else match g.head.wait with
        | .window _ _ _ => .next s
        | _ =>
          let s := s.modifyUnit g.u.uid fun u => u.modifySlices g.ps fun sl =>
            { sl with ocloseAt := some w.scope.toNat, wait := .window w.scope.toNat 0 (w.order == 1) }
          .next (s.afterSlices g.u.uid)

/-- The order of a window's contributions (R281). -/
def Contribution.before (a b : Contribution) : Bool :=
  decide (a.chip < b.chip) || (a.chip == b.chip && (decide (a.unitId < b.unitId) || (a.unitId == b.unitId &&
    (decide (a.rank < b.rank) || (a.rank == b.rank && decide (a.order < b.order))))))

/-- Sum a window's contributions to one word (R281). -/
def State.sumWord (s : State) (ctx : Nat) (fpm : BitVec 4) (pa : Nat) (wide : Bool) (cs : List Contribution) : State :=
  let n := if wide then 8 else 4
  if s.uncorrectableAt pa n then s.settleSectors ctx [(pa, n)]
  else
    let add := fun (x : Nat) (c : Contribution) => ((atomFormat wide).add fpm 0 false false x (c.value.toNat % 2 ^ (8 * n))).code
    s.storeAll ctx [(pa, natLe n ((sortBy Contribution.before cs).foldl add (s.natAt pa n)))]

/-- Sum contributions word by word. -/
def State.sumWords (s : State) (ctx : Nat) (cs : List Contribution) : State :=
  let fpm := ((s.context ctx).map (·.fpmode)).getD 0
  (cs.map fun c => (c.pa, c.wide)).eraseDups.foldl (init := s) fun s w =>
    s.sumWord ctx fpm w.1 w.2 (cs.filter fun c => c.pa == w.1 && c.wide == w.2)

/-- A window of a launch is over: those that wait for it go on (R281). -/
def State.windowOver (s : State) (die slot scope set k : Nat) : State :=
  let s := s.modifyLaunch die slot fun l => { l with closed := l.closed ++ [(scope, set, k)] }
  { s with units := s.units.map fun u =>
      if u.die = die ∧ u.lslot = slot ∧ u.wset = set then
        { u with slices := u.slices.map fun sl => if sl.wait = .window scope k true then { sl with wait := .done } else sl }
      else u }

/-- The additions of a window whose word has its home on another chip, in the window's order: no other chip takes part in it (R281, R383). -/
def State.remoteSums (s : State) (fpm : BitVec 4) (cs : List Contribution) : List Remote :=
  (sortBy Contribution.before (cs.filter fun c => fabChip c.pa != s.chip)).map fun c =>
    { pa := c.pa, purpose := .store, body := fun n => .atomic n (BitVec.ofNat 64 c.pa) fpm 0x14C c.wide c.value 0 }

/-- Close window k of a scope of a set: each word's contributions are summed, and the waiters go on (R281). -/
def State.closeWindow (s : State) (die slot scope set k : Nat) : State :=
  match s.launch? die slot with
  | none => s
  | some l =>
    let mine := fun (c : Contribution) => c.scope == scope && c.set == set && c.k == k
    let cs := l.contribs.filter mine
    let fpm := ((s.context l.ctx).map (·.fpmode)).getD 0
    let s := (s.sumWords l.ctx cs).modifyLaunch die slot fun l => { l with contribs := l.contribs.filter fun c => !mine c }
    ((s.sendAll { (default : LinkRequest) with die := die, lslot := slot } (s.remoteSums fpm cs)).2).windowOver die slot scope set k

/-! ### Windows of a replica run (R383) -/

/-- Every chip of the run has closed the window, or its units have all exited. -/
def State.runWindowDone (s : State) (w : RunWindow) : Bool :=
  (List.range w.run.chips).all fun i =>
    w.signals.any (·.1 == w.run.chip0 + i) || s.runEnds.contains (w.run.generation, w.run.chip0 + i)

/-- The answer to a signal, where it came over a link. -/
def State.answerTo (s : State) (back : Option (Nat × Nat)) : State :=
  match back with
  | some (link, id) => s.answerFlit link id []
  | none => s

/-- A run's window closes at this chip's homes: the sums are written, and every chip learns of it. -/
def State.closeRunWindow (s : State) (w : RunWindow) : State :=
  let s := { s.sumWords w.run.ctx w.contribs with runWindows := s.runWindows.filter fun x => !RunWindow.is w.run w.scope w.set w.k x }
  w.signals.foldl (fun s x => s.answerTo x.2) s

/-- Every window of a run that may close does, in ascending k. -/
def State.closeRunWindows (s : State) : State :=
  (sortBy (fun (a b : RunWindow) => decide (a.k < b.k)) (s.runWindows.filter s.runWindowDone)).foldl State.closeRunWindow s

/-- A chip of a run has closed a window, or its units have all exited. -/
def State.runSignal (s : State) (run : RunRef) (chip : Nat) (window : Option (Nat × Nat × Nat)) (back : Option (Nat × Nat)) : State :=
  match window with
  | some (scope, set, k) =>
    (s.modifyRunWindow run scope set k fun w => { w with signals := w.signals ++ [(chip, back)] }).closeRunWindows
  | none => ({ s with runEnds := s.runEnds ++ [(run.generation, chip)] }.answerTo back).closeRunWindows

/-- This chip tells its run that it has closed a window, or that its units have all exited. -/
def State.signalRun (s : State) (l : Launch) (window : Option (Nat × Nat × Nat)) : State :=
  let run := l.runRef
  let purpose := match window with | some (a, b, c) => Purpose.close a b c | none => .store
  let others := ((List.range run.chips).map (run.chip0 + ·)).filter (· != s.chip)
  let rs := others.map fun c => ({ pa := c * 2 ^ 48, purpose := purpose, body := fun n => .closed n run s.chip window } : Remote)
  ((s.sendAll { (default : LinkRequest) with die := l.die, lslot := l.slot } rs).2).runSignal run s.chip window none

/-- Whether a request is the signal of a window's close. -/
def Purpose.closes : Purpose → Bool
  | .close _ _ _ => true
  | _ => false

/-- Nothing of a launch but signals is on its way: every contribution has reached its home. -/
def State.runQuiet (s : State) (l : Launch) : Bool := (s.launchRequests l.die l.slot).all (·.purpose.closes)

/-- A window of a set of a replicated launch is open at this chip's homes. -/
def State.setOpen (s : State) (l : Launch) (set : Nat) : Bool :=
  l.replicated && s.runWindows.any fun w => w.run.generation == l.runRef.generation && w.set == set

/-- A window of a replicated launch is open here, or at another chip's homes once this one has closed it. -/
def State.runOpen (s : State) (l : Launch) : Bool :=
  l.replicated && (s.runWindows.any (fun w => w.run.generation == l.runRef.generation) || (s.launchRequests l.die l.slot).any (·.purpose.closes))

/-- The units of a window set. -/
def State.setUnits (s : State) (l : Launch) (set : Nat) : List WorkUnit :=
  s.units.filter fun u => u.die == l.die && u.lslot == l.slot && u.wset == set

/-- Whether every unit of a window set has started (R281): those of a grid or a frontier all belong to one. -/
def Launch.allStarted (l : Launch) (set : Nat) : Bool :=
  match l.kind, l.domain, l.pool with
  | 0, _, _ => decide (l.nextUnit ≥ l.unitsTotal)
  | 1, _, _ => l.frontier.all fun f => decide (f.completed + f.dispatched.length ≥ l.unitsTotal)
  | _, some d, _ => set != d.batchNo || d.gangs.isEmpty
  | _, _, some p => !l.det || set != p.round || p.tasks.isEmpty
  | _, _, _ => true

/-- Every unit of a set of this chip has completed k OCLOSEs of the scope or has exited, and the windows before k are closed (R281). -/
def State.unitsClosed (s : State) (l : Launch) (scope set k : Nat) : Bool :=
  let all := (s.setUnits l set).all fun u => u.residence == .exited || u.ocloses.getD scope 0 ≥ k
  !l.closed.contains (scope, set, k) && k ≥ 1 && (k == 1 || l.closed.contains (scope, set, k - 1)) && all && l.allStarted set

/-- Whether window k of a scope of a set may close (R281). -/
def State.windowReady (s : State) (l : Launch) (scope set k : Nat) : Bool :=
  let us := s.setUnits l set
  s.unitsClosed l scope set k &&
    (l.contribs.any (fun c => c.scope == scope && c.set == set && c.k == k) || us.any fun u => u.ocloses.getD scope 0 ≥ k)

/-- A window of a replicated launch: this chip signals its close once its own units have and every contribution of theirs has arrived; it is
over here once every home has written it (R281, R383). -/
def State.closeShared (s : State) (l : Launch) (scope set k : Nat) : State :=
  let w := (scope, set, k)
  if l.signals.contains w then
    let waits := ((s.launchRequests l.die l.slot).any (·.purpose == .close scope set k)) || s.runWindows.any (RunWindow.is l.runRef scope set k)
    if waits || l.closed.contains w then s else s.windowOver l.die l.slot scope set k
  else if s.unitsClosed l scope set k && s.runQuiet l then
    (s.modifyLaunch l.die l.slot fun l => { l with signals := l.signals ++ [w] }).signalRun l (some w)
  else s

/-- WINDOW_CLOSE: a window that may close does (R281). -/
def execWindowClose (die slot scope set k : Nat) (s : State) : Host.Outcome State Fault Refusal :=
  match s.launch? die slot with
  | none => .next s
  | some l =>
    if l.replicated then .next (s.closeShared l scope set k)
    else if s.windowReady l scope set k then .next (s.closeWindow die slot scope set k) else .next s

/-- Close every window of a set still open, in ascending k within each scope: the set has ended (R281). -/
def State.closeSet (s : State) (die slot set : Nat) : State :=
  match s.launch? die slot with
  | none => s
  | some l =>
    [0, 1, 2, 3].foldl (init := s) fun s scope =>
      let ks := sortedNats ((l.contribs.filter fun c => c.scope == scope && c.set == set).map (·.k))
      ks.foldl (fun s k => s.closeWindow die slot scope set k) s

end Sys2Proof.Machine
end

