-- ==== Sys2Proof/Machine/Frames.lean ====
section
/-! DEFINITION. What the page tables name: valid entries, frames in use and free (R259), an entry's level (R249), and the hint records that its
entries carry (R260). -/

namespace Sys2Proof.Machine

/-! ### What the page tables name (R248, R249, R259) -/

/-- A valid page-table entry: its context, walk level, lowest index bit, fabric address and value. -/
structure MapEntry where
  ctx : Nat
  level : Nat
  low : Nat
  pte : Nat
  value : Nat
  deriving DecidableEq, Repr, Inhabited

/-- The local address an entry names. -/
def MapEntry.frame (e : MapEntry) : Nat := bitsOf e.value 47 16 * 65536

def MapEntry.isLeaf (e : MapEntry) : Bool := bitOf e.value 1

/-- 64 KiB frames an entry names: 8,192 for a 512 MiB leaf. -/
def MapEntry.frames (e : MapEntry) : Nat := if e.isLeaf then 2 ^ (e.low - 16) else 1

/-- Eight-byte words of sorted memory cells that are not zero. -/
def groupWords : List Host.Cell → List (Nat × Nat)
  | [] => []
  | (a, b) :: t =>
    let v := b.toNat * 256 ^ (a % 8)
    match groupWords t with
    | (k, x) :: r => if k = a / 8 * 8 then (k, v + x) :: r else (a / 8 * 8, v) :: (k, x) :: r
    | [] => [(a / 8 * 8, v)]

/-- The valid entries of the table page at a local address: fabric address and value. -/
def State.tableEntries (s : State) (table : Nat) : List (Nat × Nat) :=
  let a := s.fab table
  (groupWords (s.mem.filter fun c => decide (a ≤ c.1 ∧ c.1 < a + 65536))).filter fun e => bitOf e.2 0

/-- The valid entries that a walk from a table can meet, over the levels still to walk. -/
def State.subEntries (s : State) (ctx table : Nat) : List (Nat × Nat) → List MapEntry
  | [] => []
  | (level, low) :: rest =>
    (s.tableEntries table).flatMap fun e =>
      let m : MapEntry := ⟨ctx, level, low, e.1, e.2⟩
      if m.isLeaf then (if level = 1 then [] else [m])
      else if level ≠ 3 ∧ tableEntryOk e.2 then m :: s.subEntries ctx m.frame rest
      else []

/-- The valid entries of every context. -/
def State.mapEntries (s : State) : List MapEntry := s.contexts.flatMap fun c => s.subEntries c.num c.root walkLevels

/-- Whether an entry names memory of this chip. -/
def State.namesOwn (s : State) (e : MapEntry) : Bool := !e.isLeaf || bitsOf e.value 60 48 == s.chip

/-- Runs of frames in use: what entries name, and context 0's page tables. The allocated parts of save areas are virtual, and the
leaves of their pages name their frames (R259, R427). -/
def State.namedFrames (s : State) : List (Nat × Nat) :=
  sortBy (fun a b => decide (a.1 ≤ b.1))
    ((bootRoot / 65536, 16) :: (s.mapEntries.filter s.namesOwn).map fun e => (e.frame / 65536, e.frames)).reverse

/-- The runs of [lo, hi) outside sorted runs. -/
def gaps (lo hi : Nat) : List (Nat × Nat) → List (Nat × Nat)
  | [] => if lo < hi then [(lo, hi - lo)] else []
  | (a, n) :: t =>
    let next := max lo (a + n)
    if lo < min a hi then (lo, min a hi - lo) :: gaps next hi t else gaps next hi t

/-- The frames of a die's HBM and of its capacity tier: first, end (R9, R245). -/
def hbmFrames (die : Nat) : Nat × Nat := (3 * 2 ^ 20 * die, 3 * 2 ^ 20 * (die + 1))
def capacityFrames (die : Nat) : Nat × Nat := (0x10000000 + 0xC00000 * die, 0x10000000 + 0xC00000 * (die + 1))

/-- Free runs of a range of frames, as last counted. -/
def State.freeRuns (s : State) (r : Nat × Nat) : List (Nat × Nat) := gaps r.1 r.2 s.usedFrames

/-- A die's free HBM frames, as last counted. -/
def State.freeHbm (s : State) (die : Nat) : Nat := ((s.freeRuns (hbmFrames die)).map (·.2)).sum

/-- The lowest k free frames that stand together, aligned to k. -/
def lowestRun (k : Nat) (runs : List (Nat × Nat)) : Option Nat :=
  runs.findSome? fun r =>
    let a := (r.1 + k - 1) / k * k
    if a + k ≤ r.1 + r.2 then some a else none

/-- An engine starts below its mark and stops at twice the mark (R259). -/
def State.setEvicting (s : State) : State :=
  let mark := fun (i : Nat) (d : Die) =>
    let free := s.freeHbm i
    { d with evicting := decide (free < d.lowWater) || (d.evicting && decide (free < 2 * d.lowWater)) }
  { s with dies := s.dies.mapIdx mark }

/-- The device counts free frames again: at boot, at each PT_UPDATE and PT_INVALIDATE, and after each move (R259). -/
def State.recountFrames (s : State) : State := { s with usedFrames := s.namedFrames }.setEvicting

/-! ### What follows the entries (R249, R250, R260) -/

/-- The table pages of a context's walks with their levels. -/
def State.tableLevels (s : State) (ctx : Nat) : List (Nat × Nat) :=
  match s.context ctx with
  | none => []
  | some c => (c.root, 1) :: ((s.subEntries c.num c.root walkLevels).filter (!·.isLeaf)).map fun e => (e.frame, e.level + 1)

/-- Whether a valid entry keeps R249 at a walk level. -/
def State.entryOkAt (s : State) (level e : Nat) : Bool :=
  if bitOf e 1 then level != 1 && s.leafEntryOk level e else level != 3 && tableEntryOk e

/-- Whether an entry written at a local address keeps R249 at every level at which its page serves the context; in a page that serves at
none, at some level. -/
def State.entryOk (s : State) (ctx a e : Nat) : Bool :=
  !bitOf e 0 ||
  (let levels := ((s.tableLevels ctx).filter fun t => t.1 == a / 65536 * 65536).map (·.2)
   if levels = [] then [1, 2, 3].any fun l => s.entryOkAt l e else levels.all fun l => s.entryOkAt l e)

/-- Whether an entry's page or table meets the pages that hold context 0's page table (R454). -/
def MapEntry.meetsBoot (e : MapEntry) : Bool := decide (e.frame < bootRoot + 0x100000 ∧ bootRoot < e.frame + 65536 * e.frames)

/-- A hint record lasts as long as its leaf entry names its page (R260): the others fall back to the defaults. -/
def State.pruneHints (s : State) : State :=
  if s.hints = [] then s
  else
    let es := s.mapEntries
    let held := fun (h : Nat × HintRec) => es.any fun e =>
      e.isLeaf && bitOf e.value 6 && e.pte == h.1 && e.low == h.2.logSize && s.fab e.frame == h.2.base
    { s with hints := s.hints.filter held }

end Sys2Proof.Machine
end

