-- ==== Sys2Proof/Machine/Boot.lean ====
section
/-! DEFINITION. Reset and boot (R453, R454): the boot images, context 0 with its page table, the administration queues and the boot
windows. -/

namespace Sys2Proof.Machine

/-! ### The page table of context 0 (R454) -/

def bootLevel2 : Nat := bootRoot + 0x10000
def bootLevel3 : Nat := bootRoot + 0x20000

/-- A leaf of kind RC, W = 1, X = 0, MOV = 0 (R249). -/
def bootLeaf (chip frame : Nat) : Nat := 0x17 + frame + chip * 2 ^ 48

/-- The table's entries, by rising local address: VA 0 to 0xFFFF_FFFF in 64 KiB leaves, the wake region in 512 MiB leaves. -/
def bootEntries (chip : Nat) : List (Nat × Nat) :=
  [(bootRoot, bootLevel2 + 1)] ++
  (List.range 8).map (fun k => (bootLevel2 + 8 * k, bootLevel3 + 0x10000 * k + 1)) ++
  (List.range 2048).map (fun k => (bootLevel2 + 8 * (2048 + k), bootLeaf chip (0xFE0000000000 + k * 2 ^ 29))) ++
  (List.range 65536).map fun k => (bootLevel3 + 8 * k, bootLeaf chip (65536 * k))

/-- The bytes of an entry that are not zero. -/
def entryCells (pa e : Nat) : List Host.Cell :=
  ((natLe 8 e).zipIdx.filter fun b => b.1 != 0).map fun b => (pa + b.2, b.1)

/-- Cells put in place of a stretch of memory. -/
def spliceCells (mem : List Host.Cell) (lo hi : Nat) (new : List Host.Cell) : List Host.Cell :=
  mem.filter (fun c => decide (c.1 < lo)) ++ new ++ mem.filter fun c => decide (hi ≤ c.1)

/-- Write context 0's page table, its leaves with the chip number in force. -/
def State.writeBootTables (s : State) : State :=
  let base := s.chip * 2 ^ 48
  let cells := (bootEntries s.chip).flatMap fun e => entryCells (base + e.1) e.2
  { s with mem := spliceCells s.mem (base + bootRoot) (base + bootRoot + 0x100000) cells }

/-- The package's own memory keeps its contents under a new chip number. -/
def State.rechip (s : State) (chip : Nat) : State :=
  let old := s.chip * 2 ^ 48
  let new := chip * 2 ^ 48
  let mine := fun (a : Nat) => decide (old ≤ a ∧ a < old + 2 ^ 48)
  let cells := (s.mem.filter fun c => mine c.1).map fun c => (c.1 - old + new, c.2)
  let move := fun (a : Nat) => if mine a then a - old + new else a
  let rekey := fun (h : Nat × HintRec) => (move h.1, { h.2 with base := move h.2.base })
  let hints := (s.hints.filter fun h => mine h.1).map rekey
  { s with
    mem := spliceCells (s.mem.filter fun c => !mine c.1) new (new + 2 ^ 48) cells
    hints := (s.hints.filter fun h => !mine h.1 && decide (h.1 < new)) ++ hints ++
      s.hints.filter fun h => !mine h.1 && decide (new + 2 ^ 48 ≤ h.1)
    badSectors := s.badSectors.map move
    chip := chip, chips := [chip] }

/-! ### The boot images (R453) -/

/-- A digest as its 32 bytes. -/
def digestBytes (d : BitVec 256) : List Byte := natLe 32 d.toNat

/-- The ROM of a die accepts an image. -/
def State.imageOk (s : State) (minimum : DWord) (i : BootImage) : Bool :=
  Config.sha256 i.bytes == i.digest && Config.slhDsaVerify s.rootKey (digestBytes i.digest) i.signature &&
  Config.sha256 s.rootKey == s.rootDigest && decide (minimum ≤ i.svn)

/-- Every die accepts the Tack, search-unit and link images. -/
def State.bootOk (s : State) : Bool :=
  s.flash.length == 3 && s.minSvn.all fun m => s.flash.all (s.imageOk m)

/-! ### What stands after boot (R454) -/

/-- Context 0: it has no weight, vector table, save area or FP mode word. -/
def adminContext : Context :=
  { num := 0, weight := 0, fpmode := 0, root := bootRoot, vectab := 0, saveBase := 0, saveLen := 0, saveUsed := [], step := 0,
    elided := 0, saves := [] }

/-- Queue 0 of die d. -/
def adminQueue (d : Nat) : Queue :=
  let base := 0x10000000 + d * 0x100000
  { num := 0, base := BitVec.ofNat 64 base, logsz := 6, ctx := 0, rdptr := BitVec.ofNat 64 (base + 0x2000),
    faultrec := BitVec.ofNat 64 (base + 0x2040), rd := 0, tail := 0, stopped := false, crcReads := 0, crcDue := 0 }

/-- The boot windows of every port. -/
def bootWindows : List Window :=
  [{ num := 0, ctx := 0, va := 0, len := 2 ^ 32, key := 0 }, { num := 1, ctx := 0, va := 0x010000000000, len := 2 ^ 40, key := 0 }]

/-- The Tack image as a die's instruction store, from address 0 on (entry 24). -/
def storeImage (bs : List Byte) : List (Nat × Byte) := bs.zipIdx.map fun b => (b.2, b.1)

/-- Every state element at its reset value; what the package keeps through a reset: memory's contents (entry 24), the fuses, the boot
flash, the identity, the cores in service, what its sensors read, and the model's schedule. -/
def State.afterReset (s : State) : State :=
  let s := s.rechip 0
  { State.reset with
    clock := s.clock, agenda := s.agenda, freeIdx := s.freeIdx, nextId := s.nextId, flash := s.flash, rootDigest := s.rootDigest,
    rootKey := s.rootKey, minSvn := s.minSvn, resets := s.resets + 1, idKey := s.idKey, idCert := s.idCert,
    inService := s.inService, power := s.power, temps := s.temps, mem := s.mem, badSectors := s.badSectors }

/-- Context 0, the administration queues, the boot windows and the firmware, then the ports come up. -/
def State.bringUp (s : State) : State :=
  let image := ((s.flash.head?).map (·.bytes)).getD []
  let up := fun (i : Nat) (d : Die) => { d with queues := [adminQueue i], windows := bootWindows, firmware := storeImage image }
  let s := s.writeBootTables
  { s with contexts := [adminContext], dies := s.dies.mapIdx up, booted := true, portsUp := true }.recountFrames

/-- RESET: power-on or reset; where an image fails the ports stay down and nothing runs (R453, R454). -/
def execReset (s : State) : Host.Outcome State Fault Refusal :=
  let s := s.afterReset
  .next (if s.bootOk then s.bringUp else { s with bootFailed := true })

end Sys2Proof.Machine
end

