-- ==== Sys2Proof/Machine/Control.lean ====
section
/-! DEFINITION. Control flow: branches, calls and returns, the end of lanes, fusion (R185-R197), and cohorts (R198-R201). -/

namespace Sys2Proof.Machine

/-! ### Shared courses -/

/-- PRED and PNEG of a word that is "p7 only" (R185). -/
def p7Bad (c : Common) : Bool := c.pred != 7 || c.pneg

/-- The trap of a control-body word, if any: MOD and OFS bits beyond the named ones are reserved (R42, R185). -/
def Gang.ctlTrap (g : Gang) (s : State) (opc : Nat) (w : CtlWord) (lanes : List (Nat × Nat)) (p7 : Bool) (mods ofs : Nat) :
    Option Trap :=
  let bad := (p7 && p7Bad w.c) || (w.m &&& (63 - mods)) != 0 || (w.ofs.toNat &&& (2 ^ 36 - 1 - ofs)) != 0
  if lanes = [] then none
  else (g.decodeFault s opc 1 bad false).map fun c => g.trapAt c (g.maskOf lanes) 0

/-- The trap of a control word with the standard body, if any. -/
def Gang.stdTrap (g : Gang) (s : State) (opc : Nat) (w : StdWord) (lanes : List (Nat × Nat)) (e : AluEntry) : Option Trap :=
  if lanes = [] then none
  else g.aluTrap s opc (sourceWords w.srcB) lanes [e.op w] (e.reserved || e.modBad w) e.illegal

/-- A word that has no effect of its own. -/
def State.noEffect (s : State) (g : Gang) (opc : Nat) (w : CtlWord) : State :=
  match g.ctlTrap s opc w g.activePlaces true 0 0 with
  | some t => s.enterTrap g t
  | none => s.finishWord g w.c.y 1

/-! ### Destinations of branches (R43, R186) -/

/-- The header of the clause the gang is in. -/
def Gang.header (g : Gang) : DWord := (g.head.clause.map (·.header)).getD g.pc

/-- A destination: an offset in 8-byte words from the header (R42). -/
def Gang.target (g : Gang) (n : Nat) (ofs : Nat) : DWord := g.header + BitVec.ofInt 64 (8 * sext ofs n)

/-- Why a destination fails, in the order of R44 item 9, with the walk level. -/
def State.destFault (s : State) (ctx : Nat) (a : DWord) : Option (Cause × Nat) :=
  if !canonicalVa a.toNat || a.toNat % 8 != 0 then some (.branchTarget, 0)
  else match s.fetch ctx a with
    | .error f => some (f.cause, f.level)
    | .ok w => if wordBits w 63 56 = 0xC5 then none else some (.branchTarget, 0)

/-- The least address of a list. -/
def leastAddr (l : List DWord) : Option DWord := (sortBy (fun (a b : DWord) => decide (a.toNat < b.toNat)) l).head?

/-- The trap of a branch whose destinations fail (R43, R186): every active lane is named; each lane's detail is the lowest of
its own failing destinations. `dests` gives each lane's destinations; the lowest failing address of the word decides the cause
(entry 12). -/
def Gang.branchTrap (g : Gang) (s : State) (dests : Nat × Nat → List DWord) : Option Trap :=
  let all := (g.activePlaces.flatMap dests).eraseDups
  match leastAddr (all.filter fun a => (s.destFault g.u.ctx a).isSome) with
  | none => none
  | some a =>
    let f := (s.destFault g.u.ctx a).getD (.branchTarget, 0)
    let bad := fun gl => match g.activePlaces.find? fun x => g.u.gangLane x.1 x.2 == gl with
      | some x => leastAddr ((dests x).filter fun d => (s.destFault g.u.ctx d).isSome)
      | none => none
    some { g.trapAt f.1 (g.maskOf g.activePlaces) 0 with
           addr := fun gl => (bad gl).getD 0,
           info := fun gl => match bad gl with
             | some d => match s.destFault g.u.ctx d with
               | some (.branchTarget, _) => 0
               | some (_, level) => accessInfo false true level
               | none => 0
             | none => 0 }

/-- The entry checks of a call's targets (R23, R192): BAD_ENTRY before CALL_BUDGET (R44 item 10). -/
def Gang.entryTrap (g : Gang) (s : State) (dests : Nat × Nat → List DWord) : Option Trap :=
  let fault := fun (a : DWord) => match s.fetch g.u.ctx a with
    | .ok w => entryFault w g.head.regs
    | .error _ => none
  let all := (g.activePlaces.flatMap dests).eraseDups
  let causes := all.filterMap fault
  if causes = [] then none
  else
    let cause := if causes.contains .badEntry then Cause.badEntry else .callBudget
    some { g.trapAt cause (g.maskOf g.activePlaces) 0 with
           addr := fun gl => match g.activePlaces.find? fun x => g.u.gangLane x.1 x.2 == gl with
             | some x => (leastAddr ((dests x).filter fun d => (fault d).isSome)).getD 0
             | none => 0 }

/-- A trap where a push would pass 32 entries (R151). -/
def Gang.stackTrap (g : Gang) (push : Slice → Nat) : Option Trap :=
  if g.ps.any fun p => (g.u.slice p).stack.length + push (g.u.slice p) > 32 then
    some (g.trapAt .reconvOverflow (g.maskOf g.activePlaces) 0)
  else none

/-- The first trap of a list of checks. -/
def firstTrap : List (Option Trap) → Option Trap
  | [] => none
  | some t :: _ => some t
  | none :: rest => firstTrap rest

/-- Take the trap, or move the gang's slices and finish. -/
def State.jumpWord (s : State) (g : Gang) (y : Bool) (t : Option Trap) (move : Nat → Slice → Slice) : State :=
  match t with
  | some t => s.enterTrap g t
  | none =>
    let s := s.modifyUnit g.u.uid fun u =>
      { u with slices := u.slices.mapIdx fun p sl => if g.ps.contains p then move p sl else sl }
    s.finishJump g y

/-! ### Branches (R189-R191) -/

/-- BRA: every active lane goes to the target. -/
def execBra (w : CtlWord) (s : State) : Host.Outcome State Fault Refusal :=
  match s.gang with
  | none => .next s
  | some g =>
    let t := g.target 36 w.ofs.toNat
    let trap := firstTrap [g.ctlTrap s 0x1C0 w g.activePlaces true 0 (2 ^ 36 - 1), g.branchTrap s fun _ => [t]]
    .next (s.jumpWord g w.c.y trap fun _ sl => sl.jump t)

/-- Whether the top of the stack is the join entry of an address (R190). -/
def Slice.topJoin (sl : Slice) (join : DWord) : Bool :=
  match sl.stack with
  | e :: _ => e.kind == .join && e.addr == join
  | [] => false

/-- Push a join entry unless it stands on top already (R190, R191). -/
def Slice.pushJoin (sl : Slice) (join : DWord) : Slice :=
  if sl.topJoin join then sl else { sl with stack := ⟨.join, join, sl.live⟩ :: sl.stack }

/-- The active lanes of a slice whose condition holds (R190). -/
def Slice.condition (sl : Slice) (c : Common) : BitVec 4 :=
  BitVec.ofNat 4 (Machine.maskOf ([0, 1, 2, 3].filter fun j => sl.live.getLsbD j && (sl.lane j).guard c.pred c.pneg))

/-- Whether BRC divides the slice's lanes and must push (R190). -/
def Slice.brcPushes (sl : Slice) (c : Common) (join : DWord) : Nat :=
  let k := sl.condition c
  if k = sl.live ∨ k = 0 ∨ sl.topJoin join then 0 else 1

/-- BRC in one slice (R190). -/
def Slice.brc (sl : Slice) (c : Common) (target join : DWord) : Slice :=
  let k := sl.condition c
  if k = sl.live then sl.jump target
  else if k = 0 then sl.jump join
  else { (sl.pushJoin join).jump target with active := k }

/-- BRC: lanes whose condition holds go to the target, the others wait at the join. -/
def execBrc (w : CtlWord) (s : State) : Host.Outcome State Fault Refusal :=
  match s.gang with
  | none => .next s
  | some g =>
    let target := g.target 18 (bitsOf w.ofs.toNat 35 18)
    let join := g.target 18 (bitsOf w.ofs.toNat 17 0)
    let trap := firstTrap [g.ctlTrap s 0x1C1 w g.activePlaces false 0 (2 ^ 36 - 1), g.branchTrap s fun _ => [target, join],
      g.stackTrap fun sl => sl.brcPushes w.c join]
    .next (s.jumpWord g w.c.y trap fun _ sl => sl.brc w.c target join)

/-- A source pair of addresses: an even v or s pair (R185). -/
def pairSpecOk (regs spec : Nat) : Bool := vRunOk regs spec 2 2 || sRunOk spec 2 2

/-- The registers of a pair, by specifier. -/
def pairRegs (spec : Nat) : List Nat := if spec < 0x150 then [spec, spec + 1] else []

/-- The address a pair holds in a lane. -/
def Slice.pairAt (sl : Slice) (j spec : Nat) : DWord :=
  BitVec.ofNat 64 ((sl.getSpec j spec).val.toNat + (sl.getSpec j (spec + 1)).val.toNat * 2 ^ 32)

/-- The groups of a slice's active lanes by target, in ascending target (R191). -/
def Slice.groups (sl : Slice) (target : Nat → DWord) : List (DWord × BitVec 4) :=
  let lanes := [0, 1, 2, 3].filter fun j => sl.live.getLsbD j
  let ts := sortBy (fun (a b : DWord) => decide (a.toNat < b.toNat)) ((lanes.map target).eraseDups)
  ts.map fun t => (t, BitVec.ofNat 4 (Machine.maskOf (lanes.filter fun j => target j == t)))

/-- Run the first group and stack the others as resume entries, the second on top (R191, R192). -/
def Slice.runGroups (sl : Slice) (gs : List (DWord × BitVec 4)) : Slice :=
  match gs with
  | [] => sl
  | (t, m) :: rest =>
    let entries := rest.map fun x => (⟨.resume, x.1, x.2⟩ : StackEntry)
    { sl.jump t with active := m, stack := entries ++ sl.stack }

/-- BRX in one slice (R191). -/
def Slice.brx (sl : Slice) (gs : List (DWord × BitVec 4)) (join : DWord) : Slice :=
  match gs with
  | [(t, _)] => sl.jump t
  | _ => (sl.pushJoin join).runGroups gs

/-- Entries BRX pushes. -/
def Slice.brxPushes (sl : Slice) (gs : List (DWord × BitVec 4)) (join : DWord) : Nat :=
  if gs.length ≤ 1 then 0 else gs.length - 1 + (if sl.topJoin join then 0 else 1)

/-- BRX: each lane to its own target, one target at a time. -/
def execBrx (w : StdWord) (s : State) : Host.Outcome State Fault Refusal :=
  match s.gang with
  | none => .next s
  | some g =>
    let b := match w.srcB with | .spec x => x.toNat | _ => 0
    let a := w.srcA.toNat
    let e : AluEntry := { reserved := p7Bad w.c, dst := .unused, a := .field, b := .field, reads := pairRegs a ++ pairRegs b,
                          illegal := !pairSpecOk g.head.regs a || !sRunOk b 2 2, fn := fun _ _ _ _ _ => {} }
    let join := fun p => (g.u.slice p).pairAt 0 b
    let groups := fun (p : Nat) (sl : Slice) => sl.groups fun j => (g.u.slice p).pairAt j a
    let trap := firstTrap [g.stdTrap s 0x110 w g.activePlaces e,
      g.branchTrap s fun x => [(g.u.slice x.1).pairAt x.2 a, join x.1],
      if g.ps.any fun p => (g.u.slice p).stack.length + (g.u.slice p).brxPushes (groups p (g.u.slice p)) (join p) > 32 then
        some (g.trapAt .reconvOverflow (g.maskOf g.activePlaces) 0) else none]
    let trap := trap.map fun t => { t with dst := fun _ => w.dst }
    .next (s.jumpWord g w.c.y trap fun p sl => sl.brx (groups p sl) (join p))

/-! ### Calls and returns (R192, R193) -/

/-- The return point: the clause after the calling one (R19, R187). -/
def Gang.returnPoint (g : Gang) : DWord :=
  match g.head.clause with
  | some c => c.header + BitVec.ofNat 64 (8 * (c.count + 1))
  | none => g.pc + 8

/-- CALL: checks the target's entry header, pushes the return point (R192). -/
def execCall (w : CtlWord) (s : State) : Host.Outcome State Fault Refusal :=
  match s.gang with
  | none => .next s
  | some g =>
    let t := g.target 36 w.ofs.toNat
    let trap := firstTrap [g.ctlTrap s 0x1C2 w g.activePlaces true 0 (2 ^ 36 - 1), g.branchTrap s fun _ => [t],
      g.entryTrap s fun _ => [t], g.stackTrap fun _ => 1]
    .next (s.jumpWord g w.c.y trap fun _ sl => { sl.jump t with stack := ⟨.ret, g.returnPoint, sl.live⟩ :: sl.stack })

/-- CALLI: per-lane targets; the return entry first, then resume entries (R192). -/
def execCalli (w : StdWord) (s : State) : Host.Outcome State Fault Refusal :=
  match s.gang with
  | none => .next s
  | some g =>
    let a := w.srcA.toNat
    let e : AluEntry := { reserved := p7Bad w.c, dst := .unused, a := .field, reads := pairRegs a,
                          illegal := !pairSpecOk g.head.regs a, fn := fun _ _ _ _ _ => {} }
    let groups := fun (p : Nat) (sl : Slice) => sl.groups fun j => (g.u.slice p).pairAt j a
    let dests := fun (x : Nat × Nat) => [(g.u.slice x.1).pairAt x.2 a]
    let trap := firstTrap [g.stdTrap s 0x111 w g.activePlaces e, g.branchTrap s dests, g.entryTrap s dests,
      if g.ps.any fun p => (g.u.slice p).stack.length + (groups p (g.u.slice p)).length > 32 then
        some (g.trapAt .reconvOverflow (g.maskOf g.activePlaces) 0) else none]
    .next (s.jumpWord g w.c.y trap fun p sl =>
      Slice.runGroups { sl with stack := ⟨.ret, g.returnPoint, sl.live⟩ :: sl.stack } (groups p sl))

/-- Entries above the topmost return entry, that entry, and those below (R193). -/
def splitAtReturn : List StackEntry → List StackEntry × List StackEntry
  | [] => ([], [])
  | e :: t => if e.kind = .ret then ([], e :: t) else let r := splitAtReturn t; (e :: r.1, r.2)

/-- RET in one slice: the active lanes leave the joins above the return entry and wait in it (R193). -/
def Slice.ret (sl : Slice) : Slice :=
  let r := splitAtReturn sl.stack
  let above := r.1.map fun e => if e.kind = .join then { e with mask := e.mask &&& ~~~sl.live } else e
  { sl.jump ((r.2.head?.map (·.addr)).getD sl.pc) with stack := above ++ r.2, active := 0 }

/-- RET: without a return entry it faults BAD_ENTRY (R193). -/
def execRet (w : CtlWord) (s : State) : Host.Outcome State Fault Refusal :=
  match s.gang with
  | none => .next s
  | some g =>
    let trap := firstTrap [g.ctlTrap s 0x1C3 w g.activePlaces true 0 0,
      if g.ps.any fun p => (splitAtReturn (g.u.slice p).stack).2 = [] then
        some (g.trapAt .badEntry (g.maskOf g.activePlaces) 0) else none]
    .next (s.jumpWord g w.c.y trap fun _ sl => sl.ret)

/-! ### Ending lanes (R195) -/

/-- What is outstanding to lanes that exit is discarded (R195). -/
def LongResult.without (r : LongResult) (gone : BitVec 4) : LongResult :=
  let keep := fun (j : Nat) => !gone.getLsbD j
  { r with
    writes := r.writes.filter fun w => match w.lane with | some j => keep j | none => true
    kind := match r.kind with
      | .load reads => .load (reads.filter fun x => x.scalar || keep x.lane)
      | .ring reads more => .ring (reads.filter fun x => keep x.lane) more
      | k => k }

/-- The slice's exiting lanes end (R195). -/
def Slice.exitLanes (sl : Slice) (gone : BitVec 4) : Slice :=
  { sl with exited := sl.exited ||| gone, active := sl.active &&& ~~~gone, pend := sl.pend.map (·.without gone) }

/-- EXIT: a trap fence for the lanes that would exit, then they end; the others go on at the next clause (R195, R409). What is still
outstanding to the lanes sets no flag and is discarded, not awaited (entry 29). -/
def execExit (w : CtlWord) (s : State) : Host.Outcome State Fault Refusal :=
  match s.gang with
  | none => .next s
  | some g =>
    let lanes := g.executing w.c
    match firstTrap [g.ctlTrap s 0x1C4 w lanes false 0 0, g.fenceTrap lanes] with
    | some t => .next (s.enterTrap g t)
    | none =>
      let s := s.modifyUnit g.u.uid fun u => u.passFence g.ps
      let gone := fun (sl : Slice) => sl.condition w.c
      .next (s.jumpWord g w.c.y none fun _ sl => (sl.exitLanes (gone sl)).advance 1)

/-! ### Fusion, yielding and no-ops (R196, R197) -/

/-- Whether a slice is held by a trap, by a breakpoint, or has left (R154). -/
def WorkUnit.sliceHeld (u : WorkUnit) (sl : Slice) : Bool :=
  sl.heldBy.isSome || (u.bkpts.any (fun id => !(sl.inTrap && sl.trapId == id)) && sl.clause.isNone && !(sl.inTrap && sl.tbkpt))

/-- Whether the WAIT mask and the clause counter are met for a slice (R21, R26). -/
def Slice.waitMet (sl : Slice) (wait : BitVec 6) : Bool :=
  (List.range 6).all (fun k => !wait.getLsbD k || sl.sb.getD k 0 == 0) && sl.sb.getD 6 0 == 0

/-- Whether a slice meets the conditions of R154 for the REGANG at `pc` of a clause; throttling holds one only at a clause boundary
(R133). -/
def WorkUnit.absorbable (u : WorkUnit) (throttled : Nat → Nat → Bool) (pc : DWord) (cl : Clause) (wait : BitVec 6) (sl : Slice) : Bool :=
  (sl.pc == pc || (pc == cl.header + 8 && sl.pc == cl.header && sl.clause.isNone && sl.waitMet wait)) &&
  !sl.hasExited && !u.sliceHeld sl && !(sl.clause.isNone && throttled sl.home sl.ig)

/-- Issue gangs of a home gang, other than one, all of whose slices satisfy a condition: their slices' positions. -/
def WorkUnit.gangsWhere (u : WorkUnit) (home ig : Nat) (ok : Slice → Bool) : List Nat :=
  (List.range u.slices.length).filter fun p =>
    let sl := u.slice p
    sl.home == home && sl.ig != ig && !sl.hasExited && (u.positions home sl.ig).all fun q => ok (u.slice q)

/-- The fused gang's slices stand after the REGANG (R196). -/
def WorkUnit.fuse (u : WorkUnit) (g : Gang) (absorbed : List Nat) : WorkUnit :=
  u.modifySlices absorbed fun sl =>
    { sl.clearQ with pc := g.pc, clause := g.head.clause, ig := g.ref.ig, parked := false, wait := .none }

/-! ### Cohorts (R198-R201) -/

/-- Write a 32-bit result tagged n32 to the executing lanes' DST. -/
def State.giveLanes (s : State) (g : Gang) (lanes : List (Nat × Nat)) (dst : BitVec 9) (val : Nat) : State :=
  s.modifyUnit g.u.uid fun u =>
    { u with slices := u.slices.mapIdx fun p sl =>
        { sl with lanes := sl.lanes.mapIdx fun j ln => if lanes.contains (p, j) then ln.putDst false dst.toNat val 2 else ln } }

/-- The entry of a cohort instruction: DST v, source A any (R185). -/
def cohortEntry (w : StdWord) (regs : Nat) : AluEntry :=
  { dst := .field, a := .use (intUse false anyTag), illegal := !vRunOk regs w.dst.toNat 1 1, fn := fun _ _ _ _ _ => {} }

/-- The gang slot of the caller's home gang. -/
def Gang.slot (g : Gang) : Nat := g.u.slots.getD g.ref.home 0

/-- Whether a gang with a higher slot of its bank has performed such an operation in this cycle: operations of one cycle apply in ascending
gang slot, so this one falls into a later cycle (R198, R287). -/
def State.afterSlot (s : State) (g : Gang) : Bool :=
  (s.bank g.u.core g.u.bank).lastOp.any fun x => x.1 == s.clock && decide (g.slot < x.2)

/-- Note a gang's operation of this cycle. -/
def State.noteSlot (s : State) (g : Gang) : State :=
  s.modifyBank g.u.core g.u.bank fun b => { b with lastOp := some (s.clock, g.slot) }

/-- Run a cohort instruction: once for the gang, on source A of its lowest executing lane; the result goes to every executing
lane (R198). -/
def cohortWord (opc : Nat) (w : StdWord) (act : State → Gang → Nat → Nat × State) (s : State) :
    Host.Outcome State Fault Refusal :=
  match s.gang with
  | none => .next s
  | some g =>
    let lanes := g.executing w.c
    match g.stdTrap s opc w lanes (cohortEntry w g.head.regs) with
    | some t => .next (s.enterTrap g t)
    | none =>
      match lanes with
      | [] => .next (s.finishWord g w.c.y 1)
      | x :: _ =>
        let a := ((g.u.slice x.1).readSpec x.2 (intUse false anyTag) w.srcA.toNat).val
        if s.afterSlot g then .next s
        else
        let r := act (s.noteSlot g) g a
        .next ((r.2.giveLanes g lanes w.dst r.1).finishWord g w.c.y 1)

/-- The bit of a gang slot. -/
def slotBit (n : Nat) : Word := 1 <<< n

/-- The members COHNEW names: the caller's home gang and each home gang g with bit g of a that has not exited (R199). -/
def Gang.cohortMembers (g : Gang) (a : Nat) : Word :=
  slotMask (g.slot :: ((List.range g.u.slots.length).filter fun h =>
    a.testBit h && g.u.slices.any fun sl => sl.home == h && !sl.hasExited).map fun h => g.u.slots.getD h 0)

/-- COHNEW (R199). -/
def cohNew (s : State) (g : Gang) (a : Nat) : Nat × State :=
  let b := s.bank g.u.core g.u.bank
  match (sortedNats (g.u.bslots.drop 1)).find? fun n => !(b.slot n).live with
  | none => (0xFFFFFFFF, s)
  | some n =>
    let slot : BarrierSlot :=
      { owner := g.u.slots.headD 0, members := g.cohortMembers a, arrived := 0, phase := false, live := true }
    (n, s.modifyBank g.u.core g.u.bank fun b => b.setSlot n slot)

def execCohnew (w : StdWord) : State → Host.Outcome State Fault Refusal := cohortWord 0x118 w cohNew

/-- The units of a bank. -/
def State.unitsIn (s : State) (core bank : Nat) : List WorkUnit :=
  s.units.filter fun u => u.residence == .resident && u.core == core && u.bank == bank

/-- The unit of a bank that received a barrier slot. -/
def State.slotOwner (s : State) (core bank n : Nat) : Option WorkUnit := (s.unitsIn core bank).find? fun u => u.bslots.contains n

/-- The slot a cohort instruction names, if it names a LIVE slot that is no workgroup barrier (R198, R200). -/
def State.cohortSlot (s : State) (g : Gang) (a : Nat) : Option (Nat × WorkUnit) :=
  if a ≥ 32 ∨ !((s.bank g.u.core g.u.bank).slot a).live then none
  else match s.slotOwner g.u.core g.u.bank a with
    | some o => if o.bslots.head? = some a then none else some (a, o)
    | none => none

/-- COHFREE: 0 freed, 1 no such slot of the caller's unit, 2 other members remain (R200). -/
def cohFree (s : State) (g : Gang) (a : Nat) : Nat × State :=
  match s.cohortSlot g a with
  | none => (1, s)
  | some (n, o) =>
    if o.uid ≠ g.u.uid then (1, s)
    else if ((s.bank g.u.core g.u.bank).slot n).members &&& ~~~(slotBit g.slot) ≠ 0 then (2, s)
    else
      (0, (s.modifyBank g.u.core g.u.bank fun b =>
        b.setSlot n { b.slot n with live := false, members := 0, arrived := 0 }).settleBarriers g.u.core g.u.bank)

def execCohfree (w : StdWord) : State → Host.Outcome State Fault Refusal := cohortWord 0x119 w cohFree

/-- JOIN: 0 added, 1 no such slot of the launch, 2 already a member (R200). -/
def cohJoin (s : State) (g : Gang) (a : Nat) : Nat × State :=
  match s.cohortSlot g a with
  | none => (1, s)
  | some (n, o) =>
    let b := (s.bank g.u.core g.u.bank).slot n
    if o.die ≠ g.u.die ∨ o.lslot ≠ g.u.lslot then (1, s)
    else if b.members.getLsbD g.slot then (2, s)
    else (0, s.modifyBank g.u.core g.u.bank fun bk => bk.setSlot n { b with members := b.members ||| slotBit g.slot })

def execJoin (w : StdWord) : State → Host.Outcome State Fault Refusal := cohortWord 0x11A w cohJoin

/-- LEAVE: 0 cleared, 1 no such slot, 2 not a member (R200). -/
def cohLeave (s : State) (g : Gang) (a : Nat) : Nat × State :=
  match s.cohortSlot g a with
  | none => (1, s)
  | some (n, _) =>
    let b := (s.bank g.u.core g.u.bank).slot n
    if !b.members.getLsbD g.slot then (2, s)
    else
      let b := { b with members := b.members &&& ~~~slotBit g.slot, arrived := b.arrived &&& ~~~slotBit g.slot }
      (0, (s.modifyBank g.u.core g.u.bank fun bk => bk.setSlot n b).settleBarriers g.u.core g.u.bank)

def execLeave (w : StdWord) : State → Host.Outcome State Fault Refusal := cohortWord 0x11B w cohLeave

end Sys2Proof.Machine
end

