-- ==== Sys2Proof/Machine/Ready.lean ====
section
/-! DEFINITION. Which issue gangs are ready (R164), which are held by source throttling (R133), and the words that look at other
issue gangs: REGANG, YIELD and NOP (R154, R196, R197). -/

namespace Sys2Proof.Machine

/-- The header at an address, where it can be fetched and is one. -/
def State.headerAt (s : State) (ctx : Nat) (a : DWord) : Option Header :=
  match s.fetch ctx a with
  | .ok w => if (headerFault w).isSome then none else some (headerFields w)
  | .error _ => none

/-- A slice that waits for nothing: not parked, not blocked (R27, R164). -/
def Slice.unblocked (sl : Slice) : Bool := !sl.parked && (sl.wait == .none || sl.wait == .done)

/-- Whether the slice's next header, if it stands at one, is met (R21). -/
def State.headerMet (s : State) (u : WorkUnit) (sl : Slice) : Bool :=
  if sl.clause.isSome then true
  else match s.headerAt u.ctx sl.pc with
    | some h => sl.waitMet h.wait
    | none => true

/-- Whether an issue gang may issue where it stands: resident in the active bank, its attachments acquired, not parked, blocked or
held (R88, R164, R422). -/
def State.canGo (s : State) (u : WorkUnit) (home ig : Nat) : Bool :=
  let ps := u.positions home ig
  !s.thermalStopped && u.residence == .resident && (s.core u.core).active == u.bank && !ps.isEmpty && u.attaches.isEmpty &&
  ps.all fun p => let sl := u.slice p; sl.unblocked && !u.sliceHeld sl

/-- Whether an issue gang is ready, throttling apart (R164). -/
def State.readyBut (s : State) (u : WorkUnit) (home ig : Nat) : Bool :=
  s.canGo u home ig && (u.positions home ig).all fun p => s.headerMet u (u.slice p)

/-- Whether two issue gangs keep one from its next clause: the first is ready, on the pipeline of a gang that has yielded, and has started no
clause since, unless it has itself yielded to that gang and waits for it (R197). -/
def State.yieldsTo (s : State) (u : WorkUnit) (me : GangRef) (since : List GangRef) (v : WorkUnit) (sl : Slice) : Bool :=
  let o : GangRef := ⟨v.uid, sl.home, sl.ig⟩
  o != me && v.slots.getD sl.home 0 % 4 == u.slots.getD me.home 0 % 4 && !sl.hasExited && s.readyBut v sl.home sl.ig && !since.contains o &&
  (match sl.yieldTo with | some l => l.contains me | none => true)

/-- Whether a gang that has yielded still leaves its pipeline to others (R197). -/
def State.yieldHeld (s : State) (u : WorkUnit) (home ig : Nat) : Bool :=
  match (u.positions home ig).findSome? fun p => (u.slice p).yieldTo with
  | none => false
  | some since =>
    (s.unitsIn u.core u.bank).any fun v => v.slices.any fun sl => s.yieldsTo u ⟨u.uid, home, ig⟩ since v sl

/-- Whether a home gang has a ready issue gang. -/
def State.homeReady (s : State) (u : WorkUnit) (home : Nat) : Bool :=
  u.slices.any fun sl => sl.home == home && !sl.hasExited && s.readyBut u home sl.ig

/-- The core's congestion level: the highest reported in the last 1,024 cycles by a controller to which it has a request
outstanding (R133). -/
def State.congestionLevel (s : State) (core : Nat) : Nat :=
  ((s.core core).congestion.filter fun r =>
    decide (s.clock < r.2.2 + 1024) && s.requests.any fun q => q.core == core && q.controller == r.1).foldl
    (fun m r => max m r.2.1) 0

/-- The ready home gangs of a unit in the order of R133: the producer gang first, then ascending. -/
def State.throttleOrder (s : State) (u : WorkUnit) : List Nat :=
  let ready := (List.range u.slots.length).filter fun h => s.homeReady u h
  if ready.contains u.pgang then u.pgang :: ready.filter (· != u.pgang) else ready

/-- One round: a further gang of each unit that still has one, as far as the places last (R133). -/
def fillRound (round : Nat) : Nat → List (Nat × List Nat) → List (Nat × Nat)
  | 0, _ => []
  | _, [] => []
  | n + 1, (uid, hs) :: t =>
    match hs[round]? with
    | some h => (uid, h) :: fillRound round n t
    | none => fillRound round (n + 1) t

/-- The issuing set: rounds until the cap is reached (R133). -/
def fillRounds (orders : List (Nat × List Nat)) : Nat → Nat → Nat → List (Nat × Nat)
  | 0, _, _ => []
  | fuel + 1, round, cap =>
    let r := fillRound round cap orders
    r ++ fillRounds orders fuel (round + 1) (cap - r.length)

/-- The home gangs of the active bank that may go on issuing, the units in the order they started (R133). -/
def State.issuingSet (s : State) (core : Nat) : List (Nat × Nat) :=
  let us := sortBy (fun (a b : WorkUnit) => decide (a.startNo < b.startNo)) (s.unitsIn core (s.core core).active)
  let orders := us.map fun u => (u.uid, s.throttleOrder u)
  let a := (orders.map fun o => o.2.length).sum
  let cap := max us.length (a * (4 - s.congestionLevel core) / 4)
  fillRounds orders 32 0 cap

/-- Whether source throttling holds a home gang at its clause boundary (R133). -/
def State.throttledHome (s : State) (u : WorkUnit) (home : Nat) : Bool :=
  s.congestionLevel u.core != 0 && !(s.issuingSet u.core).contains (u.uid, home)

/-- REGANG: the issue gang absorbs every other one of its home gang that meets R154; the operand file is not written from here
on (R196). -/
def execRegang (w : CtlWord) (s : State) : Host.Outcome State Fault Refusal :=
  match s.gang with
  | none => .next s
  | some g =>
    match g.ctlTrap s 0x1C5 w g.activePlaces true 0 0 with
    | some t => .next (s.enterTrap g t)
    | none =>
      let cl := g.head.clause.getD ⟨g.pc, 0, 0⟩
      let wait := ((s.headerAt g.u.ctx cl.header).map (·.wait)).getD 0
      let throttled := fun (home _ : Nat) => s.throttledHome g.u home
      let absorbed := g.u.gangsWhere g.ref.home g.ref.ig (g.u.absorbable throttled g.pc cl wait)
      let ps := sortedNats (g.ps ++ absorbed)
      let s := s.modifyUnit g.u.uid fun u => ((u.modifySlices g.ps Slice.clearQ).fuse g absorbed).healQ ps
      .next (s.finishWord { g with ps := ps } w.c.y 1)

/-- YIELD: no architectural effect; the gang's next clause waits for the other ready gangs of its pipeline (R197). -/
def execYield (w : CtlWord) (s : State) : Host.Outcome State Fault Refusal :=
  match s.gang with
  | none => .next s
  | some g =>
    let t := s.noEffect g 0x1C6 w
    let went := (g.ctlTrap s 0x1C6 w g.activePlaces true 0 0).isNone
    .next (if went then t.modifyUnit g.u.uid fun u => u.modifySlices g.ps fun sl => { sl with yieldTo := some [] } else t)

/-- NOP: no effect at all (R197). -/
def execNop (w : CtlWord) (s : State) : Host.Outcome State Fault Refusal :=
  match s.gang with
  | none => .next s
  | some g => .next (s.noEffect g 0x1C7 w)

end Sys2Proof.Machine
end

