-- ==== Sys2Proof/Machine/Rings.lean ====
section
/-! DEFINITION. Rings in memory: QPUSH, QPOP and QPEEK (R385-R391). -/

namespace Sys2Proof.Machine

/-! ### Headers (R385, R386) -/

/-- The 32 words of a header. -/
def State.ringHeader (s : State) (pa : Nat) : List Nat := (List.range 32).map fun i => s.natAt (pa + 8 * i) 8

def ringLogn (h : List Nat) : Nat := h.getD 1 0 % 32
def ringConsumers (h : List Nat) : Nat := bitsOf (h.getD 1 0) 10 8 + 1
def ringTake (h : List Nat) (c : Nat) : Nat := h.getD (4 + 2 * c) 0
def ringFree (h : List Nat) (c : Nat) : Nat := h.getD (5 + 2 * c) 0
def ringPidx (h : List Nat) : Nat := h.getD 0 0

/-- The least FREE of the consumers in use. -/
def ringMinFree (h : List Nat) : Nat := (listMin ((List.range (ringConsumers h)).map (ringFree h))).getD 0

/-- Whether a header breaks R385 or R386, or the consumer is not in use (R388). -/
def ringBad (h : List Nat) (c : Nat) : Bool :=
  let logn := ringLogn h
  !(decide (1 ≤ logn ∧ logn ≤ 20)) || bitsOf (h.getD 1 0) 7 5 != 0 || h.getD 1 0 / 2 ^ 11 != 0 || h.getD 2 0 % 64 != 0 ||
  !canonicalVa (h.getD 2 0) || h.getD 3 0 != 0 || (h.drop 20).any (· != 0) || c ≥ ringConsumers h ||
  (List.range (ringConsumers h)).any (fun i => ringTake h i < ringFree h i || ringPidx h < ringTake h i) ||
  ringPidx h - ringMinFree h > 2 ^ logn

/-- The slot of an index (R386). -/
def ringSlot (h : List Nat) (idx : Nat) : Nat := (h.getD 2 0 + 64 * (idx % 2 ^ ringLogn h)) % 2 ^ 64

/-! ### The words -/

/-- The fields a ring word takes from OFS (R387). -/
def ringConsumer (w : MemWord) : Nat := w.ofs.toNat % 8
def ringPred (w : MemWord) : Nat := w.ofs.toNat / 8 % 8

/-- Payload bytes and registers (R387). -/
def ringBytes (w : MemWord) : Nat := if w.size = 6 then 56 else sizeBytes w.size.toNat
def ringRun (w : MemWord) : Nat := if w.size = 6 then 14 else sizeRun w.size.toNat
def ringAlign (w : MemWord) : Nat := if w.size = 6 then 2 else sizeRun w.size.toNat

def ringReserved (w : MemWord) (push : Bool) : Bool :=
  w.size == 7 || w.order != (if push then 2 else 1) || w.ofs.toNat ≥ 64 || (!w.cache && ringPred w != 0) ||
  (push && ringConsumer w != 0)

/-- Whether DATA is one R387 allows. -/
def ringDataOk (regs : Nat) (w : MemWord) (push : Bool) : Bool :=
  let d := w.data.toNat
  let k := ringRun w
  vRunOk regs d k (ringAlign w) || (push && (isImmSpec d || isConstSpec d || sRunOk d k (ringAlign w)))

/-- A lane's header address: its ADDR pair alone, since OFS names the consumer and the predicate (R387). -/
def Gang.ringVa (g : Gang) (w : MemWord) (x : Nat × Nat) : Nat := (g.u.slice x.1).runValue x.2 w.addr.toNat 2

/-- A lane's header access (R387): aligned to 256 bytes, its page writable. -/
def State.ringPlan (s : State) (g : Gang) (w : MemWord) (x : Nat × Nat) : Except LaneFault (List Piece) :=
  let va := g.ringVa w x
  if va % 256 ≠ 0 then .error ⟨.misaligned, va, accessInfo true false 0⟩
  else s.plan g.u.ctx ⟨.write, 1, true⟩ va 256

/-- A lane's fault before any reserve or claim step. -/
def State.ringFault (s : State) (g : Gang) (w : MemWord) (x : Nat × Nat) : Option LaneFault :=
  match s.ringPlan g w x with
  | .error f => some f
  | .ok ps =>
    if s.unreadable ps then some ⟨.memUncorrectable, (s.badByte ps).getD (g.ringVa w x), accessInfo true false 0⟩
    else if ps.any fun p => ringBad (s.ringHeader p.leaf.pa) (ringConsumer w) then some ⟨.ringBad, 0, 0⟩
    else none

/-- The physical address of a lane's header. -/
def State.ringPa (s : State) (g : Gang) (w : MemWord) (x : Nat × Nat) : Nat :=
  ((planPieces (s.ringPlan g w x)).head?.map (·.leaf.pa)).getD 0

/-- A lane with the index it got. -/
structure RingGot where
  lane : Nat × Nat
  pa : Nat
  idx : Nat
  slot : Nat
  deriving DecidableEq, Repr, Inhabited

/-- The reserve or claim steps of lanes in ascending order; a lane whose ring is full or empty gets none (R389, R390). -/
def State.ringStep (s : State) (g : Gang) (w : MemWord) (push : Bool) (lanes : List (Nat × Nat)) : State × List RingGot :=
  lanes.foldl (init := (s, [])) fun acc x =>
    let pa := acc.1.ringPa g w x
    let h := acc.1.ringHeader pa
    let c := ringConsumer w
    if push then
      if ringPidx h - ringMinFree h ≥ 2 ^ ringLogn h then acc
      else (acc.1.storeAll g.u.ctx [(pa, natLe 8 (ringPidx h + 1))], acc.2 ++ [⟨x, pa, ringPidx h, ringSlot h (ringPidx h)⟩])
    else if ringTake h c ≥ ringPidx h then acc
    else (acc.1.storeAll g.u.ctx [(pa + 32 + 16 * c, natLe 8 (ringTake h c + 1))],
          acc.2 ++ [⟨x, pa, ringTake h c, ringSlot h (ringTake h c)⟩])

/-- QPEEK's indices: TAKE(c) plus the lane's rank among the lanes of its ring (R390). -/
def State.ringPeek (s : State) (g : Gang) (w : MemWord) (lanes : List (Nat × Nat)) : List RingGot :=
  let keyed := lanes.map fun x => (x, s.ringPa g w x)
  keyed.zipIdx.filterMap fun e =>
    let pa := e.1.2
    let h := s.ringHeader pa
    let rank := ((keyed.take e.2).filter fun y => y.2 == pa).length
    let idx := ringTake h (ringConsumer w) + rank
    if idx < ringPidx h then some ⟨e.1.1, pa, idx, ringSlot h idx⟩ else none

/-- The translation of a lane's slot (R388). -/
def State.slotPlan (s : State) (g : Gang) (write : Bool) (r : RingGot) : Except LaneFault (List Piece) :=
  s.plan g.u.ctx ⟨if write then .write else .read, 1, write⟩ r.slot 64

/-- Lanes already held at the word (R430). -/
def Gang.ringHeld (g : Gang) (x : Nat × Nat) : Bool := (g.u.slice x.1).ringHeld.getLsbD x.2

/-- Mark lanes as having made their step. -/
def WorkUnit.holdRing (u : WorkUnit) (ps : List Nat) (lanes : List (Nat × Nat)) : WorkUnit :=
  { u with slices := u.slices.mapIdx fun p sl =>
      if ps.contains p then
        { sl with ringHeld := sl.ringHeld ||| BitVec.ofNat 4 (Machine.maskOf ((lanes.filter (·.1 == p)).map (·.2))) }
      else sl }

/-- The predicate of .nb: whether each lane made its step (R389, R390). -/
def WorkUnit.ringPreds (u : WorkUnit) (w : MemWord) (lanes got : List (Nat × Nat)) : WorkUnit :=
  lanes.foldl (init := u) fun u x =>
    u.modifySlice x.1 fun sl => sl.modifyLane x.2 fun ln => ln.setP (ringPred w) (got.contains x)

/-- Write a pushed item: payload, then SEQ (R389). -/
def State.ringPut (s : State) (g : Gang) (w : MemWord) (r : RingGot) : State :=
  let pa := ((planPieces (s.slotPlan g true r)).head?.map (·.leaf.pa)).getD 0
  let n := ringBytes w
  let v := (g.u.slice r.lane.1).storeValue r.lane.2 w.data.toNat n
  s.storeAll g.u.ctx [(pa + 8, natLe 56 v), (pa, natLe 8 (r.idx + 1))]

/-- The payload reads of the lanes that got an index, by slice. -/
def ringReads (w : MemWord) (pop : Bool) (got : List RingGot) (p : Nat) : List RingRead :=
  (got.filter (·.lane.1 == p)).map fun r =>
    { lane := r.lane.2, header := BitVec.ofNat 64 r.pa, slot := BitVec.ofNat 64 r.slot, idx := r.idx,
      consumer := ringConsumer w, bytes := ringBytes w, dst := w.data.toNat, pop := pop }

/-- The slices' results of a QPOP or QPEEK: each slice with an executing lane counts once, at the word's first turn; items it gets later
join that result (R26, R390). -/
def WorkUnit.ringResults (u : WorkUnit) (g : Gang) (w : MemWord) (pop : Bool) (lanes : List (Nat × Nat)) (got : List RingGot) : WorkUnit :=
  let isOpen := fun (r : LongResult) => match r.kind with | .ring _ true => true | _ => false
  let new := lanes.filter fun x => !(u.slice x.1).pend.any isOpen
  let u := u.issueLong g w.c.sb new [] (fun _ => .ring [] true) fun _ => []
  { u with slices := u.slices.mapIdx fun p sl =>
      if g.ps.contains p then
        { sl with pend := sl.pend.map fun r =>
            match r.kind with
            | .ring x true => { r with kind := .ring (x ++ ringReads w pop got p) true }
            | _ => r }
      else sl }

/-- What follows the steps of a ring word: .blk holds the gang while a lane is still without an index; .nb reports by the
predicate, written at the word: whatever the opcode map's column says of the word's result, R389 and R390 give p[PD] with the claim
(DEDUCED, entry 33; R388-R390). -/
def State.ringFinish (s : State) (g : Gang) (w : MemWord) (push pop : Bool) (lanes todo : List (Nat × Nat))
    (got : List RingGot) : State :=
  let have' := got.map (·.lane)
  let s := if push then got.foldl (fun s r => s.ringPut g w r) s
    else s.modifyUnit g.u.uid fun u => u.ringResults g w pop lanes got
  let ended := fun (s : State) => (s.modifyUnit g.u.uid fun u => u.modifySlices g.ps Slice.closeRings).finishWord g w.c.y 1
  if w.cache then ended (s.modifyUnit g.u.uid fun u => u.ringPreds w lanes have')
  else if todo.all have'.contains then ended s
  else (s.modifyUnit g.u.uid fun u => u.holdRing g.ps have').holdWord g

/-- A ring word: checks, steps at the bank, slots, payload. -/
def ringWord (opc : Nat) (w : MemWord) (push pop : Bool) (s : State) : Host.Outcome State Fault Refusal :=
  match s.gang with
  | none => .next s
  | some g =>
    let lanes := g.executing w.c
    let todo := lanes.filter fun x => !g.ringHeld x
    let illegal := !addrOk g.head.regs true w.addr.toNat || !ringDataOk g.head.regs w push
    let reads := addrRegs w true ++ (if push then runRegs w.data.toNat (ringRun w) else [])
    match g.memTrap s opc w lanes (ringReserved w push) illegal reads noTagCheck
        (fun x => if todo.contains x then s.ringFault g w x else none) with
    | some t => .next (s.enterTrap g t)
    | none =>
      if g.sbFull w.c.sb lanes then .next s
      else
        let r := if push || pop then s.ringStep g w push todo else (s, s.ringPeek g w todo)
        if !push && !pop && !w.cache && r.2.length < todo.length then
          .next ((s.modifyUnit g.u.uid fun u => u.ringResults g w pop lanes []).holdWord g)
        else match g.laneTrap w.data (r.2.map (·.lane)) fun x =>
            (r.2.find? (·.lane == x)).bind fun e => planFault (s.slotPlan g push e) with
          | some t => .next (r.1.enterTrap g t)
          | none => .next (r.1.ringFinish g w push pop lanes todo r.2)

/-- QPUSH (R389). -/
def execQpush (w : MemWord) : State → Host.Outcome State Fault Refusal := ringWord 0x154 w true false

/-- QPOP (R390). -/
def execQpop (w : MemWord) : State → Host.Outcome State Fault Refusal := ringWord 0x155 w false true

/-- QPEEK (R390). -/
def execQpeek (w : MemWord) : State → Host.Outcome State Fault Refusal := ringWord 0x156 w false false

/-! ### Payloads (R390) -/

/-- Advance FREE over items read, in claim order (R390). -/
def State.ringAdvance (s : State) (ctx pa c : Nat) : Nat → State
  | 0 => s
  | n + 1 =>
    let f := ringFree (s.ringHeader pa) c
    if s.ringFrees.contains (pa, c, f) then
      let s := { s with ringFrees := s.ringFrees.filter (· != (pa, c, f)) }
      (s.storeAll ctx [(pa + 40 + 16 * c, natLe 8 (f + 1))]).ringAdvance ctx pa c n
    else s

/-- An item has been read by a QPOP. -/
def State.ringRead (s : State) (ctx : Nat) (r : RingRead) : State :=
  if r.pop then
    let s := { s with ringFrees := s.ringFrees ++ [(r.header.toNat, r.consumer, r.idx)] }
    s.ringAdvance ctx r.header.toNat r.consumer s.ringFrees.length
  else s

/-- The pieces of an item that has arrived: its SEQ is idx + 1 (R390). -/
def State.ringArrived (s : State) (ctx : Nat) (r : RingRead) : Option (List Piece) :=
  match s.pieces ctx .read r.slot.toNat 64 with
  | .ok ps => if leNat ((s.readPieces ps).take 8) = r.idx + 1 then some ps else none
  | .error _ => none

/-- The register writes of an item. -/
def State.ringWrites (s : State) (ctx : Nat) (r : RingRead) : List RegWrite :=
  match s.ringArrived ctx r with
  | some ps => runWrites (some r.lane) r.dst (leNat (((s.readPieces ps).drop 8).take r.bytes)) ((r.bytes + 3) / 4)
  | none => []

end Sys2Proof.Machine
end

