-- ==== Sys2Proof/Machine/Tags.lean ====
section
/-! DEFINITION. Words that act once per issue gang with the operands of the lowest active lane (R290), and completion tags
(R302, R303, R307). -/

namespace Sys2Proof.Machine

/-! ### Once per issue gang (R290) -/

/-- The slice and lane whose operands a word takes. -/
def Gang.first (g : Gang) (lanes : List (Nat × Nat)) : Slice × Nat :=
  match lanes with
  | x :: _ => (g.u.slice x.1, x.2)
  | [] => (g.head, 0)

/-- A trap in every executing lane. -/
def Gang.allTrap (g : Gang) (c : Cause) (lanes : List (Nat × Nat)) (dst : BitVec 9) : Trap := g.trapAt c (g.maskOf lanes) dst

/-- The same with one FLTRD address in every lane (R417). -/
def Gang.namedTrap (g : Gang) (c : Cause) (lanes : List (Nat × Nat)) (dst : BitVec 9) (addr : DWord) : Trap :=
  { g.allTrap c lanes dst with addr := fun _ => addr.toNat }

/-- COPY_RIGHTS: the gang is not the unit's producer gang (R290). -/
def Gang.noRights (g : Gang) : Bool := g.ref.home != g.u.pgang

/-- The result of a word that acts once: a v register or pair of every active lane of a slice (DEDUCED, log entry 31). -/
def onceResult (lanes : List (Nat × Nat)) (d val : Nat) (tag : Byte) (n : Nat) (p : Nat) : List RegWrite :=
  (lanes.filter (·.1 == p)).flatMap fun x => match runWrites (some x.2) d val n with
    | r :: t => { r with val := ⟨r.val.val, tag⟩ } :: t
    | [] => []

/-- The trap of a word that acts once: it reads its lowest lane's operands alone, and COPY_RIGHTS comes after the causes of R44 and
before every other (R290). -/
def Gang.onceTrap (g : Gang) (s : State) (opc : Nat) (w : StdWord) (lanes : List (Nat × Nat)) (e : AluEntry) : Option Trap :=
  let ops := [e.op w]
  let readers := lanes.take 1
  (((g.decodeTrap s opc (sourceWords w.srcB) lanes ops (e.reserved || e.modBad w) e.illegal).orElse fun _ =>
    g.mismatchTrap ops readers).orElse fun _ =>
    if e.rights ∧ g.noRights then some (g.allTrap .copyRights lanes w.dst) else none).orElse fun _ =>
    g.unreadTrap ops readers

/-- A standard-body word of an issue gang as a whole, or of lanes that share one course: its checks, then what it does to the state, unless
no lane is active. -/
def onceWord (opc : Nat) (w : StdWord) (entry : Gang → AluEntry) (act : State → Gang → List (Nat × Nat) → State) (s : State) :
    Host.Outcome State Fault Refusal :=
  match s.gang with
  | none => .next s
  | some g =>
    let lanes := g.executing w.c
    let e := entry g
    match (if lanes = [] then none else if e.once then g.onceTrap s opc w lanes e else g.stdTrap s opc w lanes e) with
    | some t => .next (s.enterTrap g t)
    | none =>
      if lanes = [] then .next (s.finishWord g w.c.y 1)
      else if g.sbFull w.c.sb lanes then .next s
      else .next (act s g lanes)

/-! ### Tags (R302) -/

def TagState.fresh : TagState := ⟨0, 0, 0, none, false⟩

/-- Whether a tag is ready (R302). -/
def TagState.ready (t : TagState) : Bool := t.infl == 0 && (t.c == t.e || t.faulted)

/-- n counts: one that would pass E is an overrun (R302). -/
def TagState.count (t : TagState) (n : Nat) : TagState :=
  if t.c + n ≤ t.e then { t with c := t.c + n } else { t with c := t.e, faulted := true, fail := some (t.fail.getD .tagOverrun) }

/-- A counted command stops on a fault; a cause not yet reported stays (R302, R307). -/
def TagState.failed (t : TagState) (c : Cause) : TagState := { t with faulted := true, fail := some (t.fail.getD c) }

/-- Arm a tag (R303). -/
def TagState.arm (t : TagState) (n : Nat) : TagState := { t with e := n, c := 0, faulted := false }

/-- Whether a tag may be armed: ready, and with no failure unreported (R303). -/
def TagState.free (t : TagState) : Bool := t.ready && t.fail.isNone

def WorkUnit.tag (u : WorkUnit) (n : Nat) : TagState := u.tags.getD n TagState.fresh

def WorkUnit.modifyTag (u : WorkUnit) (n : Nat) (f : TagState → TagState) : WorkUnit := { u with tags := listModify u.tags n f }

/-- Let the gangs of a unit that are held at a word issue it again: something they may wait for has changed (R430). Only the
model's schedule looks at this: a held word is issued again at any turn. -/
def Slice.wake (sl : Slice) : Slice := { sl with wait := match sl.wait with | .again => .none | x => x }

/-- TAGEXP: arm a tag (R303). -/
def execTagexp (w : StdWord) (s : State) : Host.Outcome State Fault Refusal :=
  let a := src32 anyTag
  onceWord 0x18B w
    (fun g =>
      let x := g.first (g.executing w.c)
      { once := true, rights := true, dst := .unused, a := a, b := a, illegal := (x.1.operand x.2 a (.spec w.srcA)).val ≥ g.u.ntags, fn := fun _ _ _ _ _ => {} })
    (fun s g lanes =>
      let x := g.first lanes
      let tag := (x.1.operand x.2 a (.spec w.srcA)).val
      let n := (x.1.operand x.2 a w.srcB).val
      if !(g.u.tag tag).free then s.enterTrap g (g.allTrap .tagOverrun lanes w.dst)
      else (s.modifyUnit g.u.uid fun u => u.modifyTag tag fun t => t.arm n).finishWord g w.c.y 1) s

/-! ### Tag waits (R304, R307) -/

/-- The 64-bit source of a wait. -/
def waitSrc : Src := src64 anyTag

/-- The masked tags below TAGS, ascending. -/
def Gang.maskedTags (g : Gang) (w : StdWord) (lanes : List (Nat × Nat)) : List Nat :=
  let x := g.first lanes
  (maskList 64 (x.1.operand x.2 waitSrc (.spec w.srcA)).val).filter (· < g.u.ntags)

/-- The lowest masked tag that holds a failure, with its cause (R307). -/
def WorkUnit.failedTag (u : WorkUnit) (tags : List Nat) : Option (Nat × Cause) :=
  tags.findSome? fun n => (u.tag n).fail.map fun c => (n, c)

/-- A wait's trap: %fltdst is the tag; trap entry clears the FAIL it reports (R307). -/
def State.tagTrap (s : State) (g : Gang) (lanes : List (Nat × Nat)) (f : Nat × Cause) : State :=
  let s := s.modifyUnit g.u.uid fun u => u.modifyTag f.1 fun t => { t with fail := none }
  s.enterTrap g (g.allTrap f.2 lanes (BitVec.ofNat 9 f.1))

/-- The shape of a tag wait: `done` tells from the masked and the ready tags whether it goes on, `result` what it writes. -/
def tagWait (opc : Nat) (w : StdWord) (mods : Nat) (dst : Option Nat) (done : List Nat → List Nat → Bool)
    (result : List Nat → Nat) : State → Host.Outcome State Fault Refusal :=
  onceWord opc w
    (fun g =>
      { once := true, mods := mods, dst := match dst with | none => .unused | some _ => .field, a := waitSrc,
        illegal := match dst with | none => false | some n => !vRunOk g.head.regs w.dst.toNat n n, fn := fun _ _ _ _ _ => {} })
    (fun s g lanes =>
      let masked := g.maskedTags w lanes
      let ready := masked.filter fun n => (g.u.tag n).ready
      match g.u.failedTag masked with
      | some f => s.tagTrap g lanes f
      | none =>
        if !done masked ready then s.holdWord g
        else match dst with
          | none => s.finishWord g w.c.y 1
          | some n =>
            (s.modifyUnit g.u.uid fun u => u.issueLong g w.c.sb lanes [] (fun _ => .ready)
              (onceResult lanes w.dst.toNat (result ready) 2 n)).finishWord g w.c.y 1)

/-- TWAIT: until every masked tag is ready (R304). -/
def execTwait (w : StdWord) : State → Host.Outcome State Fault Refusal :=
  tagWait 0x18C w 0 none (fun masked ready => masked.length == ready.length) (fun _ => 0)

/-- TWANY: the mask of the ready masked tags, once there is one (R304). -/
def execTwany (w : StdWord) : State → Host.Outcome State Fault Refusal :=
  tagWait 0x18E w 0 (some 2) (fun _ ready => !ready.isEmpty) Machine.maskOf

/-- TFIRST: the lowest ready masked tag, or 64 (R304). -/
def execTfirst (w : StdWord) : State → Host.Outcome State Fault Refusal :=
  tagWait 0x18F w 1 (some 1) (fun masked ready => bitOf w.m 0 || masked.isEmpty || !ready.isEmpty) (fun ready => ready.headD 64)

/-! ### Counters (R306, R307) -/

/-- The masked queues' latched cause of the unit, lowest queue first. -/
def WorkUnit.latched (u : WorkUnit) (mask : Nat) : Option (Nat × Cause) :=
  (maskList 4 mask).findSome? fun q => (u.latches.getD q none).map fun c => (q, c)

/-- CWAIT: until the counter in memory is at least the target (R306). -/
def execCwait (w : StdWord) : State → Host.Outcome State Fault Refusal :=
  onceWord 0x18D w
    (fun g =>
      { once := true, mods := 63, dst := .unused, a := .field, b := src64 anyTag, illegal := !addrOk g.head.regs true w.srcA.toNat,
        reads := runRegs w.srcA.toNat 2, fn := fun _ _ _ _ _ => {} })
    (fun s g lanes =>
      let x := g.first lanes
      let va := x.1.runValue x.2 w.srcA.toNat 2
      let target := (x.1.operand x.2 (src64 anyTag) w.srcB).val
      match s.plan g.u.ctx ⟨.read, 8, false⟩ va 8 with
      | .error f => s.enterTrap g { g.namedTrap f.cause lanes 0 (BitVec.ofNat 64 f.addr) with info := fun _ => f.info }
      | .ok ps =>
        match g.u.latched (w.m / 4) with
        | some f =>
          let s := s.modifyUnit g.u.uid fun u => { u with latches := listModify u.latches f.1 fun _ => none }
          s.enterTrap g (g.allTrap f.2 lanes (BitVec.ofNat 9 (0x100 + f.1)))
        | none =>
          if s.unreadable ps then s.enterTrap g (g.namedTrap .memUncorrectable lanes 0 (BitVec.ofNat 64 ((s.badByte ps).getD va)))
          else
            let d := s.drawFree 1
            let s := d.2.countElided g.u.ctx ps
            if g.readLane s (lanes.headD (0, 0)) (Config.freeValue d.1) ps < target then s.holdWord g
            else s.finishWord g w.c.y 1)

end Sys2Proof.Machine
end

