-- ==== Sys2Proof/Machine/Segments.lean ====
section
/-! DEFINITION. Named segments (R263-R267): creation, attachment, release, eviction and reload, the segment instructions
(R287-R289) and the attachments of units (R88). -/

namespace Sys2Proof.Machine

/-! ### Records and areas (R264, R265) -/

def State.modifySegment (s : State) (ctx : Nat) (name : DWord) (f : Segment → Segment) : State :=
  { s with segments := s.segments.map fun x => if x.ctx = ctx ∧ x.name = name then f x else x }

def State.dropSegment (s : State) (ctx : Nat) (name : DWord) : State :=
  { s with segments := s.segments.filter fun x => !(x.ctx == ctx && x.name == name) }

/-- The die whose directory part holds a name (R264). -/
def segmentDie (name : DWord) : Nat := ((name ^^^ (name >>> 16)).toNat) % 4

/-- The segments in a core's area. -/
def State.areaSegments (s : State) (core : Nat) : List Segment := s.segments.filter (·.core == some core)

/-- Whether a stretch of an area is free. -/
def areaFree (segs : List Segment) (off len : Nat) : Bool :=
  off + len ≤ 0x80000 && segs.all fun x => off + len ≤ x.offset || x.offset + 4096 * x.size ≤ off

/-- The lowest offset at which SIZE blocks fit (R264). -/
def areaFit (segs : List Segment) (size : Nat) : Option Nat :=
  (sortedNats (0 :: segs.map fun x => x.offset + 4096 * x.size)).find? fun o => areaFree segs o (4096 * size)

/-- Bytes of the resident segments of an area. -/
def segmentBytes (segs : List Segment) : Nat := (segs.map fun x => 4096 * x.size).sum

/-- Scratchpad a unit takes: SCRATCH × 4 KiB, and 64 KiB in deterministic mode (R82, R114). -/
def WorkUnit.scratchTaken (u : WorkUnit) : Nat := u.scratchLen + (if u.det then 65536 else 0)

/-- Scratchpad the units of a bank have taken. -/
def State.bankScratch (s : State) (core bank : Nat) : Nat :=
  ((s.units.filter fun u => u.residence == .resident && u.core == core && u.bank == bank).map (·.scratchTaken)).sum

/-- Whether segments of some bytes leave both banks of a core their allocations (R114). -/
def State.areaAllowed (s : State) (core bytes : Nat) : Bool :=
  [0, 1].all fun b => decide (s.bankScratch core b + bytes ≤ 0x100000)

/-- Where SIZE blocks go beside some segments of a core: room in the area, beside both banks' allocations, and one of 64
directory entries (R114, R264). -/
def State.roomBeside (s : State) (core : Nat) (segs : List Segment) (size : Nat) : Option Nat :=
  if segs.length ≥ 64 || !s.areaAllowed core (segmentBytes segs + 4096 * size) then none else areaFit segs size

/-- Whether a core has room as it stands. -/
def State.areaRoom (s : State) (core size : Nat) : Option Nat := s.roomBeside core (s.areaSegments core) size

/-- Evictable: unattached, and EVICT or an exhausted COUNT; never one whose write-back failed (R265, R267). -/
def Segment.evictable (x : Segment) : Bool :=
  x.att == 0 && !x.wbFailed && !x.reloading && x.core.isSome && (x.life == 2 || (x.life == 1 && x.n == 0))

/-- The dirty blocks of a segment. -/
def Segment.dirtyBlocks (x : Segment) : List Nat := (List.range x.size).filter fun b => x.dirty.getLsbD b

/-- The fault of a device's access of n bytes: its cause, its lowest faulting byte and its walk level (R417). -/
def State.deviceFault (s : State) (ctx : Nat) (acc : Access) (va n : Nat) (c : Cause) : AccessFault :=
  match s.pieces ctx acc va n with
  | .error f => f
  | .ok ps => ⟨c, (s.badByte ps).getD va, 0⟩

/-- Write one block of a segment to its backing; one that holds an uncorrectable word cannot be (R265, R269). -/
def State.writeBlock (s : State) (x : Segment) (core b : Nat) : Except AccessFault State :=
  let va := x.backing.toNat + 4096 * b
  if (scratchWords (x.offset + 4096 * b) 4096).any (s.core core).badArea.contains then .error ⟨.memUncorrectable, va, 0⟩
  else match s.deviceWrite x.ctx va (sparseBytes (s.core core).segArea (x.offset + 4096 * b) 4096) with
    | .error c => .error (s.deviceFault x.ctx .write va 4096 c)
    | .ok s => .ok s

/-- Write the dirty blocks of a segment to its backing (R265). -/
def State.writeBack (s : State) (x : Segment) : Except AccessFault State :=
  match x.core with
  | none => .ok s
  | some core =>
    x.dirtyBlocks.foldl (init := .ok s) fun acc b =>
      match acc with
      | .error c => .error c
      | .ok s => s.writeBlock x core b

/-- Fill a stretch of a core's area: its bytes, and its words good again (R266, R269). -/
def State.fillArea (s : State) (core off : Nat) (bs : List Byte) : State :=
  let out := fun (a : Nat) => !decide (off ≤ a ∧ a < off + bs.length)
  s.modifyCore core fun c =>
    { c with segArea := sparseWrite c.segArea off bs, badArea := c.badArea.filter fun k => out (8 * k) }

/-- Free a segment's area: its bytes no longer belong to it. -/
def State.freeArea (s : State) (core off size : Nat) : State :=
  s.modifyCore core fun c => { c with segArea := c.segArea.filter fun e => !(decide (off ≤ e.1 ∧ e.1 < off + 4096 * size)) }

/-- Evict a segment: write back, clear DIRTY, free the area; where the write-back cannot store it stays. A write-back that succeeds clears
the record's failure (R265, R267, R289). -/
def State.evict (s : State) (x : Segment) : Except AccessFault State :=
  match x.core with
  | none => .ok s
  | some core =>
    match s.writeBack x with
    | .error c => .error c
    | .ok s => .ok ((s.freeArea core x.offset x.size).modifySegment x.ctx x.name fun y =>
        { y with core := none, dirty := 0, wbFailed := false })

/-- An eviction attempted: its failure shows in the record (R267). -/
def State.tryEvict (s : State) (x : Segment) : State :=
  match s.evict x with
  | .ok s => s
  | .error _ => s.modifySegment x.ctx x.name fun y => { y with wbFailed := true }

/-- The order of eviction: least recently attached, then lowest area offset (R265). -/
def Segment.evictBefore (a b : Segment) : Bool :=
  decide (a.lastAttach < b.lastAttach) || (a.lastAttach == b.lastAttach && decide (a.offset < b.offset))

/-- Make room on a core, evicting as long as there is something evictable: the offset, or none (R265). -/
def State.makeRoom (s : State) (core size : Nat) : Nat → State × Option Nat
  | 0 => (s, s.areaRoom core size)
  | fuel + 1 =>
    match s.areaRoom core size with
    | some o => (s, some o)
    | none =>
      match sortBy Segment.evictBefore ((s.areaSegments core).filter Segment.evictable) with
      | [] => (s, none)
      | x :: _ => (s.tryEvict x).makeRoom core size fuel

def State.room (s : State) (core size : Nat) : State × Option Nat := s.makeRoom core size (s.areaSegments core).length

/-- Attach a resident segment to a unit: ATT + 1, and N − 1 of a COUNT (R266). -/
def State.attachTo (s : State) (uid : Nat) (x : Segment) : State :=
  let s := s.modifySegment x.ctx x.name fun y =>
    { y with att := y.att + 1, n := if y.life = 1 ∧ y.n > 0 then y.n - 1 else y.n, lastAttach := s.clock }
  s.modifyUnit uid fun u => { u with segs := u.segs ++ [x.name] }

/-- Begin a reload onto a core at an offset. -/
def State.beginReload (s : State) (x : Segment) (core off : Nat) : State :=
  s.modifySegment x.ctx x.name fun y => { y with core := some core, offset := off, dirty := 0, reloading := true }

/-! ### Attachments of a unit at its start (R88, R123, R267) -/

/-- A unit's attachments end in a fault, raised at its first instruction: a segment cause with the name, or a backing's fault with its
address (R88, R266, R267, R417). -/
def State.attachFault (s : State) (uid : Nat) (c : Cause) (addr : DWord) (info : Word) : State :=
  s.modifyUnit uid fun u => { u with attaches := [], attachSince := none, firstFault := some (c, addr, info) }

/-- A unit's attachment meets a fault of its segment's backing. -/
def State.backingFault (s : State) (uid : Nat) (write : Bool) (f : AccessFault) : State :=
  s.attachFault uid f.cause (BitVec.ofNat 64 f.va) (accessInfo write false f.level)

/-- One entry of a unit's attach list is acquired. -/
def State.attachDone (s : State) (uid : Nat) (x : Segment) : State :=
  (s.attachTo uid x).modifyUnit uid fun u => { u with attaches := u.attaches.drop 1, attachSince := none }

/-- A unit waits until a segment is attached on no other core: its 2^24 cycles run from here (R88, R122). -/
def State.attachWaits (s : State) (uid : Nat) : State :=
  s.modifyUnit uid fun u => { u with attachSince := some (u.attachSince.getD s.clock) }

/-- A wait for a segment attached elsewhere is over. -/
def State.attachFree (s : State) (uid : Nat) : State := s.modifyUnit uid fun u => { u with attachSince := none }

/-- Acquire a unit's attachments in list order, as far as they go (R88). -/
def State.acquireGo (s : State) (uid : Nat) : Nat → State
  | 0 => s
  | fuel + 1 =>
    match s.unit? uid with
    | none => s
    | some u =>
      match u.attaches with
      | [] => s
      | a :: _ =>
        match s.segment? u.ctx a.name with
        | none => s.attachFault uid .segAttachMiss a.name 0
        | some x =>
          let here := x.core == some u.core
          if here && !x.reloading then
            if a.gen.all (· == x.gen.toNat) then (s.attachDone uid x).acquireGo uid fuel
            else s.attachFault uid .segGenMismatch a.name 0
          else if a.mode = .fault ∨ (a.mode = .reloadAbsent ∧ x.core.isSome ∧ !here) then s.attachFault uid .segAttachMiss a.name 0
          else if x.reloading then s.attachFree uid
          else if x.att > 0 then s.attachWaits uid
          else
            let s := s.attachFree uid
            match s.room u.core x.size with
            | (s, none) => s
            | (s, some o) =>
              match s.evict x with
              | .error f => (s.tryEvict x).backingFault uid true f
              | .ok s => s.beginReload x u.core o

/-- Acquire what a resident unit can. -/
def State.acquire (s : State) (uid : Nat) : State :=
  match s.unit? uid with
  | none => s
  | some u => if u.residence = .resident then s.acquireGo uid u.attaches.length else s

/-- Every resident unit that waits for an attachment looks again: a segment has been released, moved or freed. -/
def State.acquireAll (s : State) : State :=
  (s.units.filter fun u => !u.attaches.isEmpty).foldl (fun s u => s.acquire u.uid) s

/-! ### Release (R266, R289) -/

/-- One of a unit's attachments is released; at ATT = 0 a segment marked for dropping goes (R266, R289). -/
def State.releaseOne (s : State) (uid ctx : Nat) (r : Release) : State :=
  let s := s.modifyUnit uid fun u => { u with segs := u.segs.erase r.name }
  let s := s.modifySegment ctx r.name fun x =>
    { x with att := x.att - 1, life := if x.life = 0 then 2 else x.life, dropAtZero := x.dropAtZero || r.drop }
  match s.segment? ctx r.name with
  | some x =>
    if x.att = 0 ∧ x.dropAtZero then
      let s := match x.core with | some c => s.freeArea c x.offset x.size | none => s
      s.dropSegment ctx r.name
    else s
  | none => s

def Release.ready (r : Release) : Bool := r.commands.isEmpty && r.matrix == 0

/-- The releases of a unit whose earlier work is done take effect (R289). -/
def State.settleReleases (s : State) (uid : Nat) : State :=
  match s.unit? uid with
  | none => s
  | some u =>
    let due := u.releases.filter Release.ready
    if due = [] then s
    else
      let s := s.modifyUnit uid fun u => { u with releases := u.releases.filter (!·.ready) }
      (due.foldl (fun s r => s.releaseOne uid u.ctx r) s).acquireAll

/-- Releases of every unit that are due. -/
def State.settleAllReleases (s : State) : State :=
  (s.units.filter fun u => u.releases.any Release.ready).foldl (fun s u => s.settleReleases u.uid) s

/-- A copy command of a unit is done: releases that waited for it go on. -/
def State.commandDone (s : State) (uid id : Nat) : State :=
  (s.modifyUnit uid fun u =>
    { u with releases := u.releases.map fun r => { r with commands := r.commands.erase id } }).settleReleases uid

/-- A matrix operation of a unit is done: releases that waited for it go on. -/
def State.matrixDone (s : State) (uid : Nat) : State :=
  (s.modifyUnit uid fun u =>
    { u with releases := u.releases.map fun r => { r with matrix := r.matrix - 1 } }).settleReleases uid

/-! ### Eviction and reload as device steps (R265-R267) -/

/-- SEGMENT_EVICT: an evictable segment is written back and freed from its core's area. -/
def execSegmentEvict (core ctx : Nat) (name : DWord) (s : State) : Host.Outcome State Fault Refusal :=
  match s.segment? ctx name with
  | some x => if x.core = some core ∧ x.evictable then .next (s.tryEvict x).acquireAll else .next s
  | none => .next s

/-- The result of a SEGATT (R288). -/
def segattResult (status off : Nat) : Nat := (if status ≤ 1 then 0x100000 + off else 0) + status * 2 ^ 24

/-- The value of a SEGATT's result is known: what is outstanding of it is ready with that value. -/
def LongResult.answer (r : LongResult) (ids : List Nat) (v : Nat) : LongResult :=
  if ids.contains r.id then
    { r with kind := .ready, writes := r.writes.map fun x => { x with val := ⟨BitVec.ofNat 32 v, 2⟩ } }
  else r

/-- The value of a SEGATT's outstanding results is known. -/
def State.segattDone (s : State) (w : SegWaiter) (status off : Nat) : State :=
  s.modifyUnit w.unit fun u =>
    { u with slices := u.slices.map fun sl => { sl with pend := sl.pend.map (·.answer w.results (segattResult status off)) } }

/-- Statuses 2 to 7 give the tag the failed state without a cause (R288). -/
def State.segattFail (s : State) (w : SegWaiter) (status : Nat) : State :=
  (s.segattDone w status 0).modifyUnit w.unit fun u => u.modifyTag w.tag fun t => { t with faulted := true }

/-- The bytes of a segment's backing. -/
def State.readBacking (s : State) (x : Segment) : Except AccessFault (List Byte) :=
  (List.range x.size).foldl (init := .ok []) fun acc b =>
    match acc with
    | .error c => .error c
    | .ok bs =>
      let va := x.backing.toNat + 4096 * b
      match s.deviceRead x.ctx va 4096 with
      | .ok t => .ok (bs ++ t)
      | .error c => .error (s.deviceFault x.ctx .read va 4096 c)

/-- A reload has failed: the segment stays non-resident, the record of a create goes, and its waiters learn it (R267, R288). -/
def State.reloadFailed (s : State) (x : Segment) (core : Nat) (f : AccessFault) : State :=
  let s := s.freeArea core x.offset x.size
  let s := if x.fresh then s.dropSegment x.ctx x.name
    else s.modifySegment x.ctx x.name fun y => { y with core := none, reloading := false, waiters := [] }
  let status := if f.cause = .memUncorrectable then 3 else 2
  let s := x.waiters.foldl (fun s w => s.segattFail w status) s
  let waiting := s.units.filter fun u => u.residence == .resident && u.core == core && u.ctx == x.ctx &&
    (u.attaches.head?.map (·.name)) == some x.name
  waiting.foldl (fun s u => s.backingFault u.uid false f) s

/-- A reload has completed: its waiters are attached, its sectors count on their tags (R266, R288). -/
def State.reloadDone (s : State) (x : Segment) (core : Nat) (bs : List Byte) : State :=
  let s := s.fillArea core x.offset bs
  let s := s.modifySegment x.ctx x.name fun y => { y with reloading := false, fresh := false, waiters := [], dirty := 0 }
  let s := (List.range x.size).foldl (fun s b => s.countRead x.ctx (x.backing.toNat + 4096 * b) 4096) s
  let live := x.waiters.filter fun w => (s.unit? w.unit).any fun u => u.residence != .exited
  live.foldl (init := s) fun s w =>
    let s := if x.fresh then
        (s.modifySegment x.ctx x.name fun y => { y with att := y.att + 1, lastAttach := s.clock }).modifyUnit w.unit fun u =>
          { u with segs := u.segs ++ [x.name] }
      else s.attachTo w.unit x
    (s.segattDone w 1 x.offset).modifyUnit w.unit fun u => u.modifyTag w.tag fun t => t.count (x.size * 128)

/-- SEGMENT_RELOAD_COMPLETE: a reload of all blocks from BACKING ends (R265, R267). -/
def execSegmentReloadComplete (core ctx : Nat) (name : DWord) (s : State) : Host.Outcome State Fault Refusal :=
  match s.segment? ctx name with
  | some x =>
    if x.reloading ∧ x.core = some core then
      match s.readBacking x with
      | .ok bs => .next (s.reloadDone x core bs).acquireAll
      | .error f => .next (s.reloadFailed x core f).acquireAll
    else .next s
  | none => .next s

/-! ### The segment instructions (R287-R289) -/

/-- The reserved fields common to segment words (R287). -/
def segReserved (w : MemWord) : Bool := w.ofs != 0 || w.size != 0 || w.scope != 0 || w.order != 0

/-- The 64-bit ADDR of the lowest active lane. -/
def Gang.onceAddr (g : Gang) (w : MemWord) (lanes : List (Nat × Nat)) : Nat :=
  let x := g.first lanes
  x.1.runValue x.2 w.addr.toNat 2

/-- A segment word: its decode checks, then what it does, unless no lane is active. -/
def segWord (opc : Nat) (w : MemWord) (reserved : Gang → Bool) (illegal : Gang → Bool) (reads : List Nat)
    (act : State → Gang → List (Nat × Nat) → State) (s : State) : Host.Outcome State Fault Refusal :=
  match s.gang with
  | none => .next s
  | some g =>
    let lanes := g.executing w.c
    match g.memTrap s opc w lanes (segReserved w || reserved g) (!addrOk g.head.regs true w.addr.toNat || illegal g)
        (addrRegs w true ++ reads) noTagCheck (fun _ => none) with
    | some t => .next (s.enterTrap g t)
    | none =>
      if lanes = [] then .next (s.finishMem g w)
      else if g.sbFull w.c.sb lanes || s.afterSlot g then .next s
      else .next (act (s.noteSlot g) g lanes)

/-- SEGPUB: publish, GEN + 1 (R289). -/
def execSegpub (w : MemWord) : State → Host.Outcome State Fault Refusal :=
  segWord 0x150 w (fun _ => w.data != 0 || w.cache) (fun _ => false) [] fun s g lanes =>
    let name := BitVec.ofNat 64 (g.onceAddr w lanes)
    if g.u.segs.contains name then (s.modifySegment g.u.ctx name fun x => { x with gen := x.gen + 1 }).finishMem g w
    else s.enterTrap g (g.namedTrap .segAttachMiss lanes w.data name)

/-- SEGREL: release one of the unit's attachments once its earlier work is done (R289). -/
def execSegrel (w : MemWord) : State → Host.Outcome State Fault Refusal :=
  segWord 0x152 w (fun _ => w.data != 0) (fun _ => false) [] fun s g lanes =>
    let name := BitVec.ofNat 64 (g.onceAddr w lanes)
    if g.u.segs.count name > (g.u.releases.filter (·.name == name)).length then
      let r : Release := { name := name, drop := w.cache, commands := s.unitCommands g.u, matrix := g.u.matq.length }
      let s := s.modifyUnit g.u.uid fun u => { u with releases := u.releases ++ [r] }
      (s.settleReleases g.u.uid).finishMem g w
    else s.enterTrap g (g.namedTrap .segAttachMiss lanes w.data name)

/-- SEGQRY's status (R289). -/
def State.segStatus (s : State) (u : WorkUnit) (name : DWord) : Nat :=
  match s.segment? u.ctx name with
  | none => 0
  | some x =>
    let b := fun (k : Nat) (p : Bool) => if p then 2 ^ k else 0
    let mine := u.segs.contains name
    x.gen.toNat + b 16 true + b 17 (x.core == some u.core && !x.reloading) +
      b 18 (x.core.isSome && x.core != some u.core && !x.reloading) + b 19 mine + b 20 x.wbFailed +
      (if mine then (0x100000 + x.offset) * 2 ^ 32 else 0)

/-- SEGQRY: the state of a segment (R289). -/
def execSegqry (w : MemWord) : State → Host.Outcome State Fault Refusal :=
  segWord 0x153 w (fun _ => w.cache) (fun g => !loadRunOk g.head.regs w.data.toNat 2) [] fun s g lanes =>
    let v := s.segStatus g.u (BitVec.ofNat 64 (g.onceAddr w lanes))
    s.finishLong g w lanes [] (fun _ => .ready) (onceResult lanes w.data.toNat v 2 2)

/-! #### SEGATT (R288) -/

/-- A SEGATT under way: its control word, tag and where its result goes. -/
structure Segatt where
  control : Nat
  tag : Nat
  waiter : SegWaiter
  deriving DecidableEq, Repr, Inhabited

/-- The control word of the lowest active lane. -/
def Gang.segControl (g : Gang) (w : MemWord) : Nat :=
  let x := g.first (g.executing w.c)
  if w.data.toNat < 0x100 then (x.1.getSpec x.2 w.data.toNat).val.toNat else 0

def segattReserved (c : Nat) : Bool := bitsOf c 15 9 != 0 || (bitOf c 8 && (bitOf c 7 || bitsOf c 31 16 != 0))

/-- A create record (R288). -/
structure CreateRecord where
  name : DWord
  backing : DWord
  size : Nat
  life : Nat
  load : Bool
  n : Nat
  deriving DecidableEq, Repr, Inhabited

def createRecord (ws : List DWord) : Option CreateRecord :=
  let w2 := wordOf ws 2
  let backing := wordOf ws 1
  if wordBits w2 7 0 < 1 ∨ wordBits w2 7 0 > 128 ∨ wordBits w2 9 8 = 3 ∨ wordBits w2 15 11 ≠ 0 ∨ wordBits w2 63 32 ≠ 0 ∨
      wordOf ws 3 ≠ 0 ∨ backing.toNat % 4096 ≠ 0 ∨ !canonicalVa backing.toNat then none
  else some { name := wordOf ws 0, backing := backing, size := wordBits w2 7 0, life := wordBits w2 9 8, load := w2.getLsbD 10,
              n := wordBits w2 31 16 }

/-- The record a create makes. -/
def CreateRecord.segment (r : CreateRecord) (ctx core off now : Nat) : Segment :=
  { name := r.name, ctx := ctx, backing := r.backing, size := r.size, life := r.life, n := r.n, gen := 0, core := some core,
    att := 0, dirty := 0, offset := off, lastAttach := now, wbFailed := false, dropAtZero := false, reloading := r.load,
    fresh := r.load, waiters := [] }

/-- The tag is armed for a reload of n sectors (R288). -/
def State.armTag (s : State) (uid tag n : Nat) : State := s.modifyUnit uid fun u => u.modifyTag tag fun t => t.arm n

/-- Create a segment from a record: status 4 where the name exists, 5 where there is no room (R288). -/
def State.segattNew (s : State) (u : WorkUnit) (a : Segatt) (r : CreateRecord) : State :=
  if (s.segment? u.ctx r.name).isSome then (s.armTag u.uid a.tag 0).segattFail a.waiter 4
  else
    let held := (s.segments.filter fun x => segmentDie x.name == segmentDie r.name).length
    match (if held ≥ 16384 then (s, none) else s.room u.core r.size) with
    | (s, none) => (s.armTag u.uid a.tag 0).segattFail a.waiter 5
    | (s, some off) =>
      let x := r.segment u.ctx u.core off s.clock
      if r.load then
        { s.armTag u.uid a.tag (r.size * 128) with segments := s.segments ++ [{ x with waiters := [a.waiter] }] }
      else
        let s := s.fillArea u.core off (List.replicate (4096 * r.size) 0)
        let s := { s with segments := s.segments ++ [{ x with att := 1 }] }
        ((s.armTag u.uid a.tag 0).modifyUnit u.uid fun u => { u with segs := u.segs ++ [r.name] }).segattDone a.waiter 1 off

/-- Attach an existing segment in RELOAD or FAULT mode, its exact faults passed (R288). -/
def State.segattOld (s : State) (u : WorkUnit) (a : Segatt) (x : Segment) : State :=
  if x.core = some u.core then
    if x.reloading then
      (s.armTag u.uid a.tag (x.size * 128)).modifySegment u.ctx x.name fun y => { y with waiters := y.waiters ++ [a.waiter] }
    else ((s.armTag u.uid a.tag 0).attachTo u.uid x).segattDone a.waiter 0 x.offset
  else if x.core.isSome && (x.att > 0 || x.reloading) then (s.armTag u.uid a.tag 0).segattFail a.waiter 6
  else match s.room u.core x.size with
    | (s, none) => (s.armTag u.uid a.tag 0).segattFail a.waiter 5
    | (s, some off) =>
      match s.evict x with
      | .error _ => ((s.tryEvict x).armTag u.uid a.tag 0).segattFail a.waiter 7
      | .ok s =>
        ((s.armTag u.uid a.tag (x.size * 128)).beginReload x u.core off).modifySegment u.ctx x.name fun y =>
          { y with waiters := [a.waiter] }

/-- What a SEGATT without .new meets before it attaches: an exact fault, with the state that its reload leaves where the generation differs
after one; none where it attaches or ends in a status (R266, R288). -/
def State.segattFault (s : State) (u : WorkUnit) (c : Nat) (name : DWord) : Option (Cause × State) :=
  match s.segment? u.ctx name with
  | none => some (.segAttachMiss, s)
  | some x =>
    let here : Bool := x.core = some u.core ∧ !x.reloading
    if bitOf c 6 ∧ !here then some (.segAttachMiss, s)
    else if bitOf c 7 ∧ x.gen.toNat ≠ bitsOf c 31 16 then
      if here ∨ x.core = some u.core then some (.segGenMismatch, s)
      else if (x.core.isSome && (x.att > 0 || x.reloading)) || (s.readBacking x).toBool = false then none
      else match s.room u.core x.size with
        | (_, none) => none
        | (s, some off) =>
          match s.evict x with
          | .error _ => none
          | .ok s => some (.segGenMismatch, s.beginReload x u.core off)
    else none

/-- Issue a SEGATT's results, whose value is not known yet, and go on; then what it does. -/
def State.segattIssue (s : State) (g : Gang) (w : MemWord) (lanes : List (Nat × Nat)) (name : DWord)
    (act : State → WorkUnit → Segatt → State) : State :=
  let c := g.segControl w
  let ids := (List.range (g.counted lanes).length).map (g.u.nextResult + ·)
  let a : Segatt := { control := c, tag := c % 64, waiter := { unit := g.u.uid, results := ids, tag := c % 64 } }
  let s := s.modifyUnit g.u.uid fun u =>
    u.issueLong g w.c.sb lanes [] (fun _ => .segment name) (onceResult lanes w.data.toNat 0 2 1)
  (act s g.u a).finishMem g w

/-- The read of a create record: aligned to 8 bytes, and split like any load where it crosses a 64 KiB boundary (R253, R288). -/
def State.recordPlan (s : State) (ctx va : Nat) : Except LaneFault (List Piece) :=
  if va % 8 ≠ 0 then .error ⟨.misaligned, va, accessInfo false false 0⟩ else s.plan ctx ⟨.read, 1, false⟩ va 32

/-- SEGATT: attach a segment, or create one with .new (R288). -/
def execSegatt (w : MemWord) : State → Host.Outcome State Fault Refusal :=
  segWord 0x151 w (fun g => w.cache || segattReserved (g.segControl w))
    (fun g => !loadRunOk g.head.regs w.data.toNat 1 || g.segControl w % 64 ≥ g.u.ntags) (runRegs w.data.toNat 1)
    fun s g lanes =>
      let c := g.segControl w
      let va := g.onceAddr w lanes
      let busy := !(g.u.tag (c % 64)).free
      if bitOf c 8 then
        match s.recordPlan g.u.ctx va with
        | .error f => s.enterTrap g { g.namedTrap f.cause lanes w.data (BitVec.ofNat 64 f.addr) with info := fun _ => f.info }
        | .ok ps =>
          if s.unreadable ps then
            s.enterTrap g (g.namedTrap .memUncorrectable lanes w.data (BitVec.ofNat 64 ((s.badByte ps).getD va)))
          else
            let s := s.countElided g.u.ctx ps
            let bs := natLe 32 (g.readLane s (lanes.headD (0, 0)) 0 ps)
            match createRecord ((List.range 4).map fun i => BitVec.ofNat 64 (leNat ((bs.drop (8 * i)).take 8))) with
            | none => s.enterTrap g (g.allTrap .illegalOperand lanes w.data)
            | some r =>
              if busy then s.enterTrap g (g.allTrap .tagOverrun lanes w.data)
              else s.segattIssue g w lanes r.name fun s u a => s.segattNew u a r
      else
        let name := BitVec.ofNat 64 va
        if busy then s.enterTrap g (g.allTrap .tagOverrun lanes w.data)
        else match s.segattFault g.u c name, s.segment? g.u.ctx name with
          | some f, _ => f.2.enterTrap g (g.namedTrap f.1 lanes w.data name)
          | none, some x => s.segattIssue g w lanes name fun s u a => s.segattOld u a x
          | none, none => s

end Sys2Proof.Machine
end

