-- ==== Sys2Proof/Machine/Engines.lean ====
section
/-! DEFINITION. The streamer: copy commands and their performance (R290-R301), counts, counters and failures (R299-R308), and the
commands' issue. -/

namespace Sys2Proof.Machine

/-! ### A command at work -/

/-- A running command: the state, the cause that stopped it, its count, the bytes it wrote in memory and scratchpad, and the stretch of
its destination that the row under way writes whole. -/
structure Engine where
  s : State
  uid : Nat
  ctx : Nat
  fail : Option Cause
  count : Nat
  mem : List (Nat × Nat)
  scr : List (Nat × Nat)
  span : Nat × Nat

def Engine.start (s : State) (uid ctx : Nat) : Engine := ⟨s, uid, ctx, none, 0, [], [], (0, 0)⟩

/-- Stop on a fault (R307). -/
def Engine.stop (e : Engine) (c : Cause) : Engine := { e with fail := some (e.fail.getD c) }

/-- The pieces of an engine's access to memory: no wake cell (R94). -/
def State.enginePieces (s : State) (ctx : Nat) (acc : Access) (va n : Nat) : Except Cause (List Piece) :=
  match s.pieces ctx acc va n with
  | .error f => .error f.cause
  | .ok ps => if ps.any fun p => inWake p.leaf.pa then .error .physUnmapped else .ok ps

/-- An engine's read of n bytes (R307): from memory, or at a scratch offset of the unit. -/
def Engine.read (e : Engine) (scr : Bool) (a n : Nat) : Engine × List Byte :=
  if e.fail.isSome then (e, [])
  else if scr then
    match e.s.unit? e.uid with
    | none => (e.stop .scratchBounds, [])
    | some u =>
      if (e.s.scratchBad u a n).isSome then (e.stop .scratchBounds, [])
      else if e.s.scratchUnreadable u a n then (e.stop .memUncorrectable, [])
      else (e, e.s.scratchRead u a n)
  else
    match e.s.enginePieces e.ctx .read a n with
    | .error c => (e.stop c, [])
    | .ok ps =>
      if ps.any fun p => e.s.uncorrectableAt p.leaf.pa p.len then (e.stop .memUncorrectable, [])
      else ({ e with s := e.s.countElided e.ctx ps }, e.s.readPieces ps)

/-- Whether one of two stretches holds n bytes from lo on. -/
def inSpans (x y : Nat × Nat) (lo n : Nat) : Bool :=
  decide (x.1 ≤ lo ∧ lo + n ≤ x.1 + x.2) || decide (y.1 ≤ lo ∧ lo + n ≤ y.1 + y.2)

/-- Whether a write meets an uncorrectable unit of memory that neither it nor the row it belongs to writes whole (R269). -/
def Engine.partialBad (e : Engine) (a n : Nat) (ps : List Piece) : Bool :=
  ps.any fun p => e.s.badSectors.any fun b =>
    meetsUnit p.leaf.pa p.len b && !inSpans e.span (a, n) (p.va + b - p.leaf.pa) (errorUnit (fabLocal b))

/-- The same for 8-byte words of the scratchpad. -/
def Engine.partialBadScratch (e : Engine) (u : WorkUnit) (a n : Nat) : Bool :=
  let bad := e.s.badScratchWords u
  !bad.isEmpty && (scratchWords a n).any fun k => bad.contains k && !inSpans e.span (a, n) (8 * k) 8

/-- An engine's write; one that would have to merge into an uncorrectable unit stops the command (R269, R307). -/
def Engine.write (e : Engine) (scr : Bool) (a : Nat) (bs : List Byte) : Engine :=
  if e.fail.isSome then e
  else if scr then
    match e.s.unit? e.uid with
    | none => e.stop .scratchBounds
    | some u =>
      if (e.s.scratchBad u a bs.length).isSome then e.stop .scratchBounds
      else if e.partialBadScratch u a bs.length then e.stop .memUncorrectable
      else { e with s := e.s.scratchWrite u.uid u.core a bs, scr := e.scr ++ [(a, bs.length)] }
  else
    match e.s.enginePieces e.ctx .write a bs.length with
    | .error c => e.stop c
    | .ok ps =>
      if e.partialBad a bs.length ps then e.stop .memUncorrectable
      else
        let ws := cutPieces ps bs
        { e with s := ws.foldl (fun s w => s.storeBytes w.1 w.2) e.s, mem := e.mem ++ ws.map fun w => (w.1, w.2.length) }

/-- The end of a command's writes: units of storage it wrote whole are good again (R269). -/
def Engine.settle (e : Engine) : State :=
  let s := e.s.settleSectors e.ctx e.mem
  match s.unit? e.uid with
  | some u => s.settleScratch u e.scr
  | none => s

/-! ### Copies (R294-R299) -/

/-- A descriptor's fields. -/
def descAt (d : List Word) (n : Nat) : Nat := (d.getD n 0).toNat
def descPair (d : List Word) (n : Nat) : Nat := descAt d n + descAt d (n + 1) * 2 ^ 32
def descEsz (d : List Word) : Nat := bitsOf (descAt d 4) 2 0
def descSize (d : List Word) : Nat := 2 ^ descEsz d
def descDims (d : List Word) : Nat := bitsOf (descAt d 4) 4 3
def descSsc (d : List Word) : Bool := bitOf (descAt d 4) 5
def descDsc (d : List Word) : Bool := bitOf (descAt d 4) 6
def descTag (d : List Word) : Nat := bitsOf (descAt d 4) 13 8
def descTen (d : List Word) : Bool := bitOf (descAt d 4) 14
def descCmb (d : List Word) : Bool := bitOf (descAt d 4) 15
def descCop (d : List Word) : Nat := bitsOf (descAt d 4) 17 16
def descEx (d : List Word) : Nat := bitsOf (descAt d 5) 15 0 + 1
def descEy (d : List Word) : Nat := bitsOf (descAt d 5) 31 16 + 1
def descEz (d : List Word) : Nat := bitsOf (descAt d 6) 15 0 + 1
def descBz (d : List Word) : Nat := bitsOf (descAt d 6) 31 16
def descIsc (d : List Word) : Bool := bitOf (descAt d 9) 0

/-- A base address or scratch offset. -/
def descSrc (d : List Word) : Nat := if descSsc d then descPair d 0 % 2 ^ 21 else descPair d 0
def descDst (d : List Word) : Nat := if descDsc d then descPair d 2 % 2 ^ 21 else descPair d 2

/-- A place off a base: virtual addresses wrap at 2^64. -/
def placeAt (scr : Bool) (base off : Nat) : Nat := if scr then base + off else (base + off) % 2 ^ 64

/-- What a row does with an element: nothing, zero fill, or the source's place. -/
inductive Element where
  | skip
  | zero
  | copy (a : Nat)
  deriving DecidableEq, Repr, Inhabited

def Element.isCopy : Element → Bool
  | .copy _ => true
  | _ => false

/-- COP: how CPYS combines an element (R298). -/
def combineElement (fpm : BitVec 4) (cop old b : Nat) : Nat :=
  match cop with
  | 0 => sopElement fpm 0 old b
  | 1 => sopElement fpm 1 old b
  | _ => sopElement fpm 7 old b

/-- Put an element: a write, or an addition to what stands there (R298). -/
def Engine.put (e : Engine) (d : List Word) (fpm : BitVec 4) (a : Nat) (v : List Byte) : Engine :=
  if descCmb d then
    let r := e.read (descDsc d) a 4
    r.1.write (descDsc d) a (natLe 4 (combineElement fpm (descCop d) (leNat r.2) (leNat v)))
  else e.write (descDsc d) a v

/-- One element of a row. -/
def Engine.element (e : Engine) (d : List Word) (fpm : BitVec 4) (a : Nat) (x : Element) : Engine :=
  match x with
  | .skip => e
  | .zero => e.write (descDsc d) a (List.replicate (descSize d) 0)
  | .copy src =>
    let r := e.read (descSsc d) src (descSize d)
    r.1.put d fpm a r.2

/-- The sectors of a row that count (R299): those that hold a byte of an element with in(x) = 1 and whose bytes of the row lie
below element `done`. -/
def rowSectors (drow s ex done : Nat) (copies : Nat → Bool) : Nat :=
  ((sectorsOf drow (ex * s)).filter fun k =>
    let xs := (List.range ex).filter fun x => decide (drow + x * s < k * 32 + 32 ∧ k * 32 < drow + x * s + s)
    xs.any copies && xs.all (· < done)).length

/-- A row: its elements in ascending x, then its count (R299). The first element that faults ends the command. -/
def Engine.row (e : Engine) (d : List Word) (fpm : BitVec 4) (drow : Nat) (elem : Nat → Element) : Engine :=
  if e.fail.isSome then e
  else
    let s := descSize d
    let ex := descEx d
    let written := ((List.range ex).takeWhile fun x => elem x != .skip).length
    let r := (List.range ex).foldl (init := ({ e with span := (drow, written * s) }, 0)) fun acc x =>
      let e' := acc.1.element d fpm (placeAt (descDsc d) drow (x * s)) (elem x)
      (e', if e'.fail.isSome then acc.2 else acc.2 + 1)
    { r.1 with count := r.1.count + rowSectors drow s ex r.2 fun x => (elem x).isCopy }

/-- CPY (R296). -/
def Engine.cpy (e : Engine) (d : List Word) (fpm : BitVec 4) : Engine :=
  let dims := descDims d
  let s := descSize d
  let ox := sext (descAt d 7) 32
  let oy := sext (descAt d 8) 32
  let oz := sext (descAt d 9) 32
  (List.range (descEz d)).foldl (init := e) fun e z =>
    (List.range (descEy d)).foldl (init := e) fun e y =>
      let drow := placeAt (descDsc d) (descDst d) (y * descAt d 14 + z * descAt d 15)
      e.row d fpm drow fun x =>
        let sx := ox + x
        let sy := oy + y
        let sz := oz + z
        let inX : Bool := decide (0 ≤ sx ∧ sx < descAt d 10)
        let inY : Bool := decide (dims = 0 ∨ (0 ≤ sy ∧ sy < descAt d 11))
        let inZ : Bool := decide (dims < 2 ∨ (0 ≤ sz ∧ sz < descBz d))
        if inX && inY && inZ then
          .copy (placeAt (descSsc d) (descSrc d) (sx.toNat * s + sy.toNat * descAt d 12 + sz.toNat * descAt d 13))
        else .zero

/-- Entry r of the index list (R297). -/
def Engine.index (e : Engine) (d : List Word) (r : Nat) : Engine × Nat :=
  let base := if descIsc d then descPair d 7 % 2 ^ 21 else descPair d 7
  let x := e.read (descIsc d) (placeAt (descIsc d) base (4 * r)) 4
  (x.1, leNat x.2)

/-- CPYG (R297). -/
def Engine.cpyg (e : Engine) (d : List Word) (fpm : BitVec 4) : Engine :=
  (List.range (descEy d)).foldl (init := e) fun e r =>
    let x := e.index d r
    if x.1.fail.isSome ∨ x.2 = 0xFFFFFFFF then x.1
    else x.1.row d fpm (placeAt (descDsc d) (descDst d) (r * descAt d 14)) fun k =>
      if x.2 < descAt d 11 ∧ k < descAt d 10 then
        .copy (placeAt (descSsc d) (descSrc d) (x.2 * descAt d 12 + k * descSize d))
      else .zero

/-- CPYS (R298). -/
def Engine.cpys (e : Engine) (d : List Word) (fpm : BitVec 4) : Engine :=
  (List.range (descEy d)).foldl (init := e) fun e r =>
    let x := e.index d r
    if x.1.fail.isSome ∨ x.2 = 0xFFFFFFFF ∨ x.2 ≥ descAt d 11 then x.1
    else x.1.row d fpm (placeAt (descDsc d) (descDst d) (x.2 * descAt d 14)) fun k =>
      if k < descAt d 10 then .copy (placeAt (descSsc d) (descSrc d) (r * descAt d 12 + k * descSize d)) else .skip

/-! ### The end of a command (R302, R305, R307, R308) -/

/-- An add to a counter in memory by an engine (R305), or the cause that stops it. -/
def State.counterAdd (s : State) (ctx : Nat) (va : DWord) (n : Nat) : Except Cause State :=
  match alignFault ⟨.write, 8, true⟩ va.toNat 8 with
  | some c => .error c
  | none =>
    match s.enginePieces ctx .write va.toNat 8 with
    | .error c => .error c
    | .ok ps =>
      if ps.any fun p => s.uncorrectableAt p.leaf.pa p.len then .error .memUncorrectable
      else .ok (s.storeAll ctx (cutPieces ps (natLe 8 (leNat (s.readPieces ps) + n))))

/-- A command that failed after its unit's exit is logged with its context (R308). -/
def State.logCommand (s : State) (u : WorkUnit) (c : Cause) : State :=
  s.modifyDie u.die fun d => { d with errorLog := d.errorLog ++ [(c.code, u.ctx, BitVec.ofNat 64 u.unitId)] }

/-- A command of a unit ends: its counts, its failure, its latch (R302, R307). -/
def State.commandEnd (s : State) (q : Nat) (c : Command) (count : Nat) (fail : Option Cause) : State :=
  match s.unit? c.unit with
  | none => s
  | some u =>
    let s := match fail with
      | some f => if u.residence = Residence.exited then s.logCommand u f else s
      | none => s
    let s := s.modifyUnit u.uid fun u =>
      let u := match c.tag with
        | some t => u.modifyTag t fun t =>
            let t := if count = 0 then t else t.count count
            let t := { t with infl := t.infl - 1 }
            match fail with | some f => t.failed f | none => t
        | none => u
      let u := match fail with
        | some f => { u with latches := listModify u.latches q fun _ => some f }
        | none => u
      { u with slices := u.slices.map Slice.wake }
    s.commandDone u.uid c.id

/-- Take the head off a queue: gangs held by a full queue may issue again (R290). -/
def State.popQueue (s : State) (core bank q : Nat) : State :=
  let s := s.modifyBank core bank fun b => { b with queues := listModify b.queues q fun l => l.drop 1 }
  { s with units := s.units.map fun u =>
      if u.core = core ∧ u.bank = bank ∧ u.residence = .resident then { u with slices := u.slices.map Slice.wake } else u }

/-- The counter add of a command that has not failed (R305). -/
def State.commandCounter (s : State) (u : WorkUnit) (c : Command) (count : Nat) (fail : Option Cause) : State × Option Cause :=
  match fail, c.counter with
  | none, some va =>
    match s.counterAdd u.ctx va count with
    | .ok s => (s, none)
    | .error f => (s, some f)
  | f, _ => (s, f)

/-- Perform a copy command whole. -/
def State.performCopy (s : State) (q : Nat) (u : WorkUnit) (c : Command) (run : Engine → Engine) : State :=
  let e := run (Engine.start s u.uid u.ctx)
  let r := e.settle.commandCounter u c e.count e.fail
  r.1.commandEnd q c e.count r.2

/-- WBLD's image into the weight buffer, region offset by byte (R326): each 32-byte sector counts once written. -/
def Engine.wbld (e : Engine) (src : DWord) (scr : Bool) (wofs len : Nat) : Engine :=
  (List.range (len / 32)).foldl (init := e) fun e k =>
    if e.fail.isSome then e
    else
      let r := e.read scr (placeAt scr src.toNat (32 * k)) 32
      if r.1.fail.isSome then r.1
      else { r.1 with
        count := r.1.count + 1
        s := r.1.s.modifyUnit e.uid fun u =>
          { u with weights := sparseWrite u.weights (wofs + 32 * k) r.2,
                   badWeights := u.badWeights.filter (· / 4 != wofs / 32 + k) } }

/-- An EQFENCE is complete once it heads every queue it stands in (R301). -/
def fenceMet (qs : List (List Command)) (id : Nat) : Bool :=
  qs.all fun q => !(q.any fun c => c.kind == .fence id) || (q.head?.map (·.kind)) == some (.fence id)

/-- Take a met EQFENCE out of its queues. -/
def State.dropFence (s : State) (core bank id : Nat) : State :=
  let s := s.modifyBank core bank fun b => { b with queues := b.queues.map fun q => q.filter fun c => c.kind != .fence id }
  { s with units := s.units.map fun u =>
      if u.core = core ∧ u.bank = bank ∧ u.residence = .resident then { u with slices := u.slices.map Slice.wake } else u }

/-! ### Issue (R290, R293, R295) -/

/-- The descriptor run of a word. -/
def Gang.descriptor (g : Gang) (lanes : List (Nat × Nat)) (spec n : Nat) : List Word :=
  let x := g.first lanes
  (List.range n).map fun i => (x.1.getSpec x.2 (spec + i)).val

/-- A descriptor run of n registers, numbered a multiple of n. -/
def descRunOk (regs spec n : Nat) : Bool := vRunOk regs spec n n || sRunOk spec n n

/-- The fields a CPY must leave zero (R294). -/
def cpyReserved (d : List Word) : Bool :=
  let dims := descDims d
  let z := fun n => descAt d n != 0
  dims == 3 || bitOf (descAt d 4) 15 || bitsOf (descAt d 4) 17 16 != 0 ||
  (dims == 0 && (bitsOf (descAt d 5) 31 16 != 0 || z 8 || z 11 || z 12 || z 14)) ||
  (dims < 2 && (z 6 || z 9 || z 13 || z 15))

/-- The fields a CPYG or CPYS must leave zero (R294). -/
def gatherReserved (d : List Word) (scatter : Bool) : Bool :=
  descDims d != 0 || descAt d 6 != 0 || descAt d 9 > 1 || descAt d 13 != 0 || descAt d 15 != 0 ||
  (if scatter then (if descCmb d then descCop d == 3 else descCop d != 0) else descCmb d || descCop d != 0)

/-- Whether a descriptor faults ILLEGAL_OPERAND (R295). -/
def descBad (u : WorkUnit) (d : List Word) (kind : Nat) : Bool :=
  descEsz d > 4 || bitOf (descAt d 4) 7 || bitsOf (descAt d 4) 31 18 != 0 ||
  (if kind = 0 then cpyReserved d else gatherReserved d (kind == 2)) ||
  (descTen d && descTag d ≥ u.ntags) ||
  (descCmb d && (descEsz d != 2 || (descDsc d && descCop d == 2))) ||
  descEx d * descEy d * descEz d * descSize d > 2 ^ 36 ||
  (!descSsc d && !canonicalVa (descPair d 0)) || (!descDsc d && !canonicalVa (descPair d 2)) ||
  (kind != 0 && descPair d 7 % 4 != 0)

/-- Put a command into a queue. -/
def State.enqueue (s : State) (u : WorkUnit) (q : Nat) (c : Command) : State :=
  let s := s.modifyBank u.core u.bank fun b => { b with queues := listChange [] (· ++ [c]) b.queues q }
  match c.tag with
  | some t => s.modifyUnit u.uid fun u => u.modifyTag t fun t => { t with infl := t.infl + 1 }
  | none => s

/-- Whether a queue of the unit's bank is full (R290). -/
def State.queueFull (s : State) (u : WorkUnit) (q : Nat) : Bool :=
  u.parked.any (·.1 == q) || ((s.bank u.core u.bank).queues.getD q []).length ≥ 64

/-- Issue a command into a queue: the gang is held while the queue is full (R290). -/
def State.issueCommand (s : State) (g : Gang) (opc : Nat) (w : StdWord) (q : Nat) (kind : CommandKind) (tag : Option Nat)
    (counter : Option DWord) (scope : BitVec 2) : State :=
  if s.queueFull g.u q then s.holdWord g
  else
    let n := s.newId
    (n.2.enqueue g.u q { id := n.1, unit := g.u.uid, kind := kind, tag := tag, counter := counter, scope := scope,
                         begun := false, word := encodeStd opc w }).finishWord g w.c.y 1

/-- The counter address of a word with .c. -/
def Gang.counterVa (g : Gang) (lanes : List (Nat × Nat)) (spec : Nat) : DWord :=
  let x := g.first lanes
  BitVec.ofNat 64 (x.1.runValue x.2 spec 2)

/-- CPY, CPYG and CPYS (R293, R295). -/
def copyWord (opc kind : Nat) (w : StdWord) (mk : List Word → CommandKind) : State → Host.Outcome State Fault Refusal :=
  let counted := bitOf w.m 2
  onceWord opc w
    (fun g =>
      { once := true, rights := true, mods := 63, dst := .unused, a := .field, b := if counted then .field else .unused
        reserved := !counted && bitsOf w.m 4 3 != 0
        illegal := !descRunOk g.head.regs w.srcA.toNat 16 || (counted && !addrOk g.head.regs true (specB w)) ||
          descBad g.u (g.descriptor (g.executing w.c) w.srcA.toNat 16) kind
        reads := runRegs w.srcA.toNat 16 ++ (if counted then runRegs (specB w) 2 else []), fn := fun _ _ _ _ _ => {} })
    (fun s g lanes =>
      let d := g.descriptor lanes w.srcA.toNat 16
      s.issueCommand g opc w (w.m % 4) (mk d) (if descTen d then some (descTag d) else none)
        (if counted then some (g.counterVa lanes (specB w)) else none) (BitVec.ofNat 2 (w.m / 8)))

/-- CPY: copy a box (R293, R296). -/
def execCpy (w : StdWord) : State → Host.Outcome State Fault Refusal := copyWord 0x188 0 w .cpy

/-- CPYG: gather rows (R293, R297). -/
def execCpyg (w : StdWord) : State → Host.Outcome State Fault Refusal := copyWord 0x189 1 w .cpyg

/-- CPYS: scatter rows (R293, R298). -/
def execCpys (w : StdWord) : State → Host.Outcome State Fault Refusal := copyWord 0x18A 2 w .cpys

/-- EQFENCE: a joint entry in each named queue (R301). -/
def execEqfence (w : StdWord) : State → Host.Outcome State Fault Refusal :=
  let qs := maskList 4 w.m
  onceWord 0x190 w
    (fun _ => { once := true, rights := true, mods := 15, reserved := w.m % 16 == 0, dst := .unused, fn := fun _ _ _ _ _ => {} })
    (fun s g lanes =>
      if qs.any (s.queueFull g.u) then s.holdWord g
      else
        let n := s.newId
        let c : Command := { id := n.1, unit := g.u.uid, kind := .fence n.1, tag := none, counter := none, scope := 0, begun := false,
                             word := encodeStd 0x190 w }
        (qs.foldl (fun s q => s.enqueue g.u q c) n.2).finishWord g w.c.y 1)

end Sys2Proof.Machine
end

