-- ==== Sys2Proof/Machine/Collect.lean ====
section
/-! DEFINITION. The collective engine: COLL, contributions, completion and timeout (R309-R311). -/

namespace Sys2Proof.Machine

/-! ### What a collective computes (R310) -/

/-- The parameters of a descriptor run c0-c7 (R309). -/
def collParams (d : List Word) : CollParams :=
  let c7 := d.getD 7 0
  { kind := c7.extractLsb' 0 2, fmt := c7.extractLsb' 2 2, rop := c7.extractLsb' 4 2, count := descAt d 6 }

def collNumber (d : List Word) : Nat := bitsOf (descAt d 7) 31 16

/-- Bytes of an element. -/
def collSize (p : CollParams) : Nat := if p.fmt = 1 then 8 else 4

/-- Elements of each chip's input, and of its output, with n chips. -/
def collInput (p : CollParams) (n : Nat) : Nat := if p.kind = 0 then n * p.count else p.count
def collOutput (p : CollParams) (n : Nat) : Nat := if p.kind = 1 then n * p.count else p.count

/-- An operation on one element of an IEEE format. -/
def collFloat (fpm : BitVec 4) (rop : BitVec 2) (f : Ieee) (a b : Nat) : Nat :=
  if rop = 0 then (f.add fpm 0 false false a b).code else (f.minMax fpm (rop == 2) false a b).code

/-- Op of R310. -/
def collOp (fpm : BitVec 4) (p : CollParams) (a b : Nat) : Nat :=
  if p.fmt = 0 then collFloat fpm p.rop fp32 a b
  else if p.fmt = 1 then collFloat fpm p.rop fp64 a b
  else if p.fmt = 2 then
    collFloat fpm p.rop bf16 (half a 0) (half b 0) + collFloat fpm p.rop bf16 (half a 1) (half b 1) * 2 ^ 16
  else if p.rop = 0 then (a + b) % 2 ^ 32
  else if p.rop = 1 then (if sext b 32 < sext a 32 then b else a)
  else (if sext a 32 < sext b 32 then b else a)

/-- One level of Tree (R310). -/
def treeLevel (op : Nat → Nat → Nat) : List Nat → List Nat
  | a :: b :: t => op a b :: treeLevel op t
  | l => l

/-- Tree (R310): at most one level for each element. -/
def treeGo (op : Nat → Nat → Nat) : Nat → List Nat → Nat
  | 0, l => l.headD 0
  | n + 1, l => if l.length ≤ 1 then l.headD 0 else treeGo op n (treeLevel op l)

def tree (op : Nat → Nat → Nat) (l : List Nat) : Nat := treeGo op l.length l

/-- The elements held in bytes. -/
def elementsOf (e : Nat) : Nat → List Byte → List Nat
  | 0, _ => []
  | n + 1, bs => leNat (bs.take e) :: elementsOf e n (bs.drop e)

/-- A chip's output, from every chip's input in rank order. -/
def collResult (fpm : BitVec 4) (p : CollParams) (rank : Nat) (inputs : List (List Byte)) : List Byte :=
  let e := collSize p
  if p.kind = 1 then inputs.flatten
  else
    let from' := if p.kind = 0 then rank * p.count else 0
    let xs := inputs.map fun bs => elementsOf e p.count (bs.drop (from' * e))
    (List.range p.count).flatMap fun i => natLe e (tree (collOp fpm p) (xs.map fun l => l.getD i 0))

/-! ### A collective in flight -/

/-- The rank of a chip and the chips of a launch's run (R78, R310). -/
def Launch.rank (l : Launch) (chip : Nat) : Nat := if l.replicated then chip - l.chip0 else 0
def Launch.members (l : Launch) : Nat := if l.replicated then l.chips else 1

/-- An engine's read of any number of bytes of memory, cut at 64 KiB. -/
def Engine.readLong (e : Engine) (va : Nat) : Nat → Nat → Engine × List Byte
  | 0, _ => (e, [])
  | fuel + 1, n =>
    if n = 0 ∨ e.fail.isSome then (e, [])
    else
      let k := min n 4096
      let r := e.read false (va % 2 ^ 64) k
      let t := r.1.readLong (va + k) fuel (n - k)
      (t.1, r.2 ++ t.2)

/-- An engine's write of any number of bytes of memory. -/
def Engine.writeLong (e : Engine) (va : Nat) : Nat → List Byte → Engine
  | 0, _ => e
  | fuel + 1, bs =>
    if bs.isEmpty ∨ e.fail.isSome then e
    else (e.write false (va % 2 ^ 64) (bs.take 4096)).writeLong (va + 4096) fuel (bs.drop 4096)

/-- Give a contribution to a collective: parameters that differ, or a peer that failed, fail it (R311). -/
def Collective.take (c : Collective) (m : CollMessage) (rank : Nat) : Collective :=
  match m.input with
  | none => { c with failed := some (c.failed.getD (if m.late then .collTimeout else .collMismatch)) }
  | some bs =>
    if m.params ≠ c.params then { c with failed := some (c.failed.getD .collMismatch) }
    else if c.inputs.any (·.1 == rank) then c
    else { c with inputs := c.inputs ++ [(rank, bs)] }

/-- Whether a message belongs to a collective (R310). -/
def collMeant (m : CollMessage) (c : Collective) : Bool :=
  m.generation == c.generation && m.cnum == c.cnum && m.occurrence == c.occurrence

/-- Mark the head command of a queue as begun. -/
def State.beginHead (s : State) (core bank q : Nat) : State :=
  s.modifyBank core bank fun b => { b with queues := listModify b.queues q fun l =>
    match l with
    | c :: t => { c with begun := true } :: t
    | [] => [] }

/-- A COLL reaches the collective engine: it takes its occurrence number and reads its input; contributions that came early are
matched (R310). -/
def State.collStart (s : State) (core bank : Nat) (u : WorkUnit) (l : Launch) (c : Command) (d : List Word) (issued : Nat) :
    State :=
  let p := collParams d
  let cnum := collNumber d
  let occ := sparseGet 0 l.occurrences cnum + 1
  let n := collInput p l.members * collSize p
  let r := (Engine.start s u.uid u.ctx).readLong (descPair d 0) (n / 4096 + 1) n
  let id := r.1.s.newId
  let col : Collective :=
    { id := id.1, die := l.die, lslot := l.slot, unit := u.uid, core := core, bank := bank, command := c.id, cnum := cnum,
      occurrence := occ, params := p, dst := BitVec.ofNat 64 (descPair d 2), counter := BitVec.ofNat 64 (descPair d 4),
      ctx := u.ctx, generation := (l.cinch.map (·.generation)).getD 0,
      inputs := if r.1.fail.isSome then [] else [(l.rank s.chip, r.2)], failed := r.1.fail, since := issued }
  let mine := if l.replicated then id.2.early.filter (collMeant · col) else []
  let col := mine.foldl (fun col m => col.take m (l.rank m.chip)) col
  let s := (id.2.modifyLaunch l.die l.slot fun l => { l with occurrences := sparsePut l.occurrences cnum occ }).beginHead core bank 0
  { s with early := s.early.filter (!mine.contains ·), collectives := s.collectives ++ [col] }

/-- COLL_CONTRIBUTION: a peer's contribution is matched by launch, CNUM and occurrence; one that comes before the local COLL
waits for it (R310). -/
def execCollContribution (m : CollMessage) (s : State) : Host.Outcome State Fault Refusal :=
  let give := fun (c : Collective) =>
    match s.launch? c.die c.lslot with
    | some l =>
      if collMeant m c ∧ l.replicated ∧ l.chip0 ≤ m.chip ∧ m.chip < l.chip0 + l.chips then c.take m (l.rank m.chip) else c
    | none => c
  if s.collectives.any fun c => collMeant m c then .next { s with collectives := s.collectives.map give }
  else .next { s with early := s.early ++ [m] }

/-- A collective ends: its command leaves e0, and a failure latches on e0 (R309, R311). -/
def State.collEnd (s : State) (c : Collective) (fail : Option Cause) : State :=
  let head := ((s.bank c.core c.bank).queues.getD 0 []).find? (·.id == c.command)
  let s := { s with collectives := s.collectives.filter (·.id != c.id) }
  match head with
  | some cmd => (s.popQueue c.core c.bank 0).commandEnd 0 cmd 0 fail
  | none => s

/-- Write a collective's output and count it; a failure leaves both as they were (R310, R311). -/
def State.collWrite (s : State) (c : Collective) (l : Launch) : State :=
  let fpm := ((s.context c.ctx).map (·.fpmode)).getD 0
  let ordered := (List.range l.members).map fun r => ((c.inputs.find? (·.1 == r)).map (·.2)).getD []
  let out := collResult fpm c.params (l.rank s.chip) ordered
  let e := { Engine.start s c.unit c.ctx with span := (c.dst.toNat, out.length) }.writeLong c.dst.toNat (out.length / 4096 + 1) out
  match e.fail with
  | some f => s.collEnd c (some f)
  | none =>
    match e.settle.counterAdd c.ctx c.counter 1 with
    | .error f => s.collEnd c (some f)
    | .ok s => s.collEnd c none

/-- COLL_COMPLETE: once every input is in the output is written, or a collective that failed ends (R310, R311). -/
def execCollComplete (id : Nat) (s : State) : Host.Outcome State Fault Refusal :=
  match s.collectives.find? (·.id == id) with
  | none => .next s
  | some c =>
    match c.failed, s.launch? c.die c.lslot with
    | some f, _ => .next (s.collEnd c (some f))
    | none, some l => if c.inputs.length = l.members then .next (s.collWrite c l) else .next s
    | none, none => .next (s.collEnd c none)

/-- COLL_TIMEOUT: a peer's contribution is missing 2^28 cycles after the local issue (R311). -/
def execCollTimeout (id : Nat) (s : State) : Host.Outcome State Fault Refusal :=
  match s.collectives.find? (·.id == id) with
  | none => .next s
  | some c =>
    let missing := (s.launch? c.die c.lslot).any fun l => c.inputs.length < l.members
    if missing ∧ c.failed.isNone ∧ c.since + 2 ^ 28 ≤ s.clock then .next (s.collEnd c (some .collTimeout)) else .next s

/-! ### Issue (R309) -/

/-- A descriptor that faults ILLEGAL_OPERAND. -/
def collBad (d : List Word) : Bool :=
  let p := collParams d
  p.kind == 3 || p.rop == 3 || (p.kind == 1 && p.rop != 0) || bitsOf (descAt d 7) 15 6 != 0 || p.count == 0 ||
  p.count > 2 ^ 28 || descPair d 4 % 8 != 0

/-- COLL: a command of copy queue e0 for the die's collective engine (R309). -/
def execColl (w : StdWord) : State → Host.Outcome State Fault Refusal :=
  onceWord 0x191 w
    (fun g =>
      { once := true, rights := true, mods := 0, dst := .unused, a := .field, reads := runRegs w.srcA.toNat 8
        illegal := !descRunOk g.head.regs w.srcA.toNat 8 || collBad (g.descriptor (g.executing w.c) w.srcA.toNat 8)
        fn := fun _ _ _ _ _ => {} })
    (fun s g lanes =>
      s.issueCommand g 0x191 w 0 (.coll (g.descriptor lanes w.srcA.toNat 8) s.clock) none none 0)

end Sys2Proof.Machine
end

