-- ==== Sys2Proof/Machine/Sync.lean ====
section
/-! DEFINITION. Barriers (R392-R395), tickets (R396-R399) and the deterministic merge (R400-R404). -/

namespace Sys2Proof.Machine

/-! ### Barriers -/

/-- The unit's workgroup barrier slot (R156). -/
def WorkUnit.barrier (u : WorkUnit) : Nat := u.bslots.headD 0

/-- Whether a slice's last arrival at a slot is in a phase that has not completed (R392). -/
def Slice.arrived (sl : Slice) (slot : Nat) : Bool := sl.arrivals.any (·.1 == slot)

/-- A slice arrives at a slot in its phase, which it records (R392, R393). -/
def Slice.arrive (slot : Nat) (phase : Bool) (sl : Slice) : Slice :=
  { sl with arrivals := sl.arrivals ++ [(slot, phase)], lastPhase := phase }

/-- Whether a BAR of the unit is a merge point (R395, R400). -/
def Gang.merges (g : Gang) : Bool := g.u.det && decide (g.l.kind < 2)

/-- The phase of a slot. -/
def State.phaseOf (s : State) (g : Gang) (slot : Nat) : Bool := ((s.bank g.u.core g.u.bank).slot slot).phase

/-- Whether a word's wait has begun and is not over. -/
def Wait.isWaiting : Wait → Bool
  | .barrier _ _ _ => true
  | .atBar _ => true
  | .merge _ => true
  | .window _ _ _ => true
  | _ => false

/-- The slices of a gang arrive by a word, each once: one whose earlier arrival stands in a phase that has not completed is held until
it has (R392). -/
def State.arriveAll (s : State) (g : Gang) (slot : Nat) (wait : Wait) (unwaited : Bool) : State :=
  let phase := s.phaseOf g slot
  (s.modifyUnit g.u.uid fun u => u.modifySlices g.ps fun sl =>
    if sl.wait = .done then sl
    else if sl.arrived slot then { sl with wait := .again }
    else { sl.arrive slot phase with wait := wait, unwaited := unwaited }).afterSlices g.u.uid

/-- Whether every slice of a gang is done with the word it stands at. -/
def Gang.allDone (g : Gang) : Bool := g.ps.all fun p => (g.u.slice p).wait == .done

/-- Arrive and wait (R392). -/
def State.barrierWait (s : State) (g : Gang) (slot : Nat) (epoch : Option Nat) : State :=
  s.arriveAll g slot (.barrier slot (s.phaseOf g slot) epoch) false

/-- A word that arrives and waits, its checks passed: it is issued once, and done when its wait is over. -/
def State.barrierWord (s : State) (g : Gang) (y : Bool) (slot : Nat) (epoch : Option Nat) : State :=
  if g.allDone then s.finishWord g y 1
  else if g.ps.any fun p => (g.u.slice p).wait.isWaiting then s
  else s.barrierWait g slot epoch

/-- The epoch a BAR of the gang waits for. -/
def Gang.barEpoch (g : Gang) : Option Nat := if g.merges then some g.u.interval else none

/-- BAR: arrive at the workgroup barrier and wait for the phase; in deterministic mode also a merge point (R393, R402). -/
def execBar (w : CtlWord) (s : State) : Host.Outcome State Fault Refusal :=
  match s.gang with
  | none => .next s
  | some g =>
    match g.ctlTrap s 0x1D0 w g.activePlaces true 0 0 with
    | some t => .next (s.enterTrap g t)
    | none => .next (s.barrierWord g w.c.y g.u.barrier g.barEpoch)

/-- ARRIVE: arrive at the workgroup barrier and go on (R393). -/
def execArrive (w : CtlWord) (s : State) : Host.Outcome State Fault Refusal :=
  match s.gang with
  | none => .next s
  | some g =>
    match g.ctlTrap s 0x1D1 w g.activePlaces true 0 0 with
    | some t => .next (s.enterTrap g t)
    | none =>
      let slot := g.u.barrier
      if g.ps.any fun p => (g.u.slice p).wait != .done && (g.u.slice p).arrived slot then .next (s.arriveAll g slot .done true)
      else
        let phase := s.phaseOf g slot
        let come := fun (sl : Slice) => if sl.wait = .done then sl else { sl.arrive slot phase with unwaited := true }
        .next ((s.modifyUnit g.u.uid fun u => u.modifySlices g.ps come).finishWord g w.c.y 1)

/-- WAITB: wait until the phase of the last arrival has completed (R393). -/
def execWaitb (w : CtlWord) (s : State) : Host.Outcome State Fault Refusal :=
  match s.gang with
  | none => .next s
  | some g =>
    match g.ctlTrap s 0x1D2 w g.activePlaces true 0 0 with
    | some t => .next (s.enterTrap g t)
    | none =>
      if g.ps.any fun p => (g.u.slice p).arrived g.u.barrier then .next (s.holdWord g)
      else .next ((s.modifyUnit g.u.uid fun u => u.modifySlices g.ps fun sl => { sl with unwaited := false }).finishWord g w.c.y 1)

/-- Whether CBAR may use a slot: LIVE, and the caller's home gang a member (R394). -/
def State.cbarOk (s : State) (g : Gang) (a : Nat) : Bool :=
  let b := (s.bank g.u.core g.u.bank).slot a
  a < 32 && b.live && b.members.getLsbD g.slot

/-- CBAR: arrive at a cohort slot and wait for the phase; at the workgroup barrier it acts as BAR (R394). -/
def execCbar (w : StdWord) (s : State) : Host.Outcome State Fault Refusal :=
  match s.gang with
  | none => .next s
  | some g =>
    let lanes := g.activePlaces
    let e : AluEntry := { reserved := p7Bad w.c, dst := .unused, a := src32 anyTag, fn := fun _ _ _ _ _ => {} }
    match g.stdTrap s 0x11C w lanes e with
    | some t => .next (s.enterTrap g t)
    | none =>
      let x := g.first lanes
      let a := (x.1.operand x.2 (src32 anyTag) (.spec w.srcA)).val
      if g.allDone then .next (s.finishWord g w.c.y 1)
      else if g.ps.any fun p => (g.u.slice p).wait.isWaiting then .next s
      else if !s.cbarOk g a then .next (s.enterTrap g (g.allTrap .cohortMisuse lanes 0))
      else .next (s.barrierWait g a (if a = g.u.barrier then g.barEpoch else none))

/-! ### Tickets -/

/-- Write one predicate in the executing lanes. -/
def State.setPreds (s : State) (g : Gang) (lanes : List (Nat × Nat)) (n : Nat) (b : Bool) : State :=
  s.modifyUnit g.u.uid fun u => lanes.foldl (init := u) fun u x => u.modifySlice x.1 fun sl => sl.modifyLane x.2 fun ln => ln.setP n b

/-- TKWAIT: held until the turn is the unit's (R397, R399). -/
def execTkwait (w : StdWord) : State → Host.Outcome State Fault Refusal :=
  let p := bitOf w.m 0
  onceWord 0x11D w
    (fun _ => { mods := 1, reserved := p && w.dst.toNat ≥ 8, dst := if p then .field else .unused, fn := fun _ _ _ _ _ => {} })
    (fun s g lanes =>
      if g.l.kind ≥ 2 then s.enterTrap g (g.allTrap .ticketOrder lanes w.dst)
      else if g.l.abort.isSome then
        if p then (s.setPreds g lanes w.dst.toNat true).finishWord g w.c.y 1
        else s.enterTrap g (g.allTrap .ticketAbort lanes w.dst)
      else if g.l.turn = BitVec.ofNat 64 g.u.unitId then
        (if p then s.setPreds g lanes w.dst.toNat false else s).finishWord g w.c.y 1
      else s.holdWord g)

/-- TKPASS: pass the turn (R398). -/
def execTkpass (w : CtlWord) (s : State) : Host.Outcome State Fault Refusal :=
  match s.gang with
  | none => .next s
  | some g =>
    let lanes := g.activePlaces
    match g.ctlTrap s 0x1D3 w lanes true 0 0 with
    | some t => .next (s.enterTrap g t)
    | none =>
      if g.l.kind ≥ 2 ∨ g.l.turn ≠ BitVec.ofNat 64 g.u.unitId then .next (s.enterTrap g (g.allTrap .ticketOrder lanes 0))
      else .next ((s.passTurn g.u.die g.u.lslot g.u.unitId).finishWord g w.c.y 1)

/-! ### The merge (R402, R403) -/

/-- DMERGE: end the unit's interval when every gang has issued it (R404). -/
def execDmerge (w : CtlWord) (s : State) : Host.Outcome State Fault Refusal :=
  match s.gang with
  | none => .next s
  | some g =>
    match g.ctlTrap s 0x1D4 w g.activePlaces true 0 0 with
    | some t => .next (s.enterTrap g t)
    | none =>
      if !g.merges ∨ g.head.wait = .done then .next (s.finishWord g w.c.y 1)
      else if g.head.wait.isWaiting then .next s
      else
        .next ((s.modifyUnit g.u.uid fun u => u.modifySlices g.ps fun sl =>
          { sl with dmergeAt := true, wait := .merge u.interval }).afterSlices g.u.uid)

/-- An interval in its merge: its unit, and its lane where lanes are intervals of their own. -/
structure Interval where
  uid : Nat
  owner : Nat
  deriving DecidableEq, Repr, Inhabited

/-- A merge at work: words stored and words of ordered additions so far, and each conflict with its least address. -/
structure Merge where
  s : State
  stored : List Nat
  added : List Nat
  conflicts : List (Interval × DWord)

/-- Discard an interval's contributions to words an earlier interval stored (R403, entry 22). -/
def State.dropContributions (s : State) (u : WorkUnit) (orders : List Nat) : State :=
  if orders = [] then s
  else
    let lost := fun (c : Contribution) => c.chip == s.chip && c.unitId == u.unitId && orders.contains c.order
    let gen := (s.launch? u.die u.lslot).bind fun l => l.cinch.map (·.generation)
    let keep := fun (w : RunWindow) => if gen = some w.run.generation then { w with contribs := w.contribs.filter (!lost ·) } else w
    ({ s with runWindows := s.runWindows.map keep } : State).modifyLaunch u.die u.lslot fun l =>
      { l with contribs := l.contribs.filter (!lost ·) }

/-- Merge one interval: what an earlier one wrote stands (R402, R403). -/
def Merge.one (m : Merge) (i : Interval) : Merge :=
  match m.s.unit? i.uid with
  | none => m
  | some u =>
    let ws := u.buffer.filter (·.owner == i.owner)
    let oa := u.ordWords.filter (·.owner == i.owner)
    let lostW := ws.filter fun b => m.stored.contains b.pa || m.added.contains b.pa
    let lostO := oa.filter fun o => m.stored.contains o.pa
    let s := (m.s.mergeWords u (ws.filter (!lostW.contains ·))).dropContributions u (lostO.map (·.order))
    let bad := lostW.map (·.va) ++ lostO.map (·.va)
    { s := s, stored := m.stored ++ ws.map (·.pa), added := m.added ++ oa.map (·.pa)
      conflicts := match leastAddr bad with
        | some a => m.conflicts ++ [(i, a)]
        | none => m.conflicts }

/-- Merge intervals in their order; the buffers empty and every unit of the launch reads memory as it now stands (R400). -/
def State.mergeIntervals (s : State) (die slot : Nat) (is : List Interval) : State × List (Interval × DWord) :=
  let m := is.foldl Merge.one ⟨s, [], [], []⟩
  let mine := fun (u : WorkUnit) => u.die == die && u.lslot == slot
  ({ m.s with units := m.s.units.map fun u => if mine u then { u with buffer := [], ordWords := [], snapshot := [] } else u },
   m.conflicts)

/-- Units of a launch. -/
def State.launchUnits (s : State) (l : Launch) : List WorkUnit := s.units.filter fun u => u.die == l.die && u.lslot == l.slot

/-- Whether a unit stands at the merge of epoch j. -/
def WorkUnit.waitsFor (u : WorkUnit) (j : Nat) : Bool := u.slices.any (·.wait == .merge j)

/-- Whether epoch j may merge: every workgroup of the launch has ended its interval j or has exited (R402). -/
def State.epochReady (s : State) (l : Launch) : Bool :=
  let us := s.launchUnits l
  l.kind == 0 && l.det && decide (l.nextUnit ≥ l.unitsTotal) &&
  us.all (fun u => u.residence == .exited || u.interval > l.epoch) &&
  us.any fun u => u.waitsFor l.epoch || !u.buffer.isEmpty || !u.ordWords.isEmpty

/-- The issue gangs of a unit that stand at a merge-point word. -/
def WorkUnit.mergeGangs (u : WorkUnit) (j : Nat) : List GangRef :=
  ((u.slices.filter fun sl => sl.wait == .merge j && !sl.hasExited).map fun sl => ⟨u.uid, sl.home, sl.ig⟩).eraseDups

/-- An issue gang wherever its unit stands. -/
def State.gangAnywhere (s : State) (g : GangRef) : Option Gang :=
  match s.unit? g.unit with
  | none => none
  | some u =>
    match s.launch? u.die u.lslot, s.context u.ctx with
    | some l, some c => some ⟨g, u, l, c, u.positions g.home g.ig⟩
    | _, _ => none

/-- MERGE_CONFLICT of a workgroup at its merge point: each of its issue gangs traps at its own word (R403). -/
def State.conflictTraps (s : State) (uid : Nat) (gangs : List GangRef) (a : DWord) : State :=
  let s := s.modifyUnit uid fun u => { u with slices := u.slices.map fun sl => { sl with mergeAddr := a } }
  gangs.foldl (init := s) fun s ref =>
    match s.gangAnywhere ref with
    | none => s
    | some g => s.enterTrap g { g.allTrap .mergeConflict g.activePlaces 0 with tpc := g.pc + 8, merge := some a }

/-- Abort for a conflict at an ended interval (R403, R445). -/
def State.conflictAbort (s : State) (die slot : Nat) : State :=
  s.abortLaunch die slot ⟨2, Cause.mergeConflict.code, s.chip⟩ (0, 0, 0)

/-- Merge epoch l.epoch of a grid launch (R402, R403). -/
def State.mergeEpoch (s : State) (l : Launch) : State :=
  let j := l.epoch
  let us := sortBy (fun a b => decide (a.unitId < b.unitId)) (s.launchUnits l)
  let gangs := us.flatMap fun u => u.mergeGangs j
  let r := s.mergeIntervals l.die l.slot (us.map fun u => ⟨u.uid, 0⟩)
  let released := fun (sl : Slice) => if sl.wait = .merge j then { sl with wait := .done } else sl
  let go := fun (u : WorkUnit) =>
    if u.die = l.die ∧ u.lslot = l.slot then { u with slices := u.slices.map released } else u
  let s := { r.1 with units := r.1.units.map go }
  let s := s.modifyLaunch l.die l.slot fun l => { l with epoch := j + 1 }
  let ended := fun (i : Interval) => (s.unit? i.uid).any (·.residence == .exited)
  let s' := (r.2.filter fun c => !ended c.1).foldl (init := s) fun s c =>
    s.conflictTraps c.1.uid (gangs.filter (·.unit == c.1.uid)) c.2
  if r.2.any fun c => ended c.1 then s'.conflictAbort l.die l.slot else s'

/-- EPOCH_MERGE: the epoch of a grid launch whose intervals have all ended (R402). -/
def execEpochMerge (die slot : Nat) (s : State) : Host.Outcome State Fault Refusal :=
  match s.launch? die slot with
  | none => .next s
  | some l => if l.abort.isNone && s.epochReady l then .next (s.mergeEpoch l) else .next s

end Sys2Proof.Machine
end

