-- ==== Sys2Proof/Machine/Retire.lean ====
section
/-! DEFINITION. Retirement: when a launch retires (R442), how it drains (R443), its completion record (R444-R446), and the abort
that a rule or another chip brings (R447). -/

namespace Sys2Proof.Machine

/-! ### The completion record -/

/-- Word 0 of a completion record (R444). -/
def statusWord (st : AbortStatus) : DWord := BitVec.ofNat 64 (st.code + st.cls * 2 ^ 8 + 2 ^ 16 + st.chip * 2 ^ 32)

/-- Write a completion record: words 1 to 7, then word 0; where a store faults it is not written and the fault is logged with the
context and the packet index (R446). -/
def State.writeRecord (s : State) (die ctx : Nat) (compl index : DWord) (word0 : DWord) (rest : List DWord) : State :=
  if compl = 0 then s
  else
    match (s.deviceWrite ctx (compl.toNat + 8) (wordsBytes rest)).bind fun s => s.deviceStore8 ctx compl.toNat word0 with
    | .ok s' => s'
    | .error c => s.modifyDie die fun d => { d with errorLog := d.errorLog ++ [(c.code, ctx, index)] }

/-- The record of a packet that was rejected or refused (R89, R108, R445). -/
def State.rejectRecord (s : State) (die ctx : Nat) (words : List DWord) (index : DWord) (st : AbortStatus) : State :=
  s.writeRecord die ctx (wordOf words 2) index (statusWord st) [0, 0, 0, 0, 0, 0, 0]

/-- The status a launch retires with, and the fault record of an abort (R445). -/
def Launch.status (l : Launch) (chip : Nat) : AbortStatus × DWord × DWord × DWord :=
  match l.abort with
  | some x => x
  | none => (⟨0, l.ended.getD 0, chip⟩, 0, 0, 0)

/-- Words 1 to 7 of a launch's record (R444). -/
def Launch.recordWords (l : Launch) (chip : Nat) : List DWord :=
  let r := (l.status chip).2
  let low := fun (lo hi : Nat) => BitVec.ofNat 64 (lo % 2 ^ 32 + (hi % 2 ^ 32) * 2 ^ 32)
  let d := l.domain
  [BitVec.ofNat 64 l.units, (d.map (·.lastT)).getD 0, low ((d.map (·.batches)).getD 0) ((d.map (·.late)).getD 0),
   low ((d.map (·.removed)).getD 0) ((d.map (·.dropped)).getD 0), r.1, r.2.1, r.2.2]

/-! ### The condition and the drain -/

/-- Every line of a frontier is done (R126). -/
def Frontier.isDone (f : Frontier) (l : Launch) : Bool := f.lines.all fun e => e.1 == l.xk + 1

/-- Units of a launch that have not exited: placed, waiting or spilled. -/
def State.liveUnits (s : State) (l : Launch) : List WorkUnit := (s.launchUnits l).filter (·.residence != .exited)

/-- The retirement condition of R442; an aborted launch drains at once (R447). -/
def State.retireReady (s : State) (l : Launch) : Bool :=
  let none' := (s.liveUnits l).isEmpty
  l.abort.isSome || (l.cinch.all (·.released) &&
    (match l.kind with
     | 0 => decide (l.nextUnit ≥ l.unitsTotal) && none'
     | 1 =>
       match l.suspend with
       | some x => none' || (x.spill && (s.liveUnits l).all (·.residence == .spilled))
       | none => (l.frontier.map (·.isDone l)).getD true && none'
     | 2 => l.ended.isSome
     | _ => (l.pool.map fun p => p.tasks.isEmpty && p.spawned.isEmpty && (!l.det || p.roundGangs == 0)).getD true && none'))

/-- Whether engine work of a launch is still to complete (R289, R443 step 1). -/
def State.launchBusy (s : State) (l : Launch) : Bool :=
  let uids := (s.launchUnits l).map (·.uid)
  s.cores.any (fun c => [c.bank0, c.bank1].any fun b => b.queues.any fun q => q.any fun x => uids.contains x.unit) ||
  (s.launchUnits l).any (fun u => u.residence != .spilled && (!u.matq.isEmpty || !u.parked.isEmpty)) || s.queries.any (fun q => uids.contains q.unit) || s.collectives.any fun c => c.die == l.die && c.lslot == l.slot

/-- The end of every window set of a launch, in ascending order (R443 step 2). -/
def State.closeAll (s : State) (l : Launch) : State :=
  (sortedNats (l.contribs.map (·.set))).foldl (fun s set => s.closeSet l.die l.slot set) s

/-- Intervals of a grid not yet merged (R443 step 3); those of the other kinds merge at their own ends (R402). -/
def State.mergeRest (s : State) (l : Launch) : State :=
  if l.det && l.kind == 0 && l.abort.isNone && (s.launchUnits l).any fun u => !u.buffer.isEmpty || !u.ordWords.isEmpty then
    s.mergeEpoch l
  else s

/-- The attachments that a launch's units still hold are released. -/
def State.releaseRest (s : State) (l : Launch) : State :=
  (s.launchUnits l).foldl (init := s) fun s u => u.releases.foldl (fun s r => s.releaseOne u.uid u.ctx r) s

/-- Arrivals held after the last span agreement count as late (R452). -/
def Launch.dropArrivals (l : Launch) : Launch :=
  { l with domain := l.domain.map fun d => { d with late := d.late + d.arrivals.length, arrivals := [] } }

/-- Free a launch and its units; its slot is free (R443). -/
def State.freeLaunch (s : State) (die slot : Nat) : State :=
  { s with
    launches := s.launches.filter fun l => !(l.die == die && l.slot == slot)
    units := s.units.filter fun u => !(u.die == die && u.lslot == slot) }.signal die 1

/-- A replicated launch drains only once the other chips of its run have closed their windows at this chip's homes, or have retired; it tells
them of its own end first (R383, R443). -/
def State.signalEnd (s : State) (l : Launch) : State :=
  if s.runQuiet l then (s.modifyLaunch l.die l.slot fun l => { l with endSignalled := true }).signalRun l none else s

/-! ### The save of a suspended frontier (R437, R438, R440) -/

/-- Runs of equal lines, as long as possible. -/
def runsOf : List (Nat × DWord) → List (Nat × Nat × DWord)
  | [] => []
  | e :: t =>
    match runsOf t with
    | (n, p, w) :: rest => if e.1 = p ∧ e.2 = w then (n + 1, p, w) :: rest else (1, e.1, e.2) :: (n, p, w) :: rest
    | [] => [(1, e.1, e.2)]

/-- The save encoding: header, run records, suspended records (R438). -/
def Launch.saveWords (l : Launch) (f : Frontier) (susp : List (Nat × Nat × Nat)) : List DWord :=
  let n := fun (x : Nat) => BitVec.ofNat 64 x
  let runs := runsOf f.lines
  [0xF0E1, wordOf l.words 6, wordOf l.words 7, n f.lines.length, n runs.length, n susp.length,
   n (64 + 24 * runs.length + 32 * susp.length), n (l.turn.toNat % 2 ^ 40)] ++
  runs.flatMap (fun r => [n r.1, n r.2.1, r.2.2]) ++ susp.flatMap fun r => [n r.1, n r.2.1, n r.2.2, 0]

/-- Store words in order, up to the first that faults: whether all were stored, and the cause (R437). -/
def State.storeWords (s : State) (ctx : Nat) : Nat → List DWord → State × Option Cause
  | _, [] => (s, none)
  | va, w :: t =>
    match s.deviceStore8 ctx (va % 2 ^ 64) w with
    | .ok s' => s'.storeWords ctx (va + 8) t
    | .error c => (s, some c)

/-- The suspended workgroups leave the launch into a save that the device keeps (R440). -/
def State.keepSave (s : State) (l : Launch) (save : DWord) (susp : List (Nat × Nat × Nat)) : State :=
  let mine := fun (u : WorkUnit) => u.die == l.die && u.lslot == l.slot && u.residence == .spilled
  if susp = [] then s
  else
    let us := s.units.filter mine
    ({ s with units := s.units.filter (!mine ·) } : State).modifyContext l.ctx fun c =>
      { c with saves := c.saves ++ [{ addr := save, units := us, images := susp }] }

/-- Write the save of a launch whose points have settled: it retires SUSPENDED, or with DEVICE_ERROR where a store faults (R437). -/
def State.saveFrontier (s : State) (l : Launch) : State :=
  match l.suspend, l.frontier with
  | some x, some f =>
    if l.abort.isSome then s
    else
      let susp := sortBy (fun a b => decide (a.1 < b.1)) x.images
      let r := s.storeWords l.ctx x.save.toNat (l.saveWords f susp)
      let s := r.1.keepSave l x.save susp
      match r.2 with
      | none => s.modifyLaunch l.die l.slot fun l => { l with ended := some 2 }
      | some c =>
        (s.modifyDie l.die fun d => { d with errorLog := d.errorLog ++ [(c.code, l.ctx, x.save)] }).modifyLaunch l.die l.slot
          fun l => { l with abort := some (⟨4, 1, s.chip⟩, 0, 0, 0) }
  | _, _ => s

/-- LAUNCH_RETIRE: the launch drains, writes its record and frees its slot (R443). -/
def execLaunchRetire (die slot : Nat) (s : State) : Host.Outcome State Fault Refusal :=
  match s.launch? die slot with
  | none => .next s
  | some l =>
    if !s.retireReady l || s.launchBusy l then .next s
    else if l.replicated && !l.endSignalled then .next (s.signalEnd l)
    else if s.runOpen l then .next s
    else
      let s := ((s.saveFrontier l).closeAll l).mergeRest l
      match s.launch? die slot with
      | none => .next s
      | some l =>
        let l := if l.abort.isNone then l.dropArrivals else l
        let s := s.writeRecord die l.ctx l.compl l.index (statusWord (l.status s.chip).1) (l.recordWords s.chip)
        .next ((((s.releaseRest l).dropRoom l).freeLaunch die slot).acquireAll)

/-- Whether another chip's abort may reach a launch with a status: before the run's release the refusing chip's, or QF_REPLICA of the
originator's time-out, and PEER_ABORT with the chip whose abort reached the originator first (R108, R445, R447). -/
def Launch.peerStatus (l : Launch) (chip : Nat) (st : AbortStatus) : Bool :=
  let inRun := decide (l.chip0 ≤ st.chip ∧ st.chip < l.chip0 + l.chips)
  let waits := l.cinch.any fun c => !c.originator && !c.released
  l.replicated && inRun &&
    ((st.cls == 4 && st.code == 4 && st.chip != chip) || (waits && st.cls == 1 && decide (1 ≤ st.code ∧ st.code ≤ 10) && st.chip != chip) ||
      (waits && st.cls == 3 && st.code == 0x11))

/-- LAUNCH_ABORT: another chip of a replica run has aborted or refused, and the originator aborts the launch on this chip (R108, R447). -/
def execLaunchAbort (die slot : Nat) (st : AbortStatus) (s : State) : Host.Outcome State Fault Refusal :=
  match s.launch? die slot with
  | none => .next s
  | some l => if l.peerStatus s.chip st then .next (s.abortLaunch die slot st (0, 0, 0)) else .next s

end Sys2Proof.Machine
end

