-- ==== Sys2Proof/Machine/Heads.lean ====
section
/-! DEFINITION. Queue heads: fetching a slot (R96), its generation and CRC (R75, R76, R91), the re-reads (R95, R97), the read index
(R92), and the lottery (R99). -/

namespace Sys2Proof.Machine

/-! ### CRC-32C (R76) -/

/-- One bit of the reflected polynomial. -/
def crcBit (c : Word) : Word := if c.getLsbD 0 then (c >>> 1) ^^^ 0x82F63B78 else c >>> 1

/-- k bits. -/
def crcBits : Nat → Word → Word
  | 0, c => c
  | k + 1, c => crcBits k (crcBit c)

def crcByte (c : Word) (b : Byte) : Word := crcBits 8 (c ^^^ b.setWidth 32)

/-- CRC-32C: initial value and final XOR all ones. -/
def crc32c (bs : List Byte) : Word := bs.foldl crcByte 0xFFFFFFFF ^^^ 0xFFFFFFFF

/-- Whether a packet's CRC field is that of its bytes 8 to 127. -/
def pktCrcOk (ws : List DWord) : Bool := (wordOf ws 0).extractLsb' 32 32 == crc32c (wordsBytes (ws.drop 1))

/-! ### Reading a head -/

/-- What a read of a slot finds (R91, R96, R97). -/
inductive HeadRead where
  | fault
  | notValid
  | badCrc (ws : List DWord)
  | good (ws : List DWord)
  deriving DecidableEq, Repr, Inhabited

/-- The 64-bit words of bytes. -/
def bytesWords (bs : List Byte) : Nat → List DWord
  | 0 => []
  | n + 1 => BitVec.ofNat 64 (leNat (bs.take 8)) :: bytesWords (bs.drop 8) n

/-- The address of the slot of an index (R90). -/
def Queue.slotAddr (q : Queue) (i : DWord) : Nat := (q.base.toNat + 128 * (i.toNat % 2 ^ q.logsz)) % 2 ^ 64

/-- The GEN bit expected at an index (R91). -/
def Queue.gen (q : Queue) (i : DWord) : Bool := (i.toNat / 2 ^ q.logsz + 1) % 2 == 1

/-- A slot's two beats (R96). -/
def State.readSlot (s : State) (q : Queue) (i : DWord) : Except Cause (List DWord) :=
  match s.deviceRead q.ctx (q.slotAddr i) 64, s.deviceRead q.ctx (q.slotAddr i + 64) 64 with
  | .ok a, .ok b => .ok (bytesWords a 8 ++ bytesWords b 8)
  | .error c, _ => .error c
  | _, .error c => .error c

/-- What a slot read comes to. -/
def Queue.judge (q : Queue) (i : DWord) : Except Cause (List DWord) → HeadRead
  | .error _ => .fault
  | .ok ws =>
    if (wordOf ws 0).getLsbD 0 != q.gen i then .notValid
    else if pktChk ws && !pktCrcOk ws then .badCrc ws
    else .good ws

/-- Read the head of a queue. -/
def State.readHead (s : State) (q : Queue) : HeadRead := q.judge q.rd (s.readSlot q q.rd)

/-- Whether a queue's head is to be read: not stopped, the tail above the read index, no CRC re-read under way (R91, R97). -/
def Queue.toRead (q : Queue) : Bool := !q.stopped && decide (q.rd < q.tail) && q.crcReads == 0

/-- Poll one queue: a fault stops it with QF_SLOT, a first CRC failure starts the re-reads, and a good head is answered. -/
def State.pollQueue (s : State) (die : Nat) (q : Queue) : State × Option (List DWord) :=
  if !q.toRead then (s, none)
  else
    let read := s.readHead q
    let s := s.countRead q.ctx (q.slotAddr q.rd) 128
    match read with
    | .fault => (s.queueFault die q.num 0x13 q.rd 0, none)
    | .notValid => (s, none)
    | .badCrc _ => (s.modifyQueue die q.num fun q => { q with crcReads := 1, crcDue := s.clock + 1024 }, none)
    | .good ws => (s, some ws)

/-- A die's queues in ascending number. -/
def Die.ordered (d : Die) : List Queue := sortBy (fun a b => decide (a.num < b.num)) d.queues

/-- Poll every queue of a die that `which` selects: the state, and the good heads in ascending queue number. -/
def State.pollAll (s : State) (die : Nat) (which : Queue → Bool) : State × List (Nat × List DWord) :=
  ((s.die die).ordered.filter which).foldl (init := (s, [])) fun acc q =>
    match acc.1.pollQueue die q with
    | (s, some ws) => (s, acc.2 ++ [(q.num, ws)])
    | (s, none) => (s, acc.2)

/-- Whether a queue may take up its next packet: not queue 0 while a system command of it runs (R457). -/
def State.queueFree (s : State) (die qn : Nat) : Bool := qn != 0 || (s.die die).running.isNone

/-- REREAD_TICK: every 4,096 cycles the head slots are read again (R95, R96, R104, R455). -/
def execRereadTick (die : Nat) (s : State) : Host.Outcome State Fault Refusal :=
  .next ((s.signal die 4).pollAll die fun q => s.queueFree die q.num).1

/-! ### The read index (R92) -/

/-- The read index moves to i and is published; a store that faults stops the queue with QF_RDPTR (R92): the record's INDEX is the new read
index, which the queue has not passed and at which it takes up again (R98; DEDUCED, entry 35). -/
def State.publish (s : State) (die qn : Nat) (i : DWord) : State :=
  match s.queue? die qn with
  | none => s
  | some q =>
    let s := s.modifyQueue die qn fun q => { q with rd := i, crcReads := 0 }
    match s.deviceStore8 q.ctx q.rdptr.toNat i with
    | .ok s' => s'
    | .error _ => s.queueFault die qn 0x12 i 0

/-- All five reads of a slot have failed its CRC: PKT_CRC; queue 0 moves past the slot (R97, R455). -/
def State.crcFailed (s : State) (die : Nat) (q : Queue) (ws : List DWord) : State :=
  let s := s.modifyQueue die q.num fun q => { q with crcReads := 0 }
  let s := s.rejectRecord die q.ctx ws q.rd ⟨1, 1, s.chip⟩
  let s := s.queueFault die q.num 1 q.rd 0
  if q.num = 0 then s.publish die 0 (q.rd + 1) else s

/-- CRC_REREAD: a slot whose packet failed its CRC is read again (R97). -/
def execCrcReread (die queue : Nat) (s : State) : Host.Outcome State Fault Refusal :=
  match s.queue? die queue with
  | none => .next s
  | some q =>
    if q.stopped || !s.queueFree die queue || q.crcReads == 0 || decide (s.clock < q.crcDue) || !decide (q.rd < q.tail) then .next s
    else
      let read := s.readHead q
      let s := s.countRead q.ctx (q.slotAddr q.rd) 128
      match read with
      | .fault => .next ((s.modifyQueue die queue fun q => { q with crcReads := 0 }).queueFault die queue 0x13 q.rd 0)
      | .notValid => .next (s.modifyQueue die queue fun q => { q with crcReads := 0 })
      | .good _ => .next (s.modifyQueue die queue fun q => { q with crcReads := 0 })
      | .badCrc ws =>
        if q.crcReads ≥ 4 then .next (s.crcFailed die q ws)
        else .next (s.modifyQueue die queue fun q => { q with crcReads := q.crcReads + 1, crcDue := s.clock + 1024 })

/-! ### The lottery (R99) -/

/-- Next(). -/
def xorshift (x : DWord) : DWord :=
  let x := x ^^^ (x <<< 13)
  let x := x ^^^ (x >>> 7)
  x ^^^ (x <<< 17)

/-- T(q): a head with no tickets counts as one (R77). -/
def headTickets (ws : List DWord) : Nat := max (pktTickets ws) 1

/-- The walk of the draw. -/
def ticketWalk : List (Nat × List DWord) → Nat → Option (Nat × List DWord)
  | [], _ => none
  | c :: t, draw => if draw < headTickets c.2 then some c else ticketWalk t (draw - headTickets c.2)

/-- The candidates: the heads of the least priority class. -/
def candidates (heads : List (Nat × List DWord)) : List (Nat × List DWord) :=
  let cls := (listMin (heads.map fun h => pktPrio h.2)).getD 0
  heads.filter fun h => pktPrio h.2 == cls

/-- The head an arbitration takes, by the state's next draw. -/
def lottery (xs : DWord) (heads : List (Nat × List DWord)) : Option (Nat × List DWord) :=
  let cs := candidates heads
  ticketWalk cs (xs.toNat % (cs.map fun h => headTickets h.2).sum)

end Sys2Proof.Machine
end

