-- ==== Sys2Proof/Machine/Pair.lean ====
section
/-! DEFINITION. The paired word (R39, R40, R53) and words with an unassigned opcode (R55). -/

namespace Sys2Proof.Machine

/-- A compact operation's standard opcode and its entry at MOD = 0 (R52, R53). -/
def pairEntry : PairOp → Nat × AluEntry
  | .iadd => (0x000, iaddEntry)
  | .isub => (0x001, isubEntry)
  | .imul => (0x002, imulEntry)
  | .imin => (0x007, iminEntry 0)
  | .imax => (0x008, imaxEntry 0)
  | .and => (0x010, andEntry)
  | .or => (0x011, orEntry)
  | .xor => (0x012, xorEntry)
  | .shl => (0x015, shlEntry)
  | .shr => (0x016, shrEntry)
  | .shra => (0x017, shraEntry)
  | .rotl => (0x018, rotlEntry)
  | .fadd => (0x080, addEntry fp32 0 false)
  | .fsub => (0x081, addEntry fp32 0 true)
  | .fmul => (0x082, mulEntry fp32 0)
  | .fmin => (0x084, minMaxEntry false 0)
  | .fmax => (0x085, minMaxEntry true 0)
  | .hadd2 => (0x0B0, hadd2Entry 0)
  | .hmul2 => (0x0B1, hmul2Entry 0)

/-- A half as an operation on lanes: source A in q, source B and the destination in v (R39). -/
def halfOp (h : PairHalf) : LaneOp :=
  let e := (pairEntry h.op).2
  { dst := e.dst, dstSpec := h.dst.setWidth 9, a := e.a, srcA := .spec (0x100 + h.srcA.setWidth 9), b := e.b,
    srcB := .spec (h.srcB.setWidth 9), c := e.c, srcC := .spec 0, fn := e.fn }

/-- The conditions of R40. -/
def pairConflict (p : PairWord) : Bool :=
  p.first.dst == p.second.dst || p.first.dst.toNat % 4 == p.second.dst.toNat % 4 || p.second.srcB == p.first.dst

/-- A paired word: both halves read before either writes; bit [54] is reserved-zero (R39). PAIR_CONFLICT ranks between
RESERVED_FIELD and ILLEGAL_OPERAND (R44). -/
def execPairedWord (p : PairWord) (s : State) : Host.Outcome State Fault Refusal :=
  match s.gang with
  | none => .next s
  | some g =>
    let lanes := g.activePlaces
    let ops := [halfOp p.first, halfOp p.second]
    let opc := (pairEntry p.first.op).1
    let early := g.decodeFault s opc 1 p.rsv false
    if !lanes.isEmpty && early.isNone && pairConflict p then
      .next (s.enterTrap g (g.trapAt .pairConflict (g.maskOf lanes) (p.first.dst.setWidth 9)))
    else .next (s.laneWord g opc 1 p.y p.sb lanes ops p.rsv false)

/-- Assigned opcodes whose words have no guard: LOP3 (R173), BRC, whose PRED is its condition, and those that are "p7 only" (R185, R393,
R394, R398, R404, R414). -/
def unguardedOps : List Nat :=
  [0x014, 0x110, 0x111, 0x11C, 0x1C0, 0x1C1, 0x1C2, 0x1C3, 0x1C5, 0x1C6, 0x1C7, 0x1D0, 0x1D1, 0x1D2, 0x1D3, 0x1D4, 0x1E0, 0x1E3]

/-- Whether a raw word has no guard: a paired word has none (R39), nor has an unguarded opcode in any form. -/
def rawUnguarded (w : DWord) : Bool :=
  w.extractLsb' 55 2 == 1 || unguardedOps.contains (w.extractLsb' 46 9).toNat

/-- The lanes a raw word names in a fault (R45): those active under its guard, every active lane where it has none. PRED and PNEG of a word
with an unassigned opcode are taken as a guard, in the control range too, where R42 leaves PRED to an entry that does not exist (DESIGN
CHOICE, entry 33). -/
def Gang.rawLanes (g : Gang) (w : DWord) : List (Nat × Nat) :=
  if rawUnguarded w then g.activePlaces else g.executing (decodeCommon w)

/-- The DST a decode fault of a raw word records (R410): the first half's of a paired word, none of a control-body word. -/
def rawDst (w : DWord) : BitVec 9 :=
  if w.extractLsb' 55 2 = 1 then (w.extractLsb' 39 8).setWidth 9
  else if 0x1C0 ≤ (w.extractLsb' 46 9).toNat then 0
  else w.extractLsb' 33 9

/-- A word that cannot be decoded: its trap, in the lanes active under its guard; with none it has no effect, and the gang steps past it
and a literal that lies in its clause (R24, R405). -/
def State.rawFault (s : State) (g : Gang) (w : DWord) (c : Cause) : State :=
  let lanes := g.rawLanes w
  if lanes = [] then s.finishWord g (w.getLsbD 63) (if takesLiteral w && !g.lastWord 1 then 2 else 1)
  else s.enterTrap g (g.trapAt c (g.maskOf lanes) (rawDst w))

/-- A word with an unassigned opcode raises ILLEGAL_OPCODE (R55). -/
def execUnassignedOpcode (w : DWord) (s : State) : Host.Outcome State Fault Refusal :=
  match s.gang with
  | none => .next s
  | some g => .next (s.rawFault g w .illegalOpcode)

end Sys2Proof.Machine
end

