-- ==== Sys2Proof/Machine/Traps.lean ====
section
/-! DEFINITION. The trap instructions: TFENCE, TRAP, BKPT, RTT and FLTRD (R409, R413-R417). -/

namespace Sys2Proof.Machine

/-- TFENCE: a trap fence over the active lanes, once every earlier word of the gang has written its result (R409). -/
def execTfence (w : CtlWord) (s : State) : Host.Outcome State Fault Refusal :=
  match s.gang with
  | none => .next s
  | some g =>
    match g.ctlTrap s 0x1E0 w g.activePlaces true 0 0 with
    | some t => .next (s.enterTrap g t)
    | none =>
      if g.awaiting then .next (s.holdWord g)
      else match g.fenceTrap g.activePlaces with
        | some t => .next (s.enterTrap g t)
        | none => .next ((s.modifyUnit g.u.uid fun u => u.passFence g.ps).finishWord g w.c.y 1)

/-- The trap of TRAP and BKPT: the word after it is the resume point, the code is every lane's detail (R414, R415). -/
def Gang.softTrap (g : Gang) (cause : Cause) (lanes : List (Nat × Nat)) (code : Nat) : Trap :=
  { g.trapAt cause (g.maskOf lanes) 0 with
    tpc := g.pc + 8, info := fun _ => BitVec.ofNat 32 code, bkpt := cause == .bkpt }

/-- TRAP: SOFT_TRAP in the active lanes whose guard holds; none, no effect (R415). -/
def execTrap (w : CtlWord) (s : State) : Host.Outcome State Fault Refusal :=
  match s.gang with
  | none => .next s
  | some g =>
    let lanes := g.executing w.c
    match g.ctlTrap s 0x1E1 w lanes false 0 0xFFFF with
    | some t => .next (s.enterTrap g t)
    | none =>
      if lanes = [] then .next (s.finishWord g w.c.y 1)
      else .next (s.enterTrap g (g.softTrap .softTrap lanes (w.ofs.toNat % 65536)))

/-- BKPT: a trap that holds the unit; without a vector, or with no lane, no effect (R407, R413). -/
def execBkpt (w : CtlWord) (s : State) : Host.Outcome State Fault Refusal :=
  match s.gang with
  | none => .next s
  | some g =>
    let lanes := g.executing w.c
    match g.ctlTrap s 0x1E2 w lanes false 0 0xFFFF with
    | some t => .next (s.enterTrap g t)
    | none =>
      if lanes = [] ∨ wordOf g.l.vectors Cause.bkpt.code = 0 then .next (s.finishWord g w.c.y 1)
      else .next (s.enterTrap g (g.softTrap .bkpt lanes (w.ofs.toNat % 65536)))

/-- RTT: ends the trap of the gang's slices; outside a handler it faults BAD_ENTRY (R416). -/
def execRtt (w : CtlWord) (s : State) : Host.Outcome State Fault Refusal :=
  match s.gang with
  | none => .next s
  | some g =>
    let trap := firstTrap [g.ctlTrap s 0x1E3 w g.activePlaces true 1 0,
      if g.ps.any fun p => !(g.u.slice p).inTrap then some (g.trapAt .badEntry (g.maskOf g.activePlaces) 0) else none]
    .next (s.jumpWord g w.c.y trap fun _ sl => sl.leaveTrap (if bitOf w.m 0 then s.wordAfter g.u.ctx sl else sl.tpc))

/-- The entry of FLTRD. -/
def fltrdEntry (w : StdWord) : AluEntry :=
  let k := w.m % 4
  { mods := 3, reserved := k == 3, dst := .reg (k == 0 || k == 2) false,
    fn := fun g x _ _ _ =>
      let sl := g.u.slice x.1
      let ln := sl.lane x.2
      let v := if k = 0 then ln.fltAddr.toNat else if k = 1 then ln.fltInfo.toNat else sl.mergeAddr.toNat
      { val := if sl.fltlanes.getLsbD (4 * sl.idx + x.2) then v else 0, tag := 2 } }

/-- FLTRD: a lane's trap detail, 0 for lanes %fltlanes does not name (R417). -/
def execFltrd (w : StdWord) : State → Host.Outcome State Fault Refusal := aluWord 0x120 w (fltrdEntry w)

end Sys2Proof.Machine
end

