-- ==== Sys2Proof/Machine/Issue.lean ====
section
/-! DEFINITION. Issue: the start of a clause (R21-R24, R133, R434), the return of long-latency results (R26, R34), the end of a
park (R27), and what a gang reports or fetches at its turn (R19, R44, R88, R269). -/

namespace Sys2Proof.Machine

/-! ### Results -/

/-- A result's write to a main or a scalar register. -/
def WorkUnit.putResult (u : WorkUnit) (p : Nat) (w : RegWrite) : WorkUnit :=
  match w.lane with
  | some j => (u.modifySlice p fun sl => sl.modifyLane j fun ln => ln.setV w.reg w.val).healReg p j w.reg
  | none => (u.modifySlice p fun sl => sl.setS w.reg w.val.val).healReg p 0 (0x110 + w.reg)

/-- A slice's result is over: it leaves the slice and its counter falls (R26). -/
def Slice.dropResult (sl : Slice) (r : LongResult) : Slice :=
  { sl with pend := sl.pend.filter (·.id != r.id), sb := listModify sl.sb r.sb.toNat (· - 1) }

/-- A slice's result goes on waiting for less. -/
def Slice.keepResult (sl : Slice) (r : LongResult) (k : LongKind) : Slice :=
  { sl with pend := sl.pend.map fun x => if x.id = r.id then { x with kind := k } else x }

/-- Find an outstanding result of a unit: its slice's position and itself. -/
def WorkUnit.result? (u : WorkUnit) (id : Nat) : Option (Nat × LongResult) :=
  (List.range u.slices.length).findSome? fun p => ((u.slice p).pend.find? (·.id == id)).map fun r => (p, r)

/-- The items of a ring result that have arrived are written and release their slots; the others stay (R390). -/
def State.ringDeliver (s : State) (u : WorkUnit) (p : Nat) (r : LongResult) (reads : List RingRead) (more : Bool) (lane : Option Nat) :
    State :=
  let due := fun (x : RingRead) => (lane.isNone || lane == some x.lane) && (s.ringArrived u.ctx x).isSome
  let here := reads.filter due
  let rest := reads.filter (!due ·)
  let ws := here.flatMap fun x => s.ringWrites u.ctx x
  let s := s.modifyUnit u.uid fun u =>
    (ws.foldl (fun u w => u.putResult p w) u).modifySlice p fun sl =>
      if rest = [] ∧ !more then sl.dropResult r else sl.keepResult r (.ring rest more)
  here.foldl (fun s x => s.ringRead u.ctx x) s

/-- Whether a result's requests have all returned their data (R257, R371). -/
def State.arrived (s : State) (r : LongResult) : Bool :=
  !(s.requests.any fun q => r.requests.contains q.id) && !(s.links.any fun k => k.outstanding.any fun q => r.requests.contains q.id)

/-- Whether a write or an item belongs to the part of a result that is written: one lane's, or everything. -/
def inPart (lane : Option Nat) (of : Option Nat) : Bool := lane.isNone || of == lane

/-- A result's values are written: one lane's at a time, or all that are left; with the last the result is over (R34). -/
def WorkUnit.deliver (u : WorkUnit) (p : Nat) (r : LongResult) (lane : Option Nat) : WorkUnit :=
  let now := r.writes.filter fun w => inPart lane w.lane
  let rest := r.writes.filter fun w => !inPart lane w.lane
  (now.foldl (fun u w => u.putResult p w) u).modifySlice p fun sl =>
    if rest = [] then sl.dropResult r else { sl with pend := sl.pend.map fun x => if x.id = r.id then { x with writes := rest } else x }

/-- LONG_RESULT_WRITTEN: an outstanding result whose data has returned is written, each lane independently, in either bank (R26, R34,
R422). -/
def execLongResultWritten (uid : Nat) (result : ResultPart) (s : State) : Host.Outcome State Fault Refusal :=
  match s.unit? uid with
  | none => .next s
  | some u =>
    match u.result? result.id with
    | none => .next s
    | some (p, r) =>
      if u.residence ≠ .resident ∨ !s.arrived r then .next s
      else match r.kind with
        | .ready => .next (s.modifyUnit uid fun u => u.deliver p r result.lane)
        | .load _ => .next (s.modifyUnit uid fun u => u.deliver p r result.lane)
        | .ring reads more => .next (s.ringDeliver u p r reads more result.lane)
        | .tile => .next s
        | .segment _ => .next s
        | .rake _ => .next s

/-- PARK_END: every long-latency result of the gang's slices has been written (R27, R155). -/
def execParkEnd (ref : GangRef) (s : State) : Host.Outcome State Fault Refusal :=
  match s.gangOf ref with
  | none => .next s
  | some g =>
    if (g.ps.all fun p => (g.u.slice p).parked) && (g.ps.all fun p => (g.u.slice p).pend.isEmpty) then
      .next (s.modifyUnit g.u.uid fun u => u.modifySlices g.ps fun sl => { sl with parked := false })
    else .next s

/-! ### The start of a clause -/

/-- The deficit of a context on a core (R432). -/
def Core.deficit (c : Core) (ctx : Nat) : Int := sparseGet 0 c.deficits ctx

/-- Add to a deficit, clamped (R432). -/
def Core.addDeficit (c : Core) (ctx : Nat) (x : Int) : Core :=
  { c with deficits := sparseSet 0 c.deficits ctx (max (-262144) (min 524288 (c.deficit ctx + x))) }

/-- Issue pipeline of a home gang: its gang slot modulo 4 (R164). -/
def WorkUnit.pipeline (u : WorkUnit) (home : Nat) : Nat := u.slots.getD home 0 % 4

/-- Between clauses the pipeline takes a gang of the context with the greatest deficit, the lowest context number on ties: whether
a ready gang of another context, one that has not yielded, comes before this one (R434). -/
def State.outranked (s : State) (g : Gang) : Bool :=
  let c := s.core g.u.core
  (s.unitsIn g.u.core g.u.bank).any fun u =>
    u.ctx != g.u.ctx &&
    (decide (c.deficit g.u.ctx < c.deficit u.ctx) || (c.deficit u.ctx == c.deficit g.u.ctx && decide (u.ctx < g.u.ctx))) &&
    u.slices.any fun sl =>
      u.pipeline sl.home == g.u.pipeline g.ref.home && sl.clause.isNone && !sl.hasExited && s.readyBut u sl.home sl.ig &&
      !s.throttledHome u sl.home && !s.yieldHeld u sl.home sl.ig

/-- Whether an issue gang holds its pipeline: it stands within a clause, neither parked nor blocked nor held (R33, R164). -/
def State.holdsPipe (s : State) (ref : GangRef) : Bool :=
  match s.gangOf ref with
  | none => false
  | some o => o.head.clause.isSome && s.canGo o.u ref.home ref.ig

/-- Within a clause the pipeline issues only that gang's words: whether another gang's clause is going on (R164). -/
def State.pipeBusy (s : State) (g : Gang) : Bool :=
  ((s.bank g.u.core g.u.bank).pipes.lookup (g.u.pipeline g.ref.home)).any fun o => o != g.ref && s.holdsPipe o

/-- An issue gang issues on its pipeline: other gangs of the pipeline that have yielded see it start (R164, R197). -/
def State.takePipe (s : State) (g : Gang) : State :=
  let p := g.u.pipeline g.ref.home
  let s := s.modifyBank g.u.core g.u.bank fun b => { b with pipes := sparsePut b.pipes p g.ref }
  if g.head.clause.isSome then s
  else { s with units := s.units.map fun u =>
    if u.residence = .resident ∧ u.core = g.u.core ∧ u.bank = g.u.bank then
      { u with slices := u.slices.map fun sl =>
          if u.pipeline sl.home = p then { sl with yieldTo := sl.yieldTo.map (· ++ [g.ref]) } else sl }
    else u }

/-- The header at the gang's PC, or the trap it raises, with the header as PC in every active lane (R19, R22, R23, R44). -/
def Gang.clauseHeader (g : Gang) (s : State) : Except Trap Header :=
  let lanes := g.maskOf g.activePlaces
  match s.fetch g.u.ctx g.pc with
  | .error f =>
    .error { g.trapAt f.cause lanes 0 with
      addr := fun _ => BitVec.ofNat 64 f.va, info := fun _ => accessInfo false true f.level }
  | .ok w =>
    match (headerFault w).orElse fun _ => if g.head.atEntry then entryFault w g.u.regs else none with
    | some c => .error (g.trapAt c lanes 0)
    | none => .ok (headerFields w)

/-- A slice enters a clause: its operand file is not written; at an entry clause the budget comes into force (R21, R23, R31). -/
def Slice.startClause (h : Header) (sl : Slice) : Slice :=
  { sl.clearQ with
    clause := some ⟨sl.pc, h.count, h.cls⟩, pc := sl.pc + 8, atEntry := false, yieldTo := none,
    regs := if sl.atEntry then 8 * h.budget else sl.regs }

/-- Start the gang's next clause, if it may go on, its pipeline is free and its header is met (R21, R26, R133, R164, R197, R434). -/
def State.startClause (s : State) (g : Gang) : State :=
  if !s.canGo g.u g.ref.home g.ref.ig ∨ g.head.clause.isSome ∨ s.pipeBusy g then s
  else match g.clauseHeader s with
    | .error t => s.enterTrap g t
    | .ok h =>
      if (g.ps.any fun p => !(g.u.slice p).waitMet h.wait) || s.throttledHome g.u g.ref.home ||
          s.yieldHeld g.u g.ref.home g.ref.ig || s.outranked g then s
      else ((s.countRead g.u.ctx g.pc.toNat 8).takePipe g).modifyUnit g.u.uid fun u => (u.modifySlices g.ps (Slice.startClause h)).healQ g.ps

/-- CLAUSE_START: an issue gang reaches a clause header. -/
def execClauseStart (ref : GangRef) (s : State) : Host.Outcome State Fault Refusal :=
  match s.gangOf ref with
  | none => .next s
  | some g => .next (s.startClause g)

/-! ### A gang's turn -/

/-- The load's fault that the gang reports first, with the positions of the slices that hold it (R269). -/
def Gang.loadError (g : Gang) : Option (LoadError × List Nat) :=
  (g.ps.findSome? fun p => (g.u.slice p).errors.head?).map fun e =>
    (e, g.ps.filter fun p => (g.u.slice p).errors.contains e)

/-- Report a load's fault in this gang's lanes: the record names the load, and the trap returns here (R269, R410). -/
def State.reportLoad (s : State) (g : Gang) (e : LoadError) (ps : List Nat) : State :=
  let mine := g.maskOf (g.places.filter fun x => ps.contains x.1 && !(g.u.slice x.1).exited.getLsbD x.2)
  let s := s.modifyUnit g.u.uid fun u => u.modifySlices ps fun sl => { sl with errors := sl.errors.filter (· != e) }
  let t : Trap :=
    { g.trapAt e.cause (e.lanes &&& mine) e.dst with
      pc := fun _ => e.pc, addr := fun n => (e.addrs.lookup n).getD 0, info := fun _ => accessInfo e.write false e.level }
  match s.gangOf g.ref with
  | some g => s.enterTrap g t
  | none => s

/-- A unit's attachment fault, raised at its first instruction (R88, R266). -/
def State.reportAttach (s : State) (g : Gang) (f : Cause × DWord × Word) : State :=
  let s := s.modifyUnit g.u.uid fun u => { u with firstFault := none }
  s.enterTrap g { g.trapAt f.1 (g.maskOf g.activePlaces) 0 with addr := fun _ => f.2.1, info := fun _ => f.2.2 }

/-- The trap of a fetch that faults, with the destination it records. -/
def Gang.fetchTrap (g : Gang) (f : AccessFault) (lanes : Word) (dst : BitVec 9) : Trap :=
  { g.trapAt f.cause lanes dst with addr := fun _ => BitVec.ofNat 64 f.va, info := fun _ => accessInfo false true f.level }

/-- The word at the gang's PC and the literal after it, or the trap of a fetch that faults. A literal's fault is its word's, with its DST,
in the lanes active under the word's guard; with none the word has no effect whatever its literal (R19, R44). A word that cannot be fetched
has no guard that is known: its fault names every active lane (DESIGN CHOICE, entry 33: R45 names the lanes active under the guard). -/
def Gang.fetchWord (g : Gang) (s : State) : Except Trap (DWord × Option DWord) :=
  match s.fetch g.u.ctx g.pc with
  | .error f => .error (g.fetchTrap f (g.maskOf g.activePlaces) 0)
  | .ok w =>
    if takesLiteral w && !g.lastWord 1 then
      match s.fetch g.u.ctx (g.pc + 8) with
      | .error f => if g.rawLanes w = [] then .ok (w, some 0) else .error (g.fetchTrap f (g.maskOf (g.rawLanes w)) (rawDst w))
      | .ok l => .ok (w, some l)
    else .ok (w, none)

/-- The cause of a word that cannot be decoded, in the order of R44. -/
def Gang.rawCause (g : Gang) (s : State) : DecodeError → Cause
  | .illegalForm => .illegalOpcode
  | .reservedForm opc => (g.decodeFault s opc 1 true false).getD .reservedField
  | .noLiteral => .clauseClass
  | .illegalTack => .illegalOpcode
  | .baseInstruction => .illegalOpcode

/-- Whether the word at the gang's PC must wait for a counter that stands at 63 in a slice it would count in (R26). -/
def Gang.stalled (g : Gang) (w : DWord) : Bool := g.sbFull (decodeCommon w).sb (g.rawLanes w)

/-- Whether a word waits for what its slices' earlier requests to other chips come to: a release at .sys and a fence (R357, R371). -/
def releasesSys : Instr → Bool
  | .st w => w.order == 2 && w.scope == 3
  | .fence _ => true
  | .atomAdd w => w.order.getLsbD 1 && w.scope == 3
  | .atomSmin w => w.order.getLsbD 1 && w.scope == 3
  | .atomSmax w => w.order.getLsbD 1 && w.scope == 3
  | .atomUmin w => w.order.getLsbD 1 && w.scope == 3
  | .atomUmax w => w.order.getLsbD 1 && w.scope == 3
  | .atomAnd w => w.order.getLsbD 1 && w.scope == 3
  | .atomOr w => w.order.getLsbD 1 && w.scope == 3
  | .atomXor w => w.order.getLsbD 1 && w.scope == 3
  | .atomExch w => w.order.getLsbD 1 && w.scope == 3
  | .atomCas w => w.order.getLsbD 1 && w.scope == 3
  | .atomIncw w => w.order.getLsbD 1 && w.scope == 3
  | .atomDecw w => w.order.getLsbD 1 && w.scope == 3
  | .fatomAdd w => w.order.getLsbD 1 && w.scope == 3
  | .fatomMin w => w.order.getLsbD 1 && w.scope == 3
  | .fatomMax w => w.order.getLsbD 1 && w.scope == 3
  | .qpush w => w.scope == 3
  | _ => false

/-- Whether a gang's next word waits for an answer from another chip: after an acquire of it, or at a release at .sys (R357, R371). -/
def State.remoteHeld (s : State) (g : Gang) (i : Option Instr) : Bool :=
  let qs := s.outstandingOf g.u.uid g.ps
  qs.any (·.strong) || (!qs.isEmpty && i.any releasesSys)

/-- A word issues: it is its pipeline's, its fetch is a read of its page, and what the gang's earlier loads have read stands from here on
(R164, R262, R354). -/
def State.issueWord (s : State) (g : Gang) (lit : Bool) : State :=
  ((s.takePipe g).countRead g.u.ctx g.pc.toNat (if lit then 16 else 8)).modifyUnit g.u.uid fun u =>
    u.modifySlices g.ps fun sl => { sl with pend := sl.pend.map fun r => { r with bound := true } }

/-- Charge a word to its context (R433). -/
def State.charge (s : State) (g : Gang) : State := s.modifyCore g.u.core fun c => c.addDeficit g.u.ctx (-1)

end Sys2Proof.Machine
end

