-- ==== Sys2Proof/Machine/Links.lean ====
section
/-! DEFINITION. The scale-up links as the receiver has them: delivery in order, requests performed at their homes, answers, replay, and a
link's end (R369-R371, R382, R383). -/

namespace Sys2Proof.Machine

/-! ### Requests at their home -/

/-- An atomic by its opcode, as a request names it (R278, R279). -/
def atomicOf (fpm : BitVec 4) (opc : Nat) : AtomicEntry := if opc < 0x170 then floatAtomic fpm opc (opc - 0x14C) else intAtomic opc

/-- Whether n bytes at an address have their home on this chip. -/
def State.homeHere (s : State) (pa n : Nat) : Bool := fabChip pa == s.chip && s.mapped pa && (n == 0 || s.mapped (pa + n - 1))

/-- A store at its home (R371): a wake cell takes an aligned 8-byte one (R94). -/
def State.homeWrite (s : State) (pa : Nat) (bs : List Byte) : State :=
  if inWake pa then (if bs.length = 8 ∧ pa % 8 = 0 then s.wakeStore pa (BitVec.ofNat 64 (leNat bs)) else s) else s.storeAll 0 [(pa, bs)]

/-- A read at its home. -/
def State.homeRead (s : State) (pa n : Nat) : List Byte := if inWake pa then (wordsBytes [s.wakeLoad pa 0]).take n else s.bytesAt pa n

/-- An atomic at its home: the old value is the answer, and the new one is stored (R278, R382). -/
def State.homeAtomic (s : State) (pa : Nat) (e : AtomicEntry) (wide : Bool) (operand new : DWord) : State × List Byte :=
  let n := if wide then 8 else 4
  let old := s.natAt pa n
  if s.uncorrectableAt pa n then (s.settleSectors 0 [(pa, n)], natLe n old)
  else (s.storeAll 0 [(pa, natLe n (e.op wide old operand.toNat new.toNat))], natLe n old)

/-- SOP's elements at their home (R282). -/
def State.homeSop (s : State) (pa : Nat) (fpm : BitVec 4) (k : Nat) (bs : List Byte) : State :=
  (List.range (bs.length / 4)).foldl (init := s) fun s i =>
    let a := pa + 4 * i
    if s.uncorrectableAt a 4 then s.settleSectors 0 [(a, 4)]
    else s.storeAll 0 [(a, natLe 4 (sopElement fpm k (s.natAt a 4) (leNat ((bs.drop (4 * i)).take 4))))]

/-! ### Answers -/

/-- A register write with the bytes of an answer put into its value: the run's first register, the answer's offset, and its bytes. -/
def RegWrite.patch (w : RegWrite) (first off : Nat) (data : List Byte) : RegWrite :=
  let byte := fun (b : Nat) =>
    let i := 4 * (w.reg - first) + b
    if off ≤ i ∧ i < off + data.length then (data.getD (i - off) 0).toNat else (w.val.val.toNat / 2 ^ (8 * b)) % 256
  { w with val := { w.val with val := BitVec.ofNat 32 (leNat ((List.range 4).map fun b => BitVec.ofNat 8 (byte b))) } }

/-- A result takes an answer's bytes: what it read is no longer in memory's hands (R371, R424). -/
def LongResult.take (r : LongResult) (id : Nat) (lane : Option Nat) (reg off : Nat) (data : List Byte) : LongResult :=
  { r with
    writes := r.writes.map fun w => if w.lane = lane ∧ reg ≤ w.reg then w.patch reg off data else w
    requests := r.requests.filter (· != id), kind := .ready }

/-- What a request was for comes about with its answer (R371). -/
def State.answered (s : State) (q : LinkRequest) (data : List Byte) : State :=
  match q.purpose with
  | .result rid p lane reg off =>
    s.modifyUnit q.unit fun u => u.modifySlice p fun sl =>
      { sl with pend := sl.pend.map fun r => if r.id = rid then r.take q.id lane reg off data else r }
  | _ => s

/-- An answer: the request it belongs to is no longer outstanding. -/
def State.takeAnswer (s : State) (id : Nat) (data : List Byte) : State :=
  match s.links.findSome? fun k => k.outstanding.find? (·.id == id) with
  | none => s
  | some q =>
    let links := s.links.map fun k => { k with outstanding := k.outstanding.filter (·.id != id) }
    ({ s with links := links } : State).answered q data

/-! ### Delivery (R369, R370) -/

/-- Whether a flit asks for something at an address. -/
def reaches : FlitBody → Bool
  | .answer _ _ => false
  | .closed _ _ _ _ => false
  | _ => true

/-- What a delivered flit does: a request is performed at its home and answered on its link, an answer reaches its request (R369, R371,
R382, R383). -/
def State.applyFlit (s : State) (link : Nat) (f : Flit) : State :=
  if reaches f.body && !s.homeHere f.body.span.1 f.body.span.2 then s
  else match f.body with
    | .write id a bs => (s.homeWrite a.toNat bs).answerFlit link id []
    | .read id a n => s.answerFlit link id (s.homeRead a.toNat n)
    | .atomic id a fpm opc wide x y =>
      let r := s.homeAtomic a.toNat (atomicOf fpm opc) wide x y
      r.1.answerFlit link id r.2
    | .sop id a fpm k bs => (s.homeSop a.toNat fpm k bs).answerFlit link id []
    | .contribution id run c => (s.contribute run c).answerFlit link id []
    | .closed id run chip window => s.runSignal run chip window (some (link, id))
    | .answer id bs => s.takeAnswer id bs

/-- What a flit tells of the other side: flits it has received leave the replay buffer, and a replay that has arrived is complete (R370). -/
def Link.heard (k : Link) (f : Flit) : Link :=
  { k with
    replay := k.replay.filter fun x => decide (f.upTo ≤ x.seq)
    replaySince := match k.replaySince with
      | some (t, e) => if e ≤ f.upTo then none else some (t, e)
      | none => none }

/-- FLIT_RECEIVE: a flit whose CRC fails is discarded with every flit after it, and a replay is asked for; the flit expected is delivered;
a duplicate never is. A flit of a replay that fails again is asked for again (R370). -/
def execFlitReceive (link : Nat) (f : Flit) (s : State) : Host.Outcome State Fault Refusal :=
  let k := s.link link
  if !k.inService ∨ 36 ≤ link ∨ !f.fits then .next s
  else if !f.crcOk then .next (s.modifyLink link fun k => { k with discarding := true, requests := k.requests ++ [k.expected] })
  else if f.seq = k.expected then
    .next ((s.modifyLink link fun k => { k.heard f with expected := k.expected + 1, discarding := false }).applyFlit link f)
  else .next s

/-- REPLAY_REQUEST: the sender re-sends from the failed flit onward, in order, from its replay buffer (R370). -/
def execReplayRequest (link seq : Nat) (s : State) : Host.Outcome State Fault Refusal :=
  if !(s.link link).inService then .next s
  else .next (s.modifyLink link fun k =>
    { k with
      sent := k.sent ++ k.replay.filter (fun f => decide (seq ≤ f.seq))
      replaySince := some ((k.replaySince.map (·.1)).getD s.clock, k.nextSeq) })

/-- LINK_REPLAY_TIMEOUT: a replay not complete within 2^24 cycles takes the link out of service; the launches with a request outstanding
on it abort (R371). -/
def execLinkReplayTimeout (link : Nat) (s : State) : Host.Outcome State Fault Refusal :=
  let k := s.link link
  match k.replaySince with
  | none => .next s
  | some (t, _) =>
    if s.clock < t + 2 ^ 24 ∨ !k.inService then .next s
    else
      let launches := (k.outstanding.map fun q => (q.die, q.lslot)).eraseDups
      let s := launches.foldl (fun s x => s.abortLaunch x.1 x.2 ⟨4, 1, s.chip⟩ (0, 0, 0)) s
      .next (s.modifyLink link fun k => { k with inService := false, replaySince := none, outstanding := [] })

end Sys2Proof.Machine
end

