-- ==== Sys2Proof/Machine/Matrix.lean ====
section
/-! DEFINITION. The matrix unit: its configuration (R315-R317), operand layouts (R318-R320), the K-step (R321, R322), its
instructions (R323-R330), its queue (R314) and its errors (R333). -/

namespace Sys2Proof.Machine

/-! ### Configuration (R315, R316) -/

/-- A configuration block that keeps R315 and R316. -/
structure MatCfg where
  m : Nat
  n : Nat
  k : Nat
  /-- 0 FP32, 1 I32, 2 FP64 -/
  cfmt : Nat
  afmt : Nat
  bfmt : Nat
  scale : Nat
  bcomp : Nat
  sat : Bool
  tcnt : Nat
  astr : Nat
  deriving DecidableEq, Repr, Inhabited

/-- A width class of R316: K per step, CFMT, whether scales are allowed, the highest BCOMP, whether SAT is allowed. -/
structure MatClass where
  k : Nat
  cfmt : Nat
  scales : Bool
  bcomp : Nat
  sat : Bool
  deriving DecidableEq, Repr, Inhabited

/-- The class of an element format. -/
def matClass (tag : Nat) : Option MatClass :=
  if tag = 0x12 ∨ tag = 0x13 then some ⟨32, 0, false, 2, false⟩
  else if 0x40 ≤ tag ∧ tag ≤ 0x5B then some ⟨64, 0, true, 2, false⟩
  else if tag = 0x05 ∨ tag = 0x06 then some ⟨64, 1, false, 2, true⟩
  else if 0x80 ≤ tag ∧ tag ≤ 0x8B then some ⟨128, 0, true, 1, false⟩
  else if tag = 0x11 then some ⟨8, 2, false, 0, false⟩
  else none

/-- A configuration block as a unit of `tiles` tiles accepts it (R315-R317). -/
def matCfg (tiles : Nat) (b : DWord) : Option MatCfg :=
  let f := fun hi lo => wordBits b hi lo
  let a := f 15 8
  match matClass a, matClass (f 23 16) with
  | some x, some y =>
    let astr := f 55 40
    let fp64 := x.cfmt == 2
    if x = y ∧ f 7 6 = x.cfmt ∧ (f 25 24 = 0 ∨ x.scales) ∧ f 27 26 ≤ x.bcomp ∧ (f 28 28 = 0 ∨ x.sat) ∧ f 31 29 = 0 ∧
        1 ≤ f 36 32 ∧ f 36 32 ≤ 16 ∧ f 36 32 ≤ tiles ∧ f 39 37 = 0 ∧ f 63 56 = 0 ∧ 4 ≤ astr ∧ astr ≤ 65532 ∧
        astr % (if fp64 then 8 else 4) = 0 ∧ (!fp64 ∨ f 36 32 % 2 = 0) then
      some { m := 8 * (f 2 0 + 1), n := 8 * (f 5 3 + 1), k := x.k, cfmt := x.cfmt, afmt := a, bfmt := f 23 16,
             scale := f 25 24, bcomp := f 27 26, sat := f 28 28 == 1, tcnt := f 36 32, astr := astr }
    else none
  | _, _ => none

/-- The tag of a tile (R312). -/
def MatCfg.tag (c : MatCfg) : Byte := if c.cfmt = 0 then 0x10 else if c.cfmt = 1 then 0x01 else 0x11

/-- Whether A or B elements have scales (R315). -/
def MatCfg.aScales (c : MatCfg) : Bool := bitOf c.scale 0
def MatCfg.bScales (c : MatCfg) : Bool := bitOf c.scale 1

/-- A unit's issued configuration (R317). -/
def WorkUnit.issuedCfg (u : WorkUnit) : Option MatCfg := u.cfgIssued.bind (matCfg u.ntiles)

/-- Whether a tile may be named (R317). -/
def MatCfg.tileOk (c : MatCfg) (t : Nat) : Bool := t < c.tcnt && (c.cfmt != 2 || t % 2 == 0)

/-! ### Element values -/

/-- Bits of an element. -/
def elementBits (tag : Nat) : Nat := if tag = 0x12 ∨ tag = 0x13 then 16 else if tag = 0x11 then 64 else if tag ≥ 0x80 then 4 else 8

/-- An IEEE code's value. -/
def Ieee.kval (f : Ieee) (x : Nat) : KVal :=
  if f.isNan x then .nan else if f.isInf x then .inf (f.neg x) else .fin (f.val x)

/-- An element's value by its format (R316, R318). -/
def elementVal (tag x : Nat) : KVal :=
  if tag = 0x12 then fp16.kval x
  else if tag = 0x13 then bf16.kval x
  else if tag = 0x11 then fp64.kval x
  else if tag = 0x05 then .fin (Dy.ofInt (sext x 8) 0)
  else if tag = 0x06 then .fin ⟨false, x, 0⟩
  else match kfmtOf tag with
    | some f => f.val x
    | none => .nan

/-- Elements packed little-endian (R318). -/
def unpackBits (bits n : Nat) (bs : List Byte) : List Nat :=
  let x := leNat bs
  (List.range n).map fun i => x / 2 ^ (bits * i) % 2 ^ bits

/-- An S8 scale (R217); none for NaN. -/
def scaleVal (b : Nat) : Option Dy := if b = 0xFF then none else some ⟨false, 1, (b : Int) - 127⟩

/-- No scale is 1 (R318). -/
def oneScale : Option Dy := some ⟨false, 1, 0⟩

/-! ### The B block (R319, R320) -/

/-- The next 32-byte boundary. -/
def up32 (x : Nat) : Nat := (x + 31) / 32 * 32

/-- Sections of a step block: column bytes, metadata, codebook, scales, end. -/
structure BLayout where
  column : Nat
  meta' : Nat
  codebook : Nat
  scales : Nat
  size : Nat
  deriving DecidableEq, Repr, Inhabited

def MatCfg.layout (c : MatCfg) : BLayout :=
  let column := if c.bcomp = 0 then 64 else if c.bcomp = 1 then 32 else c.k / 2
  let values := c.n * column
  let next := up32 values
  let body := if c.bcomp = 0 then values else if c.bcomp = 1 then next + c.n * (c.k / 8) else next + 16 * (elementBits c.bfmt / 8)
  let scales := up32 body
  { column := column, meta' := next, codebook := next, scales := scales,
    size := if c.bScales then scales + c.n * (c.k / 32) else body }

/-- Element 4g + j of an S24 group (R320). -/
def s24Element (kept : List Nat) (nibbles : List Nat) (k : Nat) : Nat :=
  let g := k / 4
  let nib := nibbles.getD g 0
  if k % 4 = nib / 4 then kept.getD (2 * g + 1) 0 else if k % 4 = nib % 4 then kept.getD (2 * g) 0 else 0

/-- The elements of a column, from the block's bytes (R319, R320). -/
def MatCfg.column (c : MatCfg) (block : List Byte) (n : Nat) : List Nat :=
  let l := c.layout
  let bits := elementBits c.bfmt
  let part := fun (from' len : Nat) => (block.drop from').take len
  let values := part (n * l.column) l.column
  if c.bcomp = 0 then unpackBits bits c.k values
  else if c.bcomp = 1 then
    let kept := unpackBits bits (c.k / 2) values
    let nibbles := unpackBits 4 (c.k / 4) (part (l.meta' + n * (c.k / 8)) (c.k / 8))
    (List.range c.k).map (s24Element kept nibbles)
  else
    let book := unpackBits bits 16 (part l.codebook (16 * (bits / 8)))
    (unpackBits 4 c.k values).map fun i => book.getD i 0

/-- The scales of a run of K elements, by their block bytes. -/
def scalesOf (k : Nat) (bs : List Byte) : List (Option Dy) :=
  (List.range k).map fun i => scaleVal ((bs.getD (i / 32) 0).toNat)

/-! ### One K-step (R321, R322) -/

/-- A term of the sum. -/
def matTerm (a b : KVal) (sa sb : Option Dy) : Product :=
  match sa, sb with
  | some x, some y => match a.mul b with
    | .fin z => .fin ((z.mul x).mul y)
    | p => p
  | _, _ => .nan

/-- Whether a term is a zero of negative sign. -/
def Product.isNegZero : Product → Bool
  | .fin x => x.isZero && x.neg
  | _ => false

/-- An element of a floating-point accumulator (R321). -/
def matFloat (f : Ieee) (c : Nat) (ps : List Product) : Nat :=
  let infs := (ps.filterMap fun p => match p with | .inf n => some n | _ => none) ++ (if f.isInf c then [f.neg c] else [])
  if f.isNan c || ps.contains .nan || ps.contains .invalid || (infs.contains true && infs.contains false) then f.nanCode
  else match infs with
    | n :: _ => f.infCode n
    | [] =>
      let x := (ps.filterMap fun p => match p with | .fin x => some x | _ => none).foldl Dy.add (f.val c)
      if x.isZero then f.zeroCode (f.isZero c && f.neg c && ps.all Product.isNegZero) else (f.roundTo 0 0 x).code

/-- An element of an integer accumulator (R322). -/
def matInt (sat : Bool) (c : Nat) (ps : List Product) : Nat :=
  let sum := (ps.map fun p => match p with | .fin x => x.at 0 | _ => 0).foldl (· + ·) (sext c 32)
  wrapTo 32 (if sat then clampInt (-0x80000000) 0x7FFFFFFF sum else sum)

/-- An accumulator element after a step. -/
def MatCfg.element (c : MatCfg) (old : Nat) (ps : List Product) : Nat :=
  if c.cfmt = 1 then matInt c.sat old ps else matFloat (if c.cfmt = 2 then fp64 else fp32) old ps

/-- A row or column with its scales. -/
abbrev MatVec := List (KVal × Option Dy)

/-- The terms of a row and a column. -/
def matTerms (a b : MatVec) : List Product := List.zipWith (fun x y => matTerm x.1 y.1 x.2 y.2) a b

/-! ### Tiles (R312) -/

/-- The storage word of an element. -/
def MatCfg.tileIndex (c : MatCfg) (t m n : Nat) : Nat := t * 4096 + (if c.cfmt = 2 then 2 * (64 * m + n) else 64 * m + n)

def WorkUnit.tileGet (u : WorkUnit) (c : MatCfg) (t m n : Nat) : Nat :=
  let i := c.tileIndex t m n
  (sparseGet 0 u.tiles i).toNat + (if c.cfmt = 2 then (sparseGet 0 u.tiles (i + 1)).toNat * 2 ^ 32 else 0)

def WorkUnit.tilePut (u : WorkUnit) (c : MatCfg) (t m n x : Nat) : WorkUnit :=
  let i := c.tileIndex t m n
  let l := sparseSet 0 u.tiles i (BitVec.ofNat 32 x)
  { u with tiles := if c.cfmt = 2 then sparseSet 0 l (i + 1) (BitVec.ofNat 32 (x / 2 ^ 32)) else l }

/-- The tiles an accumulator occupies. -/
def MatCfg.pair (c : MatCfg) (t : Nat) : List Nat := if c.cfmt = 2 then [t, t + 1] else [t]

/-- Clear tiles to +0; their words are good again. -/
def WorkUnit.clearTiles (u : WorkUnit) (ts : List Nat) : WorkUnit :=
  { u with tiles := u.tiles.filter fun e => !ts.contains (e.1 / 4096), badTiles := u.badTiles.filter (!ts.contains ·) }

/-- Every place of an accumulator, row by row. -/
def MatCfg.elements (c : MatCfg) : List (Nat × Nat) :=
  (List.range c.m).flatMap fun m => (List.range c.n).map fun n => (m, n)

/-! ### Operands at their offsets (R318, R327) -/

/-- The offset at step s: it may leave the address range, which is checked at issue. -/
def stepOffset (base inc : Word) (s : Nat) : Int := (base.toNat : Int) + s * sext inc.toNat 32

/-- A row of A with its scales. -/
def State.matRow (s : State) (u : WorkUnit) (c : MatCfg) (ao asc : Int) (m : Nat) : MatVec :=
  let xs := unpackBits (elementBits c.afmt) c.k (s.scratchRead u (ao + m * c.astr).toNat 64)
  let sc := if c.aScales then scalesOf c.k (s.scratchRead u (asc + m * (c.k / 32)).toNat (c.k / 32))
    else List.replicate c.k oneScale
  (xs.map (elementVal c.afmt)).zip sc

/-- A column of B with its scales, from a block's bytes. -/
def MatCfg.matColumn (c : MatCfg) (block : List Byte) (n : Nat) : MatVec :=
  let sc := if c.bScales then scalesOf c.k ((block.drop (c.layout.scales + n * (c.k / 32))).take (c.k / 32))
    else List.replicate c.k oneScale
  ((c.column block n).map (elementVal c.bfmt)).zip sc

/-- The offsets of one step. -/
structure StepAt where
  ao : Int
  asc : Int
  bo : Int
  deriving DecidableEq, Repr, Inhabited

/-- Step (R321): every element is computed from the state before it. -/
def State.kStep (s : State) (u : WorkUnit) (c : MatCfg) (t : Nat) (z : Bool) (x : StepAt) : WorkUnit :=
  let block := sparseBytes u.weights x.bo.toNat c.layout.size
  let rows := (List.range c.m).map (s.matRow u c x.ao x.asc)
  let columns := (List.range c.n).map (c.matColumn block)
  let new := c.elements.map fun e =>
    (e, c.element (if z then 0 else u.tileGet c t e.1 e.2) (matTerms (rows.getD e.1 []) (columns.getD e.2 [])))
  let u := new.foldl (fun u e => u.tilePut c t e.1.1 e.1.2 e.2) u
  if z ∧ c.m = 64 ∧ c.n = 64 then { u with badTiles := u.badTiles.filter (!(c.pair t).contains ·) } else u

/-- The scratch spans a step reads: A rows, then A's scales. -/
def MatCfg.spans (c : MatCfg) (x : StepAt) : List (Int × Nat) :=
  ((List.range c.m).map fun (m : Nat) => (x.ao + m * c.astr, 64)) ++ (if c.aScales then [(x.asc, c.m * (c.k / 32))] else [])

/-- Whether a step meets an uncorrectable word (R333). -/
def State.stepBad (s : State) (u : WorkUnit) (c : MatCfg) (t : Nat) (z : Bool) (x : StepAt) : Bool :=
  (!z && (c.pair t).any u.badTiles.contains) || (c.spans x).any (fun y => s.scratchUnreadable u y.1.toNat y.2) ||
  (scratchWords x.bo.toNat c.layout.size).any u.badWeights.contains

/-! ### The queue (R314) -/

/-- Take the head operation off: gangs held by a full queue may issue again, an MWAIT looks again (R314, R328). -/
def State.matPop (s : State) (uid : Nat) : State :=
  (s.modifyUnit uid fun u => { u with matq := u.matq.drop 1, slices := u.slices.map Slice.wake }).matrixDone uid

/-- The register writes of a TLD in one result. -/
def WorkUnit.tileWrites (u : WorkUnit) (c : MatCfg) (t : Nat) (reads : List TileRead) : List RegWrite :=
  let live := reads.filter fun r => !(u.slice r.slice).exited.getLsbD r.lane
  live.flatMap fun r =>
    let v := u.tileGet c t (bitsOf r.index.toNat 5 0) (bitsOf r.index.toNat 13 8)
    match runWrites (some r.lane) r.dst v (if c.cfmt = 2 then 2 else 1) with
    | w :: rest => { w with val := ⟨w.val.val, sparseGet 0 u.tileTags t⟩ } :: rest
    | [] => []

/-- Give a TLD's results their values; a TLD that was discarded writes nothing (entry 19). -/
def WorkUnit.tileResults (u : WorkUnit) (c : Option MatCfg) (t : Nat) (reads : List TileRead) : WorkUnit :=
  let value := fun (p id : Nat) => match c with
    | some c => u.tileWrites c t (reads.filter fun r => r.slice == p && r.result == id)
    | none => []
  let mine := fun (p id : Nat) => reads.any fun r => r.slice == p && r.result == id
  { u with slices := u.slices.mapIdx fun p sl =>
      { sl with pend := sl.pend.map fun r => if mine p r.id then { r with kind := .ready, writes := value p r.id } else r } }

/-- Operations the unit may have performed: those of a unit of the active bank, or of one that has exited (R195, R422). -/
def State.matServes (s : State) (u : WorkUnit) : Bool :=
  u.residence == .exited || (u.residence == .resident && (s.core u.core).active == u.bank)

/-- Matrix work stops on an error at a tile (R333). -/
def State.matStop (s : State) (uid t : Nat) : State :=
  (s.modifyUnit uid fun u => { u with matError := some t, matStopped := some t }).matPop uid

/-- The element size of a TST. -/
def tstSize (c : MatCfg) (bf : Bool) : Nat := if c.cfmt = 2 then 8 else if bf then 2 else 4

/-- TST's stores, row by row (R330). -/
def State.tileStore (s : State) (u : WorkUnit) (c : MatCfg) (t : Nat) (o stride : Word) (bf : Bool) : State :=
  let e := tstSize c bf
  let value := fun (m n : Nat) =>
    let x := u.tileGet c t m n
    if bf then (fp32.convert bf16 0 0 x).code else x
  let row := fun (m : Nat) => (o.toNat + m * stride.toNat, (List.range c.n).flatMap fun n => natLe e (value m n))
  let rows := (List.range c.m).map row
  let s := rows.foldl (fun s r => s.scratchWrite u.uid u.core r.1 r.2) s
  s.settleScratch u (rows.map fun r => (r.1, r.2.length))

/-- TCFG takes effect (R324). -/
def WorkUnit.configure (u : WorkUnit) (block : DWord) : WorkUnit :=
  let tag := ((matCfg u.ntiles block).map MatCfg.tag).getD 0
  let all := List.range u.ntiles
  { u.clearTiles all with
    cfgDone := some block, matStopped := none
    tileTags := if tag = 0 then [] else all.map fun t => (t, tag) }

/-- A discarded operation leaves the queue without effect (R333). -/
def State.matDiscard (s : State) (u : WorkUnit) (op : MatOp) : State :=
  match op.kind with
  | .tld t reads => (s.modifyUnit u.uid fun u => u.tileResults none t reads).matPop u.uid
  | _ => s.matPop u.uid

/-- TZERO's tiles under a configuration (R325). -/
def MatCfg.zeroTiles (c : MatCfg) (mask : Nat) : List Nat := (maskList 16 mask).flatMap c.pair

/-- MATRIX_OPERATION_PERFORM: the head TCFG, TZERO, TLD, TST, MFENCE or MWAIT of a unit's queue (R314, R324, R325, R328-R330). -/
def execMatrixOperationPerform (uid : Nat) (s : State) : Host.Outcome State Fault Refusal :=
  match s.unit? uid with
  | none => .next s
  | some u =>
    match u.matq with
    | [] => .next s
    | op :: _ =>
      let cfg := matCfg u.ntiles op.cfg
      if !s.matServes u then .next s
      else match op.kind, cfg with
        | .tcfg block, _ => .next ((s.modifyUnit uid fun u => u.configure block).matPop uid)
        | .fence, _ => .next (s.matPop uid)
        | .wait _, _ => .next (s.matPop uid)
        | .mma _ _ _ _ _ _ _ _ _, _ => .next s
        | _, none => .next (s.matDiscard u op)
        | .tzero mask, some c =>
          if u.matStopped.isSome then .next (s.matDiscard u op)
          else .next ((s.modifyUnit uid fun u => u.clearTiles (c.zeroTiles mask.toNat)).matPop uid)
        | .tld t reads, some c =>
          if u.matStopped.isSome then .next (s.matDiscard u op)
          else if (c.pair t).any u.badTiles.contains then .next ((s.modifyUnit uid fun u => u.tileResults none t reads).matStop uid t)
          else .next ((s.modifyUnit uid fun u => u.tileResults (some c) t reads).matPop uid)
        | .tst t o st bf, some c =>
          if u.matStopped.isSome then .next (s.matDiscard u op)
          else if (c.pair t).any u.badTiles.contains then .next (s.matStop uid t)
          else .next ((s.tileStore u c t o st bf).matPop uid)

/-- K_STEP: the next step of the MMA or MLOOP that heads a unit's queue (R321, R327, R334). -/
def execKStep (uid : Nat) (s : State) : Host.Outcome State Fault Refusal :=
  match s.unit? uid with
  | none => .next s
  | some u =>
    match u.matq with
    | [] => .next s
    | op :: rest =>
      match op.kind with
      | .mma t z steps ao asc bo m1 m2 m3 =>
        if !s.matServes u then .next s
        else match matCfg u.ntiles op.cfg with
          | none => .next (s.matDiscard u op)
          | some c =>
            let x : StepAt := ⟨stepOffset ao m1 op.done, stepOffset asc m3 op.done, stepOffset bo m2 op.done⟩
            let z := z && op.done == 0
            if u.matStopped.isSome then .next (s.matDiscard u op)
            else if s.stepBad u c t z x then .next (s.matStop uid t)
            else
              let s' := s.modifyUnit uid fun _ => { s.kStep u c t z x with matq := { op with done := op.done + 1 } :: rest }
              if op.done + 1 ≥ steps then .next (s'.matPop uid) else .next s'
      | _ => .next s

/-! ### Issue (R317, R323) -/

/-- The 32-bit value of a source field in the lowest active lane. -/
def Gang.matVal (g : Gang) (lanes : List (Nat × Nat)) (b : BSource) : Nat :=
  let x := g.first lanes
  (x.1.operand x.2 (src32 anyTag) b).val

/-- The pair of SRCA in the lowest active lane. -/
def Gang.matPair (g : Gang) (lanes : List (Nat × Nat)) (w : StdWord) : Nat :=
  let x := g.first lanes
  x.1.runValue x.2 w.srcA.toNat 2

/-- The entry of a word whose SRCA is a pair. -/
def pairEntryOf (g : Gang) (w : StdWord) (mods : Nat) : AluEntry :=
  { once := true, mods := mods, dst := .field, a := .field, reads := runRegs w.srcA.toNat 2,
    illegal := !pairSpecOk g.head.regs w.srcA.toNat, fn := fun _ _ _ _ _ => {} }

/-- MATRIX_CONFIG in every active lane. -/
def State.matTrap (s : State) (g : Gang) (lanes : List (Nat × Nat)) (w : StdWord) : State :=
  s.enterTrap g (g.allTrap .matrixConfig lanes w.dst)

/-- SCRATCH_BOUNDS at an offset. -/
def State.matBounds (s : State) (g : Gang) (lanes : List (Nat × Nat)) (w : StdWord) (off : Int) (write : Bool) : State :=
  s.enterTrap g { g.namedTrap .scratchBounds lanes w.dst (BitVec.ofInt 64 off) with info := fun _ => accessInfo write false 0 }

/-- Whether the matrix queue is full (R314). -/
def WorkUnit.matFull (u : WorkUnit) : Bool := u.matq.length ≥ 16

/-- Put an operation into the queue; the gang is held while it is full (R314). -/
def State.matIssue (s : State) (g : Gang) (opc : Nat) (w : StdWord) (kind : MatKind) (cfg : DWord) : State :=
  if g.u.matFull then s.holdWord g
  else (s.modifyUnit g.u.uid fun u => { u with matq := u.matq ++ [⟨kind, cfg, 0, encodeStd opc w⟩] }).finishWord g w.c.y 1

/-- Run an operation under the issued configuration; without one it faults (R317). -/
def State.withCfg (s : State) (g : Gang) (lanes : List (Nat × Nat)) (w : StdWord) (act : MatCfg → DWord → State) : State :=
  match g.u.issuedCfg, g.u.cfgIssued with
  | some c, some block => act c block
  | _, _ => s.matTrap g lanes w

/-- TCFG (R324). -/
def execTcfg (w : StdWord) : State → Host.Outcome State Fault Refusal :=
  onceWord 0x1A0 w (fun g => { pairEntryOf g w 0 with dst := .unused }) fun s g lanes =>
    let block := BitVec.ofNat 64 (g.matPair lanes w)
    if (matCfg g.u.ntiles block).isNone then s.matTrap g lanes w
    else if g.u.matFull then s.holdWord g
    else (s.modifyUnit g.u.uid fun u => { u with cfgIssued := some block }).matIssue g 0x1A0 w (.tcfg block) block

/-- TZERO (R325). -/
def execTzero (w : StdWord) : State → Host.Outcome State Fault Refusal :=
  onceWord 0x1A1 w (fun _ => { once := true, dst := .unused, a := src32 anyTag, fn := fun _ _ _ _ _ => {} }) fun s g lanes =>
    s.withCfg g lanes w fun c block =>
      let a := g.matVal lanes (.spec w.srcA)
      if a ≥ 2 ^ 16 || (maskList 16 a).any (!c.tileOk ·) then s.matTrap g lanes w
      else s.matIssue g 0x1A1 w (.tzero (BitVec.ofNat 16 a)) block

/-- The fields of WBLD's control word (R326). -/
def wbldOfs (c : Nat) : Nat := bitsOf c 12 0
def wbldLen (c : Nat) : Nat := bitsOf c 25 13 + 1
def wbldTag (c : Nat) : Nat := bitsOf c 31 26

/-- WBLD's source. -/
def Gang.wbldSource (g : Gang) (lanes : List (Nat × Nat)) (w : StdWord) : Nat :=
  if bitOf w.m 2 then g.matVal lanes (.spec w.srcA) else g.matPair lanes w

/-- WBLD: a streamer command that fills the weight-buffer region (R326). -/
def execWbld (w : StdWord) : State → Host.Outcome State Fault Refusal :=
  onceWord 0x1A2 w
    (fun g =>
      let lanes := g.executing w.c
      let c := g.matVal lanes w.srcB
      let bad := g.wbldSource lanes w % 32 != 0 || (if bitOf w.m 3 then wbldTag c ≥ g.u.ntags else wbldTag c != 0)
      if bitOf w.m 2 then { once := true, rights := true, mods := 15, dst := .unused, a := src32 anyTag, b := src32 anyTag, illegal := bad, fn := fun _ _ _ _ _ => {} }
      else { pairEntryOf g w 15 with rights := true, dst := .unused, b := src32 anyTag, illegal := !pairSpecOk g.head.regs w.srcA.toNat || bad })
    fun s g lanes =>
      let c := g.matVal lanes w.srcB
      if (wbldOfs c + wbldLen c) * 32 > g.u.ntiles * 16384 then s.matTrap g lanes w
      else s.issueCommand g 0x1A2 w (w.m % 4)
        (.wbld (BitVec.ofNat 64 (g.wbldSource lanes w)) (bitOf w.m 2) (BitVec.ofNat 32 c))
        (if bitOf w.m 3 then some (wbldTag c) else none) none 0

/-- The operands of MMA and MLOOP. -/
structure MmaArgs where
  tile : Nat
  z : Bool
  steps : Nat
  ao : Word
  asc : Word
  bo : Word
  m1 : Word
  m2 : Word
  m3 : Word
  deriving DecidableEq, Repr, Inhabited

def MmaArgs.at' (a : MmaArgs) (s : Nat) : StepAt := ⟨stepOffset a.ao a.m1 s, stepOffset a.asc a.m3 s, stepOffset a.bo a.m2 s⟩

/-- The first offset a step reads that the unit may not reach (R254, R317). -/
def State.stepBounds (s : State) (u : WorkUnit) (c : MatCfg) (x : StepAt) : Option Int :=
  (c.spans x).findSome? fun y => s.scratchBad u y.1 y.2

/-- Whether a step's offsets break R317: alignment of A, alignment and span of the B block. -/
def WorkUnit.stepConfigBad (u : WorkUnit) (c : MatCfg) (x : StepAt) : Bool :=
  x.ao % (if c.cfmt = 2 then 8 else 4) != 0 || x.bo % 32 != 0 || x.bo < 0 || x.bo + c.layout.size > u.ntiles * 16384

/-- MMA and MLOOP at issue (R317, R318, R327). -/
def State.issueMma (s : State) (g : Gang) (lanes : List (Nat × Nat)) (opc : Nat) (w : StdWord) (a : MmaArgs) (badRun : Bool) : State :=
  if a.ao.toNat ≥ 2 ^ 21 then s.matBounds g lanes w a.ao.toNat false
  else s.withCfg g lanes w fun c block =>
    let steps := (List.range a.steps).map a.at'
    if c.aScales ∧ a.asc.toNat ≥ 2 ^ 21 then s.matBounds g lanes w a.asc.toNat false
    else match steps.findSome? (s.stepBounds g.u c) with
      | some off => s.matBounds g lanes w off false
      | none =>
        if badRun || !c.tileOk a.tile || steps.any (g.u.stepConfigBad c) then s.matTrap g lanes w
        else s.matIssue g opc w (.mma a.tile a.z a.steps a.ao a.asc a.bo a.m1 a.m2 a.m3) block

/-- The operands that MMA and MLOOP share. -/
def Gang.mmaArgs (g : Gang) (lanes : List (Nat × Nat)) (w : StdWord) : MmaArgs :=
  let p := g.matPair lanes w
  { tile := w.dst.toNat % 16, z := bitOf w.m 0, steps := 1, ao := BitVec.ofNat 32 p, asc := BitVec.ofNat 32 (p / 2 ^ 32),
    bo := BitVec.ofNat 32 (g.matVal lanes w.srcB), m1 := 0, m2 := 0, m3 := 0 }

/-- MMA: one K-step (R327). -/
def execMma (w : StdWord) : State → Host.Outcome State Fault Refusal :=
  onceWord 0x1A3 w (fun g => { pairEntryOf g w 1 with b := src32 anyTag, reserved := w.dst.toNat ≥ 16 }) fun s g lanes =>
    s.issueMma g lanes 0x1A3 w (g.mmaArgs lanes w) false

/-- MLOOP: n K-steps as one operation (R327). -/
def execMloop (w : StdWord) : State → Host.Outcome State Fault Refusal :=
  onceWord 0x1A4 w
    (fun g =>
      { pairEntryOf g w 1 with
        b := src32 anyTag, c := .field, reserved := w.dst.toNat ≥ 16
        illegal := !pairSpecOk g.head.regs w.srcA.toNat || !descRunOk g.head.regs w.srcC.toNat 4
        reads := runRegs w.srcA.toNat 2 ++ runRegs w.srcC.toNat 4 })
    fun s g lanes =>
      let run := g.descriptor lanes w.srcC.toNat 4
      let a := { g.mmaArgs lanes w with
        steps := descAt run 0 % 65536 + 1, m1 := run.getD 1 0, m2 := run.getD 2 0, m3 := run.getD 3 0 }
      s.issueMma g lanes 0x1A4 w a (descAt run 0 ≥ 65536)

/-- MFENCE: closes what the unit has issued into the next batch (R328). -/
def execMfence (w : StdWord) : State → Host.Outcome State Fault Refusal :=
  onceWord 0x1A5 w (fun _ => { once := true, dst := .unused, fn := fun _ _ _ _ _ => {} }) fun s g lanes =>
    s.withCfg g lanes w fun _ block =>
      if g.u.matFull then s.holdWord g
      else (s.modifyUnit g.u.uid fun u => { u with batchClosed := u.batchClosed + 1 }).matIssue g 0x1A5 w .fence block

/-- The batches closed whose operations have not all been performed. -/
def WorkUnit.openBatches (u : WorkUnit) : Nat := (u.matq.filter (·.kind == .fence)).length

/-- The gang's MWAIT stands in the queue. -/
def Gang.matWaits (g : Gang) : Bool := g.u.matq.any (·.kind == .wait g.ref)

/-- The gang's MWAIT is over: its place in the queue is free. -/
def WorkUnit.leaveMatq (u : WorkUnit) (g : GangRef) : WorkUnit :=
  if u.matq.any (·.kind == .wait g) then
    { u with matq := u.matq.filter (·.kind != .wait g), slices := u.slices.map Slice.wake }
  else u

/-- MWAIT: until a batch is complete; it takes a place in the matrix queue while it waits (R314, R328, R333). -/
def execMwait (w : StdWord) : State → Host.Outcome State Fault Refusal :=
  onceWord 0x1A6 w (fun _ => { once := true, dst := .unused, a := src32 anyTag, fn := fun _ _ _ _ _ => {} }) fun s g lanes =>
    s.withCfg g lanes w fun _ block =>
      let back := (g.u.batchClosed - BitVec.ofNat 32 (g.matVal lanes (.spec w.srcA))).toNat
      if back > 2 ^ 31 then s.matTrap g lanes w
      else if !g.matWaits && g.u.matFull then s.holdWord g
      else match g.u.matError with
        | some t =>
          (s.modifyUnit g.u.uid fun u => { u.leaveMatq g.ref with matError := none }).enterTrap g
            (g.allTrap .memUncorrectable lanes (BitVec.ofNat 9 t))
        | none =>
          if back < g.u.openBatches then
            (if g.matWaits then s
             else s.modifyUnit g.u.uid fun u => { u with matq := u.matq ++ [⟨.wait g.ref, block, 0, encodeStd 0x1A6 w⟩] }).holdWord g
          else (s.modifyUnit g.u.uid fun u => u.leaveMatq g.ref).finishWord g w.c.y 1

/-- A lane's index (R329). -/
def Gang.tileIndex (g : Gang) (w : StdWord) (x : Nat × Nat) : Nat :=
  ((g.u.slice x.1).operand x.2 (src32 anyTag) (.spec w.srcA)).val

/-- Whether an index faults. -/
def MatCfg.indexBad (c : MatCfg) (i : Nat) : Bool :=
  bitsOf i 5 0 ≥ c.m || bitsOf i 13 8 ≥ c.n || bitsOf i 7 6 != 0 || bitsOf i 31 14 != 0

/-- A TLD's reads: a result for each slice, numbered as they are issued. -/
def Gang.tileReads (g : Gang) (w : StdWord) (lanes : List (Nat × Nat)) : List TileRead :=
  let ps := g.counted lanes
  lanes.map fun x =>
    { slice := x.1, lane := x.2, result := g.u.nextResult + (ps.findIdx? (· == x.1)).getD 0, dst := w.dst.toNat,
      index := BitVec.ofNat 32 (g.tileIndex w x) }

/-- TLD: one tile element per lane (R329). -/
def execTld (w : StdWord) : State → Host.Outcome State Fault Refusal :=
  let tile := w.m % 16
  onceWord 0x1A7 w
    (fun g =>
      let n := if (g.u.issuedCfg.map (·.cfmt)) = some 2 then 2 else 1
      { mods := 15, dst := .field, a := src32 anyTag, illegal := !vRunOk g.head.regs w.dst.toNat n n, fn := fun _ _ _ _ _ => {} })
    fun s g lanes =>
      s.withCfg g lanes w fun c block =>
        let bad := lanes.filter fun x => c.indexBad (g.tileIndex w x)
        if !c.tileOk tile then s.matTrap g lanes w
        else if bad ≠ [] then s.matTrap g bad w
        else match (if g.u.matq.any fun o => o.kind == .tcfg o.cfg then none else g.u.matStopped) with
          | some t =>
            (s.modifyUnit g.u.uid fun u => { u with matError := none }).enterTrap g
              (g.allTrap .memUncorrectable lanes (BitVec.ofNat 9 t))
          | none =>
            if g.u.matFull then s.holdWord g
            else
              let reads := g.tileReads w lanes
              let s := s.modifyUnit g.u.uid fun u => u.issueLong g w.c.sb lanes [] (fun _ => .tile) fun _ => []
              s.matIssue g 0x1A7 w (.tld tile reads) block

/-- The first byte a TST would write that the unit may not reach. -/
def State.tstBounds (s : State) (u : WorkUnit) (c : MatCfg) (o st e : Nat) : Option Int :=
  (List.range c.m).findSome? fun m => s.scratchBad u ((o + m * st : Nat) : Int) (c.n * e)

/-- TST: a tile to scratchpad (R330). -/
def execTst (w : StdWord) : State → Host.Outcome State Fault Refusal :=
  let tile := w.m % 16
  let bf := bitOf w.m 4
  onceWord 0x1A8 w (fun _ => { once := true, mods := 63, dst := .unused, a := src32 anyTag, b := src32 anyTag, fn := fun _ _ _ _ _ => {} })
    fun s g lanes =>
      s.withCfg g lanes w fun c block =>
        let o := g.matVal lanes (.spec w.srcA)
        let st := g.matVal lanes w.srcB
        let e := tstSize c bf
        match s.tstBounds g.u c o st e with
        | some off => s.matBounds g lanes w off true
        | none =>
          if bitOf w.m 5 || (bf && c.cfmt != 0) || o % e != 0 || st % e != 0 || st < c.n * e || !c.tileOk tile then s.matTrap g lanes w
          else s.matIssue g 0x1A8 w (.tst tile (BitVec.ofNat 32 o) (BitVec.ofNat 32 st) bf) block

end Sys2Proof.Machine
end

