-- ==== Sys2Proof/Machine/Memsys.lean ====
section
/-! DEFINITION. The memory system's own work: the eviction engines (R259-R262), patrol scrubbing and uncorrectable errors (R268,
R269), and the controllers' requests and congestion reports (R133, R257, R258). -/

namespace Sys2Proof.Machine

/-! ### Choosing a page (R260, R261) -/

/-- A page that may move, with what its place in the order rests on. -/
structure Movable where
  base : Nat
  frames : Nat
  entries : List MapEntry
  dist : Nat
  pri : Nat
  dead : Bool
  deriving DecidableEq, Repr, Inhabited

/-- A page's distance for a context (R260). -/
def State.distance (s : State) (ctx : Nat) (r : HintRec) : Nat :=
  let step := match s.context ctx with | some c => c.step.toNat | none => 0
  if r.hinted && decide (step ≤ r.next.toNat) then r.next.toNat - step else 2 ^ 32

/-- Whether two entries name a common frame. -/
def MapEntry.meets (a b : MapEntry) : Bool :=
  decide (a.frame < b.frame + 65536 * b.frames ∧ b.frame < a.frame + 65536 * a.frames)

/-- The page of a leaf, if it may move: every entry that names a frame of it is a leaf of the same page with MOV = 1 (entry 26). -/
def State.movable (s : State) (es : List MapEntry) (e : MapEntry) : Option Movable :=
  let group := es.filter fun x => s.namesOwn x && x.meets e
  let fit := fun (x : MapEntry) => x.isLeaf && bitOf x.value 6 && s.leafEntryOk x.level x.value && x.frame == e.frame && x.low == e.low
  if s.namesOwn e && group.all fit then
    let rec' := fun (x : MapEntry) => s.hintOf x.pte (s.fab x.frame) x.low
    some { base := e.frame, frames := e.frames, entries := group, pri := ((group.map fun x => (rec' x).pri.toNat).foldl max 0),
           dead := group.any fun x => (rec' x).dead
           dist := (listMin (group.map fun x => s.distance x.ctx (rec' x))).getD 0 }
  else none

/-- The pages that may move out of a range of frames. -/
def State.movables (s : State) (es : List MapEntry) (r : Nat × Nat) : List Movable :=
  (es.filter fun e => decide (65536 * r.1 ≤ e.frame ∧ e.frame < 65536 * r.2)).filterMap (s.movable es)

/-- The order of eviction: dead pages, then greatest Dist, lowest PRI, lowest address (R261). -/
def Movable.sooner (a b : Movable) : Bool :=
  if a.dead ≠ b.dead then a.dead
  else if a.dist ≠ b.dist then decide (b.dist < a.dist)
  else if a.pri ≠ b.pri then decide (a.pri < b.pri)
  else decide (a.base < b.base)

/-- The order of return: least Dist, then highest PRI, then lowest address (R261). -/
def Movable.backSooner (a b : Movable) : Bool :=
  if a.dist ≠ b.dist then decide (a.dist < b.dist)
  else if a.pri ≠ b.pri then decide (b.pri < a.pri)
  else decide (a.base < b.base)

/-! ### Moving a page (R259, R262) -/

/-- A physical address that follows its page. -/
def follow (old new size pa : Nat) : Nat := if old ≤ pa ∧ pa < old + size then pa - old + new else pa

/-- What a unit holds by physical address follows a page. -/
def WorkUnit.follow (f : Nat → Nat) (u : WorkUnit) : WorkUnit :=
  let ring := fun (r : RingRead) => { r with header := BitVec.ofNat 64 (f r.header.toNat) }
  let long := fun (x : LongResult) =>
    { x with kind := match x.kind with | .ring rs more => .ring (rs.map ring) more | k => k }
  let slice := fun (sl : Slice) => { sl with pend := sl.pend.map long }
  { u with
    buffer := u.buffer.map fun b => { b with pa := f b.pa }
    ordWords := u.ordWords.map fun o => { o with pa := f o.pa }
    snapshot := sortBy (fun a b => decide (a.1 < b.1)) (u.snapshot.map fun e => (f e.1, e.2))
    slices := u.slices.map slice }

/-- What the package holds by physical address follows a page: running units, the suspended ones of a save, launches (R353). -/
def State.followPage (s : State) (f : Nat → Nat) : State :=
  let launch := fun (l : Launch) => { l with contribs := l.contribs.map fun c => { c with pa := f c.pa } }
  { s with
    units := s.units.map (WorkUnit.follow f)
    launches := s.launches.map launch
    contexts := s.contexts.map fun c => { c with saves := c.saves.map fun x => { x with units := x.units.map (WorkUnit.follow f) } }
    runWindows := s.runWindows.map fun w => { w with contribs := w.contribs.map fun c => { c with pa := f c.pa } }
    ringFrees := s.ringFrees.map fun r => (f r.1, r.2) }

/-- A page's bytes and uncorrectable sectors stand in the new frame; of a dead page nothing is copied (R262). -/
def State.copyPage (s : State) (p : Movable) (new : Nat) : State :=
  let old := s.fab p.base
  let dest := s.fab new
  let size := 65536 * p.frames
  let cells := if p.dead then [] else
    (s.mem.filter fun c => decide (old ≤ c.1 ∧ c.1 < old + size)).map fun c => (c.1 - old + dest, c.2)
  let kept := s.badSectors.filter fun k => !decide (dest ≤ k ∧ k < dest + size)
  let moved := fun (k : Nat) => (List.range (errorUnit (fabLocal k) / 8)).map fun i => unitStart (follow old dest size (k + 8 * i))
  { s with
    mem := spliceCells s.mem dest (dest + size) cells
    badSectors := if p.dead then kept.filter fun k => !decide (old ≤ k ∧ k < old + size)
      else (kept.flatMap moved).eraseDups }

/-- Rewrite FRAME in an entry. -/
def State.retarget (s : State) (new : Nat) (e : MapEntry) : State :=
  { s with mem := sparseWrite s.mem e.pte (natLe 8 (e.value - e.frame + new)) }

/-- Move a page to a local address: its contents, its hint records, FRAME in its entries, and every address held within it; no TLB copy is
left (R259). -/
def State.movePage (s : State) (p : Movable) (new : Nat) : State :=
  let old := s.fab p.base
  let dest := s.fab new
  let s := (s.copyPage p new).followPage (follow old dest (65536 * p.frames))
  let s := { s with hints := s.hints.map fun (h : Nat × HintRec) => (h.1, { h.2 with base := follow old dest (65536 * p.frames) h.2.base }) }
  let s := p.entries.foldl (fun s e => s.retarget new e) s
  (s.dropTlbs fun e => p.entries.any fun x => x.pte == e.leaf.pte).recountFrames

/-- PAGE_EVICT: a die's engine moves its next page to the capacity tier (R259, R261). -/
def execPageEvict (die : Nat) (s : State) : Host.Outcome State Fault Refusal :=
  if !(s.die die).evicting then .next s
  else
    let es := s.mapEntries
    match (sortBy Movable.sooner (s.movables es (hbmFrames die))).head? with
    | none => .next s
    | some p =>
      match lowestRun p.frames (s.freeRuns (capacityFrames die)) with
      | none => .next s
      | some f => .next (s.movePage p (65536 * f))

/-- PAGE_BRING_BACK: a page with Dist 0 comes back to HBM while free frames are above the mark (R261). -/
def execPageBringBack (die : Nat) (s : State) : Host.Outcome State Fault Refusal :=
  let es := s.mapEntries
  if s.freeHbm die ≤ (s.die die).lowWater then .next s
  else
    let near := (s.movables es (capacityFrames die)).filter (·.dist == 0)
    match (sortBy Movable.backSooner near).head? with
    | none => .next s
    | some p =>
      match lowestRun p.frames (s.freeRuns (hbmFrames die)) with
      | none => .next s
      | some f => .next (s.movePage p (65536 * f))

/-! ### Errors (R268, R269) -/

/-- An entry in a die's error log. -/
def State.logError (s : State) (die kind ctx : Nat) (a : DWord) : State :=
  s.modifyDie die fun d => { d with errorLog := d.errorLog ++ [(kind, ctx, a)] }

/-- An error that stays within the correcting power of its code, in any protected storage of a die: it is corrected, and counted in the
die's log (R268). -/
def State.correctError (s : State) (die : Nat) (address : DWord) : State :=
  { s.logError die 0 0 address with corrected := s.corrected + 1 }

/-- PATROL_SCRUB: an error in a line of HBM or the capacity tier is corrected and counted in the die's log (R268). A unit beyond the
correcting power stays as it is. -/
def execPatrolScrub (address : DWord) (s : State) : Host.Outcome State Fault Refusal :=
  let loc := address.toNat
  if (inHbm loc || inCapacity loc) && !s.badSectors.contains (unitStart (s.fab loc)) then .next (s.correctError (memoryDie loc) address)
  else .next s

/-- Count an uncorrectable error. -/
def State.countError (s : State) : State := { s with uncorrected := s.uncorrected + 1 }

/-- An uncorrectable error in what a resident unit holds. -/
def State.unitError (s : State) (unit : Nat) (ok : WorkUnit → Bool) (f : WorkUnit → WorkUnit) : State :=
  match s.unit? unit with
  | some u => if u.residence = .resident ∧ ok u then s.countError.modifyUnit unit f else s
  | none => s

/-- A number added once. -/
def addOnce [BEq α] (l : List α) (x : α) : List α := if l.contains x then l else l ++ [x]

/-- UNCORRECTABLE_ERROR: storage goes bad beyond the correcting power; later reads report it (R268, R269). A dead page's reads raise no
error (R262). An error in device-owned state of a launch aborts it, and the die logs it. -/
def execUncorrectableError (place : ErrorPlace) (s : State) : Host.Outcome State Fault Refusal :=
  match place with
  | .sector a =>
    let pa := s.fab a.toNat
    if (inHbm a.toNat || inCapacity a.toNat || (sharedPlace a.toNat).isSome && s.mapped pa) && !s.deadAt pa then
      .next { s.countError with badSectors := addOnce s.badSectors (unitStart pa) }
    else .next s
  | .scratch unit offset =>
    .next (s.unitError unit (fun u => s.scratchOk u offset && decide (offset < 0x100000)) fun u =>
      { u with badScratch := addOnce u.badScratch (offset / 8) })
  | .area core offset =>
    if offset < 0x80000 then .next (s.countError.modifyCore core fun c => { c with badArea := addOnce c.badArea (offset / 8) })
    else .next s
  | .register unit lane spec =>
    let key := (if spec ≥ 0x110 then lane / 4 * 4 else lane, spec)
    .next (s.unitError unit (fun u => decide (lane < u.nlanes ∧ (spec < u.regs ∨ (0x100 ≤ spec ∧ spec < 0x150)))) fun u =>
      { u with badRegs := addOnce u.badRegs key })
  | .tile unit tile =>
    .next (s.unitError unit (fun u => decide (tile < u.ntiles)) fun u => { u with badTiles := addOnce u.badTiles tile })
  | .weights unit word =>
    .next (s.unitError unit (fun u => decide (word < 2048 * u.ntiles)) fun u => { u with badWeights := addOnce u.badWeights word })
  | .device die slot =>
    match s.launch? die slot with
    | none => .next s
    | some l => .next ((s.countError.logError die 0x15 l.ctx l.index).abortLaunch die slot ⟨4, 1, s.chip⟩ (0, 0, 0))

/-! ### Requests and congestion (R133, R257, R258) -/

/-- The level of an occupancy: `acc` requests over `dt` cycles against 512 entries (R258). -/
def congestionOf (acc dt : Nat) : Nat :=
  if 100 * acc < 50 * 512 * dt then 0 else if 100 * acc < 75 * 512 * dt then 1 else if 100 * acc < 90 * 512 * dt then 2 else 3

/-- Put a report in place of the controller's last. -/
def Core.report (c : Core) (controller level now : Nat) : Core :=
  { c with congestion := c.congestion.filter (·.1 != controller) ++ [(controller, level, now)] }

/-- CONGESTION_REPORT: after 256 cycles a controller reports its level to each core with a request outstanding (R258). -/
def execCongestionReport (controller : Nat) (s : State) : Host.Outcome State Fault Refusal :=
  let s := s.tally
  match s.controllers.find? (·.num == controller) with
  | none => .next s
  | some x =>
    if s.clock < x.start + 256 then .next s
    else
      let level := congestionOf x.acc (x.upTo - x.start)
      let cores := ((s.requests.filter (·.controller == controller)).map (·.core)).eraseDups
      let s := cores.foldl (fun s n => s.modifyCore n fun c => c.report controller level s.clock) s
      .next { s with controllers := s.controllers.map fun y => if y.num = controller then ⟨controller, 0, s.clock, s.clock⟩ else y }

/-- CONGESTION_LEVEL_EXPIRY: a level reported 1,024 cycles ago no longer holds (R133). -/
def execCongestionLevelExpiry (core controller : Nat) (s : State) : Host.Outcome State Fault Refusal :=
  let held := fun (r : Nat × Nat × Nat) => r.1 != controller || decide (s.clock < r.2.2 + 1024)
  .next (s.modifyCore core fun c => { c with congestion := c.congestion.filter held })

/-- HBM_REQUEST_COMPLETE: a request has been served, and its data returns at once (R257). -/
def execHbmRequestComplete (request : Nat) (s : State) : Host.Outcome State Fault Refusal :=
  let s := s.tally
  .next { s with requests := s.requests.filter (·.id != request) }

end Sys2Proof.Machine
end

