-- ==== Sys2Proof/Machine/Place.lean ====
section
/-! DEFINITION. Placing work (R113-R130): units and what they start with, banks and fit, the waiting order, the frontier walker, lane
tasks, and the turns in which launches are served. -/

namespace Sys2Proof.Machine

/-! ### What a unit starts with (R80, R83, R143, R152, R157) -/

/-- What tells one unit of a launch from another. -/
structure Start where
  unitId : Nat
  nlanes : Nat
  entry : DWord
  lane : Nat → Lane
  wgid : Nat × Nat × Nat := (0, 0, 0)
  frpos : Nat × Nat × Nat := (0, 0, 0)
  wset : Nat := 0
  attaches : List Attach := []

/-- A slice at its unit's start: lanes beyond the unit's last start exited (R152). -/
def Start.slice (x : Start) (karg : DWord) (regs home idx : Nat) : Slice :=
  let mask := BitVec.ofNat 4 (Machine.maskOf ((List.range 4).filter fun j => 32 * home + 4 * idx + j < x.nlanes))
  let sl : Slice := { (default : Slice) with
    home := home, idx := idx, pc := x.entry, active := mask, exited := ~~~mask, atEntry := true, regs := regs,
    sb := [0, 0, 0, 0, 0, 0, 0], trackers := noTrackers, lanes := (List.range 4).map fun j => x.lane (32 * home + 4 * idx + j) }
  (sl.setS 0 (karg.extractLsb' 0 32)).setS 1 (karg.extractLsb' 32 32)

/-- The unit, not yet placed. -/
def Launch.unit (l : Launch) (uid : Nat) (x : Start) : WorkUnit :=
  let homes := List.range ((x.nlanes + 31) / 32)
  let slices := homes.flatMap fun h => (List.range 8).map fun i => x.slice l.karg (8 * l.budget) h i
  { (default : WorkUnit) with
    uid := uid, die := l.die, lslot := l.slot, ctx := l.ctx, unitId := x.unitId, residence := .waiting, entry := x.entry,
    regs := 8 * l.budget, nlanes := x.nlanes, ntags := l.tags, ntiles := l.tiles, cohs := l.cohs,
    pgang := if l.kind < 2 then l.pgang else 0, scratchLen := 4096 * l.scratch, det := l.det, wgid := x.wgid,
    frpos := x.frpos, slices := slices, nextIg := 1, tags := List.replicate l.tags TagState.fresh,
    latches := [none, none, none, none], wset := x.wset, ocloses := [0, 0, 0, 0], attaches := x.attaches }

/-- The attach list's entries for a unit (R88). -/
def Launch.attachesFor (l : Launch) (unitId : Nat) : List Attach :=
  l.attach.map fun e =>
    { name := if e.2.getLsbD 1 then e.1 + BitVec.ofNat 64 unitId else e.1
      gen := if e.2.getLsbD 2 then some (wordBits e.2 31 16) else none
      mode := if e.2.getLsbD 0 then .fault else .reload }

/-- A lane's eight argument words in v0-v7, raw (R129, R143). -/
def argLane (args : List Word) (ln : Lane) : Lane :=
  (args.zipIdx).foldl (fun ln e => ln.setV e.2 ⟨e.1, 0⟩) ln

/-- Workgroup w of a grid (R83). -/
def Launch.gridUnit (l : Launch) (uid w : Nat) : WorkUnit :=
  l.unit uid { unitId := w, nlanes := l.lanes, entry := l.entry, lane := fun _ => default,
               wgid := (w % l.gx, w / l.gx % l.gy, w / (l.gx * l.gy)), attaches := l.attachesFor w }

/-- Coordinates of a point (R121). -/
def Launch.point (l : Launch) (id : Nat) : Nat × Nat × Nat :=
  let line := id / (l.xk + 1)
  (line / (l.xj + 1), line % (l.xj + 1), id % (l.xk + 1))

/-- A frontier point's workgroup (R126). -/
def Launch.pointUnit (l : Launch) (uid id : Nat) : WorkUnit :=
  l.unit uid { unitId := id, nlanes := l.lanes, entry := l.entry, lane := fun _ => default, frpos := l.point id,
               attaches := l.attachesFor id }

/-- A handler's table entry. -/
def Domain.handler (d : Domain) (h : Nat) : HandlerEntry := d.handlers.getD h ⟨0, 0⟩

/-- HATT, and the segment a handler attaches for an event: (HFAM, index) from argument word ARGW (R86). -/
def HandlerEntry.attaches (h : HandlerEntry) (e : EventRec) : Option (DWord × Bool) :=
  if h.word.getLsbD 51 then
    some (BitVec.ofNat 64 (wordBits h.word 47 0 * 65536 + (e.args.getD (wordBits h.word 50 48) 0).toNat % 65536), h.word.getLsbD 52)
  else none

/-- The attachment of a handler's gang; in deterministic mode FAULT still reloads a segment that is on no core (R124). -/
def HandlerEntry.attach (h : HandlerEntry) (det : Bool) (e : EventRec) : List Attach :=
  ((h.attaches e).map fun x =>
    { name := x.1, gen := none, mode := if !x.2 then AttachMode.reload else if det then .reloadAbsent else .fault }).toList

/-- An event lane at its start (R143). -/
def eventLane (d : Domain) (e : EventRec) : Lane :=
  argLane e.args { (default : Lane) with
    evtime := e.time, evtie := BitVec.ofNat 32 (e.tie.toNat + e.handler.toNat * 2 ^ 20),
    evid := BitVec.ofNat 64 (e.id.toNat + d.number * 2 ^ 48),
    evser := BitVec.ofNat 64 (e.serial.toNat + e.flags.toNat * 2 ^ 48) }

/-- Gang k of a batch (R142, R143). -/
def Launch.eventUnit (l : Launch) (d : Domain) (uid : Nat) (g : Nat × List EventRec) : WorkUnit :=
  let first := g.2.headD default
  let h := d.handler first.handler.toNat
  l.unit uid { unitId := g.1, nlanes := g.2.length, entry := h.entry, wgid := (g.1, 0, 0), wset := d.batchNo,
               lane := fun i => match g.2[i]? with | some e => eventLane d e | none => default,
               attaches := l.attachesFor g.1 ++ h.attach l.det first }

/-- A gathered gang of lane tasks (R129). -/
def Launch.taskUnit (l : Launch) (p : Pool) (uid : Nat) (ts : List TaskRec) : WorkUnit :=
  l.unit uid { unitId := p.gangs, nlanes := ts.length, entry := (ts.headD default).entry,
               wset := if l.det then p.round else p.gangs,
               lane := fun i => match ts[i]? with
                 | some t => argLane t.args { (default : Lane) with taskNo := t.number, taskPos := t.pos }
                 | none => default
               attaches := l.attachesFor p.gangs }

/-! ### Banks (R114, R115) -/

def WorkUnit.gangCount (u : WorkUnit) : Nat := (u.nlanes + 31) / 32

/-- Tags of exited units of a bank whose commands still run: they are taken until the last command completes (R308, R441). -/
def State.tagsLeft (s : State) (core bank : Nat) : Nat :=
  ((s.units.filter fun u => u.residence == .exited && u.core == core && u.bank == bank && !(s.unitCommands u).isEmpty).map (·.ntags)).sum

/-- Whether a unit fits a bank beside the units of it (R82, R114). -/
def State.fitsBank (s : State) (core bank : Nat) (u : WorkUnit) : Bool :=
  let us := s.unitsIn core bank
  let sum := fun (f : WorkUnit → Nat) => (us.map f).sum
  decide (sum (·.gangCount) + u.gangCount ≤ 32 ∧
    sum (fun x => x.gangCount * 32 * x.regs) + u.gangCount * 32 * u.regs ≤ 131072 ∧
    s.bankScratch core bank + u.scratchTaken + segmentBytes (s.areaSegments core) ≤ 0x100000 ∧
    sum (·.ntags) + s.tagsLeft core bank + u.ntags ≤ 64 ∧ sum (·.ntiles) + u.ntiles ≤ 16 ∧
    sum (fun x => 1 + x.cohs) + (1 + u.cohs) ≤ 32)

/-- The bank a unit goes to: the active one if it fits there, else the shadow bank (R115). -/
def State.bankFor (s : State) (core : Nat) (u : WorkUnit) : Option Nat :=
  let a := (s.core core).active
  if s.fitsBank core a u then some a else if s.fitsBank core (1 - a) u then some (1 - a) else none

/-- The k lowest free numbers below 32. -/
def lowestFree (taken : List Nat) (k : Nat) : List Nat := ((List.range 32).filter (!taken.contains ·)).take k

/-- Put a unit into a bank: gang slots and barrier slots, its workgroup barrier LIVE with every home gang a member (R156); then
its attachments (R88). -/
def State.seat (s : State) (uid core bank : Nat) : State :=
  match s.unit? uid with
  | none => s
  | some u =>
    let us := s.unitsIn core bank
    let slots := lowestFree (us.flatMap (·.slots)) u.gangCount
    let bslots := lowestFree (us.flatMap (·.bslots)) (1 + u.cohs)
    let s := { s.modifyUnit uid fun u =>
      { u with residence := .resident, core := core, bank := bank, slots := slots, bslots := bslots, startNo := s.nextId,
               attachSince := none } with nextId := s.nextId + 1 }
    let s := s.modifyBank core bank fun b =>
      b.setSlot (bslots.headD 0) { owner := slots.headD 0, members := slotMask slots, arrived := 0, phase := false, live := true }
    (s.modifyCore core fun c => { c with waiting := c.waiting.filter (· != uid) }).acquire uid

/-! ### The waiting order (R131) -/

/-- The order of units that wait to start: die, launch slot, unit id; spilled units come after them. -/
def WorkUnit.waitsBefore (a b : WorkUnit) : Bool :=
  b.residence == .spilled ||
  decide (a.die < b.die) || (a.die == b.die && (decide (a.lslot < b.lslot) || (a.lslot == b.lslot && decide (a.unitId < b.unitId))))

/-- Put a unit into an order. -/
def insertWaiting (unit? : Nat → Option WorkUnit) (u : WorkUnit) : List Nat → List Nat
  | [] => [u.uid]
  | v :: t =>
    match unit? v with
    | some x => if u.waitsBefore x then u.uid :: v :: t else v :: insertWaiting unit? u t
    | none => v :: insertWaiting unit? u t

/-- A unit assigned to a core that cannot take it yet joins the core's waiting order (R117, R120). -/
def State.joinWaiting (s : State) (u : WorkUnit) (core : Nat) : State :=
  (s.modifyUnit u.uid fun u => { u with core := core }).modifyCore core fun c =>
    { c with waiting := insertWaiting s.unit? u c.waiting }

/-- The units assigned to a core that wait to start there, in order. -/
def State.assigned (s : State) (core : Nat) : List WorkUnit :=
  ((s.core core).waiting.filterMap s.unit?).filter (·.residence == .waiting)

/-- The first unit of a launch that waits to start on a core. -/
def State.firstWaiting (s : State) (core die slot : Nat) : Option WorkUnit :=
  (s.assigned core).find? fun u => u.die == die && u.lslot == slot

/-! ### Where a unit may go (R119-R124) -/

inductive Home where
  /-- any core below the limit that fits -/
  | any (limit : Nat)
  | on (core : Nat)
  | nowhere
  deriving DecidableEq, Repr, Inhabited

/-- The segment that steers a unit's placement, and whether in FAULT mode: a grid's PERWG entry (R122), a handler's (R124). -/
def Launch.steer (l : Launch) (u : WorkUnit) : Option (DWord × Bool) :=
  if l.kind = 0 then
    (l.attach.find? fun e => e.2.getLsbD 1).map fun e => (e.1 + BitVec.ofNat 64 u.unitId, e.2.getLsbD 0)
  else if l.kind = 2 then
    l.domain.bind fun d =>
      let ln := u.lane 0 0
      let args := (List.range 8).map fun n => (ln.getV n).val
      (d.handler (wordBits (ln.evtie.setWidth 64) 31 20)).attaches { (default : EventRec) with args := args }
  else none

/-- Logical cores a launch's event and task gangs use (R85, R87). -/
def State.coresOf (s : State) (l : Launch) : Nat := if l.coresField = 0 then s.n else l.coresField

/-- Reload placement: the first core after the launch's previous one that fits the unit, and the segment once evictable ones count as
free (R123). -/
def State.reloadCore (s : State) (l : Launch) (u : WorkUnit) (x : Segment) : Option Nat :=
  let start := match l.lastReload with | some c => c + 1 | none => 0
  ((List.range s.n).map fun i => (start + i) % s.n).find? fun c =>
    (s.bankFor c u).isSome && (s.roomBeside c ((s.areaSegments c).filter (!·.evictable)) x.size).isSome

/-- Whether a unit's segment asks for reload placement: RELOAD, outside deterministic mode, resident nowhere. -/
def State.asksReload (s : State) (l : Launch) (u : WorkUnit) : Option Segment :=
  match l.steer u with
  | some (name, false) => if l.det then none else (s.segment? l.ctx name).filter (·.core.isNone)
  | _ => none

/-- Where a unit is to go. An event gang of FAULT mode whose segment is on no core stays below CORES (DESIGN CHOICE, entry 23: R124 sends it
where R119 would). -/
def State.homeOf (s : State) (l : Launch) (u : WorkUnit) : Home :=
  let fixed := if l.kind = 3 then (if l.det then l.pool.map fun p => p.roundGangs % s.coresOf l else none)
    else if l.kind = 2 then some (u.unitId % s.coresOf l) else if l.det then some (u.unitId % s.n) else none
  let limit := if l.kind < 2 then s.n else s.coresOf l
  match l.steer u, l.det with
  | some (name, fault), false =>
    match s.segment? l.ctx name with
    | none => .any limit
    | some x =>
      match x.core with
      | some c => .on c
      | none => if fault then .any limit else match s.reloadCore l u x with | some c => .on c | none => .nowhere
  | _, _ => match fixed with | some c => .on c | none => .any limit

/-- In deterministic mode a RELOAD segment attached on another core keeps the unit waiting, unplaced (R122, R124). -/
def State.steerBlocked (s : State) (l : Launch) (u : WorkUnit) (core : Nat) : Bool :=
  match l.steer u with
  | some (name, false) =>
    l.det && !u.attaches.isEmpty &&
      (s.segment? l.ctx name).any fun x => x.core.isSome && x.core != some core && (x.att > 0 || x.reloading)
  | _ => false

/-- Whether a unit that waits to start waits for a segment attached on another core. -/
def State.waitsSegment (s : State) (u : WorkUnit) : Bool :=
  u.residence == .waiting && (s.launch? u.die u.lslot).any fun l => s.steerBlocked l u u.core

/-- Since when each unit that is not placed has waited for a segment attached on another core (R122). -/
def State.noteWaits (s : State) : State :=
  if s.units.all (·.residence != .waiting) then s
  else { s with units := s.units.map fun u =>
    if u.residence = .waiting then { u with attachSince := if s.waitsSegment u then some (u.attachSince.getD s.clock) else none } else u }

/-- Whether a launch may start units: not aborted, not retired, not held at its Cinch barrier, not stopped by a suspension. -/
def Launch.mayStart (l : Launch) : Bool :=
  l.abort.isNone && l.ended.isNone && l.suspend.isNone && l.cinch.all (·.released)

/-- Whether a launch's waiting units may start: under a draining suspension the points already dispatched do (R437). -/
def Launch.maySeat (l : Launch) : Bool := l.abort.isNone && l.ended.isNone && l.cinch.all (·.released)

/-! ### The frontier walker (R125-R127) -/

/-- Behind(q) (R125). -/
def Launch.behind (l : Launch) (f : Frontier) (qi qj qk : Int) : Bool :=
  if qi < 0 ∨ qj < 0 ∨ qk < 0 then true
  else
    let e := f.line (qi.toNat * (l.xj + 1) + qj.toNat)
    let k := qk.toNat
    decide (k < e.1) || (decide (k - e.1 < 64) && e.2.getLsbD (k - e.1))

/-- Whether a point is eligible (R125). -/
def Launch.eligible (l : Launch) (f : Frontier) (id : Nat) : Bool :=
  let p := l.point id
  let e := f.line (id / (l.xk + 1))
  !l.pointDone id && !f.dispatched.contains id && decide (p.2.2 < e.1 + 64) &&
  (List.range l.nvec).all fun n =>
    let d := l.vec n
    l.behind f ((p.1 : Int) - d.1) ((p.2.1 : Int) - d.2.1) ((p.2.2 : Int) - d.2.2)

/-- The least eligible point (R126). -/
def Launch.nextPoint (l : Launch) (f : Frontier) : Option Nat :=
  (List.range f.lines.length).findSome? fun line =>
    let p := (f.line line).1
    ((List.range 64).find? fun b => decide (p + b ≤ l.xk) && l.eligible f (line * (l.xk + 1) + p + b)).map fun b =>
      line * (l.xk + 1) + p + b

/-! ### Lane tasks (R129) -/

/-- The tasks of a gang: the oldest, and those of its entry among the next 1,023, to 32 in all (R129). -/
def gatherTasks (ts : List TaskRec) : List TaskRec :=
  match ts with
  | [] => []
  | t :: rest => t :: ((rest.take 1023).filter (·.entry == t.entry)).take 31

/-! ### Offers and turns (R117, R118, R126, R131) -/

/-- A launch's next unit, and what placing it takes from the launch. -/
structure Offer where
  u : WorkUnit
  take : Launch → Launch

/-- The next unit a launch has ready, in ascending unit id (R117). A point is judged eligible on a table to which every completion of
earlier cycles has been applied, and none of a cycle still going on (R126). -/
def State.nextOffer (s : State) (l : Launch) : Option Offer :=
  if !l.mayStart then none
  else match l.kind with
    | 0 =>
      if l.nextUnit < l.unitsTotal then
        some ⟨l.gridUnit s.nextId l.nextUnit, fun l => { l with nextUnit := l.nextUnit + 1 }⟩
      else none
    | 1 => l.frontier.bind fun f =>
      if f.stopped || !f.restoring.isEmpty || f.doneAt == some s.clock then none
      else (l.nextPoint f).map fun id => ⟨l.pointUnit s.nextId id, fun l =>
        { l with frontier := l.frontier.map fun f => { f with dispatched := f.dispatched ++ [id] } }⟩
    | 2 => l.domain.bind fun d => d.gangs.head?.map fun g =>
      ⟨l.eventUnit d s.nextId g, fun l => { l with domain := l.domain.map fun d => { d with gangs := d.gangs.drop 1 } }⟩
    | _ => l.pool.bind fun p =>
      let ts := gatherTasks p.tasks
      if ts.isEmpty then none
      else some ⟨l.taskUnit p s.nextId ts, fun l => { l with pool := l.pool.map fun p =>
        { p with tasks := p.tasks.filter (!ts.contains ·), roundGangs := p.roundGangs + 1, gangs := p.gangs + 1 } }⟩

/-- Whether a bank of a core, emptied of its units, would take one: only the segment area can stand against it (R82, R114). -/
def State.couldFit (s : State) (core : Nat) (u : WorkUnit) : Bool :=
  decide (u.scratchTaken + segmentBytes (s.areaSegments core) ≤ 0x100000)

/-- Whether a unit that waits to start on a core keeps those behind it from the core: not one that waits for a segment attached elsewhere,
nor one that no bank could take (R131, R132). -/
def State.keepsPlace (s : State) (core : Nat) (v : WorkUnit) : Bool := s.couldFit core v && !s.waitsSegment v

/-- Whether a unit assigned to a core stands ahead of another there (R131). -/
def State.behindAssigned (s : State) (core : Nat) (u : WorkUnit) : Bool :=
  (s.assigned core).any fun v => v.uid != u.uid && v.waitsBefore u && s.keepsPlace core v

/-- Whether units of its own launch wait to start on a core: the later ones start after them (R118). -/
def State.launchWaits (s : State) (core : Nat) (l : Launch) : Bool := (s.firstWaiting core l.die l.slot).isSome

/-- The bank a launch's next unit would start in on a core, now (R115, R117, R118). -/
def State.startBank (s : State) (l : Launch) (u : WorkUnit) (core : Nat) : Option Nat :=
  let there := match s.homeOf l u with
    | .nowhere => false
    | .any limit => decide (core < limit)
    | .on c => c == core
  if !there || s.launchWaits core l || s.steerBlocked l u core || s.behindAssigned core u then none else s.bankFor core u

/-- Whether a launch has a unit ready and a bank that takes it (R117). -/
def State.canPlace (s : State) (l : Launch) : Bool :=
  (s.nextOffer l).any fun o => (List.range s.n).any fun c => (s.startBank l o.u c).isSome

/-- Whether it is a launch's turn: every launch of the die that the dispatcher would serve before it passes (R117). -/
def State.launchTurn (s : State) (die slot : Nat) : Bool :=
  let from' := fun (x : Nat) => (x + 32 - (s.die die).turn) % 32
  s.launches.all fun l => l.die != die || from' slot ≤ from' l.slot || !s.canPlace l

/-- A unit is taken from its launch. -/
def State.takeUnit (s : State) (l : Launch) (o : Offer) : State :=
  ({ s with nextId := s.nextId + 1, units := s.units ++ [o.u] }).modifyLaunch l.die l.slot o.take

/-- A reload placement has chosen a core: the next scan starts after it (R123). -/
def State.noteReload (s : State) (l : Launch) (reload : Bool) (core : Nat) : State :=
  if reload then s.modifyLaunch l.die l.slot fun l => { l with lastReload := some core } else s

/-- Offer a launch's next unit to a core, at the launch's turn: it starts there, or, assigned to that core by R120, R122 or R124, waits for
it; the die then serves the next launch (R117). -/
def State.offer (s : State) (l : Launch) (core : Nat) : State :=
  match s.nextOffer l with
  | none => s
  | some o =>
    let reload := (s.asksReload l o.u).isSome
    match s.startBank l o.u core with
    | some b =>
      (((s.takeUnit l o).seat o.u.uid core b).noteReload l reload core).modifyDie l.die fun d => { d with turn := (l.slot + 1) % 32 }
    | none =>
      if s.homeOf l o.u = .on core ∧ l.kind ≠ 3 then ((s.takeUnit l o).joinWaiting o.u core).noteReload l reload core else s

/-- The core a unit that waits to start belongs on now: the one that holds its segment, which may have moved, else the one it waits for
(R122). -/
def State.homeNow (s : State) (l : Launch) (u : WorkUnit) (core : Nat) : Nat :=
  match l.steer u, l.det with
  | some (name, _), false => ((s.segment? l.ctx name).bind (·.core)).getD core
  | _, _ => core

/-- Where a launch's next unit, or the least suspended workgroup it has to restore, might go: the units placed nowhere that wait for a core
(R131, R440). -/
def State.unplaced (s : State) (l : Launch) : Option (Home × WorkUnit) :=
  match (s.nextOffer l) with
  | some o => some (s.homeOf l o.u, o.u)
  | none => none

/-- Whether an unplaced unit's launch has the core. -/
def Home.covers (n : Nat) (core : Nat) : Home → Bool
  | .any limit => decide (core < limit)
  | .on c => c == core
  | .nowhere => decide (core < n)

/-- Whether a unit placed nowhere stands ahead of one that waits for a core, and could have it (R131). -/
def State.behindUnplaced (s : State) (core : Nat) (u : WorkUnit) : Bool :=
  s.launches.any fun l => (s.unplaced l).any fun x =>
    x.1 != .nowhere && x.1.covers s.n core && x.2.waitsBefore u && s.couldFit core x.2

/-- Start the first unit of its launch that waits for a core, in the order of R131; one whose segment has moved waits for that core
instead (R122). -/
def State.seatWaiting (s : State) (l : Launch) (u : WorkUnit) (core : Nat) : State :=
  let home := s.homeNow l u core
  if home ≠ core then
    (s.modifyCore core fun c => { c with waiting := c.waiting.filter (· != u.uid) }).joinWaiting u home
  else if s.steerBlocked l u core || s.behindAssigned core u || s.behindUnplaced core u then s
  else match s.bankFor core u with
    | some b => s.seat u.uid core b
    | none => s

/-- Whether a launch's first waiting unit can be moved or started on a core, so that its turn there is spent on it. -/
def State.placeOn (s : State) (l : Launch) (core : Nat) : State :=
  match s.firstWaiting core l.die l.slot with
  | some u =>
    let t := if l.maySeat then s.seatWaiting l u core else s
    if (t.unit? u.uid).any fun x => x.residence == .resident || x.core != core then t
    else if s.launchTurn l.die l.slot then s.offer l core else s
  | none => if s.launchTurn l.die l.slot then s.offer l core else s

/-- UNIT_PLACE: a grid or an event domain places the unit that waits first for a core, or offers its next unit to it; of a frontier or a
pool only units that wait are placed so (R115-R124). -/
def execUnitPlace (die slot core : Nat) (s : State) : Host.Outcome State Fault Refusal :=
  match s.launch? die slot with
  | none => .next s
  | some l =>
    if core ≥ s.n then .next s
    else if l.kind = 0 ∨ l.kind = 2 then .next (s.placeOn l core)
    else match s.firstWaiting core die slot with
      | some u => .next (if l.maySeat then s.seatWaiting l u core else s)
      | none => .next s

/-- FRONTIER_DISPATCH: the walker offers the least eligible point, once the suspended workgroups are restored (R126, R440). -/
def execFrontierDispatch (die slot core : Nat) (s : State) : Host.Outcome State Fault Refusal :=
  match s.launch? die slot with
  | none => .next s
  | some l => if l.kind == 1 && decide (core < s.n) && s.launchTurn die slot then .next (s.offer l core) else .next s

/-- TASK_GATHER: the dispatcher forms a gang of lane tasks and places it; in deterministic mode gang g of the round goes to core
g mod CORES (R129, R130). -/
def execTaskGather (die slot core : Nat) (s : State) : Host.Outcome State Fault Refusal :=
  match s.launch? die slot with
  | none => .next s
  | some l => if l.kind == 3 && decide (core < s.n) && s.launchTurn die slot then .next (s.offer l core) else .next s

/-- The entry whose segment, attached on another core, keeps a unit waiting: the next one of a resident unit (R88), the steering one
of a unit not placed (R122). -/
def State.waitedSegment (s : State) (l : Launch) (u : WorkUnit) : Option DWord :=
  match u.residence, u.attaches with
  | .resident, a :: _ =>
    if a.mode = .fault then none
    else (s.segment? u.ctx a.name).bind fun x =>
      if x.core.isSome && x.core != some u.core && x.att > 0 && !x.reloading then some a.name else none
  | .waiting, _ => if s.steerBlocked l u u.core then (l.steer u).map (·.1) else none
  | _, _ => none

/-- ATTACH_WAIT_TIMEOUT: a unit that has waited 2^24 cycles for a segment attached on another core goes on without it, and faults
SEG_ATTACH_MISS at its first instruction (R88, R122). -/
def execAttachWaitTimeout (uid : Nat) (s : State) : Host.Outcome State Fault Refusal :=
  match s.unit? uid with
  | none => .next s
  | some u =>
    match s.launch? u.die u.lslot with
    | none => .next s
    | some l =>
      match s.waitedSegment l u with
      | some name =>
        if u.attachSince.any fun t => decide (t + 2 ^ 24 ≤ s.clock) then .next (s.attachFault uid .segAttachMiss name 0) else .next s
      | none => .next s

/-! ### Rounds (R130) -/

/-- The lanes of a round's gangs as intervals, by position in the round (R402). -/
def State.taskIntervals (s : State) (l : Launch) (round : Nat) : List Interval :=
  let us := s.setUnits l round
  let all := us.flatMap fun u => (List.range u.nlanes).map fun i => ((u.lane (i / 4) (i % 4)).taskPos, (⟨u.uid, i⟩ : Interval))
  (sortBy (fun a b => decide (a.1 < b.1)) all).map (·.2)

/-- The order in which a round's spawned tasks enter: position of the spawner, then its ordinal (R130). -/
def spawnedBefore (a b : Nat × Nat × TaskRec) : Bool := decide (a.1 < b.1) || (a.1 == b.1 && decide (a.2.1 < b.2.1))

/-- The next round's tasks. -/
def Pool.nextRound (p : Pool) : Pool :=
  let ts := (sortBy spawnedBefore p.spawned).map (·.2.2)
  { p with
    tasks := ts.mapIdx fun i t => { t with number := p.nextNumber + i, pos := i }
    nextNumber := p.nextNumber + ts.length, spawned := [], round := p.round + 1, roundGangs := 0 }

/-- TASK_ROUND_END: every gang of a round has exited: its windows close, its intervals merge, and the tasks it spawned form the next
round (R130, R281, R402). -/
def execTaskRoundEnd (die slot : Nat) (s : State) : Host.Outcome State Fault Refusal :=
  match s.launch? die slot with
  | none => .next s
  | some l =>
    match l.pool with
    | none => .next s
    | some p =>
      if !l.det || l.abort.isSome || s.setOpen l p.round || !p.tasks.isEmpty || !(s.liveUnits l).isEmpty || (p.roundGangs == 0 && p.spawned.isEmpty) then .next s
      else
        let s := s.closeSet die slot p.round
        let r := s.mergeIntervals die slot (s.taskIntervals l p.round)
        let s := r.1.modifyLaunch die slot fun l => { l with pool := l.pool.map Pool.nextRound }
        .next (if r.2 = [] then s else s.conflictAbort die slot)

end Sys2Proof.Machine
end

