-- ==== Sys2Proof/Machine/Ports.lean ====
section
/-! DEFINITION. The wake region as others reach it (R93-R95), and the Ultra Ethernet ports: RMA writes and reads in registered
windows (R109-R112). -/

namespace Sys2Proof.Machine

/-- Answer a message. -/
def State.respond (s : State) (r : Response) : State := { s with responses := s.responses ++ [r] }

/-- The address of a wake cell of this chip (R93). -/
def State.cellAt (s : State) (die queue offset : Nat) : Nat :=
  s.chip * 2 ^ 48 + 0xFE0000000000 + die % 4 * 2 ^ 24 + queue % 4096 * 2 ^ 6 + offset

/-- TAIL_STORE: the tail takes the maximum, the Tack cores are signalled, and a tail too far ahead stops the queue (R94). -/
def execTailStore (die queue : Nat) (value : DWord) (s : State) : Host.Outcome State Fault Refusal :=
  .next (s.wakeStore (s.cellAt die queue 0) value)

/-- TAIL_LOAD: answers the tail (R94). -/
def execTailLoad (die queue : Nat) (s : State) : Host.Outcome State Fault Refusal :=
  .next (s.respond (.data (natLe 8 (s.wakeLoad (s.cellAt die queue 0) 0).toNat)))

/-- READ_INDEX_LOAD: answers the read index (R94). -/
def execReadIndexLoad (die queue : Nat) (s : State) : Host.Outcome State Fault Refusal :=
  .next (s.respond (.data (natLe 8 (s.wakeLoad (s.cellAt die queue 8) 0).toNat)))

/-- WAKE_OTHER_ACCESS (R94): an atomic or an access that is not an aligned 8-byte one is discarded over a port with an access
error; from a core it is the instruction's own trap, from an engine the command's own stop, and changes nothing here. -/
def execWakeOtherAccess (a : WakeAccess) (s : State) : Host.Outcome State Fault Refusal :=
  let pa := s.fab a.addr.toNat
  match a.kind with
  | .load8 => .next (s.respond (.data (natLe 8 (s.wakeLoad pa 0).toNat)))
  | .store8 v => .next (s.wakeStore pa v)
  | .engine => .next s
  | .atomic => .next (if a.port.isSome then s.respond .accessError else s)
  | .other => .next (if a.port.isSome then s.respond .accessError else s)

/-! ### RMA (R110, R111) -/

/-- Stretches of at most 64 KiB of n bytes at va. -/
def stretches : Nat → Nat → Nat → List (Nat × Nat)
  | 0, _, _ => []
  | fuel + 1, va, n =>
    if n = 0 then []
    else
      let k := min n (65536 - va % 65536)
      (va, k) :: stretches fuel ((va + k) % 2 ^ 64) (n - k)

/-- Translate every byte of an RMA before any beat is performed (R110): its pieces, none where any part is refused. -/
def State.rmaPieces (s : State) (ctx : Nat) (acc : Access) (va n : Nat) : Option (List Piece) :=
  (stretches (n / 65536 + 2) va n).mapM fun x =>
    match s.piece ctx acc x with
    | .ok p => some p
    | .error _ => none

/-- The window a message names, where its key and range are right (R110). -/
def State.window? (s : State) (port num : Nat) (key : Word) (offset n : Nat) : Option Window :=
  ((s.die port).windows.find? (·.num == num)).filter fun w =>
    w.key == key && decide (1 ≤ n ∧ n ≤ 2 ^ 24 ∧ offset + n ≤ w.len)

/-- The message's virtual address in its window. -/
def Window.at (w : Window) (offset : Nat) : Nat := (w.va.toNat + offset) % 2 ^ 64

/-- Whether pieces touch the wake region, and whether they are one aligned 8-byte access (R94, R111). -/
def touchesWake (ps : List Piece) : Bool := ps.any fun p => inWake p.leaf.pa
def isAligned8 (ps : List Piece) : Bool :=
  match ps with
  | [p] => p.len == 8 && p.leaf.pa % 8 == 0
  | _ => false

/-- The write of a message whose pieces are translated. -/
def State.rmaStore (s : State) (ctx : Nat) (ps : List Piece) (bs : List Byte) : State :=
  if touchesWake ps then
    if isAligned8 ps then (s.wakeStore ((ps.headD default).leaf.pa) (BitVec.ofNat 64 (leNat bs))).respond .ok
    else s.respond .accessError
  else (s.storeAll ctx (cutPieces ps bs)).respond .ok

/-- RMA_WRITE: performed whole, or refused with an access error and no effect (R110, R111). -/
def execRmaWrite (m : RmaWrite) (s : State) : Host.Outcome State Fault Refusal :=
  if !s.portsUp then .next s
  else match s.window? m.port m.window m.key m.offset m.data.length with
    | none => .next (s.respond .accessError)
    | some w =>
      match s.rmaPieces w.ctx .write (w.at m.offset) m.data.length with
      | none => .next (s.respond .accessError)
      | some ps => .next (s.rmaStore w.ctx ps m.data)

/-- The answer to a read whose pieces are translated. -/
def State.rmaLoad (s : State) (ctx : Nat) (ps : List Piece) : State :=
  if touchesWake ps then
    if isAligned8 ps then s.respond (.data (natLe 8 (s.wakeLoad ((ps.headD default).leaf.pa) (Config.freeValue s.freeIdx)).toNat))
    else s.respond .accessError
  else if ps.any fun p => s.uncorrectableAt p.leaf.pa p.len then s.respond .accessError
  else (s.countElided ctx ps).respond (.data (s.readPieces ps))

/-- RMA_READ: answered with its bytes, or refused with an access error (R110). A free value is drawn for another chip's wake cell
(entry 7). -/
def execRmaRead (m : RmaRead) (s : State) : Host.Outcome State Fault Refusal :=
  if !s.portsUp then .next s
  else match s.window? m.port m.window m.key m.offset m.len with
    | none => .next (s.respond .accessError)
    | some w =>
      match s.rmaPieces w.ctx .read (w.at m.offset) m.len with
      | none => .next (s.respond .accessError)
      | some ps =>
        let s' := s.rmaLoad w.ctx ps
        .next { s' with freeIdx := s'.freeIdx + 1 }

/-- UNSUPPORTED_REQUEST: the unsupported-operation response and no effect (R109). -/
def execUnsupportedRequest (port : Nat) (s : State) : Host.Outcome State Fault Refusal :=
  if s.portsUp && decide (port < 4) then .next (s.respond .unsupported) else .next s

end Sys2Proof.Machine
end

