-- ==== Sys2Proof/Machine/Power.lean ====
section
/-! DEFINITION. Power and thermal limits and the main clock (R461). The power, averaged over 1 ms, and the dies' temperatures are what the
package's sensors read: inputs that stand in the state. -/

namespace Sys2Proof.Machine

/-- One of the limits is exceeded: package power above 2,200 W or a die above 95 °C. -/
def State.overLimit (s : State) : Bool := decide (2200 < s.power) || s.temps.any fun t => decide (95 < t)

/-- POWER_LIMIT_THROTTLE: the main clock goes down by 25 MHz, to no less than 875 MHz. -/
def execPowerLimitThrottle (s : State) : Host.Outcome State Fault Refusal :=
  if s.overLimit then .next { s with clockMHz := max 875 (s.clockMHz - 25), limitClearSince := s.clock } else .next s

/-- CLOCK_RAISE: both conditions have been clear for 1 ms: the clock goes up by a step (entry 27), to no more than 1.75 GHz. -/
def execClockRaise (s : State) : Host.Outcome State Fault Refusal :=
  if s.overLimit ∨ s.clock < s.limitClearSince + 1000 * s.clockMHz then .next s
  else .next { s with clockMHz := min 1750 (s.clockMHz + 25) }

/-- THERMAL_STOP: at 105 °C issue stops on every core of the package. -/
def execThermalStop (s : State) : Host.Outcome State Fault Refusal :=
  .next { s with thermalStopped := s.thermalStopped || s.temps.any fun t => decide (105 ≤ t) }

/-- THERMAL_RESUME: issue goes on once every die reads below 100 °C. -/
def execThermalResume (s : State) : Host.Outcome State Fault Refusal :=
  .next { s with thermalStopped := s.thermalStopped && !(s.temps.all fun t => decide (t < 100)) }

end Sys2Proof.Machine
end

