-- ==== Sys2Proof/Machine/Image.lean ====
section
/-! DEFINITION. The unit image (R428-R430): the bytes a spill writes, and room for them in the context save area (R427). -/

namespace Sys2Proof.Machine

/-- Bytes cut or filled with zeros to n. -/
def fitBytes (n : Nat) (bs : List Byte) : List Byte := (bs ++ List.replicate n 0).take n

/-- Bytes filled with zeros to a 256-byte boundary (R429). -/
def pad256 (bs : List Byte) : List Byte := bs ++ List.replicate ((256 - bs.length % 256) % 256) 0

/-- A Bool as a bit of a number. -/
def bitAt (b : Bool) (n : Nat) : Nat := if b then 2 ^ n else 0

/-! ### Slice records (R430) -/

def StackKind.code : StackKind → Nat
  | .join => 0
  | .ret => 1
  | .resume => 2

/-- A stack entry: PC with its kind, then the mask. -/
def StackEntry.bytes (e : StackEntry) : List Byte := fitBytes 16 (natLe 8 (e.addr.toNat + e.kind.code) ++ natLe 1 e.mask.toNat)

/-- A lane's operand file: data, tag, written flag of each register. -/
def operandBytes (q : List (Nat × Reg)) : List Byte :=
  (List.range 16).flatMap fun n =>
    let r := sparseGet Reg.zero q n
    natLe 4 r.val.toNat ++ [r.tag, if sparseHas q n then 1 else 0]

/-- A flag tracker: PC, then DST. -/
def trackerBytes (t : Option Tracker) : List Byte :=
  match t with
  | some t => fitBytes 16 (natLe 8 t.pc.toNat ++ natLe 2 t.dst.toNat)
  | none => fitBytes 16 []

/-- Whether a slice waits at a barrier. -/
def Wait.atBarrier : Wait → Bool
  | .barrier _ _ _ => true
  | .atBar _ => true
  | _ => false

/-- A slice record; its stack stands with the oldest entry first. -/
def WorkUnit.sliceBytes (u : WorkUnit) (sl : Slice) : List Byte :=
  fitBytes 2048 <|
    natLe 8 sl.pc.toNat ++ natLe 1 (sl.active.toNat + 16 * sl.exited.toNat) ++ natLe 1 sl.stack.length ++ natLe 1 sl.ig ++
    natLe 1 (u.slots.getD sl.home 0) ++ (sl.sb.take 6).flatMap (natLe 1) ++
    natLe 1 (bitAt sl.inTrap 0 + bitAt sl.tbkpt 1 + 4 * sl.tdepth) ++
    natLe 1 (sl.tmask.toNat + bitAt sl.lastPhase 4 + bitAt sl.unwaited 5 + bitAt sl.wait.atBarrier 6) ++
    natLe 4 sl.fltcause.toNat ++ natLe 4 sl.fltlanes.toNat ++ natLe 4 sl.fltdst.toNat ++
    natLe 8 sl.fltpc.toNat ++ natLe 8 sl.tpc.toNat ++ natLe 8 sl.mergeAddr.toNat ++ natLe 1 sl.ringHeld.toNat ++
    natLe 1 (sl.sb.getD 6 0) ++ natLe 6 0 ++
    fitBytes 512 (sl.stack.reverse.flatMap StackEntry.bytes) ++
    (List.range 64).flatMap (fun n => natLe 4 (sl.getS n).toNat) ++
    fitBytes 96 (sl.trackers.flatMap trackerBytes) ++
    fitBytes 384 (sl.lanes.flatMap fun ln => operandBytes ln.q) ++
    fitBytes 384 (sl.tq.flatMap operandBytes) ++
    sl.lanes.flatMap fun ln => fitBytes 16 (natLe 8 ln.fltAddr.toNat ++ natLe 4 ln.fltInfo.toNat)

/-! ### Sections (R429) -/

/-- Every lane of the unit, home gang major. -/
def WorkUnit.allLanes (u : WorkUnit) : List Lane := u.slices.flatMap (·.lanes)

def WorkUnit.vregBytes (u : WorkUnit) : List Byte :=
  u.allLanes.flatMap fun ln => (List.range u.regs).flatMap fun n => natLe 4 (ln.getV n).val.toNat

def WorkUnit.vtagBytes (u : WorkUnit) : List Byte := u.allLanes.flatMap fun ln => (List.range u.regs).map fun n => (ln.getV n).tag

def Lane.record (ln : Lane) : List Byte :=
  fitBytes 32 (natLe 1 ln.p.toNat ++ [ln.flags] ++ natLe 2 ln.schedOrd ++ natLe 2 ln.taskOrd ++ natLe 2 0 ++ natLe 8 ln.rngctr.toNat)

/-- Free bytes, eight to a draw from k on (entry 1). -/
def freeBytes (k n : Nat) : List Byte := (List.range n).flatMap fun i => natLe 8 (Config.freeValue (k + i)).toNat

/-- The private allocation; in deterministic mode the store buffer after it, whose bytes the spec does not lay out (entry 1). -/
def WorkUnit.scratchBytes (u : WorkUnit) (k : Nat) : List Byte :=
  sparseBytes u.scratch 0 u.scratchLen ++ (if u.det then freeBytes k 8192 else [])

/-- The last batch closed less those still open. -/
def WorkUnit.batchDone (u : WorkUnit) : Word := u.batchClosed - BitVec.ofNat 32 u.openBatches

/-- Tiles, configuration block, tile tags and batch numbers; the last 64 bytes stand for a unit without tiles too (R429). -/
def WorkUnit.tileBytes (u : WorkUnit) : List Byte :=
  (List.range (4096 * u.ntiles)).flatMap (fun i => natLe 4 (sparseGet 0 u.tiles i).toNat) ++
  fitBytes 64 (natLe 8 (u.cfgDone.getD 0).toNat ++ sparseBytes u.tileTags 0 16 ++ natLe 4 u.batchClosed.toNat ++
      natLe 4 u.batchDone.toNat)

/-- SRCA, SRCB, the MLOOP run and a TLD's reads of a queued operation (R429). -/
def MatKind.sources : MatKind → DWord × Word × List Word × List TileRead
  | .tcfg b => (b, 0, [], [])
  | .tzero m => (m.setWidth 64, 0, [], [])
  | .mma _ _ steps ao asc bo m1 m2 m3 => (asc ++ ao, bo, [BitVec.ofNat 32 (steps - 1), m1, m2, m3], [])
  | .tld _ reads => ((reads.headD default).index.setWidth 64, 0, [], reads)
  | .tst _ o st _ => (o.setWidth 64, st, [], [])
  | .fence => (0, 0, [], [])
  | .wait _ => (0, 0, [], [])

/-- Words as bytes. -/
def words32Bytes (ws : List Word) : List Byte := ws.flatMap fun w => natLe 4 w.toNat

def WorkUnit.matOpBytes (u : WorkUnit) (op : MatOp) : List Byte :=
  let x := op.kind.sources
  let lanes := x.2.2.2.map fun r => (u.gangLane r.slice r.lane, r.index)
  let index := fun n => ((lanes.lookup n).map (·.toNat)).getD 0
  fitBytes 128 <|
    natLe 8 op.word.toNat ++ natLe 8 x.1.toNat ++ natLe 4 x.2.1.toNat ++ natLe 4 0 ++ natLe 4 op.done ++
    natLe 4 (maskOf (lanes.map (·.1))) ++ fitBytes 16 (words32Bytes x.2.2.1) ++ natLe 8 0 ++ natLe 8 0 ++
    (List.range 32).flatMap fun n => natLe 2 (index n)

def WorkUnit.matqBytes (u : WorkUnit) : List Byte :=
  fitBytes 2048 (u.matq.flatMap u.matOpBytes)

def TagState.bytes (t : TagState) : List Byte :=
  fitBytes 16 (natLe 4 t.e ++ natLe 4 t.c ++ natLe 4 t.infl ++ natLe 1 ((t.fail.map Cause.code).getD 0))

/-- The source registers of a command: a descriptor run, or its operand pairs and words in order (R429). -/
def Command.sources (c : Command) : List Word :=
  match c.kind with
  | .cpy d => d
  | .cpyg d => d
  | .cpys d => d
  | .wbld a _ k => [a.extractLsb' 0 32, a.extractLsb' 32 32, k]
  | .coll d _ => d
  | .annq p =>
    let n := c.counter.getD 0
    [p.extractLsb' 0 32, p.extractLsb' 32 32, n.extractLsb' 0 32, n.extractLsb' 32 32]
  | .fence _ => []

def Command.bytes (c : Command) : List Byte :=
  natLe 8 c.word.toNat ++ fitBytes 64 (words32Bytes c.sources) ++ natLe 8 (c.counter.getD 0).toNat

/-- The four queues: entry count, latch cause, entries. -/
def WorkUnit.eqBytes (u : WorkUnit) (parked : List (Nat × Command)) : List Byte :=
  (List.range 4).flatMap fun q =>
    let cs := (parked.filter (·.1 == q)).map (·.2)
    fitBytes 16 (natLe 8 cs.length ++ natLe 1 ((((u.latches.getD q none).map Cause.code)).getD 0)) ++
    fitBytes 5120 (cs.flatMap Command.bytes)

def BarrierSlot.bytes (b : BarrierSlot) : List Byte :=
  fitBytes 16 (natLe 4 b.owner ++ natLe 4 b.members.toNat ++ natLe 4 b.arrived.toNat ++ natLe 1 (bitAt b.phase 0) ++ natLe 1 (bitAt b.live 0))

/-- Pending reads of the unit (R424). -/
def WorkUnit.pendingReads (u : WorkUnit) : Nat :=
  (u.slices.flatMap fun sl => sl.pend.map fun r =>
    match r.kind with
    | .load rs => rs.length
    | .ring rs _ => rs.length
    | _ => 0).sum

/-- The sections in their order; free bytes are drawn from k on for what has no layout. -/
def WorkUnit.sections (u : WorkUnit) (bars : List (Nat × BarrierSlot)) (parked : List (Nat × Command)) (k : Nat) :
    List (List Byte) :=
  [u.slices.flatMap u.sliceBytes, u.vregBytes, u.vtagBytes, u.allLanes.flatMap Lane.record, u.scratchBytes (k + 4 * u.pendingReads),
   u.tileBytes, sparseBytes u.weights 0 (16384 * u.ntiles), u.matqBytes, u.tags.flatMap TagState.bytes, u.eqBytes parked,
   bars.flatMap (·.2.bytes), freeBytes k (4 * u.pendingReads), u.segs.flatMap fun n => natLe 8 n.toNat]

/-- Free values an image draws. -/
def WorkUnit.imageDraws (u : WorkUnit) : Nat := 4 * u.pendingReads + (if u.det then 8192 else 0)

/-- Section words of the header, from an offset on: offset and length, both 0 when absent. -/
def sectionWords : Nat → List (List Byte) → List DWord
  | _, [] => []
  | off, x :: t =>
    (if x.isEmpty then 0 else BitVec.ofNat 64 (off + x.length * 2 ^ 32)) :: sectionWords (off + (pad256 x).length) t

/-- A unit's image (R428). -/
def WorkUnit.imageBytes (u : WorkUnit) (bars : List (Nat × BarrierSlot)) (parked : List (Nat × Command)) (k : Nat) : List Byte :=
  let secs := u.sections bars parked k
  let body := secs.flatMap pad256
  let w0 := 0x1A01 + u.ctx * 2 ^ 16 + u.lslot * 2 ^ 22 + u.core * 2 ^ 27 + u.bank * 2 ^ 36 + (u.gangCount - 1) * 2 ^ 37
  fitBytes 256 (wordsBytes ([BitVec.ofNat 64 w0, BitVec.ofNat 64 u.unitId, u.entry, BitVec.ofNat 64 (256 + body.length)] ++
    sectionWords 256 secs)) ++ body

/-! ### Room in the save area (R427) -/

/-- Write bytes at a virtual address a stretch of 64 KiB at a time. -/
def State.writeLong (s : State) (ctx : Nat) (va : Nat) (bs : List Byte) : State :=
  (List.range (granules bs.length)).foldl (init := s) fun s i =>
    s.tryWrite ctx (BitVec.ofNat 64 (va + 65536 * i)) ((bs.drop (65536 * i)).take 65536)

/-- The address of an image in its context's save area. -/
def State.imageAddr (s : State) (ctx off : Nat) : Nat :=
  (match s.context ctx with | some c => c.saveBase.toNat | none => 0) + 65536 * off

/-! ### Reading an image back (R425) -/

/-- Bytes cut into n pieces of k. -/
def recordsOf (k : Nat) : Nat → List Byte → List (List Byte)
  | 0, _ => []
  | n + 1, bs => bs.take k :: recordsOf k n (bs.drop k)

/-- The number at an offset of a record. -/
def numAt (bs : List Byte) (off len : Nat) : Nat := leNat ((bs.drop off).take len)

/-- Numbers by index as sorted entries, those that are zero left out. -/
def entriesOf {α : Type} (f : Nat → Option α) (n : Nat) : List (Nat × α) :=
  (List.range n).filterMap fun i => (f i).map fun x => (i, x)

/-- A lane's operand file from its record: the registers whose written flag is set. -/
def operandsOf (bs : List Byte) : List (Nat × Reg) :=
  let rs := recordsOf 6 16 bs
  entriesOf (fun n =>
    let r := rs.getD n []
    if numAt r 5 1 = 0 then none else some ⟨BitVec.ofNat 32 (numAt r 0 4), BitVec.ofNat 8 (numAt r 4 1)⟩) 16

/-- A stack entry from its record. -/
def stackEntryOf (bs : List Byte) : StackEntry :=
  let a := numAt bs 0 8
  { kind := match a % 4 with | 0 => .join | 1 => .ret | _ => .resume
    addr := BitVec.ofNat 64 (a - a % 4), mask := BitVec.ofNat 4 (numAt bs 8 1) }

/-- A flag tracker from its record. -/
def trackerOf (bs : List Byte) : Option Tracker :=
  if bs.all (· == 0) then none else some ⟨BitVec.ofNat 64 (numAt bs 0 8), BitVec.ofNat 9 (numAt bs 8 2)⟩

/-- A slice as its record has it (R430). What no field holds (the clause it is in, its place in the unit, what is outstanding, how it waits)
stands in the device's own record. -/
def Slice.ofBytes (sl : Slice) (bs : List Byte) : Slice :=
  let n := numAt bs
  let ss := recordsOf 4 64 (bs.drop 576)
  let qs := recordsOf 96 4 (bs.drop 928)
  let tqs := recordsOf 96 4 (bs.drop 1312)
  let fs := recordsOf 16 4 (bs.drop 1696)
  { sl with
    pc := BitVec.ofNat 64 (n 0 8), active := BitVec.ofNat 4 (n 8 1), exited := BitVec.ofNat 4 (n 8 1 / 16),
    stack := ((recordsOf 16 32 (bs.drop 64)).take (n 9 1)).reverse.map stackEntryOf,
    ig := if n 10 1 = sl.ig % 256 then sl.ig else n 10 1,
    sb := (List.range 6).map (fun i => n (12 + i) 1) ++ [n 57 1],
    inTrap := (n 18 1).testBit 0, tbkpt := (n 18 1).testBit 1, tdepth := n 18 1 / 4,
    tmask := BitVec.ofNat 4 (n 19 1), lastPhase := (n 19 1).testBit 4, unwaited := (n 19 1).testBit 5,
    fltcause := BitVec.ofNat 7 (n 20 4), fltlanes := BitVec.ofNat 32 (n 24 4), fltdst := BitVec.ofNat 9 (n 28 4),
    fltpc := BitVec.ofNat 64 (n 32 8), tpc := BitVec.ofNat 64 (n 40 8), mergeAddr := BitVec.ofNat 64 (n 48 8),
    ringHeld := BitVec.ofNat 4 (n 56 1),
    s := entriesOf (fun i => let x := leNat (ss.getD i []); if x = 0 then none else some (BitVec.ofNat 32 x)) 64,
    trackers := (recordsOf 16 6 (bs.drop 832)).map trackerOf,
    tq := if sl.tq.isEmpty && tqs.all (·.all (· == 0)) then [] else tqs.map operandsOf,
    lanes := sl.lanes.mapIdx fun j ln =>
      let f := fs.getD j []
      { ln with q := operandsOf (qs.getD j []), fltAddr := BitVec.ofNat 64 (numAt f 0 8), fltInfo := BitVec.ofNat 32 (numAt f 8 4) } }

/-- A lane's registers from its values and tags. -/
def Lane.ofRegs (ln : Lane) (n : Nat) (vals tags : List Byte) : Lane :=
  let vs := recordsOf 4 n vals
  { ln with v := entriesOf (fun i =>
      let x := leNat (vs.getD i [])
      let tag := tags.getD i 0
      if x = 0 ∧ tag = 0 then none else some ⟨BitVec.ofNat 32 x, tag⟩) n }

/-- A lane's predicates, flags and ordinals from its record (R429). -/
def Lane.ofRecord (ln : Lane) (bs : List Byte) : Lane :=
  { ln with p := BitVec.ofNat 7 (numAt bs 0 1), flags := BitVec.ofNat 8 (numAt bs 1 1), schedOrd := numAt bs 2 2, taskOrd := numAt bs 4 2,
            rngctr := BitVec.ofNat 64 (numAt bs 8 8) }

/-- Change every lane of a unit by a record of its own, home gang major. -/
def WorkUnit.mapLanes {α : Type} (u : WorkUnit) (f : Lane → α → Lane) (rs : List α) : WorkUnit :=
  { u with slices := u.slices.mapIdx fun p sl =>
      { sl with lanes := sl.lanes.mapIdx fun j ln => match rs[4 * p + j]? with | some r => f ln r | none => ln } }

/-- A tag from its record; a cause no code names leaves the device's (R429). -/
def TagState.ofBytes (t : TagState) (bs : List Byte) : TagState :=
  let same := numAt bs 12 1 == (t.fail.map Cause.code).getD 0
  { t with e := numAt bs 0 4, c := numAt bs 4 4, infl := numAt bs 8 4, fail := if same then t.fail else none }

/-- A barrier slot from its record. -/
def BarrierSlot.ofBytes (bs : List Byte) : BarrierSlot :=
  { owner := numAt bs 0 4, members := BitVec.ofNat 32 (numAt bs 4 4), arrived := BitVec.ofNat 32 (numAt bs 8 4),
    phase := (numAt bs 12 1).testBit 0, live := (numAt bs 13 1).testBit 0 }

/-- A byte table from bytes, the zeros left out. -/
def byteTable (bs : List Byte) : List (Nat × Byte) := bs.zipIdx.filterMap fun x => if x.1 = 0 then none else some (x.2, x.1)

/-- A unit as the sections of its image have it. The queues, the pending reads and the attached names, and a store buffer, which no rule lays
out, are the device's own record of them (DESIGN CHOICE, entry 25). -/
def WorkUnit.ofSections (u : WorkUnit) (secs : List (List Byte)) : WorkUnit :=
  let sec := fun i => secs.getD i []
  let lanes := 4 * u.slices.length
  let slices := recordsOf 2048 u.slices.length (sec 0)
  let vals := recordsOf (4 * u.regs) lanes (sec 1)
  let tags := recordsOf u.regs lanes (sec 2)
  let u := { u with slices := u.slices.mapIdx fun p sl =>
    let bs := slices.getD p []
    if bs = u.sliceBytes sl then sl else sl.ofBytes bs }
  let u : WorkUnit := if sec 1 = u.vregBytes ∧ sec 2 = u.vtagBytes then u else u.mapLanes (fun ln r => ln.ofRegs u.regs r.1 r.2) (vals.zip tags)
  let u : WorkUnit := u.mapLanes Lane.ofRecord (recordsOf 32 lanes (sec 3))
  let own := (sec 4).take u.scratchLen
  let u : WorkUnit := if own = sparseBytes u.scratch 0 u.scratchLen then u else { u with scratch := byteTable own }
  let els := 4096 * u.ntiles
  let tail := (sec 5).drop (4 * els)
  let u : WorkUnit := if sec 5 = u.tileBytes then u
    else
      { u with tiles := entriesOf (fun i => let x := numAt (sec 5) (4 * i) 4; if x = 0 then none else some (BitVec.ofNat 32 x)) els
               cfgDone := if numAt tail 0 8 = 0 then none else some (BitVec.ofNat 64 (numAt tail 0 8))
               tileTags := byteTable ((tail.drop 8).take 16), batchClosed := BitVec.ofNat 32 (numAt tail 24 4) }
  let ts := recordsOf 16 u.tags.length (sec 8)
  let bs := recordsOf 16 u.savedBars.length (sec 10)
  let u : WorkUnit := if sec 6 = sparseBytes u.weights 0 (16384 * u.ntiles) then u else { u with weights := byteTable (sec 6) }
  { u with tags := u.tags.mapIdx fun i t => t.ofBytes (ts.getD i []),
           savedBars := u.savedBars.mapIdx fun i x => (x.1, BarrierSlot.ofBytes (bs.getD i [])) }

/-- Read bytes at a virtual address a stretch of 64 KiB at a time; none where one cannot be read. -/
def State.readLong (s : State) (ctx va len : Nat) : Option (List Byte) :=
  (List.range (granules len)).foldl (init := some []) fun acc i =>
    acc.bind fun bs => match s.deviceRead ctx (va + 65536 * i) (min 65536 (len - 65536 * i)) with
      | .ok b => some (bs ++ b)
      | .error _ => none

/-- The sections of an image by its header (R428). -/
def imageSections (bs : List Byte) : List (List Byte) :=
  (List.range 13).map fun i => (bs.drop (numAt bs (32 + 8 * i) 4)).take (numAt bs (36 + 8 * i) 4)

/-- A spilled unit as its image has it; one whose image cannot be read, or is none of this unit's, stands as the device's own record has it
(R425, entry 25). -/
def State.readBack (s : State) (u : WorkUnit) : WorkUnit :=
  match u.image with
  | none => u
  | some (off, len) =>
    match s.readLong u.ctx (s.imageAddr u.ctx off) (65536 * len) with
    | some bs => if numAt bs 0 2 = 0x1A01 ∧ numAt bs 8 6 = u.unitId then u.ofSections (imageSections bs) else u
    | none => u

end Sys2Proof.Machine
end

