-- ==== Sys2Proof/Machine/Preempt.lean ====
section
/-! DEFINITION. Pre-emption (R131, R420-R427, R432-R435, R440): the end of a quantum, spilling and restoring units and cohort
groups. -/

namespace Sys2Proof.Machine

/-! ### Groups (R425, R426, R440) -/

/-- The spilled units of a group, in the order they were spilled. -/
def State.spilledGroup (s : State) (u : WorkUnit) : List WorkUnit :=
  (u.group.filterMap s.unit?).filter fun x => x.residence == .spilled && x.die == u.die && x.lslot == u.lslot

/-- The core that holds the attached segments of a group, if it holds any (R440). -/
def State.heldCore (s : State) (us : List WorkUnit) : Option Nat :=
  us.findSome? fun u => u.segs.findSome? fun n => (s.segment? u.ctx n).bind (·.core)

/-- Where a group of suspended workgroups may go: onto the core of its attached segments, under DET its own, else any (R440). -/
def State.seedHome (s : State) (l : Launch) (us : List WorkUnit) : Home :=
  match s.heldCore us with
  | some c => .on c
  | none => if l.det then .on (((listMin (us.map (·.unitId))).getD 0) % s.n) else .any s.n

/-! ### Who waits for a core (R131) -/

/-- Where a launch's next unit, or the suspended workgroups it has to restore next, might go. -/
def State.wants (s : State) (l : Launch) : Option Home :=
  match (l.frontier.map (·.restoring)).getD [] with
  | id :: _ =>
    if !l.mayStart then none
    else (s.units.find? fun u => u.die == l.die && u.lslot == l.slot && u.unitId == id && u.residence == .spilled).map fun u =>
      s.seedHome l (s.spilledGroup u)
  | [] => (s.unplaced l).map (·.1)

/-- Launches with a unit, placed nowhere, that waits for a core. -/
def State.wanting (s : State) (core : Nat) : List Launch :=
  s.launches.filter fun l => match s.wants l with | some h => h.covers s.n core | none => false

/-- A unit is waiting for the core (R131). -/
def State.coreWanted (s : State) (core : Nat) : Bool := !(s.core core).waiting.isEmpty || !(s.wanting core).isEmpty

/-- Contexts present on a core (R432). -/
def State.presentOn (s : State) (core : Nat) : List Nat :=
  let here := (s.units.filter fun u => u.core == core && (u.residence == .resident || (s.core core).waiting.contains u.uid)).map (·.ctx)
  sortedNats (here ++ (s.wanting core).map (·.ctx))

/-! ### The end of a quantum (R421, R434, R435) -/

/-- The sharing rule: the shadow bank holds a unit of a context whose deficit exceeds that of every context with a ready gang in the
active bank (R435). -/
def State.sharingSwap (s : State) (core : Nat) : Bool :=
  let c := s.core core
  let ready := ((s.unitsIn core c.active).filter fun u => (List.range u.slots.length).any fun h => s.homeReady u h).map (·.ctx)
  (s.unitsIn core (1 - c.active)).any fun u => ready.all fun x => decide (c.deficit x < c.deficit u.ctx)

/-- The deficits at the start of a quantum (R434). -/
def State.newQuantum (s : State) (core : Nat) : State :=
  let ps := s.presentOn core
  let weight := fun n => ((s.context n).map (·.weight)).getD 0
  let total := (ps.map weight).sum
  s.modifyCore core fun c =>
    let kept := { c with quantumStart := s.clock, deficits := c.deficits.filter fun d => ps.contains d.1 }
    ps.foldl (fun c n => c.addDeficit n (Int.ofNat (262144 * weight n / total))) kept

/-- Exchange a core's banks: nothing in either changes (R420). The units that are to be spilled of the outgoing one are noted. -/
def Core.swap (c : Core) (out : List Nat) (now : Nat) : Core := { c with active := 1 - c.active, outgoing := out, swapAt := some now }

/-- The units that a swap sends out to be spilled: those of the active bank where R131 requires the swap, else none (R131, R435). -/
def State.goingOut (s : State) (core : Nat) : List Nat :=
  if s.coreWanted core then (s.unitsIn core (s.core core).active).map (·.uid) else []

/-- Whether a core is to swap its banks at the end of the quantum (R421). -/
def State.swapWanted (s : State) (core : Nat) : Bool :=
  (!(s.unitsIn core 0).isEmpty || !(s.unitsIn core 1).isEmpty) && (s.coreWanted core || s.sharingSwap core)

/-- Whether no word of a core issues because of a swap: one is under way, for 48 cycles, or its quantum is over and one is due (R132, R420,
R421). -/
def State.swapping (s : State) (core : Nat) : Bool :=
  let c := s.core core
  (c.swapAt.any fun t => decide (s.clock ≤ t + 48)) || (decide (c.quantumStart + 65536 ≤ s.clock) && s.swapWanted core)

/-- A core swaps its banks (R420). -/
def State.swapBanks (s : State) (core : Nat) : State :=
  let out := s.goingOut core
  s.modifyCore core fun c => c.swap out s.clock

/-- Where no unit waits for a core, no unit of it waits for room to be spilled (R427). -/
def State.noteSpills (s : State) (wanted : Bool) (core : Nat) : State :=
  if wanted then s
  else { s with units := s.units.map fun u => if u.core = core ∧ u.residence = .resident then { u with spillSince := none } else u }

/-- QUANTUM_END: the core swaps banks where R131 or R435 requires it and a bank holds a unit; a new quantum begins (R421). -/
def execQuantumEnd (core : Nat) (s : State) : Host.Outcome State Fault Refusal :=
  if core ≥ s.n ∨ s.clock < (s.core core).quantumStart + 65536 then .next s
  else .next (((if s.swapWanted core then s.swapBanks core else s).newQuantum core).noteSpills (s.coreWanted core) core)

/-! ### Spilling (R423, R426, R427, R437) -/

/-- Whether live cohort slots link two units of a bank, directly (R426). -/
def State.linked (s : State) (a b : WorkUnit) : Bool :=
  let names := fun (x y : WorkUnit) => x.bslots.any fun n =>
    let sl := (s.bank x.core x.bank).slot n
    sl.live && y.slots.any fun g => sl.members.getLsbD g
  names a b || names b a

/-- Grow a group by the units linked to it. -/
def growGroup (s : State) (us : List WorkUnit) : Nat → List WorkUnit → List WorkUnit
  | 0, g => g
  | n + 1, g => growGroup s us n (us.filter fun u => g.any fun x => x.uid == u.uid || s.linked x u)

/-- A unit's cohort group (R426). -/
def State.cohortGroup (s : State) (u : WorkUnit) : List WorkUnit :=
  let us := s.unitsIn u.core u.bank
  growGroup s us us.length [u]

/-- Whether an outstanding result need not have been written: a load's data is read again, a TLD is in the matrix queue (R423, R424). -/
def LongKind.recorded : LongKind → Bool
  | .load _ => true
  | .ring _ _ => true
  | .tile => true
  | _ => false

/-- Whether a command goes on without its unit (R423). -/
def CommandKind.leaves : CommandKind → Bool
  | .annq _ => true
  | .coll _ _ => true
  | _ => false

/-- R423's conditions. -/
def State.spillReady (s : State) (u : WorkUnit) : Bool :=
  u.slices.all (fun sl => sl.pend.all fun r => r.kind.recorded) && (s.outstandingOf u.uid (List.range u.slices.length)).isEmpty &&
  (s.bank u.core u.bank).queues.all fun q => q.all fun c => c.unit != u.uid || !c.begun || c.kind.leaves

/-- A unit's commands that have not begun, with their queues. -/
def State.unbegun (s : State) (u : WorkUnit) : List (Nat × Command) :=
  ((s.bank u.core u.bank).queues.zipIdx).flatMap fun q => (q.1.filter fun c => c.unit == u.uid && !c.begun).map fun c => (q.2, c)

/-- Write a unit's image and note what it carries; nothing of it is freed yet (R426). -/
def State.writeImage (s : State) (group : List Nat) (u : WorkUnit) (off len : Nat) : State :=
  let bars := u.bslots.map fun n => (n, (s.bank u.core u.bank).slot n)
  let parked := s.unbegun u
  let (k, s) := s.drawFree u.imageDraws
  let s := s.writeLong u.ctx (s.imageAddr u.ctx off) (u.imageBytes bars parked k)
  s.modifyUnit u.uid fun u =>
    { u with image := some (off, granules len), parked := parked, savedBars := bars, group := group, spillSince := none }

/-- Take room for every image of a group and write them. -/
def State.writeImages (s : State) (us : List WorkUnit) : Option State :=
  us.foldl (init := some s) fun acc u =>
    acc.bind fun s =>
      let len := (u.imageBytes (u.bslots.map fun n => (n, (s.bank u.core u.bank).slot n)) (s.unbegun u) 0).length
      (s.takeSave u.ctx len).map fun x => x.2.writeImage (us.map (·.uid)) u x.1 len

/-- Free what a spilled unit held in its bank (R423). -/
def State.freeSpilled (s : State) (u : WorkUnit) : State :=
  let mine := fun (c : Command) => c.unit == u.uid && !c.begun
  let s := s.modifyBank u.core u.bank fun b =>
    { b.free u.bslots with queues := b.queues.map fun q => q.filter (!mine ·) }
  s.modifyUnit u.uid fun u => { u with residence := .spilled }

/-- A spilled unit's suspended record: its point, its image's address and length (R438). -/
def State.suspRecord (s : State) (uid : Nat) : List (Nat × Nat × Nat) :=
  match s.unit? uid with
  | some u => match u.image with
    | some (o, _) => [(u.unitId, s.imageAddr u.ctx o, (u.imageBytes u.savedBars u.parked 0).length)]
    | none => []
  | none => []

/-- After a spill: under a suspension the units are saved, else they wait to be restored, at the end of the core's order (R131). -/
def State.afterSpill (s : State) (u : WorkUnit) (us : List WorkUnit) (suspending : Bool) : State :=
  let s := s.modifyCore u.core fun c => { c with outgoing := c.outgoing.filter fun n => !us.any (·.uid == n) }
  if suspending then
    let recs := us.flatMap fun u => s.suspRecord u.uid
    s.modifyLaunch u.die u.lslot fun l => { l with suspend := l.suspend.map fun x => { x with images := x.images ++ recs } }
  else s.modifyCore u.core fun c => { c with waiting := c.waiting ++ us.map (·.uid) }

/-- Spill a group; one for which there is no room is not spilled (R427). -/
def State.spillGroup (s : State) (u : WorkUnit) (suspending : Bool) : State :=
  let us := s.cohortGroup u
  if !us.all s.spillReady then s
  else match s.writeImages us with
    | some s' => ((us.foldl (fun s x => s.freeSpilled x) s').afterSpill u us suspending).acquireAll
    | none =>
      us.foldl (init := s) fun s x => s.modifyUnit x.uid fun x => { x with spillSince := some (x.spillSince.getD s.clock) }

/-- Whether the spill engine is to write a unit: it stands in the shadow bank, and a swap that R131 requires has sent it out or its launch is
being suspended in SPILL mode (R131, R423, R437). -/
def State.spillDue (s : State) (l : Launch) (u : WorkUnit) : Bool :=
  u.residence == .resident && l.abort.isNone && (s.core u.core).active != u.bank &&
  (l.suspend.any (·.spill) || (s.core u.core).outgoing.contains u.uid)

/-- SPILL: a unit of the shadow bank is written to the save area (R131, R423, R437). -/
def execSpill (uid : Nat) (s : State) : Host.Outcome State Fault Refusal :=
  match s.unit? uid with
  | none => .next s
  | some u =>
    match s.launch? u.die u.lslot with
    | none => .next s
    | some l => .next (if s.spillDue l u then s.spillGroup u (l.suspend.any (·.spill)) else s)

/-- SPILL_TIMEOUT: a unit of the launch has waited 2^24 cycles for a spill that found no room (R427, R445). -/
def execSpillTimeout (die slot : Nat) (s : State) : Host.Outcome State Fault Refusal :=
  let late := (s.launch? die slot).any fun l => s.units.any fun u => u.die == die && u.lslot == slot && u.residence == .resident &&
    (l.suspend.any (·.spill) || s.coreWanted u.core) && u.spillSince.any fun t => decide (t + 2 ^ 24 ≤ s.clock)
  if late then .next (s.abortLaunch die slot ⟨4, 1, s.chip⟩ (0, 0, 0)) else .next s

/-! ### Restoring (R424-R426, R440) -/

/-- Whether a bank has room for units at once, with every barrier slot they hold free (R114, R426). -/
def State.fitsGroup (s : State) (core bank : Nat) (vs : List WorkUnit) : Bool :=
  let us := s.unitsIn core bank
  let sum := fun (f : WorkUnit → Nat) => (us.map f).sum + (vs.map f).sum
  let taken := us.flatMap (·.bslots)
  decide (sum (·.gangCount) ≤ 32 ∧ sum (fun x => x.gangCount * 32 * x.regs) ≤ 131072 ∧
    sum (·.scratchTaken) + segmentBytes (s.areaSegments core) ≤ 0x100000 ∧ sum (·.ntags) + s.tagsLeft core bank ≤ 64 ∧ sum (·.ntiles) ≤ 16) &&
  vs.all fun v => v.bslots.all (!taken.contains ·)

/-- The bank a group is restored into: the active one if it fits. -/
def State.bankForGroup (s : State) (core : Nat) (vs : List WorkUnit) : Option Nat :=
  let a := (s.core core).active
  if s.fitsGroup core a vs then some a else if s.fitsGroup core (1 - a) vs then some (1 - a) else none

/-- Old and new gang slots of a group. -/
def slotMap : List WorkUnit → List Nat → List (Nat × Nat)
  | [], _ => []
  | u :: t, free => u.slots.zip (free.take u.slots.length) ++ slotMap t (free.drop u.slots.length)

/-- A gang slot, and a mask of gang slots, after renumbering (R426). -/
def newSlot (m : List (Nat × Nat)) (g : Nat) : Nat := (m.lookup g).getD g
def newMask (m : List (Nat × Nat)) (w : Word) : Word := slotMask ((maskList 32 w.toNat).map (newSlot m))

def BarrierSlot.renumber (m : List (Nat × Nat)) (b : BarrierSlot) : BarrierSlot :=
  { b with owner := newSlot m b.owner, members := newMask m b.members, arrived := newMask m b.arrived }

/-- What one pending read finds: its value, or its fault (R424). -/
def Gang.rereadOne (g : Gang) (s : State) (p : Nat) (r : PendingRead) : Except (Cause × Nat) Nat :=
  if r.space = .scratch then
    if s.scratchUnreadable g.u r.va.toNat r.bytes then .error (.memUncorrectable, 0)
    else .ok (leNat (s.scratchRead g.u r.va.toNat r.bytes))
  else match s.pieces g.u.ctx .read r.va.toNat r.bytes with
    | .error f => .error (f.cause, f.level)
    | .ok ps =>
      if s.unreadable ps then .error (.memUncorrectable, 0)
      else .ok (g.readLane s (p, r.lane) (Config.freeValue (s.freeIdx + g.u.gangLane p r.lane)) ps)

/-- The writes of a read that found its value; an s destination takes the lowest lane's. -/
def readWrites (rs : List (PendingRead × Nat)) : List RegWrite :=
  let words := fun (r : PendingRead) => max 1 (r.bytes / 4)
  match rs with
  | [] => []
  | (r, v) :: t =>
    if r.scalar then runWrites none (r.dst - 0x110) v (words r)
    else ((r, v) :: t).flatMap fun x => runWrites (some x.1.lane) x.1.dst x.2 (words x.1)

/-- The fault of reads that met one at a restore, as the load's own (R269, R274, R424). -/
def Gang.rereadError (g : Gang) (p : Nat) (x : LongResult) (cause : Cause) (level : Nat) (dst : Nat) (bad : List (Nat × DWord)) : LoadError :=
  { cause := cause, write := false, level := level, lanes := BitVec.ofNat 32 (Machine.maskOf (bad.map fun b => g.u.gangLane p b.1)), pc := x.pc,
    dst := BitVec.ofNat 9 dst, addrs := bad.map fun b => (g.u.gangLane p b.1, b.2) }

/-- Perform a load's reads again: its result, and the fault of the lanes that met one. A load after which its slice has issued other words
keeps what it read at issue, which it could still return; one that stands last takes what memory holds now (R269, R274, R360, R424). -/
def Gang.rereadLoad (g : Gang) (s : State) (p : Nat) (x : LongResult) (rs : List PendingRead) : LongResult × List LoadError :=
  let found := rs.map fun r => (r, g.rereadOne s p r)
  let bad := found.filterMap fun f => match f.2 with | .error e => some (f.1, e) | .ok _ => none
  match bad with
  | [] =>
    let now := readWrites (found.filterMap fun f => match f.2 with | .ok v => some (f.1, v) | .error _ => none)
    ({ x with requests := [], writes := if x.bound then x.writes else now }, [])
  | (r, e) :: _ =>
    ({ x with requests := [], kind := .ready, writes := [] },
     [g.rereadError p x e.1 e.2 r.dst ((bad.filter fun b => b.2.1 == e.1).map fun b => (b.1.lane, b.1.va))])

/-- Make the SEQ acquires of ring reads again: those whose slot cannot be read report it, the others go on waiting (R390, R424). -/
def Gang.rereadRing (g : Gang) (s : State) (p : Nat) (x : LongResult) (rs : List RingRead) (more : Bool) : LongResult × List LoadError :=
  let fault := fun (r : RingRead) => match s.pieces g.u.ctx .read r.slot.toNat 64 with
    | .error f => some (f.cause, f.level, BitVec.ofNat 64 f.va)
    | .ok ps => if s.unreadable ps then some (Cause.memUncorrectable, 0, r.slot) else none
  let bad := rs.filterMap fun r => (fault r).map fun f => (r, f)
  let rest := rs.filter fun r => (fault r).isNone
  let kind : LongKind := if rest.isEmpty && !more && !bad.isEmpty then .ready else .ring rest more
  match bad with
  | [] => (x, [])
  | (r, c, level, _) :: _ =>
    ({ x with kind := kind }, [g.rereadError p x c level r.dst ((bad.filter fun b => b.2.1 == c).map fun b => (b.1.lane, b.2.2.2))])

/-- Perform the pending reads of a slice again. -/
def Gang.rereadSlice (g : Gang) (s : State) (p : Nat) (sl : Slice) : Slice :=
  sl.pend.foldl (init := { sl with pend := [] }) fun sl x =>
    let r := match x.kind with
      | .load rs => g.rereadLoad s p x rs
      | .ring rs more => g.rereadRing s p x rs more
      | _ => (x, [])
    { sl with pend := sl.pend ++ [r.1], errors := sl.errors ++ r.2 }

/-- The global reads of a unit's pending loads count as reads of their pages (R262). -/
def State.countReread (s : State) (u : WorkUnit) : State :=
  (u.slices.flatMap (·.pend)).foldl (init := s) fun s x =>
    match x.kind with
    | .load rs => rs.foldl (fun s r => if r.space = .scratch then s else s.countRead u.ctx r.va.toNat r.bytes) s
    | _ => s

/-- Put a unit's recorded commands back into its bank's queues, as far as their 64 entries go (R290, R425). -/
def State.requeue (s : State) (uid : Nat) : State :=
  match s.unit? uid with
  | none => s
  | some u =>
    let r := u.parked.foldl (init := ((s.bank u.core u.bank).queues, ([] : List (Nat × Command)))) fun acc c =>
      if (listAt acc.1 c.1).length < 64 && !acc.2.any (·.1 == c.1) then (listChange [] (· ++ [c.2]) acc.1 c.1, acc.2)
      else (acc.1, acc.2 ++ [c])
    (s.modifyBank u.core u.bank fun b => { b with queues := r.1 }).modifyUnit uid fun u => { u with parked := r.2 }

/-- Commands of restored units that found their queues full go in as entries free. -/
def State.requeueAll (s : State) : State :=
  (s.units.filter fun u => !u.parked.isEmpty && u.residence != .spilled).foldl (fun s u => s.requeue u.uid) s

/-- Perform a restored unit's pending reads again, and let its recorded commands stand in its bank's queues (R425). -/
def State.resume (s : State) (uid : Nat) : State :=
  match s.unit? uid with
  | none => s
  | some u =>
    match s.launch? u.die u.lslot, s.context u.ctx with
    | some l, some c =>
      let g : Gang := ⟨⟨uid, 0, 0⟩, u, l, c, []⟩
      let slices := u.slices.mapIdx (g.rereadSlice s)
      let s := { s.countReread u with freeIdx := s.freeIdx + 32 }
      (s.modifyUnit uid fun u => { u with slices := slices, savedBars := [], group := [] }).requeue uid
    | _, _ => s

/-- The commands that went on without their unit follow it into another bank, ahead of those it had not begun, so that its queues keep
their order (R347, R348, R423). -/
def State.moveBegun (s : State) (u : WorkUnit) (core bank : Nat) : State :=
  if u.core = core ∧ u.bank = bank then s
  else
    let old := (s.bank u.core u.bank).queues
    let s := s.modifyBank u.core u.bank fun b => { b with queues := b.queues.map fun q => q.filter (·.unit != u.uid) }
    let s := s.modifyBank core bank fun b =>
      { b with queues := b.queues.mapIdx fun i q => q ++ (listAt old i).filter (·.unit == u.uid) }
    { s with
      queries := s.queries.map fun q => if q.unit = u.uid then { q with core := core, bank := bank } else q
      collectives := s.collectives.map fun x => if x.unit = u.uid then { x with core := core, bank := bank } else x }

/-- Put one unit of a group back into a bank: its image is read back and freed (R425, R426). -/
def State.reseat (s : State) (core bank : Nat) (m : List (Nat × Nat)) (u : WorkUnit) : State :=
  let u := s.readBack u
  let s := (s.freeSave u.ctx u.image).moveBegun u core bank
  let s := s.modifyBank core bank fun b => u.savedBars.foldl (fun b x => b.setSlot x.1 (x.2.renumber m)) b
  let s := s.modifyUnit u.uid fun _ =>
    { u with residence := .resident, core := core, bank := bank, slots := u.slots.map (newSlot m), image := none }
  let s := s.modifyCore core fun c => { c with waiting := c.waiting.filter (· != u.uid) }
  s.modifyLaunch u.die u.lslot fun l => { l with frontier := l.frontier.map fun f => { f with restoring := f.restoring.filter (· != u.unitId) } }

/-- Restore a group onto a core, where a bank of it has room; a unit that still waited for attachments goes on to acquire them (R88,
R425). -/
def State.restoreGroup (s : State) (core : Nat) (us : List WorkUnit) : State :=
  match s.bankForGroup core us with
  | none => s
  | some bank =>
    let taken := (s.unitsIn core bank).flatMap (·.slots)
    let m := slotMap us (lowestFree taken 32)
    let s := us.foldl (fun s u => s.reseat core bank m u) s
    us.foldl (fun s u => s.acquire u.uid) (us.foldl (fun s u => s.resume u.uid) s)

/-- The core a suspended workgroup's group is restored onto (R440): that of its attached segments, under DET its own, else the
lowest-numbered that fits (R119, entry 23). -/
def State.seedCore (s : State) (l : Launch) (us : List WorkUnit) : Option Nat :=
  match s.seedHome l us with
  | .on c => some c
  | _ => (List.range s.n).find? fun c => (s.bankForGroup c us).isSome

/-- Whether a group may go back to a core: spilled units come last in the core's order (R131). -/
def State.mayReturn (s : State) (core : Nat) (u : WorkUnit) : Bool := !s.behindAssigned core u && !s.behindUnplaced core u

/-- RESTORE: a spilled unit whose turn it is in its core's waiting order, or the least suspended workgroup of a seeded launch (R131,
R425, R440). -/
def execRestore (uid : Nat) (s : State) : Host.Outcome State Fault Refusal :=
  match s.unit? uid with
  | none => .next s
  | some u =>
    match s.launch? u.die u.lslot with
    | none => .next s
    | some l =>
      let us := s.spilledGroup u
      if u.residence != .spilled || l.abort.isSome || l.suspend.any (·.spill) || !l.cinch.all (·.released) then .next s
      else
        let left := (l.frontier.map (·.restoring)).getD []
        if left.contains u.unitId then
          match (if us.any fun x => left.head? == some x.unitId then s.seedCore l us else none) with
          | some c => .next (s.restoreGroup c us)
          | none => .next s
        else
          let first := (s.core u.core).waiting.find? fun n => (s.unit? n).any fun x => x.residence == .spilled
          if (first.any fun h => us.any (·.uid == h)) && s.mayReturn u.core u then .next (s.restoreGroup u.core us) else .next s

end Sys2Proof.Machine
end

