-- ==== Sys2Proof/Machine/Rake.lean ====
section
/-! DEFINITION. Event domains (R134-R149): SCHED, CANCEL, EVQRY and TASK, the arrivals of lanes that run as no event, span agreement,
batches, and the commit (R448-R452). -/

namespace Sys2Proof.Machine

/-- A root record as an event (R135). -/
def eventOf (r : List DWord) : EventRec :=
  { time := wordOf r 0, tie := (wordOf r 1).extractLsb' 0 20, handler := (wordOf r 1).extractLsb' 20 12,
    flags := (wordOf r 1).extractLsb' 32 16, id := 0, serial := 0,
    args := [4, 5, 6, 7].flatMap fun n => [(wordOf r n).extractLsb' 0 32, (wordOf r n).extractLsb' 32 32] }

/-! ### Keys (R136) -/

def EventRec.before (a b : EventRec) : Bool :=
  decide (a.time < b.time) || (a.time == b.time && (decide (a.tie < b.tie) || (a.tie == b.tie && decide (a.id < b.id))))

def keyOrder (l : List EventRec) : List EventRec := sortBy EventRec.before l

/-- Whether handler h is one of the table's in use (R86, R145). -/
def Launch.handlerOk (l : Launch) (d : Domain) (h : Nat) : Bool := h < l.hcount && (d.handler h).entry != 0

/-- Change the domain of a launch. -/
def State.modifyDomain (s : State) (die slot : Nat) (f : Domain → Domain) : State :=
  s.modifyLaunch die slot fun l => { l with domain := l.domain.map f }

/-- Whether this chip is the originator of a launch's run (R106). -/
def Launch.originates (l : Launch) : Bool := l.cinch.all (·.originator)

/-! ### SCHED (R145, R146) -/

/-- Whether a launch is a running event domain. -/
def Launch.runsDomain (l : Launch) : Bool := l.domain.isSome && l.abort.isNone && l.ended.isNone && l.cinch.all (·.released)

/-- The running domain of a context with a DOMAIN number (R146). -/
def State.domainOf (s : State) (ctx num : Nat) : Option Launch :=
  s.launches.find? fun l => l.ctx == ctx && l.runsDomain && l.domainNo == num

/-- The domain a lane's SCHED goes to: its own for an event lane, else the running one that its flag word names. -/
def State.schedDomain (s : State) (g : Gang) (num : Nat) : Option Launch :=
  if g.l.kind = 2 then (if num = g.l.domainNo then some g.l else none) else s.domainOf g.u.ctx num

/-- What one lane of a SCHED comes to: the launch and the record it stages, or its cause, with the time computed. -/
structure Sched where
  place : Nat × Nat
  result : Except Cause (Launch × EventRec)
  time : DWord

/-- One lane's SCHED: causes in the order of R145. -/
def State.schedLane (s : State) (g : Gang) (w : StdWord) (x : Nat × Nat) : Sched :=
  let sl := g.u.slice x.1
  let ln := sl.lane x.2
  let val := fun (spec : BitVec 9) => (sl.readSpec x.2 (intUse false anyTag) spec.toNat).val
  let tw := (sl.readB x.2 (intUse false anyTag) w.srcB).val
  let fw := val w.dst
  let tm := (sl.pairAt x.2 w.srcA.toNat).toNat
  let h := bitsOf tw 31 20
  let event := g.l.kind == 2
  match s.schedDomain g (bitsOf fw 31 16) with
  | none => ⟨x, .error .evBadHandler, 0⟩
  | some l =>
    let d := l.domain.getD default
    let base := if event then ln.evtime.toNat else (d.window.map fun e => e.2.toNat).getD 0
    let t := if bitOf w.m 0 then tm else base + tm
    let time := BitVec.ofNat 64 t
    let past := if event then decide (t < ln.evtime.toNat) else d.window.any fun e => decide (t ≤ e.2.toNat)
    if !l.handlerOk d h then ⟨x, .error .evBadHandler, 0⟩
    else if event && ln.schedOrd == 4096 then ⟨x, .error .evOrdinalLimit, 0⟩
    else if t ≥ 2 ^ 64 then ⟨x, .error .evTimeOverflow, time⟩
    else if past then ⟨x, .error .evPast, time⟩
    else
      let id := if event then BitVec.ofNat 48 (wordBits ln.evser 35 0 * 4096 + ln.schedOrd) else 0
      ⟨x, .ok (l, { time := time, tie := BitVec.ofNat 20 tw, handler := BitVec.ofNat 12 h, flags := BitVec.ofNat 16 fw, id := id,
                    serial := 0, args := (List.range 8).map fun n => (ln.getV (w.srcC.toNat + n)).val }), time⟩

/-- Rank of a SCHED's causes (R145). -/
def schedRank : Cause → Nat
  | .evBadHandler => 0
  | .evOrdinalLimit => 1
  | .evTimeOverflow => 2
  | _ => 3

/-- The trap of a SCHED some of whose lanes fault: every one of them named, the first cause among them (R145, R417). -/
def Gang.schedTrap (g : Gang) (lanes : List Sched) (dst : BitVec 9) : Option Trap :=
  let bad := lanes.filterMap fun x => match x.result with | .error c => some (x, c) | .ok _ => none
  match sortBy (fun (a b : Sched × Cause) => decide (schedRank a.2 < schedRank b.2)) bad with
  | [] => none
  | (_, c) :: _ =>
    let shown := c == .evPast || c == .evTimeOverflow
    some { g.trapAt c (g.maskOf (bad.map (·.1.place))) dst with
      addr := fun n => if shown then ((bad.find? fun b => g.u.gangLane b.1.place.1 b.1.place.2 == n).map (·.1.time)).getD 0 else 0 }

/-- Stage one record: with the batch for an event, as a message to the originator otherwise (R145, R146). -/
def State.stage (s : State) (g : Gang) (l : Launch) (r : EventRec) : State :=
  if g.l.kind = 2 then
    ((s.modifyDomain l.die l.slot fun d => { d with staged := d.staged ++ [r] }).growRoom l.die l.slot).1
  else
    let m : NonEventMsg := { (default : NonEventMsg) with id := s.nextId, ctx := l.ctx, launch := l.serial, sched := some r }
    { s with nextId := s.nextId + 1, messages := s.messages ++ [m] }

/-- SCHED: stage one event per active lane (R145, R146). -/
def execSched (w : StdWord) : State → Host.Outcome State Fault Refusal :=
  onceWord 0x180 w
    (fun g =>
      let regs := g.head.regs
      { mods := 1, dst := .field, a := .field, b := src32 anyTag, c := .field,
        illegal := !pairSpecOk regs w.srcA.toNat || !srcSpecOk regs false false w.dst.toNat || !vRunOk regs w.srcC.toNat 8 8,
        reads := runRegs w.srcA.toNat 2 ++ runRegs w.dst.toNat 1 ++ runRegs w.srcC.toNat 8,
        fn := fun _ _ _ _ _ => {} })
    (fun s g lanes =>
      let all := lanes.map (s.schedLane g w)
      match g.schedTrap all w.dst with
      | some t => s.enterTrap g t
      | none =>
        let s := all.foldl (init := s) fun s x => match x.result with | .ok (l, r) => s.stage g l r | .error _ => s
        let s := s.modifyUnit g.u.uid fun u => lanes.foldl (init := u) fun u x =>
          if g.l.kind = 2 then u.modifySlice x.1 fun sl => sl.modifyLane x.2 fun ln => { ln with schedOrd := ln.schedOrd + 1 } else u
        s.finishWord g w.c.y 1)

/-! ### CANCEL and EVQRY (R147, R148) -/

/-- The status of a target once its DOMAIN is right (R147). -/
def Domain.status (d : Domain) (id : BitVec 48) : Nat :=
  if d.batch.any (·.id == id) then 1
  else if d.batch.any fun e => e.serial.toNat == id.toNat / 4096 then 3
  else if d.store.any (·.id == id) then 0
  else 2

/-- The status a lane of an event gets: a domain other than its own is UNKNOWN (R147). -/
def Launch.targetStatus (l : Launch) (t : DWord) : Nat :=
  match l.domain with
  | some d => if wordBits t 63 48 = d.number then d.status (t.extractLsb' 0 48) else 2
  | none => 2

/-- The entry of CANCEL and EVQRY: DST v, SRCA an even v or s pair. -/
def queryEntry (w : StdWord) (g : Gang) : AluEntry :=
  { dst := .field, a := .field, reads := runRegs w.srcA.toNat 2,
    illegal := !vRunOk g.head.regs w.dst.toNat 1 1 || !pairSpecOk g.head.regs w.srcA.toNat,
    fn := fun _ _ _ _ _ => {} }

/-- The targets of a word's lanes. -/
def Gang.targets (g : Gang) (w : StdWord) (lanes : List (Nat × Nat)) : List ((Nat × Nat) × DWord) :=
  lanes.map fun x => (x, (g.u.slice x.1).pairAt x.2 w.srcA.toNat)

/-- Statuses as long-latency results, tag n32. -/
def State.answer (s : State) (g : Gang) (w : StdWord) (lanes : List (Nat × Nat)) (of : DWord → Nat) : State :=
  let writes := fun p => (g.targets w lanes).filterMap fun e =>
    if e.1.1 = p then some ({ lane := some e.1.2, reg := w.dst.toNat, val := ⟨BitVec.ofNat 32 (of e.2), 2⟩ } : RegWrite) else none
  (s.modifyUnit g.u.uid fun u => u.issueLong g w.c.sb lanes [] (fun _ => .ready) writes).finishWord g w.c.y 1

/-- The status of a target for a lane that runs as no event: from the running domain the target names. -/
def State.outsideStatus (s : State) (ctx : Nat) (t : DWord) : Nat :=
  match s.domainOf ctx (wordBits t 63 48) with
  | some l => l.targetStatus t
  | none => 2

/-- Stage the cancels of an event's lanes, with the status each reports (R147). -/
def Domain.stageCancels (d : Domain) (g : Gang) (l : Launch) (ts : List ((Nat × Nat) × DWord)) : Domain :=
  { d with cancels := d.cancels ++ ts.filterMap fun e =>
      let st := l.targetStatus e.2
      if st = 2 then none
      else some { target := e.2.extractLsb' 0 48, status := st, issuer := some ((g.u.lane e.1.1 e.1.2).evid.extractLsb' 0 48) } }

/-- A CANCEL of lanes that run as no event goes to the Rake, which answers each on its arrival (R148). -/
def State.cancelOutside (s : State) (g : Gang) (w : StdWord) (lanes : List (Nat × Nat)) : State :=
  let ps := g.counted lanes
  let ts := g.targets w lanes
  let msgs : List NonEventMsg := ts.mapIdx fun i e =>
    { id := s.nextId + i, ctx := g.u.ctx, launch := 0, sched := none, target := e.2, unit := g.u.uid, slice := e.1.1,
      lane := e.1.2, result := g.u.nextResult + ps.idxOf e.1.1, dst := w.dst.toNat }
  let s := { s with nextId := s.nextId + msgs.length, messages := s.messages ++ msgs }
  (s.modifyUnit g.u.uid fun u =>
    u.issueLong g w.c.sb lanes [] (fun p => .rake (lanes.filter (·.1 == p)).length) fun _ => []).finishWord g w.c.y 1

/-- CANCEL (R147, R148). -/
def execCancel (w : StdWord) : State → Host.Outcome State Fault Refusal :=
  onceWord 0x181 w (queryEntry w) fun s g lanes =>
    if g.l.kind = 2 then
      let s := s.modifyDomain g.l.die g.l.slot fun d => d.stageCancels g g.l (g.targets w lanes)
      s.answer g w lanes g.l.targetStatus
    else s.cancelOutside g w lanes

/-- EVQRY: the status alone (R147). -/
def execEvqry (w : StdWord) : State → Host.Outcome State Fault Refusal :=
  onceWord 0x182 w (queryEntry w) fun s g lanes =>
    s.answer g w lanes (if g.l.kind = 2 then g.l.targetStatus else s.outsideStatus g.u.ctx)

/-- The moment at which a batch's commit begins has come: every gang of the batch has retired. In a run of several chips the commit's own
turn is that moment (R448, entry 7). -/
def State.commitDue (s : State) (l : Launch) (d : Domain) : Bool :=
  d.running && d.gangs.isEmpty && !l.replicated && (s.setUnits l d.batchNo).all (·.residence == .exited)

/-- A non-event SCHED at the originator: for the coming commit, for the one after it, or late (R146, R448, R452). -/
def State.arrive (s : State) (l : Launch) (r : EventRec) : State :=
  s.modifyDomain l.die l.slot fun d =>
    if !l.runsDomain then { d with late := d.late + 1 }
    else if s.commitDue l d then { d with next := d.next ++ [r] }
    else { d with arrivals := d.arrivals ++ [r] }

/-- NON_EVENT_SCHED_ARRIVAL: the originator holds it for a commit; a message whose launch is gone is dropped, and one to another chip's
originator leaves this chip, which learns of it by that commit (R146, R448, R452). -/
def execNonEventSchedArrival (id : Nat) (s : State) : Host.Outcome State Fault Refusal :=
  match s.messages.find? (·.id == id) with
  | none => .next s
  | some m =>
    match m.sched with
    | none => .next s
    | some r =>
      let s := { s with messages := s.messages.filter (·.id != id) }
      match s.launches.find? fun l => l.serial == m.launch && l.originates with
      | none => .next s
      | some l => .next (s.arrive l r)

/-- One answer of a CANCEL's result; the last one makes it ready. -/
def LongResult.answered (r : LongResult) (w : RegWrite) : LongResult :=
  match r.kind with
  | .rake n => { r with writes := r.writes ++ [w], kind := if n ≤ 1 then .ready else .rake (n - 1) }
  | _ => r

/-- A non-event CANCEL belongs to the commit that comes; the other chips of a run learn of it by that commit (R148, R448). -/
def State.holdCancel (s : State) (l : Launch) (x : CancelRec) : State :=
  if l.originates then s.modifyDomain l.die l.slot fun d => { d with cancels := d.cancels ++ [x] } else s

/-- NON_EVENT_CANCEL_ARRIVAL: the Rake answers with the status of the moment, and the cancel belongs to the next commit; one that arrives
while a commit runs waits for its end (R148, R448). -/
def execNonEventCancelArrival (id : Nat) (s : State) : Host.Outcome State Fault Refusal :=
  match s.messages.find? (·.id == id) with
  | none => .next s
  | some m =>
    let l := s.domainOf m.ctx (wordBits m.target 63 48)
    if m.sched.isSome || l.any fun l => l.domain.any (s.commitDue l) then .next s
    else
      let st := s.outsideStatus m.ctx m.target
      let x : CancelRec := { target := m.target.extractLsb' 0 48, status := st, issuer := none }
      let w : RegWrite := { lane := some m.lane, reg := m.dst, val := ⟨BitVec.ofNat 32 st, 2⟩ }
      let s := { s with messages := s.messages.filter (·.id != id) }
      let s := match (if st = 2 then none else l) with
        | some l => s.holdCancel l x
        | none => s
      let go := fun (r : LongResult) => if r.id = m.result then r.answered w else r
      .next (s.modifyUnit m.unit fun u => u.modifySlice m.slice fun sl => { sl with pend := sl.pend.map go })

/-! ### TASK (R149) -/

/-- The tasks a word spawns, with the spawner's position and ordinal. -/
def Gang.spawned (g : Gang) (w : StdWord) (lanes : List (Nat × Nat)) : List (Nat × Nat × TaskRec) :=
  lanes.map fun x =>
    let sl := g.u.slice x.1
    let ln := sl.lane x.2
    (ln.taskPos, ln.taskOrd,
     { entry := sl.pairAt x.2 w.srcA.toNat, args := (List.range 8).map fun n => (ln.getV (w.srcC.toNat + n)).val, number := 0, pos := 0 })

/-- Tasks enter the pool: at once in normal mode, held for the round's end in deterministic mode (R129, R130). -/
def Pool.spawn (p : Pool) (det : Bool) (ts : List (Nat × Nat × TaskRec)) : Pool :=
  if det then { p with spawned := p.spawned ++ ts }
  else
    { p with
      tasks := p.tasks ++ ts.mapIdx fun i t => { t.2.2 with number := p.nextNumber + i }
      nextNumber := p.nextNumber + ts.length }

/-- TASK: one lane task per active lane (R149). -/
def execTask (w : StdWord) : State → Host.Outcome State Fault Refusal :=
  onceWord 0x183 w
    (fun g =>
      { dst := .unused, a := .field, c := .field, reads := runRegs w.srcA.toNat 2 ++ runRegs w.srcC.toNat 8,
        illegal := !pairSpecOk g.head.regs w.srcA.toNat || !vRunOk g.head.regs w.srcC.toNat 8 8, fn := fun _ _ _ _ _ => {} })
    (fun s g lanes =>
      match g.l.pool with
      | none => s.enterTrap g (g.allTrap .evBadHandler lanes w.dst)
      | some p =>
        if p.tasks.length + p.spawned.length + lanes.length > p.cap then s.enterTrap g (g.allTrap .evPoolFull lanes w.dst)
        else
          let s := s.modifyLaunch g.l.die g.l.slot fun l =>
            { l with pool := l.pool.map fun p => p.spawn l.det (g.spawned w lanes) }
          let s := s.modifyUnit g.u.uid fun u => lanes.foldl (init := u) fun u x =>
            u.modifySlice x.1 fun sl => sl.modifyLane x.2 fun ln => { ln with taskOrd := ln.taskOrd + 1 }
          s.finishWord g w.c.y 1)

/-! ### Insertion (R138) -/

/-- Ids of an insertion batch by position (R138). -/
def Domain.insertionIds (d : Domain) (l : List EventRec) : List EventRec :=
  l.mapIdx fun i e => { e with id := BitVec.ofNat 48 ((2 ^ 35 + d.base + i / 4096) * 4096 + i % 4096) }

/-- Give serials in key order and insert into the store (R138, R449). -/
def Domain.insert (d : Domain) (l : List EventRec) : Domain :=
  { d with
    store := d.store ++ (keyOrder l).mapIdx fun i e => { e with serial := BitVec.ofNat 36 (d.counter + i) }
    counter := d.counter + l.length }

/-- Insert an insertion batch: creator serials, then commit serials (R138). -/
def Domain.insertBatch (d : Domain) (l : List EventRec) : Domain :=
  ({ d with base := d.base + (l.length + 4095) / 4096 }).insert (d.insertionIds l)

/-! ### Batches (R141, R142) -/

/-- The group of an event: its handler and, with HATT, its segment index (R142). -/
def Domain.group (d : Domain) (e : EventRec) : Nat × Option DWord :=
  (e.handler.toNat, ((d.handler e.handler.toNat).attaches e).map (·.1))

/-- Cut a group into gangs of 32. -/
def packGangs : Nat → List EventRec → List (List EventRec)
  | 0, _ => []
  | n + 1, l => if l.isEmpty then [] else l.take 32 :: packGangs n (l.drop 32)

/-- The order of gangs: handler, then the key of the first event (R142). -/
def gangBefore (a b : List EventRec) : Bool :=
  let x := a.headD default
  let y := b.headD default
  decide (x.handler < y.handler) || (x.handler == y.handler && x.before y)

/-- The gangs of a batch, whose events stand in key order (R142). -/
def Domain.packed (d : Domain) (evs : List EventRec) : List (List EventRec) :=
  let groups := (evs.map d.group).eraseDups
  sortBy gangBefore (groups.flatMap fun k => packGangs evs.length (evs.filter fun e => d.group e == k))

/-- The gangs of a batch that run on a chip: those whose first event has its home there. R124 names a logical core for a gang and no chip
of the run (DESIGN CHOICE, entry 7). -/
def Launch.gangsOn (l : Launch) (chip : Nat) (gs : List (Nat × List EventRec)) : List (Nat × List EventRec) :=
  if !l.replicated then gs else gs.filter fun g => (l.eventHome (g.2.headD default).id).1 == chip

/-- Form a batch from the pending events at or below E, in key order up to BCAP (R141). -/
def Domain.form (d : Domain) (l : Launch) (chip : Nat) (e : DWord) : Domain :=
  let due := fun (x : EventRec) => decide (x.time ≤ e)
  let evs := (keyOrder (d.store.filter due)).take l.bcap
  { d with
    store := d.store.filter (!evs.contains ·), batch := evs, gangs := l.gangsOn chip ((d.packed evs).mapIdx fun i g => (i, g)),
    batchNo := d.batchNo + 1, running := true, committed := false }

/-! ### Commit (R449) -/

/-- Whether a commit's cancels and staged events are those of revoked events (R449). -/
def revoked (batch : List EventRec) (xs : List CancelRec) : List EventRec :=
  batch.filter fun e => xs.any fun x => x.status == 1 && x.target == e.id

/-- What a commit's revocations and cancels leave: the store, the staged events, and the arrivals whose TIME passes the recheck,
which is off before the first span (R449, R452). The batch is over. -/
def Domain.resolve (d : Domain) : Domain :=
  let rv := revoked d.batch d.cancels
  let s1 := d.staged.filter fun e => !rv.any fun r => r.serial.toNat == e.id.toNat / 4096
  let xs := d.cancels.filter fun x => x.status == 1 || !rv.any fun r => x.issuer == some r.id
  let hit := fun (st : Nat) (e : EventRec) => xs.any fun x => x.status == st && x.target == e.id
  let s2 := s1.filter fun e => !hit 3 e
  let n := match d.window with
    | some w => d.arrivals.filter fun e => w.2 < e.time
    | none => d.arrivals
  { d with
    store := d.store.filter (!hit 0 ·), removed := d.removed + (d.store.filter (hit 0)).length,
    dropped := d.dropped + (d.staged.length - s2.length), late := d.late + (d.arrivals.length - n.length),
    staged := s2, cancels := [], arrivals := n, batch := [], running := false }

/-- A record of another chip as an event, with the ID its creator gave it (R135, R137). -/
def peerEvent (r : List DWord) : EventRec := { eventOf r with id := (wordOf r 2).extractLsb' 0 48 }

/-- The originator's arrivals in their order: each of another chip's after a number of this chip's own (R146). -/
def mergeArrivals (own : List EventRec) (others : List (Nat × List DWord)) : List EventRec :=
  (List.range (own.length + 1)).flatMap fun i =>
    (others.filter fun x => min x.1 own.length == i).map (peerEvent ·.2) ++ (own.drop i).take 1

/-- What a commit applies: the chip's own staged events, cancels and arrivals, and in a replica run those of the other chips, whose stores
are the same (R140, R448, entry 7). -/
def Domain.withPeers (d : Domain) (l : Launch) (p : RunShare) : Domain :=
  if !l.replicated then d
  else
    { d with
      staged := d.staged ++ p.staged.map peerEvent
      cancels := d.cancels ++ p.cancels.map fun x =>
        { target := x.1.extractLsb' 0 48, status := x.2.1, issuer := x.2.2.map (·.extractLsb' 0 48) }
      arrivals := mergeArrivals d.arrivals p.arrivals }

/-- The device status with which a resolved commit that cannot be served ends the domain (R138, R139, R445). -/
def Domain.unserved (d : Domain) : Option Nat :=
  let n := d.staged.length + d.arrivals.length
  if d.counter + n > 2 ^ 35 - 1 then some 2 else if d.store.length + n > 2 ^ 32 then some 3 else none

/-- Insert a resolved commit's staged events, then its insertion batch (R449). -/
def Domain.intoStore (d : Domain) : Domain :=
  (({ d with staged := [], arrivals := d.next, next := [] }).insert d.staged).insertBatch d.arrivals

/-- Apply a commit's steps to a launch's domain, counting n batches; one that cannot be served inserts nothing and ends (R449). -/
def State.settleDomain (s : State) (l : Launch) (d : Domain) (n : Nat) : State × Option Domain :=
  let d := d.resolve
  let after := { d.intoStore with batches := d.batches + n }
  match d.unserved with
  | none => (((s.modifyDomain l.die l.slot fun _ => after).growRoom l.die l.slot).1, some after)
  | some code => ((s.modifyDomain l.die l.slot fun _ => d).abortLaunch l.die l.slot ⟨4, code, s.chip⟩ (0, 0, 0), none)

/-- The event lanes of a batch as intervals, in ascending ID (R402). -/
def State.eventIntervals (s : State) (l : Launch) (set : Nat) : List Interval :=
  let us := s.setUnits l set
  let all := us.flatMap fun u => (List.range u.nlanes).map fun i =>
    (wordBits (u.lane (i / 4) (i % 4)).evid 47 0, (⟨u.uid, i⟩ : Interval))
  (sortBy (fun a b => decide (a.1 < b.1)) all).map (·.2)

/-- After a commit: a re-batch while an event is pending at or below E, at most RBLIM of them, else a span agreement (R451, R452). -/
def State.afterCommit (s : State) (l : Launch) (d : Domain) : State :=
  match d.window with
  | none => s
  | some w =>
    if d.store.any fun e => e.time ≤ w.2 then
      if d.rebatches + 1 > l.rblim then s.abortLaunch l.die l.slot ⟨2, Cause.evRebatchLimit.code, s.chip⟩ (0, 0, 0)
      else s.modifyLaunch l.die l.slot fun l => { l with domain := some { d.form l s.chip w.2 with rebatches := d.rebatches + 1 } }
    else s.modifyLaunch l.die l.slot fun l => { l with domain := some { d with committed := true } }

/-- BATCH_COMMIT: every gang of the batch has retired: its windows close, its intervals merge, and what it staged is settled
(R281, R402, R448-R451). -/
def execBatchCommit (die : Nat) (x : DomainTurn) (s : State) : Host.Outcome State Fault Refusal :=
  match s.launch? die x.slot with
  | none => .next s
  | some l =>
    match l.domain with
    | none => .next s
    | some d =>
      if !d.running || !l.runsDomain || s.setOpen l d.batchNo || !d.gangs.isEmpty || (s.setUnits l d.batchNo).any (·.residence != .exited) then .next s
      else
        let s := s.closeSet die x.slot d.batchNo
        let r := if l.det then s.mergeIntervals die x.slot (s.eventIntervals l d.batchNo) else (s, [])
        if r.2 ≠ [] then .next (r.1.conflictAbort die x.slot)
        else match r.1.settleDomain l (d.withPeers l x.peers) 1 with
          | (s, some d) => .next (s.afterCommit l d)
          | (s, none) => .next s

/-! ### Span agreement (R140, R452) -/

/-- The least TIME pending. -/
def Domain.leastTime (d : Domain) : Option DWord := ((keyOrder d.store).head?).map (·.time)

/-- %step of a context (R286). -/
def State.setStep (s : State) (ctx : Nat) (x : Word) : State := s.modifyContext ctx fun c => { c with step := x }

/-- Agree T: a new window and its first batch, or the domain's retirement (R140, R141, R452). -/
def State.agree (s : State) (l : Launch) (d : Domain) : State :=
  match d.leastTime with
  | none => s.modifyLaunch l.die l.slot fun l => { l with ended := some 0, domain := some d }
  | some t =>
    let d := { d with lastT := t }
    if l.endTime < t then s.modifyLaunch l.die l.slot fun l => { l with ended := some 1, domain := some { d with store := [] } }
    else
      let e := if t.toNat + l.look.toNat ≥ 2 ^ 64 then BitVec.allOnes 64 else t + l.look
      let s := if l.stepadv then s.setStep l.ctx (BitVec.ofNat 32 (t.toNat / 2 ^ l.stepsh)) else s
      s.modifyLaunch l.die l.slot fun l =>
        { l with domain := some { ({ d with window := some (t, e), rebatches := 0 }).form l s.chip e with rebatches := 0 } }

/-- SPAN_AGREEMENT: held arrivals are applied first, by a commit with no batch (R140, R452). -/
def execSpanAgreement (die : Nat) (x : DomainTurn) (s : State) : Host.Outcome State Fault Refusal :=
  match s.launch? die x.slot with
  | none => .next s
  | some l =>
    match l.domain with
    | none => .next s
    | some d =>
      if d.running || !d.committed || !l.runsDomain then .next s
      else
        let d := d.withPeers l x.peers
        if d.arrivals.isEmpty && d.cancels.isEmpty then .next (s.agree l d)
        else match s.settleDomain l d 0 with
          | (s, some d) => .next (s.agree l d)
          | (s, none) => .next s

end Sys2Proof.Machine
end

