-- ==== Sys2Proof/Machine/Search.lean ====
section
/-! DEFINITION. Graph search under the stacks: packets and descriptors (R336-R339), distances and keys (R340, R341), the rounds
(R342), results (R343, R344), messages (R345) and ANNQ (R346-R350). -/

namespace Sys2Proof.Machine

/-! ### Nodes and records (R335-R337) -/

def nodeStack (n : Word) : Nat := bitsOf n.toNat 31 27
def nodeIndex (n : Word) : Nat := bitsOf n.toNat 26 0

/-- COUNT of a stack. -/
def graphCount (g : List DWord) (h : Nat) : Nat :=
  let w := wordOf g (12 + h / 2)
  if h % 2 = 0 then wordBits w 31 0 else wordBits w 63 32

def graphDim (g : List DWord) : Nat := wordBits (wordOf g 18) 11 0 + 1
def graphFmt (g : List DWord) : Nat := wordBits (wordOf g 18) 19 12
def graphNofs (g : List DWord) : Nat := wordBits (wordOf g 18) 47 32
def graphStride (g : List DWord) : Nat := wordBits (wordOf g 19) 31 0

/-- Whether a node id is valid (R337). -/
def nodeValid (g : List DWord) (n : Word) : Bool :=
  nodeStack n < 12 && wordOf g (nodeStack n) != 0 && nodeIndex n < graphCount g (nodeStack n)

/-- The address of a node's record. -/
def nodeRecord (g : List DWord) (n : Word) : Nat :=
  ((wordOf g (nodeStack n)).toNat + nodeIndex n * graphStride g) % 2 ^ 64

/-- Bytes of a vector element; 0 for a code that R339 does not allow. -/
def vectorSize (tag : Nat) : Nat :=
  if tag = 0x10 then 4
  else if tag = 0x12 ∨ tag = 0x13 then 2
  else if tag = 0x05 ∨ tag = 0x06 ∨ (0x40 ≤ tag ∧ tag ≤ 0x5B) then 1
  else 0

/-- A vector's elements (R337, R339). -/
def vectorVals (tag dim : Nat) (bs : List Byte) : List KVal :=
  (elementsOf (vectorSize tag) dim bs).map fun x => if tag = 0x10 then fp32.kval x else elementVal tag x

/-- Whether a descriptor breaks R336, or R339, or does not fit the packet's DIM. -/
def graphBad (g : List DWord) (dim : Nat) : Bool :=
  let size := vectorSize (graphFmt g)
  let reserved := wordBits (wordOf g 18) 31 20 != 0 || wordBits (wordOf g 18) 63 48 != 0 || wordBits (wordOf g 19) 63 32 != 0 ||
    (g.drop 20).any (· != 0)
  let badStack := (List.range 12).any fun h =>
    (wordOf g h).toNat % 32 != 0 || graphCount g h > 2 ^ 27 || (graphCount g h != 0 && wordOf g h == 0)
  reserved || badStack || graphDim g != dim || size == 0 || graphNofs g % 4 != 0 || graphNofs g < dim * size ||
  graphStride g % 32 != 0 || graphStride g < graphNofs g + 4

/-! ### The packet (R338) -/

def queryDim (h : List DWord) : Nat := wordBits (wordOf h 2) 11 0 + 1
def queryFmt (h : List DWord) : Nat := wordBits (wordOf h 2) 19 12
def queryDist (h : List DWord) : Nat := wordBits (wordOf h 2) 21 20
def queryK (h : List DWord) : Nat := wordBits (wordOf h 2) 29 24 + 1
def queryBeam (h : List DWord) : Nat := wordBits (wordOf h 2) 39 32 + 1
def queryWidth (h : List DWord) : Nat := wordBits (wordOf h 2) 42 40 + 1
def queryLimit (h : List DWord) : Nat := wordBits (wordOf h 2) 63 48
def queryNent (h : List DWord) : Nat := wordBits (wordOf h 3) 2 0 + 1

/-- The eight entry-point fields. -/
def queryEntries (h : List DWord) : List Word :=
  (List.range 8).map fun n =>
    let w := wordOf h (4 + n / 2)
    BitVec.ofNat 32 (if n % 2 = 0 then wordBits w 31 0 else wordBits w 63 32)

/-- Whether a packet's own fields are bad (R344 step 2). -/
def queryBad (h : List DWord) : Bool :=
  let w2 := wordOf h 2
  wordBits w2 23 22 != 0 || wordBits w2 31 30 != 0 || wordBits w2 47 43 != 0 || wordBits (wordOf h 3) 63 3 != 0 ||
  queryDist h == 3 || queryBeam h < queryK h || ((queryEntries h).drop (queryNent h)).any (· != 0) ||
  !canonicalVa (wordOf h 0).toNat || (wordOf h 0).toNat % 64 != 0 || vectorSize (queryFmt h) == 0

/-! ### Distances (R340) -/

/-- An exact value rounded once to FP32; an exact zero is +0. -/
def roundDistance (x : Dy) : Nat := if x.isZero then 0 else (fp32.roundTo 0 0 x).code

/-- The negative of a value. -/
def Dy.negate (x : Dy) : Dy := { x with neg := !x.neg }

/-- The difference of two elements under L2, squared. -/
def squareTerm (a b : KVal) : Product :=
  match a, b with
  | .nan, _ => .nan
  | _, .nan => .nan
  | .inf m, .inf n => if m = n then .invalid else .inf false
  | .inf _, .fin _ => .inf false
  | .fin _, .inf _ => .inf false
  | .fin x, .fin y => let d := x.add y.negate; .fin (d.mul d)

/-- The finite values of terms, summed. -/
def sumTerms (ps : List Product) : Dy :=
  (ps.filterMap fun p => match p with | .fin x => some x | _ => none).foldl Dy.add ⟨false, 0, 0⟩

/-- A sum of terms, negated or not, rounded (R340). -/
def distanceOf (ps : List Product) (negate : Bool) : Nat :=
  let infs := ps.filterMap fun p => match p with | .inf n => some n | _ => none
  if ps.contains .nan || ps.contains .invalid || (infs.contains true && infs.contains false) then fp32.nanCode
  else match infs with
    | n :: _ => fp32.infCode (xor n negate)
    | [] => roundDistance (if negate then (sumTerms ps).negate else sumTerms ps)

/-- The integer square root of any natural number. -/
def sqrtFloor (n : Nat) : Nat := isqrtGo (Nat.log2 n / 2 + 1) n 0

/-- Bits after the binary point kept of a cosine distance, before the sticky half step. -/
def cosineBits : Nat := 256

/-- 1 - p / √r, r > 0, rounded once: the quotient's floor and whether it is exact give its place between two steps. -/
def cosineOf (p r : Dy) : Nat :=
  let e : Int := 2 * p.exp - r.exp + 2 * cosineBits
  let num := if e ≥ 0 then p.mag * p.mag * 2 ^ e.toNat else p.mag * p.mag
  let den := if e ≥ 0 then r.mag else r.mag * 2 ^ (-e).toNat
  let q := num / den
  let k := sqrtFloor q
  let exact := num % den == 0 && k * k == q
  let one := 2 ^ cosineBits
  let x := if p.neg then Dy.from' false (one + k) (-(cosineBits : Int)) exact
    else if exact then Dy.ofInt ((one : Int) - k) (-(cosineBits : Int))
    else Dy.from' false (one - k - 1) (-(cosineBits : Int)) false
  roundDistance x

/-- The finite value of an element; none for an infinity or a NaN. -/
def KVal.fin? : KVal → Option Dy
  | .fin x => some x
  | _ => none

/-- The cosine distance: any NaN or infinity is undefined. -/
def cosineDistance (q x : List KVal) : Nat :=
  if (q ++ x).any fun v => v.fin?.isNone then fp32.nanCode
  else
    let a := q.filterMap KVal.fin?
    let b := x.filterMap KVal.fin?
    let sum := fun (l : List Dy) => l.foldl Dy.add ⟨false, 0, 0⟩
    let qq := sum (a.map fun v => v.mul v)
    let xx := sum (b.map fun v => v.mul v)
    if qq.isZero || xx.isZero then 0x3F800000 else cosineOf (sum (List.zipWith Dy.mul a b)) (qq.mul xx)

/-- The distance of a node (R340). -/
def nodeDistance (mode : Nat) (q x : List KVal) : Nat :=
  match mode with
  | 0 => distanceOf (List.zipWith squareTerm q x) false
  | 1 => distanceOf (List.zipWith KVal.mul q x) true
  | _ => cosineDistance q x

/-! ### Keys (R341) -/

/-- A distance's place in the order: -0 with +0, NaN above +infinity. -/
def distanceRank (d : Word) : Int :=
  if d = 0x7FC00000 then 2 ^ 32
  else if d.getLsbD 31 then -((d.toNat % 2 ^ 31 : Nat) : Int) else d.toNat

def Candidate.before (a b : Candidate) : Bool :=
  decide (distanceRank a.dist < distanceRank b.dist) ||
  (distanceRank a.dist == distanceRank b.dist && decide (a.node.toNat < b.node.toNat))

/-! ### The rounds (R342) -/

def Query.finish (q : Query) (status : Nat) (cause : Option Cause) : Query :=
  { q with outcome := some (status, cause), msgs := [], expand := [], lists := [], fresh := [], dists := [] }

/-- A message to or from another unit is a hop (R345). -/
def Query.hop (q : Query) (n : Word) : Nat := if nodeStack n = q.owner then 0 else 1

/-- Stop() (R342). -/
def Query.stop (q : Query) : Bool :=
  match q.cands[queryK q.head - 1]? with
  | some kth => q.cands.all fun c => c.expanded || !c.before kth
  | none => q.cands.all (·.expanded)

/-- Begin a round, or finish (R342). -/
def Query.nextRound (q : Query) : Query :=
  if q.stop then q.finish 0 none
  else if queryLimit q.head ≠ 0 ∧ q.rounds = queryLimit q.head then q.finish 1 none
  else
    let xs := ((q.cands.filter (!·.expanded)).take (queryWidth q.head)).map (·.node)
    { q with
      cands := q.cands.map fun c => if xs.contains c.node then { c with expanded := true } else c
      expand := xs, lists := [], fresh := [], dists := []
      msgs := xs.map .expand
      hops := q.hops + (xs.map q.hop).sum }

/-- Send a round's evaluations. -/
def Query.sendEvals (q : Query) : Query :=
  { q with msgs := q.fresh.map .eval, dists := [], hops := q.hops + (q.fresh.map q.hop).sum }

/-- The end of a round: its distances in the order of its nodes; the first fault ends the query (R342, R344). -/
def Query.insert (q : Query) : Query :=
  let got := q.fresh.filterMap fun n => q.dists.find? (·.node == n)
  match got.findIdx? (·.fault.isSome) with
  | some i => { q with evals := q.evals + i }.finish 6 ((got.getD i default).fault)
  | none =>
    let new := got.map fun d => ({ dist := d.dist, node := d.node, expanded := false } : Candidate)
    let all := sortBy Candidate.before (q.cands ++ new)
    let q := { q with
      evals := q.evals + new.length
      cands := if q.started then all.take (queryBeam q.head) else all
      rounds := if q.started then q.rounds + 1 else 0
      started := true, expand := [], lists := [], fresh := [], dists := [] }
    if q.full then q.finish 2 none else q.nextRound

/-- What the scan of a round's lists has reached. -/
structure Scan where
  visited : List Word
  fresh : List Word
  badids : Nat
  full : Bool
  ended : Option (Nat × Option Cause)
  deriving DecidableEq, Repr, Inhabited

/-- One neighbour (R342). -/
def Scan.neighbour (graph : List DWord) (a : Scan) (n : Word) : Scan :=
  if a.full then a
  else if !nodeValid graph n then { a with badids := a.badids + 1 }
  else if a.visited.contains n then a
  else if a.visited.length ≥ 16384 then { a with full := true }
  else { a with visited := a.visited ++ [n], fresh := a.fresh ++ [n] }

/-- One expanded node's list. -/
def Scan.list (graph : List DWord) (a : Scan) (r : ListReply) : Scan :=
  if a.full || a.ended.isSome then a
  else if r.fault.isSome then { a with ended := some (6, r.fault) }
  else if r.count.toNat > 256 then { a with ended := some (5, none) }
  else r.ids.foldl (Scan.neighbour graph) a

/-- Every list of the round is in: its new nodes, in key order of the expanded ones (R342). -/
def Query.scan (q : Query) : Query :=
  let rs := q.expand.filterMap fun n => q.lists.find? (·.node == n)
  let a := rs.foldl (Scan.list q.graph) ⟨q.visited, [], q.badids, false, none⟩
  let q := { q with visited := a.visited, badids := a.badids, full := a.full, fresh := a.fresh }
  match a.ended with
  | some e => q.finish e.1 e.2
  | none => if q.fresh = [] then q.insert else q.sendEvals

/-! ### Results (R343, R348, R350) -/

/-- The words of a result area. -/
def Query.resultWords (q : Query) (status : Nat) (cause : Option Cause) : List DWord :=
  let k := queryK q.head
  let res := if status ≤ 2 then q.cands.take k else []
  let w := fun (lo hi : Nat) => BitVec.ofNat 64 (lo % 2 ^ 32 + hi % 2 ^ 32 * 2 ^ 32)
  [w (status + res.length * 2 ^ 8 + q.rounds % 65536 * 2 ^ 16) q.visited.length, w q.evals q.badids,
   w (if status = 6 then (cause.map Cause.code).getD 0 else 0) q.hops, 0] ++
  (List.range k).map fun i => match res[i]? with
    | some c => w c.node.toNat c.dist.toNat
    | none => w 0xFFFFFFFF 0xFFFFFFFF

/-- A query's writes and its end (R348, R350). -/
def State.finishQuery (s : State) (q : Query) (c : Command) (status : Nat) (cause : Option Cause) : State :=
  let s := { s with queries := s.queries.filter (·.id != q.id) }
  let s0 := s.popQueue q.core q.bank q.queue
  if status = 0xFF then s0.commandEnd q.queue c 0 cause
  else
    let bs := wordsBytes (q.resultWords status cause)
    let e := { Engine.start s0 q.unit q.ctx with span := ((wordOf q.head 1).toNat, bs.length) }.writeLong (wordOf q.head 1).toNat (bs.length / 4096 + 1) bs
    match e.fail with
    | some f => s0.commandEnd q.queue c 0 (some f)
    | none =>
      match e.settle.counterAdd q.ctx (c.counter.getD 0) 1 with
      | .ok s => s.commandEnd q.queue c 0 cause
      | .error f => e.settle.commandEnd q.queue c 0 (some f)

/-- Finished queries at the head of their queue complete, in issue order (R348). -/
def State.finishQueries (s : State) (core bank q : Nat) : Nat → State
  | 0 => s
  | fuel + 1 =>
    match (s.bank core bank).queues.getD q [] with
    | c :: _ =>
      match s.queries.find? fun x => x.command == c.id with
      | some x => match x.outcome with
        | some o => (s.finishQuery x c o.1 o.2).finishQueries core bank q fuel
        | none => s
      | none => s
    | [] => s

/-- Put a query back, and complete what can be. -/
def State.putQuery (s : State) (q : Query) : State :=
  let s := { s with queries := s.queries.map fun (x : Query) => if x.id = q.id then q else x }
  s.finishQueries q.core q.bank q.queue ((s.bank q.core q.bank).queues.getD q.queue []).length

/-! ### The beginning of a query (R344) -/

/-- Eight-byte words of bytes. -/
def elementWords (n : Nat) (bs : List Byte) : List DWord := (elementsOf 8 n bs).map (BitVec.ofNat 64)

/-- The entry points, in order (R342): visited and round 0's nodes, or the first invalid one ends it. -/
def Query.enter (q : Query) : Query :=
  let go := ((queryEntries q.head).take (queryNent q.head)).foldl (init := (q.visited, true)) fun acc e =>
    if !acc.2 then acc
    else if !nodeValid q.graph e then (acc.1, false)
    else if acc.1.contains e then acc else (acc.1 ++ [e], true)
  let q := { q with visited := go.1 }
  if !go.2 then q.finish 4 none else { q with fresh := go.1 }.sendEvals

/-- The checks of R344 in order, on what the engine reads; the owner is the home of the first entry point (R335). -/
def Query.begin (q : Query) (e : Engine) : Query × Engine :=
  let h := e.read false q.packet.toNat 64
  match h.1.fail with
  | some f => (q.finish 0xFF (some f), { h.1 with fail := none })
  | none =>
    let head := elementWords 8 h.2
    let result := (wordOf head 1).toNat
    let q := { q with head := head, owner := nodeStack ((queryEntries head).headD 0) }
    if result % 32 ≠ 0 then (q.finish 0xFF (some .misaligned), h.1)
    else if !canonicalVa result then (q.finish 0xFF (some .pageNotPresent), h.1)
    else if queryBad head then (q.finish 3 none, h.1)
    else
      let g := h.1.read false (wordOf head 0).toNat 256
      match g.1.fail with
      | some f => (q.finish 6 (some f), { g.1 with fail := none })
      | none =>
        let graph := elementWords 32 g.2
        let q := { q with graph := graph }
        if graphBad graph (queryDim head) then (q.finish 3 none, g.1)
        else
          let v := g.1.read false ((q.packet.toNat + 64) % 2 ^ 64) (queryDim head * vectorSize (queryFmt head))
          match v.1.fail with
          | some f => (q.finish 6 (some f), { v.1 with fail := none })
          | none => ({ q with vector := v.2 }.enter, v.1)

/-- Begin an ANNQ that may begin; its owner works on at most 64 at once (R345, R347). -/
def State.startQuery (s : State) (core bank qn : Nat) (u : WorkUnit) (c : Command) (packet : DWord) : State :=
  let id := s.newId
  let q : Query := { (default : Query) with
    id := id.1, core := core, bank := bank, queue := qn, unit := u.uid, ctx := u.ctx, command := c.id, packet := packet }
  let r := q.begin (Engine.start id.2 u.uid u.ctx)
  if r.1.outcome.isNone ∧ (s.queries.filter fun x => x.owner == r.1.owner && x.outcome.isNone).length ≥ 64 then s
  else
    let s := r.2.s.modifyBank core bank fun b =>
      { b with queues := listModify b.queues qn fun l => l.map fun x => if x.id = c.id then { x with begun := true } else x }
    { s with queries := s.queries ++ [r.1] }.putQuery r.1

/-! ### The messages (R345) -/

/-- The query of a message. -/
def State.query? (s : State) (id : Nat) : Option Query := s.queries.find? (·.id == id)

/-- Replace a message by its reply. -/
def Query.reply (q : Query) (n : Word) (old new : SearchMsg) : Query :=
  { q with msgs := (q.msgs.erase old) ++ [new], hops := q.hops + q.hop n }

/-- A home unit reads a node's neighbour list (R337). -/
def Query.readList (q : Query) (e : Engine) (n : Word) : ListReply × Engine :=
  let a := (nodeRecord q.graph n + graphNofs q.graph) % 2 ^ 64
  let c := e.read false a 4
  match c.1.fail with
  | some f => (⟨n, 0, [], some f⟩, { c.1 with fail := none })
  | none =>
    let k := leNat c.2
    if k = 0 ∨ k > 256 then (⟨n, BitVec.ofNat 32 k, [], none⟩, c.1)
    else
      let l := c.1.read false ((a + 4) % 2 ^ 64) (4 * k)
      match l.1.fail with
      | some f => (⟨n, BitVec.ofNat 32 k, [], some f⟩, { l.1 with fail := none })
      | none => (⟨n, BitVec.ofNat 32 k, (elementsOf 4 k l.2).map (BitVec.ofNat 32), none⟩, l.1)

/-- A home unit evaluates a node (R340). -/
def Query.evaluate (q : Query) (e : Engine) (n : Word) : DistReply × Engine :=
  let dim := queryDim q.head
  let fmt := graphFmt q.graph
  let v := e.read false (nodeRecord q.graph n) (dim * vectorSize fmt)
  match v.1.fail with
  | some f => (⟨n, 0, some f⟩, { v.1 with fail := none })
  | none =>
    let d := nodeDistance (queryDist q.head) (vectorVals (queryFmt q.head) dim q.vector) (vectorVals fmt dim v.2)
    (⟨n, BitVec.ofNat 32 d, none⟩, v.1)

/-- SEARCH_EXPAND: a node's home unit reads its list and replies (R345, entry 20). -/
def execSearchExpand (id : Nat) (n : Word) (s : State) : Host.Outcome State Fault Refusal :=
  match s.query? id with
  | none => .next s
  | some q =>
    if q.msgs.contains (.expand n) then
      let r := q.readList (Engine.start s q.unit q.ctx) n
      .next (r.2.s.putQuery (q.reply n (.expand n) (.list r.1)))
    else .next s

/-- SEARCH_LIST: a list reaches the owner; with the round's last the new nodes are known (R342, R345). -/
def execSearchList (id : Nat) (n : Word) (s : State) : Host.Outcome State Fault Refusal :=
  match s.query? id with
  | none => .next s
  | some q =>
    match q.msgs.find? fun m => match m with | .list r => r.node == n | _ => false with
    | some (.list r) =>
      let q := { q with msgs := q.msgs.erase (.list r), lists := q.lists ++ [r] }
      .next (s.putQuery (if q.lists.length = q.expand.length then q.scan else q))
    | _ => .next s

/-- SEARCH_EVAL: a node's home unit computes its distance and replies (R345, entry 20). -/
def execSearchEval (id : Nat) (n : Word) (s : State) : Host.Outcome State Fault Refusal :=
  match s.query? id with
  | none => .next s
  | some q =>
    if q.msgs.contains (.eval n) then
      let r := q.evaluate (Engine.start s q.unit q.ctx) n
      .next (r.2.s.putQuery (q.reply n (.eval n) (.dist r.1)))
    else .next s

/-- SEARCH_DIST: a distance reaches the owner; with the round's last the beam is updated (R342, R345). -/
def execSearchDist (id : Nat) (n : Word) (s : State) : Host.Outcome State Fault Refusal :=
  match s.query? id with
  | none => .next s
  | some q =>
    match q.msgs.find? fun m => match m with | .dist r => r.node == n | _ => false with
    | some (.dist r) =>
      let q := { q with msgs := q.msgs.erase (.dist r), dists := q.dists ++ [r] }
      .next (s.putQuery (if q.dists.length = q.fresh.length then q.insert else q))
    | _ => .next s

/-! ### Issue (R346) -/

/-- ANNQ: one query as a command of a copy queue (R346). -/
def execAnnq (w : StdWord) : State → Host.Outcome State Fault Refusal :=
  onceWord 0x1B0 w
    (fun g =>
      let x := g.first (g.executing w.c)
      let packet := x.1.runValue x.2 w.srcA.toNat 2
      let counter := x.1.runValue x.2 (specB w) 2
      { once := true, rights := true, mods := 15, dst := .unused, a := .field, b := .field, reads := runRegs w.srcA.toNat 2 ++ runRegs (specB w) 2
        illegal := !pairSpecOk g.head.regs w.srcA.toNat || !pairSpecOk g.head.regs (specB w) || !canonicalVa packet ||
          packet % 64 != 0 || !canonicalVa counter || counter % 8 != 0
        fn := fun _ _ _ _ _ => {} })
    (fun s g lanes =>
      s.issueCommand g 0x1B0 w (w.m % 4) (.annq (g.counterVa lanes w.srcA.toNat)) none (some (g.counterVa lanes (specB w)))
        (BitVec.ofNat 2 (w.m / 4)))

/-! ### The streamer's step -/

/-- COPY_PERFORM: the streamer performs the head command of a queue, or begins it where it is a COLL or an ANNQ, which go on
without the queue; an EQFENCE that heads every queue it stands in is done (R296-R301, R309, R347, entry 21). -/
def execCopyPerform (core bank q : Nat) (s : State) : Host.Outcome State Fault Refusal :=
  let l := (s.bank core bank).queues.getD q []
  match l with
  | [] => .next s
  | c :: _ =>
    match s.unit? c.unit with
    | none => .next (s.popQueue core bank q)
    | some u =>
      let fpm := ((s.context u.ctx).map (·.fpmode)).getD 0
      match c.kind with
      | .cpy d => .next ((s.popQueue core bank q).performCopy q u c (·.cpy d fpm))
      | .cpyg d => .next ((s.popQueue core bank q).performCopy q u c (·.cpyg d fpm))
      | .cpys d => .next ((s.popQueue core bank q).performCopy q u c (·.cpys d fpm))
      | .wbld src scr k =>
        .next ((s.popQueue core bank q).performCopy q u c (·.wbld src scr (wbldOfs k.toNat * 32) (wbldLen k.toNat * 32)))
      | .fence id => if fenceMet (s.bank core bank).queues id then .next (s.dropFence core bank id) else .next s
      | .coll d issued =>
        match c.begun, s.launch? u.die u.lslot with
        | false, some l => .next (s.collStart core bank u l c d issued)
        | _, _ => .next s
      | .annq _ =>
        let lead := l.takeWhile fun x => match x.kind with | .annq _ => true | _ => false
        match lead.find? (!·.begun) with
        | some x => match x.kind, s.unit? x.unit with
          | .annq packet, some u => .next (s.startQuery core bank q u x packet)
          | _, _ => .next s
        | none => .next s

end Sys2Proof.Machine
end

