-- ==== Sys2Proof/Machine/Check.lean ====
section
/-! DEFINITION. Checking a packet (R75-R89, R135, R406, R438, R439): everything it names is read once, every check that fails is
noted, and the least code noted is the one reported. -/

namespace Sys2Proof.Machine

/-! ### Reading -/

/-- What a packet names, as the device read it. -/
structure Tables where
  desc : List DWord
  attach : List (DWord × DWord)
  vectors : List DWord
  handlers : List HandlerEntry
  roots : List (List DWord)
  tasks : List (List DWord)
  seed : List DWord
  /-- codes noted while reading -/
  codes : List Nat
  deriving DecidableEq, Repr, Inhabited

/-- A canonical address of an alignment (R78). -/
def addrGood (a : DWord) (align : Nat) : Bool := a.toNat % align == 0 && canonicalVa a.toNat

/-- n words at an address of an alignment; else PKT_ADDRESS. -/
def State.readTable (s : State) (ctx : Nat) (a : DWord) (align n : Nat) : List DWord × List Nat :=
  if !addrGood a align then ([], [5])
  else match s.deviceWords ctx a.toNat n with
    | .ok ws => (ws, [])
    | .error _ => ([], [5])

/-- Cut a list into records of k words. -/
def records (k : Nat) : Nat → List DWord → List (List DWord)
  | 0, _ => []
  | n + 1, ws => if ws.isEmpty then [] else ws.take k :: records k n (ws.drop k)

/-- Two-word records as pairs. -/
def pairsOf (ws : List DWord) : List (DWord × DWord) := (records 2 ws.length ws).map fun r => (wordOf r 0, wordOf r 1)

/-- The counts of tables that a packet's words name. -/
def pktNroot (ws : List DWord) : Nat := wordBits (wordOf ws 10) 31 0
def pktHcount (ws : List DWord) : Nat := wordBits (wordOf ws 10) 59 48 + 1
def pktNtask (ws : List DWord) : Nat := wordBits (wordOf ws 8) 31 0
def pktPcap (ws : List DWord) : Nat := wordBits (wordOf ws 8) 63 32
def pktSeedLen (ws : List DWord) : Nat := wordBits (wordOf ws 10) 31 0

/-- The first byte of each 64 KiB page that n bytes at an address touch, after the first: a mapping cannot change within one (R248). -/
def pageStarts (a n : Nat) : List Nat :=
  let first := a / 65536 + 1
  (List.range ((a + n + 65535) / 65536 - first)).map fun i => (first + i) * 65536

/-- A task pool's storage must be there: it is looked at in its first byte and in every further page (R87, entry 23). -/
def State.poolCodes (s : State) (ctx : Nat) (ws : List DWord) : List Nat :=
  let a := wordOf ws 7
  if !addrGood a 64 then [5]
  else if pktPcap ws = 0 then []
  else
    let there := fun (va : Nat) => match s.deviceRead ctx (va % 2 ^ 64) 1 with
      | .ok _ => true
      | .error _ => false
    if (a.toNat :: pageStarts a.toNat (64 * pktPcap ws)).all there then [] else [5]

/-- Read everything a packet names (R79). -/
def State.readTables (s : State) (ctx : Nat) (ws : List DWord) : Tables :=
  let none' : List DWord × List Nat := ([], [])
  let desc := s.readTable ctx (wordOf ws 1) 64 8
  let attach := if pktAttn ws = 0 then none' else s.readTable ctx (wordOf ws 3) 16 (2 * pktAttn ws)
  let vt := ((s.context ctx).map (·.vectab)).getD 0
  let vectors := s.readTable ctx vt 1024 128
  let handlers := if pktKind ws = 2 then s.readTable ctx (wordOf ws 8) 16 (2 * pktHcount ws) else none'
  let roots := if pktKind ws = 2 then s.readTable ctx (wordOf ws 9) 64 (8 * pktNroot ws) else none'
  let tasks := if pktKind ws = 3 then s.readTable ctx (wordOf ws 6) 64 (8 * pktNtask ws) else none'
  let seed := if pktKind ws = 1 && wordOf ws 9 != 0 then s.readTable ctx (wordOf ws 9) 8 ((pktSeedLen ws + 7) / 8) else none'
  { desc := desc.1, attach := pairsOf attach.1, vectors := vectors.1,
    handlers := (pairsOf handlers.1).map fun p => ⟨p.1, p.2⟩, roots := records 8 roots.1.length roots.1,
    tasks := records 8 tasks.1.length tasks.1, seed := seed.1,
    codes := desc.2 ++ attach.2 ++ vectors.2 ++ handlers.2 ++ roots.2 ++ tasks.2 ++ seed.2 ++
      (if pktKind ws = 3 then s.poolCodes ctx ws else []) }

/-- A code, where its condition holds. -/
def flag (code : Nat) (b : Bool) : List Nat := if b then [code] else []

/-! ### Reserved-zero bits: PKT_RESERVED -/

/-- The first word of a kind's packet that is reserved-zero, to the end (R83-R87). -/
def bodyEnd (kind : Nat) : Nat :=
  match kind with
  | 0 => 9
  | 1 => 11
  | 2 => 12
  | _ => 10

/-- A frontier vector's 12 bits (R84). -/
def vecBits (ws : List DWord) (n : Nat) : Nat := wordBits (wordOf ws 7) (12 * n + 11) (12 * n)
def pktNvec (ws : List DWord) : Nat := wordBits (wordOf ws 7) 50 48

def packetReserved (ws : List DWord) : Bool :=
  let w := wordOf ws
  let shape := wordBits (w 8) 63 33 != 0
  wordBits (w 0) 7 5 != 0 || wordBits (w 0) 15 10 != 0 ||
  wordBits (w 5) 7 7 != 0 || wordBits (w 5) 15 13 != 0 || wordBits (w 5) 63 29 != 0 ||
  (ws.drop (bodyEnd (pktKind ws))).any (· != 0) ||
  match pktKind ws with
  | 0 => wordBits (w 7) 63 32 != 0 || shape
  | 1 => wordBits (w 6) 63 62 != 0 || wordBits (w 7) 63 51 != 0 || shape || wordBits (w 10) 63 32 != 0 ||
      [0, 1, 2, 3].any fun n => decide (pktNvec ws ≤ n) && vecBits ws n != 0
  | 2 => wordBits (w 10) 63 60 != 0 || wordBits (w 11) 63 59 != 0
  | _ => wordBits (w 9) 63 9 != 0

def descReserved (d : List DWord) : Bool :=
  let x := wordOf d 1
  x.getLsbD 7 || x.getLsbD 39 || wordBits x 63 48 != 0 || (d.drop 3).any (· != 0)

def attachReserved (b : DWord) : Bool :=
  wordBits b 15 3 != 0 || wordBits b 63 32 != 0 || (!b.getLsbD 2 && wordBits b 31 16 != 0)

def handlerReserved (h : HandlerEntry) : Bool :=
  wordBits h.word 63 53 != 0 || (!h.word.getLsbD 51 && (wordBits h.word 50 0 != 0 || h.word.getLsbD 52))

def rootReserved (r : List DWord) : Bool := wordBits (wordOf r 1) 63 48 != 0 || wordBits (wordOf r 3) 63 36 != 0

def taskReserved (r : List DWord) : Bool := [1, 2, 3].any fun n => wordOf r n != 0

def vectorsReserved (v : List DWord) : Bool := wordBits (wordOf v 0) 6 5 != 0 || wordBits (wordOf v 0) 63 8 != 0

def Tables.reserved (t : Tables) (ws : List DWord) : Bool :=
  packetReserved ws || descReserved t.desc || t.attach.any (fun a => attachReserved a.2) || t.handlers.any handlerReserved ||
  t.roots.any rootReserved || t.tasks.any taskReserved || vectorsReserved t.vectors

/-! ### Addresses: PKT_ADDRESS -/

/-- The causes raised in a slice (R419): the vector table's entries that are looked at (R406). -/
def sliceCauses : List Nat :=
  [0x01, 0x02, 0x03, 0x04, 0x05, 0x06, 0x07, 0x08, 0x09, 0x0A, 0x0B, 0x0C, 0x10, 0x11, 0x12, 0x13, 0x14, 0x15, 0x16, 0x17,
   0x30, 0x31, 0x32, 0x33, 0x34, 0x37, 0x40, 0x41, 0x42, 0x43, 0x44, 0x45, 0x50, 0x51, 0x52, 0x53, 0x54,
   0x60, 0x61, 0x62, 0x64, 0x65, 0x67, 0x68, 0x70, 0x71]

def Tables.badAddress (t : Tables) (ws : List DWord) : Bool :=
  let w := wordOf ws
  !addrGood (w 2) 64 ||
  (decide (pktKind ws < 2) && !addrGood (wordOf t.desc 0) 8) || !addrGood (wordOf t.desc 2) 1 ||
  (pktKind ws == 1 && !addrGood (w 9) 8) ||
  t.handlers.any (fun h => !addrGood h.entry 8) || t.tasks.any (fun r => !addrGood (wordOf r 0) 8) ||
  sliceCauses.any fun c => !addrGood (wordOf t.vectors c) 8

/-! ### Ranges: PKT_RANGE -/

/-- Lanes of a workgroup, 0 where a side is out of range (R83). -/
def shapeLanes (x : DWord) : Nat := wordBits x 10 0 * wordBits x 21 11 * wordBits x 32 22

def shapeBad (x : DWord) : Bool :=
  decide (wordBits x 10 0 > 1024 ∨ wordBits x 21 11 > 1024 ∨ wordBits x 32 22 > 1024 ∨ shapeLanes x = 0 ∨ shapeLanes x > 1024)

/-- KREMAP codes a kind does not permit (R81). -/
def kremapBad (x : DWord) : Bool :=
  let code := fun k => wordBits x (41 + 2 * k) (40 + 2 * k)
  code 0 != 0 || code 1 == 1 || code 1 == 3 || code 2 == 3 || code 3 == 3

/-- Home gangs of a unit of the packet (R82). -/
def pktGangs (ws : List DWord) : Nat := if pktKind ws < 2 then (shapeLanes (wordOf ws 8) + 31) / 32 else 1

def State.commonRange (s : State) (ws : List DWord) : Bool :=
  let first := pktChip0 ws
  let last := first + pktChips ws - 1
  decide (pktTickets ws = 0 ∨ pktChips ws = 0 ∨ pktChips ws > 64 ∨ pktAttn ws > 16 ∨ s.chip < first ∨ s.chip > last ∨ last ≥ 4608)

def State.descRange (s : State) (ws : List DWord) (d : List DWord) : Bool :=
  let x := wordOf d 1
  decide (wordBits x 5 0 = 0 ∨ wordBits x 5 0 > 32 ∨ wordBits x 16 8 > 256 ∨ wordBits x 23 17 > 64 ∨ wordBits x 28 24 > 16) ||
  kremapBad x || (s.place && !x.getLsbD 6) ||
  (if pktKind ws < 2 then decide (wordBits x 33 29 ≥ pktGangs ws) else wordOf d 0 != 0 || wordBits x 33 29 != 0)

def gridRange (ws : List DWord) : Bool :=
  shapeBad (wordOf ws 8) || decide (wordBits (wordOf ws 6) 31 0 * wordBits (wordOf ws 6) 63 32 * wordBits (wordOf ws 7) 31 0 > 2 ^ 48)

/-- Extents of a frontier (R84). -/
def pktRank (ws : List DWord) : Nat := wordBits (wordOf ws 6) 61 60
def pktXi (ws : List DWord) : Nat := wordBits (wordOf ws 6) 19 0
def pktXk (ws : List DWord) : Nat := wordBits (wordOf ws 6) 59 40
def pktLines (ws : List DWord) : Nat := (pktXi ws + 1) * (wordBits (wordOf ws 6) 39 20 + 1)

def frontierRange (ws : List DWord) : Bool :=
  shapeBad (wordOf ws 8) || decide (pktRank ws < 2 ∨ pktRank ws > 3 ∨ (pktRank ws = 2 ∧ pktXi ws ≠ 0) ∨ pktNvec ws > 4 ∨
    pktLines ws > 2 ^ 20 ∨ (wordOf ws 9 = 0 ∧ pktSeedLen ws ≠ 0))

/-- Whether a DOMAIN number is in use in the context (R85). -/
def State.domainUsed (s : State) (ctx num : Nat) : Bool :=
  s.launches.any fun l => l.ctx == ctx && l.kind == 2 && l.domainNo == num

/-- A root record's id, domain, serial and handler (R85, R135). R135 has SERIAL zero in root records and calls those bits no reserved-zero
bits: a nonzero one is out of range (DESIGN CHOICE, entry 23). -/
def rootRange (num : Nat) (hs : List HandlerEntry) (r : List DWord) : Bool :=
  let h := wordBits (wordOf r 1) 31 20
  wordBits (wordOf r 2) 47 0 != 0 || wordBits (wordOf r 2) 63 48 != num || wordBits (wordOf r 3) 35 0 != 0 ||
  (match hs[h]? with | some e => e.entry == 0 | none => true)

def State.domainRange (s : State) (ctx : Nat) (ws : List DWord) (t : Tables) : Bool :=
  let num := wordBits (wordOf ws 10) 47 32
  decide (wordBits (wordOf ws 11) 36 16 > 2 ^ 20 ∨ wordBits (wordOf ws 11) 45 37 > s.n ∨ (pktNroot ws = 0 ∧ wordOf ws 9 ≠ 0)) ||
  s.domainUsed ctx num || (!t.handlers.isEmpty && t.roots.any (rootRange num t.handlers))

def State.poolRange (s : State) (ws : List DWord) : Bool :=
  decide (pktPcap ws = 0 ∨ pktNtask ws > pktPcap ws ∨ wordBits (wordOf ws 9) 8 0 > s.n ∨ (pktNtask ws = 0 ∧ wordOf ws 6 ≠ 0))

def State.outOfRange (s : State) (ctx : Nat) (ws : List DWord) (t : Tables) : Bool :=
  s.commonRange ws || (!t.desc.isEmpty && s.descRange ws t.desc) ||
  match pktKind ws with
  | 0 => gridRange ws
  | 1 => frontierRange ws
  | 2 => s.domainRange ctx ws t
  | _ => s.poolRange ws

/-! ### Vectors: FRONTIER_BAD_VECTOR -/

def badVector (ws : List DWord) : Bool :=
  pktKind ws == 1 && (List.range (min (pktNvec ws) 4)).any fun n =>
    vecBits ws n == 0 || (pktRank ws == 2 && vecBits ws n / 256 != 0)

/-! ### Seeds: PKT_SEED (R438, R439) -/

/-- A suspended record: point id, image address, image length. -/
abbrev SuspRec := Nat × Nat × Nat

/-- A seed table's runs, suspended records and TURN. -/
structure Seed where
  runs : List (Nat × Nat × DWord)
  susp : List SuspRec
  turn : DWord
  deriving DecidableEq, Repr, Inhabited

def seedOf (ws : List DWord) : Seed :=
  let nruns := (wordOf ws 4).toNat
  let body := ws.drop 8
  { runs := (records 3 nruns body).map fun r => ((wordOf r 0).toNat, (wordOf r 1).toNat, wordOf r 2),
    susp := (records 4 (wordOf ws 5).toNat (body.drop (3 * nruns))).map fun r =>
      ((wordOf r 0).toNat, (wordOf r 1).toNat, (wordOf r 2).toNat),
    turn := wordOf ws 7 }

/-- The lines a seed's runs stand for. -/
def Seed.lines (x : Seed) : List (Nat × DWord) := x.runs.flatMap fun r => List.replicate r.1 (r.2.1, r.2.2)

/-- Whether a table of lines marks a point complete. -/
def linesDone (lines : List (Nat × DWord)) (xk id : Nat) : Bool :=
  match lines[id / (xk + 1)]? with
  | some e => let k := id % (xk + 1); decide (k < e.1) || e.2.getLsbD (k - e.1)
  | none => false

/-- The save that holds a suspended record's image, and the unit saved (R439, R440). -/
def Context.saved (c : Context) (x : SuspRec) : Option WorkUnit :=
  (c.saves.find? fun r => r.images.contains x).bind fun r => r.units.find? (·.unitId == x.1)

/-- Whether an image's header names the context and the entry (R428, R439). -/
def State.imageNamed (s : State) (ctx : Nat) (entry : DWord) (a : Nat) : Bool :=
  match s.deviceWords ctx a 3 with
  | .ok h => wordBits (wordOf h 0) 21 16 == ctx && wordOf h 2 == entry
  | .error _ => false

/-- The header of a seed table against its packet (R439). -/
def seedHeaderOk (ws seed : List DWord) : Bool :=
  let h := wordOf seed
  h 0 == 0xF0E1 && h 1 == wordOf ws 6 && h 2 == wordOf ws 7 && (h 3).toNat == pktLines ws &&
  decide (1 ≤ (h 4).toNat ∧ (h 4).toNat ≤ pktLines ws ∧ (h 5).toNat < 2 ^ 16 ∧
    (h 6).toNat = 64 + 24 * (h 4).toNat + 32 * (h 5).toNat ∧ (h 6).toNat = pktSeedLen ws ∧ (h 7).toNat < 2 ^ 40)

/-- Whether ids ascend without repeats. -/
def ascending : List Nat → Bool
  | a :: b :: t => decide (a < b) && ascending (b :: t)
  | _ => true

/-- A run record: LINES, P and W in range (R438, R439). -/
def runOk (xk : Nat) (r : Nat × Nat × DWord) : Bool :=
  decide (1 ≤ r.1 ∧ r.1 ≤ 2 ^ 20 ∧ r.2.1 ≤ xk + 1) && (maskList 64 r.2.2.toNat).all fun b => decide (r.2.1 + b ≤ xk)

/-- A seed table is valid (R439). -/
def State.seedOk (s : State) (ctx : Nat) (ws : List DWord) (t : Tables) : Bool :=
  let x := seedOf t.seed
  let xk := pktXk ws
  seedHeaderOk ws t.seed && (x.runs.map (·.1)).sum == pktLines ws && x.runs.all (runOk xk) && ascending (x.susp.map (·.1)) &&
  ((records 4 x.susp.length ((t.seed.drop 8).drop (3 * x.runs.length))).all fun r => wordOf r 3 == 0) &&
  x.susp.all fun r =>
    decide (r.1 < pktLines ws * (xk + 1) ∧ r.2.2 < 2 ^ 32) && !linesDone x.lines xk r.1 &&
    ((s.context ctx).bind (·.saved r)).isSome && s.imageNamed ctx (wordOf t.desc 0) r.2.1

def State.badSeed (s : State) (ctx : Nat) (ws : List DWord) (t : Tables) : Bool :=
  pktKind ws == 1 && wordOf ws 9 != 0 && !s.seedOk ctx ws t

/-! ### Fit and attach list: PKT_FIT, PKT_ATTACH -/

/-- R82 on an empty core. -/
def badFit (ws : List DWord) (d : List DWord) : Bool :=
  let x := wordOf d 1
  let gangs := pktGangs ws
  decide (gangs * 256 * wordBits x 5 0 > 131072 ∨ gangs > 32 ∨
    wordBits x 16 8 * 4096 + (if x.getLsbD 6 then 65536 else 0) > 0x100000 ∨ wordBits x 23 17 > 64 ∨ wordBits x 28 24 > 16 ∨
    1 + wordBits x 38 34 > 32)

/-- R88 and R78: PERWG in grids only, once, with every index below 2^16. -/
def badAttach (ws : List DWord) (t : Tables) : Bool :=
  let perwg := t.attach.filter fun a => a.2.getLsbD 1
  let units := wordBits (wordOf ws 6) 31 0 * wordBits (wordOf ws 6) 63 32 * wordBits (wordOf ws 7) 31 0
  (pktAttn ws == 0 && wordOf ws 3 != 0) || decide (perwg.length > 1) ||
  perwg.any fun a => pktKind ws != 0 || decide (wordBits a.1 15 0 + (units - 1) ≥ 2 ^ 16)

/-! ### The checks in order (R89) -/

/-- A launch kind's feature is negotiated (R89, R456). -/
def State.featureMissing (s : State) (ws : List DWord) : Bool :=
  !s.negotiated || (pktKind ws == 2 && !s.features.getLsbD 4) || (pktKind ws == 3 && !s.features.getLsbD 5) ||
  (decide (pktAttn ws > 0) && !s.features.getLsbD 6)

/-- What the checks of a packet come to: the tables read, or the least code that fails. -/
def State.checkPacket (s : State) (ctx : Nat) (ws : List DWord) : Except Nat Tables :=
  if pktKind ws ≥ 4 then .error 2
  else if s.featureMissing ws then .error 3
  else
    let t := s.readTables ctx ws
    let codes := t.codes ++ flag 4 (t.reserved ws) ++ flag 5 (t.badAddress ws) ++ flag 6 (s.outOfRange ctx ws t) ++
      flag 7 (badVector ws) ++ flag 8 (s.badSeed ctx ws t) ++ flag 9 (badFit ws t.desc) ++ flag 10 (badAttach ws t)
    match listMin codes with
    | some c => .error c
    | none => .ok t

end Sys2Proof.Machine
end

