-- ==== Sys2Proof/Machine/Take.lean ====
section
/-! DEFINITION. Taking packets (R92, R99, R105-R108): a launch's record from what its packet names, the read index, arbitration, and
the Cinch barrier of replicated launches. -/

namespace Sys2Proof.Machine

/-! ### A launch's start -/

/-- An event domain at its start: its root events inserted as batch 0 (R138). -/
def domainStart (ws : List DWord) (t : Tables) : Domain :=
  ({ (default : Domain) with
      number := wordBits (wordOf ws 10) 47 32, handlers := t.handlers, counter := 1, committed := true }).insertBatch
    (t.roots.map eventOf)

/-- A task record as a lane task (R87, R129). -/
def taskOf (i : Nat) (r : List DWord) : TaskRec :=
  { entry := wordOf r 0, number := i, pos := i,
    args := [4, 5, 6, 7].flatMap fun n => [(wordOf r n).extractLsb' 0 32, (wordOf r n).extractLsb' 32 32] }

/-- A task pool at its start. -/
def poolStart (ws : List DWord) (t : Tables) : Pool :=
  { tasks := t.tasks.mapIdx taskOf, cap := pktPcap ws, nextNumber := t.tasks.length, spawned := [], round := 0, roundGangs := 0,
    gangs := 0 }

/-- A line as restored: set bits at the window's bottom move into the prefix (R440). -/
def normalLine (e : Nat × DWord) : Nat × DWord := foldLine 64 e

/-- A frontier at its start: empty, or as its seed table says (R84, R440). -/
def frontierStart (ws : List DWord) (t : Tables) : Frontier :=
  if wordOf ws 9 = 0 then { lines := List.replicate (pktLines ws) (0, 0), dispatched := [], restoring := [], stopped := false, doneAt := none }
  else
    let x := seedOf t.seed
    { lines := x.lines.map normalLine, dispatched := x.susp.map (·.1), restoring := x.susp.map (·.1), stopped := false,
      doneAt := none }

/-- The launch of an accepted packet (R105); `serial` tells it from every other launch. -/
def launchStart (serial die slot queue : Nat) (index : DWord) (ctx : Nat) (ws : List DWord) (t : Tables) (cinch : Option Cinch) : Launch :=
  let kind := pktKind ws
  let l : Launch :=
    { (default : Launch) with
      serial := serial, die := die, slot := slot, queue := queue, index := index, ctx := ctx, words := ws, desc := t.desc, attach := t.attach,
      vectors := t.vectors, cinch := cinch,
      frontier := if kind = 1 then some (frontierStart ws t) else none,
      domain := if kind = 2 then some (domainStart ws t) else none,
      pool := if kind = 3 then some (poolStart ws t) else none }
  let turn := if kind = 1 ∧ wordOf ws 9 ≠ 0 then (seedOf t.seed).turn else 0
  { l with turn := l.turnFrom [] turn }

/-- The suspended workgroups that a seeded launch restores: they leave their saves, which then count as restored (R440). -/
def State.takeSaves (s : State) (die slot ctx : Nat) (susp : List SuspRec) : State :=
  match s.context ctx with
  | none => s
  | some c =>
    let uses := fun (r : SaveRec) => susp.any fun x => r.images.contains x
    let us := susp.filterMap c.saved
    let here := fun (u : WorkUnit) => { u with die := die, lslot := slot }
    let s := { s with units := s.units ++ us.map here }
    s.modifyContext ctx fun c => { c with saves := c.saves.filter (!uses ·) }

/-- The lowest free launch slot of a die (R99). -/
def State.freeSlot (s : State) (die : Nat) : Option Nat :=
  (List.range Config.launchSlots).find? fun n => (s.launch? die n).isNone

/-- Start an accepted packet in a launch slot. -/
def State.startLaunch (s : State) (die slot queue : Nat) (index : DWord) (ctx : Nat) (ws : List DWord) (t : Tables)
    (cinch : Option Cinch) : State :=
  let l := launchStart s.nextId die slot queue index ctx ws t cinch
  let s := (({ s with nextId := s.nextId + 1, launches := s.launches ++ [l] } : State).growRoom die slot).1
  if pktKind ws = 1 ∧ wordOf ws 9 ≠ 0 then s.takeSaves die slot ctx (seedOf t.seed).susp else s

/-! ### Taking a packet -/

/-- Where a packet comes from: a queue and the packet's index, or the replica intake with its generation. -/
structure Source where
  queue : Nat
  index : DWord
  ctx : Nat
  /-- a replica's Cinch generation -/
  generation : Option DWord
  deriving DecidableEq, Repr, Inhabited

/-- A generation of a die's count (R106). -/
def generationOf (chip die count : Nat) : DWord := BitVec.ofNat 64 (chip * 2 ^ 48 + die * 2 ^ 46 + count % 2 ^ 46)

/-- The Cinch state with which a launch starts: a replica's, the originator's, or none (R106, R107). -/
def State.cinchFor (s : State) (die : Nat) (x : Source) (ws : List DWord) : Option Cinch :=
  match x.generation with
  | some g => some { generation := g, originator := false, arrived := [], released := false, since := s.clock }
  | none =>
    if pktChips ws > 1 then
      some { generation := generationOf s.chip die (s.die die).cinchCount, originator := true, arrived := [s.chip],
             released := false, since := s.clock }
    else none

/-- The packet leaves its queue or the intake. -/
def State.passPacket (s : State) (die : Nat) (x : Source) : State :=
  match x.generation with
  | some g => s.modifyDie die fun d => { d with intake := d.intake.filter (·.1 != g) }
  | none => match s.queue? die x.queue with
    | some q => s.publish die x.queue (if q.rd ≤ x.index then x.index + 1 else q.rd)
    | none => s

/-- Whether a packet names a run of several chips with this one among them (R78, R106). -/
def State.namesRun (s : State) (ws : List DWord) : Bool :=
  decide (1 < pktChips ws ∧ pktChips ws ≤ 64 ∧ pktChip0 ws ≤ s.chip ∧ s.chip < pktChip0 ws + pktChips ws)

/-- A rejected packet: its completion record and, of the die's own queue, the queue fault with the check's code; the originator's refusal of
a packet for several chips is its run's (R89, R98, R108). The record goes where COMPL names, also where that is not 64-byte aligned: R89
writes it wherever COMPL names one (DESIGN CHOICE, entry 23). -/
def State.rejectPacket (s : State) (die : Nat) (x : Source) (ws : List DWord) (code : Nat) : State :=
  let s := s.rejectRecord die x.ctx ws x.index ⟨1, code, s.chip⟩
  if x.generation.isSome then s
  else if s.namesRun ws ∧ x.queue ≠ 0 then s.queueFault die x.queue 0x11 x.index s.chip
  else s.queueFault die x.queue code x.index 0

/-- The checks of a packet as its queue has it: queue 0 takes no launch (R455). -/
def State.checkFrom (s : State) (x : Source) (ws : List DWord) : Except Nat Tables :=
  if x.queue = 0 ∧ x.generation.isNone then .error 2 else s.checkPacket x.ctx ws

/-- Take a packet: a replicated one is sent on first (R106); it is checked, and starts a launch in the slot or is rejected. -/
def State.takePacket (s : State) (die slot : Nat) (x : Source) (ws : List DWord) : State :=
  let cinch := s.cinchFor die x ws
  let s := if x.generation.isNone ∧ cinch.isSome then s.modifyDie die fun d => { d with cinchCount := d.cinchCount + 1 } else s
  match s.checkFrom x ws with
  | .error code => (s.passPacket die x).rejectPacket die x ws code
  | .ok t => (s.startLaunch die slot x.queue x.index x.ctx ws t cinch).passPacket die x

/-- The source of a head taken from a queue or the intake. -/
def State.sourceOf (s : State) (die qn : Nat) : Option Source :=
  if qn = 4095 then
    ((s.die die).intake.head?).map fun p => { queue := 4095, index := 0, ctx := p.2.1, generation := some p.1 }
  else (s.queue? die qn).map fun q => { queue := qn, index := q.rd, ctx := q.ctx, generation := none }

/-- ARBITRATION: with a launch slot free and a head ready, one packet is taken by priority and lottery (R99). -/
def execArbitration (die : Nat) (s : State) : Host.Outcome State Fault Refusal :=
  match s.freeSlot die with
  | none => .next s
  | some slot =>
    let (s, heads) := s.pollAll die fun q => q.num != 0
    let heads := heads ++ (((s.die die).intake.head?).map fun p => (4095, p.2.2)).toList
    if heads.isEmpty then .next s
    else
      let xs := xorshift (s.die die).xs
      let s := s.modifyDie die fun d => { d with xs := xs }
      match lottery xs heads with
      | none => .next s
      | some (qn, ws) =>
        match s.sourceOf die qn with
        | none => .next s
        | some x => .next (s.takePacket die slot x ws)

/-! ### Replicas and the Cinch barrier (R106-R108) -/

/-- REPLICA_ARRIVAL: a replicated packet reaches the replica intake of die 0 and raises signal bit 3 (R104, R106). The bit is raised as a
packet comes in and not again while the intake stays non-empty (DESIGN CHOICE, entry 23). -/
def execReplicaArrival (generation : DWord) (context : Nat) (words : List DWord) (s : State) :
    Host.Outcome State Fault Refusal :=
  .next ((s.modifyDie 0 fun d => { d with intake := d.intake ++ [(generation, context, words)] }).signal 0 3)

/-- The chips of a launch's run (R78). -/
def Launch.run (l : Launch) : List Nat := (List.range l.chips).map (l.chip0 + ·)

/-- The launch of a run aborts on this chip, and its originating queue stops with QF_REPLICA (R108). -/
def State.failRun (s : State) (l : Launch) (st : AbortStatus) : State :=
  (s.abortLaunch l.die l.slot st (0, 0, 0)).queueFault l.die l.queue 0x11 l.index st.chip

/-- CINCH_ARRIVAL: a chip's arrival or refusal reaches the originator; 2^24 cycles after its own it is too late (R107, R108). -/
def execCinchArrival (die slot chip : Nat) (refusal : Option Byte) (s : State) : Host.Outcome State Fault Refusal :=
  let s := s.signal die 2
  match s.launch? die slot with
  | none => .next s
  | some l =>
    match l.cinch with
    | none => .next s
    | some c =>
      let late := decide (c.since + 2 ^ 24 ≤ s.clock)
      if !c.originator || c.released || l.abort.isSome || late || c.arrived.contains chip || !l.run.contains chip then .next s
      else match refusal with
        | some code => .next (s.failRun l ⟨1, code.toNat, chip⟩)
        | none => .next (s.modifyLaunch die slot fun l => { l with cinch := some { c with arrived := c.arrived ++ [chip] } })

/-- CINCH_RELEASE: the originator has every arrival, or its release reaches this chip as a Cinch message (R104, R107). -/
def execCinchRelease (die slot : Nat) (s : State) : Host.Outcome State Fault Refusal :=
  match s.launch? die slot with
  | none => .next (s.signal die 2)
  | some l =>
    match l.cinch with
    | none => .next (s.signal die 2)
    | some c =>
      let s := if c.originator then s else s.signal die 2
      if l.abort.isSome || (c.originator && !l.run.all c.arrived.contains) then .next s
      else .next (s.modifyLaunch die slot fun l => { l with cinch := some { c with released := true } })

/-- CINCH_TIMEOUT: not every arrival has come within 2^24 cycles of the originator's own (R108). -/
def execCinchTimeout (die slot : Nat) (s : State) : Host.Outcome State Fault Refusal :=
  match s.launch? die slot with
  | none => .next s
  | some l =>
    match l.cinch with
    | none => .next s
    | some c =>
      match l.run.find? (!c.arrived.contains ·) with
      | none => .next s
      | some chip =>
        if !c.originator || c.released || l.abort.isSome || decide (s.clock < c.since + 2 ^ 24) then .next s
        else .next (s.failRun l ⟨3, 0x11, chip⟩)

end Sys2Proof.Machine
end

