-- ==== Sys2Proof/Machine/SysCmd.lean ====
section
/-! DEFINITION. The system commands of queue 0 (R455-R460), SUSPEND_LAUNCH among them (R437). -/

namespace Sys2Proof.Machine

/-! ### Taking a command (R455, R456) -/

/-- Commands of the package, accepted on die 0 only. -/
def packageCommands : List Nat := [0x01, 0x02, 0x03, 0x04, 0x08, 0x09, 0x0A, 0x0B, 0x0C, 0x0D]

/-- Arguments a command names; none for a code that is no command. -/
def commandArgs (code : Nat) : Option Nat :=
  [(0x01, 9), (0x02, 1), (0x03, 1), (0x04, 2), (0x08, 5), (0x09, 1), (0x0A, 3), (0x0B, 3), (0x0C, 1), (0x0D, 2), (0x10, 2),
   (0x11, 1), (0x12, 1), (0x13, 1), (0x14, 1), (0x18, 4), (0x19, 1), (0x1C, 5)].lookup code

/-- Accepted before NEGOTIATE (R456). -/
def earlyCommand (code : Nat) : Bool := [0x01, 0x02, 0x04].contains code || decide (0x10 ≤ code ∧ code ≤ 0x19)

/-- A word argument. -/
def SysCommand.arg (c : SysCommand) (n : Nat) : DWord := wordOf c.args n

/-- Reserved-zero bits within the arguments of a command (R456, R437). -/
def argReserved (code : Nat) (a : Nat → DWord) : Bool :=
  match code with
  | 0x01 => wordBits (a 4) 63 27 != 0
  | 0x08 => wordBits (a 0) 63 19 != 0
  | 0x18 => wordBits (a 3) 63 32 != 0
  | 0x1C => wordBits (a 2) 63 1 != 0
  | _ => false

/-- The codes of a packet's failing checks, before the command's own (R455). -/
def State.commandCodes (s : State) (die : Nat) (ws : List DWord) : List Nat :=
  let w := wordOf ws
  let code := wordBits (w 6) 7 0
  let named := (commandArgs code).getD 9
  let a := fun n => w (7 + n)
  flag 2 (pktKind ws != 7) ++ flag 3 (!s.negotiated && !earlyCommand code) ++
  flag 4 (wordBits (w 0) 7 5 != 0 || wordBits (w 0) 15 10 != 0 || w 1 != 0 || w 3 != 0 || w 4 != 0 ||
    wordBits (w 5) 63 7 != 0 || wordBits (w 6) 63 8 != 0 || (ws.drop (7 + named)).any (· != 0) || argReserved code a) ++
  flag 5 (!addrGood (w 2) 64) ++
  flag 6 (pktTickets ws == 0 || pktChips ws != 1 || (commandArgs code).isNone || (packageCommands.contains code && die != 0))

/-- The record of a command: success carries its results (R455). -/
def State.commandDoneRecord (s : State) (die : Nat) (compl index : DWord) (res : List DWord) : State :=
  s.writeRecord die 0 compl index (statusWord ⟨0, 0, s.chip⟩) ((res ++ [0, 0, 0, 0, 0, 0, 0]).take 7)

/-- A failed command's record and queue fault record (R455). -/
def State.commandFailed (s : State) (die code : Nat) (compl index : DWord) : State :=
  (s.writeRecord die 0 compl index (statusWord ⟨1, code, s.chip⟩) [0, 0, 0, 0, 0, 0, 0]).queueFault die 0 code index 0

/-- SYSTEM_COMMAND_TAKE: queue 0's next valid packet, once the one before is done (R455, R457). -/
def execSystemCommandTake (die : Nat) (s : State) : Host.Outcome State Fault Refusal :=
  match (s.die die).running, s.queue? die 0 with
  | none, some q =>
    match s.pollQueue die q with
    | (s, none) => .next s
    | (s, some ws) =>
      let s := s.publish die 0 (q.rd + 1)
      match listMin (s.commandCodes die ws) with
      | some code => .next (s.commandFailed die code (wordOf ws 2) q.rd)
      | none =>
        let c : SysCommand := { code := wordBits (wordOf ws 6) 7 0, args := ws.drop 7, compl := wordOf ws 2, index := q.rd }
        .next (s.modifyDie die fun d => { d with running := some c })
  | _, _ => .next s

/-! ### Running a command -/

/-- What a command comes to. -/
inductive CmdResult where
  | done (s : State) (results : List DWord)
  | fail (code : Nat)
  | hold
  deriving DecidableEq, Repr

/-- The least code noted, or success. -/
def cmdCheck (codes : List Nat) (ok : CmdResult) : CmdResult :=
  match listMin codes with
  | some c => .fail c
  | none => ok

/-- Run the command of the die whose queue 0 took it; the record is written when it is done (R455, R457). -/
def State.sysRun (s : State) (code : Nat) (f : Nat → SysCommand → CmdResult) : Host.Outcome State Fault Refusal :=
  let die := s.curTack.1
  let idle := fun (s : State) => s.modifyDie die fun d => { d with running := none }
  match (s.die die).running with
  | none => .next s
  | some c =>
    if c.code ≠ code then .next s
    else match f die c with
      | .hold => .next s
      | .fail n => .next ((idle s).commandFailed die n c.compl c.index)
      | .done s' res => .next ((idle s').commandDoneRecord die c.compl c.index res)

/-- Whether a context number names a created context (R456). -/
def State.hasContext (s : State) (n : DWord) : Bool := s.contexts.any fun c => decide (c.num = n.toNat)

/-! ### Negotiation, manifest, attestation (R456, R458-R460) -/

/-- The supported vector (R458). -/
def supportedFeatures : BitVec 256 := 0x7F1

/-- NEGOTIATE. -/
def execNegotiate (s : State) : Host.Outcome State Fault Refusal :=
  s.sysRun 0x01 fun _ c =>
    let a4 := c.arg 4
    let chip := wordBits a4 12 0
    let n := wordBits a4 21 13
    let least := (listMin s.inService).getD 0
    let asked : BitVec 256 := (c.arg 3 ++ c.arg 2 ++ c.arg 1 ++ c.arg 0 : BitVec 256)
    let vec := (asked &&& supportedFeatures) ||| 1
    let seeds := [c.arg 5, c.arg 6, c.arg 7, c.arg 8]
    let seeded := fun (i : Nat) (d : Die) => { d with xs := if wordOf seeds i = 0 then 1 else wordOf seeds i }
    let s' := (s.rechip chip).writeBootTables.dropTlbs fun _ => true
    cmdCheck (flag 6 (s.negotiated || decide (chip ≥ 4608 ∨ n = 0 ∨ n % 4 ≠ 0 ∨ n > 4 * least)))
      (.done { s' with negotiated := true, features := vec, n := n, place := a4.getLsbD 22, fpmode := a4.extractLsb' 23 4,
                       seeds := seeds, dies := s'.dies.mapIdx seeded }
        [vec.extractLsb' 0 64, vec.extractLsb' 64 64, vec.extractLsb' 128 64, vec.extractLsb' 192 64])

/-- The manifest's 256 bytes (R459): fields 6 to 11 are zero before NEGOTIATE. -/
def State.manifest (s : State) : List Byte :=
  let image := fun n => s.flash.getD n default
  let svn := (listMin (s.flash.map fun i => i.svn.toNat)).getD 0
  let late := fun (bs : List Byte) => if s.negotiated then bs else List.replicate bs.length 0
  natLe 8 0x4D4E ++ natLe 8 svn ++ digestBytes (image 0).digest ++ digestBytes (image 1).digest ++ digestBytes (image 2).digest ++
  late (natLe 32 s.features.toNat ++ natLe 8 s.n ++ natLe 8 (if s.place then 1 else 0) ++ natLe 8 s.fpmode.toNat ++
    wordsBytes (s.seeds.take 4) ++ natLe 8 s.chip) ++
  digestBytes (Config.sha256 s.idKey) ++ natLe 16 0

/-- READ_MANIFEST. -/
def execReadManifest (s : State) : Host.Outcome State Fault Refusal :=
  s.sysRun 0x02 fun _ c =>
    match s.deviceWrite 0 (c.arg 0).toNat s.manifest with
    | .ok s' => .done s' []
    | .error _ => .fail 5

/-- Fields 1 to 12 of the manifest: offset and length (R459). -/
def manifestFields : List (Nat × Nat) :=
  [(0, 8), (8, 8), (16, 32), (48, 32), (80, 32), (112, 32), (144, 8), (152, 8), (160, 8), (168, 32), (200, 8), (208, 32)]

/-- The least field in which two manifests differ, 0 if none. -/
def manifestDiffers (a b : List Byte) : Nat :=
  match manifestFields.findIdx? fun f => (a.drop f.1).take f.2 != (b.drop f.1).take f.2 with
  | some i => i + 1
  | none => 0

/-- COMPARE_MANIFEST: a nonzero reserved byte gives PKT_RESERVED. -/
def execCompareManifest (s : State) : Host.Outcome State Fault Refusal :=
  s.sysRun 0x03 fun _ c =>
    match s.deviceRead 0 (c.arg 0).toNat 256 with
    | .error _ => .fail 5
    | .ok r => if (r.drop 240).any (· != 0) then .fail 4 else .done s [BitVec.ofNat 64 (manifestDiffers r s.manifest)]

/-- The report of ATTEST (R460). -/
def State.report (s : State) (nonce : List Byte) : List Byte :=
  let head := natLe 8 0x4154 ++ natLe 8 16096 ++ natLe 8 s.resets.toNat ++ natLe 40 0 ++ s.manifest ++ nonce ++
    fitBytes 32 s.idKey ++ fitBytes 7856 s.idCert
  head ++ fitBytes 7856 (Config.slhDsaSign (digestBytes (Config.sha256 head)))

/-- ATTEST. -/
def execAttest (s : State) : Host.Outcome State Fault Refusal :=
  s.sysRun 0x04 fun _ c =>
    match s.deviceRead 0 (c.arg 0).toNat 32 with
    | .error _ => .fail 5
    | .ok nonce =>
      match s.deviceWrite 0 (c.arg 1).toNat (s.report nonce) with
      | .ok s' => .done s' [16096]
      | .error _ => .fail 5

/-! ### Contexts and page tables (R456, R249, R252) -/

/-- CREATE_CONTEXT. -/
def execCreateContext (s : State) : Host.Outcome State Fault Refusal :=
  s.sysRun 0x08 fun _ c =>
    let a0 := c.arg 0
    let num := wordBits a0 5 0
    let fpm : BitVec 4 := if a0.getLsbD 18 then s.fpmode else a0.extractLsb' 14 4
    let x : Context :=
      { num := num, weight := wordBits a0 13 6, fpmode := fpm, root := (c.arg 1).toNat, vectab := c.arg 2, saveBase := c.arg 3,
        saveLen := (c.arg 4).toNat, saveUsed := [], step := 0, elided := 0, saves := [] }
    cmdCheck
      (flag 5 ((c.arg 1).toNat % 65536 != 0 || !inHbm (c.arg 1).toNat || inBootTables (c.arg 1).toNat || !addrGood (c.arg 2) 1024 || !addrGood (c.arg 3) 65536) ++
       flag 6 (num == 0 || s.contexts.any (·.num == num) || x.weight == 0 || (c.arg 4).toNat % 65536 != 0))
      (.done { s with contexts := s.contexts ++ [x] } [])

/-- Whether a context still has queues, launches or windows. -/
def State.contextUsed (s : State) (n : Nat) : Bool :=
  (s.dies.any fun d => d.queues.any (·.ctx == n) || d.windows.any (·.ctx == n)) || s.launches.any (·.ctx == n)

/-- A context goes, with its segments' records and the area they held, its TLB copies and its pages' hint records (R260, R264, R266). -/
def State.dropContext (s : State) (n : Nat) : State :=
  let mine := s.segments.filter (·.ctx == n)
  let s := mine.foldl (fun s x => match x.core with | some c => s.freeArea c x.offset x.size | none => s) s
  ({ s with contexts := s.contexts.filter (·.num != n), segments := s.segments.filter (·.ctx != n) }.dropTlbs (·.ctx == n)).pruneHints

/-- DESTROY_CONTEXT. -/
def execDestroyContext (s : State) : Host.Outcome State Fault Refusal :=
  s.sysRun 0x09 fun _ c =>
    let n := (c.arg 0).toNat
    cmdCheck (flag 6 (!s.hasContext (c.arg 0) || s.contextUsed n))
      (.done (s.dropContext n) [])

/-- Whether a local address lies in a table page that a context's walks use at a level. -/
def State.serves (s : State) (ctx a level : Nat) : Bool := (s.tableLevels ctx).contains (a / 65536 * 65536, level)

/-- PT_UPDATE: the entry is written, no TLB copy of it or of a walk through it is left (R457), and free frames are counted again (R259). An
entry of context 0's table, or one that names its pages, is refused (R454). -/
def execPtUpdate (s : State) : Host.Outcome State Fault Refusal :=
  s.sysRun 0x0A fun _ c =>
    let a := (c.arg 1).toNat
    let pa := s.fab a
    let e := (c.arg 2).toNat
    let named : MapEntry := ⟨(c.arg 0).toNat, 3, if bitOf e 1 ∧ s.serves (c.arg 0).toNat a 2 then 29 else 16, pa, e⟩
    cmdCheck (flag 5 (a % 8 != 0 || !inHbm a || inBootTables a) ++
        flag 6 (!s.hasContext (c.arg 0) || !s.entryOk (c.arg 0).toNat a e || (bitOf e 0 && s.namesOwn named && named.meetsBoot)))
      (.done (((s.storeAll 0 [(pa, natLe 8 e)]).dropTlbs fun _ => true).pruneHints.recountFrames) [BitVec.ofNat 64 (s.natAt pa 8)])

/-- PT_INVALIDATE: the TLB copies of the context's pages that meet the stretch are gone; of all its pages, where the length is 0 (R252, R456).
Free frames are counted again (R259). -/
def execPtInvalidate (s : State) : Host.Outcome State Fault Refusal :=
  s.sysRun 0x0B fun _ c =>
    let va := (c.arg 1).toNat
    let n := (c.arg 2).toNat
    let meets := fun (e : TlbEntry) => decide (e.ctx = (c.arg 0).toNat ∧ (n = 0 ∨ (e.va < va + n ∧ va < e.va + 2 ^ e.leaf.logSize)))
    cmdCheck (flag 5 (!canonicalVa va) ++ flag 6 (!s.hasContext (c.arg 0))) (.done (s.dropTlbs meets).pruneHints.recountFrames [])

/-- READ_COUNTERS. -/
def execReadCounters (s : State) : Host.Outcome State Fault Refusal :=
  s.sysRun 0x0C fun _ c =>
    match s.context (c.arg 0).toNat with
    | none => .fail 6
    | some x => .done s [x.elided, s.corrected, s.uncorrected, BitVec.ofNat 64 (s.dies.map (·.strayWakes)).sum]

/-- A save's images are freed, and the attachments its workgroups hold are released (R440). -/
def State.dropSave (s : State) (ctx : Nat) (r : SaveRec) : State :=
  let s := s.modifyContext ctx fun c => { c with saves := c.saves.erase r }
  r.units.foldl (init := s) fun s u =>
    u.segs.foldl (init := s.freeSave ctx u.image) fun s n => s.releaseOne u.uid ctx { name := n, drop := false, commands := [], matrix := 0 }

/-- DISCARD_SAVE. -/
def execDiscardSave (s : State) : Host.Outcome State Fault Refusal :=
  s.sysRun 0x0D fun _ c =>
    let save := (s.context (c.arg 0).toNat).bind fun x => x.saves.find? (·.addr == c.arg 1)
    cmdCheck (flag 5 (!canonicalVa (c.arg 1).toNat) ++ flag 6 save.isNone)
      (match save with
       | some r => .done ((s.dropSave (c.arg 0).toNat r).acquireAll) []
       | none => .fail 6)

/-! ### Queues (R90, R456) -/

/-- The queue a descriptor describes, if it keeps to R90 and names a created context other than 0. -/
def State.queueOf (s : State) (num : Nat) (ws : List DWord) : Option Queue :=
  let w := wordOf ws
  let logsz := wordBits (w 1) 4 0
  let ctx := wordBits (w 1) 10 5
  if addrGood (w 0) 4096 && decide (1 ≤ logsz ∧ logsz ≤ 20) && wordBits (w 1) 63 11 == 0 && addrGood (w 2) 8 && addrGood (w 3) 64 &&
      (ws.drop 4).all (· == 0) && ctx != 0 && s.contexts.any (·.num == ctx) then
    some { num := num, base := w 0, logsz := logsz, ctx := ctx, rdptr := w 2, faultrec := w 3, rd := 0, tail := 0,
           stopped := false, crcReads := 0, crcDue := 0 }
  else none

/-- CREATE_QUEUE. -/
def execCreateQueue (s : State) : Host.Outcome State Fault Refusal :=
  s.sysRun 0x10 fun die c =>
    let num := (c.arg 0).toNat
    match s.deviceWords 0 (c.arg 1).toNat 8 with
    | .error _ => .fail 5
    | .ok ws =>
      match s.queueOf num ws with
      | some q =>
        cmdCheck (flag 6 (decide (num = 0 ∨ num > 4094) || (s.queue? die num).isSome))
          (.done (s.modifyDie die fun d => { d with queues := d.queues ++ [q] }) [])
      | none => .fail 6

/-- DESTROY_QUEUE: queue 0 stays (entry 24). -/
def execDestroyQueue (s : State) : Host.Outcome State Fault Refusal :=
  s.sysRun 0x11 fun die c =>
    let num := (c.arg 0).toNat
    let runs := s.launches.any fun l => l.die == die && l.queue == num
    cmdCheck (flag 6 (num == 0 || (s.queue? die num).isNone || runs))
      (.done (s.modifyDie die fun d => { d with queues := d.queues.filter (·.num != num) }) [])

/-- RESUME_QUEUE: the queue takes up again at its read index (R98). -/
def execResumeQueue (s : State) : Host.Outcome State Fault Refusal :=
  s.sysRun 0x12 fun die c =>
    let num := (c.arg 0).toNat
    cmdCheck (flag 6 (num == 0 || !(s.queue? die num).any (·.stopped)))
      (.done (s.modifyQueue die num fun q => { q with stopped := false, crcReads := 0 }) [])

/-- SET_SHARED: waits until no launch runs on the die (R255, R457). -/
def execSetShared (s : State) : Host.Outcome State Fault Refusal :=
  s.sysRun 0x13 fun die c =>
    let k := (c.arg 0).toNat
    if k > 12 then .fail 6
    else if s.launches.any (·.die == die) then .hold
    else .done (s.modifyDie die fun d => { d with shared := k }) []

/-- 64 KiB frames of a die's HBM: three stacks of 64 GiB (R9). -/
def dieFrames : Nat := 3 * 2 ^ 20

/-- SET_LOWWATER: the mark stands against the free frames as last counted (R259). -/
def execSetLowwater (s : State) : Host.Outcome State Fault Refusal :=
  s.sysRun 0x14 fun die c =>
    cmdCheck (flag 6 (decide ((c.arg 0).toNat > dieFrames))) (.done (s.modifyDie die fun d => { d with lowWater := (c.arg 0).toNat }).setEvicting [])

/-! ### Windows (R110) -/

/-- The lowest window number not in use on a port. -/
def freeWindow (ws : List Window) : Nat := ((List.range 4097).find? fun n => ws.all (·.num != n)).getD 4096

/-- WINDOW_ADD. -/
def execWindowAdd (s : State) : Host.Outcome State Fault Refusal :=
  s.sysRun 0x18 fun die c =>
    let ws := (s.die die).windows
    let len := (c.arg 2).toNat
    let w : Window := { num := freeWindow ws, ctx := (c.arg 0).toNat, va := c.arg 1, len := len, key := (c.arg 3).setWidth 32 }
    cmdCheck
      (flag 5 (!addrGood (c.arg 1) 65536) ++
       flag 6 (!s.hasContext (c.arg 0) || decide (len < 65536 ∨ len > 2 ^ 40 ∨ len % 65536 ≠ 0 ∨ ws.length ≥ 4096 ∨
         (ws.filter (·.ctx == w.ctx)).length ≥ 256)))
      (.done (s.modifyDie die fun d => { d with windows := d.windows ++ [w] }) [BitVec.ofNat 64 w.num])

/-- WINDOW_REMOVE. -/
def execWindowRemove (s : State) : Host.Outcome State Fault Refusal :=
  s.sysRun 0x19 fun die c =>
    let num := (c.arg 0).toNat
    cmdCheck (flag 6 (!(s.die die).windows.any (·.num == num)))
      (.done (s.modifyDie die fun d => { d with windows := d.windows.filter (·.num != num) }) [])

/-! ### SUSPEND_LAUNCH (R437) -/

/-- Points dispatched and not complete. -/
def Launch.inFlight (l : Launch) : Nat := ((l.frontier.map (·.dispatched)).getD []).length

/-- A running frontier launch by queue and packet index. -/
def State.suspendable (s : State) (die : Nat) (queue index : DWord) : Option Launch :=
  s.launches.find? fun l =>
    l.die == die && decide (l.queue = queue.toNat) && l.index == index && l.kind == 1 && l.abort.isNone && l.ended.isNone &&
    l.suspend.isNone && l.cinch.all (·.released)

/-- Under SPILL a workgroup that still waits to start is withdrawn, and one that stands in the save area already is suspended as it
is (R437). -/
def State.withdraw (s : State) (l : Launch) (save : DWord) : State :=
  let mine := (s.units.filter fun u => u.die == l.die && u.lslot == l.slot)
  let waiting := mine.filter (·.residence == .waiting)
  let ids := waiting.map (·.unitId)
  let recs := (mine.filter (·.residence == .spilled)).flatMap fun u => s.suspRecord u.uid
  let drop := fun (s : State) (u : WorkUnit) => { s.freeUnit u with units := s.units.filter (·.uid != u.uid) }
  let s := waiting.foldl drop s
  let gone := (mine.filter (·.residence == .spilled)).map (·.uid)
  let leave := fun (c : Core) => { c with waiting := c.waiting.filter (!gone.contains ·) }
  let s := { s with cores := s.cores.map leave }
  s.modifyLaunch l.die l.slot fun l =>
    { l with
      suspend := some { spill := true, save := save, images := recs }
      frontier := l.frontier.map fun f => { f with dispatched := f.dispatched.filter (!ids.contains ·) } }

/-- SUSPEND_LAUNCH: once accepted, the walker stops; the points settle, and the save is written as the launch retires (R437). -/
def execSuspendLaunch (s : State) : Host.Outcome State Fault Refusal :=
  s.sysRun 0x1C fun die c =>
    let spill := (c.arg 2).getLsbD 0
    match s.suspendable die (c.arg 0) (c.arg 1) with
    | none => cmdCheck (flag 5 (!addrGood (c.arg 3) 8)) (.fail 6)
    | some l =>
      let lines := ((l.frontier.map (·.lines)).getD []).length
      let stop := fun (f : Frontier) => { f with stopped := true }
      let s' := s.modifyLaunch die l.slot fun l =>
        { l with frontier := l.frontier.map stop, suspend := some { spill := spill, save := c.arg 3, images := [] } }
      cmdCheck (flag 5 (!addrGood (c.arg 3) 8) ++ flag 6 (decide ((c.arg 4).toNat < 64 + 24 * lines + 32 * l.inFlight)))
        (.done (if spill then s'.withdraw l (c.arg 3) else s') [])

end Sys2Proof.Machine
end

