-- ==== Sys2Proof/Machine/Turn.lean ====
section
/-! DEFINITION. Whose turn it is (entry 2): what one step does with the schedule's next turn: a device step, the next word or
clause of an issue gang, or a Tack core's next instruction. -/

namespace Sys2Proof.Machine

/-- What a step comes to. -/
inductive Chosen where
  /-- a next state that no instruction gives -/
  | state (s : State)
  /-- an instruction, to run at a state -/
  | run (i : Instr) (s : State)
  | fault (f : Fault)
  | refuse (r : Refusal)
  deriving DecidableEq, Repr

/-- Whether an issue gang may issue at its turn: its unit resident in the active bank with its attachments acquired, issue not
stopped, no bank swap under way or due, its pipeline not in another gang's clause, no slice parked, held, or waiting for what others do
(R88, R164, R420-R422, R461). -/
def State.mayIssue (s : State) (g : Gang) : Bool :=
  !s.thermalStopped && (s.core g.u.core).active == g.u.bank && g.u.attaches.isEmpty && !s.swapping g.u.core && !s.pipeBusy g &&
  g.ps.all fun p =>
    let sl := g.u.slice p
    !sl.parked && !g.u.sliceHeld sl && (sl.wait == .none || sl.wait == .done || sl.wait == .again)

/-- A word's charge, once: a word issued again at its place is not charged again (R433). -/
def State.chargeWord (s : State) (g : Gang) : State := if g.head.wait = .none then s.charge g else s

/-- An issue gang's turn: what it has to report first, the start of its clause, or the word at its PC, which stalls while a counter it
would raise is full (R26). -/
def State.gangTurn (s : State) (g : Gang) : Chosen :=
  if !s.mayIssue g then .state s
  else match g.loadError, g.u.firstFault with
    | some (e, ps), _ => .state (s.reportLoad g e ps)
    | none, some f => if g.head.clause.isSome then .state (s.reportAttach g f) else .run (.clauseStart g.ref) s
    | none, none =>
      if g.head.clause.isNone then .run (.clauseStart g.ref) s
      else match g.fetchWord s with
        | .error t => .state (s.enterTrap g t)
        | .ok (w, lit) =>
          if g.stalled w then .state s
          else
            let t := (s.issueWord g lit.isSome).chargeWord g
            match decode (.belga w lit) with
            | .ok i => if s.remoteHeld g i then .state s else .run i t
            | .error e => .state (t.rawFault g w (g.rawCause s e))

/-- A Tack core of a die. -/
def State.tack (s : State) (die core : Nat) : TackCore := listAt (s.die die).tacks core

def State.modifyTack (s : State) (die core : Nat) (f : TackCore → TackCore) : State :=
  s.modifyDie die fun d => { d with tacks := listModify d.tacks core f }

/-- A trap of a Tack core into machine mode: the RISC-V family's entry (entry 8): the cause, the instruction's address, the old mode
in MPP, the interrupt enable saved and cleared, and the pc at the vector base. -/
def TackCore.trap (t : TackCore) (cause : Nat) : TackCore :=
  let mpp : DWord := match t.mode with | .machine => 3 | .supervisor => 1 | .user => 0
  let mie : DWord := (t.mstatus >>> 3) &&& 1
  { t with
    mcause := BitVec.ofNat 64 cause, mepc := t.pc, mtval := 0, mode := .machine, waiting := none,
    mstatus := (t.mstatus &&& ~~~(0x1888 : DWord)) ||| (mie <<< 7) ||| (mpp <<< 11), pc := t.mtvec &&& ~~~(3 : DWord) }

/-- An interrupt of a Tack core: taken in the modes below machine mode, and in machine mode while mstatus enables it (PRESUMED the RISC-V
family's, entry 8). A SIGWAIT under way ends with its pending signals unchanged and mepc at it (R104). -/
def TackCore.interrupt (t : TackCore) (cause : Nat) : TackCore :=
  if t.mode = .machine ∧ t.mstatus.getLsbD 3 = false then t else t.trap (2 ^ 63 + cause % 2 ^ 63)

/-- The 32-bit word at an address of a die's instruction store, where all its bytes are listed. -/
def Die.word (d : Die) (a : Nat) : Option Word :=
  let bs := (List.range 4).filterMap fun k => d.firmware.lookup (a + k)
  if bs.length = 4 then some (BitVec.ofNat 32 (leNat bs)) else none

/-- A Tack core's turn: the instruction at its pc (R100, R101). -/
def State.tackTurn (s : State) (die core : Nat) : Chosen :=
  let t := s.tack die core
  match (s.die die).word t.pc.toNat with
  | none => .fault (.tackFetch die core)
  | some w =>
    let s := { s with curTack := (die, core) }
    match decode (.tack w) with
    | .ok i => .run i s
    | .error .illegalTack => .state (s.modifyTack die core fun t => t.trap 2)
    | .error _ => .refuse (.baseInstruction w)

/-- The schedule is empty: a package that has not booted boots, else a cycle passes. -/
def State.idle (s : State) : Chosen :=
  if !s.booted && !s.bootFailed then .run .reset s else .state { s with clock := s.clock + 1 }

/-- What the schedule's next turn comes to. -/
def State.turn (s : State) : Turn → Chosen
  | .event i => .run i s
  | .system die i => .run i { s with curTack := (die, 0) }
  | .gang ref =>
    match s.gangOf ref with
    | some g => { s with cur := ref, via := some g.u.core }.gangTurn g
    | none => .state s
  | .tack die core => s.tackTurn die core
  | .interrupt die core cause => .state (s.modifyTack die core fun t => t.interrupt cause)
  | .walk core ctx va => .state (s.startWalk core ctx va)
  | .fill die => .state (s.endWalk die)
  | .corrected die place => .state (s.correctError die place)

/-- What comes about of itself before a turn: releases that are due (R289), commands whose queue has room again (R290), and since when
units wait for a segment elsewhere (R122). -/
def State.settle (s : State) : State := { s.settleAllReleases.requeueAll.noteWaits with via := none }

/-- What a step comes to: first what comes about of itself, then the turn. -/
def State.choose (s : State) : Chosen :=
  let s := s.settle
  match s.agenda with
  | [] => s.idle
  | (d, t) :: rest => { s with clock := s.clock + d, agenda := rest }.turn t

end Sys2Proof.Machine
end

