-- ==== Sys2Proof/Machine/Tack.lean ====
section
/-! DEFINITION. The Xdreox instructions of the Tack cores (R100-R105). -/

namespace Sys2Proof.Machine

/-- A register of a Tack core: x0 reads as zero. -/
def TackCore.getX (t : TackCore) (n : BitVec 5) : DWord := if n = 0 then 0 else sparseGet 0 t.x n.toNat

/-- Write a register: x0 discards (R101). -/
def TackCore.setX (t : TackCore) (n : BitVec 5) (v : DWord) : TackCore :=
  if n = 0 then t else { t with x := sparseSet 0 t.x n.toNat v }

/-- The result of an instruction: rd is written and the pc goes on. -/
def TackCore.done (t : TackCore) (rd : BitVec 5) (v : DWord) : TackCore :=
  { t.setX rd v with pc := t.pc + 4, waiting := none }

/-- The Tack core whose turn it is. -/
def State.curCore (s : State) : TackCore := s.tack s.curTack.1 s.curTack.2

/-- It takes a step of its own. -/
def State.tackStep (s : State) (f : TackCore → TackCore) : State := s.modifyTack s.curTack.1 s.curTack.2 f

/-- Run an Xdreox instruction: illegal outside machine mode (R100). -/
def State.xdreox (s : State) (run : State → TackCore → State) : Host.Outcome State Fault Refusal :=
  let t := s.curCore
  if t.mode = .machine then .next (run s t) else .next (s.tackStep fun t => t.trap 2)

/-! ### RFETCH (R102) -/

/-- What a fetch finds: the result, and the words read where it read them. -/
def fetched (ws : List DWord) (valid : Bool) : Nat :=
  if !valid then 0 else if pktChk ws && !pktCrcOk ws then 2 else 1

/-- Put a packet into a buffer entry. -/
def State.fillEntry (s : State) (die ent : Nat) (e : PacketEntry) : State :=
  s.modifyDie die fun d => { d with buffer := sparsePut d.buffer ent e }

/-- The free words read where the intake holds no packet (entry 1). -/
def freeWords (k n : Nat) : List DWord := (List.range n).map fun i => Config.freeValue (k + i)

/-- RFETCH of the replica intake: its first packet, valid where there is one. It stays there until DISPATCH or an arbitration takes it
(DESIGN CHOICE, entry 23). -/
def State.fetchIntake (s : State) (die ent : Nat) (rd : BitVec 5) (index : DWord) : State :=
  match (s.die die).intake.head? with
  | some p =>
    let r := fetched p.2.2 true
    let e : PacketEntry :=
      { words := p.2.2, filled := r == 1, dispatched := false, queue := 4095, index := index, ctx := p.2.1, generation := some p.1 }
    (s.fillEntry die ent e).tackStep fun t => t.done rd (BitVec.ofNat 64 r)
  | none =>
    let (k, s) := s.drawFree 16
    let e : PacketEntry :=
      { words := freeWords k 16, filled := false, dispatched := false, queue := 4095, index := index, ctx := 0, generation := none }
    (s.fillEntry die ent e).tackStep fun t => t.done rd 0

/-- RFETCH of a queue's slot. -/
def State.fetchQueue (s : State) (die ent : Nat) (q : Queue) (rd : BitVec 5) (index : DWord) : State :=
  match s.readSlot q index with
  | .error _ => s.tackStep fun t => t.done rd 4
  | .ok ws =>
    let r := fetched ws ((wordOf ws 0).getLsbD 0 == q.gen index)
    let e : PacketEntry :=
      { words := ws, filled := r == 1, dispatched := false, queue := q.num, index := index, ctx := q.ctx, generation := none }
    ((s.countRead q.ctx (q.slotAddr index) 128).fillEntry die ent e).tackStep fun t => t.done rd (BitVec.ofNat 64 r)

/-- RFETCH: reads a slot into a packet buffer entry (R102). -/
def execRfetch (rd rs1 rs2 : BitVec 5) (s : State) : Host.Outcome State Fault Refusal :=
  s.xdreox fun s t =>
    let x := t.getX rs1
    let die := s.curTack.1
    let qn := wordBits x 11 0
    let ent := wordBits x 17 12
    if wordBits x 63 18 ≠ 0 then s.tackStep fun t => t.trap 24
    else if qn = 4095 then s.fetchIntake die ent rd (t.getX rs2)
    else match s.queue? die qn with
      | none => s.tackStep fun t => t.trap 24
      | some q => s.fetchQueue die ent q rd (t.getX rs2)

/-! ### BFEX (R103) -/

/-- BFEX: a bit field of rs1, zero-extended. -/
def execBfex (rd rs1 rs2 : BitVec 5) (s : State) : Host.Outcome State Fault Refusal :=
  s.xdreox fun s t =>
    let x := t.getX rs2
    let lo := wordBits x 5 0
    let w := wordBits x 12 6
    if wordBits x 63 13 ≠ 0 ∨ w = 0 ∨ lo + w > 64 then s.tackStep fun t => t.trap 25
    else s.tackStep fun t => t.done rd (BitVec.ofNat 64 (wordBits (t.getX rs1) (lo + w - 1) lo))

/-! ### SIGWAIT (R104) -/

/-- SIGWAIT: the wait ends with the signals of the mask that are pending, which it clears; else it goes on at its place. -/
def execSigwait (rd rs1 _rs2 : BitVec 5) (s : State) : Host.Outcome State Fault Refusal :=
  s.xdreox fun s t =>
    let mask := t.getX rs1
    if mask = 0 ∨ wordBits mask 63 5 ≠ 0 then s.tackStep fun t => t.trap 26
    else
      let got := t.pending &&& mask
      if got = 0 then s.tackStep fun t => { t with waiting := some (t.waiting.getD s.clock) }
      else s.tackStep fun t => { t.done rd got with pending := t.pending &&& ~~~got }

/-- The SIGWAIT at a core's pc, while it waits there: its rd, mask and limit. -/
def State.waitingAt (s : State) (die core : Nat) : Option (BitVec 5 × DWord × DWord) :=
  let t := s.tack die core
  if t.waiting.isNone then none
  else match ((s.die die).word t.pc.toNat).map fun w => decode (.tack w) with
    | some (.ok (.sigwait rd rs1 rs2)) => some (rd, t.getX rs1, t.getX rs2)
    | _ => none

/-- SIGWAIT_TIMEOUT: the cycles of rs2 have passed with no signal of the mask: rd is 0 (R104). -/
def execSigwaitTimeout (die core : Nat) (s : State) : Host.Outcome State Fault Refusal :=
  match s.waitingAt die core with
  | none => .next s
  | some (rd, mask, limit) =>
    let t := s.tack die core
    if limit = 0 ∨ t.pending &&& mask ≠ 0 ∨ s.clock < t.waiting.getD s.clock + limit.toNat then .next s
    else .next (s.modifyTack die core fun t => t.done rd 0)

/-! ### DISPATCH (R105) -/

/-- A buffer entry that no RFETCH has filled. -/
def emptyEntry : PacketEntry :=
  { words := [], filled := false, dispatched := false, queue := 0, index := 0, ctx := 0, generation := none }

/-- A buffer entry's source: a replica keeps the generation and context with which it arrived. -/
def PacketEntry.source (e : PacketEntry) : Source :=
  { queue := e.queue, index := if e.queue = 4095 then 0 else e.index, ctx := e.ctx, generation := e.generation }

/-- DISPATCH: hands a buffer entry to the dispatcher as a launch; with no slot free it stalls, then it writes the slot number (R105). The
packet is taken and checked as an arbitration takes it, and the slot of one that is rejected stays free (entry 23). -/
def execDispatch (rd rs1 : BitVec 5) (s : State) : Host.Outcome State Fault Refusal :=
  s.xdreox fun s t =>
    let x := t.getX rs1
    let die := s.curTack.1
    let ent := wordBits x 5 0
    let e := sparseGet emptyEntry (s.die die).buffer ent
    if wordBits x 63 6 ≠ 0 ∨ !e.filled ∨ e.dispatched then s.tackStep fun t => t.trap 27
    else match s.freeSlot die with
      | none => s
      | some slot =>
        let s := (s.fillEntry die ent { e with dispatched := true }).takePacket die slot e.source e.words
        s.tackStep fun t => t.done rd (BitVec.ofNat 64 slot)

end Sys2Proof.Machine
end

