-- ==== Sys2Proof/Machine/Dispatch.lean ====
section
/-! DEFINITION. Dispatch: one arm for each constructor of Instr, one direct call of its meaning. -/

namespace Sys2Proof.Machine

def exec (i : Instr) (s : State) : Host.Outcome State Fault Refusal :=
  match i with
  | .tailStore die queue value => Sys2Proof.Machine.execTailStore die queue value s
  | .tailLoad die queue => Sys2Proof.Machine.execTailLoad die queue s
  | .readIndexLoad die queue => Sys2Proof.Machine.execReadIndexLoad die queue s
  | .wakeOtherAccess a => Sys2Proof.Machine.execWakeOtherAccess a s
  | .rmaWrite m => Sys2Proof.Machine.execRmaWrite m s
  | .rmaRead m => Sys2Proof.Machine.execRmaRead m s
  | .unsupportedRequest port => Sys2Proof.Machine.execUnsupportedRequest port s
  | .rereadTick die => Sys2Proof.Machine.execRereadTick die s
  | .crcReread die queue => Sys2Proof.Machine.execCrcReread die queue s
  | .arbitration die => Sys2Proof.Machine.execArbitration die s
  | .systemCommandTake die => Sys2Proof.Machine.execSystemCommandTake die s
  | .replicaArrival generation context words => Sys2Proof.Machine.execReplicaArrival generation context words s
  | .cinchArrival die slot chip refusal => Sys2Proof.Machine.execCinchArrival die slot chip refusal s
  | .cinchRelease die slot => Sys2Proof.Machine.execCinchRelease die slot s
  | .cinchTimeout die slot => Sys2Proof.Machine.execCinchTimeout die slot s
  | .rfetch rd rs1 rs2 => Sys2Proof.Machine.execRfetch rd rs1 rs2 s
  | .bfex rd rs1 rs2 => Sys2Proof.Machine.execBfex rd rs1 rs2 s
  | .sigwait rd rs1 rs2 => Sys2Proof.Machine.execSigwait rd rs1 rs2 s
  | .dispatch rd rs1 => Sys2Proof.Machine.execDispatch rd rs1 s
  | .sigwaitTimeout die core => Sys2Proof.Machine.execSigwaitTimeout die core s
  | .unitPlace die slot core => Sys2Proof.Machine.execUnitPlace die slot core s
  | .frontierDispatch die slot core => Sys2Proof.Machine.execFrontierDispatch die slot core s
  | .taskGather die slot core => Sys2Proof.Machine.execTaskGather die slot core s
  | .taskRoundEnd die slot => Sys2Proof.Machine.execTaskRoundEnd die slot s
  | .attachWaitTimeout unit => Sys2Proof.Machine.execAttachWaitTimeout unit s
  | .quantumEnd core => Sys2Proof.Machine.execQuantumEnd core s
  | .spill unit => Sys2Proof.Machine.execSpill unit s
  | .spillTimeout die slot => Sys2Proof.Machine.execSpillTimeout die slot s
  | .restore unit => Sys2Proof.Machine.execRestore unit s
  | .congestionReport controller => Sys2Proof.Machine.execCongestionReport controller s
  | .congestionLevelExpiry core controller => Sys2Proof.Machine.execCongestionLevelExpiry core controller s
  | .hbmRequestComplete request => Sys2Proof.Machine.execHbmRequestComplete request s
  | .longResultWritten unit result => Sys2Proof.Machine.execLongResultWritten unit result s
  | .parkEnd g => Sys2Proof.Machine.execParkEnd g s
  | .clauseStart g => Sys2Proof.Machine.execClauseStart g s
  | .pairedWord p => Sys2Proof.Machine.execPairedWord p s
  | .unassignedOpcode w => Sys2Proof.Machine.execUnassignedOpcode w s
  | .spanAgreement die domain => Sys2Proof.Machine.execSpanAgreement die domain s
  | .batchCommit die domain => Sys2Proof.Machine.execBatchCommit die domain s
  | .nonEventSchedArrival message => Sys2Proof.Machine.execNonEventSchedArrival message s
  | .nonEventCancelArrival message => Sys2Proof.Machine.execNonEventCancelArrival message s
  | .segmentEvict core context name => Sys2Proof.Machine.execSegmentEvict core context name s
  | .segmentReloadComplete core context name => Sys2Proof.Machine.execSegmentReloadComplete core context name s
  | .pageEvict die => Sys2Proof.Machine.execPageEvict die s
  | .pageBringBack die => Sys2Proof.Machine.execPageBringBack die s
  | .patrolScrub address => Sys2Proof.Machine.execPatrolScrub address s
  | .uncorrectableError place => Sys2Proof.Machine.execUncorrectableError place s
  | .copyPerform core bank queue => Sys2Proof.Machine.execCopyPerform core bank queue s
  | .collContribution c => Sys2Proof.Machine.execCollContribution c s
  | .collComplete collective => Sys2Proof.Machine.execCollComplete collective s
  | .collTimeout collective => Sys2Proof.Machine.execCollTimeout collective s
  | .kStep unit => Sys2Proof.Machine.execKStep unit s
  | .matrixOperationPerform unit => Sys2Proof.Machine.execMatrixOperationPerform unit s
  | .searchExpand query node => Sys2Proof.Machine.execSearchExpand query node s
  | .searchList query node => Sys2Proof.Machine.execSearchList query node s
  | .searchEval query node => Sys2Proof.Machine.execSearchEval query node s
  | .searchDist query node => Sys2Proof.Machine.execSearchDist query node s
  | .windowClose die slot scope set k => Sys2Proof.Machine.execWindowClose die slot scope set k s
  | .epochMerge die slot => Sys2Proof.Machine.execEpochMerge die slot s
  | .flitReceive link f => Sys2Proof.Machine.execFlitReceive link f s
  | .replayRequest link seq => Sys2Proof.Machine.execReplayRequest link seq s
  | .linkReplayTimeout link => Sys2Proof.Machine.execLinkReplayTimeout link s
  | .launchRetire die slot => Sys2Proof.Machine.execLaunchRetire die slot s
  | .launchAbort die slot st => Sys2Proof.Machine.execLaunchAbort die slot st s
  | .iadd w => Sys2Proof.Machine.execIadd w s
  | .isub w => Sys2Proof.Machine.execIsub w s
  | .imul w => Sys2Proof.Machine.execImul w s
  | .imulh w => Sys2Proof.Machine.execImulh w s
  | .imad w => Sys2Proof.Machine.execImad w s
  | .iadd64 w => Sys2Proof.Machine.execIadd64 w s
  | .imad64 w => Sys2Proof.Machine.execImad64 w s
  | .imin w => Sys2Proof.Machine.execImin w s
  | .imax w => Sys2Proof.Machine.execImax w s
  | .iabs w => Sys2Proof.Machine.execIabs w s
  | .ineg w => Sys2Proof.Machine.execIneg w s
  | .iadds w => Sys2Proof.Machine.execIadds w s
  | .and w => Sys2Proof.Machine.execAnd w s
  | .or w => Sys2Proof.Machine.execOr w s
  | .xor w => Sys2Proof.Machine.execXor w s
  | .not w => Sys2Proof.Machine.execNot w s
  | .lop3 w => Sys2Proof.Machine.execLop3 w s
  | .shl w => Sys2Proof.Machine.execShl w s
  | .shr w => Sys2Proof.Machine.execShr w s
  | .shra w => Sys2Proof.Machine.execShra w s
  | .rotl w => Sys2Proof.Machine.execRotl w s
  | .fshf w => Sys2Proof.Machine.execFshf w s
  | .bfx w => Sys2Proof.Machine.execBfx w s
  | .bfi w => Sys2Proof.Machine.execBfi w s
  | .brev w => Sys2Proof.Machine.execBrev w s
  | .popc w => Sys2Proof.Machine.execPopc w s
  | .clz w => Sys2Proof.Machine.execClz w s
  | .ctz w => Sys2Proof.Machine.execCtz w s
  | .icmp w => Sys2Proof.Machine.execIcmp w s
  | .sel w => Sys2Proof.Machine.execSel w s
  | .mov w => Sys2Proof.Machine.execMov w s
  | .movi w => Sys2Proof.Machine.execMovi w s
  | .movq w => Sys2Proof.Machine.execMovq w s
  | .movs w => Sys2Proof.Machine.execMovs w s
  | .plut w => Sys2Proof.Machine.execPlut w s
  | .pmov w => Sys2Proof.Machine.execPmov w s
  | .icvt w => Sys2Proof.Machine.execIcvt w s
  | .retag w => Sys2Proof.Machine.execRetag w s
  | .sread w => Sys2Proof.Machine.execSread w s
  | .swrite w => Sys2Proof.Machine.execSwrite w s
  | .vrdi w => Sys2Proof.Machine.execVrdi w s
  | .vwri w => Sys2Proof.Machine.execVwri w s
  | .fadd w => Sys2Proof.Machine.execFadd w s
  | .fsub w => Sys2Proof.Machine.execFsub w s
  | .fmul w => Sys2Proof.Machine.execFmul w s
  | .ffma w => Sys2Proof.Machine.execFfma w s
  | .fmin w => Sys2Proof.Machine.execFmin w s
  | .fmax w => Sys2Proof.Machine.execFmax w s
  | .fcmp w => Sys2Proof.Machine.execFcmp w s
  | .fclass w => Sys2Proof.Machine.execFclass w s
  | .frnd w => Sys2Proof.Machine.execFrnd w s
  | .fcvt w => Sys2Proof.Machine.execFcvt w s
  | .fscale w => Sys2Proof.Machine.execFscale w s
  | .frcp w => Sys2Proof.Machine.execFrcp w s
  | .fsqrt w => Sys2Proof.Machine.execFsqrt w s
  | .frsq w => Sys2Proof.Machine.execFrsq w s
  | .fex2 w => Sys2Proof.Machine.execFex2 w s
  | .flg2 w => Sys2Proof.Machine.execFlg2 w s
  | .fsin w => Sys2Proof.Machine.execFsin w s
  | .fcos w => Sys2Proof.Machine.execFcos w s
  | .dadd w => Sys2Proof.Machine.execDadd w s
  | .dmul w => Sys2Proof.Machine.execDmul w s
  | .dfma w => Sys2Proof.Machine.execDfma w s
  | .dcmp w => Sys2Proof.Machine.execDcmp w s
  | .hadd2 w => Sys2Proof.Machine.execHadd2 w s
  | .hmul2 w => Sys2Proof.Machine.execHmul2 w s
  | .hfma2 w => Sys2Proof.Machine.execHfma2 w s
  | .dot4 w => Sys2Proof.Machine.execDot4 w s
  | .qpack w => Sys2Proof.Machine.execQpack w s
  | .qunpk w => Sys2Proof.Machine.execQunpk w s
  | .rand w => Sys2Proof.Machine.execRand w s
  | .fstat w => Sys2Proof.Machine.execFstat w s
  | .vote w => Sys2Proof.Machine.execVote w s
  | .ballot w => Sys2Proof.Machine.execBallot w s
  | .lmask w => Sys2Proof.Machine.execLmask w s
  | .bpick w => Sys2Proof.Machine.execBpick w s
  | .lget w => Sys2Proof.Machine.execLget w s
  | .xchg w => Sys2Proof.Machine.execXchg w s
  | .matchLanes w => Sys2Proof.Machine.execMatchLanes w s
  | .redux w => Sys2Proof.Machine.execRedux w s
  | .brx w => Sys2Proof.Machine.execBrx w s
  | .calli w => Sys2Proof.Machine.execCalli w s
  | .cohnew w => Sys2Proof.Machine.execCohnew w s
  | .cohfree w => Sys2Proof.Machine.execCohfree w s
  | .join w => Sys2Proof.Machine.execJoin w s
  | .leave w => Sys2Proof.Machine.execLeave w s
  | .cbar w => Sys2Proof.Machine.execCbar w s
  | .tkwait w => Sys2Proof.Machine.execTkwait w s
  | .fltrd w => Sys2Proof.Machine.execFltrd w s
  | .sched w => Sys2Proof.Machine.execSched w s
  | .cancel w => Sys2Proof.Machine.execCancel w s
  | .evqry w => Sys2Proof.Machine.execEvqry w s
  | .task w => Sys2Proof.Machine.execTask w s
  | .cpy w => Sys2Proof.Machine.execCpy w s
  | .cpyg w => Sys2Proof.Machine.execCpyg w s
  | .cpys w => Sys2Proof.Machine.execCpys w s
  | .tagexp w => Sys2Proof.Machine.execTagexp w s
  | .twait w => Sys2Proof.Machine.execTwait w s
  | .cwait w => Sys2Proof.Machine.execCwait w s
  | .twany w => Sys2Proof.Machine.execTwany w s
  | .tfirst w => Sys2Proof.Machine.execTfirst w s
  | .eqfence w => Sys2Proof.Machine.execEqfence w s
  | .coll w => Sys2Proof.Machine.execColl w s
  | .tcfg w => Sys2Proof.Machine.execTcfg w s
  | .tzero w => Sys2Proof.Machine.execTzero w s
  | .wbld w => Sys2Proof.Machine.execWbld w s
  | .mma w => Sys2Proof.Machine.execMma w s
  | .mloop w => Sys2Proof.Machine.execMloop w s
  | .mfence w => Sys2Proof.Machine.execMfence w s
  | .mwait w => Sys2Proof.Machine.execMwait w s
  | .tld w => Sys2Proof.Machine.execTld w s
  | .tst w => Sys2Proof.Machine.execTst w s
  | .annq w => Sys2Proof.Machine.execAnnq w s
  | .ld w => Sys2Proof.Machine.execLd w s
  | .st w => Sys2Proof.Machine.execSt w s
  | .lds w => Sys2Proof.Machine.execLds w s
  | .sts w => Sys2Proof.Machine.execSts w s
  | .ldc w => Sys2Proof.Machine.execLdc w s
  | .pref w => Sys2Proof.Machine.execPref w s
  | .fence w => Sys2Proof.Machine.execFence w s
  | .hint w => Sys2Proof.Machine.execHint w s
  | .stepadv w => Sys2Proof.Machine.execStepadv w s
  | .ordadd w => Sys2Proof.Machine.execOrdadd w s
  | .oclose w => Sys2Proof.Machine.execOclose w s
  | .sop w => Sys2Proof.Machine.execSop w s
  | .fatomAdd w => Sys2Proof.Machine.execFatomAdd w s
  | .fatomMin w => Sys2Proof.Machine.execFatomMin w s
  | .fatomMax w => Sys2Proof.Machine.execFatomMax w s
  | .segpub w => Sys2Proof.Machine.execSegpub w s
  | .segatt w => Sys2Proof.Machine.execSegatt w s
  | .segrel w => Sys2Proof.Machine.execSegrel w s
  | .segqry w => Sys2Proof.Machine.execSegqry w s
  | .qpush w => Sys2Proof.Machine.execQpush w s
  | .qpop w => Sys2Proof.Machine.execQpop w s
  | .qpeek w => Sys2Proof.Machine.execQpeek w s
  | .atomsAdd w => Sys2Proof.Machine.execAtomsAdd w s
  | .atomsSmin w => Sys2Proof.Machine.execAtomsSmin w s
  | .atomsSmax w => Sys2Proof.Machine.execAtomsSmax w s
  | .atomsUmin w => Sys2Proof.Machine.execAtomsUmin w s
  | .atomsUmax w => Sys2Proof.Machine.execAtomsUmax w s
  | .atomsAnd w => Sys2Proof.Machine.execAtomsAnd w s
  | .atomsOr w => Sys2Proof.Machine.execAtomsOr w s
  | .atomsXor w => Sys2Proof.Machine.execAtomsXor w s
  | .atomsExch w => Sys2Proof.Machine.execAtomsExch w s
  | .atomsCas w => Sys2Proof.Machine.execAtomsCas w s
  | .atomsIncw w => Sys2Proof.Machine.execAtomsIncw w s
  | .atomsDecw w => Sys2Proof.Machine.execAtomsDecw w s
  | .atomAdd w => Sys2Proof.Machine.execAtomAdd w s
  | .atomSmin w => Sys2Proof.Machine.execAtomSmin w s
  | .atomSmax w => Sys2Proof.Machine.execAtomSmax w s
  | .atomUmin w => Sys2Proof.Machine.execAtomUmin w s
  | .atomUmax w => Sys2Proof.Machine.execAtomUmax w s
  | .atomAnd w => Sys2Proof.Machine.execAtomAnd w s
  | .atomOr w => Sys2Proof.Machine.execAtomOr w s
  | .atomXor w => Sys2Proof.Machine.execAtomXor w s
  | .atomExch w => Sys2Proof.Machine.execAtomExch w s
  | .atomCas w => Sys2Proof.Machine.execAtomCas w s
  | .atomIncw w => Sys2Proof.Machine.execAtomIncw w s
  | .atomDecw w => Sys2Proof.Machine.execAtomDecw w s
  | .bra w => Sys2Proof.Machine.execBra w s
  | .brc w => Sys2Proof.Machine.execBrc w s
  | .call w => Sys2Proof.Machine.execCall w s
  | .ret w => Sys2Proof.Machine.execRet w s
  | .exit w => Sys2Proof.Machine.execExit w s
  | .regang w => Sys2Proof.Machine.execRegang w s
  | .yield w => Sys2Proof.Machine.execYield w s
  | .nop w => Sys2Proof.Machine.execNop w s
  | .bar w => Sys2Proof.Machine.execBar w s
  | .arrive w => Sys2Proof.Machine.execArrive w s
  | .waitb w => Sys2Proof.Machine.execWaitb w s
  | .tkpass w => Sys2Proof.Machine.execTkpass w s
  | .dmerge w => Sys2Proof.Machine.execDmerge w s
  | .tfence w => Sys2Proof.Machine.execTfence w s
  | .trap w => Sys2Proof.Machine.execTrap w s
  | .bkpt w => Sys2Proof.Machine.execBkpt w s
  | .rtt w => Sys2Proof.Machine.execRtt w s
  | .reset => Sys2Proof.Machine.execReset s
  | .powerLimitThrottle => Sys2Proof.Machine.execPowerLimitThrottle s
  | .clockRaise => Sys2Proof.Machine.execClockRaise s
  | .thermalStop => Sys2Proof.Machine.execThermalStop s
  | .thermalResume => Sys2Proof.Machine.execThermalResume s
  | .negotiate => Sys2Proof.Machine.execNegotiate s
  | .readManifest => Sys2Proof.Machine.execReadManifest s
  | .compareManifest => Sys2Proof.Machine.execCompareManifest s
  | .attest => Sys2Proof.Machine.execAttest s
  | .createContext => Sys2Proof.Machine.execCreateContext s
  | .destroyContext => Sys2Proof.Machine.execDestroyContext s
  | .ptUpdate => Sys2Proof.Machine.execPtUpdate s
  | .ptInvalidate => Sys2Proof.Machine.execPtInvalidate s
  | .readCounters => Sys2Proof.Machine.execReadCounters s
  | .discardSave => Sys2Proof.Machine.execDiscardSave s
  | .createQueue => Sys2Proof.Machine.execCreateQueue s
  | .destroyQueue => Sys2Proof.Machine.execDestroyQueue s
  | .resumeQueue => Sys2Proof.Machine.execResumeQueue s
  | .setShared => Sys2Proof.Machine.execSetShared s
  | .setLowwater => Sys2Proof.Machine.execSetLowwater s
  | .windowAdd => Sys2Proof.Machine.execWindowAdd s
  | .windowRemove => Sys2Proof.Machine.execWindowRemove s
  | .suspendLaunch => Sys2Proof.Machine.execSuspendLaunch s

end Sys2Proof.Machine
end

