-- ==== Sys2Proof/Machine/Load.lean ====
section
/-! DEFINITION. Placing one instruction so that the next step runs it (entry 28): a Tack core's word at that core's pc, or a Belga word in a
one-clause program of a unit of its own. -/

namespace Sys2Proof.Machine

/-- The 4 bytes of a Tack word at the pc of the Tack core whose turn it was last, and that core's turn. -/
def State.loadTack (s : State) (w : Word) : State :=
  let die := s.curTack.1
  let core := s.curTack.2
  let pc := (s.tack die core).pc.toNat
  let put := fun (f : List (Nat × Byte)) => (natLe 4 w.toNat).zipIdx.foldl (fun f b => sparsePut f (pc + b.2) b.1) f
  { s.modifyDie die fun d => { d with firmware := put d.firmware } with agenda := (0, .tack die core) :: s.agenda }

/-- Context, page tables and address of the loaded words. -/
def loadContext : Nat := 1
def loadRoot : Nat := 0x10000
def loadVa : Nat := 0x10000
def loadFrame : Nat := 0x40000

/-- The page tables: one level-1, one level-2 entry, and one readable, writable, executable 64 KiB page of kind RC (R249). -/
def loadTables (chip : Nat) : List (Nat × Nat) :=
  [(loadRoot, 0x20001), (0x20000, 0x30001), (0x30008, loadFrame + 0x1F + chip * 2 ^ 48)]

/-- A lane group of four active lanes inside a clause of class ANY over the words, 256 main registers a lane. -/
def loadSlice (count : Nat) : Slice :=
  { (default : Slice) with
    pc := BitVec.ofNat 64 (loadVa + 8), clause := some ⟨BitVec.ofNat 64 loadVa, count, 6⟩, active := 15, exited := 0, regs := 256,
    sb := [0, 0, 0, 0, 0, 0, 0], trackers := noTrackers, lanes := List.replicate 4 default }

/-- The unit: resident on core 0, bank 0, of the launch in slot 0 of die 0. -/
def loadUnit (uid count : Nat) : WorkUnit :=
  { (default : WorkUnit) with
    uid := uid, die := 0, lslot := 0, ctx := loadContext, residence := .resident, core := 0, bank := 0, slots := [0],
    bslots := [0], entry := BitVec.ofNat 64 loadVa, regs := 256, nlanes := 4, slices := [loadSlice count], nextIg := 1,
    latches := [none, none, none, none], ocloses := [0, 0, 0, 0] }

def loadLaunch : Launch :=
  { (default : Launch) with ctx := loadContext, words := List.replicate 16 0, desc := List.replicate 8 0 }

def loadSpace : Context := { (default : Context) with num := loadContext, weight := 1, root := loadRoot }

/-- Core 0 so that the unit's gang may issue: its bank active, no swap due, its pipeline free, and no translation of the context held. -/
def Core.loaded (c : Core) (now : Nat) : Core :=
  { c with active := 0, swapAt := none, quantumStart := now, bank0 := { c.bank0 with pipes := [] }, tlb := c.tlb.filter (·.ctx != loadContext) }

/-- A Belga word, and the literal after it if there is one, in a unit of their own, whose turn it is. -/
def State.loadBelga (s : State) (w : DWord) (lit : Option DWord) : State :=
  let ws := w :: lit.toList
  let uid := s.nextId
  let bytes := ws.flatMap fun x => natLe 8 x.toNat
  let mem := (loadTables s.chip).foldl (fun m e => sparseWrite m (s.fab e.1) (natLe 8 e.2)) s.mem
  { s with
    nextId := uid + 1
    mem := sparseWrite mem (s.fab (loadFrame + 8)) bytes
    contexts := s.contexts.filter (·.num != loadContext) ++ [loadSpace]
    launches := s.launches.filter (fun l => !(l.die == 0 && l.slot == 0)) ++ [loadLaunch]
    units := s.units ++ [loadUnit uid ws.length]
    thermalStopped := false
    cores := putCore s.cores ((s.core 0).loaded s.clock)
    dies := s.dies.map fun d => { d with tlb := d.tlb.filter (·.ctx != loadContext) }
    agenda := (0, .gang ⟨uid, 0, 0⟩) :: s.agenda }

/-- The instruction of nbits bits w, the first word lowest. -/
def State.loadCode (s : State) (nbits w : Nat) : State :=
  if nbits ≤ 32 then s.loadTack (BitVec.ofNat 32 w)
  else
    let first := BitVec.ofNat 64 w
    s.loadBelga first (if takesLiteral first then some (BitVec.ofNat 64 (w / 2 ^ 64)) else none)

end Sys2Proof.Machine
end

