-- ==== Sys2Proof/Machine/Step.lean ====
section
/-! DEFINITION. One step of the package: what its schedule's next turn comes to (Sys2Proof/Machine/Turn.lean). -/

namespace Sys2Proof.Machine

/-- The outcome of what a step comes to: an instruction runs by its meaning. -/
def Chosen.outcome : Chosen → Host.Outcome State Fault Refusal
  | .state s => .next s
  | .run i s => exec i s
  | .fault f => .fault f
  | .refuse r => .refused r

/-- One step. -/
def step (s : State) : Host.Outcome State Fault Refusal := s.choose.outcome

/-- The state with an instruction placed where the next step runs it (entry 28). -/
def State.withFetchWord (s : State) (nbits w : Nat) : State := s.loadCode nbits w

end Sys2Proof.Machine
end

