-- ==== Sys2Proof/Safety.lean ====
section
/-! DEFINITION. The terms in which claims about the machine are stated: what every step keeps, and what a word leaves as it was. -/

namespace Sys2Proof.Machine

/-! ### What every step keeps -/

/-- What no step changes: the boot flash, the fuses, the identity, the cores in service, and what the sensors read (R453, R460, R461). -/
def State.fixed (s : State) :
    List BootImage × BitVec 256 × List Byte × List DWord × List Byte × List Byte × List Nat × Nat × List Nat :=
  (s.flash, s.rootDigest, s.rootKey, s.minSvn, s.idKey, s.idCert, s.inService, s.power, s.temps)

/-- A step from s to t keeps memory canonical, the four dies, and what no step changes. -/
structure Keeps (s t : State) : Prop where
  mem : Memory.wf s.mem = true → Memory.wf t.mem = true
  dies : t.dies.length = s.dies.length ∨ t.dies.length = 4
  fixed : t.fixed = s.fixed

/-- An outcome that is a next state which keeps all that. -/
def Goes (s : State) (o : Host.Outcome State Fault Refusal) : Prop := ∃ t, o = .next t ∧ Keeps s t

/-! ### What a word leaves as it was -/

/-- A lane without its operand file, which lasts no longer than its clause (R31). -/
def Lane.kept (ln : Lane) : Lane := { ln with q := [] }

/-- A slice without its place in the program: PC, clause, active mask, reconvergence stack, gang, holds and waits. What is left are
the registers, the predicates, flags and lane state, the scalar registers, the scoreboards and pending results, the fault record,
the trap state, the trackers and what it has arrived at last. -/
def Slice.kept (sl : Slice) : Slice :=
  { sl with
    ig := 0, pc := 0, clause := none, active := 0, stack := [], heldBy := none, arrivals := [], ocloseAt := none,
    dmergeAt := false, ringHeld := 0, parked := false, wait := .none, lanes := sl.lanes.map Lane.kept }

/-- A unit whose slices are looked at so, without its counts of gangs, breakpoints and closes. -/
def WorkUnit.kept (u : WorkUnit) : WorkUnit := { u with slices := u.slices.map Slice.kept, nextIg := 0, bkpts := [], ocloses := [] }

/-- A core without its barrier slots. -/
def Core.kept (c : Core) : Core :=
  let plain := fun (b : Bank) => { b with barriers := [] }
  { c with bank0 := plain c.bank0, bank1 := plain c.bank1 }

/-- The state outside units and cores: memory, dies, contexts, launches, segments and all the rest. -/
def State.elsewhere (s : State) : State := { s with units := [], cores := [] }

/-- From s to t only places in programs and barrier slots have changed: every register, predicate and flag of every lane, every byte of
memory and of scratchpad, and every other register of the package is as it was. -/
structure Undisturbed (s t : State) : Prop where
  elsewhere : t.elsewhere = s.elsewhere
  cores : ∀ n, (t.core n).kept = (s.core n).kept
  units : ∀ n, (t.unit? n).map WorkUnit.kept = (s.unit? n).map WorkUnit.kept

/-- What the end of a word leaves of a slice of its gang: scalar registers and lanes as they were, but that a clause that has ended
takes the operand files with it (R31). -/
structure Slice.EndsAs (sl sl' : Slice) : Prop where
  scalars : sl'.s = sl.s
  lanes : sl'.lanes = if sl'.clause = none then sl.lanes.map Lane.kept else sl.lanes

/-- A unit of which some slices have come to the end of a word. -/
structure WorkUnit.EndsAs (u v : WorkUnit) (ps : List Nat) : Prop where
  length : v.slices.length = u.slices.length
  mine : ∀ p ∈ ps, (u.slice p).EndsAs (v.slice p)
  others : ∀ p, p ∉ ps → (v.slice p).s = (u.slice p).s ∧ (v.slice p).lanes = (u.slice p).lanes

/-- State t follows r by the end of a word of slices ps of a unit: registers stay, and unless an interval of the unit ends with the
word (R402, R404) nothing but places in programs and barrier slots changes. -/
structure Follows (r t : State) (uid : Nat) (ps : List Nat) : Prop where
  unit : ∀ u, r.unit? uid = some u → ∃ v, t.unit? uid = some v ∧ u.EndsAs v ps
  rest : (t.unit? uid).map (·.interval) = (r.unit? uid).map (·.interval) → Undisturbed r t

/-- The instruction completes: its effect gives r, and the word ends there (R27, R153, R188). -/
def Completes (i : Instr) (s r : State) (g : Gang) (y : Bool) (words : Nat) : Prop :=
  exec i s = .next (r.finishWord g y words) ∧ Follows r (r.finishWord g y words) g.u.uid g.ps

/-- From s to r one unit has become u; nothing else has changed. -/
structure Changes (s r : State) (uid : Nat) (u : WorkUnit) : Prop where
  elsewhere : r.elsewhere = s.elsewhere
  cores : r.cores = s.cores
  unit : r.unit? uid = some u
  others : ∀ n, n ≠ uid → r.unit? n = s.unit? n

/-! ### Words on lanes whose results are ready at once -/

/-- An instruction of the standard body that computes in lanes: its opcode, its word, and what its entry says. -/
structure LaneInstr where
  opc : Nat
  word : StdWord
  entry : State → Gang → AluEntry

/-- The instructions of that shape with their opcodes (R46-R51). -/
def laneInstr : Instr → Option LaneInstr
  | .iadd w => some ⟨0x000, w, fun _ _ => iaddEntry⟩
  | .isub w => some ⟨0x001, w, fun _ _ => isubEntry⟩
  | .imul w => some ⟨0x002, w, fun _ _ => imulEntry⟩
  | .imulh w => some ⟨0x003, w, fun _ _ => imulhEntry w⟩
  | .imad w => some ⟨0x004, w, fun _ _ => imadEntry⟩
  | .iadd64 w => some ⟨0x005, w, fun _ _ => iadd64Entry⟩
  | .imad64 w => some ⟨0x006, w, fun _ _ => imad64Entry w⟩
  | .imin w => some ⟨0x007, w, fun _ _ => iminEntry w.m⟩
  | .imax w => some ⟨0x008, w, fun _ _ => imaxEntry w.m⟩
  | .iabs w => some ⟨0x009, w, fun _ _ => iabsEntry w⟩
  | .ineg w => some ⟨0x00A, w, fun _ _ => inegEntry w⟩
  | .iadds w => some ⟨0x00B, w, fun _ _ => iaddsEntry w⟩
  | .and w => some ⟨0x010, w, fun _ _ => andEntry⟩
  | .or w => some ⟨0x011, w, fun _ _ => orEntry⟩
  | .xor w => some ⟨0x012, w, fun _ _ => xorEntry⟩
  | .not w => some ⟨0x013, w, fun _ _ => notEntry⟩
  | .lop3 w => some ⟨0x014, w, fun _ _ => lop3Entry w⟩
  | .shl w => some ⟨0x015, w, fun _ _ => shlEntry⟩
  | .shr w => some ⟨0x016, w, fun _ _ => shrEntry⟩
  | .shra w => some ⟨0x017, w, fun _ _ => shraEntry⟩
  | .rotl w => some ⟨0x018, w, fun _ _ => rotlEntry⟩
  | .fshf w => some ⟨0x019, w, fun _ _ => fshfEntry w⟩
  | .bfx w => some ⟨0x020, w, fun _ _ => bfxEntry w⟩
  | .bfi w => some ⟨0x021, w, fun _ _ => bfiEntry⟩
  | .brev w => some ⟨0x022, w, fun _ _ => brevEntry⟩
  | .popc w => some ⟨0x023, w, fun _ _ => popcEntry⟩
  | .clz w => some ⟨0x024, w, fun _ _ => clzEntry⟩
  | .ctz w => some ⟨0x025, w, fun _ _ => ctzEntry⟩
  | .icmp w => some ⟨0x030, w, fun _ _ => icmpEntry w⟩
  | .sel w => some ⟨0x031, w, fun _ _ => selEntry w⟩
  | .plut w => some ⟨0x036, w, fun _ _ => plutEntry w⟩
  | .pmov w => some ⟨0x037, w, fun _ _ => pmovEntry w⟩
  | .mov w => some ⟨0x032, w, fun _ _ => movEntry w⟩
  | .movi w => some ⟨0x033, w, fun _ _ => moviEntry⟩
  | .movq w => some ⟨0x034, w, fun _ g => movqEntry w g⟩
  | .movs w => some ⟨0x035, w, fun _ _ => movsEntry w⟩
  | .icvt w => some ⟨0x038, w, fun _ _ => icvtEntry w⟩
  | .retag w => some ⟨0x039, w, fun _ _ => retagEntry w⟩
  | .sread w => some ⟨0x040, w, fun s _ => sreadEntry s w⟩
  | .swrite w => some ⟨0x041, w, fun _ _ => swriteEntry w⟩
  | .vrdi w => some ⟨0x042, w, fun _ g => vrdiEntry w g⟩
  | .vwri w => some ⟨0x043, w, fun _ g => vwriEntry w g⟩
  | .fadd w => some ⟨0x080, w, fun _ _ => addEntry fp32 w.m false⟩
  | .fsub w => some ⟨0x081, w, fun _ _ => addEntry fp32 w.m true⟩
  | .fmul w => some ⟨0x082, w, fun _ _ => mulEntry fp32 w.m⟩
  | .ffma w => some ⟨0x083, w, fun _ _ => fmaEntry fp32 w.m⟩
  | .dadd w => some ⟨0x0A0, w, fun _ _ => addEntry fp64 w.m false⟩
  | .dmul w => some ⟨0x0A1, w, fun _ _ => mulEntry fp64 w.m⟩
  | .dfma w => some ⟨0x0A2, w, fun _ _ => fmaEntry fp64 w.m⟩
  | .fmin w => some ⟨0x084, w, fun _ _ => minMaxEntry false w.m⟩
  | .fmax w => some ⟨0x085, w, fun _ _ => minMaxEntry true w.m⟩
  | .fcmp w => some ⟨0x086, w, fun _ _ => fcmpEntry fp32 w⟩
  | .dcmp w => some ⟨0x0A3, w, fun _ _ => fcmpEntry fp64 w⟩
  | .fclass w => some ⟨0x087, w, fun _ _ => fclassEntry w⟩
  | .frnd w => some ⟨0x088, w, fun _ _ => frndEntry w⟩
  | .fscale w => some ⟨0x08A, w, fun _ _ => fscaleEntry w⟩
  | .fcvt w => some ⟨0x089, w, fun _ _ => fcvtEntry w⟩
  | .frcp w => some ⟨0x090, w, fun _ _ => specialEntry rcpCases w.m⟩
  | .fsqrt w => some ⟨0x091, w, fun _ _ => specialEntry sqrtCases w.m⟩
  | .frsq w => some ⟨0x092, w, fun _ _ => specialEntry rsqCases w.m⟩
  | .fex2 w => some ⟨0x093, w, fun _ _ => specialEntry ex2Cases w.m⟩
  | .flg2 w => some ⟨0x094, w, fun _ _ => specialEntry lg2Cases w.m⟩
  | .fsin w => some ⟨0x095, w, fun _ _ => specialEntry sinCases w.m⟩
  | .fcos w => some ⟨0x096, w, fun _ _ => specialEntry cosCases w.m⟩
  | .hadd2 w => some ⟨0x0B0, w, fun _ _ => hadd2Entry w.m⟩
  | .hmul2 w => some ⟨0x0B1, w, fun _ _ => hmul2Entry w.m⟩
  | .hfma2 w => some ⟨0x0B2, w, fun _ _ => hfma2Entry w⟩
  | .dot4 w => some ⟨0x0B3, w, fun _ _ => dot4Entry w⟩
  | .qpack w => some ⟨0x0C0, w, fun _ _ => qpackEntry w⟩
  | .qunpk w => some ⟨0x0C1, w, fun _ _ => qunpkEntry w⟩
  | .rand w => some ⟨0x0C2, w, fun _ g => randEntry w g⟩
  | .vote w => some ⟨0x100, w, fun _ g => voteEntry w g⟩
  | .ballot w => some ⟨0x101, w, fun _ g => ballotEntry w g⟩
  | .lmask w => some ⟨0x102, w, fun _ g => lmaskEntry w g⟩
  | .bpick w => some ⟨0x103, w, fun _ _ => bpickEntry⟩
  | .lget w => some ⟨0x108, w, fun _ g => lgetEntry w g⟩
  | .xchg w => some ⟨0x109, w, fun _ g => xchgEntry w g⟩
  | .fltrd w => some ⟨0x120, w, fun _ _ => fltrdEntry w⟩
  | _ => none

def LaneInstr.op (x : LaneInstr) (s : State) (g : Gang) : LaneOp := (x.entry s g).op x.word

/-- The lanes it executes in: the active ones under its guard (R35), for LOP3 the active ones (R173). -/
def LaneInstr.lanes (x : LaneInstr) (s : State) (g : Gang) : List (Nat × Nat) := (x.entry s g).lanes g x.word

/-- It uses a reserved field, value or modifier (R35-R37, R44). -/
def LaneInstr.reserved (x : LaneInstr) (s : State) (g : Gang) : Bool :=
  (x.entry s g).reserved || (x.entry s g).modBad x.word || !(x.op s g).reservedOk

/-- It names a register that is not allowed there or lies beyond the budget (R30, R44). -/
def LaneInstr.illegal (x : LaneInstr) (s : State) (g : Gang) : Bool := (x.entry s g).illegal || !(x.op s g).specsOk g.head.regs

/-- No cause of R44 stops it, its lanes read no uncorrectable register (R269), and its scoreboard has room (R26). -/
structure LaneInstr.Fits (x : LaneInstr) (s : State) (g : Gang) : Prop where
  feature : s.featureOk x.opc = true
  cls : g.classOk x.opc (sourceWords x.word.srcB) = true
  reserved : x.reserved s g = false
  operands : x.illegal s g = false
  good : g.badReaders (x.lanes s g) (x.op s g).regs = []
  tags : ∀ y ∈ x.lanes s g, (x.op s g).mismatch g y = none
  room : g.sbFull x.word.c.sb (x.lanes s g) = false

/-- Unit u after an operation has written in lanes of gang g: each lane's result in its destination, a scalar destination in each
slice from its lowest lane, and nothing else but trackers of flags (R408) and registers that are good again. -/
structure Wrote (op : LaneOp) (g : Gang) (places : List (Nat × Nat)) (u : WorkUnit) : Prop where
  lanes : ∀ p ∈ g.ps, (u.slice p).lanes = (g.u.slice p).lanes.mapIdx fun j ln =>
    if (p, j) ∈ places then op.writeLane (op.out g (p, j)) ln else ln
  scalars : ∀ p ∈ g.ps, (u.slice p).s = match op.dst, places.find? (·.1 == p) with
    | .reg wide _, some y =>
      if isSSpec op.dstSpec.toNat then ((g.u.slice p).putS wide op.dstSpec.toNat (op.out g y).val).s else (g.u.slice p).s
    | _, _ => (g.u.slice p).s
  slices : ∀ p, { u.slice p with lanes := [], s := [], trackers := [] } = { g.u.slice p with lanes := [], s := [], trackers := [] }
  others : ∀ p, p ∉ g.ps → u.slice p = g.u.slice p
  unit : { u with slices := [], badRegs := [] } = { g.u with slices := [], badRegs := [] }
  good : ∀ x ∈ u.badRegs, x ∈ g.u.badRegs

/-! ### Control flow -/

/-- A control-body word that no decode cause of R44 stops: its guard is p7 where it must be, and MOD and OFS bits beyond the named
ones are zero (R42, R185). -/
structure CtlFits (s : State) (g : Gang) (opc : Nat) (w : CtlWord) (p7 : Bool) (mods ofs : Nat) : Prop where
  feature : s.featureOk opc = true
  cls : g.classOk opc 1 = true
  guard : p7 = true → w.c.pred = 7 ∧ w.c.pneg = false
  mods : w.m &&& (63 - mods) = 0
  offset : w.ofs.toNat &&& (2 ^ 36 - 1 - ofs) = 0

/-- A slice that goes to an address with a mask and a stack: its clause ends, and with it its operand file (R31). -/
def Slice.goesTo (sl : Slice) (a : DWord) (mask : BitVec 4) (st : List StackEntry) : Slice :=
  { sl with pc := a, clause := none, active := mask, stack := st, lanes := sl.lanes.map Lane.kept }

/-- The instruction moves the slices of its gang, each by `move`, and nothing else; then the word ends (R153, R188). -/
def Turns (i : Instr) (s : State) (g : Gang) (y : Bool) (move : Slice → Slice) : Prop :=
  ∃ r, exec i s = .next (r.finishJump g y) ∧ Follows r (r.finishJump g y) g.u.uid g.ps ∧
    Changes s r g.u.uid (g.u.modifySlices g.ps move)

/-- A push of the join, unless the top entry is that join already (R190). -/
def joined (sl : Slice) (join : DWord) : List StackEntry :=
  match sl.stack with
  | e :: _ => if e.kind = .join ∧ e.addr = join then sl.stack else ⟨.join, join, sl.live⟩ :: sl.stack
  | [] => [⟨.join, join, sl.live⟩]

/-- The lanes of a mask that aim at a target. -/
def aiming (mask : BitVec 4) (target : Nat → DWord) (t : DWord) : BitVec 4 :=
  BitVec.ofBoolListLE [mask.getLsbD 0 && target 0 == t, mask.getLsbD 1 && target 1 == t, mask.getLsbD 2 && target 2 == t,
    mask.getLsbD 3 && target 3 == t]

/-- The targets g1 < g2 < … of lanes (R191). -/
def IsTargets (mask : BitVec 4) (target : Nat → DWord) (ts : List DWord) : Prop :=
  ts.Pairwise (fun a b => a.toNat < b.toNat) ∧ ∀ t, t ∈ ts ↔ ∃ j < 4, mask.getLsbD j = true ∧ target j = t

/-- Resume entries for targets, the second target on top (R191). -/
def resumes (mask : BitVec 4) (target : Nat → DWord) (ts : List DWord) : List StackEntry :=
  ts.map fun t => ⟨.resume, t, aiming mask target t⟩

/-- The address in a pair of v or s registers. -/
def pairAddress (sl : Slice) (spec j : Nat) : DWord :=
  ((sl.getSpec j (spec + 1)).val ++ (sl.getSpec j spec).val : BitVec 64)

/-! ### Traps -/

/-- A slice that has entered a trap (R410, R411): what the record and the trap state hold, and where the handler starts. -/
structure Entered (tr : Trap) (vector : DWord) (budget id : Nat) (old new : Slice) : Prop where
  record : new.fltcause.toNat = tr.cause.code ∧ new.fltlanes = tr.lanes ∧ new.fltpc = tr.pc old ∧ new.fltdst = tr.dst old
  latched : new.mergeAddr = tr.merge.getD old.mergeAddr
  saved : new.inTrap = true ∧ new.tbkpt = tr.bkpt ∧ new.tpc = tr.tpc ∧ new.tmask = old.live ∧ new.tdepth = old.stack.length ∧
    new.tq = old.lanes.map (·.q) ∧ new.tregs = old.regs ∧ new.tentry = old.atEntry ∧ new.trapId = id
  start : new.pc = vector ∧ new.clause = none ∧ new.active = old.live ∧ new.regs = 8 * budget
  details : ∀ j < old.lanes.length, tr.lanes.getLsbD (4 * old.idx + j) = true →
    (new.lane j).fltAddr = tr.addr (4 * old.idx + j) ∧ (new.lane j).fltInfo = tr.info (4 * old.idx + j)
  place : new.home = old.home ∧ new.idx = old.idx ∧ new.exited = old.exited ∧ new.arrivals = old.arrivals ∧ new.errors = old.errors
  results : new.sb = old.closeRings.sb ∧ new.pend = old.closeRings.pend
  registers : new.s = old.s ∧ new.stack = old.stack ∧ new.trackers = old.trackers ∧
    new.lanes.map (fun ln => { ln with q := [], fltAddr := 0, fltInfo := 0 }) =
      old.lanes.map (fun ln => { ln with q := [], fltAddr := 0, fltInfo := 0 })

/-- The trap of a word that names its lanes and no further detail. -/
def Trap.Names (tr : Trap) (g : Gang) (cause : Cause) (lanes : List (Nat × Nat)) (tpc : DWord) : Prop :=
  tr.cause = cause ∧ tr.lanes = g.maskOf lanes ∧ tr.tpc = tpc ∧ (∀ sl, tr.pc sl = g.pc)

/-! ### Results that come later -/

/-- The long-latency results a word issues: one to each slice with an executing lane, numbered in order, counted by the word's
scoreboard (R26, R34). -/
structure Issued (g : Gang) (sb : BitVec 3) (lanes : List (Nat × Nat)) (kind : Nat → LongKind) (writes : Nat → List RegWrite)
    (requests : List Nat) (u : WorkUnit) : Prop where
  mine : ∀ p k, (g.ps.filter fun p => lanes.any (·.1 == p))[k]? = some p → u.slice p = { g.u.slice p with
    pend := (g.u.slice p).pend ++ [⟨g.u.nextResult + k, sb, kind p, writes p, g.pc, requests, false⟩]
    sb := listModify (g.u.slice p).sb sb.toNat (· + 1) }
  others : ∀ p, p ∉ (g.ps.filter fun p => lanes.any (·.1 == p)) → u.slice p = g.u.slice p
  unit : { u with slices := [], nextResult := 0 } = { g.u with slices := [], nextResult := 0 }
  next : u.nextResult = g.u.nextResult + (g.ps.filter fun p => lanes.any (·.1 == p)).length

/-- Ring items join the open results of a gang's slices (R26, R390). -/
def WorkUnit.ringGot (u : WorkUnit) (ps : List Nat) (items : Nat → List RingRead) : WorkUnit :=
  { u with slices := u.slices.mapIdx fun p sl => if p ∈ ps then
      { sl with pend := sl.pend.map fun r => match r.kind with
          | .ring xs true => { r with kind := .ring (xs ++ items p) true }
          | _ => r }
    else sl }

/-- A barrier slot after a change of its members: a phase whose members have all arrived is over (R156, R392). -/
def BarrierSlot.settled (b : BarrierSlot) : BarrierSlot :=
  if b.live = true ∧ b.members ≠ 0 ∧ b.arrived = b.members then { b with arrived := 0, phase := !b.phase } else b

/-- The instruction waits at its word: the unit changes so, what follows from that comes about (R392, R404), and places in programs and
barrier slots apart nothing else changes unless an interval of the unit ends. -/
def Waits (i : Instr) (s : State) (g : Gang) (u : WorkUnit) : Prop :=
  ∃ r, exec i s = .next (r.afterSlices g.u.uid) ∧ Changes s r g.u.uid u ∧
    (((r.afterSlices g.u.uid).unit? g.u.uid).map (·.interval) = (r.unit? g.u.uid).map (·.interval) → Undisturbed r (r.afterSlices g.u.uid))

/-- A unit of gang g in which executing lanes have taken a predicate. -/
structure TookPredicate (g : Gang) (places : List (Nat × Nat)) (n : Nat) (b : Bool) (u : WorkUnit) : Prop where
  lanes : ∀ p, (u.slice p).lanes = (g.u.slice p).lanes.mapIdx fun j ln => if (p, j) ∈ places then ln.setP n b else ln
  slices : ∀ p, { u.slice p with lanes := [] } = { g.u.slice p with lanes := [] }
  unit : { u with slices := [] } = { g.u with slices := [] }

/-- The source values of a word that acts once: those of the lowest executing lane (R290). -/
def onceValue (g : Gang) (w : StdWord) (wide : Bool) (b : BSource) : Nat :=
  match g.executing w.c with
  | x :: _ => ((g.u.slice x.1).readB x.2 (intUse wide anyTag) b).val
  | [] => 0

/-- A word of the standard body that acts for its gang as a whole passes its checks under an entry: one that acts once reads the operands
of its lowest executing lane alone (R290). -/
structure OnceFits (s : State) (g : Gang) (opc : Nat) (w : StdWord) (e : AluEntry) : Prop where
  lanes : g.executing w.c ≠ []
  feature : s.featureOk opc = true
  cls : g.classOk opc (sourceWords w.srcB) = true
  reserved : (e.reserved || e.modBad w || !(e.op w).reservedOk) = false
  operands : (e.illegal || !(e.op w).specsOk g.head.regs) = false
  good : g.badReaders (if e.once then (g.executing w.c).take 1 else g.executing w.c) (e.op w).regs = []
  tags : ∀ y ∈ if e.once then (g.executing w.c).take 1 else g.executing w.c, (e.op w).mismatch g y = none
  room : g.sbFull w.c.sb (g.executing w.c) = false

/-- A result in every executing lane of a slice (R34, log entry 31): its first register has the tag, the second of a pair is raw. -/
def onceWrites (lanes : List (Nat × Nat)) (d val : Nat) (tag : Byte) (wide : Bool) (p : Nat) : List RegWrite :=
  (lanes.filter (·.1 == p)).flatMap fun x =>
    ⟨some x.2, d, ⟨BitVec.ofNat 32 val, tag⟩⟩ ::
      (if wide then [⟨some x.2, d + 1, ⟨BitVec.ofNat 32 (val / 2 ^ 32), 0⟩⟩] else [])

/-! ### Memory words -/

/-- A memory word that no decode cause stops, with lanes to execute in, good registers, accepted tags and room on its scoreboard
(R26, R41, R44, R161, R269). -/
structure MemFits (s : State) (g : Gang) (opc : Nat) (w : MemWord) (fieldsOk operandsOk : Prop) (reads : List Nat)
    (badTag : Nat × Nat → Option Nat) : Prop where
  lanes : g.executing w.c ≠ []
  feature : s.featureOk opc = true
  cls : g.classOk opc 1 = true
  fields : fieldsOk
  operands : operandsOk
  good : g.badReaders (g.executing w.c) reads = []
  tags : ∀ x ∈ g.executing w.c, badTag x = none
  room : g.sbFull w.c.sb (g.executing w.c) = false

/-- The state beside memory and what goes with it: hint records, sectors gone bad or good, error logs, units, requests to memory and to other
chips and their counters, free values drawn, elided reads. -/
def State.besides (s : State) : State :=
  { s with
    mem := [], hints := [], badSectors := [], units := [], requests := [], controllers := [], links := [], nextId := 0, freeIdx := 0,
    dies := s.dies.map fun d => { d with errorLog := [] }, contexts := s.contexts.map fun c => { c with elided := 0 } }

/-- The state beside memory and its records stays, and so do the units but for unit u of the gang. -/
structure Beside (s r : State) (g : Gang) (u : WorkUnit) : Prop where
  besides : r.besides = s.besides
  unit : r.unit? g.u.uid = some u
  others : ∀ n, n ≠ g.u.uid → (r.unit? n).map (fun v => { v with snapshot := [] }) = (s.unit? n).map fun v => { v with snapshot := [] }

/-- The registers a load writes in slice p: each lane's run, the lowest part first, or a scalar run from the slice's lowest lane
(R271, R276). -/
def loaded (g : Gang) (w : MemWord) (scalar : Bool) (val : Nat × Nat → Nat) (p : Nat) : List RegWrite :=
  let run := fun lane d v => (List.range (2 ^ (w.size.toNat - 2))).map fun i =>
    (⟨lane, d + i, ⟨BitVec.ofNat 32 (v / 2 ^ (32 * i)), 0⟩⟩ : RegWrite)
  let mine := (g.executing w.c).filter (·.1 == p)
  if scalar then (mine.head?.map fun x => run none (w.data.toNat - 0x110) (val x)).getD []
  else mine.flatMap fun x => run (some x.2) w.data.toNat (val x)

/-- The word loads these values: memory stays, and its results are on their way. -/
def Loads (i : Instr) (s : State) (g : Gang) (w : MemWord) (space : Space) (scalar : Bool) (va val : Nat × Nat → Nat) : Prop :=
  ∃ r u qs, Completes i s r g w.c.y 1 ∧ r.mem = s.mem ∧ Beside s r g u ∧
    Issued g w.c.sb (g.executing w.c) (fun p => .load (((g.executing w.c).filter (·.1 == p)).map fun x =>
      { lane := x.2, space := space, va := BitVec.ofNat 64 (va x), bytes := 2 ^ w.size.toNat, dst := w.data.toNat, scalar := scalar }))
      (loaded g w scalar val) qs u

/-- The physical bytes a lane's store reaches, with the bytes stored. -/
def storedAt (ps : List Piece) (n v : Nat) : List (Nat × Byte) :=
  (ps.flatMap fun p => (List.range p.len).map (p.leaf.pa + ·)).zip ((List.range n).map fun i => BitVec.ofNat 8 (v / 2 ^ (8 * i)))

/-- The last byte stored at a place, else what stood there. -/
def afterStores (old : Byte) (stores : List (Nat × Byte)) (a : Nat) : Byte :=
  match stores.reverse.find? (·.1 == a) with
  | some e => e.2
  | none => old

/-- A number of n bytes in a byte function. -/
def numberIn (f : Nat → Byte) (a n : Nat) : Nat := leNat ((List.range n).map fun i => f (a + i))

/-- The byte function with a number of n bytes put into it. -/
def putNumber (f : Nat → Byte) (a n v : Nat) : Nat → Byte :=
  fun b => if a ≤ b ∧ b < a + n then BitVec.ofNat 8 (v / 2 ^ (8 * (b - a))) else f b

/-- Lanes, or elements, that act on bytes one after the other (R272, R278, R282): the bytes after them, and the old value each saw. -/
def atomicRun {α : Type} (n : Nat) (place : α → Nat) (result : α → Nat → Nat) :
    (Nat → Byte) → List α → (Nat → Byte) × List (α × Nat)
  | f, [] => (f, [])
  | f, x :: xs =>
    let old := numberIn f (place x) n
    let r := atomicRun n place result (putNumber f (place x) n (result x old)) xs
    (r.1, (x, old) :: r.2)

/-- The registers an atomic writes with the old values; the first of a run has the tag (R278, R279). -/
def oldValues (w : MemWord) (n : Nat) (tag : Byte) (olds : List ((Nat × Nat) × Nat)) (p : Nat) : List RegWrite :=
  (olds.filter (·.1.1 == p)).flatMap fun o =>
    ⟨some o.1.2, w.data.toNat, ⟨BitVec.ofNat 32 o.2, tag⟩⟩ ::
      (if n = 8 then [⟨some o.1.2, w.data.toNat + 1, ⟨BitVec.ofNat 32 (o.2 / 2 ^ 32), 0⟩⟩] else [])

/-- The atomics on memory, with their words and their entries (R47, R278, R279). -/
def atomInstr (fpm : BitVec 4) : Instr → Option (MemWord × AtomicEntry)
  | .atomAdd w => some (w, intAtomic 0x170)
  | .atomSmin w => some (w, intAtomic 0x171)
  | .atomSmax w => some (w, intAtomic 0x172)
  | .atomUmin w => some (w, intAtomic 0x173)
  | .atomUmax w => some (w, intAtomic 0x174)
  | .atomAnd w => some (w, intAtomic 0x175)
  | .atomOr w => some (w, intAtomic 0x176)
  | .atomXor w => some (w, intAtomic 0x177)
  | .atomExch w => some (w, intAtomic 0x178)
  | .atomCas w => some (w, intAtomic 0x179)
  | .atomIncw w => some (w, intAtomic 0x17A)
  | .atomDecw w => some (w, intAtomic 0x17B)
  | .fatomAdd w => some (w, floatAtomic fpm 0x14C 0)
  | .fatomMin w => some (w, floatAtomic fpm 0x14D 1)
  | .fatomMax w => some (w, floatAtomic fpm 0x14E 2)
  | _ => none

/-- The atomics on the scratchpad (R278). -/
def atomsInstr : Instr → Option (MemWord × AtomicEntry)
  | .atomsAdd w => some (w, intAtomic 0x160)
  | .atomsSmin w => some (w, intAtomic 0x161)
  | .atomsSmax w => some (w, intAtomic 0x162)
  | .atomsUmin w => some (w, intAtomic 0x163)
  | .atomsUmax w => some (w, intAtomic 0x164)
  | .atomsAnd w => some (w, intAtomic 0x165)
  | .atomsOr w => some (w, intAtomic 0x166)
  | .atomsXor w => some (w, intAtomic 0x167)
  | .atomsExch w => some (w, intAtomic 0x168)
  | .atomsCas w => some (w, intAtomic 0x169)
  | .atomsIncw w => some (w, intAtomic 0x16A)
  | .atomsDecw w => some (w, intAtomic 0x16B)
  | _ => none

/-- The results of an atomic in unit u: the old values on their way, or none under .nr (R278). -/
def AtomicResults (g : Gang) (w : MemWord) (tag : Byte) (olds : List ((Nat × Nat) × Nat)) (qs : List Nat) (u : WorkUnit) : Prop :=
  if w.cache then u = g.u
  else Issued g w.c.sb (g.executing w.c) (fun _ => .ready) (oldValues w (atomicBytes w) tag olds) qs u

/-- Unit v is unit u in which each of some lanes has been told by a predicate whether it is among the lanes that got something. -/
structure Told (lanes got : List (Nat × Nat)) (n : Nat) (u v : WorkUnit) : Prop where
  lanes : ∀ p, (v.slice p).lanes = (u.slice p).lanes.mapIdx fun j ln =>
    if (p, j) ∈ lanes then ln.setP n (decide ((p, j) ∈ got)) else ln
  slices : ∀ p, { v.slice p with lanes := [] } = { u.slice p with lanes := [] }
  unit : { v with slices := [] } = { u with slices := [] }

/-- From s to r a command of the gang's unit has entered queues of its bank (R290, R301), and its tag counts one more in flight. -/
structure Enqueued (s r : State) (g : Gang) (qs : List Nat) (c : Command) : Prop where
  queues : ∀ q, (r.bank g.u.core g.u.bank).queues.getD q [] =
    (s.bank g.u.core g.u.bank).queues.getD q [] ++ if q ∈ qs then [c] else []
  barriers : (r.bank g.u.core g.u.bank).barriers = (s.bank g.u.core g.u.bank).barriers
  banks : ∀ n b, ¬ (n = g.u.core ∧ (b = 0 ↔ g.u.bank = 0)) → r.bank n b = s.bank n b
  cores : ∀ n, { r.core n with bank0 := emptyBank, bank1 := emptyBank } = { s.core n with bank0 := emptyBank, bank1 := emptyBank }
  unit : r.unit? g.u.uid = some { g.u with tags := match c.tag with
    | some t => listModify g.u.tags t fun x => { x with infl := x.infl + 1 }
    | none => g.u.tags }
  others : ∀ n, n ≠ g.u.uid → r.unit? n = s.unit? n
  rest : { r with units := [], cores := [], nextId := 0 } = { s with units := [], cores := [], nextId := 0 }

/-- A word that issues a command (R290): it faults outside the producer gang, is held while a queue it names is full or commands of its unit
are still to come back to that queue after a restore (R425), and otherwise puts the command there and completes. -/
def Queues (i : Instr) (opc : Nat) (w : StdWord) (s : State) (g : Gang) (qs : List Nat) (kind : CommandKind) (tag : Option Nat)
    (counter : Option DWord) (scope : BitVec 2) : Prop :=
  let long := fun q => 64 ≤ ((s.bank g.u.core g.u.bank).queues.getD q []).length ∨ ∃ x ∈ g.u.parked, x.1 = q
  (g.ref.home ≠ g.u.pgang → exec i s = .next (s.enterTrap g (g.allTrap .copyRights (g.executing w.c) 0))) ∧
  (g.ref.home = g.u.pgang → (∃ q ∈ qs, long q) → exec i s = .next (s.holdWord g)) ∧
  (g.ref.home = g.u.pgang → (∀ q ∈ qs, ¬ long q) → ∃ r, Completes i s r g w.c.y 1 ∧
    Enqueued s r g qs ⟨s.nextId, g.u.uid, kind, tag, counter, scope, false, encodeStd opc w⟩)

end Sys2Proof.Machine
end

