-- ==== Sys2Proof/WellFormed.lean ====
section
/-! DEFINITION. Which instructions are well-formed: those the encodings of R35-R42 and R101 can carry, and device steps
whose subject the part has. -/

namespace Sys2Proof

/-- A standard body stands in a form its opcode accepts (R49-R51); the immediate form carries no source C and no modifier
(R36). -/
def StdWord.wf (opc : Nat) (w : StdWord) : Bool :=
  match w.srcB with
  | .spec _ => opc != opMovi
  | .imm _ => immediateOps.contains opc && w.srcC == 0 && w.mod == 0
  | .lit _ _ => literalOps.contains opc

/-- A raw word is one that no opcode is assigned to (R55). -/
def rawUnassigned (w : DWord) : Bool :=
  if w.extractLsb' 55 2 = 1 then
    (decodeHalf (w.extractLsb' 27 27)).isNone || (decodeHalf (w.extractLsb' 0 27)).isNone
  else
    let opc := (w.extractLsb' 46 9).toNat
    (stdTable.lookup opc).isNone && (memTable.lookup opc).isNone && (ctlTable.lookup opc).isNone

/-- A body that can be encoded, or a step the part can make. -/
def Body.wf : Body → Bool
  | .std opc w => w.wf opc
  | .mem _ _ => true
  | .ctl _ _ => true
  | .pair _ => true
  | .raw w => rawUnassigned w
  | .tack _ _ _ _ => true
  | .event inRange => inRange

/-- Well-formed instructions. -/
def Instr.wf (i : Instr) : Bool := i.body.wf

end Sys2Proof
end

