-- ==== Sys2Proof/Certificates/Slice0/Obligations.lean ====
section
/-! DEFINITION. The statements for the provers. -/

open Sys2Proof Sys2Proof.Machine

/-! ### Encodings, turns and what every step keeps -/

/-- Words written out from the encodings of the spec's tables decode to the instructions they stand for. -/
def Obligations.DecodesSpecWords : Prop :=
  let c : Common := { y := false, lu := 0, sb := 7, pred := 7, pneg := false }
  decode (.belga 0x0E00380202018000 none) = .ok (.iadd ⟨c, 1, 2, .spec 3, 0, 0⟩) ∧
  decode (.belga 0x0E05100202018116 none) = .ok (.lop3 ⟨{ c with pred := 2 }, 1, 2, .spec 3, 4, 0x16⟩) ∧
  decode (.belga 0x0E62380010000001 none) = .ok (.cpy ⟨c, 0, 16, .spec 0, 0, 1⟩) ∧
  decode (.belga 0x0E60380A02020201 none) = .ok (.sched ⟨c, 5, 2, .spec 4, 8, 1⟩) ∧
  decode (.belga 0x0E68F80408050000 none) = .ok (.mma ⟨c, 2, 8, .spec 10, 0, 0⟩) ∧
  decode (.tack 0x00C5850B) = .ok (.rfetch 10 11 12) ∧
  decode (.tack 0x0073128B) = .ok (.bfex 5 6 7) ∧
  decode (.tack 0x0005A50B) = .ok (.sigwait 10 11 0) ∧
  decode (.tack 0x0005B50B) = .ok (.dispatch 10 11)

/-- Decoding the words of a well-formed instruction gives it back, with every operand; and encoding what words decode to gives the words
back, with their literal where they take one. -/
def Obligations.EncodedWordsDecode : Prop :=
  (∀ (i : Instr) (c : Code), i.wf = true → encode i = some c → decode c = .ok i) ∧
  (∀ (w : DWord) (lit : Option DWord) (i : Instr), decode (.belga w lit) = .ok i →
    i.wf = true ∧ encode i = some (.belga w (if takesLiteral w then lit else none))) ∧
  ∀ (w : Word) (i : Instr), decode (.tack w) = .ok i → i.wf = true ∧ encode i = some (.tack w)

/-- A turn of the schedule runs its instruction: an issue gang's turn the word at its PC, a Tack core's the word at its pc, a device's
its event, each at the state that the turn's cycles and the word's charge leave. A word that would raise a full counter, or that waits for
another chip's answer, stays where it is (R26, R357). Which turn is taken is data of the state: the schedule is the model's (log entry 2).
What comes about before the turn, the word's issue, its charge and the turn's cycles are stated as the state exec runs at. -/
def Obligations.TurnsRunTheirInstructions : Prop :=
  ∀ (s : State) (d : Nat) (t : Turn) (rest : List (Nat × Turn)), s.settle.agenda = (d, t) :: rest →
    let r : State := { s.settle with clock := s.settle.clock + d, agenda := rest }
    (∀ ref g w lit, t = .gang ref → r.gangOf ref = some g →
      let q : State := { r with cur := ref, via := some g.u.core }
      q.mayIssue g = true → g.loadError = none → g.u.firstFault = none → g.head.clause.isSome = true → g.fetchWord q = .ok (w, lit) →
      (g.stalled w = true → step s = .next q) ∧
      ∀ i, g.stalled w = false → decode (.belga w lit) = .ok i →
        (q.remoteHeld g i = true → step s = .next q) ∧
        (q.remoteHeld g i = false → step s = exec i ((q.issueWord g lit.isSome).chargeWord g))) ∧
    (∀ die core w i, t = .tack die core → (r.die die).word (r.tack die core).pc.toNat = some w → decode (.tack w) = .ok i →
      step s = exec i { r with curTack := (die, core) }) ∧
    (∀ i, t = .event i → step s = exec i r) ∧
    ∀ die i, t = .system die i → step s = exec i { r with curTack := (die, 0) }

/-- What every step keeps: memory in its canonical form, the four dies, and what no step changes: the boot flash, the fuses, the
identity, the cores in service and the sensors. The canonical form of memory is the model's representation (log entry 4). -/
def Obligations.EveryStepKeepsItsInvariant : Prop :=
  ∀ s t : State, step s = .next t → Memory.wf s.mem = true → s.dies.length = 4 →
    Memory.wf t.mem = true ∧ t.dies.length = 4 ∧ t.fixed = s.fixed

/-- That invariant holds at reset. The canonical form of memory is the model's representation (log entry 4). -/
def Obligations.TheInvariantHoldsAtReset : Prop :=
  Memory.wf State.reset.mem = true ∧ State.reset.dies.length = 4

/-! ### Words on lanes -/

/-- An integer, logic, move, floating-point or cross-lane word that no check stops writes each executing lane's result, computed
from the values before the word (R6, R33), and the gang goes on to the next word. -/
def Obligations.LaneWordsWriteTheirResults : Prop :=
  ∀ (i : Instr) (x : LaneInstr) (s : State) (g : Gang), laneInstr i = some x → s.gang = some g → x.Fits s g →
    ∃ r u, Completes i s r g x.word.c.y (sourceWords x.word.srcB) ∧ Changes s r g.u.uid u ∧ Wrote (x.op s g) g (x.lanes s g) u

/-- What the integer, logic, shift and bit-field words compute of their sources, as R169-R175 write it. -/
def Obligations.IntegerResultsAreExact : Prop :=
  ∀ (w : StdWord) (s : State) (g : Gang) (y : Nat × Nat) (a b c : BitVec 32) (p q r : BitVec 64) (ta tb tc : Nat),
    let out := fun (i : Instr) (x y' z : Nat) => (laneInstr i).map fun l =>
      let o := (l.op s g).fn g y ⟨x, ta⟩ ⟨y', tb⟩ ⟨z, tc⟩; (o.val, o.tag, o.flags)
    let gives := fun (i : Instr) (v : BitVec 32) (tag : Nat) => out i a.toNat b.toNat c.toNat = some (v.toNat, tag, 0)
    let m0 := w.m.testBit 0
    let n := b.toNat
    let clamp := fun (lo hi x : Int) => BitVec.ofInt 32 (max lo (min hi x))
    let sum := fun (x y : Int) => if w.m.testBit 1 then x - y else x + y
    let k := if w.m.testBit 1 then min c.toNat 32 else c.toNat % 32
    let pos := b.toNat % 256
    let wd := min (b.toNat / 256 % 256) 32
    let field := BitVec.ofNat 32 (2 ^ wd - 1)
    gives (.iadd w) (a + b) 1 ∧ gives (.isub w) (a - b) 1 ∧ gives (.imul w) (a * b) 1 ∧
    gives (.imulh w) (if m0 then (a.zeroExtend 64 * b.zeroExtend 64).extractLsb' 32 32
      else (a.signExtend 64 * b.signExtend 64).extractLsb' 32 32) (if m0 then 2 else 1) ∧
    gives (.imad w) (a * b + c) 1 ∧
    out (.iadd64 w) p.toNat q.toNat 0 = some ((p + q).toNat, 1, 0) ∧
    (w.m % 4 = 0 → out (.imad64 w) p.toNat q.toNat r.toNat = some ((p * q + r).toNat, 1, 0)) ∧
    (w.m % 4 = 1 → out (.imad64 w) a.toNat b.toNat r.toNat = some ((a.signExtend 64 * b.signExtend 64 + r).toNat, 1, 0)) ∧
    (w.m % 4 = 2 → out (.imad64 w) a.toNat b.toNat r.toNat = some ((a.zeroExtend 64 * b.zeroExtend 64 + r).toNat, 1, 0)) ∧
    gives (.imin w) (if (if m0 then b.ult a else b.slt a) then b else a) (if m0 then 2 else 1) ∧
    gives (.imax w) (if (if m0 then a.ult b else a.slt b) then b else a) (if m0 then 2 else 1) ∧
    gives (.iabs w) (if m0 = true ∧ a = 0x80000000#32 then 0x7FFFFFFF#32 else a.abs) 1 ∧
    gives (.ineg w) (if m0 = true ∧ a = 0x80000000#32 then 0x7FFFFFFF#32 else -a) 1 ∧
    gives (.iadds w) (if m0 then clamp 0 (2 ^ 32 - 1) (sum a.toNat b.toNat) else clamp (-2 ^ 31) (2 ^ 31 - 1) (sum a.toInt b.toInt))
      (if m0 then 2 else 1) ∧
    gives (.and w) (a &&& b) 0 ∧ gives (.or w) (a ||| b) 0 ∧ gives (.xor w) (a ^^^ b) 0 ∧ gives (.not w) (~~~a) 0 ∧
    (∃ v : BitVec 32, gives (.lop3 w) v 0 ∧ ∀ j < 32, v.getLsbD j =
      (w.c.pred.setWidth 2 ++ w.mod : BitVec 8).getLsbD (4 * (a.getLsbD j).toNat + 2 * (b.getLsbD j).toNat + (c.getLsbD j).toNat)) ∧
    gives (.shl w) (a <<< n) 0 ∧ gives (.shr w) (a >>> n) 0 ∧ gives (.shra w) (a.sshiftRight (min n 31)) 0 ∧
    gives (.rotl w) (a.rotateLeft (n % 32)) 0 ∧
    gives (.fshf w) (if m0 then ((b ++ a : BitVec 64) <<< k).extractLsb' 32 32 else ((b ++ a : BitVec 64) >>> k).setWidth 32) 0 ∧
    gives (.bfx w) (if m0 then ((a.sshiftRight pos).setWidth wd).signExtend 32 else (a >>> pos) &&& field) (if m0 then 1 else 2) ∧
    gives (.bfi w) ((c &&& ~~~(field <<< pos)) ||| ((a <<< pos) &&& (field <<< pos))) 0 ∧
    gives (.brev w) a.reverse 0 ∧
    gives (.popc w) (BitVec.ofNat 32 ((List.range 32).countP a.getLsbD)) 2 ∧
    (∃ z ≤ 32, gives (.clz w) (BitVec.ofNat 32 z) 2 ∧ (∀ j < z, a.getMsbD j = false) ∧ (z < 32 → a.getMsbD z = true)) ∧
    ∃ z ≤ 32, gives (.ctz w) (BitVec.ofNat 32 z) 2 ∧ (∀ j < z, a.getLsbD j = false) ∧ (z < 32 → a.getLsbD z = true)

/-- Sums, products and fused products of finite numbers are the exact value rounded once in the mode: to the nearest, ties to even, or
towards the side the mode names; only a value beyond every finite one becomes infinite. -/
def Obligations.FloatResultsAreRoundedOnce : Prop :=
  ∀ (f : Ieee) (mode a b c : Nat), f ∈ [fp64, fp32, fp16, bf16] → mode < 4 →
    let finite := fun x => x < 2 ^ f.width ∧ f.isNan x = false ∧ f.isInf x = false
    let scale := f.bias + f.t - 1
    let v := fun x => (f.val x).at (-(scale : Int))
    let V := fun x => v x * 2 ^ scale
    let rounds := fun (X : Int) (r : Nat) =>
      (finite r → match mode with
        | 0 => ∀ x, finite x → (V r - X).natAbs ≤ (V x - X).natAbs ∧ ((V r - X).natAbs = (V x - X).natAbs → V x ≠ V r → r % 2 = 0)
        | 1 => (V r).natAbs ≤ X.natAbs ∧ 0 ≤ V r * X ∧ ∀ x, finite x → (V x).natAbs ≤ X.natAbs → (V x).natAbs ≤ (V r).natAbs
        | 2 => X ≤ V r ∧ ∀ x, finite x → X ≤ V x → V r ≤ V x
        | _ => V r ≤ X ∧ ∀ x, finite x → V x ≤ X → V x ≤ V r) ∧
      f.isNan r = false ∧ (f.isInf r = true → ∀ x, finite x → (V x).natAbs < X.natAbs)
    finite a → finite b → finite c →
      rounds (V a + V b) (f.add 0 mode false false a b).code ∧ rounds (V a - V b) (f.add 0 mode false true a b).code ∧
      rounds (v a * v b) (f.mul 0 mode false a b).code ∧ rounds (v a * v b + V c) (f.fma 0 mode false false a b c).code

/-- Such a word with no executing lane has no effect: the gang steps past it, whatever its fields hold (R45, R158). A word stopped by a
decode cause raises the first of them in R44's order, in its executing lanes, and has no other effect. -/
def Obligations.LaneWordsStepOnOrStopInOrder : Prop :=
  (∀ (i : Instr) (x : LaneInstr) (s : State) (g : Gang), laneInstr i = some x → s.gang = some g → x.lanes s g = [] →
     Completes i s s g x.word.c.y (sourceWords x.word.srcB)) ∧
  ∀ (i : Instr) (x : LaneInstr) (s : State) (g : Gang), laneInstr i = some x → s.gang = some g → x.lanes s g ≠ [] →
     let trap := fun c => exec i s = .next (s.enterTrap g (g.trapAt c (g.maskOf (x.lanes s g)) x.word.dst))
     (s.featureOk x.opc = false → trap .featureOff) ∧
     (s.featureOk x.opc = true → g.classOk x.opc (sourceWords x.word.srcB) = false → trap .clauseClass) ∧
     (s.featureOk x.opc = true → g.classOk x.opc (sourceWords x.word.srcB) = true → x.reserved s g = true → trap .reservedField) ∧
     (s.featureOk x.opc = true → g.classOk x.opc (sourceWords x.word.srcB) = true → x.reserved s g = false →
       x.illegal s g = true → trap .illegalOperand)

/-! ### Control flow -/

/-- BRA sends every active lane to its target, BRC those whose condition holds while the others wait at the join. -/
def Obligations.BranchesMoveTheirLanes : Prop :=
  ∀ (w : CtlWord) (s : State) (g : Gang), s.gang = some g →
    (CtlFits s g 0x1C0 w true 0 (2 ^ 36 - 1) → s.destFault g.u.ctx (g.target 36 w.ofs.toNat) = none →
      Turns (.bra w) s g w.c.y fun sl => sl.goesTo (g.target 36 w.ofs.toNat) sl.active sl.stack) ∧
    (CtlFits s g 0x1C1 w false 0 (2 ^ 36 - 1) →
      let target := g.target 18 (bitsOf w.ofs.toNat 35 18)
      let join := g.target 18 (bitsOf w.ofs.toNat 17 0)
      s.destFault g.u.ctx target = none → s.destFault g.u.ctx join = none → (∀ p ∈ g.ps, (joined (g.u.slice p) join).length ≤ 32) →
      Turns (.brc w) s g w.c.y fun sl =>
        let c := sl.condition w.c
        if c = sl.live then sl.goesTo target sl.active sl.stack
        else if c = 0 then sl.goesTo join sl.active sl.stack
        else sl.goesTo target c (joined sl join))

/-- BRX and CALLI run the lanes' targets one after another, in ascending address; the calls check their targets' entries and push
the return point; RET waits in the topmost return entry. -/
def Obligations.CallsAndReturnsMoveTheirLanes : Prop :=
  ∀ (s : State) (g : Gang), s.gang = some g → g.activePlaces ≠ [] →
    (∀ (c : Common) (a b : BitVec 9), c.pred = 7 → c.pneg = false → s.featureOk 0x110 = true → g.classOk 0x110 1 = true →
      pairSpecOk g.head.regs a.toNat = true → sRunOk b.toNat 2 2 = true →
      g.badReaders g.activePlaces (pairRegs a.toNat ++ pairRegs b.toNat) = [] →
      (∀ x ∈ g.activePlaces, s.destFault g.u.ctx (pairAddress (g.u.slice x.1) a.toNat x.2) = none ∧
        s.destFault g.u.ctx (pairAddress (g.u.slice x.1) b.toNat 0) = none) →
      (∀ p ∈ g.ps, (g.u.slice p).stack.length ≤ 28) → ∀ ts : Slice → List DWord,
      (∀ p ∈ g.ps, IsTargets (g.u.slice p).live (pairAddress (g.u.slice p) a.toNat) (ts (g.u.slice p))) →
      (∀ p ∈ g.ps, (g.u.slice p).live ≠ 0) →
      Turns (.brx ⟨c, 0, a, .spec b, 0, 0⟩) s g c.y fun sl =>
        let go := pairAddress sl a.toNat
        match ts sl with
        | [t] => sl.goesTo t sl.active sl.stack
        | t :: rest => sl.goesTo t (aiming sl.live go t) (resumes sl.live go rest ++ joined sl (pairAddress sl b.toNat 0))
        | [] => sl) ∧
    (∀ (c : Common) (a : BitVec 9), c.pred = 7 → c.pneg = false → s.featureOk 0x111 = true → g.classOk 0x111 1 = true →
      pairSpecOk g.head.regs a.toNat = true →
      g.badReaders g.activePlaces (pairRegs a.toNat) = [] →
      (∀ x ∈ g.activePlaces, s.destFault g.u.ctx (pairAddress (g.u.slice x.1) a.toNat x.2) = none ∧
        ∀ h, s.fetch g.u.ctx (pairAddress (g.u.slice x.1) a.toNat x.2) = .ok h → entryFault h g.head.regs = none) →
      (∀ p ∈ g.ps, (g.u.slice p).stack.length ≤ 28) → ∀ ts : Slice → List DWord,
      (∀ p ∈ g.ps, IsTargets (g.u.slice p).live (pairAddress (g.u.slice p) a.toNat) (ts (g.u.slice p))) →
      (∀ p ∈ g.ps, (g.u.slice p).live ≠ 0) →
      Turns (.calli ⟨c, 0, a, .spec 0, 0, 0⟩) s g c.y fun sl =>
        let go := pairAddress sl a.toNat
        match ts sl with
        | t :: rest => sl.goesTo t (aiming sl.live go t) (resumes sl.live go rest ++ ⟨.ret, g.returnPoint, sl.live⟩ :: sl.stack)
        | [] => sl) ∧
    (∀ w : CtlWord, CtlFits s g 0x1C2 w true 0 (2 ^ 36 - 1) → s.destFault g.u.ctx (g.target 36 w.ofs.toNat) = none →
      (∀ h, s.fetch g.u.ctx (g.target 36 w.ofs.toNat) = .ok h → entryFault h g.head.regs = none) →
      (∀ p ∈ g.ps, (g.u.slice p).stack.length < 32) →
      Turns (.call w) s g w.c.y fun sl =>
        sl.goesTo (g.target 36 w.ofs.toNat) sl.active (⟨.ret, g.returnPoint, sl.live⟩ :: sl.stack)) ∧
    (∀ w : CtlWord, CtlFits s g 0x1C3 w true 0 0 → ∀ (above : Slice → List StackEntry) (r : Slice → StackEntry)
        (below : Slice → List StackEntry),
      (∀ p ∈ g.ps, let sl := g.u.slice p
        sl.stack = above sl ++ r sl :: below sl ∧ (r sl).kind = .ret ∧ ∀ e ∈ above sl, e.kind ≠ .ret) →
      Turns (.ret w) s g w.c.y fun sl =>
        sl.goesTo (r sl).addr 0
          ((above sl).map (fun e => if e.kind = .join then { e with mask := e.mask &&& ~~~sl.live } else e) ++ r sl :: below sl))

/-- EXIT ends the active lanes whose guard holds, with what is outstanding to them; the slice goes on at the next clause. NOP only goes on;
YIELD goes on too, and its gang's next clause waits for the other ready gangs of its pipeline. When its last slice has exited a resident
unit leaves its bank: its barrier slots are freed, its gang slots leave every other slot, its launch counts it, and its lanes' registers are
looked at no more. -/
def Obligations.ExitsEndLanesAndUnits : Prop :=
  (∀ (w : CtlWord) (s : State) (g : Gang), s.gang = some g →
     (CtlFits s g 0x1C4 w false 0 0 → g.fenceTrap (g.executing w.c) = none →
       ∃ r, exec (.exit w) s = .next (r.finishJump g w.c.y) ∧
         Changes s r g.u.uid (g.u.modifySlices g.ps fun sl =>
           let gone := sl.condition w.c
           ({ sl with trackers := if sl.inTrap then sl.trackers else noTrackers, exited := sl.exited ||| gone,
                      active := sl.active &&& ~~~gone, pend := sl.pend.map (·.without gone) } : Slice).advance 1)) ∧
     (CtlFits s g 0x1C7 w true 0 0 → Completes (.nop w) s s g w.c.y 1) ∧
     (CtlFits s g 0x1C6 w true 0 0 → Follows s (s.finishWord g w.c.y 1) g.u.uid g.ps ∧
       exec (.yield w) s = .next ((s.finishWord g w.c.y 1).modifyUnit g.u.uid fun u =>
         u.modifySlices g.ps fun sl => { sl with yieldTo := some [] }))) ∧
  (∀ (s : State) (g : Gang), s.gangOf g.ref = some g → (∀ h, g.clauseHeader s = .ok h → s.yieldHeld g.u g.ref.home g.ref.ig = true →
     exec (.clauseStart g.ref) s = .next s)) ∧
  (∀ (s : State) (u : WorkUnit) (home ig : Nat), s.yieldHeld u home ig = true ↔ ∃ since, ((u.positions home ig).findSome? fun p =>
     (u.slice p).yieldTo) = some since ∧ ∃ v ∈ s.units, v.residence = .resident ∧ v.core = u.core ∧ v.bank = u.bank ∧ ∃ sl ∈ v.slices,
       let o : GangRef := ⟨v.uid, sl.home, sl.ig⟩
       o ≠ ⟨u.uid, home, ig⟩ ∧ v.slots.getD sl.home 0 % 4 = u.slots.getD home 0 % 4 ∧ sl.hasExited = false ∧
         s.readyBut v sl.home sl.ig = true ∧ o ∉ since ∧ ∀ l, sl.yieldTo = some l → (⟨u.uid, home, ig⟩ : GangRef) ∈ l) ∧
  ∀ (s : State) (uid : Nat) (u : WorkUnit) (l : Launch), s.unit? uid = some u → s.launch? u.die u.lslot = some l →
     u.residence = .resident → u.slices.all Slice.hasExited = true → u.det = false →
     let t := s.afterSlices uid
     (∃ v, t.unit? uid = some v ∧ v.residence = .exited ∧ v.releases.map (·.name) =
       u.releases.map (·.name) ++ u.releases.foldl (fun n r => n.erase r.name) u.segs) ∧
     (∃ m, t.launch? u.die u.lslot = some m ∧ m.exited = l.exited + 1 ∧ m.units = l.units + (if l.kind < 2 then 1 else u.nlanes)) ∧
     (∀ n ∈ u.bslots, ((t.bank u.core u.bank).slot n).live = false) ∧
     (∀ n, ((t.bank u.core u.bank).slot n).members &&& slotMask u.slots = 0) ∧
     t.mem = s.mem

/-- REGANG takes in every other issue gang of its home gang that meets R154; their slices go on with its own, behind it, and the operand
file is not written from there on. That a parked gang may be absorbed is read from the spec by inference (log entry 29). -/
def Obligations.RegangFusesIssueGangs : Prop :=
  ∀ (w : CtlWord) (s : State) (g : Gang) (cl : Clause) (h : Header), s.gang = some g → CtlFits s g 0x1C5 w true 0 0 →
    g.head.clause = some cl → s.headerAt g.u.ctx cl.header = some h →
    let ok := fun sl => g.u.absorbable (fun home _ => s.throttledHome g.u home) g.pc cl h.wait sl
    let absorbed := fun p => p < g.u.slices.length ∧ (g.u.slice p).home = g.ref.home ∧ (g.u.slice p).ig ≠ g.ref.ig ∧
      (g.u.slice p).hasExited = false ∧ ∀ q, q < g.u.slices.length → (g.u.slice q).home = g.ref.home →
        (g.u.slice q).ig = (g.u.slice p).ig → (g.u.slice q).hasExited = false → ok (g.u.slice q) = true
    ∃ r u ps, exec (.regang w) s = .next (r.finishWord { g with ps := ps } w.c.y 1) ∧
      Follows r (r.finishWord { g with ps := ps } w.c.y 1) g.u.uid ps ∧ Changes s r g.u.uid u ∧
      (∀ p, p ∈ ps ↔ p ∈ g.ps ∨ absorbed p) ∧
      { u with slices := [], badRegs := [] } = { g.u with slices := [], badRegs := [] } ∧
      (∀ b, b ∈ u.badRegs → b ∈ g.u.badRegs) ∧ (∀ b ∈ g.u.badRegs, b ∉ u.badRegs → 0x100 ≤ b.2 ∧ b.2 < 0x110) ∧
      ∀ p, (p ∈ g.ps → u.slice p = (g.u.slice p).clearQ) ∧
        (p ∉ g.ps → absorbed p → u.slice p =
          { (g.u.slice p).clearQ with pc := g.pc, clause := g.head.clause, ig := g.ref.ig, parked := false, wait := .none }) ∧
        (p ∉ g.ps → ¬ absorbed p → u.slice p = g.u.slice p)

/-! ### Traps -/

/-- Taking a trap: the slices that hold a named lane save their state and start the handler; the gang's other slices are held at the word;
nothing else changes. Where no handler is to be entered the launch aborts: without a vector with the cause as its status (R407), in a
handler with TRAP_NESTED (R412). Either way the record is the fault's. -/
def Obligations.TakingATrapStartsOrAborts : Prop :=
  (∀ (s : State) (g : Gang) (tr : Trap) (vector h : DWord), s.gang = some g → g.holding tr.lanes ≠ [] →
     (∀ p ∈ g.holding tr.lanes, (g.u.slice p).inTrap = false) → wordOf g.l.vectors tr.cause.code = vector → vector ≠ 0 →
     s.fetch g.u.ctx vector = .ok h → headerFault h = none → entryFault h g.u.regs = none →
     ∃ u, Changes s (s.enterTrap g tr) g.u.uid u ∧
       (∀ p ∈ g.holding tr.lanes, Entered tr vector (wordBits h 31 24) g.u.nextTrap (g.u.slice p) (u.slice p) ∧
         (u.slice p).ig = g.u.nextIg) ∧
       (∀ p ∈ g.ps, p ∉ g.holding tr.lanes → u.slice p = { g.u.slice p with heldBy := some g.u.nextTrap }) ∧
       (∀ p, p ∉ g.ps → u.slice p = g.u.slice p) ∧
       { u with slices := [], nextTrap := 0, nextIg := 0, bkpts := [] } = { g.u with slices := [], nextTrap := 0, nextIg := 0, bkpts := [] } ∧
       u.bkpts = g.u.bkpts ++ (if tr.bkpt then [g.u.nextTrap] else [])) ∧
  ∀ (s : State) (g : Gang) (tr : Trap) (l : Launch), s.gang = some g → s.launch? g.u.die g.u.lslot = some l → l.abort = none →
     g.holding tr.lanes ≠ [] →
     ((∀ p ∈ g.holding tr.lanes, (g.u.slice p).inTrap = false) → wordOf g.l.vectors tr.cause.code = 0 →
       ∃ m, (s.enterTrap g tr).launch? g.u.die g.u.lslot = some m ∧
         m.abort = some (⟨2, tr.cause.code, s.chip⟩, g.record tr tr.cause.code)) ∧
     ((∃ p ∈ g.holding tr.lanes, (g.u.slice p).inTrap = true) →
       ∃ m, (s.enterTrap g tr).launch? g.u.die g.u.lslot = some m ∧
         m.abort = some (⟨2, 0x72, s.chip⟩, g.record tr tr.cause.code))

/-- TFENCE, TRAP, BKPT and a word with an unassigned opcode: where they trap and where they go on. A trap fence traps with the least enabled
flag that is set in a checked lane, in the lanes that hold it, with the flag's tracker as the record; in a handler, or where no enabled flag
is set, it passes. -/
def Obligations.TrapWordsAndFencesTrap : Prop :=
  (∀ (w : CtlWord) (s : State) (g : Gang), s.gang = some g →
     (CtlFits s g 0x1E0 w true 0 0 → (∀ p ∈ g.ps, (g.u.slice p).pend = []) → g.fenceTrap g.activePlaces = none →
       ∃ r, Completes (.tfence w) s r g w.c.y 1 ∧ Changes s r g.u.uid (g.u.modifySlices g.ps fun sl =>
         if sl.inTrap then sl else { sl with trackers := noTrackers })) ∧
     (CtlFits s g 0x1E1 w false 0 0xFFFF → g.executing w.c ≠ [] →
       ∃ tr : Trap, exec (.trap w) s = .next (s.enterTrap g tr) ∧ tr.Names g .softTrap (g.executing w.c) (g.pc + 8) ∧
         (∀ sl, tr.dst sl = 0) ∧ ∀ n, tr.info n = w.ofs.setWidth 32) ∧
     (CtlFits s g 0x1E2 w false 0 0xFFFF → g.executing w.c ≠ [] → wordOf g.l.vectors 0x70 ≠ 0 →
       ∃ tr : Trap, exec (.bkpt w) s = .next (s.enterTrap g tr) ∧ tr.Names g .bkpt (g.executing w.c) (g.pc + 8) ∧
         tr.bkpt = true ∧ (∀ sl, tr.dst sl = 0) ∧ ∀ n, tr.info n = w.ofs.setWidth 32) ∧
     (g.executing w.c = [] → Completes (.trap w) s s g w.c.y 1 ∧ Completes (.bkpt w) s s g w.c.y 1) ∧
     (CtlFits s g 0x1E2 w false 0 0xFFFF → wordOf g.l.vectors 0x70 = 0 → Completes (.bkpt w) s s g w.c.y 1) ∧
     (∀ x : DWord, g.rawLanes x ≠ [] →
       ∃ tr : Trap, exec (.unassignedOpcode x) s = .next (s.enterTrap g tr) ∧
         tr.Names g .illegalOpcode (g.rawLanes x) g.pc) ∧
     (∀ x : DWord, g.rawLanes x = [] →
       Completes (.unassignedOpcode x) s s g (x.getLsbD 63) (if takesLiteral x && !g.lastWord 1 then 2 else 1))) ∧
  ∀ (g : Gang) (checked : List (Nat × Nat)),
     let lanes := checked.filter fun x => !(g.u.slice x.1).inTrap
     let enabled := fun b => if b = 7 then (wordOf g.l.vectors 0).getLsbD 7 = true else b < 5 ∧ (wordOf g.l.vectors 0).getLsbD b = true
     let raised := fun b => enabled b ∧ ∃ x ∈ lanes, (g.u.lane x.1 x.2).flags.getLsbD b = true
     ((∀ b, ¬ raised b) → g.fenceTrap checked = none) ∧
     ∀ b, raised b → (∀ c < b, ¬ raised c) → ∃ tr : Trap, g.fenceTrap checked = some tr ∧ tr.cause.code = 0x30 + b ∧
       tr.lanes = g.maskOf (lanes.filter fun x => (g.u.lane x.1 x.2).flags.getLsbD b) ∧ tr.tpc = g.pc ∧
       ∀ sl : Slice, (tr.pc sl, tr.dst sl) = match sl.trackers[if b = 7 then 5 else b]? with
         | some (some k) => (k.pc, k.dst)
         | _ => (0, 0)

/-- RTT ends the trap of its slices: what the trap saved is restored, and they go on at the resume point or past it. -/
def Obligations.RttRestoresWhatTheTrapSaved : Prop :=
  ∀ (w : CtlWord) (s : State) (g : Gang), s.gang = some g → CtlFits s g 0x1E3 w true 1 0 →
    (∀ p ∈ g.ps, (g.u.slice p).inTrap = true) →
    ∃ r u, exec (.rtt w) s = .next (r.finishJump g w.c.y) ∧ Changes s r g.u.uid u ∧
      (((r.finishJump g w.c.y).unit? g.u.uid).map (·.interval) = (r.unit? g.u.uid).map (·.interval) →
        Undisturbed r (r.finishJump g w.c.y)) ∧
      (∀ p ∈ g.ps, ∃ sl, sl = g.u.slice p ∧ (u.slice p).inTrap = false ∧ (u.slice p).tbkpt = false ∧
        (u.slice p).active = sl.tmask &&& ~~~sl.exited ∧ (u.slice p).regs = sl.tregs ∧
        (u.slice p).atEntry = (sl.tentry && (u.slice p).pc == sl.tpc) ∧
        (sl.tdepth ≤ sl.stack.length → (u.slice p).stack.length = sl.tdepth) ∧ (u.slice p).stack <:+ sl.stack ∧
        (u.slice p).pc = (if w.m.testBit 0 then s.wordAfter g.u.ctx sl else sl.tpc) ∧
        (∀ j, j < sl.lanes.length → (u.slice p).lane j = { sl.lane j with q := sl.tq.getD j [] }) ∧
        (u.slice p).s = sl.s) ∧
      (∀ p, p ∉ g.ps → u.slice p = g.u.slice p) ∧
      { u with slices := [] } = { g.u with slices := [] }

/-! ### Further words on lanes -/

/-- FSTAT waits until the gang's earlier words have written their results and then reads and clears the flags as R244 says. That FSTAT
waits for long-latency results too is the model's reading of R244 (log entry 29). -/
def Obligations.FstatReadsAndClearsFlags : Prop :=
  ∀ (w : StdWord) (s : State) (g : Gang), s.gang = some g →
    let x : LaneInstr := ⟨0x0C3, w, fun _ _ => fstatEntry w⟩
    x.Fits s g →
    ((∀ p ∈ g.ps, (g.u.slice p).pend = []) →
      ∃ r u, Completes (.fstat w) s r g w.c.y (sourceWords w.srcB) ∧ Changes s r g.u.uid u ∧ Wrote (x.op s g) g (x.lanes s g) u ∧
        ∀ y ∈ x.lanes s g, ∀ ln : Lane,
          let o := (x.op s g).out g y
          let f := (g.u.lane y.1 y.2).flags
          (o.val, o.tag) = ((f &&& 0x9F).toNat, 2) ∧
          (o.lane ln).flags = match w.m % 4 with
            | 0 => ln.flags
            | 1 => 0
            | _ => ln.flags &&& ~~~(BitVec.ofNat 8 ((x.op s g).operands g y).1.val &&& 0x9F)) ∧
    ((∃ p ∈ g.ps, (g.u.slice p).pend ≠ []) → x.lanes s g ≠ [] → exec (.fstat w) s = .next (s.holdWord g))

/-- A paired word computes both halves from the values before it and writes both. MATCH and REDUX issue one long-latency result a slice,
whose values are those of the moment of issue. -/
def Obligations.PairedMatchAndReduxGiveResults : Prop :=
  (∀ (w : PairWord) (s : State) (g : Gang), s.gang = some g → w.rsv = false → pairConflict w = false →
     s.featureOk (pairEntry w.first.op).1 = true → g.classOk (pairEntry w.first.op).1 1 = true →
     (∀ op ∈ [halfOp w.first, halfOp w.second], op.specsOk g.head.regs = true ∧ g.badReaders g.activePlaces op.regs = [] ∧
       ∀ y ∈ g.activePlaces, op.mismatch g y = none) →
     g.sbFull w.sb g.activePlaces = false →
     ∃ r u, Completes (.pairedWord w) s r g w.y 1 ∧ Changes s r g.u.uid u ∧
       (∀ p ∈ g.ps, (u.slice p).lanes = (g.u.slice p).lanes.mapIdx fun j ln =>
         if (p, j) ∈ g.activePlaces then
           (halfOp w.second).writeLane ((halfOp w.second).out g (p, j)) ((halfOp w.first).writeLane ((halfOp w.first).out g (p, j)) ln)
         else ln) ∧
       (∀ p, { u.slice p with lanes := [], trackers := [] } = { g.u.slice p with lanes := [], trackers := [] }) ∧
       (∀ p, p ∉ g.ps → u.slice p = g.u.slice p) ∧
       { u with slices := [], badRegs := [] } = { g.u with slices := [], badRegs := [] }) ∧
  ∀ (w : StdWord) (s : State) (g : Gang) (i : Instr) (opc : Nat) (e : AluEntry), s.gang = some g →
     (i = .matchLanes w ∧ opc = 0x10C ∧ e = matchLanesEntry w g ∨ i = .redux w ∧ opc = 0x10D ∧ e = reduxEntry w g) →
     let x : LaneInstr := ⟨opc, w, fun _ _ => e⟩
     x.Fits s g → w.dst.toNat < 256 → sourceWords w.srcB = 1 →
     ∃ r u, Completes i s r g w.c.y 1 ∧ Changes s r g.u.uid u ∧
       Issued g w.c.sb (x.lanes s g) (fun _ => .ready) (fun p => ((x.lanes s g).filter (·.1 == p)).map fun y =>
         ⟨some y.2, w.dst.toNat, ⟨BitVec.ofNat 32 ((x.op s g).out g y).val, BitVec.ofNat 8 ((x.op s g).out g y).tag⟩⟩) [] u

/-! ### Cohorts -/

/-- COHNEW, COHFREE, JOIN and LEAVE act once, on source A of the lowest executing lane, and give their result, tagged n32, to every
executing lane. In one cycle they act in ascending gang slot (R198); that a gang whose slot is below that of one that has acted waits for the
next cycle is the model's reading (log entry 2). -/
def Obligations.CohortWordsActOnce : Prop :=
  ∀ (w : StdWord) (s : State) (g : Gang) (y : Nat × Nat) (rest : List (Nat × Nat)), s.gang = some g → g.executing w.c = y :: rest →
    let a := ((g.u.slice y.1).readSpec y.2 (intUse false anyTag) w.srcA.toNat).val
    let fits := fun opc => LaneInstr.Fits ⟨opc, w, fun _ _ => cohortEntry w g.head.regs⟩ s g
    let bank := s.bank g.u.core g.u.bank
    let late := ∃ n, bank.lastOp = some (s.clock, n) ∧ g.slot < n
    let ends := fun i v after => (late → exec i s = .next s) ∧ (¬ late →
      ∃ r, Completes i s r g w.c.y 1 ∧ Undisturbed ((s.noteSlot g).giveLanes g (g.executing w.c) w.dst v) r ∧
        ∀ n, (r.bank g.u.core g.u.bank).slot n = after n)
    let me := slotBit g.slot
    (fits 0x118 →
      (∀ n, n ∈ g.u.bslots.drop 1 → (bank.slot n).live = false → (∀ m ∈ g.u.bslots.drop 1, m < n → (bank.slot m).live = true) →
        ends (.cohnew w) n fun k => if k = n then ⟨g.u.slots.headD 0, g.cohortMembers a, 0, false, true⟩ else bank.slot k) ∧
      ((∀ n ∈ g.u.bslots.drop 1, (bank.slot n).live = true) → ends (.cohnew w) 0xFFFFFFFF bank.slot)) ∧
    (s.cohortSlot g a = none →
      (fits 0x119 → ends (.cohfree w) 1 bank.slot) ∧ (fits 0x11A → ends (.join w) 1 bank.slot) ∧
      (fits 0x11B → ends (.leave w) 1 bank.slot)) ∧
    (∀ n o, s.cohortSlot g a = some (n, o) →
      (fits 0x119 → o.uid ≠ g.u.uid → ends (.cohfree w) 1 bank.slot) ∧
      (fits 0x119 → o.uid = g.u.uid → (bank.slot n).members &&& ~~~me ≠ 0 → ends (.cohfree w) 2 bank.slot) ∧
      (fits 0x11A → o.die = g.u.die → o.lslot = g.u.lslot → (bank.slot n).members.getLsbD g.slot = true → ends (.join w) 2 bank.slot) ∧
      (fits 0x11A → o.die = g.u.die → o.lslot = g.u.lslot → (bank.slot n).members.getLsbD g.slot = false →
        ends (.join w) 0 fun k => if k = n then { bank.slot n with members := (bank.slot n).members ||| me } else bank.slot k) ∧
      (fits 0x11A → ¬ (o.die = g.u.die ∧ o.lslot = g.u.lslot) → ends (.join w) 1 bank.slot) ∧
      (fits 0x119 → o.uid = g.u.uid → (bank.slot n).members &&& ~~~me = 0 → ends (.cohfree w) 0 fun k =>
        (if k = n then { bank.slot n with live := false, members := 0, arrived := 0 } else bank.slot k).settled) ∧
      (fits 0x11B → (bank.slot n).members.getLsbD g.slot = false → ends (.leave w) 2 bank.slot) ∧
      (fits 0x11B → (bank.slot n).members.getLsbD g.slot = true → ends (.leave w) 0 fun k =>
        (if k = n then { bank.slot n with members := (bank.slot n).members &&& ~~~me, arrived := (bank.slot n).arrived &&& ~~~me }
          else bank.slot k).settled))

/-! ### Barriers, tickets and merge points -/

/-- BAR and CBAR arrive once and wait for the phase; ARRIVE arrives and goes on; WAITB goes on once its last arrival's phase is over; a
slice's second arrival in one phase is held, the gang's other slices arrive. Each slice keeps the phase of its last arrival. A home gang
has arrived at a slot when all its slices that have not exited have; a phase whose members have all arrived is over, and so is the wait of
its waiters (R392). -/
def Obligations.BarrierWordsArriveAndPhasesEnd : Prop :=
  (∀ (s : State) (g : Gang), s.gang = some g →
     let slot := g.u.bslots.headD 0
     let bank := s.bank g.u.core g.u.bank
     let stands := fun n (sl : Slice) => ∃ a ∈ sl.arrivals, a.1 = n
     let epoch := if g.u.det ∧ g.l.kind < 2 then some g.u.interval else none
     let come := fun n (wait : Wait) (open' : Bool) (sl : Slice) =>
       { sl with arrivals := sl.arrivals ++ [(n, (bank.slot n).phase)], lastPhase := (bank.slot n).phase, wait := wait, unwaited := open' }
     let Arrives := fun i n (wait : Wait) (open' : Bool) => ∀ u,
       { u with slices := [] } = { g.u with slices := [] } → u.slices.length = g.u.slices.length →
       (∀ p, p ∉ g.ps → u.slice p = g.u.slice p) →
       (∀ p ∈ g.ps, let sl := g.u.slice p
         (sl.wait = .done → u.slice p = sl) ∧ (sl.wait ≠ .done → stands n sl → u.slice p = { sl with wait := .again }) ∧
         (sl.wait ≠ .done → ¬ stands n sl → u.slice p = come n wait open' sl)) → Waits i s g u
     let passed := ∀ p ∈ g.ps, (g.u.slice p).wait = .done
     let under := ∃ p ∈ g.ps, (g.u.slice p).wait.isWaiting = true
     let at' := fun n => Wait.barrier n (bank.slot n).phase (if n = slot then epoch else none)
     (∀ w : CtlWord, CtlFits s g 0x1D0 w true 0 0 →
       (passed → Completes (.bar w) s s g w.c.y 1) ∧ (under → exec (.bar w) s = .next s) ∧
       (¬ passed → ¬ under → Arrives (.bar w) slot (at' slot) false)) ∧
     (∀ w : CtlWord, CtlFits s g 0x1D1 w true 0 0 →
       let held := ∃ p ∈ g.ps, (g.u.slice p).wait ≠ .done ∧ stands slot (g.u.slice p)
       (¬ held → ∃ r, Completes (.arrive w) s r g w.c.y 1 ∧ Changes s r g.u.uid (g.u.modifySlices g.ps fun sl =>
         if sl.wait = .done then sl else come slot sl.wait true sl)) ∧
       (held → Arrives (.arrive w) slot .done true)) ∧
     (∀ w : CtlWord, CtlFits s g 0x1D2 w true 0 0 →
       let held := ∃ p ∈ g.ps, stands slot (g.u.slice p)
       (¬ held → ∃ r, Completes (.waitb w) s r g w.c.y 1 ∧
         Changes s r g.u.uid (g.u.modifySlices g.ps fun sl => { sl with unwaited := false })) ∧
       (held → exec (.waitb w) s = .next (s.holdWord g))) ∧
     (∀ (c : Common) (a : BitVec 9), c.pred = 7 → c.pneg = false → s.featureOk 0x11C = true → g.classOk 0x11C 1 = true →
       g.activePlaces ≠ [] → srcSpecOk g.head.regs false false a.toNat = true →
       g.badReaders g.activePlaces (if a.toNat < 0x150 then [a.toNat] else []) = [] →
       let w : StdWord := ⟨c, 0, a, .spec 0, 0, 0⟩
       let n := match g.activePlaces with
         | x :: _ => ((g.u.slice x.1).readSpec x.2 (intUse false anyTag) a.toNat).val
         | [] => 0
       let mine := n < 32 ∧ (bank.slot n).live = true ∧ (bank.slot n).members.getLsbD g.slot = true
       (passed → Completes (.cbar w) s s g c.y 1) ∧ (under → exec (.cbar w) s = .next s) ∧
       (¬ passed → ¬ under → mine → Arrives (.cbar w) n (at' n) false) ∧
       (¬ passed → ¬ under → ¬ mine →
         exec (.cbar w) s = .next (s.enterTrap g (g.trapAt .cohortMisuse (g.maskOf g.activePlaces) 0))))) ∧
  ∀ (s : State) (uid : Nat) (u : WorkUnit), s.unit? uid = some u →
     let homes := List.range u.slots.length
     let running := fun h (sl : Slice) => sl ∈ u.slices ∧ sl.home = h ∧ sl.hasExited = false
     let bank := s.bank u.core u.bank
     let t := s.refreshArrivals uid
     ∃ gone : Word, (∀ n, gone.getLsbD n = true ↔ n < 32 ∧ ∃ h ∈ homes, u.slots.getD h 0 = n ∧ ∀ sl, ¬ running h sl) ∧
       ∀ n, ∃ come : Word,
         (∀ k, come.getLsbD k = true ↔ k < 32 ∧ ∃ h ∈ homes, u.slots.getD h 0 = k ∧ (∃ sl, running h sl) ∧
           (∀ sl, running h sl → ∃ a ∈ sl.arrivals, a.1 = n) ∧ ((bank.slot n).members &&& ~~~gone).getLsbD k = true) ∧
         let b := { bank.slot n with
           members := (bank.slot n).members &&& ~~~gone, arrived := ((bank.slot n).arrived &&& ~~~gone) ||| come }
         (t.bank u.core u.bank).slot n = b.settled ∧
         (n < 32 → b.settled ≠ b → ∀ v, t.unit? uid = some v → u.residence = .resident → ∀ sl ∈ v.slices, (∀ a ∈ sl.arrivals, a.1 ≠ n) ∧
           ∀ ph e, sl.wait ≠ .barrier n ph e)

/-- TKWAIT goes on at the unit's turn and is held before it; TKPASS passes the turn on. Without the turn, or in a launch without tickets,
the pass faults. The turn moves past every unit that has exited or is complete, and stands at the first that is neither. -/
def Obligations.TicketsKeepTheirOrder : Prop :=
  (∀ (s : State) (g : Gang), s.gang = some g →
     let turn := g.l.turn = BitVec.ofNat 64 g.u.unitId
     (∀ (c : Common) (d : BitVec 9) (p : Bool), d.toNat < 8 → (p = false → d = 0) → g.executing c ≠ [] →
       s.featureOk 0x11D = true → g.classOk 0x11D 1 = true → g.sbFull c.sb (g.executing c) = false →
       let w : StdWord := ⟨c, d, 0, .spec 0, 0, if p then 1 else 0⟩
       let takes := fun b => ∃ r u, Completes (.tkwait w) s r g c.y 1 ∧ Changes s r g.u.uid u ∧
         TookPredicate g (g.executing c) d.toNat b u
       (g.l.kind < 2 → g.l.abort = none → turn → if p then takes false else Completes (.tkwait w) s s g c.y 1) ∧
       (g.l.kind < 2 → g.l.abort = none → ¬ turn → exec (.tkwait w) s = .next (s.holdWord g)) ∧
       (g.l.kind < 2 → g.l.abort ≠ none →
         if p then takes true else exec (.tkwait w) s = .next (s.enterTrap g (g.allTrap .ticketAbort (g.executing c) d))) ∧
       (2 ≤ g.l.kind → exec (.tkwait w) s = .next (s.enterTrap g (g.allTrap .ticketOrder (g.executing c) d)))) ∧
     (∀ w : CtlWord, CtlFits s g 0x1D3 w true 0 0 →
       (g.l.kind < 2 → turn → ∃ r, Completes (.tkpass w) s r g w.c.y 1 ∧ r = s.modifyLaunch g.u.die g.u.lslot fun l =>
         { l with turn := l.turnFrom (s.exitedIds g.u.die g.u.lslot) (BitVec.ofNat 64 g.u.unitId + 1) }) ∧
       (2 ≤ g.l.kind ∨ ¬ turn →
         exec (.tkpass w) s = .next (s.enterTrap g (g.allTrap .ticketOrder g.activePlaces 0))))) ∧
  ∀ (l : Launch) (exited : List Nat) (t : DWord),
     t.toNat + exited.length + (l.frontier.map (·.completed)).getD 0 < 2 ^ 64 →
     let gone := fun n => n ∈ exited ∨ l.pointDone n = true
     let r := l.turnFrom exited t
     t.toNat ≤ r.toNat ∧ (∀ n, t.toNat ≤ n → n < r.toNat → gone n) ∧ ¬ gone r.toNat

/-- DMERGE ends the interval with the unit's other gangs in deterministic mode, and elsewhere has no effect. -/
def Obligations.DmergeEndsTheInterval : Prop :=
  ∀ (w : CtlWord) (s : State) (g : Gang), s.gang = some g → CtlFits s g 0x1D4 w true 0 0 →
    (¬ (g.u.det = true ∧ g.l.kind < 2) ∨ g.head.wait = .done → Completes (.dmerge w) s s g w.c.y 1) ∧
    (g.u.det = true → g.l.kind < 2 → g.head.wait ≠ .done → g.head.wait.isWaiting = false →
      Waits (.dmerge w) s g (g.u.modifySlices g.ps fun sl => { sl with dmergeAt := true, wait := .merge g.u.interval })) ∧
    (∀ (r : State) (u : WorkUnit) (l : Launch), r.unit? g.u.uid = some u → r.launch? u.die u.lslot = some l → u.residence = .resident →
      u.running ≠ [] → u.running.all (·.dmergeAt) = true → u.running.all (fun sl => sl.ocloseAt == none) = true →
      ∃ v, (r.refreshOnce g.u.uid).unit? g.u.uid = some v ∧ v.interval = u.interval + 1 ∧
        (l.kind = 1 → v.buffer = [] ∧ v.ordWords = []) ∧
        ∀ p sl, u.slices[p]? = some sl → ∀ k, sl.wait = .merge k →
          (v.slice p).wait = if l.kind = 1 then .done else .merge u.interval)

/-! ### Tags -/

/-- TAGEXP arms a free tag of the producer gang; a tag that is not free overruns. The tag waits go on when their tags are ready, report the
lowest failed tag first, and are held otherwise. -/
def Obligations.TagsAreArmedAndWaitedFor : Prop :=
  (∀ (w : StdWord) (s : State) (g : Gang), s.gang = some g →
     let tag := onceValue g w false (.spec w.srcA)
     let n := onceValue g w false w.srcB
     OnceFits s g 0x18B w { once := true, dst := .unused, a := src32 anyTag, b := src32 anyTag, fn := fun _ _ _ _ _ => {} } →
     sourceWords w.srcB = 1 → tag < g.u.ntags →
     (g.ref.home ≠ g.u.pgang → exec (.tagexp w) s = .next (s.enterTrap g (g.allTrap .copyRights (g.executing w.c) w.dst))) ∧
     (g.ref.home = g.u.pgang → (g.u.tag tag).infl = 0 → (g.u.tag tag).c = (g.u.tag tag).e ∨ (g.u.tag tag).faulted = true →
       (g.u.tag tag).fail = none →
       ∃ r, Completes (.tagexp w) s r g w.c.y 1 ∧ Changes s r g.u.uid { g.u with
         tags := listModify g.u.tags tag fun t => { t with e := n, c := 0, faulted := false } }) ∧
     (g.ref.home = g.u.pgang → ((g.u.tag tag).infl ≠ 0 ∨ (g.u.tag tag).c ≠ (g.u.tag tag).e ∧ (g.u.tag tag).faulted = false ∨
         (g.u.tag tag).fail ≠ none) →
       exec (.tagexp w) s = .next (s.enterTrap g (g.allTrap .tagOverrun (g.executing w.c) w.dst)))) ∧
  ∀ (w : StdWord) (s : State) (g : Gang), s.gang = some g → sourceWords w.srcB = 1 →
     let masked := (maskList 64 (onceValue g w true (.spec w.srcA))).filter (· < g.u.ntags)
     let isReady := fun n => (g.u.tag n).infl = 0 ∧ ((g.u.tag n).c = (g.u.tag n).e ∨ (g.u.tag n).faulted = true)
     let ready := masked.filter fun n => (g.u.tag n).ready
     let shape := fun d : Dst => ({ once := true, mods := 1, dst := d, a := src64 anyTag, fn := fun _ _ _ _ _ => {} } : AluEntry)
     let lanes := g.executing w.c
     let gives := fun i v (wide : Bool) => ∃ r u, Completes i s r g w.c.y 1 ∧ Changes s r g.u.uid u ∧
       Issued g w.c.sb lanes (fun _ => .ready) (onceWrites lanes w.dst.toNat v 2 wide) [] u
     (∀ n, n ∈ ready ↔ n ∈ masked ∧ isReady n) ∧
     (∀ f c, f ∈ masked → (g.u.tag f).fail = some c → (∀ n ∈ masked, n < f → (g.u.tag n).fail = none) → ∀ i,
       (i = .twait w ∧ OnceFits s g 0x18C w (shape .unused) ∧ w.m = 0 ∨
        i = .twany w ∧ OnceFits s g 0x18E w (shape .field) ∧ w.m = 0 ∧ vRunOk g.head.regs w.dst.toNat 2 2 = true ∨
        i = .tfirst w ∧ OnceFits s g 0x18F w (shape .field) ∧ vRunOk g.head.regs w.dst.toNat 1 1 = true) →
       ∃ r, Changes s r g.u.uid { g.u with tags := listModify g.u.tags f fun t => { t with fail := none } } ∧
         exec i s = .next (r.enterTrap g (g.trapAt c (g.maskOf lanes) (BitVec.ofNat 9 f)))) ∧
     ((∀ n ∈ masked, (g.u.tag n).fail = none) →
       (OnceFits s g 0x18C w (shape .unused) → w.m = 0 →
         ((∀ n ∈ masked, isReady n) → Completes (.twait w) s s g w.c.y 1) ∧
         ((∃ n ∈ masked, ¬ isReady n) → exec (.twait w) s = .next (s.holdWord g))) ∧
       (OnceFits s g 0x18E w (shape .field) → w.m = 0 → vRunOk g.head.regs w.dst.toNat 2 2 = true →
         (ready ≠ [] → gives (.twany w) (Machine.maskOf ready) true) ∧ (ready = [] → exec (.twany w) s = .next (s.holdWord g))) ∧
       (OnceFits s g 0x18F w (shape .field) → vRunOk g.head.regs w.dst.toNat 1 1 = true →
         (ready ≠ [] → gives (.tfirst w) (ready.headD 64) false) ∧
         (ready = [] → (w.m = 1 ∨ masked = []) → gives (.tfirst w) 64 false) ∧
         (ready = [] → w.m = 0 → masked ≠ [] → exec (.tfirst w) s = .next (s.holdWord g))))

/-! ### Memory -/

/-- A virtual address that no TLB of the accessing core holds, and whose three table entries stand in memory as R249 lays them out, goes to
the leaf's frame, with the leaf's permissions; an entry that is not present, or malformed, faults at its level. One that a TLB holds goes
to the leaf held, whatever the tables say now (R251). -/
def Obligations.TranslationWalksTheTables : Prop :=
  ∀ (s : State) (ctx va : Nat) (c : Context) (acc : Access), s.context ctx = some c → va < 2 ^ 64 →
    (va < 2 ^ 54 ∨ 2 ^ 64 - 2 ^ 54 ≤ va) →
    (∀ h, s.tlbLeaf ctx va = some h →
      let denied := (acc = .write ∧ h.w = false) ∨ (acc = .fetch ∧ h.x = false)
      (denied → s.translate ctx acc va = .error (.pagePermission, h.level)) ∧
      (¬ denied → s.mapped h.pa = false → s.translate ctx acc va = .error (.physUnmapped, h.level)) ∧
      (¬ denied → s.mapped h.pa = true → s.translate ctx acc va = .ok h)) ∧
    (s.tlbLeaf ctx va = none →
    let entry := fun table i => s.natAt (s.chip * 2 ^ 48 + table + 8 * i) 8
    let table := fun e => e.testBit 0 = true ∧ e.testBit 1 = false ∧ tableEntryOk e = true
    let leaf := fun level e => e.testBit 0 = true ∧ e.testBit 1 = true ∧ s.leafEntryOk level e = true
    let e1 := entry c.root (va / 2 ^ 42 % 2 ^ 13)
    let t1 := e1 / 2 ^ 16 % 2 ^ 32 * 65536
    let e2 := entry t1 (va / 2 ^ 29 % 2 ^ 13)
    let t2 := e2 / 2 ^ 16 % 2 ^ 32 * 65536
    let e3 := entry t2 (va / 2 ^ 16 % 2 ^ 13)
    let frame := fun e => e / 2 ^ 48 % 2 ^ 13 * 2 ^ 48 + e / 2 ^ 16 % 2 ^ 32 * 65536
    let goes := fun e size (level : Nat) =>
      (acc = .write → e.testBit 2 = false → s.translate ctx acc va = .error (.pagePermission, level)) ∧
      (acc = .fetch → e.testBit 3 = false → s.translate ctx acc va = .error (.pagePermission, level)) ∧
      ((acc = .write → e.testBit 2 = true) → (acc = .fetch → e.testBit 3 = true) →
        (s.mapped (frame e + va % size) = false → s.translate ctx acc va = .error (.physUnmapped, level)) ∧
        (s.mapped (frame e + va % size) = true → ∃ l, s.translate ctx acc va = .ok l ∧ l.pa = frame e + va % size ∧
          l.kind = e / 16 % 4 ∧ l.base = frame e))
    (e1.testBit 0 = false → s.translate ctx acc va = .error (.pageNotPresent, 1)) ∧
    (e1.testBit 0 = true → ¬ table e1 → s.translate ctx acc va = .error (.pteMalformed, 1)) ∧
    (table e1 → e2.testBit 0 = false → s.translate ctx acc va = .error (.pageNotPresent, 2)) ∧
    (table e1 → e2.testBit 0 = true → ¬ table e2 → ¬ leaf 2 e2 → s.translate ctx acc va = .error (.pteMalformed, 2)) ∧
    (table e1 → leaf 2 e2 → goes e2 (2 ^ 29) 2) ∧
    (table e1 → table e2 → e3.testBit 0 = false → s.translate ctx acc va = .error (.pageNotPresent, 3)) ∧
    (table e1 → table e2 → e3.testBit 0 = true → ¬ leaf 3 e3 → s.translate ctx acc va = .error (.pteMalformed, 3)) ∧
    (table e1 → table e2 → leaf 3 e3 → goes e3 (2 ^ 16) 3))

/-- LD, LDC and LDS issue what memory or the scratchpad holds, and change neither. That an access is performed when its word is, and
that LDC reads memory as it stands, is log entry 9. -/
def Obligations.LoadsIssueWhatIsThere : Prop :=
  ∀ (w : MemWord) (s : State) (g : Gang), s.gang = some g →
    let n := 2 ^ w.size.toNat
    let k := 2 ^ (w.size.toNat - 2)
    let lanes := g.executing w.c
    let global := fun i space scalar align => ∀ ps : Nat × Nat → List Piece,
      (∀ x ∈ lanes, s.plan g.u.ctx ⟨.read, align, false⟩ (g.laneVa w x) n = .ok (ps x) ∧ s.unreadable (ps x) = false ∧
        s.remoteWake (ps x) = false) →
      Loads i s g w space scalar (g.laneVa w) fun x => g.readLane s x 0 (ps x)
    (MemFits s g 0x140 w (w.size.toNat < 6 ∧ w.order.toNat < 2)
        (addrOk g.head.regs true w.addr.toNat = true ∧ vRunOk g.head.regs w.data.toNat k k = true) (addrRegs w true) (fun _ => none) →
      global (.ld w) .global false (if w.order = 0 then 1 else n)) ∧
    (∀ scalar, MemFits s g 0x144 w (w.size.toNat < 6 ∧ w.scope = 0 ∧ w.order = 0)
        (sRunOk w.addr.toNat 2 2 = true ∧ (scalar = false ∧ vRunOk g.head.regs w.data.toNat k k = true ∨
          scalar = true ∧ sRunOk w.data.toNat k k = true)) (addrRegs w true) (fun _ => none) →
      global (.ldc w) .constant scalar 1) ∧
    (MemFits s g 0x142 w (w.size.toNat < 6 ∧ w.scope = 0 ∧ w.cache = false ∧ w.order.toNat < 2)
        (addrOk g.head.regs false w.addr.toNat = true ∧ vRunOk g.head.regs w.data.toNat k k = true) (addrRegs w false) (fun _ => none) →
      (∀ x ∈ lanes, s.scratchAccess g false (if w.order = 0 then 1 else n) (g.laneOffset w x) n = none ∧
        s.scratchUnreadable g.u (g.laneOffset w x).toNat n = false) →
      Loads (.lds w) s g w .scratch false (fun x => (g.laneOffset w x).toNat) fun x =>
        numberIn (s.scratchByte g.u) (g.laneOffset w x).toNat n)

/-- ST writes its lanes' bytes to memory in ascending lane, at the translated addresses and nowhere else; in deterministic mode to the
interval's buffer, memory unchanged. An interval reads its own buffered stores, then the snapshot, then memory (R400). That the store is
performed when its word is is log entry 9. -/
def Obligations.StoresWriteTheirBytes : Prop :=
  (∀ (w : MemWord) (s : State) (g : Gang), s.gang = some g →
     let n := 2 ^ w.size.toNat
     let k := 2 ^ (w.size.toNat - 2)
     let lanes := g.executing w.c
     MemFits s g 0x141 w (w.size.toNat < 6 ∧ (w.order = 0 ∨ w.order = 2))
         (addrOk g.head.regs true w.addr.toNat = true ∧ storeRunOk g.head.regs w.data.toNat k = true)
         (addrRegs w true ++ runRegs w.data.toNat k) (fun _ => none) →
     ∀ ps : Nat × Nat → List Piece,
       (∀ x ∈ lanes, s.plan g.u.ctx ⟨.write, if w.order = 0 then 1 else n, false⟩ (g.laneVa w x) n = .ok (ps x) ∧
         ∀ p ∈ ps x, inWake p.leaf.pa = false) →
       ((∀ x ∈ lanes, ∀ p ∈ ps x, g.buffered p.leaf = false) → g.u.buffer.length ≤ 8192 →
         ∃ r u, Completes (.st w) s r g w.c.y 1 ∧ Beside s r g u ∧
           { u with snapshot := [] } = { g.u with snapshot := [] } ∧
           ∀ a, r.byteAt a = afterStores (s.byteAt a) (lanes.flatMap fun x =>
             storedAt (ps x) n ((g.u.slice x.1).storeValue x.2 w.data.toNat n)) a) ∧
       ((∀ x ∈ lanes, ∀ p ∈ ps x, g.buffered p.leaf = true) →
         let parts := lanes.map fun x => (x, cutBytes (ps x) (natLe n ((g.u.slice x.1).storeValue x.2 w.data.toNat n)))
         ((g.bufferAll parts).2 = [] →
           ∃ r u, Completes (.st w) s r g w.c.y 1 ∧ Beside s r g u ∧ r.mem = s.mem ∧
             u = { g.u with buffer := (g.bufferAll parts).1 }) ∧
         ((g.bufferAll parts).2 ≠ [] → exec (.st w) s =
           .next (s.enterTrap g (g.trapAt .mergeOverflow (g.maskOf (g.bufferAll parts).2) w.data))))) ∧
  ∀ (g : Gang) (s : State) (owner : Nat) (b : Byte) (va pa : Nat),
     let v := { g with u := { g.u with buffer := bufferByte g.u.buffer owner va pa b } }
     v.intervalByte s owner pa = b ∧
     (∀ a, a ≠ pa → v.intervalByte s owner a = g.intervalByte s owner a) ∧
     (∀ o a, o ≠ owner → v.intervalByte s o a = g.intervalByte s o a) ∧
     (g.u.buffer = [] → ∀ a, g.intervalByte s owner a =
       if sparseHas g.u.snapshot a then sparseGet 0 g.u.snapshot a else s.byteAt a)

/-- STS writes its lanes' bytes to the scratchpad, in ascending lane, and nothing else; the same for bytes of an attached segment,
whose blocks become dirty. -/
def Obligations.ScratchStoresWriteTheirBytes : Prop :=
  ∀ (w : MemWord) (s : State) (g : Gang), s.gang = some g →
    let n := 2 ^ w.size.toNat
    let k := 2 ^ (w.size.toNat - 2)
    let lanes := g.executing w.c
    let stores := lanes.flatMap fun x => (List.range n).map fun i => ((g.laneOffset w x).toNat + i,
      BitVec.ofNat 8 ((g.u.slice x.1).storeValue x.2 w.data.toNat n / 2 ^ (8 * i)))
    MemFits s g 0x143 w (w.size.toNat < 6 ∧ w.scope = 0 ∧ w.cache = false ∧ (w.order = 0 ∨ w.order = 2))
        (addrOk g.head.regs false w.addr.toNat = true ∧ storeRunOk g.head.regs w.data.toNat k = true)
        (addrRegs w false ++ runRegs w.data.toNat k) (fun _ => none) →
      (∀ x ∈ lanes, s.scratchAccess g true (if w.order = 0 then 1 else n) (g.laneOffset w x) n = none) →
      ((∀ x ∈ lanes, g.laneOffset w x + n ≤ 0x100000) →
        ∃ r u, Completes (.sts w) s r g w.c.y 1 ∧ Beside s r g u ∧ r.mem = s.mem ∧
          { u with scratch := [], badScratch := [] } = { g.u with scratch := [], badScratch := [] } ∧
          ∀ o, sparseGet 0 u.scratch o = afterStores (sparseGet 0 g.u.scratch o) stores o) ∧
      ((∀ x ∈ lanes, 0x100000 ≤ g.laneOffset w x) →
        ∃ r, Completes (.sts w) s r g w.c.y 1 ∧ r.mem = s.mem ∧
          (∀ o, sparseGet 0 (r.core g.u.core).segArea o =
            afterStores (sparseGet 0 (s.core g.u.core).segArea o) (stores.map fun e => (e.1 - 0x100000, e.2)) o) ∧
          ∀ name x y, s.segment? g.u.ctx name = some x → r.segment? g.u.ctx name = some y →
            ({ y with dirty := 0 } = { x with dirty := 0 } ∧ ∀ b, y.dirty.getLsbD b = true ↔ x.dirty.getLsbD b = true ∨
              b < 128 ∧ x.core = some g.u.core ∧ b < x.size ∧ ∃ e ∈ stores, x.offset ≤ e.1 - 0x100000 ∧ (e.1 - 0x100000 - x.offset) / 4096 = b))

/-- An access that faults stops the whole word: the cause R274 ranks first, in the lanes that raise it, and nothing is stored. Of an access's
two page pieces the fault that R274 ranks first is taken (log entry 11). -/
def Obligations.MemoryFaultsStopTheWord : Prop :=
  ∀ (w : MemWord) (s : State) (g : Gang) (i : Instr) (opc align : Nat) (acc : Access), s.gang = some g →
    let n := 2 ^ w.size.toNat
    let k := 2 ^ (w.size.toNat - 2)
    (i = .ld w ∧ opc = 0x140 ∧ acc = .read ∧ w.order.toNat < 2 ∧ vRunOk g.head.regs w.data.toNat k k = true ∨
     i = .st w ∧ opc = 0x141 ∧ acc = .write ∧ (w.order = 0 ∨ w.order = 2) ∧ storeRunOk g.head.regs w.data.toNat k = true) →
    align = (if w.order = 0 then 1 else n) →
    MemFits s g opc w (w.size.toNat < 6) (addrOk g.head.regs true w.addr.toNat = true)
      (addrRegs w true ++ (if acc = .write then runRegs w.data.toNat k else [])) (fun _ => none) →
    let fault := fun x => planFault (s.plan g.u.ctx ⟨acc, align, false⟩ (g.laneVa w x) n)
    ∀ x f, x ∈ g.executing w.c → fault x = some f →
      (∀ y e, y ∈ g.executing w.c → fault y = some e → memRank f.cause ≤ memRank e.cause) →
      ∃ tr : Trap, exec i s = .next (s.enterTrap g tr) ∧ tr.cause = f.cause ∧ tr.tpc = g.pc ∧
        tr.lanes = g.maskOf ((g.executing w.c).filter fun y => (fault y).any fun e => e.cause == f.cause)

/-- The integer atomics' new values (R278), in 32 and in 64 bits. -/
def Obligations.AtomicsComputeTheirNewValues : Prop :=
  ∀ (n : Nat) (old b new : BitVec n), (n = 32 ∨ n = 64) →
    let op := fun k => BitVec.ofNat n (atomicOp k n old.toNat b.toNat new.toNat)
    op 0 = old + b ∧
    op 1 = (if b.slt old then b else old) ∧ op 2 = (if old.slt b then b else old) ∧
    op 3 = (if b.ult old then b else old) ∧ op 4 = (if old.ult b then b else old) ∧
    op 5 = old &&& b ∧ op 6 = old ||| b ∧ op 7 = old ^^^ b ∧ op 8 = b ∧
    op 9 = (if old = b then new else old) ∧
    op 10 = (if b.ule old then 0 else old + 1) ∧
    op 11 = (if old = 0 ∨ b.ult old then b else old - 1) ∧
    ∀ k, atomicOp k n old.toNat b.toNat new.toNat < 2 ^ n

/-- ATOM and FATOM act in ascending lane, each lane on what the lanes before it left: every byte of memory is as that leaves it, and the
results are the old values, or none under .nr. ATOMS does the same on the scratchpad and on attached segments, memory unchanged. It
covers the 12 ATOM, 12 ATOMS and 3 FATOM instructions. That the lanes act when the word is performed is log entry 9. -/
def Obligations.AtomicsActInAscendingLane : Prop :=
  (∀ (i : Instr) (w : MemWord) (e : AtomicEntry) (s : State) (g : Gang) (pa : Nat × Nat → Nat), s.gang = some g →
     atomInstr g.c.fpmode i = some (w, e) →
     let n := atomicBytes w
     let lanes := g.executing w.c
     let after := atomicRun n pa (e.result g w) s.byteAt lanes
     MemFits s g e.opc w (w.size = 2 ∨ w.size = 3) (addrOk g.head.regs true w.addr.toNat = true ∧ e.dataOk g.head.regs w = true)
       (addrRegs w true ++ runRegs w.data.toNat (e.run w)) (e.badTag g w) →
     (∀ x ∈ lanes, ∃ p, s.plan g.u.ctx ⟨.write, n, true⟩ (g.laneVa w x) n = .ok [p] ∧ p.leaf.pa = pa x ∧
       s.uncorrectableAt (pa x) n = false) →
     ∃ r u qs, Completes i s r g w.c.y 1 ∧ Beside s r g u ∧ (∀ a, r.byteAt a = after.1 a) ∧
       AtomicResults g w (BitVec.ofNat 8 (e.tag w)) after.2 qs { u with snapshot := g.u.snapshot }) ∧
  ∀ (i : Instr) (w : MemWord) (e : AtomicEntry) (s : State) (g : Gang), s.gang = some g → atomsInstr i = some (w, e) →
     let n := atomicBytes w
     let lanes := g.executing w.c
     let at' := fun x => (g.laneOffset w x).toNat
     let after := atomicRun n at' (e.result g w) (s.scratchByte g.u) lanes
     MemFits s g e.opc w ((w.size = 2 ∨ w.size = 3) ∧ w.scope = 0)
       (addrOk g.head.regs false w.addr.toNat = true ∧ e.dataOk g.head.regs w = true)
       (addrRegs w false ++ runRegs w.data.toNat (e.run w)) (e.badTag g w) →
     (∀ x ∈ lanes, s.scratchFault g.u true (g.laneOffset w x) n = none ∧ at' x % n = 0 ∧ s.scratchUnreadable g.u (at' x) n = false) →
     ∃ r u, Completes i s r g w.c.y 1 ∧ r.unit? g.u.uid = some u ∧ (∀ o, r.scratchByte u o = after.1 o) ∧
       AtomicResults g w (BitVec.ofNat 8 (e.tag w)) after.2 [] { u with scratch := g.u.scratch } ∧
       (∀ m, m ≠ g.u.uid → r.unit? m = s.unit? m) ∧
       (∀ m, { r.core m with segArea := [] } = { s.core m with segArea := [] }) ∧
       r.segments.map (fun x => { x with dirty := 0 }) = s.segments.map (fun x => { x with dirty := 0 }) ∧
       { r with units := [], cores := [], segments := [] } = { s with units := [], cores := [], segments := [] }

/-- SOP combines memory with its DATA element by element, in ascending lane and address. That the elements are combined when the word is
performed is log entry 9. -/
def Obligations.StreamedOperationsCombineElements : Prop :=
  ∀ (w : MemWord) (s : State) (g : Gang) (ps : Nat × Nat → List Piece), s.gang = some g →
    let n := 2 ^ w.size.toNat
    let k := 2 ^ (w.size.toNat - 2)
    let op := 2 * w.order.toNat + (if w.cache then 1 else 0)
    let lanes := g.executing w.c
    let regs := runRegs w.data.toNat k
    let elements := lanes.flatMap fun x =>
      ((ps x).flatMap fun p => (List.range (p.len / 4)).map fun i => p.leaf.pa + 4 * i).zipIdx.map fun a => (x, a)
    let half := fun (i x y : Nat) => (bf16.add g.c.fpmode 0 false false (x / 2 ^ (16 * i) % 2 ^ 16) (y / 2 ^ (16 * i) % 2 ^ 16)).code
    let result := fun (e : (Nat × Nat) × (Nat × Nat)) (old : Nat) =>
      let b := (g.u.slice e.1.1).storeValue e.1.2 w.data.toNat n / 2 ^ (32 * e.2.2) % 2 ^ 32
      match op with
      | 0 => (old + b) % 2 ^ 32
      | 1 => (fp32.add g.c.fpmode 0 false false old b).code
      | 2 => (fp32.minMax g.c.fpmode false false old b).code
      | 3 => (fp32.minMax g.c.fpmode true false old b).code
      | 4 => old &&& b
      | 5 => old ||| b
      | 6 => old ^^^ b
      | _ => half 0 old b + 2 ^ 16 * half 1 old b
    MemFits s g 0x14B w (2 ≤ w.size.toNat ∧ w.size.toNat < 6)
      (addrOk g.head.regs true w.addr.toNat = true ∧ storeRunOk g.head.regs w.data.toNat k = true) (addrRegs w true ++ regs)
      (fun x => (regs.map fun r => ((g.u.lane x.1 x.2).getV r).tag.toNat).find? fun t => t != 0 && !sopTags op t) →
    (∀ x ∈ lanes, g.laneVa w x % 4 = 0 ∧ s.plan g.u.ctx ⟨.write, 1, true⟩ (g.laneVa w x) n = .ok (ps x) ∧
      ∀ p ∈ ps x, s.uncorrectableAt p.leaf.pa p.len = false) →
    ∃ r u, Completes (.sop w) s r g w.c.y 1 ∧ Beside s r g u ∧ { u with snapshot := [] } = { g.u with snapshot := [] } ∧
      ∀ a, r.byteAt a = (atomicRun 4 (fun e => e.2.1) result s.byteAt elements).1 a

/-- ORDADD contributes its lanes' values to the open window of its scope and changes no memory; what goes beyond its bank takes room of the
save area, and where there is none the launch aborts (R280). OCLOSE waits for its unit's other gangs; a window that may close adds each
word's contributions to it in the order of chip, unit, lane and issue. In a replicated launch this chip's part of a window is over once
every chip has closed it (R383). How much room a contribution takes is log entry 36. -/
def Obligations.OrderedAdditionsAreSummedAtTheClose : Prop :=
  (∀ (w : MemWord) (s : State) (g : Gang) (ps : Nat × Nat → List Piece), s.gang = some g →
    let n := atomicBytes w
    let lanes := g.executing w.c
    let sc := w.scope.toNat
    MemFits s g 0x149 w ((w.size = 2 ∨ w.size = 3) ∧ w.order = 0 ∧ w.cache = false)
      (addrOk g.head.regs true w.addr.toNat = true ∧ storeRunOk g.head.regs w.data.toNat (n / 4) = true)
      (addrRegs w true ++ runRegs w.data.toNat (n / 4))
      (fun x => let e : AtomicEntry := { opc := 0, tags := some (tagF32, tagF64), op := fun _ a _ _ => a }; e.badTag g w x) →
    (∀ x ∈ lanes, s.plan g.u.ctx ⟨.write, n, true⟩ (g.laneVa w x) n = .ok (ps x)) →
    let pa := fun x => ((ps x).head?.map (·.leaf.pa)).getD 0
    let news : List Contribution := lanes.mapIdx fun j x =>
      { scope := sc, set := g.u.wset, k := g.u.ocloses.getD sc 0 + 1, pa := pa x, wide := w.size == 3, chip := s.chip,
        unitId := g.u.unitId, rank := unitLane (g.u.slice x.1) x.2, order := g.u.contribs + j,
        value := BitVec.ofNat 64 ((g.u.slice x.1).storeValue x.2 w.data.toNat n) }
    let completes := fun (r : State) => ∃ u, Completes (.ordadd w) s r g w.c.y 1 ∧ r.mem = s.mem ∧ r.unit? g.u.uid = some u ∧
      (∀ m, m ≠ g.u.uid → r.unit? m = s.unit? m) ∧ { u with contribs := 0, ordWords := [] } = { g.u with contribs := 0, ordWords := [] } ∧
      u.contribs = g.u.contribs + lanes.length ∧ (g.u.det = false → u.ordWords = g.u.ordWords) ∧
      (∀ d m, (d, m) ≠ (g.u.die, g.u.lslot) → r.launch? d m = s.launch? d m)
    (g.l.replicated = false →
      let l : Launch := { g.l with contribs := g.l.contribs ++ news }
      let more := granules (s.roomBytes l) - (l.room.map (·.2)).sum
      let ends := fun (q : State) (m : Launch) => ∃ r, completes r ∧ r.launch? g.u.die g.u.lslot = some m ∧
        { r with units := [], launches := [] } = { q with units := [], launches := [] }
      (more = 0 → ends s l) ∧
      (∀ o q, more ≠ 0 → s.takeSave l.ctx (65536 * more) = some (o, q) → ends q { l with room := l.room ++ [(o, more)] }) ∧
      (more ≠ 0 → s.takeSave l.ctx (65536 * more) = none → g.l.abort = none → ∃ t m, exec (.ordadd w) s = .next t ∧
        t.launch? g.u.die g.u.lslot = some m ∧ m.abort = some (⟨4, 1, s.chip⟩, 0, 0, 0) ∧ t.mem = s.mem)) ∧
    (g.l.replicated = true → (∀ x ∈ lanes, fabChip (pa x) = s.chip) → (s.contributeAll g.l.runRef news).roomBytes g.l = 0 →
      ∃ r, completes r ∧ r.launch? g.u.die g.u.lslot = some g.l ∧ r.runWindows = (s.contributeAll g.l.runRef news).runWindows)) ∧
  (∀ (w : MemWord) (s : State) (g : Gang), s.gang = some g →
    MemFits s g 0x14A w (w.data = 0 ∧ w.addr = 0 ∧ w.ofs = 0 ∧ w.size = 0 ∧ w.cache = false ∧ w.order.toNat ≤ 1) True [] (fun _ => none) →
    (g.head.wait = .done → Completes (.oclose w) s s g w.c.y 1) ∧
    (g.head.wait ≠ .done → (∀ sc k q, g.head.wait ≠ .window sc k q) →
      Waits (.oclose w) s g (g.u.modifySlices g.ps fun sl =>
        { sl with ocloseAt := some w.scope.toNat, wait := .window w.scope.toNat 0 (w.order == 1) }))) ∧
  (∀ (s : State) (die slot scope set k : Nat) (l : Launch), s.launch? die slot = some l → l.replicated = true →
    let closed := (scope, set, k)
    let waits := (∃ q ∈ s.launchRequests l.die l.slot, q.purpose = .close scope set k) ∨
      ∃ w ∈ s.runWindows, w.run.generation = l.runRef.generation ∧ w.scope = scope ∧ w.set = set ∧ w.k = k
    let keeps := exec (.windowClose die slot scope set k) s = .next s
    (closed ∈ l.signals → waits ∨ closed ∈ l.closed → keeps) ∧
    (closed ∈ l.signals → ¬ waits → closed ∉ l.closed → ∃ t, exec (.windowClose die slot scope set k) s = .next t ∧ t.mem = s.mem ∧
      t.launch? die slot = some { l with closed := l.closed ++ [closed] } ∧ ∀ u ∈ s.units, u.die = die → u.lslot = slot → u.wset = set →
        ∃ v ∈ t.units, v = { u with slices := u.slices.map fun sl => if sl.wait = .window scope k true then { sl with wait := .done } else sl }) ∧
    (closed ∉ l.signals → s.unitsClosed l scope set k = false ∨ (∃ q ∈ s.launchRequests l.die l.slot, q.purpose.closes = false) → keeps)) ∧
  ∀ (s : State) (die slot scope set k : Nat) (l : Launch) (c : Context), s.launch? die slot = some l → s.context l.ctx = some c →
    l.replicated = false → s.windowReady l scope set k = true →
    let mine := fun (x : Contribution) => x.scope == scope && x.set == set && x.k == k
    let cs := l.contribs.filter mine
    let bytes := fun (x : Contribution) => if x.wide then 8 else 4
    let apart := fun (x y : Contribution) => (x.pa, x.wide) = (y.pa, y.wide) ∨ x.pa + bytes x ≤ y.pa ∨ y.pa + bytes y ≤ x.pa
    (∀ x ∈ cs, s.uncorrectableAt x.pa (bytes x) = false ∧ ∀ y ∈ cs, apart x y) →
    ∃ t m, exec (.windowClose die slot scope set k) s = .next t ∧ t.launch? die slot = some m ∧
      m = { l with contribs := l.contribs.filter fun x => !mine x, closed := l.closed ++ [(scope, set, k)] } ∧
      (∀ a, (∀ x ∈ cs, a < x.pa ∨ x.pa + bytes x ≤ a) → t.byteAt a = s.byteAt a) ∧
      (∀ x ∈ cs, ∀ xs : List Contribution, xs.Perm (cs.filter fun y => y.pa == x.pa && y.wide == x.wide) → xs.Pairwise (fun a b => Contribution.before a b = true) →
        t.natAt x.pa (bytes x) = xs.foldl (fun acc y =>
          ((if x.wide then fp64 else fp32).add c.fpmode 0 false false acc (y.value.toNat % 2 ^ (8 * bytes x))).code)
          (s.natAt x.pa (bytes x)) % 2 ^ (8 * bytes x)) ∧
      (∀ n, (t.unit? n).map (fun v => { v with slices := [], snapshot := [] }) =
        (s.unit? n).map (fun v => { v with slices := [], snapshot := [] })) ∧
      ∀ n u v, s.unit? n = some u → t.unit? n = some v → v.slices =
        if u.die = die ∧ u.lslot = slot ∧ u.wset = set then
          u.slices.map fun sl => if sl.wait = .window scope k true then { sl with wait := .done } else sl
        else u.slices

/-- FENCE and PREF only go on; STEPADV adds to the context's step counter, or sets it; HINT changes its pages' hint records, and a page
declared dead reads as zeros from then on. That FENCE has nothing to wait for at its word but what other chips have yet to answer, which
holds its turn, is log entry 9. -/
def Obligations.FencesHintsAndTheStepCounter : Prop :=
  ∀ (w : MemWord) (s : State) (g : Gang), s.gang = some g →
    (MemFits s g 0x146 w (w.order ≠ 0 ∧ w.data.toNat < 4 ∧ (w.data.toNat % 2 = 1 → w.order = 3) ∧ (2 ≤ w.data.toNat → 2 ≤ w.scope.toNat) ∧
        w.addr = 0 ∧ w.ofs = 0 ∧ w.size = 0 ∧ w.cache = false) True [] (fun _ => none) →
      Completes (.fence w) s s g w.c.y 1) ∧
    (MemFits s g 0x145 w (w.data = 0 ∧ w.size = 0 ∧ w.scope = 0 ∧ w.order = 0) (addrOk g.head.regs true w.addr.toNat = true)
        (addrRegs w true) (fun _ => none) →
      Completes (.pref w) s s g w.c.y 1) ∧
    (∀ x rest, g.executing w.c = x :: rest →
      MemFits s g 0x148 w (w.addr = 0 ∧ w.ofs = 0 ∧ w.size = 0 ∧ w.scope = 0 ∧ w.order = 0)
        (storeRunOk g.head.regs w.data.toNat 1 = true) (runRegs w.data.toNat 1) (fun _ => none) →
      let d := BitVec.ofNat 32 ((g.u.slice x.1).storeValue x.2 w.data.toNat 4)
      ∃ r, Completes (.stepadv w) s r g w.c.y 1 ∧
        r = s.modifyContext g.u.ctx fun c => { c with step := if w.cache then d else c.step + d }) ∧
    (∀ leaf : Nat × Nat → Leaf,
      let dead := w.size.toNat.testBit 2
      MemFits s g 0x147 w (w.order = 0 ∧ (w.cache = true → w.data = 0))
        (addrOk g.head.regs true w.addr.toNat = true ∧
          (w.cache = true ∨ vRunOk g.head.regs w.data.toNat 1 1 = true ∨ sRunOk w.data.toNat 1 1 = true))
        (addrRegs w true ++ (if w.cache then [] else runRegs w.data.toNat 1)) (fun _ => none) →
      (∀ x ∈ g.executing w.c, s.translate g.u.ctx (if dead then .write else .read) (g.laneVa w x) = .ok (leaf x)) →
      let movable := (g.executing w.c).filter fun x => (leaf x).mov
      let inside := fun a => dead = true ∧ ∃ x ∈ movable, (leaf x).base ≤ a ∧ a < (leaf x).base + 2 ^ (leaf x).logSize
      ∃ r u, Completes (.hint w) s r g w.c.y 1 ∧ Beside s r g u ∧ { u with snapshot := [] } = { g.u with snapshot := [] } ∧
        (∀ a, (inside a → r.byteAt a = 0) ∧ (¬ inside a → r.byteAt a = s.byteAt a)) ∧
        (∀ pte b k, (∀ x ∈ movable, (leaf x).pte ≠ pte) → r.hintOf pte b k = s.hintOf pte b k) ∧
        ∀ last pre, movable = pre ++ [last] →
          let page := fun (t : State) => t.hintOf (leaf last).pte (leaf last).base (leaf last).logSize
          page r = { base := (leaf last).base, logSize := (leaf last).logSize
                     next := if w.cache then (page s).next else ((g.u.slice last.1).getSpec last.2 w.data.toNat).val
                     hinted := (page s).hinted || !w.cache, pri := BitVec.ofNat 2 w.size.toNat, dead := (page s).dead || dead })

/-! ### Rings -/

/-- The steps at a ring's header, lane after lane: a reserve step takes PIDX and a claim step TAKE(c), and adds 1, unless the ring is full
or empty; nothing else in memory changes. A pushed item's slot holds its payload, zero beyond its size, and its index plus one. -/
def Obligations.RingStepsFillTheirSlots : Prop :=
  (∀ (s : State) (g : Gang) (w : MemWord) (push : Bool),
     s.ringStep g w push [] = (s, []) ∧
     (∀ xs ys, s.ringStep g w push (xs ++ ys) =
       let a := s.ringStep g w push xs
       ((a.1.ringStep g w push ys).1, a.2 ++ (a.1.ringStep g w push ys).2)) ∧
     ∀ x, let pa := s.ringPa g w x
       let h := s.ringHeader pa
       let c := ringConsumer w
       let n := 2 ^ (s.natAt (pa + 8) 8 % 32)
       let free := fun (least : Nat) => (∃ k, k < ringConsumers h ∧ least = s.natAt (pa + 40 + 16 * k) 8) ∧
         ∀ k, k < ringConsumers h → least ≤ s.natAt (pa + 40 + 16 * k) 8
       let idx := s.natAt (if push then pa else pa + 32 + 16 * c) 8
       let at' := if push then pa else pa + 32 + 16 * c
       let r := s.ringStep g w push [x]
       c < 8 → (push = true → ∀ f, free f → f + n ≤ s.natAt pa 8 → r = (s, [])) ∧
       (push = false → s.natAt pa 8 ≤ idx → r = (s, [])) ∧
       ((push = true ∧ ∃ f, free f ∧ s.natAt pa 8 < f + n) ∨ (push = false ∧ idx < s.natAt pa 8) →
         r.2 = [⟨x, pa, idx, (s.natAt (pa + 16) 8 + 64 * (idx % n)) % 2 ^ 64⟩] ∧ r.1.besides = s.besides ∧
         r.1.natAt at' 8 = (idx + 1) % 2 ^ 64 ∧ ∀ a, a < at' ∨ at' + 8 ≤ a → r.1.byteAt a = s.byteAt a)) ∧
  ∀ (s : State) (g : Gang) (w : MemWord) (e : RingGot) (p : Piece) (ps : List Piece), s.slotPlan g true e = .ok (p :: ps) →
     s.uncorrectableAt p.leaf.pa 64 = false → ringBytes w ≤ 56 →
     let a := p.leaf.pa
     let r := s.ringPut g w e
     r.natAt a 8 = (e.idx + 1) % 2 ^ 64 ∧
       r.natAt (a + 8) 56 = (g.u.slice e.lane.1).storeValue e.lane.2 w.data.toNat (ringBytes w) % 2 ^ 448 ∧
       (∀ b, b < a ∨ a + 64 ≤ b → r.byteAt b = s.byteAt b) ∧ r.besides = s.besides ∧
       ∀ n, (r.unit? n).map (fun v => { v with snapshot := [] }) = (s.unit? n).map fun v => { v with snapshot := [] }

/-- QPUSH and QPOP take indices for their lanes, QPEEK looks at the next ones: under .blk the gang goes on once every lane has one,
under .nb at once, its predicate telling each lane. Each slice counts one result a word, which the items of later turns join (R26). That
the predicate is written at the word is log entry 33. -/
def Obligations.RingWordsGoOnWithTheirIndices : Prop :=
  ∀ (w : MemWord) (s : State) (g : Gang), s.gang = some g →
    let pred := w.ofs.toNat / 8 % 8
    let lanes := g.executing w.c
    let todo := lanes.filter fun x => !(g.u.slice x.1).ringHeld.getLsbD x.2
    let fits := fun opc (push : Bool) => MemFits s g opc w
      (w.size ≠ 7 ∧ w.order = (if push then 2 else 1) ∧ w.ofs.toNat < 64 ∧ (w.cache = false → pred = 0) ∧
        (push = true → ringConsumer w = 0))
      (addrOk g.head.regs true w.addr.toNat = true ∧ ringDataOk g.head.regs w push = true)
      (addrRegs w true ++ if push then runRegs w.data.toNat (ringRun w) else []) (fun _ => none)
    let held := fun (got : List (Nat × Nat)) (u v : WorkUnit) =>
      (∀ p ∈ g.ps, ∃ m : BitVec 4, (∀ j < 4, m.getLsbD j = decide ((p, j) ∈ got)) ∧
        v.slice p = { u.slice p with ringHeld := (u.slice p).ringHeld ||| m, wait := .again }) ∧
      (∀ p, p ∉ g.ps → v.slice p = u.slice p) ∧ { v with slices := [] } = { u with slices := [] }
    let closed := fun (u : WorkUnit) => u.modifySlices g.ps Slice.closeRings
    let fresh := lanes.filter fun x => (g.u.slice x.1).pend.all fun r => match r.kind with | .ring _ true => false | _ => true
    (∀ x ∈ todo, s.ringFault g w x = none) →
    (fits 0x154 true →
      let a := s.ringStep g w true todo
      let got := a.2.map (·.lane)
      let r := a.2.foldl (fun r e => r.ringPut g w e) a.1
      (∀ e ∈ a.2, planFault (a.1.slotPlan g true e) = none) →
      (w.cache = true → ∃ t u v, r.unit? g.u.uid = some u ∧ Told lanes got pred u v ∧ Changes r t g.u.uid (closed v) ∧
        Completes (.qpush w) s t g w.c.y 1) ∧
      (w.cache = false → (∀ x ∈ todo, x ∈ got) → ∃ t u, r.unit? g.u.uid = some u ∧ Changes r t g.u.uid (closed u) ∧
        Completes (.qpush w) s t g w.c.y 1) ∧
      (w.cache = false → (∃ x ∈ todo, x ∉ got) → ∃ t u v, exec (.qpush w) s = .next t ∧ r.unit? g.u.uid = some u ∧
        Changes r t g.u.uid v ∧ held got u v)) ∧
    (∀ (i : Instr) (opc : Nat) (pop : Bool), (i = .qpop w ∧ opc = 0x155 ∧ pop = true ∨ i = .qpeek w ∧ opc = 0x156 ∧ pop = false) →
      fits opc false →
      let a := if pop then s.ringStep g w false todo else (s, s.ringPeek g w todo)
      let got := a.2.map (·.lane)
      let items := fun p => (a.2.filter (·.lane.1 == p)).map fun e => ({
        lane := e.lane.2, header := BitVec.ofNat 64 e.pa, slot := BitVec.ofNat 64 e.slot, idx := e.idx, consumer := ringConsumer w,
        bytes := ringBytes w, dst := w.data.toNat, pop := pop } : RingRead)
      let issued := fun (u v : WorkUnit) => ∃ v', Issued { g with u := u } w.c.sb fresh (fun _ => .ring [] true) (fun _ => []) [] v' ∧
        v = v'.ringGot g.ps items
      (∀ e ∈ a.2, planFault (a.1.slotPlan g false e) = none) → (pop = true ∨ w.cache = true ∨ a.2.length = todo.length) →
      (w.cache = true → ∃ t u v v', a.1.unit? g.u.uid = some u ∧ issued u v ∧ Told lanes got pred v v' ∧
        Changes a.1 t g.u.uid (closed v') ∧ Completes i s t g w.c.y 1) ∧
      (w.cache = false → (∀ x ∈ todo, x ∈ got) → ∃ t u v, a.1.unit? g.u.uid = some u ∧ issued u v ∧ Changes a.1 t g.u.uid (closed v) ∧
        Completes i s t g w.c.y 1) ∧
      (w.cache = false → (∃ x ∈ todo, x ∉ got) → ∃ t u v v', exec i s = .next t ∧ a.1.unit? g.u.uid = some u ∧ issued u v ∧
        Changes a.1 t g.u.uid v' ∧ held got v v')) ∧
    (fits 0x156 false → w.cache = false → (s.ringPeek g w todo).length < todo.length → ∃ t v,
      Issued g w.c.sb fresh (fun _ => .ring [] true) (fun _ => []) [] v ∧ Changes s t g.u.uid v ∧ exec (.qpeek w) s = .next (t.holdWord g))

/-! ### Segments -/

/-- SEGPUB adds 1 to the generation; SEGREL releases once the unit's earlier work is done; SEGQRY reports the record. SEGPUB and SEGREL
fault on a name the unit has not attached. In one cycle these words act in ascending gang slot: a gang whose slot is below that of one that
has acted waits (R287, log entry 2). An evictable segment's dirty blocks go to its backing and its area is freed; a reload's blocks come from its
backing, and what waited for it is attached. -/
def Obligations.SegmentsArePublishedQueriedAndMoved : Prop :=
  (∀ (w : MemWord) (s : State) (g : Gang) (x : Nat × Nat) (rest : List (Nat × Nat)), s.gang = some g → g.executing w.c = x :: rest →
     let name := BitVec.ofNat 64 ((g.u.slice x.1).runValue x.2 w.addr.toNat 2)
     let fits := fun opc (fields operands : Prop) => MemFits s g opc w (w.ofs = 0 ∧ w.size = 0 ∧ w.scope = 0 ∧ w.order = 0 ∧ fields)
       (addrOk g.head.regs true w.addr.toNat = true ∧ operands) (addrRegs w true) (fun _ => none)
     let records := fun (f : Segment → Segment) => s.segments.map fun y => if y.ctx = g.u.ctx ∧ y.name = name then f y else y
     let late := ∃ n, (s.bank g.u.core g.u.bank).lastOp = some (s.clock, n) ∧ g.slot < n
     let q := s.noteSlot g
     let misses := fun i => ∃ tr : Trap, exec i s = .next (q.enterTrap g tr) ∧ tr.Names g .segAttachMiss (x :: rest) g.pc ∧
       ∀ n, tr.addr n = name.toNat
     (late → (fits 0x150 (w.data = 0 ∧ w.cache = false) True → exec (.segpub w) s = .next s) ∧
       (fits 0x152 (w.data = 0) True → exec (.segrel w) s = .next s) ∧
       (fits 0x153 (w.cache = false) (vRunOk g.head.regs w.data.toNat 2 2 = true) → exec (.segqry w) s = .next s)) ∧
     (¬ late → fits 0x150 (w.data = 0 ∧ w.cache = false) True →
       (name ∈ g.u.segs → Completes (.segpub w) s { q with segments := records fun y => { y with gen := y.gen + 1 } } g w.c.y 1) ∧
       (name ∉ g.u.segs → misses (.segpub w))) ∧
     (¬ late → fits 0x152 (w.data = 0) True →
       let free := (g.u.releases.filter (·.name == name)).length < g.u.segs.count name
       (free → s.unitCommands g.u ≠ [] ∨ g.u.matq ≠ [] → (∀ r ∈ g.u.releases, r.ready = false) →
         ∃ r, Completes (.segrel w) s r g w.c.y 1 ∧ Changes q r g.u.uid { g.u with
           releases := g.u.releases ++ [⟨name, w.cache, s.unitCommands g.u, g.u.matq.length⟩] }) ∧
       (free → s.unitCommands g.u = [] → g.u.matq = [] → g.u.releases = [] → (∀ v ∈ s.units, v.attaches = []) →
         ∀ y, s.segment? g.u.ctx name = some y → (w.cache = false ∧ y.dropAtZero = false ∨ 1 < y.att) →
         ∃ r, Completes (.segrel w) s r g w.c.y 1 ∧ Changes { q with segments := r.segments } r g.u.uid
             { g.u with segs := g.u.segs.erase name } ∧
           r.segments = records fun y => { y with
             att := y.att - 1, life := if y.life = 0 then 2 else y.life, dropAtZero := y.dropAtZero || w.cache }) ∧
       (¬ free → misses (.segrel w))) ∧
     (¬ late → fits 0x153 (w.cache = false) (vRunOk g.head.regs w.data.toNat 2 2 = true) →
       ∃ r u v, Completes (.segqry w) s r g w.c.y 1 ∧ Changes q r g.u.uid u ∧
         Issued g w.c.sb (x :: rest) (fun _ => .ready) (onceWrites (x :: rest) w.data.toNat v 2 true) [] u ∧
         (s.segment? g.u.ctx name = none → v = 0) ∧
         ∀ y, s.segment? g.u.ctx name = some y → v % 2 ^ 16 = y.gen.toNat ∧ v.testBit 16 = true ∧
           v.testBit 17 = decide (y.core = some g.u.core ∧ y.reloading = false) ∧
           v.testBit 18 = decide (y.core ≠ none ∧ y.core ≠ some g.u.core ∧ y.reloading = false) ∧
           v.testBit 19 = decide (name ∈ g.u.segs) ∧ v.testBit 20 = y.wbFailed ∧ v / 2 ^ 21 % 2 ^ 11 = 0 ∧
           v / 2 ^ 32 = if name ∈ g.u.segs then 0x100000 + y.offset else 0)) ∧
  ∀ (s : State) (core ctx : Nat) (name : DWord) (x : Segment), s.segment? ctx name = some x → x.core = some core → x.ctx = ctx →
     x.name = name → (∀ u ∈ s.units, u.attaches = []) →
     let area := fun (t : State) a => sparseGet 0 (t.core core).segArea a
     let records := fun (f : Segment → Segment) => s.segments.map fun y => if y.ctx = ctx ∧ y.name = name then f y else y
     let mine := fun a => x.offset ≤ a ∧ a < x.offset + 4096 * x.size
     (x.att = 0 → x.wbFailed = false → x.reloading = false → (x.life = 2 ∨ x.life = 1 ∧ x.n = 0) →
       ∀ m, (x.dirtyBlocks = [] ∧ m = s ∨ ∃ b, x.dirtyBlocks = [b] ∧
         (∀ k ∈ (s.core core).badArea, 8 * k + 8 ≤ x.offset + 4096 * b ∨ x.offset + 4096 * (b + 1) ≤ 8 * k) ∧
         s.deviceWrite ctx (x.backing.toNat + 4096 * b) ((List.range 4096).map fun k => area s (x.offset + 4096 * b + k)) = .ok m) →
       ∃ t, exec (.segmentEvict core ctx name) s = .next t ∧ t.mem = m.mem ∧
         t.segments = records (fun y => { y with core := none, dirty := 0, wbFailed := false }) ∧
         (∀ a, (mine a → area t a = 0) ∧ (¬ mine a → area t a = area s a)) ∧
         (∀ n, (t.unit? n).map (fun v => { v with snapshot := [] }) = (s.unit? n).map fun v => { v with snapshot := [] })) ∧
     (∀ bs wt u, x.reloading = true → x.fresh = false → x.waiters = [wt] → s.readBacking x = .ok bs → s.unit? wt.unit = some u →
       u.residence ≠ .exited →
       ∃ t v, exec (.segmentReloadComplete core ctx name) s = .next t ∧ t.mem = s.mem ∧
         t.segments = records (fun y => { y with
           reloading := false, fresh := false, waiters := [], dirty := 0, att := y.att + 1,
           n := if y.life = 1 ∧ y.n > 0 then y.n - 1 else y.n, lastAttach := s.clock }) ∧
         (∀ k, k < 4096 * x.size → area t (x.offset + k) = bs.getD k 0) ∧ (∀ a, ¬ mine a → area t a = area s a) ∧
         t.unit? wt.unit = some v ∧ v.segs = u.segs ++ [name] ∧
         v.tags = listModify u.tags wt.tag (fun e => e.count (x.size * 128)) ∧
         (∀ p, (v.slice p).pend = (u.slice p).pend.map fun r => if r.id ∈ wt.results then
           { r with kind := .ready
                    writes := r.writes.map fun y => { y with val := ⟨BitVec.ofNat 32 (0x100000 + x.offset + 2 ^ 24), 2⟩ } } else r) ∧
         ∀ n, n ≠ wt.unit → t.unit? n = s.unit? n)

/-- SEGATT attaches a resident segment at once, begins a reload of one that is nowhere resident, leaves one that is attached on
another core, and creates one from a record; its exact faults come before all that, but that a generation is compared after a reload,
which then has begun. A create without a load fills its area with zeros. In one cycle these words act in ascending gang slot (R287, log entry 2). -/
def Obligations.SegattAttachesReloadsOrCreates : Prop :=
  ∀ (w : MemWord) (s : State) (g : Gang) (x : Nat × Nat) (rest : List (Nat × Nat)), s.gang = some g → g.executing w.c = x :: rest →
    w.data.toNat < 0x100 →
    let va := (g.u.slice x.1).runValue x.2 w.addr.toNat 2
    let name := BitVec.ofNat 64 va
    let c := ((g.u.slice x.1).getSpec x.2 w.data.toNat).val.toNat
    let tag := c % 64
    let new := c.testBit 8
    let core := g.u.core
    MemFits s g 0x151 w (w.ofs = 0 ∧ w.size = 0 ∧ w.scope = 0 ∧ w.order = 0 ∧ w.cache = false ∧ c / 2 ^ 9 % 2 ^ 7 = 0 ∧
        (new = true → c.testBit 7 = false ∧ c / 2 ^ 16 = 0))
      (addrOk g.head.regs true w.addr.toNat = true ∧ vRunOk g.head.regs w.data.toNat 1 1 = true ∧ tag < g.u.ntags)
      (addrRegs w true ++ [w.data.toNat]) (fun _ => none) →
    (∀ sl ∈ g.u.slices, ∀ r ∈ sl.pend, r.id < g.u.nextResult) →
    let waiter : SegWaiter :=
      ⟨g.u.uid, (List.range (g.ps.filter fun p => (x :: rest).any (·.1 == p)).length).map (g.u.nextResult + ·), tag⟩
    let free := (g.u.tag tag).infl = 0 ∧ ((g.u.tag tag).c = (g.u.tag tag).e ∨ (g.u.tag tag).faulted = true) ∧ (g.u.tag tag).fail = none
    let answers := fun (status off : Nat) => onceWrites (x :: rest) w.data.toNat (off + status * 2 ^ 24) 2 false
    let late := ∃ n, (s.bank core g.u.bank).lastOp = some (s.clock, n) ∧ g.slot < n
    let q := s.noteSlot g
    let endsFrom := fun (b : State) kind writes (f : TagState → TagState) (names : List DWord) (segments : List Segment) => ∃ r u,
      Completes (.segatt w) s r g w.c.y 1 ∧ Changes { b with segments := segments } r g.u.uid u ∧
      u.tags = listModify g.u.tags tag f ∧ u.segs = g.u.segs ++ names ∧
      Issued g w.c.sb (x :: rest) (fun _ => kind) writes [] { u with tags := g.u.tags, segs := g.u.segs }
    let ends := endsFrom q
    let armed := fun n (t : TagState) => { t with e := n, c := 0, faulted := false }
    let records := fun (f : Segment → Segment) => s.segments.map fun y => if y.ctx = g.u.ctx ∧ y.name = name then f y else y
    let trapsFrom := fun (b : State) cause => ∃ tr : Trap, exec (.segatt w) s = .next (b.enterTrap g tr) ∧
      tr.Names g cause (x :: rest) g.pc
    let traps := trapsFrom q
    let reloads := fun off => records fun z => { z with core := some core, offset := off, dirty := 0, reloading := true }
    (late → exec (.segatt w) s = .next s) ∧ (¬ late →
    (new = false → ¬ free → traps .tagOverrun) ∧
    (new = false → free → s.segment? g.u.ctx name = none → traps .segAttachMiss) ∧
    (∀ y, s.segment? g.u.ctx name = some y → new = false → free →
      (c.testBit 6 = true → ¬ (y.core = some core ∧ y.reloading = false) → traps .segAttachMiss) ∧
      ((c.testBit 6 = true → y.core = some core ∧ y.reloading = false) → c.testBit 7 = true → y.gen.toNat ≠ c / 2 ^ 16 →
        (y.core = some core → traps .segGenMismatch) ∧
        (∀ off bs, y.core = none → y.reloading = false → s.areaRoom core y.size = some off → q.readBacking y = .ok bs →
          trapsFrom { q with segments := reloads off } .segGenMismatch)) ∧
      ((c.testBit 6 = true → y.core = some core ∧ y.reloading = false) → (c.testBit 7 = true → y.gen.toNat = c / 2 ^ 16) →
        (y.core = some core → y.reloading = false → ends .ready (answers 0 (0x100000 + y.offset)) (armed 0) [name]
          (records fun z => { z with
            att := z.att + 1, n := if z.life = 1 ∧ z.n > 0 then z.n - 1 else z.n, lastAttach := s.clock })) ∧
        (y.core = some core → y.reloading = true → ends (.segment name) (answers 0 0) (armed (y.size * 128)) []
          (records fun z => { z with waiters := z.waiters ++ [waiter] })) ∧
        (∀ o, y.core = some o → o ≠ core → 0 < y.att ∨ y.reloading = true →
          ends .ready (answers 6 0) (fun t => { armed 0 t with faulted := true }) [] s.segments) ∧
        (∀ off, y.core = none → s.areaRoom core y.size = some off → ends (.segment name) (answers 0 0) (armed (y.size * 128)) []
          (records fun z => { z with core := some core, offset := off, dirty := 0, reloading := true, waiters := [waiter] })))) ∧
    (∀ ps rec, new = true → free → va % 8 = 0 → q.plan g.u.ctx ⟨.read, 1, false⟩ va 32 = .ok ps → q.unreadable ps = false →
      let e := q.countElided g.u.ctx ps
      createRecord ((List.range 4).map fun k => BitVec.ofNat 64 (g.readLane e x 0 ps / 2 ^ (64 * k))) = some rec →
      let made : Segment :=
        { name := rec.name, ctx := g.u.ctx, backing := rec.backing, size := rec.size, life := rec.life, n := rec.n, gen := 0,
          core := some core, att := 1, dirty := 0, offset := 0, lastAttach := s.clock, wbFailed := false, dropAtZero := false,
          reloading := false, fresh := false, waiters := [] }
      (∀ y, s.segment? g.u.ctx rec.name = some y →
        endsFrom e .ready (answers 4 0) (fun t => { armed 0 t with faulted := true }) [] s.segments) ∧
      (∀ off, s.segment? g.u.ctx rec.name = none → s.areaRoom core rec.size = some off →
        (s.segments.filter fun y => segmentDie y.name == segmentDie rec.name).length < 16384 →
        (rec.load = false → endsFrom (e.fillArea core off (List.replicate (4096 * rec.size) 0)) .ready (answers 1 (0x100000 + off))
          (armed 0) [rec.name]
          (s.segments ++ [{ made with offset := off }])) ∧
        (rec.load = true → endsFrom e (.segment rec.name) (answers 0 0) (armed (rec.size * 128)) []
          (s.segments ++ [{ made with att := 0, offset := off, reloading := true, fresh := true, waiters := [waiter] }])))))

/-! ### Streamer commands -/

/-- The words that issue copies, weight loads, collectives, searches and queue fences put one command, with the operands of the lowest
executing lane, into the queues they name. CWAIT goes on once the counter has reached its target, waits before that, and reports a latched
failure of a queue it names. -/
def Obligations.CommandsEnterAndCountersAreWaitedFor : Prop :=
  (∀ (w : StdWord) (s : State) (g : Gang) (x : Nat × Nat) (rest : List (Nat × Nat)), s.gang = some g → g.executing w.c = x :: rest →
     sourceWords w.srcB = 1 →
     let sl := g.u.slice x.1
     let run := fun n => (List.range n).map fun k => (sl.getSpec x.2 (w.srcA.toNat + k)).val
     let pair := fun spec => BitVec.ofNat 64 (sl.runValue x.2 spec 2)
     let plain : LaneFn := fun _ _ _ _ _ => {}
     let regs := g.head.regs
     (∀ (i : Instr) (opc k : Nat) (mk : List Word → CommandKind),
       (i = .cpy w ∧ opc = 0x188 ∧ k = 0 ∧ mk = .cpy ∨ i = .cpyg w ∧ opc = 0x189 ∧ k = 1 ∧ mk = .cpyg ∨
         i = .cpys w ∧ opc = 0x18A ∧ k = 2 ∧ mk = .cpys) →
       let counted := w.m.testBit 2
       let d := run 16
       let reads := runRegs w.srcA.toNat 16 ++ if counted then runRegs (specB w) 2 else []
       OnceFits s g opc w { once := true, mods := 63, dst := .unused, a := .field, b := if counted then .field else .unused, reads, fn := plain } →
       (counted = false → w.m / 8 % 4 = 0) → descRunOk regs w.srcA.toNat 16 = true →
       (counted = true → addrOk regs true (specB w) = true) → descBad g.u d k = false →
       Queues i opc w s g [w.m % 4] (mk d) (if descTen d then some (descTag d) else none)
         (if counted then some (pair (specB w)) else none) (BitVec.ofNat 2 (w.m / 8))) ∧
     (∀ scr : Bool, w.m.testBit 2 = scr →
       let c := onceValue g w false w.srcB
       let src := if scr then onceValue g w false (.spec w.srcA) else (pair w.srcA.toNat).toNat
       OnceFits s g 0x1A2 w (if scr then { once := true, mods := 15, dst := .unused, a := src32 anyTag, b := src32 anyTag, fn := plain }
         else { once := true, mods := 15, dst := .unused, a := .field, b := src32 anyTag, reads := runRegs w.srcA.toNat 2, fn := plain }) →
       (scr = false → pairSpecOk regs w.srcA.toNat = true) → src % 32 = 0 →
       (if w.m.testBit 3 then c / 2 ^ 26 % 64 < g.u.ntags else c / 2 ^ 26 % 64 = 0) →
       (c % 2 ^ 13 + (c / 2 ^ 13 % 2 ^ 13 + 1)) * 32 ≤ g.u.ntiles * 16384 →
       Queues (.wbld w) 0x1A2 w s g [w.m % 4] (.wbld (BitVec.ofNat 64 src) scr (BitVec.ofNat 32 c))
         (if w.m.testBit 3 then some (c / 2 ^ 26 % 64) else none) none 0) ∧
     (OnceFits s g 0x191 w { once := true, dst := .unused, a := .field, reads := runRegs w.srcA.toNat 8, fn := plain } →
       descRunOk regs w.srcA.toNat 8 = true → collBad (run 8) = false →
       Queues (.coll w) 0x191 w s g [0] (.coll (run 8) s.clock) none none 0) ∧
     let reads := runRegs w.srcA.toNat 2 ++ runRegs (specB w) 2
     (OnceFits s g 0x1B0 w { once := true, mods := 15, dst := .unused, a := .field, b := .field, reads, fn := plain } →
       pairSpecOk regs w.srcA.toNat = true → pairSpecOk regs (specB w) = true → canonicalVa (pair w.srcA.toNat).toNat = true →
       (pair w.srcA.toNat).toNat % 64 = 0 → canonicalVa (pair (specB w)).toNat = true → (pair (specB w)).toNat % 8 = 0 →
       Queues (.annq w) 0x1B0 w s g [w.m % 4] (.annq (pair w.srcA.toNat)) none (some (pair (specB w))) (BitVec.ofNat 2 (w.m / 4))) ∧
     (OnceFits s g 0x190 w { once := true, mods := 15, dst := .unused, fn := plain } → w.m % 16 ≠ 0 →
       Queues (.eqfence w) 0x190 w s g ((List.range 4).filter fun q => w.m.testBit q) (.fence s.nextId) none none 0)) ∧
  ∀ (w : StdWord) (s : State) (g : Gang) (x : Nat × Nat) (rest : List (Nat × Nat)) (ps : List Piece), s.gang = some g →
     g.executing w.c = x :: rest → sourceWords w.srcB = 1 →
     let va := (g.u.slice x.1).runValue x.2 w.srcA.toNat 2
     let target := onceValue g w true w.srcB
     let latch := fun q => g.u.latches.getD q none
     let named := fun q => q < 4 ∧ (w.m / 4).testBit q = true
     let reads := runRegs w.srcA.toNat 2
     OnceFits s g 0x18D w { once := true, mods := 63, dst := .unused, a := .field, b := src64 anyTag, reads, fn := fun _ _ _ _ _ => {} } →
     addrOk g.head.regs true w.srcA.toNat = true → s.plan g.u.ctx ⟨.read, 8, false⟩ va 8 = .ok ps → s.unreadable ps = false →
     s.remoteWake ps = false →
     (∀ q c, named q → latch q = some c → (∀ p < q, named p → latch p = none) →
       ∃ r, Changes s r g.u.uid { g.u with latches := listModify g.u.latches q fun _ => none } ∧
         exec (.cwait w) s = .next (r.enterTrap g (g.trapAt c (g.maskOf (x :: rest)) (BitVec.ofNat 9 (0x100 + q))))) ∧
     ((∀ q, named q → latch q = none) →
       (target ≤ g.readLane s x 0 ps → ∃ r, Completes (.cwait w) s r g w.c.y 1 ∧ Beside s r g g.u ∧ r.mem = s.mem) ∧
       (g.readLane s x 0 ps < target → ∃ r, exec (.cwait w) s = .next (r.holdWord g) ∧ Beside s r g g.u ∧ r.mem = s.mem))

/-- The streamer performs the command at the head of a queue: a copy into the unit's own scratchpad writes its rows' elements in order,
counts the sectors that hold a copied byte, and changes no memory; a command that fails marks its tag, whose first cause not yet reported
stays (R302), and its queue's latch; a queue fence goes once it heads every queue it stands in; a counter add adds to the counter alone. A
command is performed whole and its bytes in ascending address (log entry 10). -/
def Obligations.CopyCommandsArePerformed : Prop :=
  (∀ (s : State) (q : Nat) (c : Command) (rest : List Command) (u : WorkUnit) (d : List Word) (rows : List (Nat × (Nat → Element)))
      (index : Nat → Nat) (data : Nat → List Byte) (counts : Nat → List Nat) (x : Context),
    (s.bank u.core u.bank).queues.getD q [] = c :: rest → s.unit? c.unit = some u → s.context u.ctx = some x →
    let f := descAt d
    let sz := 2 ^ (f 4 % 8)
    let ssc := (f 4).testBit 5
    let dst := (f 2 + f 3 * 2 ^ 32) % 2 ^ 21
    let src := fun n => if ssc then (f 0 + f 1 * 2 ^ 32) % 2 ^ 21 + n else (f 0 + f 1 * 2 ^ 32 + n) % 2 ^ 64
    let ex := f 5 % 2 ^ 16 + 1
    let ey := f 5 / 2 ^ 16 % 2 ^ 16 + 1
    let dims := f 4 / 8 % 4
    let reads := fun (scr : Bool) (a n : Nat) (bs : List Byte) =>
      if scr then s.scratchBad u a n = none ∧ bs = s.scratchRead u a n
      else ∃ ps, s.enginePieces u.ctx .read a n = .ok ps ∧ (∀ p ∈ ps, s.uncorrectableAt p.leaf.pa p.len = false) ∧ bs = s.readPieces ps
    let list := fun (r : Nat) => let isc := (f 9).testBit 0
      reads isc (if isc then (f 7 + f 8 * 2 ^ 32) % 2 ^ 21 + 4 * r else (f 7 + f 8 * 2 ^ 32 + 4 * r) % 2 ^ 64) 4 (natLe 4 (index r)) ∧
        index r < 2 ^ 32
    let inside := fun (o n lo b : Nat) => lo ≤ dims → 0 ≤ sext o 32 + n ∧ sext o 32 + n < b
    let at' := fun (o n : Nat) => (sext o 32 + n).toNat
    let ofBox := fun (g : Nat → Nat → Nat → Element) =>
      rows = (List.range (f 6 % 2 ^ 16 + 1)).flatMap fun z => (List.range ey).map fun y => (dst + (y * f 14 + z * f 15), g z y)
    (c.kind = .cpy d ∧ (∃ g, ofBox g ∧ ∀ z y k,
        (inside (f 7) k 0 (f 10) ∧ inside (f 8) y 1 (f 11) ∧ inside (f 9) z 2 (f 6 / 2 ^ 16 % 2 ^ 16) → g z y k =
          .copy (src (at' (f 7) k * sz + at' (f 8) y * f 12 + at' (f 9) z * f 13))) ∧
        (¬ (inside (f 7) k 0 (f 10) ∧ inside (f 8) y 1 (f 11) ∧ inside (f 9) z 2 (f 6 / 2 ^ 16 % 2 ^ 16)) → g z y k = .zero)) ∨
      c.kind = .cpyg d ∧ (∀ r < ey, list r) ∧ rows = ((List.range ey).filter fun r => index r != 0xFFFFFFFF).map (fun r =>
        (dst + r * f 14, fun k => if index r < f 11 ∧ k < f 10 then .copy (src (index r * f 12 + k * sz)) else .zero)) ∨
      c.kind = .cpys d ∧ (∀ r < ey, list r) ∧ rows = ((List.range ey).filter fun r => index r != 0xFFFFFFFF && index r < f 11).map (fun r =>
        (dst + index r * f 14, fun k => if k < f 10 then .copy (src (r * f 12 + k * sz)) else .skip))) →
    (f 4).testBit 6 = true → (f 4).testBit 15 = false → c.counter = none → s.badScratchWords u = [] → u.releases = [] →
    (∀ t, c.tag = some t → t < u.tags.length) →
    (∀ row ∈ rows, ∀ k < ex, row.2 k ≠ .skip → row.1 + k * sz + sz ≤ u.scratchLen ∧ row.1 + k * sz + sz ≤ 0x100000) →
    (∀ row ∈ rows, ∀ k < ex, ∀ a, row.2 k = .copy a → reads ssc a sz (data a) ∧ (ssc = true →
      ∀ row' ∈ rows, ∀ j < ex, row'.2 j ≠ .skip → a + sz ≤ row'.1 + j * sz ∨ row'.1 + j * sz + sz ≤ a)) →
    ((f 9).testBit 0 = true → (∃ e, c.kind = .cpy e) ∨ ∀ row ∈ rows, ∀ k < ex, row.2 k ≠ .skip → ∀ r < ey,
      let a := (f 7 + f 8 * 2 ^ 32) % 2 ^ 21 + 4 * r
      a + 4 ≤ row.1 + k * sz ∨ row.1 + k * sz + sz ≤ a) →
    (∀ n row, rows[n]? = some row → (counts n).Nodup ∧
      ∀ j, j ∈ counts n ↔ ∃ k < ex, (row.2 k).isCopy = true ∧ row.1 + k * sz < 32 * j + 32 ∧ 32 * j < row.1 + k * sz + sz) →
    let total := ((List.range rows.length).map fun n => (counts n).length).sum
    let stores := rows.flatMap fun row => (List.range ex).flatMap fun k =>
      match row.2 k with
      | .skip => []
      | .zero => (List.range sz).map fun b => (row.1 + k * sz + b, (0 : Byte))
      | .copy a => (List.range sz).map fun b => (row.1 + k * sz + b, (data a).getD b 0)
    ∃ t v, exec (.copyPerform u.core u.bank q) s = .next t ∧ t.mem = s.mem ∧ t.unit? c.unit = some v ∧
      (∀ o, sparseGet 0 v.scratch o = afterStores (sparseGet 0 u.scratch o) stores o) ∧
      v.tags = (match c.tag with
        | some n => listModify u.tags n fun e =>
            { (if total = 0 then e else e.count total) with infl := e.infl - 1 }
        | none => u.tags) ∧
      v.latches = u.latches ∧ v.slices = u.slices.map Slice.wake ∧
      (t.bank u.core u.bank).queues.getD q [] = rest ∧
      ∀ p, p ≠ q → (t.bank u.core u.bank).queues.getD p [] = (s.bank u.core u.bank).queues.getD p []) ∧
  (∀ (s : State) (q : Nat) (c : Command) (u : WorkUnit) (count : Nat) (cause : Cause), s.unit? c.unit = some u → u.releases = [] →
    u.residence ≠ .exited →
    ∃ v, (s.commandEnd q c count (some cause)).unit? c.unit = some v ∧ v.latches = listModify u.latches q (fun _ => some cause) ∧
      (s.commandEnd q c count (some cause)).mem = s.mem ∧
      ∀ n, c.tag = some n → ∀ e, u.tags[n]? = some e → ∃ e', v.tags[n]? = some e' ∧ e'.faulted = true ∧ e'.infl = e.infl - 1 ∧
        e'.e = e.e ∧ e'.fail = some (e.fail.getD (if count ≠ 0 ∧ e.e < e.c + count then .tagOverrun else cause))) ∧
  (∀ (s : State) (core bank q id : Nat) (c : Command) (rest : List Command) (u : WorkUnit),
    (s.bank core bank).queues.getD q [] = c :: rest → c.kind = .fence id → s.unit? c.unit = some u →
    let met := ∀ l ∈ (s.bank core bank).queues, (∃ e ∈ l, e.kind = .fence id) → ∃ e t, l = e :: t ∧ e.kind = .fence id
    (met → ∃ t, exec (.copyPerform core bank q) s = .next t ∧ (t.bank core bank).queues =
      (s.bank core bank).queues.map fun l => l.filter fun e => e.kind != .fence id) ∧
    (¬ met → exec (.copyPerform core bank q) s = .next s)) ∧
  ∀ (s : State) (ctx n : Nat) (va : DWord) (p : Piece), va.toNat % 8 = 0 → va.toNat % 65536 + 8 ≤ 65536 →
    s.enginePieces ctx .write va.toNat 8 = .ok [p] → s.uncorrectableAt p.leaf.pa 8 = false →
    ∃ t, s.counterAdd ctx va n = .ok t ∧ t.natAt p.leaf.pa 8 = (s.natAt p.leaf.pa 8 + n) % 2 ^ 64 ∧
      ∀ a, a < p.leaf.pa ∨ p.leaf.pa + 8 ≤ a → t.byteAt a = s.byteAt a

/-- A collective takes its occurrence number when it begins, matches its peers' contributions, and once all are in writes the reduction,
element by element the tree over the ranks, and counts it; one that fails or times out writes nothing and latches its cause on e0. That
COPY_PERFORM also begins a collective is log entry 21. -/
def Obligations.CollectivesCombineTheirInputs : Prop :=
  (∀ (op : Nat → Nat → Nat) (l : List Nat), (∀ x, tree op [x] = x) ∧ (2 ≤ l.length → tree op l = tree op (treeLevel op l)) ∧
    (∀ n a b, l[2 * n]? = some a → l[2 * n + 1]? = some b → (treeLevel op l)[n]? = some (op a b)) ∧
    (∀ n a, l[2 * n]? = some a → l[2 * n + 1]? = none → (treeLevel op l)[n]? = some a) ∧
    (treeLevel op l).length = (l.length + 1) / 2) ∧
  (∀ (fpm : BitVec 4) (p : CollParams) (rank : Nat) (inputs : List (List Byte)),
    let e := if p.fmt = 1 then 8 else 4
    let element := fun (bs : List Byte) (n : Nat) => leNat ((bs.drop (n * e)).take e)
    let from' := if p.kind = 0 then rank * p.count else 0
    let out := collResult fpm p rank inputs
    (p.kind = 1 → out = inputs.flatten) ∧
    (p.kind ≠ 1 → out.length = p.count * e ∧ ∀ n, n < p.count →
      element out n = tree (collOp fpm p) (inputs.map fun bs => element bs (from' + n)) % 2 ^ (8 * e)) ∧
    ∀ a b : BitVec 32, p.fmt = 3 → BitVec.ofNat 32 (collOp fpm p a.toNat b.toNat) =
      (if p.rop = 0 then a + b else if p.rop = 1 then (if b.slt a then b else a) else if a.slt b then b else a)) ∧
  (∀ (s : State) (core bank : Nat) (c : Command) (rest : List Command) (u : WorkUnit) (l : Launch) (d : List Word) (issued : Nat)
      (ps : List Piece),
    (s.bank core bank).queues.getD 0 [] = c :: rest → c.kind = .coll d issued → c.begun = false → s.unit? c.unit = some u →
    s.launch? u.die u.lslot = some l → s.early = [] →
    let p := collParams d
    let n := (if p.kind = 0 then l.members * p.count else p.count) * (if p.fmt = 1 then 8 else 4)
    let va := descAt d 0 + descAt d 1 * 2 ^ 32
    let occ := sparseGet 0 l.occurrences (descAt d 7 / 2 ^ 16) + 1
    0 < n → n ≤ 4096 → va < 2 ^ 64 → s.enginePieces u.ctx .read va n = .ok ps → (∀ q ∈ ps, s.uncorrectableAt q.leaf.pa q.len = false) →
    ∃ t m, exec (.copyPerform core bank 0) s = .next t ∧ t.mem = s.mem ∧ t.launch? u.die u.lslot = some m ∧
      m.occurrences = sparsePut l.occurrences (descAt d 7 / 2 ^ 16) occ ∧
      (t.bank core bank).queues.getD 0 [] = { c with begun := true } :: rest ∧
      t.collectives = s.collectives ++ [{
        id := s.nextId, die := l.die, lslot := l.slot, unit := u.uid, core := core, bank := bank, command := c.id,
        cnum := descAt d 7 / 2 ^ 16, occurrence := occ, params := p, dst := BitVec.ofNat 64 (descAt d 2 + descAt d 3 * 2 ^ 32),
        counter := BitVec.ofNat 64 (descAt d 4 + descAt d 5 * 2 ^ 32), ctx := u.ctx,
        generation := (l.cinch.map (·.generation)).getD 0, inputs := [(if 1 < l.chips then s.chip - l.chip0 else 0, s.readPieces ps)],
        failed := none, since := issued }]) ∧
  (∀ (s : State) (m : CollMessage),
    let meant := fun (c : Collective) => c.generation = m.generation ∧ c.cnum = m.cnum ∧ c.occurrence = m.occurrence
    ((∀ c ∈ s.collectives, ¬ meant c) → exec (.collContribution m) s = .next { s with early := s.early ++ [m] }) ∧
    ((∃ c ∈ s.collectives, meant c) → ∃ t : State, exec (.collContribution m) s = .next t ∧ t = { s with collectives := t.collectives } ∧
      t.collectives.length = s.collectives.length ∧
      ∀ (n : Nat) (c c' : Collective) (l : Launch), s.collectives[n]? = some c → t.collectives[n]? = some c' →
        s.launch? c.die c.lslot = some l →
        (¬ (meant c ∧ 1 < l.chips ∧ l.chip0 ≤ m.chip ∧ m.chip < l.chip0 + l.chips) → c' = c) ∧
        (meant c → 1 < l.chips → l.chip0 ≤ m.chip → m.chip < l.chip0 + l.chips →
          (m.input = none → c' = { c with failed := some (c.failed.getD (if m.late then .collTimeout else .collMismatch)) }) ∧
          (m.input ≠ none → m.params ≠ c.params → c' = { c with failed := some (c.failed.getD .collMismatch) }) ∧
          (∀ bs, m.input = some bs → m.params = c.params → (∀ e ∈ c.inputs, e.1 ≠ m.chip - l.chip0) →
            c' = { c with inputs := c.inputs ++ [(m.chip - l.chip0, bs)] })))) ∧
  ∀ (s : State) (c : Collective) (cmd : Command) (rest : List Command) (u : WorkUnit) (l : Launch),
    s.collectives.find? (·.id == c.id) = some c → (s.bank c.core c.bank).queues.getD 0 [] = cmd :: rest → cmd.id = c.command →
    s.unit? cmd.unit = some u → u.releases = [] → cmd.tag = none → s.launch? c.die c.lslot = some l →
    let ended := fun (r t : State) (cause : Option Cause) => ∃ v, t.mem = r.mem ∧ t.collectives = s.collectives.filter (·.id != c.id) ∧
      (t.bank c.core c.bank).queues.getD 0 [] = rest ∧ t.unit? cmd.unit = some v ∧ v.tags = u.tags ∧
      v.latches = match cause with
        | some f => listModify u.latches 0 fun _ => some f
        | none => u.latches
    (∀ f, c.failed = some f → ∃ t, exec (.collComplete c.id) s = .next t ∧ ended s t (some f)) ∧
    (c.failed = none → c.inputs.length ≠ (if 1 < l.chips then l.chips else 1) → exec (.collComplete c.id) s = .next s) ∧
    (c.failed = none → c.inputs.length < (if 1 < l.chips then l.chips else 1) → c.since + 2 ^ 28 ≤ s.clock →
      ∃ t, exec (.collTimeout c.id) s = .next t ∧ ended s t (some .collTimeout)) ∧
    (c.failed ≠ none ∨ (if 1 < l.chips then l.chips else 1) ≤ c.inputs.length ∨ s.clock < c.since + 2 ^ 28 →
      exec (.collTimeout c.id) s = .next s) ∧
    ∀ (x : Context) (p : Piece) (m : State), c.failed = none → c.inputs.length = (if 1 < l.chips then l.chips else 1) →
      s.context c.ctx = some x →
      let out := collResult x.fpmode c.params (if 1 < l.chips then s.chip - l.chip0 else 0)
        ((List.range c.inputs.length).map fun r => ((c.inputs.find? (·.1 == r)).map (·.2)).getD [])
      0 < out.length → out.length ≤ 4096 → s.enginePieces c.ctx .write c.dst.toNat out.length = .ok [p] → p.len = out.length →
      s.uncorrectableAt p.leaf.pa out.length = false → ((s.storeBytes p.leaf.pa out)).counterAdd c.ctx c.counter 1 = .ok m →
      ∃ t, exec (.collComplete c.id) s = .next t ∧ ended m t none

/-! ### The matrix unit -/

/-- The matrix words put their operations into the unit's queue, held while it is full, under the issued configuration; MFENCE closes a
batch and MWAIT waits for one, and has a place in the queue while it waits. How long MFENCE and MWAIT keep their places is log entry 18. -/
def Obligations.MatrixWordsEnterTheQueue : Prop :=
  ∀ (w : StdWord) (s : State) (g : Gang) (x : Nat × Nat) (rest : List (Nat × Nat)), s.gang = some g → g.executing w.c = x :: rest →
    sourceWords w.srcB = 1 →
    let sl := g.u.slice x.1
    let lanes := x :: rest
    let regs := g.head.regs
    let fn : LaneFn := fun _ _ _ _ _ => {}
    let pair := sl.runValue x.2 w.srcA.toNat 2
    let valA := onceValue g w false (.spec w.srcA)
    let valB := onceValue g w false w.srcB
    let bad := fun i => exec i s = .next (s.enterTrap g (g.trapAt .matrixConfig (g.maskOf lanes) w.dst))
    let enters := fun i opc kind cfg (u : WorkUnit) =>
      (16 ≤ g.u.matq.length → exec i s = .next (s.holdWord g)) ∧
      (g.u.matq.length < 16 → ∃ r, Completes i s r g w.c.y 1 ∧
        Changes s r g.u.uid { u with matq := g.u.matq ++ [⟨kind, cfg, 0, encodeStd opc w⟩] })
    let aPair := runRegs w.srcA.toNat 2
    (OnceFits s g 0x1A0 w { once := true, dst := .unused, a := .field, reads := aPair, fn } → pairSpecOk regs w.srcA.toNat = true →
      let block := BitVec.ofNat 64 pair
      (matCfg g.u.ntiles block = none → bad (.tcfg w)) ∧
      (matCfg g.u.ntiles block ≠ none → enters (.tcfg w) 0x1A0 (.tcfg block) block { g.u with cfgIssued := some block })) ∧
    (g.u.cfgIssued = none →
      (OnceFits s g 0x1A1 w { once := true, dst := .unused, a := src32 anyTag, fn } → bad (.tzero w)) ∧
      (OnceFits s g 0x1A5 w { once := true, dst := .unused, fn } → bad (.mfence w)) ∧
      (OnceFits s g 0x1A6 w { once := true, dst := .unused, a := src32 anyTag, fn } → bad (.mwait w))) ∧
    ∀ (c : MatCfg) (block : DWord), g.u.cfgIssued = some block → matCfg g.u.ntiles block = some c →
      let named := fun t => t < c.tcnt ∧ (c.cfmt = 2 → t % 2 = 0)
      (OnceFits s g 0x1A1 w { once := true, dst := .unused, a := src32 anyTag, fn } →
        (valA < 2 ^ 16 → (∀ t < 16, valA.testBit t = true → named t) →
          enters (.tzero w) 0x1A1 (.tzero (BitVec.ofNat 16 valA)) block g.u) ∧
        (2 ^ 16 ≤ valA ∨ (∃ t < 16, valA.testBit t = true ∧ ¬ named t) → bad (.tzero w))) ∧
      (∀ (i : Instr) (opc n : Nat) (m0 m1 m2 m3 : Word) (reads : List Nat) (srcC : Src),
        (i = .mma w ∧ opc = 0x1A3 ∧ n = 1 ∧ m1 = 0 ∧ m2 = 0 ∧ m3 = 0 ∧ reads = aPair ∧ srcC = .unused ∨
          i = .mloop w ∧ opc = 0x1A4 ∧ n = m0.toNat + 1 ∧ n ≤ 65536 ∧ reads = aPair ++ runRegs w.srcC.toNat 4 ∧ srcC = .field ∧
            descRunOk regs w.srcC.toNat 4 = true ∧
            [m0, m1, m2, m3] = (List.range 4).map fun k => (sl.getSpec x.2 (w.srcC.toNat + k)).val) →
        OnceFits s g opc w { once := true, mods := 1, dst := .field, a := .field, b := src32 anyTag, c := srcC, reads, fn } →
        pairSpecOk regs w.srcA.toNat = true → w.dst.toNat < 16 → named w.dst.toNat →
        let ao := BitVec.ofNat 32 pair
        let asc := BitVec.ofNat 32 (pair / 2 ^ 32)
        let bo := BitVec.ofNat 32 valB
        let stepAt := fun (base inc : Word) (k : Nat) => (base.toNat : Int) + k * inc.toInt
        ao.toNat < 2 ^ 21 → (c.aScales = true → asc.toNat < 2 ^ 21) →
        (∀ k < n, (∀ m < c.m, s.scratchBad g.u (stepAt ao m1 k + (m * c.astr : Nat)) 64 = none) ∧
          (c.aScales = true → s.scratchBad g.u (stepAt asc m3 k) (c.m * (c.k / 32)) = none) ∧
          stepAt ao m1 k % (if c.cfmt = 2 then 8 else 4) = 0 ∧ stepAt bo m2 k % 32 = 0 ∧ 0 ≤ stepAt bo m2 k ∧
          stepAt bo m2 k + c.layout.size ≤ (g.u.ntiles * 16384 : Nat)) →
        enters i opc (.mma w.dst.toNat (w.m.testBit 0) n ao asc bo m1 m2 m3) block g.u) ∧
      (OnceFits s g 0x1A5 w { once := true, dst := .unused, fn } →
        enters (.mfence w) 0x1A5 .fence block { g.u with batchClosed := g.u.batchClosed + 1 }) ∧
      (OnceFits s g 0x1A6 w { once := true, dst := .unused, a := src32 anyTag, fn } →
        let back := (g.u.batchClosed - BitVec.ofNat 32 valA).toNat
        let openBatches := (g.u.matq.filter (·.kind == .fence)).length
        let waits := g.u.matq.any fun o => o.kind == .wait g.ref
        let left : WorkUnit := if waits then { g.u with
          matq := g.u.matq.filter fun o => o.kind != .wait g.ref, slices := g.u.slices.map Slice.wake } else g.u
        (2 ^ 31 < back → bad (.mwait w)) ∧
        (back ≤ 2 ^ 31 → waits = false → 16 ≤ g.u.matq.length → exec (.mwait w) s = .next (s.holdWord g)) ∧
        (back ≤ 2 ^ 31 → (waits = true ∨ g.u.matq.length < 16) →
          (∀ t, g.u.matError = some t → ∃ r, Changes s r g.u.uid { left with matError := none } ∧
            exec (.mwait w) s = .next (r.enterTrap g (g.trapAt .memUncorrectable (g.maskOf lanes) (BitVec.ofNat 9 t)))) ∧
          (g.u.matError = none → openBatches ≤ back → ∃ r, Completes (.mwait w) s r g w.c.y 1 ∧ Changes s r g.u.uid left) ∧
          (g.u.matError = none → back < openBatches → ∃ r, exec (.mwait w) s = .next (r.holdWord g) ∧ Changes s r g.u.uid
            { g.u with matq := g.u.matq ++ if waits then [] else [⟨.wait g.ref, block, 0, encodeStd 0x1A6 w⟩] }))) ∧
      (let tile := w.m % 16
        let index := fun (y : Nat × Nat) => ((g.u.slice y.1).readSpec y.2 (intUse false anyTag) w.srcA.toNat).val
        let k := if c.cfmt = 2 then 2 else 1
        OnceFits s g 0x1A7 w { mods := 15, dst := .field, a := src32 anyTag, fn } → vRunOk regs w.dst.toNat k k = true → named tile →
        (∀ y ∈ lanes, index y % 2 ^ 6 < c.m ∧ index y / 2 ^ 8 % 2 ^ 6 < c.n ∧ index y / 2 ^ 6 % 4 = 0 ∧ index y / 2 ^ 14 = 0) →
        g.u.matStopped = none ∨ (∃ o ∈ g.u.matq, o.kind = .tcfg o.cfg) →
        (16 ≤ g.u.matq.length → exec (.tld w) s = .next (s.holdWord g)) ∧
        (g.u.matq.length < 16 → ∃ r u, Completes (.tld w) s r g w.c.y 1 ∧ Changes s r g.u.uid u ∧
          Issued g w.c.sb lanes (fun _ => .tile) (fun _ => []) [] { u with matq := g.u.matq } ∧
          u.matq = g.u.matq ++ [⟨.tld tile (lanes.map fun y =>
            { slice := y.1, lane := y.2, dst := w.dst.toNat, index := BitVec.ofNat 32 (index y),
              result := g.u.nextResult + ((g.ps.filter fun p => lanes.any (·.1 == p)).findIdx? (· == y.1)).getD 0 }),
            block, 0, encodeStd 0x1A7 w⟩])) ∧
      (let tile := w.m % 16
        let bf := w.m.testBit 4
        let e := if c.cfmt = 2 then 8 else if bf then 2 else 4
        OnceFits s g 0x1A8 w { once := true, mods := 63, dst := .unused, a := src32 anyTag, b := src32 anyTag, fn } → w.m.testBit 5 = false →
        (bf = true → c.cfmt = 0) → valA % e = 0 → valB % e = 0 → c.n * e ≤ valB → named tile →
        (∀ m < c.m, s.scratchBad g.u ((valA + m * valB : Nat) : Int) (c.n * e) = none) →
        enters (.tst w) 0x1A8 (.tst tile (BitVec.ofNat 32 valA) (BitVec.ofNat 32 valB) bf) block g.u)

/-- The operation at the head of a matrix queue is performed: TCFG and TZERO clear tiles, TLD gives its results their elements, TST
stores a tile, and a K-step computes every element of its tile from the state before it, in exact arithmetic rounded once. -/
def Obligations.MatrixOperationsArePerformed : Prop :=
  ∀ (s : State) (uid : Nat) (u : WorkUnit) (op : MatOp) (rest : List MatOp), s.unit? uid = some u → u.matq = op :: rest →
    u.releases = [] → (u.residence = .exited ∨ u.residence = .resident ∧ (s.core u.core).active = u.bank) →
    let tile := fun (v : WorkUnit) i => sparseGet 0 v.tiles i
    let performs := fun (v : WorkUnit) => ∃ t, exec (.matrixOperationPerform uid) s = .next t ∧ t.mem = s.mem ∧ t.unit? uid = some v
    (∀ block, op.kind = .tcfg block → ∃ v, performs v ∧ v.matq = rest ∧ v.cfgDone = some block ∧ v.matStopped = none ∧
      v.weights = u.weights ∧ v.scratch = u.scratch ∧ (∀ i, i / 4096 < u.ntiles → tile v i = 0) ∧
      ∀ c, matCfg u.ntiles block = some c → ∀ k < u.ntiles,
        sparseGet 0 v.tileTags k = if c.cfmt = 0 then 0x10 else if c.cfmt = 1 then 0x01 else 0x11) ∧
    (op.kind = .fence ∨ (∃ r, op.kind = .wait r) → ∃ v, performs v ∧ v.matq = rest ∧ v.tiles = u.tiles ∧ v.scratch = u.scratch) ∧
    ∀ c, matCfg u.ntiles op.cfg = some c → u.matStopped = none →
      let pairOf := fun k => if c.cfmt = 2 then [k, k + 1] else [k]
      (∀ mask, op.kind = .tzero mask → ∃ v, performs v ∧ v.matq = rest ∧ v.scratch = u.scratch ∧
        ∀ i, let hit := ∃ k, mask.getLsbD k = true ∧ i / 4096 ∈ pairOf k
          (hit → tile v i = 0) ∧ (¬ hit → tile v i = tile u i)) ∧
      (∀ k reads, op.kind = .tld k reads → (∀ n ∈ pairOf k, n ∉ u.badTiles) → ∃ v, performs v ∧ v.matq = rest ∧ v.tiles = u.tiles ∧
        ∀ p r, r ∈ (u.slice p).pend →
          let mine := reads.filter fun y => y.slice == p && y.result == r.id
          let value := fun (y : TileRead) => u.tileGet c k (y.index.toNat % 2 ^ 6) (y.index.toNat / 2 ^ 8 % 2 ^ 6)
          mine ≠ [] → ∃ r' ∈ (v.slice p).pend, r'.id = r.id ∧ r'.kind = .ready ∧
            r'.writes = (mine.filter fun y => !(u.slice p).exited.getLsbD y.lane).flatMap fun y =>
              (⟨some y.lane, y.dst, ⟨BitVec.ofNat 32 (value y), sparseGet 0 u.tileTags k⟩⟩ : RegWrite) ::
                if c.cfmt = 2 then [⟨some y.lane, y.dst + 1, ⟨BitVec.ofNat 32 (value y / 2 ^ 32), 0⟩⟩] else []) ∧
      (∀ k o st bf, op.kind = .tst k o st bf → (∀ n ∈ pairOf k, n ∉ u.badTiles) →
        o.toNat + c.m * st.toNat ≤ 0x100000 → c.n * tstSize c bf ≤ st.toNat →
        ∃ v, performs v ∧ v.matq = rest ∧ v.tiles = u.tiles ∧
          (∀ m n b, m < c.m → n < c.n → b < tstSize c bf →
            sparseGet 0 v.scratch (o.toNat + m * st.toNat + n * tstSize c bf + b) =
              BitVec.ofNat 8 ((if bf then (fp32.convert bf16 0 0 (u.tileGet c k m n)).code else u.tileGet c k m n) / 2 ^ (8 * b))) ∧
          ∀ a, (∀ m < c.m, a < o.toNat + m * st.toNat ∨ o.toNat + m * st.toNat + c.n * tstSize c bf ≤ a) →
            sparseGet 0 v.scratch a = sparseGet 0 u.scratch a) ∧
      ∀ k z steps ao asc bo m1 m2 m3, op.kind = .mma k z steps ao asc bo m1 m2 m3 →
        let at' := fun (base inc : Word) => (base.toNat : Int) + op.done * inc.toInt
        let block := (List.range c.layout.size).map fun b => sparseGet 0 u.weights ((at' bo m2).toNat + b)
        let old := fun m n => if z = true ∧ op.done = 0 then 0 else u.tileGet c k m n
        s.stepBad u c k (z && op.done == 0) ⟨at' ao m1, at' asc m3, at' bo m2⟩ = false →
        ∃ t v, exec (.kStep uid) s = .next t ∧ t.mem = s.mem ∧ t.unit? uid = some v ∧ v.scratch = u.scratch ∧ v.weights = u.weights ∧
          v.matq = (if steps ≤ op.done + 1 then rest else { op with done := op.done + 1 } :: rest) ∧
          (∀ i, i / 4096 ∉ pairOf k → tile v i = tile u i) ∧
          (∀ m n, m < c.m → n < c.n → v.tileGet c k m n = c.element (old m n) (List.zipWith (fun a b => matTerm a.1 b.1 a.2 b.2)
            (s.matRow u c (at' ao m1) (at' asc m3) m) (c.matColumn block n)) % 2 ^ (if c.cfmt = 2 then 64 else 32)) ∧
          ∀ m n, m < c.m → n < c.n → c.cfmt = 1 → c.bcomp = 0 →
            let a := fun j => let b : Byte := s.scratchByte u ((at' ao m1 + (m * c.astr : Nat)).toNat + j)
              if c.afmt = 5 then b.toInt else (b.toNat : Int)
            let b := fun j => let b : Byte := sparseGet 0 u.weights ((at' bo m2).toNat + n * 64 + j)
              if c.bfmt = 5 then b.toInt else (b.toNat : Int)
            let sum := (BitVec.ofNat 32 (old m n)).toInt + ((List.range 64).map fun j => a j * b j).sum
            (BitVec.ofNat 32 (v.tileGet c k m n)).toInt =
              if c.sat then max (-2 ^ 31) (min (2 ^ 31 - 1) sum) else (BitVec.ofInt 32 sum).toInt

/-! ### Search -/

/-- The four messages of a search: a home unit answers an EXPAND with the node's list and an EVAL with its distance; the owner goes on
when the round's last list or last distance is in. A round keeps the least keys, and messages within one unit count no hop. That
messages within one unit count no hop is log entry 20. -/
def Obligations.SearchMessagesRunTheRounds : Prop :=
  (∀ (s : State) (q : Query) (n : Word), s.queries.find? (·.id == q.id) = some q → (∀ x ∈ s.queries, x.outcome = none) →
    let read := fun va k (bs : List Byte) => ∃ ps, s.enginePieces q.ctx .read va k = .ok ps ∧
      (∀ p ∈ ps, s.uncorrectableAt p.leaf.pa p.len = false) ∧ bs = s.readPieces ps
    let becomes := fun i (q' : Query) => ∃ t, exec i s = .next t ∧ t.mem = s.mem ∧ t.units = s.units ∧
      t.queries = s.queries.map fun x => if x.id = q.id then q' else x
    let hop := if n.toNat / 2 ^ 27 = q.owner then 0 else 1
    let h := n.toNat / 2 ^ 27
    let record := ((wordOf q.graph h).toNat + n.toNat % 2 ^ 27 * ((wordOf q.graph 19).toNat % 2 ^ 32)) % 2 ^ 64
    let list := (record + (wordOf q.graph 18).toNat / 2 ^ 32 % 2 ^ 16) % 2 ^ 64
    (.expand n ∉ q.msgs → exec (.searchExpand q.id n) s = .next s) ∧
    (∀ c bs, .expand n ∈ q.msgs → read list 4 c → 0 < leNat c → leNat c ≤ 256 → read ((list + 4) % 2 ^ 64) (4 * leNat c) bs →
      becomes (.searchExpand q.id n) { q with
        msgs := q.msgs.erase (.expand n) ++ [.list ⟨n, BitVec.ofNat 32 (leNat c),
          (List.range (leNat c)).map fun k => BitVec.ofNat 32 (leNat ((bs.drop (4 * k)).take 4)), none⟩]
        hops := q.hops + hop }) ∧
    (.eval n ∉ q.msgs → exec (.searchEval q.id n) s = .next s) ∧
    (∀ bs, .eval n ∈ q.msgs → read record (queryDim q.head * vectorSize (graphFmt q.graph)) bs →
      becomes (.searchEval q.id n) { q with
        msgs := q.msgs.erase (.eval n) ++ [.dist ⟨n, BitVec.ofNat 32 (nodeDistance (queryDist q.head)
          (vectorVals (queryFmt q.head) (queryDim q.head) q.vector) (vectorVals (graphFmt q.graph) (queryDim q.head) bs)), none⟩]
        hops := q.hops + hop }) ∧
    (∀ f, .eval n ∈ q.msgs → s.enginePieces q.ctx .read record (queryDim q.head * vectorSize (graphFmt q.graph)) = .error f →
      becomes (.searchEval q.id n) { q with msgs := q.msgs.erase (.eval n) ++ [.dist ⟨n, 0, some f⟩], hops := q.hops + hop }) ∧
    (∀ r : ListReply, .list r ∈ q.msgs → r.node = n → (∀ r' : ListReply, .list r' ∈ q.msgs → r'.node = n → r' = r) →
      let q' := { q with msgs := q.msgs.erase (.list r), lists := q.lists ++ [r] }
      (q'.lists.length ≠ q.expand.length → becomes (.searchList q.id n) q') ∧
      (q'.lists.length = q.expand.length → q'.scan.outcome = none → becomes (.searchList q.id n) q'.scan)) ∧
    (∀ r : DistReply, .dist r ∈ q.msgs → r.node = n → (∀ r' : DistReply, .dist r' ∈ q.msgs → r'.node = n → r' = r) →
      let q' := { q with msgs := q.msgs.erase (.dist r), dists := q.dists ++ [r] }
      (q'.dists.length ≠ q.fresh.length → becomes (.searchDist q.id n) q') ∧
      (q'.dists.length = q.fresh.length → q'.insert.outcome = none → becomes (.searchDist q.id n) q'.insert))) ∧
  (∀ q : Query, (∀ n ∈ q.fresh, ∃ d, q.dists.find? (·.node == n) = some d ∧ d.fault = none) → q.insert.outcome = none →
    let new := q.fresh.filterMap fun n => (q.dists.find? (·.node == n)).map fun d => ({ dist := d.dist, node := n, expanded := false } : Candidate)
    let kept := fun (c : Candidate) => q.insert.cands.any fun e => e.node == c.node && e.dist == c.dist
    let all := q.cands ++ new
    q.insert.evals = q.evals + q.fresh.length ∧ q.insert.rounds = (if q.started then q.rounds + 1 else 0) ∧
      q.insert.cands.Pairwise (fun a b => b.before a = false) ∧
      q.insert.cands.length = (if q.started then min (queryBeam q.head) all.length else all.length) ∧
      (∀ e ∈ q.insert.cands, ∃ c ∈ all, c.node = e.node ∧ c.dist = e.dist) ∧
      ∀ c ∈ all, kept c = false → ∀ e ∈ q.insert.cands, c.before e = false) ∧
  (∀ (dim : Nat) (xs ys : List Byte), xs.length = dim → ys.length = dim →
    let sum := ((List.range dim).map fun k => (((xs.getD k 0).toNat : Int) - (ys.getD k 0).toNat) ^ 2).sum.toNat
    let dot := ((List.range dim).map fun k => (xs.getD k 0).toNat * (ys.getD k 0).toNat).sum
    nodeDistance 0 (vectorVals 6 dim xs) (vectorVals 6 dim ys) = (if sum = 0 then 0 else (fp32.roundTo 0 0 ⟨false, sum, 0⟩).code) ∧
    nodeDistance 1 (vectorVals 6 dim xs) (vectorVals 6 dim ys) = if dot = 0 then 0 else (fp32.roundTo 0 0 ⟨true, dot, 0⟩).code) ∧
  ∀ (s : State) (core bank qn : Nat) (c : Command) (rest : List Command) (u : WorkUnit) (packet : DWord) (q : Query) (e : Engine),
    (s.bank core bank).queues.getD qn [] = c :: rest → c.kind = .annq packet → c.begun = false → s.unit? c.unit = some u →
    s.queries = [] →
    let asked : Query :=
      { (default : Query) with
        id := s.nextId, core := core, bank := bank, queue := qn, unit := u.uid, ctx := u.ctx, command := c.id, packet := packet }
    asked.begin (Engine.start s.newId.2 u.uid u.ctx) = (q, e) →
    q.outcome = none → ∃ t, exec (.copyPerform core bank qn) s = .next t ∧ t.mem = s.mem ∧ t.queries = [q] ∧
      ((t.bank core bank).queues.getD qn []).head? = some { c with begun := true }

/-! ### Events and tasks -/

/-- SCHED, CANCEL, EVQRY and TASK. SCHED stages one record for each lane, or faults with the first cause in R145's order; CANCEL and
EVQRY answer the status of R147; TASK puts its lanes' tasks into the pool of its launch. Staged records take room of the save area, of
which log entry 36 says how much. What EVQRY answers in a lane that runs as no
event, and which checks SCHED makes there, is log entry 23. -/
def Obligations.EventWordsStageAndAnswer : Prop :=
  ∀ (w : StdWord) (s : State) (g : Gang), s.gang = some g →
    let regs := g.head.regs
    let lanes := g.executing w.c
    let event := g.l.kind = 2
    let lane := fun (x : Nat × Nat) => g.u.lane x.1 x.2
    let pair := fun (x : Nat × Nat) => (pairAddress (g.u.slice x.1) w.srcA.toNat x.2)
    let args := fun (x : Nat × Nat) => (List.range 8).map fun n => ((lane x).getV (w.srcC.toNat + n)).val
    let others := fun (r : State) => (∀ n, n ≠ g.u.uid → r.unit? n = s.unit? n) ∧
      (∀ d n, (d, n) ≠ (g.l.die, g.l.slot) → r.launch? d n = s.launch? d n)
    let roomApart := fun (r q : State) => let plain := fun (c : Context) => { c with saveUsed := [] }
      { r with units := [], launches := [], contexts := r.contexts.map plain } =
        { q with units := [], launches := [], contexts := q.contexts.map plain }
    let aPair := runRegs w.srcA.toNat 2
    let arg := runRegs w.srcC.toNat 8
    (OnceFits s g 0x180 w { mods := 1, dst := .field, a := .field, b := src32 anyTag, c := .field, reads := aPair ++ runRegs w.dst.toNat 1 ++ arg, fn := fun _ _ _ _ _ => {} } →
      pairSpecOk regs w.srcA.toNat = true → srcSpecOk regs false false w.dst.toNat = true → vRunOk regs w.srcC.toNat 8 8 = true →
      let tie := fun (x : Nat × Nat) => ((g.u.slice x.1).readB x.2 (intUse false anyTag) w.srcB).val
      let flag := fun (x : Nat × Nat) => ((g.u.slice x.1).readSpec x.2 (intUse false anyTag) w.dst.toNat).val
      let h := fun x => tie x / 2 ^ 20 % 2 ^ 12
      let target := fun x => let num := flag x / 2 ^ 16 % 2 ^ 16
        if event then (if num = g.l.domainNo then some g.l else none) else s.domainOf g.u.ctx num
      let window := fun x => (target x).bind fun l => l.domain.bind (·.window)
      let base := fun x => if event then (lane x).evtime.toNat else ((window x).map (·.2.toNat)).getD 0
      let time := fun x => if w.m.testBit 0 then (pair x).toNat else base x + (pair x).toNat
      let known := fun x => (target x).any fun l => decide (h x < l.hcount) && (((l.domain.getD default).handlers.getD (h x) ⟨0, 0⟩).entry != 0)
      let past := fun x => if event then decide (time x < (lane x).evtime.toNat) else (window x).any fun e => decide (time x ≤ e.2.toNat)
      let causes := fun x => [(!known x, Cause.evBadHandler), (decide event && (lane x).schedOrd == 4096, .evOrdinalLimit),
        (decide (2 ^ 64 ≤ time x), .evTimeOverflow), (past x, .evPast)]
      let fault := fun x => (causes x).findIdx? (·.1)
      let record := fun x (id : BitVec 48) =>
        (⟨BitVec.ofNat 64 (time x), BitVec.ofNat 20 (tie x), BitVec.ofNat 12 (h x), BitVec.ofNat 16 (flag x), id, 0, args x⟩ : EventRec)
      ((∀ x ∈ lanes, fault x = none) → event → ∀ d, g.l.domain = some d →
        let new := lanes.map fun x => record x (BitVec.ofNat 48 ((lane x).evser.toNat % 2 ^ 36 * 4096 + (lane x).schedOrd))
        let staged : Launch := { g.l with domain := some { d with staged := d.staged ++ new } }
        ∃ r u m, Completes (.sched w) s r g w.c.y 1 ∧ others r ∧ roomApart r s ∧
          r.launch? g.l.die g.l.slot = some m ∧ { m with room := g.l.room } = staged ∧ g.l.room <+: m.room ∧
          (granules (s.roomBytes staged) ≤ (g.l.room.map (·.2)).sum → m.room = g.l.room ∧ r.contexts = s.contexts) ∧
          r.unit? g.u.uid = some u ∧ (∀ p, (u.slice p).lanes = (g.u.slice p).lanes.mapIdx fun j ln =>
            if (p, j) ∈ lanes then { ln with schedOrd := ln.schedOrd + 1 } else ln) ∧
          (∀ p, { u.slice p with lanes := [] } = { g.u.slice p with lanes := [] }) ∧ { u with slices := [] } = { g.u with slices := [] }) ∧
      ((∀ x ∈ lanes, fault x = none) → ¬ event →
        let message := fun (k : Nat) (x : Nat × Nat) => { (default : NonEventMsg) with
          id := s.nextId + k
          ctx := ((target x).map (·.ctx)).getD 0
          launch := ((target x).map (·.serial)).getD 0
          sched := some (record x 0) }
        Completes (.sched w) s { s with nextId := s.nextId + lanes.length, messages := s.messages ++ lanes.mapIdx message } g w.c.y 1) ∧
      ∀ x k, x ∈ lanes → fault x = some k → (∀ y ∈ lanes, ∀ j, fault y = some j → k ≤ j) →
        ∃ tr : Trap, exec (.sched w) s = .next (s.enterTrap g tr) ∧ some tr.cause = ((causes x)[k]?).map (·.2) ∧ tr.tpc = g.pc ∧
          tr.lanes = g.maskOf (lanes.filter fun y => (fault y).isSome)) ∧
    (∀ (i : Instr) (opc : Nat), (i = .cancel w ∧ opc = 0x181 ∨ i = .evqry w ∧ opc = 0x182) →
      OnceFits s g opc w { dst := .field, a := .field, reads := aPair, fn := fun _ _ _ _ _ => {} } →
      vRunOk regs w.dst.toNat 1 1 = true → pairSpecOk regs w.srcA.toNat = true →
      let id := fun x => (pair x).toNat % 2 ^ 48
      let dom := fun x => (pair x).toNat / 2 ^ 48
      let status := fun (d : Domain) (x : Nat × Nat) =>
        if d.number ≠ dom x then 2
        else if ∃ e ∈ d.batch, e.id.toNat = id x then 1
        else if ∃ e ∈ d.batch, e.serial.toNat = id x / 4096 then 3
        else if ∃ e ∈ d.store, e.id.toNat = id x then 0 else 2
      let answers := fun (of : Nat × Nat → Nat) (p : Nat) => (lanes.filter (·.1 == p)).map fun x =>
        (⟨some x.2, w.dst.toNat, ⟨BitVec.ofNat 32 (of x), 2⟩⟩ : RegWrite)
      (∀ d, event → g.l.domain = some d →
        let new := if i = .evqry w then [] else (lanes.filter fun x => status d x != 2).map fun x =>
          (⟨BitVec.ofNat 48 (id x), status d x, some (BitVec.ofNat 48 (lane x).evid.toNat)⟩ : CancelRec)
        ∃ r u m, Completes i s r g w.c.y 1 ∧ others r ∧
        { r with units := [], launches := [] } = { s with units := [], launches := [] } ∧ r.unit? g.u.uid = some u ∧
        Issued g w.c.sb lanes (fun _ => .ready) (answers (status d)) [] u ∧
        r.launch? g.l.die g.l.slot = some m ∧ m = { g.l with domain := some { d with cancels := d.cancels ++ new } }) ∧
      (¬ event → i = .evqry w → ∃ r u, Completes i s r g w.c.y 1 ∧ Changes s r g.u.uid u ∧
        Issued g w.c.sb lanes (fun _ => .ready) (answers fun x =>
          match (s.domainOf g.u.ctx (dom x)).bind (·.domain) with
          | some d => status d x
          | none => 2) [] u) ∧
      (¬ event → i = .cancel w → ∃ r u, Completes i s r g w.c.y 1 ∧ r.unit? g.u.uid = some u ∧ others r ∧
        { r with units := [], messages := [], nextId := 0 } = { s with units := [], messages := [], nextId := 0 } ∧
        Issued g w.c.sb lanes (fun p => .rake (lanes.filter (·.1 == p)).length) (fun _ => []) [] u ∧
        r.messages.length = s.messages.length + lanes.length ∧ r.messages.take s.messages.length = s.messages ∧
        ∀ k x, lanes[k]? = some x → ∃ m, r.messages[s.messages.length + k]? = some m ∧ m.id = s.nextId + k ∧ m.sched = none ∧
          m.target = pair x ∧ m.ctx = g.u.ctx ∧ m.unit = g.u.uid ∧ m.slice = x.1 ∧ m.lane = x.2 ∧ m.dst = w.dst.toNat)) ∧
    (OnceFits s g 0x183 w { dst := .unused, a := .field, c := .field, reads := aPair ++ arg, fn := fun _ _ _ _ _ => {} } →
      pairSpecOk regs w.srcA.toNat = true → vRunOk regs w.srcC.toNat 8 8 = true →
      let trap := fun c => exec (.task w) s = .next (s.enterTrap g (g.trapAt c (g.maskOf lanes) w.dst))
      (g.l.pool = none → trap .evBadHandler) ∧
      ∀ p, g.l.pool = some p →
        (p.cap < p.tasks.length + p.spawned.length + lanes.length → trap .evPoolFull) ∧
        (p.tasks.length + p.spawned.length + lanes.length ≤ p.cap →
          let task := fun x (n : Nat) => ({ entry := pair x, args := args x, number := n, pos := 0 } : TaskRec)
          let held := lanes.map fun x => ((lane x).taskPos, (lane x).taskOrd, task x 0)
          let queued := lanes.mapIdx fun k x => task x (p.nextNumber + k)
          let after := if g.l.det then { p with spawned := p.spawned ++ held }
            else { p with tasks := p.tasks ++ queued, nextNumber := p.nextNumber + lanes.length }
          ∃ r u m, Completes (.task w) s r g w.c.y 1 ∧ others r ∧
            { r with units := [], launches := [] } = { s with units := [], launches := [] } ∧
            r.launch? g.l.die g.l.slot = some m ∧ m = { g.l with pool := some after } ∧
            r.unit? g.u.uid = some u ∧ (∀ q, (u.slice q).lanes = (g.u.slice q).lanes.mapIdx fun j ln =>
              if (q, j) ∈ lanes then { ln with taskOrd := ln.taskOrd + 1 } else ln) ∧
            (∀ q, { u.slice q with lanes := [] } = { g.u.slice q with lanes := [] }) ∧ { u with slices := [] } = { g.u with slices := [] }))

/-- A batch is the pending events in its window in key order, up to the cap, cut into gangs of one handler and one segment index (R141,
R142). A commit revokes, cancels and inserts as R449 says, then forms a re-batch or leaves the next span to be agreed; a span agreement
opens the window at the least TIME pending, or ends the domain. In a replica run what the other chips bring counts with it. An insertion
alone counts no batch (log entry 23); which chip of a run a gang runs on is log entry 7, what the domain takes of the save area log
entry 36. -/
def Obligations.BatchesAndCommitsAdvanceTheDomain : Prop :=
  (∀ (d : Domain) (l : Launch) (chip : Nat) (e : DWord), d.store.Nodup → l.replicated = false →
     let f := d.form l chip e
     let due := d.store.filter fun x => decide (x.time ≤ e)
     let ordered := fun (l : List EventRec) => l.Pairwise fun a b => b.before a = false
     let kind := fun (x : EventRec) => (x.handler, ((d.handler x.handler.toNat).attaches x).map (·.1))
     let ofKind := fun k => f.batch.filter fun x => kind x == k
     f.batch.length = min l.bcap due.length ∧ ordered f.batch ∧ (f.batch ++ f.store).Perm d.store ∧
       (∀ x ∈ f.batch, x.time ≤ e) ∧ (∀ x ∈ f.batch, ∀ y ∈ f.store, y.time ≤ e → y.before x = false) ∧
       f.gangs.map (·.1) = List.range f.gangs.length ∧ (f.gangs.flatMap (·.2)).Perm f.batch ∧
       (∀ g ∈ f.gangs, g.2 ≠ [] ∧ g.2.length ≤ 32 ∧ ordered g.2 ∧ ∀ x ∈ g.2, ∀ y ∈ g.2, kind x = kind y) ∧
       (∀ k, ((f.gangs.filter fun g => g.2.any fun x => kind x == k).length = ((ofKind k).length + 31) / 32)) ∧
       (f.gangs.map (·.2)).Pairwise (fun a b => gangBefore b a = false) ∧ f.running = true ∧ f.committed = false ∧ f.window = d.window ∧
       ∀ m : Launch, m.replicated = true → m.bcap = l.bcap → d.form m chip e =
         { f with gangs := f.gangs.filter fun g => (m.eventHome (g.2.headD default).id).1 == chip }) ∧
  (∀ (d : Domain) (l : Launch) (p : RunShare), (l.replicated = false → d.withPeers l p = d) ∧ (l.replicated = true →
     d.withPeers l p = { d with staged := d.staged ++ p.staged.map peerEvent, arrivals := mergeArrivals d.arrivals p.arrivals
                                cancels := d.cancels ++ p.cancels.map fun x =>
                                  ⟨x.1.extractLsb' 0 48, x.2.1, x.2.2.map (·.extractLsb' 0 48)⟩ })) ∧
  ∀ (s : State) (die : Nat) (x : DomainTurn) (l : Launch) (e : Domain), s.launch? die x.slot = some l → l.domain = some e →
     l.runsDomain = true →
     let slot := x.slot
     let d := e.withPeers l x.peers
     let ordered := fun (xs : List EventRec) => xs.Pairwise fun a b => b.before a = false
     (d.running = false → d.committed = true → d.arrivals = [] → d.cancels = [] →
       let becomes := fun (m : Launch) (contexts : List Context) => ∃ t, exec (.spanAgreement die x) s = .next t ∧
         t.launch? die slot = some m ∧ { t with launches := [] } = { s with launches := [], contexts := contexts }
       (d.store = [] → becomes { l with ended := some 0, domain := some d } s.contexts) ∧
       ∀ x ∈ d.store, (∀ y ∈ d.store, x.time ≤ y.time) →
         (l.endTime < x.time → becomes { l with ended := some 1, domain := some { d with lastT := x.time, store := [] } } s.contexts) ∧
         (x.time ≤ l.endTime →
           let E := BitVec.ofNat 64 (min (x.time.toNat + l.look.toNat) (2 ^ 64 - 1))
           let opened := ({ d with lastT := x.time, window := some (x.time, E), rebatches := 0 } : Domain).form l s.chip E
           becomes { l with domain := some opened } (s.contexts.map fun c =>
             if c.num = l.ctx ∧ l.stepadv = true then { c with step := BitVec.ofNat 32 (x.time.toNat / 2 ^ l.stepsh) } else c))) ∧
     (d.running = true ∨ d.committed = false → exec (.spanAgreement die x) s = .next s) ∧
     (d.running = false ∨ s.setOpen l d.batchNo = true ∨ d.gangs ≠ [] ∨ (∃ u ∈ s.units, u.die = l.die ∧ u.lslot = l.slot ∧ u.wset = d.batchNo ∧ u.residence ≠ .exited) →
       exec (.batchCommit die x) s = .next s) ∧
     (d.running = true → s.setOpen l d.batchNo = false → d.gangs = [] → (∀ u ∈ s.units, u.die = l.die → u.lslot = l.slot → u.wset = d.batchNo → u.residence = .exited) →
       let a := s.closeSet die slot d.batchNo
       let b := if l.det then a.mergeIntervals die slot (a.eventIntervals l d.batchNo) else (a, [])
       (b.2 ≠ [] → exec (.batchCommit die x) s = .next (b.1.conflictAbort die slot)) ∧
       ∀ lb T E, b.2 = [] → b.1.launch? die slot = some lb → lb.domain = some e → lb.abort = none → d.window = some (T, E) →
         let rv := d.batch.filter fun e => d.cancels.any fun x => x.status == 1 && x.target == e.id
         let xs := d.cancels.filter fun x => x.status == 1 || !rv.any fun r => x.issuer == some r.id
         let named := fun st (e : EventRec) => xs.any fun x => x.status == st && x.target == e.id
         let left := d.store.filter fun e => !named 0 e
         let S := d.staged.filter fun e => !(rv.any fun r => r.serial.toNat == e.id.toNat / 4096) && !named 3 e
         let N := d.arrivals.filter fun e => decide (E < e.time)
         let ids := N.mapIdx fun i e => { e with id := BitVec.ofNat 48 ((2 ^ 35 + d.base + i / 4096) * 4096 + i % 4096) }
         let n := S.length + N.length
         let ends := fun (status : AbortStatus) => ∃ t m e, exec (.batchCommit die x) s = .next t ∧ t.launch? die slot = some m ∧
           m.abort = some (status, 0, 0, 0) ∧ m.domain = some e ∧ e.store = [] ∧ e.batch = [] ∧ e.running = false ∧ t.mem = b.1.mem ∧
           (status.cls = 4 → e.counter = d.counter ∧ e.batches = d.batches)
         (2 ^ 35 - 1 < d.counter + n → ends ⟨4, 2, s.chip⟩) ∧
         (d.counter + n ≤ 2 ^ 35 - 1 → 2 ^ 32 < left.length + n → ends ⟨4, 3, s.chip⟩) ∧
         (d.counter + n ≤ 2 ^ 35 - 1 → left.length + n ≤ 2 ^ 32 → ∃ ss ns, ss.Perm S ∧ ordered ss ∧ ns.Perm ids ∧ ordered ns ∧
           let after : Domain := { d with
             store := left ++ (ss ++ ns).mapIdx fun i e => { e with serial := BitVec.ofNat 36 (d.counter + i) }
             counter := d.counter + n
             base := d.base + (N.length + 4095) / 4096
             batch := []
             running := false
             staged := []
             cancels := []
             arrivals := d.next
             next := []
             batches := d.batches + 1
             removed := d.removed + (d.store.length - left.length)
             dropped := d.dropped + (d.staged.length - S.length)
             late := d.late + (d.arrivals.length - N.length) }
           let grown := ((b.1.modifyLaunch die slot fun l => { l with domain := some after }).growRoom die slot).1
           let becomes := fun e => ∃ t lg, exec (.batchCommit die x) s = .next t ∧ grown.launch? die slot = some lg ∧
             t.launch? die slot = some { lg with domain := some e } ∧ { lg with room := lb.room } = { lb with domain := some after } ∧
             { t with launches := [] } = { grown with launches := [] }
           ((∀ e ∈ after.store, E < e.time) → becomes { after with committed := true }) ∧
           ((∃ e ∈ after.store, e.time ≤ E) → d.rebatches < l.rblim → becomes { after.form l s.chip E with rebatches := d.rebatches + 1 }) ∧
           ((∃ e ∈ after.store, e.time ≤ E) → l.rblim ≤ d.rebatches → ends ⟨2, 0x63, s.chip⟩)))

/-- What lanes that run as no event send to the Rake arrives: an event for the coming commit, for the one after it where its gangs have all
retired, or late, or dropped with its launch gone; a cancel, whose lane is answered with the status of the moment and which acts at the
next commit. In a run of several chips the commit's turn is that moment (log entry 7). -/
def Obligations.ArrivalsJoinTheNextCommit : Prop :=
  ∀ (s : State) (m : NonEventMsg), s.messages.find? (·.id == m.id) = some m →
    let rest := s.messages.filter (·.id != m.id)
    let due := fun (l : Launch) (d : Domain) => d.running = true ∧ d.gangs = [] ∧ l.replicated = false ∧
      ∀ u ∈ s.units, u.die = l.die → u.lslot = l.slot → u.wset = d.batchNo → u.residence = .exited
    (∀ r, m.sched = some r → (∀ l ∈ s.launches, l.serial = m.launch → l.originates = false) →
      exec (.nonEventSchedArrival m.id) s = .next { s with messages := rest }) ∧
    (∀ (r : EventRec) (l : Launch) (d : Domain), m.sched = some r →
      s.launches.find? (fun l => l.serial == m.launch && l.originates) = some l → s.launch? l.die l.slot = some l → l.domain = some d →
      let becomes := fun d' => ∃ t, exec (.nonEventSchedArrival m.id) s = .next t ∧
        t.launch? l.die l.slot = some { l with domain := some d' } ∧
        (∀ i j, (i, j) ≠ (l.die, l.slot) → t.launch? i j = s.launch? i j) ∧
        { t with launches := [], messages := rest } = { s with launches := [], messages := rest } ∧ t.messages = rest
      (l.runsDomain = true → ¬ due l d → becomes { d with arrivals := d.arrivals ++ [r] }) ∧
      (l.runsDomain = true → due l d → becomes { d with next := d.next ++ [r] }) ∧
      (l.runsDomain = false → becomes { d with late := d.late + 1 })) ∧
    (m.sched = none →
      let num := m.target.toNat / 2 ^ 48
      let id := m.target.extractLsb' 0 48
      let answered := fun st (t : State) => t.messages = rest ∧
        (∀ n, n ≠ m.unit → t.unit? n = s.unit? n) ∧ ∀ u, s.unit? m.unit = some u → ∃ v, t.unit? m.unit = some v ∧
          { v with slices := [] } = { u with slices := [] } ∧ (∀ p, p ≠ m.slice → v.slice p = u.slice p) ∧
          { v.slice m.slice with pend := [] } = { u.slice m.slice with pend := [] } ∧
          (m.slice < u.slices.length → (v.slice m.slice).pend = (u.slice m.slice).pend.map fun r =>
            match r.kind with
            | .rake n => if r.id = m.result then { r with
                writes := r.writes ++ [⟨some m.lane, m.dst, ⟨BitVec.ofNat 32 st, 2⟩⟩]
                kind := if n ≤ 1 then .ready else .rake (n - 1) } else r
            | _ => r)
      (s.domainOf m.ctx num = none → ∃ t, exec (.nonEventCancelArrival m.id) s = .next t ∧ answered 2 t ∧
        { t with units := [], messages := [] } = { s with units := [], messages := [] }) ∧
      ∀ (l : Launch) (d : Domain), s.domainOf m.ctx num = some l → l.domain = some d → d.number = num →
        s.launch? l.die l.slot = some l →
        let sealed := ∃ e ∈ d.batch, e.id = id
        let creator := ∃ e ∈ d.batch, e.serial.toNat = id.toNat / 4096
        let pending := ∃ e ∈ d.store, e.id = id
        let st := if sealed then 1 else if creator then 3 else if pending then 0 else 2
        let d' := { d with cancels := d.cancels ++ if st = 2 ∨ l.originates = false then [] else [⟨id, st, none⟩] }
        (due l d → exec (.nonEventCancelArrival m.id) s = .next s) ∧ (¬ due l d →
        ∃ t, exec (.nonEventCancelArrival m.id) s = .next t ∧ answered st t ∧
          t.launch? l.die l.slot = some { l with domain := some d' } ∧
          (∀ i j, (i, j) ≠ (l.die, l.slot) → t.launch? i j = s.launch? i j) ∧
          { t with units := [], messages := [], launches := [] } = { s with units := [], messages := [], launches := [] }))

/-! ### Placing work -/

/-- What a unit starts with: its lanes, its entry, KARG in s0 and s1, everything else clear; an event's lanes hold their event and its
arguments, a task's lanes their arguments. At its launch's turn lane tasks are gathered from the oldest, 32 of one entry to a gang; at the
end of a deterministic round, its windows closed, the tasks it spawned enter in the order of spawner and ordinal. A unit that has waited
2^24 cycles for a segment attached on another core goes on without it. -/
def Obligations.UnitsStartAndTasksAreGathered : Prop :=
  (∀ (l : Launch) (uid : Nat),
     let starts := fun (u : WorkUnit) (n : Nat) (entry : DWord) =>
       u.uid = uid ∧ u.die = l.die ∧ u.lslot = l.slot ∧ u.ctx = l.ctx ∧ u.residence = .waiting ∧ u.nlanes = n ∧ u.entry = entry ∧
         u.slices.length = 8 * ((n + 31) / 32) ∧ u.scratch = [] ∧ u.tiles = [] ∧ u.segs = [] ∧ u.buffer = [] ∧ u.matq = [] ∧
         ∀ p < u.slices.length, ∃ sl, sl = u.slice p ∧ sl.home = p / 8 ∧ sl.idx = p % 8 ∧ sl.pc = entry ∧ sl.clause = none ∧
           sl.stack = [] ∧ sl.pend = [] ∧ sl.inTrap = false ∧ sl.wait = .none ∧ sl.regs = 8 * l.budget ∧ sl.lanes.length = 4 ∧
           (∀ j < 4, sl.active.getLsbD j = decide (4 * p + j < n) ∧ sl.exited.getLsbD j = !decide (4 * p + j < n)) ∧
           (∀ k, sl.getS k = if k = 0 then l.karg.setWidth 32 else if k = 1 then (l.karg >>> 32).setWidth 32 else 0)
     let holds := fun (u : WorkUnit) (i : Nat) (args : List Word) => ∀ r,
       (u.lane (i / 4) (i % 4)).getV r = if r < args.length then ⟨args.getD r 0, 0⟩ else ⟨0, 0⟩
     (∀ w, let u := l.gridUnit uid w
       starts u l.lanes l.entry ∧ u.unitId = w ∧ u.wgid = (w % l.gx, w / l.gx % l.gy, w / (l.gx * l.gy)) ∧ ∀ i < 4 * u.slices.length, holds u i []) ∧
     (∀ (d : Domain) (k : Nat) (e : EventRec) (es : List EventRec), (∀ x ∈ e :: es, x.args.length ≤ 8) →
       let u := l.eventUnit d uid (k, e :: es)
       starts u (es.length + 1) (d.handlers.getD e.handler.toNat ⟨0, 0⟩).entry ∧ u.unitId = k ∧
         ∀ i x, (e :: es)[i]? = some x → ∃ ln, ln = u.lane (i / 4) (i % 4) ∧ ln.evtime = x.time ∧ holds u i x.args ∧
           ln.evtie.toNat = x.tie.toNat + x.handler.toNat * 2 ^ 20 ∧ ln.evid.toNat = (x.id.toNat + d.number * 2 ^ 48) % 2 ^ 64 ∧
           ln.evser.toNat = x.serial.toNat + x.flags.toNat * 2 ^ 48 ∧ ln.schedOrd = 0) ∧
     ∀ (p : Pool) (t : TaskRec) (ts : List TaskRec), (∀ x ∈ t :: ts, x.args.length ≤ 8) →
       let u := l.taskUnit p uid (t :: ts)
       starts u (ts.length + 1) t.entry ∧ ∀ i x, (t :: ts)[i]? = some x → holds u i x.args ∧
         (u.lane (i / 4) (i % 4)).taskNo = x.number ∧ (u.lane (i / 4) (i % 4)).taskPos = x.pos ∧ (u.lane (i / 4) (i % 4)).taskOrd = 0) ∧
  (∀ (s : State) (die slot core : Nat) (l : Launch) (p : Pool), s.launch? die slot = some l → l.kind = 3 → l.pool = some p →
     let cores := if l.coresField = 0 then s.n else l.coresField
     let there := if l.det = true then p.roundGangs % cores = core else core < cores
     (l.mayStart = false ∨ s.launchTurn die slot = false ∨ p.tasks = [] ∨ s.n ≤ core ∨ ¬ there → exec (.taskGather die slot core) s = .next s) ∧
     ∀ t rest, l.mayStart = true → s.launchTurn die slot = true → p.tasks = t :: rest → core < s.n → there → p.tasks.Nodup →
       let ts := t :: ((rest.take 1023).filter (·.entry == t.entry)).take 31
       let u := l.taskUnit p s.nextId ts
       let behind := s.launchWaits core l || s.behindAssigned core u
       (s.bankFor core u = none ∨ behind = true → exec (.taskGather die slot core) s = .next s) ∧
       ∀ b, s.bankFor core u = some b → behind = false → s.unit? s.nextId = none → ∃ (r : State) (v : WorkUnit) (m : Launch) (q : Pool),
         exec (.taskGather die slot core) s = .next ((r.acquire s.nextId).modifyDie die fun d => { d with turn := (slot + 1) % 32 }) ∧
         (u.attaches = [] → r.acquire s.nextId = r) ∧
         r.unit? s.nextId = some v ∧ v.residence = .resident ∧ v.core = core ∧ v.bank = b ∧ v.slices = u.slices ∧ v.startNo = s.nextId + 1 ∧
         r.launch? die slot = some m ∧ m = { l with pool := some q } ∧ (ts ++ q.tasks).Perm p.tasks ∧ q.tasks.Sublist p.tasks ∧
         q.gangs = p.gangs + 1 ∧ q.roundGangs = p.roundGangs + 1 ∧ q.spawned = p.spawned ∧ q.nextNumber = p.nextNumber ∧
         (∀ n, n ≠ s.nextId → r.unit? n = s.unit? n) ∧ r.mem = s.mem) ∧
   (∀ (s : State) (die slot : Nat) (l : Launch) (p : Pool), s.launch? die slot = some l → l.pool = some p → l.abort = none →
     let live := ∃ u ∈ s.units, u.die = l.die ∧ u.lslot = l.slot ∧ u.residence ≠ .exited
     (l.det = false ∨ s.setOpen l p.round = true ∨ p.tasks ≠ [] ∨ live → exec (.taskRoundEnd die slot) s = .next s) ∧
     (l.det = true → s.setOpen l p.round = false → p.tasks = [] → ¬ live → (p.roundGangs ≠ 0 ∨ p.spawned ≠ []) →
       let a := s.closeSet die slot p.round
       let b := a.mergeIntervals die slot (a.taskIntervals l p.round)
       b.2 = [] → ∀ lb, b.1.launch? die slot = some lb → lb.pool = some p →
         ∃ (t : State) (q : Pool) (ts : List (Nat × Nat × TaskRec)), exec (.taskRoundEnd die slot) s = .next t ∧ t.launch? die slot = some { lb with pool := some q } ∧
           { t with launches := [] } = { b.1 with launches := [] } ∧
           q.round = p.round + 1 ∧ q.roundGangs = 0 ∧ q.spawned = [] ∧ q.gangs = p.gangs ∧ q.nextNumber = p.nextNumber + p.spawned.length ∧
           ts.Perm p.spawned ∧ ts.Pairwise (fun x y => x.1 < y.1 ∨ x.1 = y.1 ∧ x.2.1 ≤ y.2.1) ∧
           q.tasks = ts.mapIdx fun i x => { x.2.2 with number := p.nextNumber + i, pos := i })) ∧
   ∀ (s : State) (u : WorkUnit) (l : Launch), s.unit? u.uid = some u → s.launch? u.die u.lslot = some l →
     let expired := fun (name : DWord) =>
       (u.attachSince = none ∨ (∃ k, u.attachSince = some k ∧ s.clock < k + 2 ^ 24) → exec (.attachWaitTimeout u.uid) s = .next s) ∧
       ∀ k, u.attachSince = some k → k + 2 ^ 24 ≤ s.clock → ∃ t, exec (.attachWaitTimeout u.uid) s = .next t ∧
         Changes s t u.uid { u with attaches := [], attachSince := none, firstFault := some (.segAttachMiss, name, 0) }
     (∀ a rest x, u.residence = .resident → u.attaches = a :: rest → a.mode ≠ .fault → s.segment? u.ctx a.name = some x →
       x.core.isSome = true → x.core ≠ some u.core → 0 < x.att → x.reloading = false → expired a.name) ∧
     ∀ name, u.residence = .waiting → l.steer u = some (name, false) → s.steerBlocked l u u.core = true → expired name

/-- At its launch's turn a launch's next workgroup, event gang or frontier point goes to the first bank it fits, behind those that wait; one
bound to a core that has no room for it joins that core's waiting order, and starts from there in its turn, or moves with its segment; the
frontier walker offers the least eligible point, once a cycle's completions are all applied. The lowest free gang and barrier slots are the
model's choice, and which turn comes next is the schedule's (log entry 2). -/
def Obligations.UnitsArePlacedWhereTheyFit : Prop :=
  ∀ (s : State) (die slot core : Nat) (l : Launch), s.launch? die slot = some l → core < s.n → s.unit? s.nextId = none →
    s.nextId ∉ (s.core core).waiting →
    let fits := fun (u : WorkUnit) b =>
      let us := s.units.filter fun v => v.residence == .resident && v.core == core && v.bank == b
      let sum := fun (f : WorkUnit → Nat) => (us.map f).sum + f u
      let gangs := fun (v : WorkUnit) => (v.nlanes + 31) / 32
      let left := s.units.filter fun v => v.residence == .exited && v.core == core && v.bank == b && !(s.unitCommands v).isEmpty
      sum gangs ≤ 32 ∧ sum (fun v => 32 * gangs v * v.regs) ≤ 131072 ∧ sum (·.ntags) + (left.map (·.ntags)).sum ≤ 64 ∧ sum (·.ntiles) ≤ 16 ∧
        sum (fun v => 1 + v.cohs) ≤ 32 ∧
        sum (fun v => v.scratchLen + if v.det then 65536 else 0) +
          ((s.segments.filter (·.core == some core)).map fun x => 4096 * x.size).sum ≤ 2 ^ 20
    let goesTo := fun u b => (fits u (s.core core).active ∧ b = (s.core core).active) ∨
      (¬ fits u (s.core core).active ∧ fits u (1 - (s.core core).active) ∧ b = 1 - (s.core core).active)
    let full := fun u => ¬ fits u (s.core core).active ∧ ¬ fits u (1 - (s.core core).active)
    let lowest := fun (taken : List Nat) k => ((List.range 32).filter fun n => !taken.contains n).take k
    let seats := fun i (u : WorkUnit) (m : Launch) b start (after : State → State) =>
      ∃ r : State, exec i s = .next (after (r.acquire u.uid)) ∧ (u.attaches = [] → r.acquire u.uid = r) ∧
      let us := s.units.filter fun v => v.residence == .resident && v.core == core && v.bank == b
      let slots := lowest (us.flatMap (·.slots)) ((u.nlanes + 31) / 32)
      let bslots := lowest (us.flatMap (·.bslots)) (1 + u.cohs)
      r.unit? u.uid = some { u with
          residence := .resident
          core := core
          bank := b
          slots := slots
          bslots := bslots
          startNo := start
          attachSince := none } ∧ r.nextId = start + 1 ∧
        (∀ n, n ≠ u.uid → r.unit? n = s.unit? n) ∧ r.launch? die slot = some m ∧
        (r.bank core b).slot (bslots.headD 0) = ⟨slots.headD 0, slotMask slots, 0, false, true⟩ ∧
        (∀ n, n ≠ bslots.headD 0 → (r.bank core b).slot n = (s.bank core b).slot n) ∧
        (r.core core).waiting = (s.core core).waiting.filter (· != u.uid) ∧ (∀ n, n ≠ core → r.core n = s.core n) ∧
        r.mem = s.mem ∧ r.segments = s.segments
    let queues := fun i (u : WorkUnit) (m : Launch) c => ∃ (t : State) (xs ys : List Nat), exec i s = .next t ∧ t.unit? u.uid = some { u with core := c } ∧
      (∀ n, n ≠ u.uid → t.unit? n = s.unit? n) ∧ t.launch? die slot = some m ∧ (s.core c).waiting = xs ++ ys ∧
      t.core c = { s.core c with waiting := xs ++ u.uid :: ys } ∧
      (∀ n, n ≠ c → n ≠ core → t.core n = s.core n) ∧
      (c ≠ core → t.core core = { s.core core with waiting := (s.core core).waiting.filter (· != u.uid) }) ∧ t.mem = s.mem ∧ t.dies = s.dies ∧
      let before := fun (v : WorkUnit) => v.residence = .spilled ∨ u.die < v.die ∨ u.die = v.die ∧ (u.lslot < v.lslot ∨ u.lslot = v.lslot ∧ u.unitId < v.unitId)
      (∀ n ∈ xs, ∀ v, s.unit? n = some v → ¬ before v) ∧ ∀ n, ys.head? = some n → ∃ v, s.unit? n = some v ∧ before v
    let offers := fun i (u : WorkUnit) (m : Launch) =>
      let held := s.launchWaits core l || s.steerBlocked l u core || s.behindAssigned core u
      let served := fun (t : State) => t.modifyDie die fun d => { d with turn := (slot + 1) % 32 }
      let onlyOn := fun c =>
        (c ≠ core → exec i s = .next s) ∧ (c = core → held = false → ∀ b, goesTo u b → seats i u m b (s.nextId + 1) served) ∧
          (c = core → held = true ∨ full u → queues i u m core)
      let anyOf := fun cores => (∀ b, core < cores → held = false → goesTo u b → seats i u m b (s.nextId + 1) served) ∧
        (cores ≤ core ∨ held = true ∨ full u → exec i s = .next s)
      let cores := if l.kind < 2 then s.n else if l.coresField = 0 then s.n else l.coresField
      (l.steer u = none ∨ l.det = true → (l.kind = 2 → onlyOn (u.unitId % cores)) ∧ (l.kind ≠ 2 → l.det = true → onlyOn (u.unitId % s.n)) ∧
        (l.kind ≠ 2 → l.det = false → anyOf cores)) ∧
      ∀ name fault, l.steer u = some (name, fault) → l.det = false → (s.segment? l.ctx name = none → anyOf cores) ∧
        ∀ x, s.segment? l.ctx name = some x → (∀ c, x.core = some c → onlyOn c) ∧ (x.core = none → (fault = true → anyOf cores) ∧
          (fault = false → s.reloadCore l u x ≠ some core → exec i s = .next s) ∧
          (fault = false → s.reloadCore l u x = some core →
            let noted := fun (t : State) => t.modifyLaunch die slot fun l => { l with lastReload := some core }
            (held = false → ∀ b, goesTo u b → seats i u m b (s.nextId + 1) (fun t => served (noted t))) ∧
            (held = true ∨ full u → queues i u { m with lastReload := some core } core)))
    let mine := s.firstWaiting core die slot
    let clear := fun u => (s.steerBlocked l u core || s.behindAssigned core u || s.behindUnplaced core u) = false
    let stays := ∀ u, mine = some u → u.core = core ∧ (l.maySeat = true → s.homeNow l u core = core ∧ (¬ clear u ∨ full u))
    let turn := s.launchTurn die slot
    (∀ u, mine = some u → l.maySeat = true →
      (s.homeNow l u core = core → clear u → ∀ b, goesTo u b → seats (.unitPlace die slot core) u l b s.nextId id) ∧
      (s.homeNow l u core ≠ core → queues (.unitPlace die slot core) u l (s.homeNow l u core))) ∧
    (stays → l.mayStart = false ∨ turn = false ∨ l.kind % 2 = 1 → exec (.unitPlace die slot core) s = .next s) ∧
    (stays → l.mayStart = true → turn = true → l.kind = 0 → (l.unitsTotal ≤ l.nextUnit → exec (.unitPlace die slot core) s = .next s) ∧
      (l.nextUnit < l.unitsTotal →
        offers (.unitPlace die slot core) (l.gridUnit s.nextId l.nextUnit) { l with nextUnit := l.nextUnit + 1 })) ∧
    (∀ d, stays → l.mayStart = true → turn = true → l.kind = 2 → l.domain = some d →
      (d.gangs = [] → exec (.unitPlace die slot core) s = .next s) ∧ ∀ g rest, d.gangs = g :: rest →
        offers (.unitPlace die slot core) (l.eventUnit d s.nextId g) { l with domain := some { d with gangs := rest } }) ∧
    ∀ f : Frontier, l.frontier = some f → l.kind = 1 →
      let P := fun n => (f.lines.getD n (0, 0)).1
      let W := fun n => (f.lines.getD n (0, 0)).2
      let done := fun n k => k < P n ∨ k - P n < 64 ∧ (W n).getLsbD (k - P n) = true
      let eligible := fun id =>
        let n := id / (l.xk + 1)
        let i := n / (l.xj + 1)
        let j := n % (l.xj + 1)
        let k := id % (l.xk + 1)
        n < f.lines.length ∧ ¬ done n k ∧ id ∉ f.dispatched ∧ k < P n + 64 ∧ ∀ v < l.nvec, ∃ a b c, (l.vec v) = (a, b, c) ∧
          (i < a ∨ j < b ∨ k < c ∨ (i - a) * (l.xj + 1) + (j - b) < f.lines.length ∧ done ((i - a) * (l.xj + 1) + (j - b)) (k - c))
      (l.mayStart = false ∨ turn = false ∨ f.stopped = true ∨ f.restoring ≠ [] ∨ f.doneAt = some s.clock ∨ (∀ id, ¬ eligible id) →
        exec (.frontierDispatch die slot core) s = .next s) ∧
      ∀ id, l.mayStart = true → turn = true → f.stopped = false → f.restoring = [] → f.doneAt ≠ some s.clock → eligible id →
        (∀ x < id, ¬ eligible x) →
        offers (.frontierDispatch die slot core) (l.pointUnit s.nextId id) { l with frontier := some { f with dispatched := f.dispatched ++ [id] } }

/-! ### Pre-emption -/

/-- A quantum's end swaps a core's banks where a unit waits or sharing asks for it, and gives every context present its share; a spill
moves a cohort group of the shadow bank into the save area once its work under way is done; a restore reads its image and puts it back with
its slots renumbered, in its turn in the core's order, or as the least suspended workgroup of a seeded launch. What the spec leaves open of
swaps, spills and images is log entry 25. -/
def Obligations.QuantaSwapSpillAndRestore : Prop :=
  (∀ (s : State) (core : Nat),
    let c := s.core core
    let held := s.units.any fun u => u.residence == .resident && u.core == core && decide (u.bank < 2)
    let swaps := held && (s.coreWanted core || s.sharingSwap core)
    let active := if swaps then 1 - c.active else c.active
    let outgoing := if !swaps then c.outgoing else if s.coreWanted core then
      (s.units.filter fun u => u.residence == .resident && u.core == core && u.bank == c.active).map (·.uid) else []
    let present := (if swaps then s.swapBanks core else s).presentOn core
    let weight := fun n => ((s.context n).map (·.weight)).getD 0
    (s.n ≤ core ∨ s.clock < c.quantumStart + 65536 → exec (.quantumEnd core) s = .next s) ∧
    (core < s.n → c.quantumStart + 65536 ≤ s.clock → present.Nodup → ∃ t, exec (.quantumEnd core) s = .next t ∧
      { t.core core with deficits := [] } = { c with
        active := active
        outgoing := outgoing
        quantumStart := s.clock
        swapAt := if swaps then some s.clock else c.swapAt
        deficits := [] } ∧
      (s.coreWanted core = true → t.units = s.units) ∧
      (s.coreWanted core = false → t.units = s.units.map fun u =>
        if u.core = core ∧ u.residence = .resident then { u with spillSince := none } else u) ∧
      (∀ n, (t.core core).deficit n = if n ∈ present then
        max (-262144) (min 524288 (c.deficit n + (262144 * weight n / (present.map weight).sum : Nat))) else 0) ∧
      (∀ n, n ≠ core → t.core n = s.core n) ∧ { t with cores := [], units := [] } = { s with cores := [], units := [] })) ∧
  (∀ (s : State) (u : WorkUnit) (l : Launch), s.unit? u.uid = some u → s.launch? u.die u.lslot = some l → u.residence = .resident →
    (s.units.map (·.uid)).Nodup →
    let suspending := ∃ x, l.suspend = some x ∧ x.spill = true
    let due := (s.core u.core).active ≠ u.bank ∧ (suspending ∨ u.uid ∈ (s.core u.core).outgoing)
    let us := s.cohortGroup u
    (l.abort ≠ none ∨ ¬ due ∨ (∃ x ∈ us, s.spillReady x = false) → exec (.spill u.uid) s = .next s) ∧
    (l.abort = none → due → (∀ x ∈ us, s.spillReady x = true) →
      (s.writeImages us = none → ∃ t : State, exec (.spill u.uid) s = .next t ∧ { t with units := [] } = { s with units := [] } ∧
        ∀ n v, s.unit? n = some v → t.unit? n = some
          (if us.any fun x => x.uid == n then { v with spillSince := some (v.spillSince.getD s.clock) } else v)) ∧
      ∀ s', s.writeImages us = some s' → ∃ r : State, exec (.spill u.uid) s = .next r.acquireAll ∧ r.mem = s'.mem ∧
        r.contexts = s'.contexts ∧
        (∀ x, x ∈ us → s.unit? x.uid = some x → ∃ off n sn, r.unit? x.uid = some { x with
          residence := .spilled
          image := some (off, n)
          snapshot := sn
          parked := s.unbegun x
          savedBars := x.bslots.map fun b => (b, (s.bank x.core x.bank).slot b)
          group := us.map (·.uid)
          spillSince := none }) ∧
        (∀ n, (∀ x ∈ us, x.uid ≠ n) →
          (r.unit? n).map (fun v => { v with snapshot := [] }) = (s.unit? n).map fun v => { v with snapshot := [] }) ∧
        (∀ n, (∃ x ∈ us, n ∈ x.bslots) → ((r.bank u.core u.bank).slot n).live = false) ∧
        (∀ q, (r.bank u.core u.bank).queues.getD q [] = ((s.bank u.core u.bank).queues.getD q []).filter fun c =>
          c.begun || !us.any fun x => x.uid == c.unit) ∧
        (r.core u.core).outgoing = (s.core u.core).outgoing.filter (fun n => !us.any fun x => x.uid == n) ∧
        (¬ suspending → (r.core u.core).waiting = (s.core u.core).waiting ++ us.map (·.uid) ∧ r.launches = s.launches) ∧
        (suspending → (r.core u.core).waiting = (s.core u.core).waiting ∧ ∃ x y m, l.suspend = some x ∧
          r.launch? u.die u.lslot = some m ∧ m = { l with suspend := some y } ∧ y.spill = x.spill ∧ y.save = x.save ∧
          y.images.map (·.1) = x.images.map (·.1) ++ us.map (·.unitId)))) ∧
  (∀ (s : State) (die slot : Nat), (s.launch? die slot = none → exec (.spillTimeout die slot) s = .next s) ∧
    ∀ l, s.launch? die slot = some l →
    let late := ∃ u ∈ s.units, u.die = die ∧ u.lslot = slot ∧ u.residence = .resident ∧
      ((∃ x, l.suspend = some x ∧ x.spill = true) ∨ s.coreWanted u.core = true) ∧ ∃ k, u.spillSince = some k ∧ k + 2 ^ 24 ≤ s.clock
    (¬ late → exec (.spillTimeout die slot) s = .next s) ∧
    (late → l.abort = none → ∃ t m, exec (.spillTimeout die slot) s = .next t ∧
      t.launch? die slot = some m ∧ m.abort = some (⟨4, 1, s.chip⟩, 0, 0, 0) ∧ t.mem = s.mem)) ∧
  ∀ (s : State) (u : WorkUnit) (l : Launch), s.unit? u.uid = some u → s.launch? u.die u.lslot = some l → (s.units.map (·.uid)).Nodup →
    (u.residence ≠ .spilled → exec (.restore u.uid) s = .next s) ∧
    (u.residence = .spilled → l.abort = none → (∀ x, l.suspend = some x → x.spill = false) → (∀ c, l.cinch = some c → c.released = true) →
      let us := s.spilledGroup u
      let goesTo := fun core => match l.frontier.map (·.restoring) with
        | some (id :: ids) => if u.unitId ∈ id :: ids then (∃ x ∈ us, x.unitId = id) ∧ s.seedCore l us = some core
          else core = u.core ∧ s.mayReturn core u = true ∧
            ∃ x ∈ us, (s.core core).waiting.find? (fun n => (s.unit? n).any (·.residence == .spilled)) = some x.uid
        | _ => core = u.core ∧ s.mayReturn core u = true ∧
            ∃ x ∈ us, (s.core core).waiting.find? (fun n => (s.unit? n).any (·.residence == .spilled)) = some x.uid
      ((∀ core, ¬ goesTo core) → exec (.restore u.uid) s = .next s) ∧
      ∀ core, goesTo core → (s.bankForGroup core us = none → exec (.restore u.uid) s = .next s) ∧
      ∀ bank, s.bankForGroup core us = some bank → (∀ x ∈ us, (s.context x.ctx).isSome = true) → (us.map (·.uid)).Nodup →
        (us.flatMap (·.bslots)).Nodup → (∀ x ∈ us, x.savedBars.map (·.1) = x.bslots) →
        let taken := (s.units.filter fun v => v.residence == .resident && v.core == core && v.bank == bank).flatMap (·.slots)
        let m := slotMap us (((List.range 32).filter fun n => !taken.contains n).take 32)
        let queued := fun q => ((s.bank core bank).queues.getD q []).length + (us.map fun x => (x.parked.filter (·.1 == q)).length +
          (((s.bank x.core x.bank).queues.getD q []).filter (·.unit == x.uid)).length).sum
        ∃ r : State, exec (.restore u.uid) s = .next (us.foldl (fun t x => t.acquire x.uid) r) ∧
          ((∀ x ∈ us, x.attaches = []) → us.foldl (fun t x => t.acquire x.uid) r = r) ∧
          r.mem = s.mem ∧ (∀ x ∈ us, x.uid ∉ (r.core core).waiting) ∧
          (∀ n, (∀ x ∈ us, x.uid ≠ n) → r.unit? n = s.unit? n) ∧
          ∀ x ∈ us, ∃ y v, y = s.readBack x ∧ r.unit? x.uid = some v ∧
            { v with slices := [], parked := [] } = { y with
              slices := []
              residence := .resident
              core := core
              bank := bank
              slots := x.slots.map (newSlot m)
              image := none
              parked := []
              savedBars := []
              group := [] } ∧
            ((∀ q, queued q ≤ 64) → v.parked = []) ∧ (∀ c, c ∈ v.parked → c ∈ x.parked) ∧
            v.slices.length = x.slices.length ∧
            (∀ p, { v.slice p with pend := [], errors := [] } = { y.slice p with pend := [], errors := [] }) ∧
            (∀ p, (v.slice p).pend.map (·.id) = (x.slice p).pend.map (·.id)) ∧
            ∀ e ∈ y.savedBars, (r.bank core bank).slot e.1 = { e.2 with
              owner := newSlot m e.2.owner
              members := newMask m e.2.members
              arrived := newMask m e.2.arrived })

/-! ### Issue -/

/-- A result whose data has returned is written to its registers, each lane independently, and with its last lane leaves its scoreboard; a
ring's items are written as they arrive; a park ends when no result is outstanding. A gang at a clause header, its pipeline free: a header
that is none, or whose budget an entry may not have, traps; one whose scoreboards are not met, or that throttling, a yield or sharing holds,
waits; else the clause starts with its operand file clear. When a result arrives is the schedule's (log entry 2). -/
def Obligations.ResultsArriveAndClausesStart : Prop :=
  ((∀ (s : State) (u : WorkUnit) (p : Nat) (r : LongResult) (lane : Option Nat), s.unit? u.uid = some u → p < u.slices.length →
     r ∈ (u.slice p).pend → (∀ q, ∀ x ∈ (u.slice q).pend, x.id = r.id → q = p ∧ x = r) →
     let i : Instr := .longResultWritten u.uid ⟨r.id, lane⟩
     let waits := (∃ q ∈ s.requests, q.id ∈ r.requests) ∨ ∃ k ∈ s.links, ∃ q ∈ k.outstanding, q.id ∈ r.requests
     let inLane := fun (of : Option Nat) => lane = none ∨ of = lane
     let written := fun (ws : List RegWrite) (left : Option LongResult) (v : WorkUnit) =>
       { v with slices := [], badRegs := [] } = { u with slices := [], badRegs := [] } ∧ (∀ q, q ≠ p → v.slice q = u.slice q) ∧
       { v.slice p with lanes := [], s := [], pend := [], sb := [] } = { u.slice p with lanes := [], s := [], pend := [], sb := [] } ∧
       (∀ x, x ∈ v.badRegs → x ∈ u.badRegs) ∧
       (v.slice p).lanes = (u.slice p).lanes.mapIdx (fun j ln =>
         (ws.filter fun w => w.lane == some j).foldl (fun ln w => ln.setV w.reg w.val) ln) ∧
       (∀ n, (v.slice p).getS n = match ws.reverse.find? fun w => w.lane == none && w.reg == n with
         | some w => w.val.val
         | none => (u.slice p).getS n) ∧
       match left with
       | none => (v.slice p).pend = (u.slice p).pend.filter (·.id != r.id) ∧ (v.slice p).sb = listModify (u.slice p).sb r.sb.toNat (· - 1)
       | some x' => (v.slice p).sb = (u.slice p).sb ∧ (v.slice p).pend = (u.slice p).pend.map fun x => if x.id = r.id then x' else x
     (u.residence ≠ .resident ∨ waits ∨ r.kind = .tile ∨ (∃ n, r.kind = .segment n) ∨ (∃ n, r.kind = .rake n) → exec i s = .next s) ∧
     (u.residence = .resident → ¬ waits →
       (r.kind = .ready ∨ (∃ l, r.kind = .load l) → ∃ t v now rest, exec i s = .next t ∧ Changes s t u.uid v ∧
         (now ++ rest).Perm r.writes ∧ now.Sublist r.writes ∧ rest.Sublist r.writes ∧ (∀ w ∈ now, inLane w.lane) ∧ (∀ w ∈ rest, ¬ inLane w.lane) ∧
         written now (if rest = [] then none else some { r with writes := rest }) v) ∧
       ∀ reads more, r.kind = .ring reads more →
         let arrived := fun (x : RingRead) => ∃ ps, s.pieces u.ctx .read x.slot.toNat 64 = .ok ps ∧ leNat ((s.readPieces ps).take 8) = x.idx + 1
         ((∀ x ∈ reads, ¬ (inLane (some x.lane) ∧ arrived x)) → reads ≠ [] ∨ more = true → ∃ t v, exec i s = .next t ∧ Changes s t u.uid v ∧
           written [] (some r) v) ∧
         ∀ x ps, reads = [x] → inLane (some x.lane) → s.pieces u.ctx .read x.slot.toNat 64 = .ok ps → leNat ((s.readPieces ps).take 8) = x.idx + 1 →
           let left := if more = true then some { r with kind := .ring [] true } else none
           let item := (List.range ((x.bytes + 3) / 4)).map fun i =>
             (⟨some x.lane, x.dst + i, ⟨BitVec.ofNat 32 (leNat (((s.readPieces ps).drop 8).take x.bytes) / 2 ^ (32 * i)), 0⟩⟩ : RegWrite)
           let key := fun n => (x.header.toNat, x.consumer, n)
           let at' := x.header.toNat + 40 + 16 * x.consumer
           let free := s.natAt at' 8
           (x.pop = false → ∃ t v, exec i s = .next t ∧ Changes s t u.uid v ∧ written item left v) ∧
           (x.pop = true → x.consumer < 8 → ∃ t v, exec i s = .next t ∧ t.unit? u.uid = some v ∧
             written item left { v with snapshot := u.snapshot } ∧
             (free ≠ x.idx → key free ∉ s.ringFrees → t.mem = s.mem ∧ t.ringFrees = s.ringFrees ++ [key x.idx]) ∧
             (free = x.idx → key ((x.idx + 1) % 2 ^ 64) ∉ s.ringFrees → t.natAt at' 8 = (x.idx + 1) % 2 ^ 64 ∧
               (∀ a, a < at' ∨ at' + 8 ≤ a → t.byteAt a = s.byteAt a) ∧ t.ringFrees = s.ringFrees.filter (· != key x.idx))))) ∧
   ∀ (s : State) (ref : GangRef) (g : Gang), s.gangOf ref = some g →
     ((∃ p ∈ g.ps, (g.u.slice p).parked = false ∨ (g.u.slice p).pend ≠ []) → exec (.parkEnd ref) s = .next s) ∧
     ((∀ p ∈ g.ps, (g.u.slice p).parked = true ∧ (g.u.slice p).pend = []) → ∃ t, exec (.parkEnd ref) s = .next t ∧
       Changes s t g.u.uid (g.u.modifySlices g.ps fun sl => { sl with parked := false }))) ∧
  ∀ (s : State) (ref : GangRef) (g : Gang), s.gangOf ref = some g →
     let bits := fun (w : DWord) hi lo => w.toNat / 2 ^ lo % 2 ^ (hi + 1 - lo)
     let ready := s.canGo g.u g.ref.home g.ref.ig && !s.pipeBusy g
     let pipe := g.u.slots.getD g.ref.home 0 % 4
     let seen := fun (x : WorkUnit) => if x.residence = .resident ∧ x.core = g.u.core ∧ x.bank = g.u.bank then
       { x with slices := x.slices.map fun sl =>
           if x.slots.getD sl.home 0 % 4 = pipe then { sl with yieldTo := sl.yieldTo.map (· ++ [g.ref]) } else sl } else x
     let lanes := g.maskOf g.activePlaces
     let traps := fun c => ∃ tr : Trap, exec (.clauseStart ref) s = .next (s.enterTrap g tr) ∧ tr.cause = c ∧ tr.lanes = lanes ∧ tr.tpc = g.pc
     (ready = false ∨ g.head.clause ≠ none → exec (.clauseStart ref) s = .next s) ∧
     (ready = true → g.head.clause = none →
       (∀ f, s.fetch g.u.ctx g.pc = .error f → traps f.cause) ∧
       ∀ w, s.fetch g.u.ctx g.pc = .ok w →
         let signed := bits w 63 56 = 0xC5
         let plain := bits w 6 4 ≠ 7 ∧ bits w 31 24 ≤ 32 ∧ bits w 7 7 = 0 ∧ bits w 23 14 = 0 ∧ bits w 55 32 = 0
         let budget := bits w 31 24
         let enters := g.head.atEntry = true → budget ≠ 0 ∧ 8 * budget ≤ g.u.regs
         let met := ∀ p ∈ g.ps, (∀ k < 6, w.getLsbD (8 + k) = true → (g.u.slice p).sb.getD k 0 = 0) ∧ (g.u.slice p).sb.getD 6 0 = 0
         let held := s.throttledHome g.u g.ref.home = true ∨ s.yieldHeld g.u g.ref.home g.ref.ig = true ∨ s.outranked g = true
         (¬ signed → traps .clauseSig) ∧ (signed → ¬ plain → traps .reservedField) ∧
         (signed → plain → g.head.atEntry = true → budget = 0 → traps .badEntry) ∧
         (signed → plain → g.head.atEntry = true → g.u.regs < 8 * budget → traps .callBudget) ∧
         (signed → plain → enters → ¬ met ∨ held → exec (.clauseStart ref) s = .next s) ∧
         (signed → plain → enters → met → ¬ held → ∃ t v, exec (.clauseStart ref) s = .next t ∧ t.unit? g.u.uid = some v ∧
           { v with badRegs := [] } = { (seen g.u).modifySlices g.ps fun sl => { sl with
             clause := some ⟨sl.pc, bits w 3 0 + 1, bits w 6 4⟩
             pc := sl.pc + 8
             atEntry := false
             yieldTo := none
             regs := if sl.atEntry then 8 * budget else sl.regs
             lanes := sl.lanes.map Lane.kept } with badRegs := [] } ∧ (∀ b ∈ v.badRegs, b ∈ g.u.badRegs) ∧
           (∀ n x, n ≠ g.u.uid → s.unit? n = some x → t.unit? n = some (seen x)) ∧
           (t.bank g.u.core g.u.bank).pipes.lookup pipe = some g.ref ∧ t.mem = s.mem ∧ t.launches = s.launches ∧ t.segments = s.segments ∧
           t.clock = s.clock ∧ (∀ n, n ≠ g.u.core → t.core n = s.core n)))

/-! ### The memory system, power and links -/

/-- An eviction engine moves the page that comes first in R261's order to the lowest frames of the other tier that were free when last
counted: its bytes stand there, its entries name them, its hint records go with it, no TLB holds it, and the frames are counted again.
Scrubbing counts and logs a corrected error; an uncorrectable one marks what it hit; a controller reports its level to the cores that wait
on it; a served request leaves. What the spec leaves open of moves is log entry 26, of errors log entry 27. -/
def Obligations.PagesMoveAndErrorsAreReported : Prop :=
  (∀ (s : State) (die : Nat), Memory.wf s.mem = true → die < 4 →
     let es := s.mapEntries
     let hbm := (3 * 2 ^ 20 * die, 3 * 2 ^ 20 * (die + 1))
     let capacity := (0x10000000 + 0xC00000 * die, 0x10000000 + 0xC00000 * (die + 1))
     let free := fun (r : Nat × Nat) k f => f % k = 0 ∧ ∃ x ∈ s.freeRuns r, x.1 ≤ f ∧ f + k ≤ x.1 + x.2
     let lowest := fun r k f => free r k f ∧ ∀ f' < f, ¬ free r k f'
     let moves := fun (i : Instr) (p : Movable) (f : Nat) => ∃ t, exec i s = .next t ∧
       let size := 65536 * p.frames
       let old := s.chip * 2 ^ 48 + p.base
       let new := s.chip * 2 ^ 48 + 65536 * f
       let entry := fun a => ∃ e ∈ p.entries, e.pte ≤ a ∧ a < e.pte + 8
       (∀ e ∈ p.entries, t.natAt e.pte 8 = e.value - e.frame + 65536 * f) ∧
       (∀ k < size, ¬ entry (new + k) → t.byteAt (new + k) = if p.dead then 0 else s.byteAt (old + k)) ∧
       (∀ a, a < new ∨ new + size ≤ a → ¬ entry a → t.byteAt a = s.byteAt a) ∧
       t.hints = s.hints.map (fun h => (h.1, { h.2 with base := if old ≤ h.2.base ∧ h.2.base < old + size then h.2.base - old + new else h.2.base })) ∧
       (∀ c ∈ t.cores, ∀ x ∈ c.tlb, ∀ e ∈ p.entries, x.leaf.pte ≠ e.pte) ∧ (∀ d ∈ t.dies, ∀ x ∈ d.tlb, ∀ e ∈ p.entries, x.leaf.pte ≠ e.pte) ∧
       t.usedFrames = t.namedFrames ∧ t.segments = s.segments ∧
       t.contexts.map (fun c => { c with saves := [] }) = s.contexts.map (fun c => { c with saves := [] }) ∧
       t.cores.map (fun c => { c with tlb := [] }) = s.cores.map (fun c => { c with tlb := [] }) ∧
       t.dies.map (fun d => { d with evicting := false, tlb := [] }) = s.dies.map (fun d => { d with evicting := false, tlb := [] })
     let rank := fun (p : Movable) => (if p.dead then 0 else 1, 2 ^ 32 - p.dist, p.pri, p.base)
     let first := fun (key : Movable → Nat × Nat × Nat × Nat) (ps : List Movable) (p : Movable) => p ∈ ps ∧ ∀ q ∈ ps,
       (key p).1 < (key q).1 ∨ (key p).1 = (key q).1 ∧ ((key p).2.1 < (key q).2.1 ∨ (key p).2.1 = (key q).2.1 ∧
         ((key p).2.2.1 < (key q).2.2.1 ∨ (key p).2.2.1 = (key q).2.2.1 ∧ (key p).2.2.2 ≤ (key q).2.2.2))
     ((s.die die).evicting = false → exec (.pageEvict die) s = .next s) ∧
     (s.movables es hbm = [] → exec (.pageEvict die) s = .next s) ∧
     (∀ p f, (s.die die).evicting = true → (∀ q ∈ s.movables es hbm, q.dist ≤ 2 ^ 32) →
       (∀ q ∈ s.movables es hbm, q.base = p.base → q = p) →
       first rank (s.movables es hbm) p → lowest capacity p.frames f → moves (.pageEvict die) p f) ∧
     (s.freeHbm die ≤ (s.die die).lowWater → exec (.pageBringBack die) s = .next s) ∧
     ∀ p f, (s.die die).lowWater < s.freeHbm die → p.dist = 0 →
       (∀ q ∈ s.movables es capacity, q.base = p.base → q = p) → (∀ q ∈ s.movables es capacity, q.pri ≤ 3) →
       first (fun p => (p.dist, 3 - p.pri, p.base, 0)) (s.movables es capacity) p → lowest hbm p.frames f → moves (.pageBringBack die) p f) ∧
  ∀ (s : State),
     (∀ a : DWord, let pa := s.chip * 2 ^ 48 + a.toNat
       let capacity := 0x100000000000 ≤ a.toNat ∧ a.toNat < 0x130000000000
       let memory := a.toNat < 0x00C000000000 ∨ capacity
       let shared := 0xFC0000000000 ≤ a.toNat ∧ a.toNat < 0xFC0400000000
       let size := if shared then 8 else if capacity then 64 else 32
       let unit := pa / size * size
       let holds := memory ∨ shared ∧ s.mapped pa = true
       (¬ memory ∨ unit ∈ s.badSectors → exec (.patrolScrub a) s = .next s) ∧
       (memory → unit ∉ s.badSectors → s.dies.length = 4 → ∃ t, exec (.patrolScrub a) s = .next t ∧ t.corrected = s.corrected + 1 ∧
         (t.die (memoryDie a.toNat)).errorLog = (s.die (memoryDie a.toNat)).errorLog ++ [(0, 0, a)] ∧
         { t with corrected := 0, dies := [] } = { s with corrected := 0, dies := [] }) ∧
       (holds → s.deadAt pa = false → ∃ t, exec (.uncorrectableError (.sector a)) s = .next t ∧ t.uncorrected = s.uncorrected + 1 ∧
         (∀ x, x ∈ t.badSectors ↔ x = unit ∨ x ∈ s.badSectors) ∧
         { t with uncorrected := 0, badSectors := [] } = { s with uncorrected := 0, badSectors := [] }) ∧
       (¬ holds ∨ s.deadAt pa = true → exec (.uncorrectableError (.sector a)) s = .next s)) ∧
     (∀ (u : WorkUnit), s.unit? u.uid = some u → u.residence = .resident →
       let marks := fun p (v : WorkUnit) => ∃ t, exec (.uncorrectableError p) s = .next t ∧ t.uncorrected = s.uncorrected + 1 ∧
         Changes { s with uncorrected := t.uncorrected } t u.uid v
       let once := fun {α : Type} [BEq α] (l : List α) (x : α) => if l.contains x then l else l ++ [x]
       (∀ lane reg, lane < u.nlanes → reg < u.regs ∨ 0x100 ≤ reg ∧ reg < 0x150 → marks (.register u.uid lane reg)
         { u with badRegs := once u.badRegs (if 0x110 ≤ reg then lane / 4 * 4 else lane, reg) }) ∧
       (∀ n, n < u.ntiles → marks (.tile u.uid n) { u with badTiles := once u.badTiles n }) ∧
       (∀ n, n < 2048 * u.ntiles → marks (.weights u.uid n) { u with badWeights := once u.badWeights n }) ∧
       ∀ o : Nat, s.scratchOk u o = true → o < 0x100000 → marks (.scratch u.uid o) { u with badScratch := once u.badScratch (o / 8) }) ∧
     (∀ core o, (0x80000 ≤ o → exec (.uncorrectableError (.area core o)) s = .next s) ∧
       (o < 0x80000 → ∃ t, exec (.uncorrectableError (.area core o)) s = .next t ∧ t.uncorrected = s.uncorrected + 1 ∧
         (∀ x, x ∈ (t.core core).badArea ↔ x = o / 8 ∨ x ∈ (s.core core).badArea) ∧
         { t.core core with badArea := [] } = { s.core core with badArea := [] } ∧ (∀ n, n ≠ core → t.core n = s.core n) ∧
         { t with uncorrected := 0, cores := [] } = { s with uncorrected := 0, cores := [] })) ∧
     (∀ die slot l, s.launch? die slot = some l → l.abort = none → die < s.dies.length →
       ∃ t m, exec (.uncorrectableError (.device die slot)) s = .next t ∧ t.launch? die slot = some m ∧
         m.abort = some (⟨4, 1, s.chip⟩, 0, 0, 0) ∧ t.uncorrected = s.uncorrected + 1 ∧ (t.die die).errorLog = (s.die die).errorLog ++ [(0x15, l.ctx, l.index)]) ∧
     (∀ c, c < 16 →
       let now := (s.controllers.find? (·.num == c)).getD ⟨c, 0, s.clock, s.clock⟩
       let used := min 512 (s.requests.filter (·.controller == c)).length
       let acc := now.acc + used * (s.clock - now.upTo)
       let span := s.clock - now.start
       let level := if 100 * acc < 50 * 512 * span then 0 else if 100 * acc < 75 * 512 * span then 1
         else if 100 * acc < 90 * 512 * span then 2 else 3
       (s.clock < now.start + 256 → ∃ t, exec (.congestionReport c) s = .next t ∧ { t with controllers := [] } = { s with controllers := [] }) ∧
       (now.start + 256 ≤ s.clock → s.controllers.any (·.num == c) = true → ∃ t, exec (.congestionReport c) s = .next t ∧
         { t with controllers := [], cores := [] } = { s with controllers := [], cores := [] } ∧
         (∃ x, t.controllers.find? (·.num == c) = some x ∧ x.acc = 0 ∧ x.start = s.clock ∧ x.upTo = s.clock) ∧
         ∀ n, t.core n = if s.requests.any (fun q => q.controller == c && q.core == n)
           then { s.core n with congestion := (s.core n).congestion.filter (·.1 != c) ++ [(c, level, s.clock)] } else s.core n)) ∧
     (∀ core c, ∃ t, exec (.congestionLevelExpiry core c) s = .next t ∧ (∀ n, n ≠ core → t.core n = s.core n) ∧
       { t with cores := [] } = { s with cores := [] } ∧ t.core core = { s.core core with
         congestion := (s.core core).congestion.filter fun r => r.1 != c || decide (s.clock < r.2.2 + 1024) }) ∧
     ∀ q, ∃ t, exec (.hbmRequestComplete q) s = .next t ∧ t.requests = s.requests.filter (·.id != q) ∧
       { t with requests := [], controllers := [] } = { s with requests := [], controllers := [] }

/-- The clock goes down while a limit is exceeded and up when both have been clear for 1 ms; issue stops at 105 °C until every die is
below 100 °C. A link delivers its flits once each and in order, performs what they ask for at its home and answers it, re-sends from the one
asked for, and ends when a replay is not complete after 2^24 cycles. The steps of the clock upward and the length of 1 ms are log entry 27;
what a link's lists and flits hold is log entry 7. -/
def Obligations.LimitsSetTheClockAndLinksDeliverInOrder : Prop :=
  ∀ (s : State),
    let limit := 2200 < s.power ∨ ∃ t ∈ s.temps, 95 < t
    (limit → exec .powerLimitThrottle s = .next { s with clockMHz := max 875 (s.clockMHz - 25), limitClearSince := s.clock }) ∧
    (¬ limit → exec .powerLimitThrottle s = .next s) ∧
    (¬ limit → s.limitClearSince + 1000 * s.clockMHz ≤ s.clock → exec .clockRaise s = .next { s with clockMHz := min 1750 (s.clockMHz + 25) }) ∧
    (limit ∨ s.clock < s.limitClearSince + 1000 * s.clockMHz → exec .clockRaise s = .next s) ∧
    ((∃ t ∈ s.temps, 105 ≤ t) → exec .thermalStop s = .next { s with thermalStopped := true }) ∧
    ((∀ t ∈ s.temps, t < 105) → exec .thermalStop s = .next s) ∧
    ((∀ t ∈ s.temps, t < 100) → exec .thermalResume s = .next { s with thermalStopped := false }) ∧
    ((∃ t ∈ s.temps, 100 ≤ t) → exec .thermalResume s = .next s) ∧
    ∀ n, n < 36 →
      let k := s.link n
      let others := fun (r t : State) => (∀ m, m ≠ n → t.link m = r.link m) ∧ { t with links := [] } = { r with links := [] }
      (∀ f : Flit, let t := s.applyFlit n f
        let answers := fun id bs (r : State) => (∀ m, m ≠ n → t.link m = r.link m) ∧ (t.link n).sent = (r.link n).sent ++
          [⟨(r.link n).nextSeq, true, (r.link n).expected, .answer id bs⟩] ∧ (t.link n).nextSeq = (r.link n).nextSeq + 1
        let here := fun pa len => pa / 2 ^ 48 = s.chip ∧ s.mapped pa = true ∧ s.mapped (pa + len - 1) = true ∧ inWake pa = false
        (k.inService = false ∨ f.fits = false → exec (.flitReceive n f) s = .next s) ∧
        (k.inService = true → f.fits = true → f.crcOk = false → ∃ t, exec (.flitReceive n f) s = .next t ∧ others s t ∧
          t.link n = { k with discarding := true, requests := k.requests ++ [k.expected] }) ∧
        (k.inService = true → f.fits = true → f.crcOk = true → f.seq = k.expected → ∃ r : State,
          exec (.flitReceive n f) s = .next (r.applyFlit n f) ∧ others s r ∧ r.link n = { k with
            expected := k.expected + 1
            discarding := false
            replay := k.replay.filter fun x => decide (f.upTo ≤ x.seq)
            replaySince := k.replaySince.filter fun x => decide (f.upTo < x.2) }) ∧
        (k.inService = true → f.crcOk = true → f.seq ≠ k.expected → exec (.flitReceive n f) s = .next s) ∧
        (∀ id bs, f.body = .answer id bs → (∀ m, (t.link m).outstanding = (s.link m).outstanding.filter (·.id != id)) ∧ t.mem = s.mem) ∧
        (∀ id a bs, f.body = .write id a bs → (a.toNat / 2 ^ 48 ≠ s.chip → t = s) ∧ (bs ≠ [] → here a.toNat bs.length → answers id [] s ∧
          ∀ x, t.byteAt x = if a.toNat ≤ x ∧ x < a.toNat + bs.length then bs.getD (x - a.toNat) 0 else s.byteAt x)) ∧
        (∀ id a len, f.body = .read id a len → (a.toNat / 2 ^ 48 ≠ s.chip → t = s) ∧ (0 < len → here a.toNat len →
          answers id (s.bytesAt a.toNat len) s ∧ t.mem = s.mem)) ∧
        ∀ id a fpm opc wide x y, f.body = .atomic id a fpm opc wide x y → let len := if wide then 8 else 4
          let old := s.natAt a.toNat len
          here a.toNat len → s.uncorrectableAt a.toNat len = false → answers id (natLe len old) s ∧
            t.bytesAt a.toNat len = natLe len ((atomicOf fpm opc).op wide old x.toNat y.toNat) ∧
            ∀ b, b < a.toNat ∨ a.toNat + len ≤ b → t.byteAt b = s.byteAt b) ∧
      (∀ seq, (k.inService = false → exec (.replayRequest n seq) s = .next s) ∧
        (k.inService = true → ∃ t, exec (.replayRequest n seq) s = .next t ∧ others s t ∧ t.link n = { k with
          sent := k.sent ++ k.replay.filter fun f => decide (seq ≤ f.seq)
          replaySince := some ((k.replaySince.map (·.1)).getD s.clock, k.nextSeq) })) ∧
      (k.replaySince = none → exec (.linkReplayTimeout n) s = .next s) ∧
      (∀ since e, k.replaySince = some (since, e) → (s.clock < since + 2 ^ 24 → exec (.linkReplayTimeout n) s = .next s) ∧
        (since + 2 ^ 24 ≤ s.clock → k.inService = true → ∃ t, exec (.linkReplayTimeout n) s = .next t ∧
          (t.link n).inService = false ∧ (t.link n).outstanding = [] ∧ (∀ m, m ≠ n → t.link m = s.link m) ∧ t.mem = s.mem ∧
          ∀ q m, q ∈ k.outstanding → s.launch? q.die q.lslot = some m → m.abort = none → ∃ m', t.launch? q.die q.lslot = some m' ∧
            m'.abort = some (⟨4, 1, s.chip⟩, 0, 0, 0)))

/-! ### Ports, packets and the Tack cores -/

/-- The wake cells and the ports: a tail takes the greatest value stored and signals the Tack cores; loads answer tail and read index;
an RMA is performed whole or not at all. -/
def Obligations.WakeCellsAndPortsAnswer : Prop :=
  ∀ (s : State),
    let answers := fun i (r : Response) => exec i s = .next { s with responses := s.responses ++ [r] }
    (∀ die q v, die < s.dies.length → die < 4 → q < 4096 →
      let tell := fun n (t : State) => (t.die die).tacks = (s.die die).tacks.map fun c => { c with pending := c.pending ||| 1 <<< n }
      (q = 4095 ∨ s.queue? die q = none →
        (∃ t, exec (.tailStore die q v) s = .next t ∧ (t.die die).strayWakes = (s.die die).strayWakes + 1 ∧
          { t with dies := [] } = { s with dies := [] } ∧ ∀ d, { t.die d with strayWakes := 0 } = { s.die d with strayWakes := 0 }) ∧
        answers (.tailLoad die q) (.data (natLe 8 0)) ∧ answers (.readIndexLoad die q) (.data (natLe 8 0))) ∧
      ∀ x, q ≠ 4095 → s.queue? die q = some x →
        let tail := if x.tail < v then v else x.tail
        let far := x.rd.toNat + 2 ^ x.logsz < tail.toNat
        answers (.tailLoad die q) (.data (natLe 8 x.tail.toNat)) ∧ answers (.readIndexLoad die q) (.data (natLe 8 x.rd.toNat)) ∧
        (¬ far ∨ x.stopped = true → ∃ t, exec (.tailStore die q v) s = .next t ∧ t.queue? die q = some { x with tail := tail } ∧ tell 0 t ∧
          (∀ m, m ≠ q → t.queue? die m = s.queue? die m) ∧ (∀ d, d ≠ die → t.die d = s.die d) ∧ { t with dies := [] } = { s with dies := [] }) ∧
        (far → x.stopped = false → q ≠ 0 → ∃ t, exec (.tailStore die q v) s = .next t ∧ tell 0 t ∧
          t.queue? die q = some { x with tail := tail, stopped := true } ∧ ∀ m, m ≠ q → t.queue? die m = s.queue? die m)) ∧
    (∀ a : WakeAccess, (a.kind = .atomic ∨ a.kind = .other) →
      (a.port ≠ none → answers (.wakeOtherAccess a) .accessError) ∧ (a.port = none → exec (.wakeOtherAccess a) s = .next s)) ∧
    (∀ a : WakeAccess, a.kind = .engine → exec (.wakeOtherAccess a) s = .next s) ∧
    (∀ port, (s.portsUp = true → port < 4 → answers (.unsupportedRequest port) .unsupported) ∧
      (s.portsUp = false ∨ 4 ≤ port → exec (.unsupportedRequest port) s = .next s)) ∧
    (∀ m : RmaWrite,
      let named := fun (w : Window) => (s.die m.port).windows.find? (·.num == m.window) = some w ∧ w.key = m.key ∧
        1 ≤ m.data.length ∧ m.data.length ≤ 2 ^ 24 ∧ m.offset + m.data.length ≤ w.len
      (s.portsUp = false → exec (.rmaWrite m) s = .next s) ∧
      (s.portsUp = true → (∀ w, ¬ named w) → answers (.rmaWrite m) .accessError) ∧
      ∀ w, s.portsUp = true → named w →
        (s.rmaPieces w.ctx .write ((w.va.toNat + m.offset) % 2 ^ 64) m.data.length = none → answers (.rmaWrite m) .accessError) ∧
        ∀ ps, s.rmaPieces w.ctx .write ((w.va.toNat + m.offset) % 2 ^ 64) m.data.length = some ps → (∀ p ∈ ps, inWake p.leaf.pa = false) →
          ∃ t, exec (.rmaWrite m) s = .next t ∧ t.responses = s.responses ++ [.ok] ∧
            ∀ a, t.byteAt a = afterStores (s.byteAt a) ((ps.flatMap fun p => (List.range p.len).map (p.leaf.pa + ·)).zip m.data) a) ∧
    ∀ m : RmaRead,
      let named := fun (w : Window) => (s.die m.port).windows.find? (·.num == m.window) = some w ∧ w.key = m.key ∧
        1 ≤ m.len ∧ m.len ≤ 2 ^ 24 ∧ m.offset + m.len ≤ w.len
      (s.portsUp = false → exec (.rmaRead m) s = .next s) ∧
      (s.portsUp = true → (∀ w, ¬ named w) → answers (.rmaRead m) .accessError) ∧
      ∀ w, s.portsUp = true → named w →
        (s.rmaPieces w.ctx .read ((w.va.toNat + m.offset) % 2 ^ 64) m.len = none → answers (.rmaRead m) .accessError) ∧
        ∀ ps, s.rmaPieces w.ctx .read ((w.va.toNat + m.offset) % 2 ^ 64) m.len = some ps → (∀ p ∈ ps, inWake p.leaf.pa = false) →
          ∃ t, exec (.rmaRead m) s = .next t ∧ t.mem = s.mem ∧ t.responses = s.responses ++
            [if ps.any fun p => s.uncorrectableAt p.leaf.pa p.len then .accessError else .data (s.readPieces ps)]

/-- The Xdreox instructions in machine mode: their results and their own causes; outside it each is illegal. x0 takes no result. The
trap entry of a Tack core is the RISC-V family's (PRESUMED, log entry 8); RFETCH of an empty intake and what a dispatched packet's
checks do are log entry 23. -/
def Obligations.XdreoxInstructionsRun : Prop :=
  ∀ (s : State) (rd rs1 rs2 : BitVec 5) (die core : Nat), s.curTack = (die, core) → die < s.dies.length → core < (s.die die).tacks.length →
    let t := s.tack die core
    let a := (t.getX rs1).toNat
    let b := (t.getX rs2).toNat
    let becomes := fun i (t' : TackCore) => ∃ r, exec i s = .next r ∧ r.tack die core = t' ∧ (∀ d c, (d, c) ≠ (die, core) → r.tack d c = s.tack d c) ∧
      { r with dies := [] } = { s with dies := [] } ∧ ∀ d, { r.die d with tacks := [] } = { s.die d with tacks := [] }
    let result := fun (v : DWord) => { t.setX rd v with pc := t.pc + 4, waiting := none }
    let traps := fun i (n : Nat) => becomes i (t.trap n)
    (∀ v, (t.setX 0 v) = t ∧ (t.setX rd v).getX rd = (if rd = 0 then 0 else v) ∧ ∀ n, n ≠ rd → (t.setX rd v).getX n = t.getX n) ∧
    (t.mode ≠ .machine → ∀ i, i = .rfetch rd rs1 rs2 ∨ i = .bfex rd rs1 rs2 ∨ i = .sigwait rd rs1 rs2 ∨ i = .dispatch rd rs1 → traps i 2) ∧
    (t.mode = .machine →
      (let lo := b % 2 ^ 6
        let w := b / 2 ^ 6 % 2 ^ 7
        let bad := b / 2 ^ 13 ≠ 0 ∨ w = 0 ∨ 64 < lo + w
        (bad → traps (.bfex rd rs1 rs2) 25) ∧ (¬ bad → becomes (.bfex rd rs1 rs2) (result (BitVec.ofNat 64 (a / 2 ^ lo % 2 ^ w))))) ∧
      (let bad := a = 0 ∨ a / 2 ^ 5 ≠ 0
        let got := t.pending &&& t.getX rs1
        (bad → traps (.sigwait rd rs1 rs2) 26) ∧
        (¬ bad → got ≠ 0 → becomes (.sigwait rd rs1 rs2) { result got with pending := t.pending &&& ~~~got }) ∧
        (¬ bad → got = 0 → becomes (.sigwait rd rs1 rs2) { t with waiting := some (t.waiting.getD s.clock) })) ∧
      (∀ since w, t.waiting = some since → ((s.die die).word t.pc.toNat).map (fun w => decode (.tack w)) = some (.ok (.sigwait rd rs1 rs2)) →
        w = t.pending &&& t.getX rs1 →
        (b = 0 ∨ w ≠ 0 ∨ s.clock < since + b → exec (.sigwaitTimeout die core) s = .next s) ∧
        (b ≠ 0 → w = 0 → since + b ≤ s.clock → becomes (.sigwaitTimeout die core) (result 0))) ∧
      (let qn := a % 2 ^ 12
        let ent := a / 2 ^ 12 % 2 ^ 6
        let fills := fun r (e : PacketEntry) => ∃ u, exec (.rfetch rd rs1 rs2) s = .next u ∧ u.tack die core = result (BitVec.ofNat 64 r) ∧
          sparseGet emptyEntry (u.die die).buffer ent = e ∧ (∀ n, n ≠ ent → sparseGet emptyEntry (u.die die).buffer n =
            sparseGet emptyEntry (s.die die).buffer n) ∧ u.mem = s.mem
        (a / 2 ^ 18 ≠ 0 ∨ (qn ≠ 4095 ∧ s.queue? die qn = none) → traps (.rfetch rd rs1 rs2) 24) ∧
        (a / 2 ^ 18 = 0 → ∀ q, qn ≠ 4095 → s.queue? die qn = some q →
          (∀ c, s.readSlot q (t.getX rs2) = .error c → becomes (.rfetch rd rs1 rs2) (result 4)) ∧
          ∀ ws, s.readSlot q (t.getX rs2) = .ok ws →
            let valid := (wordOf ws 0).getLsbD 0 = decide ((b / 2 ^ q.logsz + 1) % 2 = 1)
            let r := if ¬ valid then 0 else if (wordOf ws 0).getLsbD 4 && (wordOf ws 0).extractLsb' 32 32 != crc32c (wordsBytes (ws.drop 1)) then 2 else 1
            fills r ⟨ws, r == 1, false, q.num, t.getX rs2, q.ctx, none⟩) ∧
        (a / 2 ^ 18 = 0 → qn = 4095 → ∀ g ctx ws rest, (s.die die).intake = (g, ctx, ws) :: rest →
          let r := if (wordOf ws 0).getLsbD 4 && (wordOf ws 0).extractLsb' 32 32 != crc32c (wordsBytes (ws.drop 1)) then 2 else 1
          fills r ⟨ws, r == 1, false, 4095, t.getX rs2, ctx, some g⟩) ∧
        (a / 2 ^ 18 = 0 → qn = 4095 → (s.die die).intake = [] → ∃ e, fills 0 e ∧ e.filled = false)) ∧
      (let ent := a % 2 ^ 6
        let e := sparseGet emptyEntry (s.die die).buffer ent
        let bad := a / 2 ^ 6 ≠ 0 ∨ e.filled = false ∨ e.dispatched = true
        (bad → traps (.dispatch rd rs1) 27) ∧
        (¬ bad → s.freeSlot die = none → exec (.dispatch rd rs1) s = .next s) ∧
        ∀ slot, ¬ bad → s.freeSlot die = some slot → slot < 32 ∧ s.launch? die slot = none ∧ (∀ n < slot, s.launch? die n ≠ none) ∧
          let u := (s.fillEntry die ent { e with dispatched := true }).takePacket die slot e.source e.words
          exec (.dispatch rd rs1) s = .next (u.modifyTack die core fun t =>
            { t.setX rd (BitVec.ofNat 64 slot) with pc := t.pc + 4, waiting := none })))

/-- A head is polled, re-read after a CRC failure four times, and taken by priority and lottery: a checked packet starts a launch in the
lowest free slot, one that fails ends with its record and queue fault; a replica waits in the intake. The lowest free launch slot is
taken (log entry 23). -/
def Obligations.PacketsAreTakenByPriorityAndLottery : Prop :=
  (∀ (s : State) (die : Nat) (q : Queue), s.queue? die q.num = some q → die < s.dies.length →
    let open' := q.stopped = false ∧ q.rd < q.tail
    let first := open' ∧ q.crcReads = 0
    let counted := s.countRead q.ctx (q.slotAddr q.rd) 128
    let changed := fun (f : Queue) (t : State) => t.queue? die q.num = some f ∧ (∀ m, m ≠ q.num → t.queue? die m = s.queue? die m) ∧
      { t with dies := [] } = { counted with dies := [] }
    let busy := q.num = 0 ∧ (s.die die).running ≠ none
    (¬ first → s.pollQueue die q = (s, none)) ∧ (first → s.readHead q = .notValid → s.pollQueue die q = (counted, none)) ∧
    (∀ ws, first → s.readHead q = .good ws → s.pollQueue die q = (counted, some ws)) ∧
    (∀ ws, first → s.readHead q = .badCrc ws → (s.pollQueue die q).2 = none ∧
      changed { q with crcReads := 1, crcDue := s.clock + 1024 } (s.pollQueue die q).1) ∧
    (first → s.readHead q = .fault → (s.pollQueue die q).2 = none ∧ (s.pollQueue die q).1 = counted.queueFault die q.num 0x13 q.rd 0) ∧
    (¬ open' ∨ busy ∨ q.crcReads = 0 ∨ s.clock < q.crcDue → exec (.crcReread die q.num) s = .next s) ∧
    (open' → ¬ busy → q.crcReads ≠ 0 → q.crcDue ≤ s.clock →
      ((s.readHead q = .notValid ∨ ∃ ws, s.readHead q = .good ws) → ∃ t, exec (.crcReread die q.num) s = .next t ∧ changed { q with crcReads := 0 } t) ∧
      ∀ ws, s.readHead q = .badCrc ws →
        (q.crcReads < 4 → ∃ t, exec (.crcReread die q.num) s = .next t ∧
          changed { q with crcReads := q.crcReads + 1, crcDue := s.clock + 1024 } t) ∧
        (4 ≤ q.crcReads → q.num ≠ 0 → ∃ t f, exec (.crcReread die q.num) s = .next t ∧ t.queue? die q.num = some f ∧
          f = { q with crcReads := 0, stopped := true } ∧ ∀ m, m ≠ q.num → t.queue? die m = s.queue? die m)) ∧
    (q.num ≠ 0 → ∃ x, (s.queueFault die q.num 0x13 q.rd 0).queue? die q.num = some x ∧ x = { q with stopped := true })) ∧
  (∀ (s : State) (die : Nat), ∃ qs : List Queue, qs.Perm ((s.die die).queues.filter fun q => q.num != 0 || (s.die die).running.isNone) ∧
    qs.Pairwise (fun a b => a.num ≤ b.num) ∧
    exec (.rereadTick die) s = .next (qs.foldl (fun t q => (t.pollQueue die q).1) (s.signal die 4))) ∧
  (∀ (s : State) (die : Nat), die < s.dies.length → (s.die die).queues.Pairwise (fun a b => a.num < b.num) →
    (∀ q ∈ (s.die die).queues, q.num ≠ 0 → q.num ≠ 4095 ∧ (s.readHead q = .notValid ∨ ∃ ws, s.readHead q = .good ws)) →
    let ready := ((s.die die).queues.filter (·.num != 0)).filterMap fun q =>
      if q.stopped = false ∧ q.rd < q.tail ∧ q.crcReads = 0 then (match s.readHead q with | .good ws => some (q.num, ws) | _ => none) else none
    let heads := ready ++ (((s.die die).intake.head?).map fun p => (4095, p.2.2)).toList
    let prio := fun (h : Nat × List DWord) => (wordOf h.2 0).toNat / 2 ^ 8 % 4
    let tickets := fun (h : Nat × List DWord) => max 1 ((wordOf h.2 0).toNat / 2 ^ 16 % 2 ^ 16)
    let cands := heads.filter fun h => heads.all fun k => decide (prio h ≤ prio k)
    let x1 := (s.die die).xs ^^^ ((s.die die).xs <<< 13)
    let x2 := x1 ^^^ (x1 >>> 7)
    let xs := x2 ^^^ (x2 <<< 17)
    let draw := xs.toNat % (cands.map tickets).sum
    let counts := fun (b : State) => { b with contexts := [] } = { s with contexts := [] } ∧
      b.contexts.map (fun c => { c with elided := 0 }) = s.contexts.map (fun c => { c with elided := 0 })
    (s.freeSlot die = none → exec (.arbitration die) s = .next s) ∧ (heads = [] → ∃ b, exec (.arbitration die) s = .next b ∧ counts b) ∧
    ∀ slot pre c post, s.freeSlot die = some slot → cands = pre ++ c :: post → (pre.map tickets).sum ≤ draw →
      draw < (pre.map tickets).sum + tickets c → ∃ (b : State) (src : Source), counts b ∧
        exec (.arbitration die) s = .next ((b.modifyDie die fun d => { d with xs := xs }).takePacket die slot src c.2) ∧ src.queue = c.1 ∧
        (∀ q, c.1 ≠ 4095 → s.queue? die c.1 = some q → src.index = q.rd ∧ src.ctx = q.ctx ∧ src.generation = none) ∧
        ∀ p, c.1 = 4095 → (s.die die).intake.head? = some p → src.index = 0 ∧ src.ctx = p.2.1 ∧ src.generation = some p.1) ∧
  (∀ (s : State) (die slot : Nat) (x : Source) (ws : List DWord) (q : Queue), die < s.dies.length → s.launch? die slot = none →
    x.generation = none → s.queue? die x.queue = some q → x.queue ≠ 0 → x.index = q.rd → (wordOf ws 5).toNat % 2 ^ 7 ≤ 1 →
    (∃ ps, s.pieces q.ctx .write q.rdptr.toNat 8 = .ok ps ∧ ∀ p ∈ ps, inWake p.leaf.pa = false) →
    (∀ ps, s.pieces x.ctx .write (wordOf ws 2).toNat 8 = .ok ps → ∀ p ∈ ps, inWake p.leaf.pa = false) →
    let t := s.takePacket die slot x ws
    (∀ code, s.checkPacket x.ctx ws = .error code → t.launch? die slot = none ∧
      t.queue? die x.queue = some { q with rd := q.rd + 1, crcReads := 0, stopped := true } ∧
      t.units.map (fun v => { v with snapshot := [] }) = s.units.map (fun v => { v with snapshot := [] })) ∧
    ∀ tb, s.checkPacket x.ctx ws = .ok tb → ∃ l, t.launch? die slot = some l ∧ l.queue = x.queue ∧ l.index = x.index ∧ l.ctx = x.ctx ∧
      l.words = ws ∧ l.desc = tb.desc ∧ l.attach = tb.attach ∧ l.vectors = tb.vectors ∧ l.cinch = none ∧ l.abort = none ∧
      t.queue? die x.queue = some { q with rd := q.rd + 1, crcReads := 0 }) ∧
  ∀ (s : State) (g : DWord) (ctx : Nat) (ws : List DWord), s.dies ≠ [] → ∃ t, exec (.replicaArrival g ctx ws) s = .next t ∧
    (t.die 0).intake = (s.die 0).intake ++ [(g, ctx, ws)] ∧ (t.die 0).tacks = (s.die 0).tacks.map (fun c => { c with pending := c.pending ||| 8 }) ∧
    { t with dies := [] } = { s with dies := [] } ∧ { t.die 0 with intake := [], tacks := [] } = { s.die 0 with intake := [], tacks := [] } ∧
    ∀ d, d ≠ 0 → t.die d = s.die d

/-- What a packet must be: the checks of R89 that need no table, each with its code. Queue 0 of an idle die takes its next valid packet:
what R455 and R456 do not accept fails with the least code that applies. How some command fields are checked is log entry 24. -/
def Obligations.PacketsAndCommandsAreChecked : Prop :=
  (∀ (s : State) (ctx : Nat) (ws : List DWord),
     let w := fun n => (wordOf ws n).toNat
     let kind := w 0 / 2 % 8
     let fails := fun c => s.checkPacket ctx ws = .error c
     let feature := fun n => s.features.getLsbD n = true
     let allowed := s.negotiated = true ∧ (kind = 2 → feature 4) ∧ (kind = 3 → feature 5) ∧ (0 < w 5 / 2 ^ 8 % 2 ^ 5 → feature 6)
     (4 ≤ kind → fails 2) ∧ (kind < 4 → ¬ allowed → fails 3) ∧
     (kind < 4 → allowed → (w 0 / 2 ^ 5 % 8 ≠ 0 ∨ w 0 / 2 ^ 10 % 2 ^ 6 ≠ 0) → fails 4) ∧
     (∀ t, s.checkPacket ctx ws = .ok t → w 0 / 2 ^ 16 % 2 ^ 16 ≠ 0 ∧ 1 ≤ w 5 % 2 ^ 7 ∧ w 5 % 2 ^ 7 ≤ 64 ∧
       w 5 / 2 ^ 16 % 2 ^ 13 ≤ s.chip ∧ s.chip < w 5 / 2 ^ 16 % 2 ^ 13 + w 5 % 2 ^ 7 ∧ w 2 % 64 = 0 ∧
       (kind = 0 → 0 < (w 8 % 2 ^ 11) * (w 8 / 2 ^ 11 % 2 ^ 11) * (w 8 / 2 ^ 22 % 2 ^ 11) ∧
         (w 8 % 2 ^ 11) * (w 8 / 2 ^ 11 % 2 ^ 11) * (w 8 / 2 ^ 22 % 2 ^ 11) ≤ 1024 ∧
         (w 6 % 2 ^ 32) * (w 6 / 2 ^ 32) * (w 7 % 2 ^ 32) ≤ 2 ^ 48) ∧
       (t.desc.length = 8 → 1 ≤ (wordOf t.desc 1).toNat % 2 ^ 6 ∧ (wordOf t.desc 1).toNat % 2 ^ 6 ≤ 32)) ∧
     ∀ c, fails c → 2 ≤ c ∧ c ≤ 10) ∧
  ∀ (s : State) (die : Nat) (q : Queue), s.queue? die 0 = some q → q.num = 0 → die < s.dies.length →
     ((s.die die).running ≠ none → exec (.systemCommandTake die) s = .next s) ∧
     ((s.die die).running = none → q.stopped = false →
       ((q.tail ≤ q.rd ∨ q.crcReads ≠ 0) → exec (.systemCommandTake die) s = .next s) ∧
       let counted := s.countRead q.ctx (q.slotAddr q.rd) 128
       (q.rd < q.tail → q.crcReads = 0 → s.readHead q = .notValid → exec (.systemCommandTake die) s = .next counted) ∧
       ∀ ws, q.rd < q.tail → q.crcReads = 0 → s.readHead q = .good ws →
         let w := fun n => (wordOf ws n).toNat
         let code := w 6 % 2 ^ 8
         let package := [0x01, 0x02, 0x03, 0x04, 0x08, 0x09, 0x0A, 0x0B, 0x0C, 0x0D]
         let known := package ++ [0x10, 0x11, 0x12, 0x13, 0x14, 0x18, 0x19, 0x1C]
         let early := [0x01, 0x02, 0x04]
         let codes := s.commandCodes die ws
         (2 ∈ codes ↔ w 0 / 2 % 8 ≠ 7) ∧
         (3 ∈ codes ↔ s.negotiated = false ∧ code ∉ early ∧ (code < 0x10 ∨ 0x19 < code)) ∧
         (5 ∈ codes ↔ w 2 % 64 ≠ 0 ∨ (2 ^ 54 ≤ w 2 ∧ w 2 < 2 ^ 64 - 2 ^ 54)) ∧
         (6 ∈ codes ↔ w 0 / 2 ^ 16 % 2 ^ 16 = 0 ∨ w 5 % 2 ^ 7 ≠ 1 ∨ code ∉ known ∨ (code ∈ package ∧ die ≠ 0)) ∧
         (w 1 ≠ 0 ∨ w 3 ≠ 0 ∨ w 4 ≠ 0 ∨ 2 ^ 8 ≤ w 6 → 4 ∈ codes) ∧ (∀ c ∈ codes, 2 ≤ c ∧ c ≤ 6) ∧
         (codes = [] → exec (.systemCommandTake die) s = .next ((counted.publish die 0 (q.rd + 1)).modifyDie die fun d =>
           { d with running := some ⟨code, ws.drop 7, wordOf ws 2, q.rd⟩ })) ∧
         (∀ c, c ∈ codes → (∀ k ∈ codes, c ≤ k) → exec (.systemCommandTake die) s =
           .next ((counted.publish die 0 (q.rd + 1)).commandFailed die c (wordOf ws 2) q.rd)))

/-- The Cinch barrier of a replicated launch opens when every chip of its run has arrived, and fails by a refusal or after 2^24
cycles. -/
def Obligations.CinchBarriersOpenOrFail : Prop :=
  ∀ (s : State) (die slot : Nat) (l : Launch) (c : Cinch), s.launch? die slot = some l → l.cinch = some c → die < s.dies.length →
    let run := (List.range l.chips).map (l.chip0 + ·)
    let told := fun (t : State) => (t.die die).tacks = (s.die die).tacks.map fun k => { k with pending := k.pending ||| 4 }
    let becomes := fun i (quiet : Bool) (c' : Cinch) => ∃ t, exec i s = .next t ∧ (quiet = false → told t) ∧
      (quiet = true → (t.die die).tacks = (s.die die).tacks) ∧ t.launch? die slot = some { l with cinch := some c' } ∧
      { t with dies := [], launches := [] } = { s with dies := [], launches := [] }
    let fails := fun i (st : AbortStatus) => ∃ t m, exec i s = .next t ∧ t.launch? die slot = some m ∧ m.abort = some (st, 0, 0, 0) ∧
      ∀ q, l.queue ≠ 0 → l.die = die → s.queue? die l.queue = some q → ∃ x, t.queue? die l.queue = some x ∧ x.stopped = true
    let open' := c.originator = true ∧ c.released = false ∧ l.abort = none
    let late := c.since + 2 ^ 24 ≤ s.clock
    (∀ chip r, ¬ open' ∨ late ∨ chip ∈ c.arrived ∨ chip ∉ run → becomes (.cinchArrival die slot chip r) false c) ∧
    (∀ chip, open' → ¬ late → chip ∉ c.arrived → chip ∈ run →
      becomes (.cinchArrival die slot chip none) false { c with arrived := c.arrived ++ [chip] }) ∧
    (∀ chip code, open' → ¬ late → chip ∉ c.arrived → chip ∈ run → fails (.cinchArrival die slot chip (some code)) ⟨1, code.toNat, chip⟩) ∧
    (l.abort = none → (c.originator = true → ∀ x ∈ run, x ∈ c.arrived) → becomes (.cinchRelease die slot) c.originator { c with released := true }) ∧
    (l.abort ≠ none ∨ (c.originator = true ∧ ∃ x ∈ run, x ∉ c.arrived) → becomes (.cinchRelease die slot) c.originator c) ∧
    (¬ open' ∨ s.clock < c.since + 2 ^ 24 ∨ (∀ x ∈ run, x ∈ c.arrived) → exec (.cinchTimeout die slot) s = .next s) ∧
    ∀ pre x post, open' → c.since + 2 ^ 24 ≤ s.clock → run = pre ++ x :: post → (∀ y ∈ pre, y ∈ c.arrived) → x ∉ c.arrived →
      fails (.cinchTimeout die slot) ⟨3, 0x11, x⟩

/-- A launch retires when its work is done: one of a run tells the run of its end and waits until no window of the run is open; it drains, its
record is written, its slot and units are free and the Tack cores are told; an abort of another chip of its run ends its units; a
deterministic grid merges an epoch once every unit has ended it. -/
def Obligations.LaunchesRetireAbortAndMerge : Prop :=
  ∀ (s : State) (die slot : Nat) (l : Launch), s.launch? die slot = some l →
    let mine := fun (u : WorkUnit) => u.die = die ∧ u.lslot = slot
    let live := fun (u : WorkUnit) => mine u ∧ u.residence ≠ .exited
    let done := l.abort ≠ none ∨ (∀ c, l.cinch = some c → c.released = true) ∧
      (l.kind = 0 ∧ l.unitsTotal ≤ l.nextUnit ∧ (∀ u ∈ s.units, ¬ live u) ∨
       l.kind = 1 ∧ l.suspend = none ∧ (∀ u ∈ s.units, ¬ live u) ∧ (∀ f, l.frontier = some f → ∀ e ∈ f.lines, e.1 = l.xk + 1) ∨
       (∃ x, l.kind = 1 ∧ l.suspend = some x ∧ ((∀ u ∈ s.units, ¬ live u) ∨ x.spill = true ∧ ∀ u ∈ s.units, live u → u.residence = .spilled)) ∨
       l.kind = 2 ∧ l.ended ≠ none ∨
       3 ≤ l.kind ∧ (∀ u ∈ s.units, ¬ live u) ∧ ∀ p, l.pool = some p → p.tasks = [] ∧ p.spawned = [] ∧ (l.det = true → p.roundGangs = 0))
    let r := ((s.saveFrontier l).closeAll l).mergeRest l
    (¬ done ∨ s.launchBusy l = true → exec (.launchRetire die slot) s = .next s) ∧
    let toldRun := s.modifyLaunch die slot fun l => { l with endSignalled := true }
    (done → s.launchBusy l = false → l.replicated = true → l.endSignalled = false →
      exec (.launchRetire die slot) s = .next (if s.runQuiet l then toldRun.signalRun l none else s)) ∧
    (done → s.launchBusy l = false → l.endSignalled = true → s.runOpen l = true → exec (.launchRetire die slot) s = .next s) ∧
    (∀ m, done → s.launchBusy l = false → (l.replicated = true → l.endSignalled = true ∧ s.runOpen l = false) →
      r.launch? die slot = some m → die < r.dies.length → ∃ t : State,
      let low := fun (a b : Nat) => BitVec.ofNat 64 (a % 2 ^ 32 + (b % 2 ^ 32) * 2 ^ 32)
      let late := fun (d : Domain) => d.late + if m.abort = none then d.arrivals.length else 0
      let num := fun (f : Domain → Nat) => ((m.domain.map f).getD 0 : Nat)
      let status := match m.abort with | some a => a.1 | none => ⟨0, m.ended.getD 0, r.chip⟩
      let words := match m.abort with | some a => [a.2.1, a.2.2.1, a.2.2.2] | none => [0, 0, 0]
      exec (.launchRetire die slot) s = .next t.acquireAll ∧ t.launch? die slot = none ∧ (∀ u ∈ t.units, ¬ mine u) ∧
      (∀ d n, (d, n) ≠ (die, slot) → t.launch? d n = r.launch? d n) ∧
      (t.die die).tacks = (r.die die).tacks.map (fun k => { k with pending := k.pending ||| 2 }) ∧
      t.mem = (r.writeRecord die m.ctx (wordOf m.words 2) m.index
        (BitVec.ofNat 64 (status.code + status.cls * 2 ^ 8 + 2 ^ 16 + status.chip * 2 ^ 32))
        ([BitVec.ofNat 64 m.units, (m.domain.map (·.lastT)).getD 0, low (num (·.batches)) (num late), low (num (·.removed)) (num (·.dropped))] ++
          words)).mem) ∧
    let peer := fun (st : AbortStatus) => l.replicated = true ∧ l.chip0 ≤ st.chip ∧ st.chip < l.chip0 + l.chips ∧
      let waits := ∃ c, l.cinch = some c ∧ c.originator = false ∧ c.released = false
      (st.cls = 4 ∧ st.code = 4 ∧ st.chip ≠ s.chip ∨ waits ∧ st.cls = 1 ∧ 1 ≤ st.code ∧ st.code ≤ 10 ∧ st.chip ≠ s.chip ∨
        waits ∧ st.cls = 3 ∧ st.code = 0x11)
    (∀ st, l.abort ≠ none ∨ ¬ peer st → exec (.launchAbort die slot st) s = .next s) ∧
    (∀ st, l.abort = none → peer st → ∃ t, exec (.launchAbort die slot st) s = .next t ∧ t.mem = s.mem ∧
      t.launch? die slot = some { l with
        abort := some (st, 0, 0, 0)
        domain := l.domain.map fun d => { d with
          store := []
          batch := []
          gangs := []
          staged := []
          cancels := []
          arrivals := []
          next := []
          running := false }
        pool := l.pool.map fun p => { p with tasks := [], spawned := [] } } ∧
      (∀ u ∈ t.units, mine u → u.residence = .exited ∧ (∀ p < u.slices.length, (u.slice p).hasExited = true) ∧ u.buffer = []) ∧
      ∀ d n, (d, n) ≠ (die, slot) → t.launch? d n = s.launch? d n) ∧
    let ready := l.abort = none ∧ l.kind = 0 ∧ l.det = true ∧ l.unitsTotal ≤ l.nextUnit ∧
        (∀ u ∈ s.units, mine u → u.residence = .exited ∨ l.epoch < u.interval) ∧
        ∃ u ∈ s.units, mine u ∧ (u.buffer ≠ [] ∨ u.ordWords ≠ [] ∨ ∃ sl ∈ u.slices, sl.wait = .merge l.epoch)
    (¬ ready → exec (.epochMerge die slot) s = .next s) ∧
      (ready → ∃ us : List WorkUnit, us.Perm (s.units.filter fun u => u.die == die && u.lslot == slot) ∧
        us.Pairwise (fun a b => a.unitId ≤ b.unitId) ∧
        let b := s.mergeIntervals die slot (us.map fun u => ⟨u.uid, 0⟩)
        (b.2 = [] → ∃ t, exec (.epochMerge die slot) s = .next t ∧ t.mem = b.1.mem ∧
          (∀ m, b.1.launch? die slot = some m → t.launch? die slot = some { m with epoch := l.epoch + 1 }) ∧
          t.units = b.1.units.map fun u => if u.die = die ∧ u.lslot = slot then
            { u with slices := u.slices.map fun sl => if sl.wait = .merge l.epoch then { sl with wait := .done } else sl } else u))

/-! ### System commands and reset -/

/-- The eighteen system commands: each fails with the code its row of R456 names and changes nothing, or has its effect, and its
completion record carries its results. What the command descriptions leave open is log entry 24; SHA-256 and the signature are free
functions (log entry 5). -/
def Obligations.SystemCommandsHaveTheirEffects : Prop :=
  ∀ (s : State) (die : Nat) (c : SysCommand), s.curTack.1 = die → (s.die die).running = some c →
    let idle := fun (t : State) => t.modifyDie die fun d => { d with running := none }
    let a := fun n => (wordOf c.args n).toNat
    let w := fun n => wordOf c.args n
    let succeeds := fun i (t : State) (res : List DWord) => exec i s = .next ((idle t).writeRecord die 0 c.compl c.index
      (BitVec.ofNat 64 (2 ^ 16 + s.chip * 2 ^ 32)) ((res ++ [0, 0, 0, 0, 0, 0, 0]).take 7))
    let fails := fun i code => exec i s = .next ((idle s).commandFailed die code c.compl c.index)
    let known := fun n => ∃ x ∈ s.contexts, x.num = n
    let onDie := fun (f : Die → Die) => s.modifyDie die f
    (∀ i code, (i, code) ∈ [(Instr.negotiate, 0x01), (.readManifest, 0x02), (.compareManifest, 0x03), (.attest, 0x04), (.createContext, 0x08),
        (.destroyContext, 0x09), (.ptUpdate, 0x0A), (.ptInvalidate, 0x0B), (.readCounters, 0x0C), (.discardSave, 0x0D), (.createQueue, 0x10),
        (.destroyQueue, 0x11), (.resumeQueue, 0x12), (.setShared, 0x13), (.setLowwater, 0x14), (.windowAdd, 0x18), (.windowRemove, 0x19),
        (.suspendLaunch, 0x1C)] → c.code ≠ code → exec i s = .next s) ∧
    (c.code = 0x01 →
      let chip := a 4 % 2 ^ 13
      let n := a 4 / 2 ^ 13 % 2 ^ 9
      let bad := s.negotiated = true ∨ 4608 ≤ chip ∨ n = 0 ∨ n % 4 ≠ 0 ∨ ∃ k, listMin s.inService = some k ∧ 4 * k < n
      let vec := ((w 3 ++ w 2 ++ w 1 ++ w 0 : BitVec 256) &&& 0x7F1) ||| 1
      (bad → s.inService ≠ [] → fails .negotiate 6) ∧
      (¬ bad → s.inService ≠ [] → ∃ t, exec .negotiate s = .next ((idle t).writeRecord die 0 c.compl c.index
          (BitVec.ofNat 64 (2 ^ 16 + chip * 2 ^ 32))
          ([vec.extractLsb' 0 64, vec.extractLsb' 64 64, vec.extractLsb' 128 64, vec.extractLsb' 192 64] ++ [0, 0, 0])) ∧
        t.negotiated = true ∧ t.features = vec ∧ t.n = n ∧ t.chip = chip ∧ t.chips = [chip] ∧ t.place = (w 4).getLsbD 22 ∧
        t.fpmode = (w 4).extractLsb' 23 4 ∧ t.seeds = [w 5, w 6, w 7, w 8] ∧ t.contexts = s.contexts ∧ t.units = s.units ∧
        (∀ d < s.dies.length, (t.die d).xs = (if wordOf [w 5, w 6, w 7, w 8] d = 0 then 1 else wordOf [w 5, w 6, w 7, w 8] d) ∧
          { t.die d with xs := 0, tlb := [] } = { s.die d with xs := 0, tlb := [] }))) ∧
    (c.code = 0x02 → (∀ e, s.deviceWrite 0 (a 0) s.manifest = .error e → fails .readManifest 5) ∧
      ∀ t, s.deviceWrite 0 (a 0) s.manifest = .ok t → succeeds .readManifest t [] ∧ (4 ≤ s.seeds.length → s.manifest.length = 256)) ∧
    (c.code = 0x03 → (∀ e, s.deviceRead 0 (a 0) 256 = .error e → fails .compareManifest 5) ∧
      ∀ r, s.deviceRead 0 (a 0) 256 = .ok r → ((∃ b ∈ r.drop 240, b ≠ 0) → fails .compareManifest 4) ∧
        ((∀ b ∈ r.drop 240, b = 0) → (r.take 240 = s.manifest.take 240 → succeeds .compareManifest s [0]) ∧
          (r.take 8 ≠ s.manifest.take 8 → succeeds .compareManifest s [1]))) ∧
    (c.code = 0x04 → (∀ e, s.deviceRead 0 (a 0) 32 = .error e → fails .attest 5) ∧
      ∀ nonce, s.deviceRead 0 (a 0) 32 = .ok nonce → (∀ e, s.deviceWrite 0 (a 1) (s.report nonce) = .error e → fails .attest 5) ∧
        ∀ t, s.deviceWrite 0 (a 1) (s.report nonce) = .ok t → succeeds .attest t [16096]) ∧
    (c.code = 0x08 →
      let num := a 0 % 2 ^ 6
      let weight := a 0 / 2 ^ 6 % 2 ^ 8
      let canonical := fun n => n < 2 ^ 54 ∨ 2 ^ 64 - 2 ^ 54 ≤ n
      let placed := a 1 % 2 ^ 16 = 0 ∧ a 1 < 0xC000000000 ∧ ¬ (0xFFFF00000 ≤ a 1 ∧ a 1 < 0x1000000000) ∧ a 2 % 1024 = 0 ∧ canonical (a 2) ∧ a 3 % 2 ^ 16 = 0 ∧ canonical (a 3)
      (¬ placed → fails .createContext 5) ∧
      (placed → num = 0 ∨ known num ∨ weight = 0 ∨ a 4 % 2 ^ 16 ≠ 0 → fails .createContext 6) ∧
      (placed → num ≠ 0 → ¬ known num → weight ≠ 0 → a 4 % 2 ^ 16 = 0 → succeeds .createContext { s with contexts := s.contexts ++
        [⟨num, weight, if (w 0).getLsbD 18 then s.fpmode else (w 0).extractLsb' 14 4, a 1, w 2, w 3, a 4, [], 0, 0, []⟩] } [])) ∧
    (c.code = 0x09 →
      let used := (∃ d ∈ s.dies, (∃ q ∈ d.queues, q.ctx = a 0) ∨ ∃ v ∈ d.windows, v.ctx = a 0) ∨ ∃ l ∈ s.launches, l.ctx = a 0
      (¬ known (a 0) ∨ used → fails .destroyContext 6) ∧
      (known (a 0) → ¬ used → ∃ t, succeeds .destroyContext t [] ∧ t.contexts = s.contexts.filter (·.num != a 0) ∧
        t.segments = s.segments.filter (·.ctx != a 0) ∧ (∀ x ∈ t.cores, ∀ e ∈ x.tlb, e.ctx ≠ a 0) ∧ (∀ d ∈ t.dies, ∀ e ∈ d.tlb, e.ctx ≠ a 0) ∧
        (∀ x ∈ s.segments, x.ctx = a 0 → ∀ k, x.core = some k → ∀ b, x.offset ≤ b → b < x.offset + 4096 * x.size →
          sparseGet 0 (t.core k).segArea b = 0) ∧ t.mem = s.mem ∧ t.units = s.units ∧ t.launches = s.launches)) ∧
    (c.code = 0x0A →
      let placed := a 1 % 8 = 0 ∧ a 1 < 0xC000000000 ∧ ¬ (0xFFFF00000 ≤ a 1 ∧ a 1 < 0x1000000000)
      let pa := s.chip * 2 ^ 48 + a 1
      let named : MapEntry := ⟨a 0, 3, if bitOf (a 2) 1 && s.serves (a 0) (a 1) 2 then 29 else 16, pa, a 2⟩
      let boot := bitOf (a 2) 0 && s.namesOwn named && named.meetsBoot
      let good := s.entryOk (a 0) (a 1) (a 2) && !boot
      (¬ placed → fails .ptUpdate 5) ∧ (placed → ¬ known (a 0) ∨ good = false → fails .ptUpdate 6) ∧
      (placed → known (a 0) → good = true → ∃ t, succeeds .ptUpdate t [BitVec.ofNat 64 (s.natAt pa 8)] ∧ t.natAt pa 8 = a 2 ∧
        (∀ b, b < pa ∨ pa + 8 ≤ b → t.byteAt b = s.byteAt b) ∧ t.contexts = s.contexts ∧ t.usedFrames = t.namedFrames ∧
        (∀ x ∈ t.cores, x.tlb = []) ∧ ∀ d ∈ t.dies, d.tlb = [])) ∧
    (c.code = 0x0B →
      let canonical := a 1 < 2 ^ 54 ∨ 2 ^ 64 - 2 ^ 54 ≤ a 1
      (¬ canonical → fails .ptInvalidate 5) ∧ (canonical → ¬ known (a 0) → fails .ptInvalidate 6) ∧
      let kept := fun (l : List TlbEntry) => l.filter fun e =>
        !decide (e.ctx = a 0 ∧ (a 2 = 0 ∨ (e.va < a 1 + a 2 ∧ a 1 < e.va + 2 ^ e.leaf.logSize)))
      (canonical → known (a 0) → ∃ t, succeeds .ptInvalidate t [] ∧ t.cores = s.cores.map (fun x => { x with tlb := kept x.tlb }) ∧
        t.dies.map (fun d => { d with evicting := false }) = s.dies.map (fun d => { d with evicting := false, tlb := kept d.tlb }) ∧
        t.usedFrames = s.namedFrames ∧ (∀ h ∈ t.hints, h ∈ s.hints) ∧
        { t with dies := [], cores := [], hints := [], usedFrames := [] } = { s with dies := [], cores := [], hints := [], usedFrames := [] })) ∧
    (c.code = 0x0C → (¬ known (a 0) → fails .readCounters 6) ∧ ∀ x, s.context (a 0) = some x →
      succeeds .readCounters s [x.elided, s.corrected, s.uncorrected, BitVec.ofNat 64 (s.dies.map (·.strayWakes)).sum]) ∧
    (c.code = 0x0D → (a 1 < 2 ^ 54 ∨ 2 ^ 64 - 2 ^ 54 ≤ a 1) →
      ((∀ x r, s.context (a 0) = some x → x.saves.find? (·.addr == w 1) = some r → False) → fails .discardSave 6) ∧
      ∀ x r, s.context (a 0) = some x → x.saves.find? (·.addr == w 1) = some r → ∃ t : State, succeeds .discardSave t.acquireAll [] ∧
        t.mem = s.mem ∧ ∃ y, t.context (a 0) = some y ∧ y.saves = x.saves.erase r ∧
          ∀ g, g ∈ y.saveUsed → g ∈ x.saveUsed) ∧
    (c.code = 0x10 → (∀ e, s.deviceWords 0 (a 1) 8 = .error e → fails .createQueue 5) ∧
      ∀ ws, s.deviceWords 0 (a 1) 8 = .ok ws →
        let f := fun n => (wordOf ws n).toNat
        let canonical := fun n => n < 2 ^ 54 ∨ 2 ^ 64 - 2 ^ 54 ≤ n
        let ctx := f 1 / 2 ^ 5 % 2 ^ 6
        let good := f 0 % 4096 = 0 ∧ canonical (f 0) ∧ 1 ≤ f 1 % 2 ^ 5 ∧ f 1 % 2 ^ 5 ≤ 20 ∧ f 1 < 2 ^ 11 ∧ f 2 % 8 = 0 ∧ canonical (f 2) ∧
          f 3 % 64 = 0 ∧ canonical (f 3) ∧ (∀ x ∈ ws.drop 4, x = 0) ∧ ctx ≠ 0 ∧ known ctx
        let number := 1 ≤ a 0 ∧ a 0 ≤ 4094 ∧ s.queue? die (a 0) = none
        (¬ good ∨ ¬ number → fails .createQueue 6) ∧
        (good → number → succeeds .createQueue (onDie fun d => { d with queues := d.queues ++
          [⟨a 0, wordOf ws 0, f 1 % 2 ^ 5, ctx, wordOf ws 2, wordOf ws 3, 0, 0, false, 0, 0⟩] }) [])) ∧
    (c.code = 0x11 →
      let runs := ∃ l ∈ s.launches, l.die = die ∧ l.queue = a 0
      (a 0 = 0 ∨ s.queue? die (a 0) = none ∨ runs → fails .destroyQueue 6) ∧
      (a 0 ≠ 0 → s.queue? die (a 0) ≠ none → ¬ runs →
        succeeds .destroyQueue (onDie fun d => { d with queues := d.queues.filter (·.num != a 0) }) [])) ∧
    (c.code = 0x12 → (a 0 = 0 ∨ (∀ q, s.queue? die (a 0) = some q → q.stopped = false) → fails .resumeQueue 6) ∧
      ∀ q, a 0 ≠ 0 → s.queue? die (a 0) = some q → q.stopped = true →
        succeeds .resumeQueue (s.modifyQueue die (a 0) fun q => { q with stopped := false, crcReads := 0 }) []) ∧
    (c.code = 0x13 → (12 < a 0 → fails .setShared 6) ∧
      (a 0 ≤ 12 → (∃ l ∈ s.launches, l.die = die) → exec .setShared s = .next s) ∧
      (a 0 ≤ 12 → (∀ l ∈ s.launches, l.die ≠ die) → succeeds .setShared (onDie fun d => { d with shared := a 0 }) [])) ∧
    (c.code = 0x14 → (3 * 2 ^ 20 < a 0 → fails .setLowwater 6) ∧
      (a 0 ≤ 3 * 2 ^ 20 → die < s.dies.length → ∃ t, succeeds .setLowwater t [] ∧ (t.die die).lowWater = a 0 ∧
        { t with dies := [] } = { s with dies := [] } ∧ ∀ d, { t.die d with lowWater := 0, evicting := false } =
          { s.die d with lowWater := 0, evicting := false })) ∧
    (c.code = 0x18 →
      let ws := (s.die die).windows
      let placed := a 1 % 2 ^ 16 = 0 ∧ (a 1 < 2 ^ 54 ∨ 2 ^ 64 - 2 ^ 54 ≤ a 1)
      let fits := known (a 0) ∧ 2 ^ 16 ≤ a 2 ∧ a 2 ≤ 2 ^ 40 ∧ a 2 % 2 ^ 16 = 0 ∧ ws.length < 4096 ∧ (ws.filter (·.ctx == a 0)).length < 256
      (¬ placed → fails .windowAdd 5) ∧ (placed → ¬ fits → fails .windowAdd 6) ∧
      (placed → fits → ∃ n, (∀ x ∈ ws, x.num ≠ n) ∧ (∀ m < n, ∃ x ∈ ws, x.num = m) ∧
        succeeds .windowAdd (onDie fun d => { d with windows := d.windows ++ [⟨n, a 0, w 1, a 2, (w 3).setWidth 32⟩] }) [BitVec.ofNat 64 n])) ∧
    (c.code = 0x19 → ((∀ x ∈ (s.die die).windows, x.num ≠ a 0) → fails .windowRemove 6) ∧
      ((∃ x ∈ (s.die die).windows, x.num = a 0) →
        succeeds .windowRemove (onDie fun d => { d with windows := d.windows.filter (·.num != a 0) }) [])) ∧
    (c.code = 0x1C → (a 3 % 8 = 0 ∧ (a 3 < 2 ^ 54 ∨ 2 ^ 64 - 2 ^ 54 ≤ a 3)) →
      (s.suspendable die (w 0) (w 1) = none → fails .suspendLaunch 6) ∧
      ∀ l f, s.suspendable die (w 0) (w 1) = some l → l.frontier = some f → s.launch? die l.slot = some l →
        let room := 64 + 24 * f.lines.length + 32 * f.dispatched.length
        (a 4 < room → fails .suspendLaunch 6) ∧
        (room ≤ a 4 → (w 2).getLsbD 0 = false → succeeds .suspendLaunch (s.modifyLaunch die l.slot fun l =>
          { l with frontier := l.frontier.map fun f => { f with stopped := true }, suspend := some ⟨false, w 3, []⟩ }) []) ∧
        (room ≤ a 4 → (w 2).getLsbD 0 = true → ∃ t m g x, succeeds .suspendLaunch t [] ∧ t.launch? die l.slot = some m ∧
          m = { l with frontier := some g, suspend := some x } ∧ g.stopped = true ∧ g.lines = f.lines ∧ x.spill = true ∧ x.save = w 3 ∧
          (∀ id, id ∈ g.dispatched ↔ id ∈ f.dispatched ∧ ∀ u ∈ s.units, u.die = die → u.lslot = l.slot → u.residence = .waiting → u.unitId ≠ id) ∧
          t.mem = s.mem))

/-- RESET: every state element takes its reset value; where the images are accepted context 0, queue 0 of every die and the boot windows
stand, and the ports are up; else they stay down and nothing runs. The signature check and SHA-256 are free functions, and where page
tables and images stand is the model's choice (log entries 5 and 24). -/
def Obligations.ResetLeavesTheBootState : Prop :=
  ∀ (s : State), ∃ t, exec .reset s = .next t ∧ t.negotiated = false ∧ t.chip = 0 ∧ t.features = 0 ∧ t.units = [] ∧ t.launches = [] ∧
    t.cores = [] ∧ t.segments = [] ∧ t.requests = [] ∧ t.queries = [] ∧ t.collectives = [] ∧ t.links = [] ∧ t.clockMHz = 1750 ∧
    t.thermalStopped = false ∧ t.corrected = 0 ∧ t.uncorrected = 0 ∧ t.resets = s.resets + 1 ∧ t.flash = s.flash ∧ t.dies.length = 4 ∧
    (∀ d < 4, (t.die d).xs = 1 ∧ (t.die d).shared = 0 ∧ (t.die d).lowWater = 49152 ∧ (t.die d).intake = [] ∧ (t.die d).running = none) ∧
    let accepts := fun (m : DWord) (i : BootImage) => Config.sha256 i.bytes = i.digest ∧ Config.sha256 s.rootKey = s.rootDigest ∧
      Config.slhDsaVerify s.rootKey (natLe 32 i.digest.toNat) i.signature = true ∧ m ≤ i.svn
    let good := s.flash.length = 3 ∧ ∀ m ∈ s.minSvn, ∀ i ∈ s.flash, accepts m i
    (¬ good → t.portsUp = false ∧ t.booted = false ∧ t.bootFailed = true ∧ t.contexts = [] ∧ ∀ d < 4, (t.die d).queues = [] ∧ (t.die d).firmware = []) ∧
    (good → t.portsUp = true ∧ t.booted = true ∧ t.bootFailed = false ∧ (∃ c, t.contexts = [c] ∧ c.num = 0) ∧
      ∀ d < 4, (∃ q, (t.die d).queues = [q] ∧ q.num = 0 ∧ q.base.toNat = 0x10000000 + d * 0x100000 ∧ q.logsz = 6 ∧ q.ctx = 0 ∧
          q.rdptr.toNat = 0x10000000 + d * 0x100000 + 0x2000 ∧ q.faultrec.toNat = 0x10000000 + d * 0x100000 + 0x2040 ∧ q.rd = 0 ∧ q.tail = 0) ∧
        ((t.die d).windows.map fun w => (w.num, w.ctx, w.va.toNat, w.len, w.key.toNat)) =
          [(0, 0, 0, 2 ^ 32, 0), (1, 0, 2 ^ 40, 2 ^ 40, 0)])
end

