-- ==== Sys2Proof/Laws/Frame.lean ====
section
/-! SUPPORT. What the end of a word leaves as it was: settling, splitting, arrivals and the merge points of an interval. -/

set_option Elab.async false
set_option linter.all false

namespace Sys2Proof.Machine

variable {r s t : State}

/-! ### The relation -/

theorem Undisturbed.refl (s : State) : Undisturbed s s := ⟨rfl, fun _ => rfl, fun _ => rfl⟩

theorem Undisturbed.trans (h : Undisturbed r s) (k : Undisturbed s t) : Undisturbed r t :=
  ⟨k.elsewhere.trans h.elsewhere, fun n => (k.cores n).trans (h.cores n), fun n => (k.units n).trans (h.units n)⟩

/-- Units found in lists that have kept what is kept. -/
theorem find_kept {l m : List WorkUnit} (h : l.map WorkUnit.kept = m.map WorkUnit.kept) (uid : Nat) :
    (l.find? (·.uid == uid)).map WorkUnit.kept = (m.find? (·.uid == uid)).map WorkUnit.kept := by
  induction l generalizing m with
  | nil => cases m with | nil => rfl | cons => simp at h
  | cons a l ih =>
    cases m with
    | nil => simp at h
    | cons b m =>
      simp only [List.map_cons, List.cons.injEq] at h
      have e : a.uid = b.uid := (congrArg WorkUnit.uid h.1 : a.kept.uid = b.kept.uid)
      simp only [List.find?_cons, e]
      split
      · simp [h.1]
      · exact ih h.2

/-- A change of units that keeps what is kept. -/
theorem Undisturbed.ofUnits {us : List WorkUnit} (h : us.map WorkUnit.kept = s.units.map WorkUnit.kept) :
    Undisturbed s { s with units := us } := ⟨rfl, fun _ => rfl, fun n => find_kept h n⟩

theorem map_kept {us : List WorkUnit} {f : WorkUnit → WorkUnit} (h : ∀ u ∈ us, (f u).kept = u.kept) :
    (us.map f).map WorkUnit.kept = us.map WorkUnit.kept := by
  rw [List.map_map]
  exact List.map_congr_left h

/-! ### Slices -/

@[simp] theorem clearQ_kept (sl : Slice) : sl.clearQ.kept = sl.kept := by
  simp [Slice.clearQ, Slice.kept, Lane.kept, List.map_map, Function.comp_def]

@[simp] theorem jump_kept (sl : Slice) (a : DWord) : (sl.jump a).kept = sl.kept := by
  simp [Slice.jump, Slice.clearQ, Slice.kept, Lane.kept, List.map_map, Function.comp_def]

@[simp] theorem advance_kept (sl : Slice) (n : Nat) : (sl.advance n).kept = sl.kept := by
  unfold Slice.advance
  dsimp only
  split
  · split
    · rfl
    · exact jump_kept _ _
  · exact jump_kept _ _

theorem popOnce_kept {sl sl' : Slice} (h : sl.popOnce = some sl') : sl'.kept = sl.kept := by
  unfold Slice.popOnce at h
  split at h
  · cases h
  · dsimp only at h
    split at h
    · cases h; exact (jump_kept _ _).trans rfl
    · split at h
      · split at h <;> cases h; rfl
      · cases h
      · split at h
        · split at h <;> cases h; exact (jump_kept _ _).trans rfl
        · cases h

theorem settleGo_kept (n : Nat) (sl : Slice) : (sl.settleGo n).kept = sl.kept := by
  induction n generalizing sl with
  | zero => rfl
  | succ n ih =>
    unfold Slice.settleGo
    split
    · next e => exact (ih _).trans (popOnce_kept e)
    · rfl

theorem settle_kept {sl : Slice} (h : sl.exited ≠ 15) : sl.settle.kept = sl.kept := by
  unfold Slice.settle
  rw [if_neg h]
  exact settleGo_kept _ _

theorem phaseOver_kept (n : Nat) (sl : Slice) : (sl.phaseOver n).kept = sl.kept := rfl

theorem foldl_phaseOver_kept (l : List Nat) (sl : Slice) : (l.foldl (fun sl n => sl.phaseOver n) sl).kept = sl.kept := by
  induction l generalizing sl with
  | nil => rfl
  | cons n t ih => exact (ih _).trans (phaseOver_kept n sl)

/-! ### Units -/

/-- A unit whose slices change place by place. -/
theorem mapIdx_kept (u : WorkUnit) {f : Nat → Slice → Slice} (h : ∀ p sl, u.slices[p]? = some sl → (f p sl).kept = sl.kept) :
    (u.slices.mapIdx f).map Slice.kept = u.slices.map Slice.kept := by
  refine List.ext_getElem? fun p => ?_
  simp only [List.getElem?_map, List.getElem?_mapIdx, Option.map_map]
  cases e : u.slices[p]? with
  | none => rfl
  | some sl => simp [h p sl e]

theorem modifySlices_kept (u : WorkUnit) (ps : List Nat) {f : Slice → Slice}
    (h : ∀ p ∈ ps, (f (u.slice p)).kept = (u.slice p).kept) : (u.modifySlices ps f).kept = u.kept := by
  unfold WorkUnit.modifySlices WorkUnit.kept
  dsimp only
  rw [mapIdx_kept]
  intro p sl e
  split
  · next hp =>
    have := h p (by simpa using hp)
    rwa [show u.slice p = sl by simp [WorkUnit.slice, listAt, List.getD, e]] at this
  · rfl

theorem split_kept (u : WorkUnit) (ps : List Nat) : (u.split ps).kept = u.kept := by
  unfold WorkUnit.split WorkUnit.kept
  dsimp only
  rw [mapIdx_kept]
  intro p sl _
  split
  · split <;> rfl
  · rfl

theorem endTraps_kept (u : WorkUnit) : u.endTraps.kept = u.kept := by
  unfold WorkUnit.endTraps WorkUnit.kept
  dsimp only
  rw [List.map_map]
  congr 1
  refine List.map_congr_left fun sl _ => ?_
  simp only [Function.comp_apply]
  split
  · split <;> rfl
  · rfl

theorem closeOnce_kept (u : WorkUnit) (c : Nat → Nat → Bool) : (u.closeOnce c).kept = u.kept := by
  unfold WorkUnit.closeOnce
  split
  · rfl
  · split
    · unfold WorkUnit.kept
      dsimp only
      rw [List.map_map]
      congr 1
    · rfl

/-! ### States -/

theorem unit?_modifyUnit (s : State) (uid : Nat) {f : WorkUnit → WorkUnit} (hf : ∀ u, (f u).uid = u.uid) :
    (s.modifyUnit uid f).unit? uid = (s.unit? uid).map f := by
  unfold State.unit? State.modifyUnit
  dsimp only
  induction s.units with
  | nil => rfl
  | cons a l ih =>
    simp only [List.map_cons, List.find?_cons]
    by_cases h : a.uid = uid
    · simp [h, hf]
    · rw [if_neg h, show (a.uid == uid) = false by simp [h]]
      exact ih

theorem unit?_uid {s : State} {uid : Nat} {u : WorkUnit} (h : s.unit? uid = some u) : u.uid = uid := by
  simpa using List.find?_some h

theorem unit?_modifyUnit_other (s : State) {uid n : Nat} (h : n ≠ uid) {f : WorkUnit → WorkUnit} (hf : ∀ u, (f u).uid = u.uid) :
    (s.modifyUnit uid f).unit? n = s.unit? n := by
  unfold State.unit? State.modifyUnit
  dsimp only
  induction s.units with
  | nil => rfl
  | cons a l ih =>
    simp only [List.map_cons, List.find?_cons]
    by_cases e : a.uid = uid
    · have e' : (f a).uid ≠ n := by rw [hf, e]; exact fun k => h k.symm
      rw [if_pos e, show ((f a).uid == n) = false by simp [e'], show (a.uid == n) = false by simp [e]; exact fun k => h k.symm]
      exact ih
    · rw [if_neg e]
      split
      · rfl
      · exact ih

theorem modifyUnit_undisturbed (s : State) (uid : Nat) {f : WorkUnit → WorkUnit} (hf : ∀ u, (f u).uid = u.uid)
    (h : ∀ u, s.unit? uid = some u → (f u).kept = u.kept) : Undisturbed s (s.modifyUnit uid f) := by
  refine ⟨rfl, fun _ => rfl, fun n => ?_⟩
  by_cases e : n = uid
  · subst e
    rw [unit?_modifyUnit s n hf]
    cases k : s.unit? n with
    | none => rfl
    | some u => simp [h u k]
  · rw [unit?_modifyUnit_other s e hf]

theorem core_putCore (l : List Core) (c : Core) (n : Nat) :
    ((putCore l c).find? (·.num == n)) = if c.num = n then some c else l.find? (·.num == n) := by
  induction l with
  | nil => by_cases h : c.num = n <;> simp [putCore, h]
  | cons d t ih =>
    simp only [putCore]
    split
    · next e => by_cases h : c.num = n <;> simp [h, e]
    · split
      · by_cases h : c.num = n <;> simp [h]
      · next e _ =>
        by_cases h : d.num = n
        · have : c.num ≠ n := fun k => e (h.trans k.symm)
          simp [h, this]
        · simp [h, ih]

theorem core_num (s : State) (n : Nat) : (s.core n).num = n := by
  unfold State.core
  cases h : s.cores.find? (·.num == n) with
  | none => rfl
  | some c => simpa using List.find?_some h

theorem core_modifyCore (s : State) (n m : Nat) {f : Core → Core} (hf : ∀ c, (f c).num = c.num) :
    (s.modifyCore n f).core m = if m = n then f (s.core n) else s.core m := by
  have e : (s.modifyCore n f).core m = ((putCore s.cores (f (s.core n))).find? (·.num == m)).getD (freshCore m) := rfl
  rw [e, core_putCore, hf, core_num]
  by_cases h : n = m
  · simp [h]
  · have : m ≠ n := fun k => h k.symm
    simp [h, this, State.core]

/-- A bank read after a change of a bank, of the same core or of another. -/
theorem bank_modifyBank (s : State) (core bank c b : Nat) (f : Bank → Bank) :
    (s.modifyBank core bank f).bank c b = if c = core ∧ (b = 0 ↔ bank = 0) then f (s.bank c b) else s.bank c b := by
  unfold State.modifyBank State.bank
  rw [core_modifyCore _ _ _ fun c => by unfold Core.modifyBank; split <;> rfl]
  by_cases h : c = core
  · subst h
    by_cases h0 : b = 0 <;> by_cases h1 : bank = 0 <;> simp [Core.bank, Core.modifyBank, h0, h1]
  · simp [h]

theorem modifyBank_undisturbed (s : State) (core bank : Nat) {f : Bank → Bank}
    (h : ∀ b, { f b with barriers := [] } = { b with barriers := [] }) :
    Undisturbed s (s.modifyBank core bank f) := by
  refine ⟨rfl, fun n => ?_, fun _ => rfl⟩
  unfold State.modifyBank
  rw [core_modifyCore]
  case hf => exact fun c => by unfold Core.modifyBank; split <;> rfl
  split
  · next e =>
    subst e
    unfold Core.kept Core.modifyBank
    split <;> simp [h]
  · rfl

theorem settleBarriers_undisturbed (s : State) (core bank : Nat) : Undisturbed s (s.settleBarriers core bank) := by
  unfold State.settleBarriers
  refine (modifyBank_undisturbed s core bank (f := _) ?_).trans (Undisturbed.ofUnits (map_kept fun u _ => ?_))
  · exact fun _ => rfl
  · split
    · unfold WorkUnit.kept
      dsimp only
      rw [List.map_map]
      congr 1
      exact List.map_congr_left fun sl _ => foldl_phaseOver_kept _ _
    · rfl

theorem refreshArrivals_undisturbed (s : State) (uid : Nat) : Undisturbed s (s.refreshArrivals uid) := by
  unfold State.refreshArrivals
  split
  · exact .refl s
  · dsimp only
    refine Undisturbed.trans (modifyBank_undisturbed s _ _ ?_) (settleBarriers_undisturbed _ _ _)
    exact fun _ => rfl

/-! ### The end of a word -/

/-- A unit found in a list whose units have changed and kept a part. -/
theorem find_part {β : Type} (part : WorkUnit → β) {l : List WorkUnit} {f : WorkUnit → WorkUnit} (hu : ∀ u, (f u).uid = u.uid)
    (hp : ∀ u, part (f u) = part u) (n : Nat) :
    ((l.map f).find? (·.uid == n)).map part = (l.find? (·.uid == n)).map part := by
  induction l with
  | nil => rfl
  | cons a l ih =>
    simp only [List.map_cons, List.find?_cons, hu]
    split
    · simp [hp]
    · exact ih

/-- What a merge leaves of every unit: its interval's number and its slices. -/
def WorkUnit.unmerged (u : WorkUnit) : Nat × List Slice := (u.interval, u.slices)

theorem mergeByte_unmerged (s : State) (u : WorkUnit) (e : Nat × Byte) (n : Nat) :
    ((s.mergeByte u e).unit? n).map WorkUnit.unmerged = (s.unit? n).map WorkUnit.unmerged := by
  have r : (s.revive e.1).units = s.units := by
    unfold State.revive
    split <;> rfl
  unfold State.mergeByte State.unit?
  dsimp only
  rw [r]
  refine find_part WorkUnit.unmerged (fun x => ?_) (fun x => ?_) n
  · split
    · rfl
    · split <;> rfl
  · split
    · rfl
    · split <;> rfl

theorem settleSectors_units (s : State) (ctx : Nat) (ws : List (Nat × Nat)) : (s.settleSectors ctx ws).units = s.units := by
  have key : ∀ (l : List Nat) (s : State) (f : State → Nat → State), (∀ s k, (f s k).units = s.units) → (l.foldl f s).units = s.units := by
    intro l
    induction l with
    | nil => intro s f _; rfl
    | cons k l ih => intro s f h; exact (ih _ f h).trans (h s k)
  unfold State.settleSectors
  refine key _ _ _ fun s k => ?_
  dsimp only
  split <;> rfl

theorem mergeUnit_unmerged (s : State) (u : WorkUnit) (n : Nat) :
    ((s.mergeUnit u).unit? n).map WorkUnit.unmerged = (s.unit? n).map WorkUnit.unmerged := by
  have key : ∀ (l : List (Nat × Byte)) (s : State),
      ((l.foldl (fun s e => s.mergeByte u e) s).unit? n).map WorkUnit.unmerged = (s.unit? n).map WorkUnit.unmerged := by
    intro l
    induction l with
    | nil => intro s; rfl
    | cons e l ih => intro s; exact (ih _).trans (mergeByte_unmerged s u e n)
  have w : ((s.mergeWords u u.buffer).unit? n).map WorkUnit.unmerged = (s.unit? n).map WorkUnit.unmerged := by
    unfold State.mergeWords
    unfold State.unit?
    rw [settleSectors_units]
    exact key _ s
  refine Eq.trans ?_ w
  exact find_part WorkUnit.unmerged (fun x => by split <;> rfl) (fun x => by split <;> rfl) n

/-- The end of an interval: the unit is there, one interval on, with slices that have exited as before. -/
theorem endInterval_unit {s : State} {u v : WorkUnit} (k : Nat) (h : s.unit? u.uid = some v) :
    ∃ w, (s.endInterval u k).unit? u.uid = some w ∧ w.interval = v.interval + 1 ∧
      w.slices.all Slice.hasExited = v.slices.all Slice.hasExited := by
  unfold State.endInterval
  dsimp only
  split
  · rw [unit?_modifyUnit]
    case hf => exact fun _ => rfl
    have m := mergeUnit_unmerged s u u.uid
    rw [h] at m
    cases e : (s.mergeUnit u).unit? u.uid with
    | none => rw [e] at m; cases m
    | some w =>
      rw [e] at m
      simp [WorkUnit.unmerged] at m
      refine ⟨_, rfl, by simp [m], ?_⟩
      simp only [List.all_map, m.2]
      rfl
  · rw [unit?_modifyUnit, h]
    case hf => exact fun _ => rfl
    refine ⟨_, rfl, rfl, ?_⟩
    simp only [List.all_map]
    rfl

theorem refreshOnce_undisturbed (s : State) (uid : Nat)
    (h : ((s.refreshOnce uid).unit? uid).map (·.interval) = (s.unit? uid).map (·.interval)) : Undisturbed s (s.refreshOnce uid) := by
  unfold State.refreshOnce at h ⊢
  split
  · exact .refl s
  · next u e =>
    split
    · exact .refl s
    · next l e' =>
      rw [e] at h
      dsimp only at h ⊢
      rw [e'] at h
      dsimp only at h
      have hu : ∀ (u : WorkUnit) c, (u.closeOnce c).uid = u.uid := fun u c =>
        (congrArg WorkUnit.uid (closeOnce_kept u c) : (u.closeOnce c).kept.uid = u.kept.uid)
      have hi : ∀ (u : WorkUnit) c, (u.closeOnce c).interval = u.interval := fun u c =>
        (congrArg WorkUnit.interval (closeOnce_kept u c) : (u.closeOnce c).kept.interval = u.kept.interval)
      have c : Undisturbed s (s.modifyUnit uid fun u => u.closeOnce fun scope k => l.closed.contains (scope, u.wset, k)) :=
        modifyUnit_undisturbed s uid (fun u => hu u _) fun u _ => closeOnce_kept u _
      split
      · next m =>
        exfalso
        rw [if_pos m] at h
        have x := unit?_modifyUnit s uid (f := fun u => u.closeOnce fun scope k => l.closed.contains (scope, u.wset, k)) fun u => hu u _
        rw [e] at x
        have n := unit?_uid e
        subst n
        obtain ⟨w, hw, hn, -⟩ := endInterval_unit l.kind x
        rw [hw] at h
        simp [hi] at hn
        simp [hn] at h
      · exact c

theorem Undisturbed.interval (h : Undisturbed s t) (n : Nat) : (t.unit? n).map (·.interval) = (s.unit? n).map (·.interval) := by
  have := congrArg (Option.map (·.interval)) (h.units n)
  simpa [Option.map_map, Function.comp_def, WorkUnit.kept] using this

theorem Undisturbed.some (h : Undisturbed s t) {n : Nat} {u : WorkUnit} (hu : s.unit? n = some u) :
    ∃ v, t.unit? n = some v ∧ v.kept = u.kept := by
  have e := h.units n
  rw [hu] at e
  cases k : t.unit? n with
  | none => rw [k] at e; cases e
  | some v => rw [k] at e; simp at e; exact ⟨v, rfl, e⟩

/-- Every slice of a unit that has kept what is kept has exited as before. -/
theorem exited_of_kept {u v : WorkUnit} (e : v.kept = u.kept) : v.slices.all Slice.hasExited = u.slices.all Slice.hasExited := by
  have e := congrArg (fun w : WorkUnit => w.slices.all fun sl => sl.exited == 15) e
  have k : ∀ w : WorkUnit, (w.kept.slices.all fun sl => sl.exited == 15) = w.slices.all Slice.hasExited := by
    intro w
    simp only [WorkUnit.kept, List.all_map]
    rfl
  simpa only [k] using e

/-- One look at what the unit has completed ends no slice. -/
theorem refreshOnce_exited (s : State) (uid : Nat) {u v : WorkUnit} (hu : s.unit? uid = some u)
    (hv : (s.refreshOnce uid).unit? uid = some v) : v.slices.all Slice.hasExited = u.slices.all Slice.hasExited := by
  have hi : ∀ (u : WorkUnit) c, (u.closeOnce c).uid = u.uid := fun u c =>
    (congrArg WorkUnit.uid (closeOnce_kept u c) : (u.closeOnce c).kept.uid = u.kept.uid)
  unfold State.refreshOnce at hv
  rw [hu] at hv
  dsimp only at hv
  cases e : s.launch? u.die u.lslot with
  | none => rw [e] at hv; rw [hu] at hv; cases hv; rfl
  | some l =>
    rw [e] at hv
    dsimp only at hv
    have x := unit?_modifyUnit s uid (f := fun u => u.closeOnce fun scope k => l.closed.contains (scope, u.wset, k)) fun u => hi u _
    rw [hu] at x
    have n := unit?_uid hu
    split at hv
    · subst n
      obtain ⟨w, hw, -, he⟩ := endInterval_unit l.kind x
      rw [hw] at hv
      cases hv
      rw [he]
      exact exited_of_kept (closeOnce_kept _ _)
    · rw [x] at hv
      cases hv
      exact exited_of_kept (closeOnce_kept _ _)

theorem afterSlices_undisturbed (s : State) (uid : Nat) {u : WorkUnit} (hu : s.unit? uid = some u)
    (hx : u.slices.all Slice.hasExited = false)
    (h : ((s.afterSlices uid).unit? uid).map (·.interval) = (s.unit? uid).map (·.interval)) : Undisturbed s (s.afterSlices uid) := by
  have k : Undisturbed s ((s.modifyUnit uid WorkUnit.endTraps).refreshArrivals uid) := by
    refine (modifyUnit_undisturbed s uid (f := WorkUnit.endTraps) (fun _ => rfl) ?_).trans (refreshArrivals_undisturbed _ _)
    exact fun u _ => endTraps_kept u
  unfold State.afterSlices at h ⊢
  dsimp only at h ⊢
  generalize (s.modifyUnit uid WorkUnit.endTraps).refreshArrivals uid = r at *
  obtain ⟨v, hv, ev⟩ := k.some hu
  cases e : (r.refreshOnce uid).unit? uid with
  | none =>
    rw [e] at h
    dsimp only at h ⊢
    rw [e, hu] at h
    cases h
  | some w =>
    have nx : ¬ (w.residence = .resident ∧ w.slices.all Slice.hasExited) := by
      rw [refreshOnce_exited r uid hv e, exited_of_kept ev, hx]
      exact fun x => Bool.noConfusion x.2
    rw [e] at h
    dsimp only at h ⊢
    rw [if_neg nx] at h ⊢
    exact k.trans (refreshOnce_undisturbed r uid (h.trans (k.interval uid).symm))

/-- A unit whose gang's slices are settled and split has kept what is kept. -/
theorem settleSplit_kept (u : WorkUnit) (ps : List Nat) (h : ∀ p ∈ ps, (u.slice p).hasExited = false) :
    ((u.modifySlices ps Slice.settle).split ps).kept = u.kept := by
  rw [split_kept, modifySlices_kept]
  intro p hp
  refine settle_kept fun e => ?_
  have := h p hp
  simp [Slice.hasExited, e] at this

theorem settleGang_undisturbed (s : State) (uid : Nat) (ps : List Nat) {u : WorkUnit} (hu : s.unit? uid = some u)
    (hp : ∀ p ∈ ps, (u.slice p).hasExited = false) (hx : u.slices.all Slice.hasExited = false)
    (h : ((s.settleGang uid ps).unit? uid).map (·.interval) = (s.unit? uid).map (·.interval)) :
    Undisturbed s (s.settleGang uid ps) := by
  have k : Undisturbed s (s.modifyUnit uid fun u => (u.modifySlices ps Slice.settle).split ps) := by
    refine modifyUnit_undisturbed s uid (fun _ => rfl) fun v hv => ?_
    rw [hu] at hv
    cases hv
    exact settleSplit_kept u ps hp
  unfold State.settleGang at h ⊢
  dsimp only at h ⊢
  generalize (s.modifyUnit uid fun u => (u.modifySlices ps Slice.settle).split ps) = r at *
  obtain ⟨v, hv, ev⟩ := k.some hu
  exact k.trans (afterSlices_undisturbed r uid hv ((exited_of_kept ev).trans hx) (h.trans (k.interval uid).symm))

theorem modifySlices_slice (u : WorkUnit) (ps : List Nat) (f : Slice → Slice) {p : Nat} (h : p < u.slices.length) :
    (u.modifySlices ps f).slice p = if ps.contains p then f (u.slice p) else u.slice p := by
  simp [WorkUnit.slice, WorkUnit.modifySlices, listAt, List.getD, h]

/-- A word that is done has disturbed nothing, unless its unit's interval has ended with it (R402, R404). -/
theorem finishWord_undisturbed (s : State) (g : Gang) (y : Bool) (n : Nat) {u : WorkUnit} (hu : s.unit? g.u.uid = some u)
    (hp : ∀ p ∈ g.ps, p < u.slices.length ∧ (u.slice p).hasExited = false) (hx : g.ps ≠ [])
    (h : ((s.finishWord g y n).unit? g.u.uid).map (·.interval) = (s.unit? g.u.uid).map (·.interval)) :
    Undisturbed s (s.finishWord g y n) := by
  have ka : ∀ sl : Slice, (({ sl with parked := y, wait := .none, ringHeld := 0 } : Slice).advance n).kept = sl.kept :=
    fun sl => (advance_kept _ n).trans rfl
  have xa : ∀ sl : Slice, (({ sl with parked := y, wait := .none, ringHeld := 0 } : Slice).advance n).hasExited = sl.hasExited :=
    fun sl => show (Slice.kept _).hasExited = sl.kept.hasExited from congrArg Slice.hasExited (ka sl)
  have k : Undisturbed s (s.modifyUnit g.u.uid fun u =>
      u.modifySlices g.ps fun sl => ({ sl with parked := y, wait := .none, ringHeld := 0 }).advance n) := by
    refine modifyUnit_undisturbed s _ (fun _ => rfl) fun v _ => modifySlices_kept v _ fun p _ => ka _
  have e := unit?_modifyUnit s g.u.uid (f := fun u : WorkUnit =>
    u.modifySlices g.ps fun sl => ({ sl with parked := y, wait := .none, ringHeld := 0 } : Slice).advance n) fun _ => rfl
  rw [hu] at e
  unfold State.finishWord at h ⊢
  dsimp only at h ⊢
  generalize (s.modifyUnit g.u.uid fun u =>
      u.modifySlices g.ps fun sl => ({ sl with parked := y, wait := .none, ringHeld := 0 }).advance n) = r at *
  obtain ⟨v, hv, ev⟩ := k.some hu
  rw [hv] at e
  simp only [Option.map_some, Option.some.injEq] at e
  refine k.trans (settleGang_undisturbed r _ _ hv (fun p m => ?_) ?_ (h.trans (k.interval _).symm))
  · rw [e, modifySlices_slice _ _ _ (hp p m).1, if_pos (by simpa using m), xa]
    exact (hp p m).2
  · rw [exited_of_kept ev]
    obtain ⟨p, m⟩ := List.exists_mem_of_ne_nil _ hx
    refine Bool.eq_false_iff.2 fun all => ?_
    rw [List.all_eq_true] at all
    have := all (u.slice p) (by
      simp only [WorkUnit.slice, listAt, List.getD, List.getElem?_eq_getElem (hp p m).1]
      exact List.getElem_mem _)
    rw [(hp p m).2] at this
    cases this

/-! ### Registers at the end of a word -/

theorem kept_kept (l : List Lane) : (l.map Lane.kept).map Lane.kept = l.map Lane.kept := by
  simp [Lane.kept, Function.comp_def]

theorem Slice.EndsAs.trans {a b c : Slice} (h : a.EndsAs b) (k : b.EndsAs c) (e : b.clause = none → c.clause = none) : a.EndsAs c := by
  refine ⟨k.scalars.trans h.scalars, k.lanes.trans ?_⟩
  rw [h.lanes]
  by_cases x : b.clause = none
  · rw [if_pos x, if_pos (e x), if_pos (e x), kept_kept]
  · rw [if_neg x]

theorem jump_ends (sl : Slice) (a : DWord) : sl.EndsAs (sl.jump a) := ⟨rfl, rfl⟩

theorem popOnce_ends {a sl sl' : Slice} (h : a.EndsAs sl) (e : sl.popOnce = some sl') : a.EndsAs sl' := by
  have j : ∀ (x : Slice) (d : DWord), x.s = sl.s → x.lanes = sl.lanes → a.EndsAs (x.jump d) := fun x d hs hl =>
    h.trans (c := x.jump d) ⟨hs, by rw [show (x.jump d).lanes = x.lanes.map Lane.kept from rfl, hl]; rfl⟩ fun _ => rfl
  unfold Slice.popOnce at e
  split at e
  · cases e
  · dsimp only at e
    split at e
    · cases e; exact j _ _ rfl rfl
    · split at e
      · split at e <;> cases e; exact ⟨h.scalars, h.lanes⟩
      · cases e
      · split at e
        · split at e <;> cases e; exact j _ _ rfl rfl
        · cases e

theorem settleGo_ends {a sl : Slice} (n : Nat) (h : a.EndsAs sl) : a.EndsAs (sl.settleGo n) := by
  induction n generalizing sl with
  | zero => exact h
  | succ n ih =>
    unfold Slice.settleGo
    split
    · next e => exact ih (popOnce_ends h e)
    · exact h

theorem settle_ends {a sl : Slice} (h : a.EndsAs sl) : a.EndsAs sl.settle := by
  unfold Slice.settle
  split
  · exact ⟨h.scalars, h.lanes⟩
  · exact settleGo_ends _ h

theorem advance_ends (sl : Slice) (n : Nat) : sl.EndsAs (sl.advance n) := by
  unfold Slice.advance
  dsimp only
  split
  · next c e =>
    split
    · exact ⟨rfl, by simp [e]⟩
    · exact jump_ends _ _
  · exact jump_ends _ _

/-- Registers, scalar registers and clause of a slice. -/
def Slice.parts (sl : Slice) : List (Nat × Word) × List Lane × Option Clause := (sl.s, sl.lanes, sl.clause)

/-- The same of a unit's slices. -/
def WorkUnit.parts (u : WorkUnit) : List (List (Nat × Word) × List Lane × Option Clause) := u.slices.map Slice.parts

theorem Slice.EndsAs.parts {a sl sl' : Slice} (h : a.EndsAs sl) (e : sl'.parts = sl.parts) : a.EndsAs sl' := by
  simp only [Slice.parts, Prod.mk.injEq] at e
  exact ⟨e.1.trans h.scalars, by rw [e.2.2, e.2.1]; exact h.lanes⟩

theorem WorkUnit.EndsAs.parts {u v w : WorkUnit} {ps : List Nat} (h : u.EndsAs v ps) (e : w.parts = v.parts) : u.EndsAs w ps := by
  have l : w.slices.length = v.slices.length := by simpa [WorkUnit.parts] using congrArg List.length e
  have k : ∀ p, (w.slice p).parts = (v.slice p).parts := by
    intro p
    have := congrArg (fun l => l[p]?) e
    simp only [WorkUnit.parts, List.getElem?_map] at this
    simp only [WorkUnit.slice, listAt, List.getD]
    cases a : w.slices[p]? <;> cases b : v.slices[p]? <;> simp [a, b] at this ⊢
    exact this
  refine ⟨l.trans h.length, fun p m => (h.mine p m).parts (k p), fun p m => ?_⟩
  have := k p
  simp only [Slice.parts, Prod.mk.injEq] at this
  exact ⟨this.1.trans (h.others p m).1, this.2.1.trans (h.others p m).2⟩

/-- Changes of units that keep the parts. -/
theorem parts_modifyUnit (s : State) (uid n : Nat) {f : WorkUnit → WorkUnit} (hu : ∀ u, (f u).uid = u.uid)
    (hp : ∀ u, (f u).parts = u.parts) : ((s.modifyUnit uid f).unit? n).map WorkUnit.parts = (s.unit? n).map WorkUnit.parts :=
  find_part WorkUnit.parts (f := fun u => if u.uid = uid then f u else u) (fun u => by split <;> simp [hu])
    (fun u => by split <;> simp [hp]) n

theorem slices_parts (u : WorkUnit) {f : Slice → Slice} (h : ∀ sl, (f sl).parts = sl.parts) :
    ({ u with slices := u.slices.map f } : WorkUnit).parts = u.parts := by
  simp [WorkUnit.parts, Function.comp_def, h]

theorem endTraps_parts (u : WorkUnit) : u.endTraps.parts = u.parts := by
  unfold WorkUnit.endTraps WorkUnit.parts
  dsimp only
  rw [List.map_map]
  refine List.map_congr_left fun sl _ => ?_
  simp only [Function.comp_apply]
  split
  · split <;> rfl
  · rfl

theorem foldl_phaseOver_parts (l : List Nat) (sl : Slice) : (l.foldl (fun sl n => sl.phaseOver n) sl).parts = sl.parts := by
  induction l generalizing sl with
  | nil => rfl
  | cons n t ih => exact (ih _).trans rfl

theorem settleBarriers_parts (s : State) (core bank n : Nat) :
    ((s.settleBarriers core bank).unit? n).map WorkUnit.parts = (s.unit? n).map WorkUnit.parts := by
  unfold State.settleBarriers
  refine find_part WorkUnit.parts (fun u => ?_) (fun u => ?_) n
  · split <;> rfl
  · split
    · exact slices_parts u fun sl => foldl_phaseOver_parts _ _
    · rfl

theorem refreshArrivals_parts (s : State) (uid n : Nat) :
    ((s.refreshArrivals uid).unit? n).map WorkUnit.parts = (s.unit? n).map WorkUnit.parts := by
  unfold State.refreshArrivals
  split
  · rfl
  · exact settleBarriers_parts _ _ _ _

theorem closeOnce_uid (u : WorkUnit) (c : Nat → Nat → Bool) : (u.closeOnce c).uid = u.uid :=
  (congrArg WorkUnit.uid (closeOnce_kept u c) : (u.closeOnce c).kept.uid = u.kept.uid)

theorem closeOnce_parts (u : WorkUnit) (c : Nat → Nat → Bool) : (u.closeOnce c).parts = u.parts := by
  unfold WorkUnit.closeOnce
  split
  · rfl
  · split
    · unfold WorkUnit.parts
      dsimp only
      rw [List.map_map]
      rfl
    · rfl

theorem mergeUnit_parts (s : State) (u : WorkUnit) (n : Nat) :
    ((s.mergeUnit u).unit? n).map WorkUnit.parts = (s.unit? n).map WorkUnit.parts := by
  have := congrArg (Option.map fun x : Nat × List Slice => x.2.map Slice.parts) (mergeUnit_unmerged s u n)
  simp only [Option.map_map] at this
  exact this

theorem endInterval_parts (s : State) (u : WorkUnit) (k n : Nat) :
    ((s.endInterval u k).unit? n).map WorkUnit.parts = (s.unit? n).map WorkUnit.parts := by
  unfold State.endInterval
  dsimp only
  split
  · refine (parts_modifyUnit _ _ _ ?_ ?_).trans (mergeUnit_parts s u n)
    · exact fun _ => rfl
    · exact fun u => slices_parts u fun _ => rfl
  · refine parts_modifyUnit _ _ _ ?_ ?_
    · exact fun _ => rfl
    · exact fun u => slices_parts u fun _ => rfl

theorem refreshOnce_parts (s : State) (uid n : Nat) :
    ((s.refreshOnce uid).unit? n).map WorkUnit.parts = (s.unit? n).map WorkUnit.parts := by
  unfold State.refreshOnce
  split
  · rfl
  · split
    · rfl
    · dsimp only
      split
      · exact (endInterval_parts _ _ _ _).trans (parts_modifyUnit _ _ _ (closeOnce_uid · _) (closeOnce_parts · _))
      · exact parts_modifyUnit _ _ _ (closeOnce_uid · _) (closeOnce_parts · _)

theorem freeUnit_parts (s : State) (u : WorkUnit) (n : Nat) :
    ((s.freeUnit u).unit? n).map WorkUnit.parts = (s.unit? n).map WorkUnit.parts := by
  unfold State.freeUnit
  dsimp only
  split
  · exact settleBarriers_parts _ _ _ _
  · rfl

theorem exitUnit_parts (s : State) (u : WorkUnit) (n : Nat) :
    ((s.exitUnit u).unit? n).map WorkUnit.parts = (s.unit? n).map WorkUnit.parts := by
  unfold State.exitUnit
  split
  · rfl
  · dsimp only
    have e : (((s.freeUnit u).modifyUnit u.uid fun x =>
        { x with residence := .exited, slices := x.slices.map Slice.ended, bkpts := [],
                 releases := x.releases ++ s.exitReleases u }).unit? n).map WorkUnit.parts = (s.unit? n).map WorkUnit.parts := by
      refine (parts_modifyUnit _ _ _ ?_ ?_).trans (freeUnit_parts s u n)
      · exact fun _ => rfl
      · exact fun u => slices_parts u fun _ => rfl
    have f : ∀ r : State, (r.unit? n).map WorkUnit.parts = (s.unit? n).map WorkUnit.parts → ∀ (p : Prop) [Decidable p] (l : Nat),
        ((if p then r.passTurn u.die u.lslot l else r).unit? n).map WorkUnit.parts = (s.unit? n).map WorkUnit.parts := by
      intro r h p _ l
      split
      · exact h
      · exact h
    split
    · exact (mergeUnit_parts _ u n).trans (f _ e _ _)
    · exact f _ e _ _

theorem afterSlices_parts (s : State) (uid n : Nat) :
    ((s.afterSlices uid).unit? n).map WorkUnit.parts = (s.unit? n).map WorkUnit.parts := by
  have e : ((((s.modifyUnit uid WorkUnit.endTraps).refreshArrivals uid).refreshOnce uid).unit? n).map WorkUnit.parts =
      (s.unit? n).map WorkUnit.parts := by
    refine (refreshOnce_parts _ _ _).trans ((refreshArrivals_parts _ _ _).trans (parts_modifyUnit _ _ _ ?_ ?_))
    · exact fun _ => rfl
    · exact endTraps_parts
  unfold State.afterSlices
  dsimp only
  split
  · exact e
  · split
    · exact (exitUnit_parts _ _ _).trans e
    · exact e

theorem split_parts (u : WorkUnit) (ps : List Nat) : (u.split ps).parts = u.parts := by
  unfold WorkUnit.split WorkUnit.parts
  dsimp only
  refine List.ext_getElem? fun p => ?_
  simp only [List.getElem?_map, List.getElem?_mapIdx, Option.map_map]
  congr 1
  funext sl
  simp only [Function.comp_apply]
  split
  · split <;> rfl
  · rfl

/-- A unit whose slices ps each come to an end of a word. -/
theorem modifySlices_ends (u : WorkUnit) {ps : List Nat} {f : Slice → Slice} (h : ∀ p ∈ ps, p < u.slices.length)
    (hf : ∀ sl : Slice, sl.EndsAs (f sl)) : u.EndsAs (u.modifySlices ps f) ps := by
  refine ⟨by simp [WorkUnit.modifySlices], fun p m => ?_, fun p m => ?_⟩
  · rw [modifySlices_slice _ _ _ (h p m), if_pos (by simpa using m)]
    exact hf _
  · by_cases l : p < u.slices.length
    · rw [modifySlices_slice _ _ _ l, if_neg (by simpa using m)]
      exact ⟨rfl, rfl⟩
    · simp [WorkUnit.slice, WorkUnit.modifySlices, listAt, List.getD, l]

theorem settleGang_parts {s : State} {uid : Nat} {ps : List Nat} {w : WorkUnit} (h : s.unit? uid = some w) :
    ∃ v, (s.settleGang uid ps).unit? uid = some v ∧ v.parts = (w.modifySlices ps Slice.settle).parts := by
  have e := afterSlices_parts (s.modifyUnit uid fun u => (u.modifySlices ps Slice.settle).split ps) uid uid
  rw [unit?_modifyUnit] at e
  case hf => exact fun _ => rfl
  rw [h] at e
  have r : s.settleGang uid ps = (s.modifyUnit uid fun u => (u.modifySlices ps Slice.settle).split ps).afterSlices uid := rfl
  rw [← r] at e
  cases k : (s.settleGang uid ps).unit? uid with
  | none => rw [k] at e; cases e
  | some v =>
    rw [k] at e
    simp only [Option.map_some, Option.some.injEq] at e
    exact ⟨v, rfl, e.trans (split_parts _ _)⟩

theorem modifySlices_twice (u : WorkUnit) (ps : List Nat) (f g : Slice → Slice) :
    (u.modifySlices ps f).modifySlices ps g = u.modifySlices ps fun sl => g (f sl) := by
  unfold WorkUnit.modifySlices
  dsimp only
  congr 1
  refine List.ext_getElem? fun p => ?_
  simp only [List.getElem?_mapIdx, Option.map_map]
  congr 1
  funext sl
  simp only [Function.comp_apply]
  split <;> rfl

theorem finishWord_unit (s : State) (g : Gang) (y : Bool) (n : Nat) {u : WorkUnit} (hu : s.unit? g.u.uid = some u)
    (hp : ∀ p ∈ g.ps, p < u.slices.length) : ∃ v, (s.finishWord g y n).unit? g.u.uid = some v ∧ u.EndsAs v g.ps := by
  let f : Slice → Slice := fun sl => ({ sl with parked := y, wait := .none, ringHeld := 0 } : Slice).advance n
  have hf : ∀ sl : Slice, sl.EndsAs (f sl) := fun sl =>
    have h := advance_ends ({ sl with parked := y, wait := .none, ringHeld := 0 } : Slice) n
    ⟨h.scalars, h.lanes⟩
  have e := unit?_modifyUnit s g.u.uid (f := fun u : WorkUnit => u.modifySlices g.ps f) fun _ => rfl
  rw [hu] at e
  obtain ⟨v, hv, ev⟩ := settleGang_parts (ps := g.ps) e
  refine ⟨v, hv, WorkUnit.EndsAs.parts ?_ ev⟩
  rw [modifySlices_twice]
  exact modifySlices_ends u hp fun sl => settle_ends (hf sl)

/-- The end of a word of a gang whose slices are there and run. -/
theorem finishWord_follows (s : State) (g : Gang) (y : Bool) (n : Nat) {u : WorkUnit} (hu : s.unit? g.u.uid = some u)
    (hp : ∀ p ∈ g.ps, p < u.slices.length ∧ (u.slice p).hasExited = false) (hx : g.ps ≠ []) :
    Follows s (s.finishWord g y n) g.u.uid g.ps := by
  refine ⟨fun w hw => ?_, finishWord_undisturbed s g y n hu hp hx⟩
  rw [hu] at hw
  cases hw
  exact finishWord_unit s g y n hu fun p m => (hp p m).1

/-- What the gang whose turn it is stands for. -/
theorem gang_is {s : State} {g : Gang} (h : s.gang = some g) :
    s.unit? g.u.uid = some g.u ∧ (∀ p ∈ g.ps, p < g.u.slices.length ∧ (g.u.slice p).hasExited = false) ∧ g.ps ≠ [] := by
  unfold State.gang State.gangOf at h
  split at h
  · cases h
  · next u hu =>
    split at h
    · dsimp only at h
      split at h
      · next hr =>
        cases h
        refine ⟨by rw [unit?_uid hu]; exact hu, fun p m => ?_, hr.2⟩
        simp only [WorkUnit.positions, List.mem_filter, List.mem_range, Bool.and_eq_true] at m
        exact ⟨m.1, by simpa using m.2.2⟩
      · cases h
    · cases h

/-- The end of a word that has set its slices' PCs itself disturbs nothing further. -/
theorem finishJump_undisturbed (s : State) (g : Gang) (y : Bool) {u : WorkUnit} (hu : s.unit? g.u.uid = some u)
    (hp : ∀ p ∈ g.ps, p < u.slices.length ∧ (u.slice p).hasExited = false) (hx : g.ps ≠ [])
    (h : ((s.finishJump g y).unit? g.u.uid).map (·.interval) = (s.unit? g.u.uid).map (·.interval)) :
    Undisturbed s (s.finishJump g y) := by
  let f : Slice → Slice := fun sl => { sl with parked := y && !sl.hasExited, wait := .none }
  have e := unit?_modifyUnit s g.u.uid (f := fun u : WorkUnit => u.modifySlices g.ps f) fun _ => rfl
  rw [hu] at e
  have k : Undisturbed s (s.modifyUnit g.u.uid fun u => u.modifySlices g.ps f) := by
    refine modifyUnit_undisturbed s _ (fun _ => rfl) fun v _ => modifySlices_kept v _ fun p _ => rfl
  unfold State.finishJump at h ⊢
  dsimp only at h ⊢
  change ((State.settleGang (s.modifyUnit g.u.uid fun u => u.modifySlices g.ps f) g.u.uid g.ps).unit? g.u.uid).map _ = _ at h
  change Undisturbed s (State.settleGang (s.modifyUnit g.u.uid fun u => u.modifySlices g.ps f) g.u.uid g.ps)
  generalize (s.modifyUnit g.u.uid fun u => u.modifySlices g.ps f) = r at *
  obtain ⟨v, hv, ev⟩ := k.some hu
  rw [hv] at e
  simp only [Option.map_some, Option.some.injEq] at e
  refine k.trans (settleGang_undisturbed r _ _ hv (fun p m => ?_) ?_ (h.trans (k.interval _).symm))
  · rw [e, modifySlices_slice _ _ _ (hp p m).1, if_pos (by simpa using m)]
    exact (hp p m).2
  · rw [exited_of_kept ev]
    obtain ⟨p, m⟩ := List.exists_mem_of_ne_nil _ hx
    refine Bool.eq_false_iff.2 fun all => ?_
    rw [List.all_eq_true] at all
    have := all (u.slice p) (by
      simp only [WorkUnit.slice, listAt, List.getD, List.getElem?_eq_getElem (hp p m).1]
      exact List.getElem_mem _)
    rw [(hp p m).2] at this
    cases this

/-- The registers of a unit at that end, whether or not lanes end with it. -/
theorem finishJump_unit (s : State) (g : Gang) (y : Bool) {u : WorkUnit} (hu : s.unit? g.u.uid = some u)
    (hp : ∀ p ∈ g.ps, p < u.slices.length ∧ ((u.slice p).clause = none → (u.slice p).lanes = (u.slice p).lanes.map Lane.kept)) :
    ∃ v, (s.finishJump g y).unit? g.u.uid = some v ∧ u.EndsAs v g.ps := by
  let f : Slice → Slice := fun sl => { sl with parked := y && !sl.hasExited, wait := .none }
  have e := unit?_modifyUnit s g.u.uid (f := fun u : WorkUnit => u.modifySlices g.ps f) fun _ => rfl
  rw [hu] at e
  obtain ⟨v, hv, ev⟩ := settleGang_parts (ps := g.ps) e
  refine ⟨v, hv, WorkUnit.EndsAs.parts ?_ ev⟩
  rw [modifySlices_twice]
  refine ⟨by simp [WorkUnit.modifySlices], fun p m => ?_, fun p m => ?_⟩
  · rw [modifySlices_slice _ _ _ (hp p m).1, if_pos (by simpa using m)]
    refine settle_ends ⟨rfl, ?_⟩
    show (u.slice p).lanes = if (u.slice p).clause = none then _ else _
    split
    · next n => exact (hp p m).2 n
    · rfl
  · by_cases l : p < u.slices.length
    · rw [modifySlices_slice _ _ _ l, if_neg (by simpa using m)]
      exact ⟨rfl, rfl⟩
    · simp [WorkUnit.slice, WorkUnit.modifySlices, listAt, List.getD, l]

/-- Both together. -/
theorem finishJump_follows (s : State) (g : Gang) (y : Bool) {u : WorkUnit} (hu : s.unit? g.u.uid = some u)
    (hp : ∀ p ∈ g.ps, p < u.slices.length ∧ (u.slice p).hasExited = false ∧ ((u.slice p).clause = none →
      (u.slice p).lanes = (u.slice p).lanes.map Lane.kept)) (hx : g.ps ≠ []) :
    Follows s (s.finishJump g y) g.u.uid g.ps := by
  refine ⟨fun w hw => ?_, finishJump_undisturbed s g y hu (fun p m => ⟨(hp p m).1, (hp p m).2.1⟩) hx⟩
  rw [hu] at hw
  cases hw
  exact finishJump_unit s g y hu fun p m => ⟨(hp p m).1, (hp p m).2.2⟩

end Sys2Proof.Machine
end

