-- ==== Sys2Proof/Laws/Sparse.lean ====
section
/-! SUPPORT. Laws of sparse tables: the canonical form as a pairwise order, that every operation keeps it, and what a read gives after
a write. -/

set_option Elab.async false

namespace Sys2Proof.Machine

/-- Keys strictly rising, as a pairwise order. -/
def Rising (l : List (Nat × α)) : Prop := l.Pairwise fun a b => a.1 < b.1

/-- No entry at the default. -/
def NoDefault (d : α) (l : List (Nat × α)) : Prop := ∀ e ∈ l, e.2 ≠ d

theorem sparseSorted_some (b : Nat) (l : List (Nat × α)) :
    sparseSorted (some b) l = true ↔ (∀ e ∈ l, b < e.1) ∧ Rising l := by
  induction l generalizing b with
  | nil => simp [sparseSorted, Rising]
  | cons x t ih =>
    simp only [sparseSorted, Bool.and_eq_true, decide_eq_true_eq, ih, Rising, List.pairwise_cons, List.mem_cons, forall_eq_or_imp]
    constructor
    · rintro ⟨h, h2, h3⟩
      exact ⟨⟨h, fun e he => by have := h2 e he; omega⟩, h2, h3⟩
    · rintro ⟨⟨h, _⟩, h2, h3⟩
      exact ⟨h, h2, h3⟩

theorem sparseSorted_none (l : List (Nat × α)) : sparseSorted none l = true ↔ Rising l := by
  cases l with
  | nil => simp [sparseSorted, Rising]
  | cons x t => simp [sparseSorted, sparseSorted_some, Rising]

theorem sparseWf_iff [DecidableEq α] (d : α) (l : List (Nat × α)) : sparseWf d l = true ↔ Rising l ∧ NoDefault d l := by
  simp [sparseWf, sparseSorted_none, NoDefault]

/-! ### Keys -/

theorem sparsePut_keys (l : List (Nat × α)) (a : Nat) (x : α) (e : Nat × α) :
    e ∈ sparsePut l a x → e = (a, x) ∨ e ∈ l := by
  induction l with
  | nil => simp [sparsePut]
  | cons y t ih =>
    obtain ⟨k, v⟩ := y
    simp only [sparsePut]
    split
    · simp only [List.mem_cons]
      exact fun h => h.imp id .inr
    · split
      · simp only [List.mem_cons]
        exact id
      · simp only [List.mem_cons]; rintro (h | h)
        · exact .inr (.inl h)
        · cases ih h with
          | inl h => exact .inl h
          | inr h => exact .inr (.inr h)

theorem sparseErase_sub (l : List (Nat × α)) (a : Nat) : List.Sublist (sparseErase l a) l := by
  induction l with
  | nil => simp [sparseErase]
  | cons y t ih =>
    obtain ⟨k, v⟩ := y
    simp only [sparseErase]
    split
    · exact ih.trans (List.sublist_cons_self _ _)
    · exact ih.cons_cons _

theorem rising_put {l : List (Nat × α)} (h : Rising l) (a : Nat) (x : α) : Rising (sparsePut l a x) := by
  induction l with
  | nil => simp [sparsePut, Rising]
  | cons y t ih =>
    obtain ⟨k, v⟩ := y
    simp only [Rising, List.pairwise_cons] at h
    simp only [sparsePut]
    split
    · next hk => subst hk; exact List.pairwise_cons.2 ⟨h.1, h.2⟩
    · split
      · next hk =>
        refine List.pairwise_cons.2 ⟨?_, List.pairwise_cons.2 ⟨h.1, h.2⟩⟩
        intro e he
        rcases List.mem_cons.1 he with he | he
        · subst he; exact hk
        · have := h.1 e he; simp only at this ⊢; omega
      · next h1 h2 =>
        refine List.pairwise_cons.2 ⟨?_, ih h.2⟩
        intro e he
        rcases sparsePut_keys t a x e he with he | he
        · subst he; simp only; omega
        · exact h.1 e he

theorem rising_erase {l : List (Nat × α)} (h : Rising l) (a : Nat) : Rising (sparseErase l a) := h.sublist (sparseErase_sub l a)

theorem rising_filter {l : List (Nat × α)} (h : Rising l) (p : Nat × α → Bool) : Rising (l.filter p) := List.Pairwise.filter p h

theorem rising_append {l m : List (Nat × α)} (hl : Rising l) (hm : Rising m) (h : ∀ a ∈ l, ∀ b ∈ m, a.1 < b.1) :
    Rising (l ++ m) := List.pairwise_append.2 ⟨hl, hm, h⟩

/-- A table moved as a whole keeps its order. -/
theorem rising_map {l : List (Nat × α)} (h : Rising l) (f : Nat → Nat) (hf : ∀ a ∈ l, ∀ b ∈ l, a.1 < b.1 → f a.1 < f b.1) :
    Rising (l.map fun e => (f e.1, e.2)) := by
  refine List.pairwise_map.2 (List.Pairwise.imp_of_mem (fun {a b} ha hb hab => hf a ha b hb hab) h)

/-! ### The canonical form -/

theorem wf_set [DecidableEq α] {d : α} {l : List (Nat × α)} (h : sparseWf d l = true) (a : Nat) (x : α) :
    sparseWf d (sparseSet d l a x) = true := by
  rw [sparseWf_iff] at h ⊢
  unfold sparseSet
  split
  · exact ⟨rising_erase h.1 a, fun e he => h.2 e ((sparseErase_sub l a).subset he)⟩
  · next hx =>
    refine ⟨rising_put h.1 a x, fun e he => ?_⟩
    rcases sparsePut_keys l a x e he with he | he
    · subst he; exact hx
    · exact h.2 e he

theorem wf_filter [DecidableEq α] {d : α} {l : List (Nat × α)} (h : sparseWf d l = true) (p : Nat × α → Bool) :
    sparseWf d (l.filter p) = true := by
  rw [sparseWf_iff] at h ⊢
  exact ⟨rising_filter h.1 p, fun e he => h.2 e ((List.mem_filter.1 he).1)⟩

theorem wf_write {l : List (Nat × Byte)} (h : sparseWf 0 l = true) (a : Nat) (bs : List Byte) :
    sparseWf 0 (sparseWrite l a bs) = true := by
  induction bs generalizing l a with
  | nil => exact h
  | cons b t ih => exact ih (wf_set h a b) (a + 1)

/-! ### Reads after writes -/

@[simp] theorem get_put_same {d : α} (l : List (Nat × α)) (a : Nat) (x : α) : sparseGet d (sparsePut l a x) a = x := by
  induction l with
  | nil => simp [sparsePut, sparseGet]
  | cons y t ih =>
    obtain ⟨k, v⟩ := y
    simp only [sparsePut]
    split
    · simp [sparseGet]
    · split
      · simp [sparseGet]
      · next h1 h2 => simp [sparseGet, h1, ih]

theorem get_put_other {d : α} {l : List (Nat × α)} {a b : Nat} (hab : b ≠ a) (x : α) :
    sparseGet d (sparsePut l a x) b = sparseGet d l b := by
  have hba : a ≠ b := fun h => hab h.symm
  induction l with
  | nil => simp [sparsePut, sparseGet, hba]
  | cons y t ih =>
    obtain ⟨k, v⟩ := y
    simp only [sparsePut]
    split
    · next hk => subst hk; simp [sparseGet, hba]
    · split
      · simp [sparseGet, hba]
      · simp [sparseGet, ih]

@[simp] theorem get_erase_same {d : α} (l : List (Nat × α)) (a : Nat) : sparseGet d (sparseErase l a) a = d := by
  induction l with
  | nil => rfl
  | cons y t ih =>
    obtain ⟨k, v⟩ := y
    simp only [sparseErase]
    split
    · exact ih
    · next hk => simp [sparseGet, hk, ih]

theorem get_erase_other {d : α} {l : List (Nat × α)} {a b : Nat} (hab : b ≠ a) :
    sparseGet d (sparseErase l a) b = sparseGet d l b := by
  have hba : a ≠ b := fun h => hab h.symm
  induction l with
  | nil => rfl
  | cons y t ih =>
    obtain ⟨k, v⟩ := y
    simp only [sparseErase]
    split
    · next hk => subst hk; simp [sparseGet, hba, ih]
    · simp [sparseGet, ih]

/-- A read of the place just written gives what was written. -/
@[simp] theorem get_set_same [DecidableEq α] {d : α} (l : List (Nat × α)) (a : Nat) (x : α) :
    sparseGet d (sparseSet d l a x) a = x := by
  unfold sparseSet
  split
  · next hx => rw [hx]; exact get_erase_same l a
  · exact get_put_same l a x

/-- A write leaves every other place alone. -/
theorem get_set_other [DecidableEq α] {d : α} {l : List (Nat × α)} {a b : Nat} (hab : b ≠ a) (x : α) :
    sparseGet d (sparseSet d l a x) b = sparseGet d l b := by
  unfold sparseSet
  split
  · exact get_erase_other hab
  · exact get_put_other hab x

theorem rising_set [DecidableEq α] {d : α} {l : List (Nat × α)} (h : Rising l) (a : Nat) (x : α) : Rising (sparseSet d l a x) := by
  unfold sparseSet
  split
  · exact rising_erase h a
  · exact rising_put h a x

theorem rising_write {l : List (Nat × Byte)} (h : Rising l) (a : Nat) (bs : List Byte) : Rising (sparseWrite l a bs) := by
  induction bs generalizing l a with
  | nil => exact h
  | cons b t ih => exact ih (rising_set h a b) (a + 1)

/-- Bytes outside a write read as before. -/
theorem get_write_other {l : List (Nat × Byte)} (a : Nat) (bs : List Byte) {b : Nat}
    (hb : b < a ∨ a + bs.length ≤ b) : sparseGet 0 (sparseWrite l a bs) b = sparseGet 0 l b := by
  induction bs generalizing l a with
  | nil => rfl
  | cons x t ih =>
    simp only [List.length_cons] at hb
    rw [sparseWrite, ih (a + 1) (by omega), get_set_other (by omega)]

/-- Bytes written read as written. -/
theorem get_write_same {l : List (Nat × Byte)} (a : Nat) (bs : List Byte) (i : Nat) (hi : i < bs.length) :
    sparseGet 0 (sparseWrite l a bs) (a + i) = bs[i] := by
  induction bs generalizing l a i with
  | nil => simp at hi
  | cons x t ih =>
    cases i with
    | zero =>
      rw [sparseWrite, get_write_other (a + 1) t (by omega)]
      simp
    | succ n =>
      have := ih (l := sparseSet 0 l a x) (a + 1) n (by simpa using hi)
      rw [sparseWrite, show a + (n + 1) = a + 1 + n by omega, this]
      simp

end Sys2Proof.Machine
end

