-- ==== Sys2Proof/Laws/Keeps.lean ====
section
/-! SUPPORT. Every operation over the state keeps memory canonical, the dies, and what no step changes: one lemma an operation. -/

set_option Elab.async false
set_option linter.all false

namespace Sys2Proof.Machine

variable {a s t : State}

/-! ### The relation -/

@[simp] theorem Keeps.refl (s : State) : Keeps s s := ⟨id, .inl rfl, rfl⟩

theorem Keeps.trans {r : State} (h : Keeps a s) (k : Keeps s r) : Keeps a r :=
  ⟨k.mem ∘ h.mem, by rcases k.dies with k | k <;> rcases h.dies with h | h <;> omega, k.fixed.trans h.fixed⟩

/-- A change of other fields. -/
theorem Keeps.same (h : Keeps a s) (hm : t.mem = s.mem) (hd : t.dies.length = s.dies.length) (hf : t.fixed = s.fixed) : Keeps a t :=
  ⟨fun w => hm ▸ h.mem w, by rw [hd]; exact h.dies, hf.trans h.fixed⟩

/-- A change of memory that keeps its form. -/
theorem Keeps.store (h : Keeps a s) (hm : Memory.wf s.mem = true → Memory.wf t.mem = true) (hd : t.dies.length = s.dies.length)
    (hf : t.fixed = s.fixed) : Keeps a t := ⟨hm ∘ h.mem, by rw [hd]; exact h.dies, hf.trans h.fixed⟩

theorem Keeps.units (h : Keeps a s) (x : List WorkUnit) : Keeps a { s with units := x } := h.same rfl rfl rfl
theorem Keeps.hints (h : Keeps a s) (x : List (Nat × HintRec)) : Keeps a { s with hints := x } := h.same rfl rfl rfl
theorem Keeps.segments (h : Keeps a s) (x : List Segment) : Keeps a { s with segments := x } := h.same rfl rfl rfl
theorem Keeps.launches (h : Keeps a s) (x : List Launch) : Keeps a { s with launches := x } := h.same rfl rfl rfl
theorem Keeps.queries (h : Keeps a s) (x : List Query) : Keeps a { s with queries := x } := h.same rfl rfl rfl
theorem Keeps.collectives (h : Keeps a s) (x : List Collective) : Keeps a { s with collectives := x } := h.same rfl rfl rfl

@[simp] theorem foldl_keeps {β : Type} {f : State → β → State} (hf : ∀ s x, Keeps a s → Keeps a (f s x)) (l : List β) (h : Keeps a s) :
    Keeps a (l.foldl f s) := by
  induction l generalizing s with
  | nil => exact h
  | cons x t ih => exact ih (hf s x h)

/-- A fold whose accumulator carries a state. -/
theorem foldl_keeps_of {γ β : Type} {f : γ → β → γ} (st : γ → State) (hf : ∀ c x, Keeps a (st c) → Keeps a (st (f c x))) (l : List β)
    {c : γ} (h : Keeps a (st c)) : Keeps a (st (l.foldl f c)) := by
  induction l generalizing c with
  | nil => exact h
  | cons x t ih => exact ih (hf c x h)

@[simp] theorem listModify_length {α : Type} (l : List α) (i : Nat) (f : α → α) : (listModify l i f).length = l.length := by
  simp [listModify]

/-! ### Outcomes -/

@[simp] theorem goes_next : Goes s (.next t) ↔ Keeps s t := by simp [Goes]

/-! ### Memory.lean -/

@[simp] theorem revive_keeps (h : Keeps a s) (pa : Nat) : Keeps a (s.revive pa) := by
  unfold State.revive
  split
  · exact h.same rfl rfl rfl
  · exact h

@[simp] theorem setHint_keeps (h : Keeps a s) (pte : Nat) (r : HintRec) : Keeps a (s.setHint pte r) := h.same rfl rfl rfl

@[simp] theorem dropSnapshot_keeps (h : Keeps a s) (pa n : Nat) : Keeps a (s.dropSnapshot pa n) := by
  unfold State.dropSnapshot
  split
  · exact h
  · exact h.same rfl rfl rfl

@[simp] theorem storeBytes_keeps (h : Keeps a s) (pa : Nat) (bs : List Byte) : Keeps a (s.storeBytes pa bs) := by
  unfold State.storeBytes
  exact (dropSnapshot_keeps (revive_keeps h pa) pa bs.length).store (fun w => wf_write w pa bs) rfl rfl

@[simp] theorem settleSectors_keeps (h : Keeps a s) (ctx : Nat) (ws : List (Nat × Nat)) : Keeps a (s.settleSectors ctx ws) := by
  unfold State.settleSectors
  refine foldl_keeps (fun s x h => ?_) _ h
  dsimp only; split
  · exact h.same rfl rfl rfl
  · exact h.same rfl (by simp) rfl

@[simp] theorem storeAll_keeps (h : Keeps a s) (ctx : Nat) (ws : List (Nat × List Byte)) : Keeps a (s.storeAll ctx ws) := by
  unfold State.storeAll
  exact settleSectors_keeps (foldl_keeps (fun s x h => storeBytes_keeps h _ _) _ h) _ _

@[simp] theorem countElided_keeps (h : Keeps a s) (ctx : Nat) (ps : List Piece) : Keeps a (s.countElided ctx ps) := by
  unfold State.countElided
  dsimp only; split
  · exact h
  · exact h.same rfl rfl rfl

theorem deviceWrite_keeps (h : Keeps a s) {ctx va : Nat} {bs : List Byte} (e : s.deviceWrite ctx va bs = .ok t) : Keeps a t := by
  unfold State.deviceWrite at e
  split at e
  · cases e
  · cases e; exact storeAll_keeps h _ _

@[simp] theorem countRead_keeps (h : Keeps a s) (ctx va n : Nat) : Keeps a (s.countRead ctx va n) := by
  unfold State.countRead
  split
  · exact countElided_keeps h _ _
  · exact h

@[simp] theorem startWalk_keeps (h : Keeps a s) (core ctx va : Nat) : Keeps a (s.startWalk core ctx va) :=
  h.same rfl (by simp [State.startWalk]) rfl

@[simp] theorem endWalk_keeps (h : Keeps a s) (die : Nat) : Keeps a (s.endWalk die) := by
  unfold State.endWalk
  split
  · exact h
  · dsimp only
    split <;> exact h.same rfl (by simp) rfl

@[simp] theorem dropTlbs_keeps (h : Keeps a s) (p : TlbEntry → Bool) : Keeps a (s.dropTlbs p) :=
  h.same rfl (by simp [State.dropTlbs]) rfl

/-! ### Frames.lean -/

@[simp] theorem setEvicting_keeps (h : Keeps a s) : Keeps a s.setEvicting := h.same rfl (by simp [State.setEvicting]) rfl

@[simp] theorem recountFrames_keeps (h : Keeps a s) : Keeps a s.recountFrames := by
  unfold State.recountFrames
  exact setEvicting_keeps (h.same rfl rfl rfl)

@[simp] theorem pruneHints_keeps (h : Keeps a s) : Keeps a s.pruneHints := by
  unfold State.pruneHints
  split
  · exact h
  · exact h.same rfl rfl rfl

/-! ### Ops.lean -/

@[simp] theorem modifyUnit_keeps (h : Keeps a s) (uid : Nat) (f : WorkUnit → WorkUnit) : Keeps a (s.modifyUnit uid f) :=
  h.same rfl rfl rfl

@[simp] theorem modifyLaunch_keeps (h : Keeps a s) (die slot : Nat) (f : Launch → Launch) : Keeps a (s.modifyLaunch die slot f) :=
  h.same rfl rfl rfl

@[simp] theorem modifyDie_keeps (h : Keeps a s) (die : Nat) (f : Die → Die) : Keeps a (s.modifyDie die f) :=
  h.same rfl (by simp [State.modifyDie]) rfl

@[simp] theorem modifyContext_keeps (h : Keeps a s) (n : Nat) (f : Context → Context) : Keeps a (s.modifyContext n f) :=
  h.same rfl rfl rfl

@[simp] theorem modifyCore_keeps (h : Keeps a s) (n : Nat) (f : Core → Core) : Keeps a (s.modifyCore n f) := h.same rfl rfl rfl

@[simp] theorem modifyBank_keeps (h : Keeps a s) (core bank : Nat) (f : Bank → Bank) : Keeps a (s.modifyBank core bank f) := by
  simp (maxDischargeDepth := 40) [State.modifyBank, h]

@[simp] theorem drawFree_keeps (h : Keeps a s) (n : Nat) : Keeps a (s.drawFree n).2 := h.same rfl rfl rfl

@[simp] theorem newId_keeps (h : Keeps a s) : Keeps a s.newId.2 := h.same rfl rfl rfl

@[simp] theorem signal_keeps (h : Keeps a s) (die bit : Nat) : Keeps a (s.signal die bit) := by simp (maxDischargeDepth := 40) [State.signal, h]

@[simp] theorem settleBarriers_keeps (h : Keeps a s) (core bank : Nat) : Keeps a (s.settleBarriers core bank) :=
  h.same rfl rfl rfl

@[simp] theorem freeUnit_keeps (h : Keeps a s) (u : WorkUnit) : Keeps a (s.freeUnit u) := by
  unfold State.freeUnit
  dsimp only; split <;> simp (maxDischargeDepth := 40) [h]

theorem takeSave_keeps (h : Keeps a s) {ctx len : Nat} {x : Nat × State} (e : s.takeSave ctx len = some x) : Keeps a x.2 := by
  unfold State.takeSave at e
  split at e
  · cases e
  · simp only [Option.map_eq_some_iff] at e
    obtain ⟨o, _, rfl⟩ := e
    exact modifyContext_keeps h _ _

@[simp] theorem freeSave_keeps (h : Keeps a s) (ctx : Nat) (i : Option (Nat × Nat)) : Keeps a (s.freeSave ctx i) := by
  unfold State.freeSave
  split <;> simp (maxDischargeDepth := 40) [h]

@[simp] theorem endUnit_keeps (h : Keeps a s) (u : WorkUnit) : Keeps a (s.endUnit u) := by
  unfold State.endUnit
  split
  · exact (freeUnit_keeps h u).same rfl rfl rfl
  · simp (maxDischargeDepth := 40) [h]

@[simp] theorem endTickets_keeps (h : Keeps a s) (u : WorkUnit) : Keeps a (s.endTickets u) := by
  simp (maxDischargeDepth := 40) [State.endTickets, h]

@[simp] theorem abortLaunch_keeps (h : Keeps a s) (die slot : Nat) (st : AbortStatus) (rec : DWord × DWord × DWord) :
    Keeps a (s.abortLaunch die slot st rec) := by
  unfold State.abortLaunch
  split
  · exact h
  · split
    · exact h
    · exact modifyLaunch_keeps (foldl_keeps (fun s x h => endUnit_keeps (endTickets_keeps h x) x) _ h) _ _ _

@[simp] theorem nested_keeps (h : Keeps a s) (g : Gang) (rec : DWord × DWord × DWord) : Keeps a (s.nested g rec) := by
  simp (maxDischargeDepth := 40) [State.nested, h]

@[simp] theorem enterTrap_keeps (h : Keeps a s) (g : Gang) (t : Trap) : Keeps a (s.enterTrap g t) := by
  unfold State.enterTrap
  dsimp only
  split
  · exact h
  · split
    · simp (maxDischargeDepth := 40) [h]
    · split
      · simp (maxDischargeDepth := 40) [h]
      · split
        · simp (maxDischargeDepth := 40) [h]
        · split <;> simp (maxDischargeDepth := 40) [h]

/-! ### Settle.lean -/

@[simp] theorem refreshArrivals_keeps (h : Keeps a s) (uid : Nat) : Keeps a (s.refreshArrivals uid) := by
  unfold State.refreshArrivals
  split <;> simp (maxDischargeDepth := 40) [h]

@[simp] theorem passTurn_keeps (h : Keeps a s) (die slot i : Nat) : Keeps a (s.passTurn die slot i) := by simp (maxDischargeDepth := 40) [State.passTurn, h]

@[simp] theorem mergeByte_keeps (h : Keeps a s) (u : WorkUnit) (e : Nat × Byte) : Keeps a (s.mergeByte u e) := by
  unfold State.mergeByte
  exact (revive_keeps h e.1).store (fun w => wf_set w e.1 e.2) rfl rfl

@[simp] theorem mergeWords_keeps (h : Keeps a s) (u : WorkUnit) (ws : List Buffered) : Keeps a (s.mergeWords u ws) := by
  unfold State.mergeWords
  exact settleSectors_keeps (foldl_keeps (fun s x h => mergeByte_keeps h u x) _ h) _ _

@[simp] theorem mergeUnit_keeps (h : Keeps a s) (u : WorkUnit) : Keeps a (s.mergeUnit u) := by simp (maxDischargeDepth := 40) [State.mergeUnit, h]

@[simp] theorem exitUnit_keeps (h : Keeps a s) (u : WorkUnit) : Keeps a (s.exitUnit u) := by
  unfold State.exitUnit
  split
  · exact h
  · dsimp only
    refine modifyLaunch_keeps ?_ _ _ _
    split <;> split <;> simp (maxDischargeDepth := 40) [h]

@[simp] theorem endInterval_keeps (h : Keeps a s) (u : WorkUnit) (kind : Nat) : Keeps a (s.endInterval u kind) := by
  unfold State.endInterval
  dsimp only; split <;> simp (maxDischargeDepth := 40) [h]

@[simp] theorem refreshOnce_keeps (h : Keeps a s) (uid : Nat) : Keeps a (s.refreshOnce uid) := by
  unfold State.refreshOnce
  split
  · exact h
  · split
    · exact h
    · dsimp only; split <;> simp (maxDischargeDepth := 40) [h]

@[simp] theorem afterSlices_keeps (h : Keeps a s) (uid : Nat) : Keeps a (s.afterSlices uid) := by
  unfold State.afterSlices
  dsimp only
  split
  · simp (maxDischargeDepth := 40) [h]
  · split <;> simp (maxDischargeDepth := 40) [h]

@[simp] theorem settleGang_keeps (h : Keeps a s) (uid : Nat) (ps : List Nat) : Keeps a (s.settleGang uid ps) := by
  simp (maxDischargeDepth := 40) [State.settleGang, h]

@[simp] theorem finishWord_keeps (h : Keeps a s) (g : Gang) (y : Bool) (n : Nat) : Keeps a (s.finishWord g y n) := by
  simp (maxDischargeDepth := 40) [State.finishWord, h]

@[simp] theorem finishJump_keeps (h : Keeps a s) (g : Gang) (y : Bool) : Keeps a (s.finishJump g y) := by
  simp (maxDischargeDepth := 40) [State.finishJump, h]

end Sys2Proof.Machine
end

