-- ==== Sys2Proof/Laws/KeepsWords.lean ====
section
/-! SUPPORT. The words of lanes and of control flow keep what every step keeps, and always answer a next state. -/

set_option Elab.async false
set_option linter.all false

namespace Sys2Proof.Machine

variable {a s t : State}

/-! ### Alu.lean, Control.lean, Float.lean, CrossLane.lean, Pair.lean, Traps.lean, Ready.lean -/

@[simp] theorem laneWord_keeps (h : Keeps a s) (g : Gang) (opc n : Nat) (y : Bool) (sb : BitVec 3) (lanes : List (Nat × Nat))
    (ops : List LaneOp) (r i : Bool) : Keeps a (s.laneWord g opc n y sb lanes ops r i) := by
  unfold State.laneWord
  split
  · simp (maxDischargeDepth := 40) [h]
  · split <;> simp (maxDischargeDepth := 40) [h]

@[simp] theorem aluWordIn_goes (opc : Nat) (w : StdWord) (e : Gang → AluEntry) : Goes s (aluWordIn opc w e s) := by
  unfold aluWordIn
  split <;> simp

@[simp] theorem aluWord_goes (opc : Nat) (w : StdWord) (e : AluEntry) : Goes s (aluWord opc w e s) := aluWordIn_goes _ _ _

@[simp] theorem longLaneWord_goes (opc : Nat) (w : StdWord) (e : Gang → AluEntry) : Goes s (longLaneWord opc w e s) := by
  unfold longLaneWord
  split
  · simp
  · dsimp only
    split
    · simp
    · split <;> simp

@[simp] theorem noEffect_keeps (h : Keeps a s) (g : Gang) (opc : Nat) (w : CtlWord) : Keeps a (s.noEffect g opc w) := by
  unfold State.noEffect
  split <;> simp (maxDischargeDepth := 40) [h]

@[simp] theorem jumpWord_keeps (h : Keeps a s) (g : Gang) (y : Bool) (t : Option Trap) (move : Nat → Slice → Slice) :
    Keeps a (s.jumpWord g y t move) := by
  unfold State.jumpWord
  split <;> simp (maxDischargeDepth := 40) [h]

@[simp] theorem giveLanes_keeps (h : Keeps a s) (g : Gang) (lanes : List (Nat × Nat)) (dst : BitVec 9) (v : Nat) :
    Keeps a (s.giveLanes g lanes dst v) := by simp (maxDischargeDepth := 40) [State.giveLanes, h]

@[simp] theorem holdWord_keeps (h : Keeps a s) (g : Gang) : Keeps a (s.holdWord g) := by simp (maxDischargeDepth := 40) [State.holdWord, h]

@[simp] theorem noteSlot_keeps (h : Keeps a s) (g : Gang) : Keeps a (s.noteSlot g) := modifyBank_keeps h _ _ _

theorem cohortWord_goes (opc : Nat) (w : StdWord) (act : State → Gang → Nat → Nat × State)
    (ha : ∀ t g x, Keeps s t → Keeps s (act t g x).2) : Goes s (cohortWord opc w act s) := by
  unfold cohortWord
  split
  · simp
  · dsimp only
    split
    · simp
    · split
      · simp
      · split
        · simp
        · simp (maxDischargeDepth := 40) [ha]

theorem cohNew_keeps (h : Keeps a s) (g : Gang) (x : Nat) : Keeps a (cohNew s g x).2 := by
  unfold cohNew
  dsimp only; split <;> simp (maxDischargeDepth := 40) [h]

theorem cohFree_keeps (h : Keeps a s) (g : Gang) (x : Nat) : Keeps a (cohFree s g x).2 := by
  unfold cohFree
  split
  · exact h
  · split
    · exact h
    · split <;> simp (maxDischargeDepth := 40) [h]

theorem cohJoin_keeps (h : Keeps a s) (g : Gang) (x : Nat) : Keeps a (cohJoin s g x).2 := by
  unfold cohJoin
  split
  · exact h
  · dsimp only
    split
    · exact h
    · split <;> simp (maxDischargeDepth := 40) [h]

theorem cohLeave_keeps (h : Keeps a s) (g : Gang) (x : Nat) : Keeps a (cohLeave s g x).2 := by
  unfold cohLeave
  split
  · exact h
  · dsimp only
    split <;> simp (maxDischargeDepth := 40) [h]


/-! ### Integer.lean -/

theorem execIadd_goes (w : StdWord) : Goes s (execIadd w s) := by
  unfold execIadd
  (repeat' (first | split | (dsimp only; split))) <;> simp (maxDischargeDepth := 40)

theorem execIsub_goes (w : StdWord) : Goes s (execIsub w s) := by
  unfold execIsub
  (repeat' (first | split | (dsimp only; split))) <;> simp (maxDischargeDepth := 40)

theorem execImul_goes (w : StdWord) : Goes s (execImul w s) := by
  unfold execImul
  (repeat' (first | split | (dsimp only; split))) <;> simp (maxDischargeDepth := 40)

theorem execImulh_goes (w : StdWord) : Goes s (execImulh w s) := by
  unfold execImulh
  (repeat' (first | split | (dsimp only; split))) <;> simp (maxDischargeDepth := 40)

theorem execImad_goes (w : StdWord) : Goes s (execImad w s) := by
  unfold execImad
  (repeat' (first | split | (dsimp only; split))) <;> simp (maxDischargeDepth := 40)

theorem execIadd64_goes (w : StdWord) : Goes s (execIadd64 w s) := by
  unfold execIadd64
  (repeat' (first | split | (dsimp only; split))) <;> simp (maxDischargeDepth := 40)

theorem execImad64_goes (w : StdWord) : Goes s (execImad64 w s) := by
  unfold execImad64
  (repeat' (first | split | (dsimp only; split))) <;> simp (maxDischargeDepth := 40)

theorem execImin_goes (w : StdWord) : Goes s (execImin w s) := by
  unfold execImin
  (repeat' (first | split | (dsimp only; split))) <;> simp (maxDischargeDepth := 40)

theorem execImax_goes (w : StdWord) : Goes s (execImax w s) := by
  unfold execImax
  (repeat' (first | split | (dsimp only; split))) <;> simp (maxDischargeDepth := 40)

theorem execIabs_goes (w : StdWord) : Goes s (execIabs w s) := by
  unfold execIabs
  (repeat' (first | split | (dsimp only; split))) <;> simp (maxDischargeDepth := 40)

theorem execIneg_goes (w : StdWord) : Goes s (execIneg w s) := by
  unfold execIneg
  (repeat' (first | split | (dsimp only; split))) <;> simp (maxDischargeDepth := 40)

theorem execIadds_goes (w : StdWord) : Goes s (execIadds w s) := by
  unfold execIadds
  (repeat' (first | split | (dsimp only; split))) <;> simp (maxDischargeDepth := 40)

theorem execAnd_goes (w : StdWord) : Goes s (execAnd w s) := by
  unfold execAnd
  (repeat' (first | split | (dsimp only; split))) <;> simp (maxDischargeDepth := 40)

theorem execOr_goes (w : StdWord) : Goes s (execOr w s) := by
  unfold execOr
  (repeat' (first | split | (dsimp only; split))) <;> simp (maxDischargeDepth := 40)

theorem execXor_goes (w : StdWord) : Goes s (execXor w s) := by
  unfold execXor
  (repeat' (first | split | (dsimp only; split))) <;> simp (maxDischargeDepth := 40)

theorem execNot_goes (w : StdWord) : Goes s (execNot w s) := by
  unfold execNot
  (repeat' (first | split | (dsimp only; split))) <;> simp (maxDischargeDepth := 40)

theorem execLop3_goes (w : StdWord) : Goes s (execLop3 w s) := by
  unfold execLop3
  (repeat' (first | split | (dsimp only; split))) <;> simp (maxDischargeDepth := 40)

theorem execShl_goes (w : StdWord) : Goes s (execShl w s) := by
  unfold execShl
  (repeat' (first | split | (dsimp only; split))) <;> simp (maxDischargeDepth := 40)

theorem execShr_goes (w : StdWord) : Goes s (execShr w s) := by
  unfold execShr
  (repeat' (first | split | (dsimp only; split))) <;> simp (maxDischargeDepth := 40)

theorem execShra_goes (w : StdWord) : Goes s (execShra w s) := by
  unfold execShra
  (repeat' (first | split | (dsimp only; split))) <;> simp (maxDischargeDepth := 40)

theorem execRotl_goes (w : StdWord) : Goes s (execRotl w s) := by
  unfold execRotl
  (repeat' (first | split | (dsimp only; split))) <;> simp (maxDischargeDepth := 40)

theorem execFshf_goes (w : StdWord) : Goes s (execFshf w s) := by
  unfold execFshf
  (repeat' (first | split | (dsimp only; split))) <;> simp (maxDischargeDepth := 40)

theorem execBfx_goes (w : StdWord) : Goes s (execBfx w s) := by
  unfold execBfx
  (repeat' (first | split | (dsimp only; split))) <;> simp (maxDischargeDepth := 40)

theorem execBfi_goes (w : StdWord) : Goes s (execBfi w s) := by
  unfold execBfi
  (repeat' (first | split | (dsimp only; split))) <;> simp (maxDischargeDepth := 40)

theorem execBrev_goes (w : StdWord) : Goes s (execBrev w s) := by
  unfold execBrev
  (repeat' (first | split | (dsimp only; split))) <;> simp (maxDischargeDepth := 40)

theorem execPopc_goes (w : StdWord) : Goes s (execPopc w s) := by
  unfold execPopc
  (repeat' (first | split | (dsimp only; split))) <;> simp (maxDischargeDepth := 40)

theorem execClz_goes (w : StdWord) : Goes s (execClz w s) := by
  unfold execClz
  (repeat' (first | split | (dsimp only; split))) <;> simp (maxDischargeDepth := 40)

theorem execCtz_goes (w : StdWord) : Goes s (execCtz w s) := by
  unfold execCtz
  (repeat' (first | split | (dsimp only; split))) <;> simp (maxDischargeDepth := 40)

theorem execIcmp_goes (w : StdWord) : Goes s (execIcmp w s) := by
  unfold execIcmp
  (repeat' (first | split | (dsimp only; split))) <;> simp (maxDischargeDepth := 40)

theorem execSel_goes (w : StdWord) : Goes s (execSel w s) := by
  unfold execSel
  (repeat' (first | split | (dsimp only; split))) <;> simp (maxDischargeDepth := 40)

theorem execPlut_goes (w : StdWord) : Goes s (execPlut w s) := by
  unfold execPlut
  (repeat' (first | split | (dsimp only; split))) <;> simp (maxDischargeDepth := 40)

theorem execPmov_goes (w : StdWord) : Goes s (execPmov w s) := by
  unfold execPmov
  (repeat' (first | split | (dsimp only; split))) <;> simp (maxDischargeDepth := 40)

theorem execMov_goes (w : StdWord) : Goes s (execMov w s) := by
  unfold execMov
  (repeat' (first | split | (dsimp only; split))) <;> simp (maxDischargeDepth := 40)

theorem execMovi_goes (w : StdWord) : Goes s (execMovi w s) := by
  unfold execMovi
  (repeat' (first | split | (dsimp only; split))) <;> simp (maxDischargeDepth := 40)

theorem execMovq_goes (w : StdWord) : Goes s (execMovq w s) := by
  unfold execMovq
  (repeat' (first | split | (dsimp only; split))) <;> simp (maxDischargeDepth := 40)

theorem execMovs_goes (w : StdWord) : Goes s (execMovs w s) := by
  unfold execMovs
  (repeat' (first | split | (dsimp only; split))) <;> simp (maxDischargeDepth := 40)

theorem execIcvt_goes (w : StdWord) : Goes s (execIcvt w s) := by
  unfold execIcvt
  (repeat' (first | split | (dsimp only; split))) <;> simp (maxDischargeDepth := 40)

theorem execRetag_goes (w : StdWord) : Goes s (execRetag w s) := by
  unfold execRetag
  (repeat' (first | split | (dsimp only; split))) <;> simp (maxDischargeDepth := 40)

theorem execSread_goes (w : StdWord) : Goes s (execSread w s) := by
  unfold execSread
  (repeat' (first | split | (dsimp only; split))) <;> simp (maxDischargeDepth := 40)

theorem execSwrite_goes (w : StdWord) : Goes s (execSwrite w s) := by
  unfold execSwrite
  (repeat' (first | split | (dsimp only; split))) <;> simp (maxDischargeDepth := 40)

theorem execVrdi_goes (w : StdWord) : Goes s (execVrdi w s) := by
  unfold execVrdi
  (repeat' (first | split | (dsimp only; split))) <;> simp (maxDischargeDepth := 40)

theorem execVwri_goes (w : StdWord) : Goes s (execVwri w s) := by
  unfold execVwri
  (repeat' (first | split | (dsimp only; split))) <;> simp (maxDischargeDepth := 40)


/-! ### Float.lean -/

theorem execFadd_goes (w : StdWord) : Goes s (execFadd w s) := by
  unfold execFadd
  (repeat' (first | split | (dsimp only; split))) <;> simp (maxDischargeDepth := 40)

theorem execFsub_goes (w : StdWord) : Goes s (execFsub w s) := by
  unfold execFsub
  (repeat' (first | split | (dsimp only; split))) <;> simp (maxDischargeDepth := 40)

theorem execFmul_goes (w : StdWord) : Goes s (execFmul w s) := by
  unfold execFmul
  (repeat' (first | split | (dsimp only; split))) <;> simp (maxDischargeDepth := 40)

theorem execFfma_goes (w : StdWord) : Goes s (execFfma w s) := by
  unfold execFfma
  (repeat' (first | split | (dsimp only; split))) <;> simp (maxDischargeDepth := 40)

theorem execDadd_goes (w : StdWord) : Goes s (execDadd w s) := by
  unfold execDadd
  (repeat' (first | split | (dsimp only; split))) <;> simp (maxDischargeDepth := 40)

theorem execDmul_goes (w : StdWord) : Goes s (execDmul w s) := by
  unfold execDmul
  (repeat' (first | split | (dsimp only; split))) <;> simp (maxDischargeDepth := 40)

theorem execDfma_goes (w : StdWord) : Goes s (execDfma w s) := by
  unfold execDfma
  (repeat' (first | split | (dsimp only; split))) <;> simp (maxDischargeDepth := 40)

theorem execFmin_goes (w : StdWord) : Goes s (execFmin w s) := by
  unfold execFmin
  (repeat' (first | split | (dsimp only; split))) <;> simp (maxDischargeDepth := 40)

theorem execFmax_goes (w : StdWord) : Goes s (execFmax w s) := by
  unfold execFmax
  (repeat' (first | split | (dsimp only; split))) <;> simp (maxDischargeDepth := 40)

theorem execFcmp_goes (w : StdWord) : Goes s (execFcmp w s) := by
  unfold execFcmp
  (repeat' (first | split | (dsimp only; split))) <;> simp (maxDischargeDepth := 40)

theorem execDcmp_goes (w : StdWord) : Goes s (execDcmp w s) := by
  unfold execDcmp
  (repeat' (first | split | (dsimp only; split))) <;> simp (maxDischargeDepth := 40)

theorem execFclass_goes (w : StdWord) : Goes s (execFclass w s) := by
  unfold execFclass
  (repeat' (first | split | (dsimp only; split))) <;> simp (maxDischargeDepth := 40)

theorem execFrnd_goes (w : StdWord) : Goes s (execFrnd w s) := by
  unfold execFrnd
  (repeat' (first | split | (dsimp only; split))) <;> simp (maxDischargeDepth := 40)

theorem execFscale_goes (w : StdWord) : Goes s (execFscale w s) := by
  unfold execFscale
  (repeat' (first | split | (dsimp only; split))) <;> simp (maxDischargeDepth := 40)

theorem execFcvt_goes (w : StdWord) : Goes s (execFcvt w s) := by
  unfold execFcvt
  (repeat' (first | split | (dsimp only; split))) <;> simp (maxDischargeDepth := 40)

theorem execFrcp_goes (w : StdWord) : Goes s (execFrcp w s) := by
  unfold execFrcp
  (repeat' (first | split | (dsimp only; split))) <;> simp (maxDischargeDepth := 40)

theorem execFsqrt_goes (w : StdWord) : Goes s (execFsqrt w s) := by
  unfold execFsqrt
  (repeat' (first | split | (dsimp only; split))) <;> simp (maxDischargeDepth := 40)

theorem execFrsq_goes (w : StdWord) : Goes s (execFrsq w s) := by
  unfold execFrsq
  (repeat' (first | split | (dsimp only; split))) <;> simp (maxDischargeDepth := 40)

theorem execFex2_goes (w : StdWord) : Goes s (execFex2 w s) := by
  unfold execFex2
  (repeat' (first | split | (dsimp only; split))) <;> simp (maxDischargeDepth := 40)

theorem execFlg2_goes (w : StdWord) : Goes s (execFlg2 w s) := by
  unfold execFlg2
  (repeat' (first | split | (dsimp only; split))) <;> simp (maxDischargeDepth := 40)

theorem execFsin_goes (w : StdWord) : Goes s (execFsin w s) := by
  unfold execFsin
  (repeat' (first | split | (dsimp only; split))) <;> simp (maxDischargeDepth := 40)

theorem execFcos_goes (w : StdWord) : Goes s (execFcos w s) := by
  unfold execFcos
  (repeat' (first | split | (dsimp only; split))) <;> simp (maxDischargeDepth := 40)

theorem execHadd2_goes (w : StdWord) : Goes s (execHadd2 w s) := by
  unfold execHadd2
  (repeat' (first | split | (dsimp only; split))) <;> simp (maxDischargeDepth := 40)

theorem execHmul2_goes (w : StdWord) : Goes s (execHmul2 w s) := by
  unfold execHmul2
  (repeat' (first | split | (dsimp only; split))) <;> simp (maxDischargeDepth := 40)

theorem execHfma2_goes (w : StdWord) : Goes s (execHfma2 w s) := by
  unfold execHfma2
  (repeat' (first | split | (dsimp only; split))) <;> simp (maxDischargeDepth := 40)

theorem execDot4_goes (w : StdWord) : Goes s (execDot4 w s) := by
  unfold execDot4
  (repeat' (first | split | (dsimp only; split))) <;> simp (maxDischargeDepth := 40)

theorem execQpack_goes (w : StdWord) : Goes s (execQpack w s) := by
  unfold execQpack
  (repeat' (first | split | (dsimp only; split))) <;> simp (maxDischargeDepth := 40)

theorem execQunpk_goes (w : StdWord) : Goes s (execQunpk w s) := by
  unfold execQunpk
  (repeat' (first | split | (dsimp only; split))) <;> simp (maxDischargeDepth := 40)

theorem execRand_goes (w : StdWord) : Goes s (execRand w s) := by
  unfold execRand
  (repeat' (first | split | (dsimp only; split))) <;> simp (maxDischargeDepth := 40)

theorem execFstat_goes (w : StdWord) : Goes s (execFstat w s) := by
  unfold execFstat
  (repeat' (first | split | (dsimp only; split))) <;> simp (maxDischargeDepth := 40)


/-! ### CrossLane.lean -/

theorem execVote_goes (w : StdWord) : Goes s (execVote w s) := by
  unfold execVote
  (repeat' (first | split | (dsimp only; split))) <;> simp (maxDischargeDepth := 40)

theorem execBallot_goes (w : StdWord) : Goes s (execBallot w s) := by
  unfold execBallot
  (repeat' (first | split | (dsimp only; split))) <;> simp (maxDischargeDepth := 40)

theorem execLmask_goes (w : StdWord) : Goes s (execLmask w s) := by
  unfold execLmask
  (repeat' (first | split | (dsimp only; split))) <;> simp (maxDischargeDepth := 40)

theorem execBpick_goes (w : StdWord) : Goes s (execBpick w s) := by
  unfold execBpick
  (repeat' (first | split | (dsimp only; split))) <;> simp (maxDischargeDepth := 40)

theorem execLget_goes (w : StdWord) : Goes s (execLget w s) := by
  unfold execLget
  (repeat' (first | split | (dsimp only; split))) <;> simp (maxDischargeDepth := 40)

theorem execXchg_goes (w : StdWord) : Goes s (execXchg w s) := by
  unfold execXchg
  (repeat' (first | split | (dsimp only; split))) <;> simp (maxDischargeDepth := 40)

theorem execMatchLanes_goes (w : StdWord) : Goes s (execMatchLanes w s) := by
  unfold execMatchLanes
  (repeat' (first | split | (dsimp only; split))) <;> simp (maxDischargeDepth := 40)

theorem execRedux_goes (w : StdWord) : Goes s (execRedux w s) := by
  unfold execRedux
  (repeat' (first | split | (dsimp only; split))) <;> simp (maxDischargeDepth := 40)


/-! ### Pair.lean -/

theorem execPairedWord_goes (p : PairWord) : Goes s (execPairedWord p s) := by
  unfold execPairedWord
  (repeat' (first | split | (dsimp only; split))) <;> simp (maxDischargeDepth := 40)

@[simp] theorem rawFault_keeps (h : Keeps a s) (g : Gang) (w : DWord) (c : Cause) : Keeps a (State.rawFault s g w c) := by
  unfold State.rawFault
  (try dsimp only)
  (repeat' (first | split | (dsimp only; split))) <;> simp (maxDischargeDepth := 40) [h]

theorem execUnassignedOpcode_goes (w : DWord) : Goes s (execUnassignedOpcode w s) := by
  unfold execUnassignedOpcode
  (repeat' (first | split | (dsimp only; split))) <;> simp (maxDischargeDepth := 40)


/-! ### Traps.lean -/

theorem execTfence_goes (w : CtlWord) : Goes s (execTfence w s) := by
  unfold execTfence
  (repeat' (first | split | (dsimp only; split))) <;> simp (maxDischargeDepth := 40)

theorem execTrap_goes (w : CtlWord) : Goes s (execTrap w s) := by
  unfold execTrap
  (repeat' (first | split | (dsimp only; split))) <;> simp (maxDischargeDepth := 40)

theorem execBkpt_goes (w : CtlWord) : Goes s (execBkpt w s) := by
  unfold execBkpt
  (repeat' (first | split | (dsimp only; split))) <;> simp (maxDischargeDepth := 40)

theorem execRtt_goes (w : CtlWord) : Goes s (execRtt w s) := by
  unfold execRtt
  (repeat' (first | split | (dsimp only; split))) <;> simp (maxDischargeDepth := 40)

theorem execFltrd_goes (w : StdWord) : Goes s (execFltrd w s) := by
  unfold execFltrd
  (repeat' (first | split | (dsimp only; split))) <;> simp (maxDischargeDepth := 40)


/-! ### Ready.lean -/

theorem execRegang_goes (w : CtlWord) : Goes s (execRegang w s) := by
  unfold execRegang
  (repeat' (first | split | (dsimp only; split))) <;> simp (maxDischargeDepth := 40)

theorem execYield_goes (w : CtlWord) : Goes s (execYield w s) := by
  unfold execYield
  (repeat' (first | split | (dsimp only; split))) <;> simp (maxDischargeDepth := 40)

theorem execNop_goes (w : CtlWord) : Goes s (execNop w s) := by
  unfold execNop
  (repeat' (first | split | (dsimp only; split))) <;> simp (maxDischargeDepth := 40)


/-! ### Control.lean -/

theorem execBra_goes (w : CtlWord) : Goes s (execBra w s) := by
  unfold execBra
  (repeat' (first | split | (dsimp only; split))) <;> simp (maxDischargeDepth := 40)

theorem execBrc_goes (w : CtlWord) : Goes s (execBrc w s) := by
  unfold execBrc
  (repeat' (first | split | (dsimp only; split))) <;> simp (maxDischargeDepth := 40)

theorem execBrx_goes (w : StdWord) : Goes s (execBrx w s) := by
  unfold execBrx
  (repeat' (first | split | (dsimp only; split))) <;> simp (maxDischargeDepth := 40)

theorem execCall_goes (w : CtlWord) : Goes s (execCall w s) := by
  unfold execCall
  (repeat' (first | split | (dsimp only; split))) <;> simp (maxDischargeDepth := 40)

theorem execCalli_goes (w : StdWord) : Goes s (execCalli w s) := by
  unfold execCalli
  (repeat' (first | split | (dsimp only; split))) <;> simp (maxDischargeDepth := 40)

theorem execRet_goes (w : CtlWord) : Goes s (execRet w s) := by
  unfold execRet
  (repeat' (first | split | (dsimp only; split))) <;> simp (maxDischargeDepth := 40)

theorem execExit_goes (w : CtlWord) : Goes s (execExit w s) := by
  unfold execExit
  (repeat' (first | split | (dsimp only; split))) <;> simp (maxDischargeDepth := 40)

theorem execCohnew_goes (w : StdWord) : Goes s (execCohnew w s) := by
  exact cohortWord_goes _ _ _ fun _ _ _ h => cohNew_keeps h _ _

theorem execCohfree_goes (w : StdWord) : Goes s (execCohfree w s) := by
  exact cohortWord_goes _ _ _ fun _ _ _ h => cohFree_keeps h _ _

theorem execJoin_goes (w : StdWord) : Goes s (execJoin w s) := by
  exact cohortWord_goes _ _ _ fun _ _ _ h => cohJoin_keeps h _ _

theorem execLeave_goes (w : StdWord) : Goes s (execLeave w s) := by
  exact cohortWord_goes _ _ _ fun _ _ _ h => cohLeave_keeps h _ _


end Sys2Proof.Machine
end

