-- ==== Sys2Proof/Laws/KeepsMemory.lean ====
section
/-! SUPPORT. Wake cells and the memory words keep what every step keeps, and always answer a next state. -/

set_option Elab.async false
set_option linter.all false

namespace Sys2Proof.Machine

variable {a s t : State}

/-! ### Wake.lean -/

@[simp] theorem modifyQueue_keeps (h : Keeps a s) (die : Nat) (q : Nat) (f : Queue → Queue) : Keeps a (State.modifyQueue s die q f) := by
  unfold State.modifyQueue
  (try dsimp only)
  (repeat' (first | split | (dsimp only; split))) <;>
    first | exact h | exact h.same rfl rfl rfl | (simp +contextual (maxDischargeDepth := 40) [h]; done)

@[simp] theorem tryWrite_keeps (h : Keeps a s) (ctx : Nat) (va : DWord) (bs : List Byte) : Keeps a (s.tryWrite ctx va bs) := by
  unfold State.tryWrite
  split
  · next e => exact deviceWrite_keeps h e
  · exact h

@[simp] theorem queueFault_keeps (h : Keeps a s) (die q code : Nat) (i : DWord) (chip : Nat) :
    Keeps a (s.queueFault die q code i chip) := by
  unfold State.queueFault
  split
  · exact h
  · refine tryWrite_keeps ?_ _ _ _
    split <;> simp [h]

@[simp] theorem tailStore_keeps (h : Keeps a s) (die : Nat) (q : Nat) (v : DWord) : Keeps a (State.tailStore s die q v) := by
  unfold State.tailStore
  (try dsimp only)
  (repeat' (first | split | (dsimp only; split))) <;>
    first | exact h | exact h.same rfl rfl rfl | (simp +contextual (maxDischargeDepth := 40) [h]; done)

@[simp] theorem wakeStore_keeps (h : Keeps a s) (pa : Nat) (v : DWord) : Keeps a (State.wakeStore s pa v) := by
  unfold State.wakeStore
  (try dsimp only)
  (repeat' (first | split | (dsimp only; split))) <;>
    first | exact h | exact h.same rfl rfl rfl | (simp +contextual (maxDischargeDepth := 40) [h]; done)


theorem deviceStore8_keeps (h : Keeps a s) {ctx va : Nat} {v : DWord} (e : s.deviceStore8 ctx va v = .ok t) : Keeps a t := by
  unfold State.deviceStore8 at e
  split at e
  · cases e
  · split at e
    · split at e
      · cases e; exact wakeStore_keeps h _ _
      · exact deviceWrite_keeps h e
    · exact deviceWrite_keeps h e

/-! ### Fabric.lean -/

@[simp] theorem modifyLink_keeps (h : Keeps a s) (n : Nat) (f : Link → Link) : Keeps a (s.modifyLink n f) := by
  unfold State.modifyLink
  split
  · exact h.same rfl rfl rfl
  · exact h

@[simp] theorem answerFlit_keeps (h : Keeps a s) (link id : Nat) (data : List Byte) : Keeps a (s.answerFlit link id data) :=
  modifyLink_keeps h _ _

@[simp] theorem sendAll_keeps (h : Keeps a s) (who : LinkRequest) (rs : List Remote) : Keeps a (s.sendAll who rs).2 :=
  foldl_keeps_of (fun c : List Nat × State => c.2) (fun _ _ h => by dsimp only; refine modifyLink_keeps ?_ _ _; exact h.same rfl rfl rfl) rs h

/-! ### Room.lean -/

theorem growBy_keeps (h : Keeps a s) (die slot ctx n : Nat) : Keeps a (s.growBy die slot ctx n).1 := by
  unfold State.growBy
  split
  · exact h
  · split
    · exact h
    · next e => exact modifyLaunch_keeps (takeSave_keeps h e) _ _ _

@[simp] theorem growRoom_keeps (h : Keeps a s) (die slot : Nat) : Keeps a (s.growRoom die slot).1 := by
  unfold State.growRoom
  split
  · exact h
  · exact growBy_keeps h _ _ _ _

@[simp] theorem dropRoom_keeps (h : Keeps a s) (l : Launch) : Keeps a (s.dropRoom l) :=
  foldl_keeps (fun _ x h => freeSave_keeps h _ _) _ h

/-! ### Access.lean -/

@[simp] theorem storePlain_keeps (h : Keeps a s) (g : Gang) (parts : List (Piece × List Byte)) : Keeps a (g.storePlain s parts) := by
  unfold Gang.storePlain
  refine storeAll_keeps (foldl_keeps (fun s x h => ?_) _ h) _ _
  split <;> simp [h]

@[simp] theorem countReads_keeps (h : Keeps a s) (ctx : Nat) (lanes : List (List Piece)) : Keeps a (State.countReads s ctx lanes) := by
  unfold State.countReads
  (try dsimp only)
  (repeat' (first | split | (dsimp only; split))) <;>
    first | exact h | exact h.same rfl rfl rfl | (simp +contextual (maxDischargeDepth := 40) [h]; done)

@[simp] theorem tally_keeps (h : Keeps a s)  : Keeps a (State.tally s) := by
  unfold State.tally
  (try dsimp only)
  (repeat' (first | split | (dsimp only; split))) <;>
    first | exact h | exact h.same rfl rfl rfl | (simp +contextual (maxDischargeDepth := 40) [h]; done)

@[simp] theorem request_keeps (h : Keeps a s) (core : Nat) (g : GangRef) (ps : List Piece) : Keeps a (s.request core g ps).2 := by
  unfold State.request
  dsimp only; split
  · exact h
  · exact h.same rfl rfl rfl

@[simp] theorem markDirty_keeps (h : Keeps a s) (core : Nat) (a' : Nat) : Keeps a (State.markDirty s core a') := by
  unfold State.markDirty
  (try dsimp only)
  (repeat' (first | split | (dsimp only; split))) <;>
    first | exact h | exact h.same rfl rfl rfl | (simp +contextual (maxDischargeDepth := 40) [h]; done)

@[simp] theorem scratchWrite_keeps (h : Keeps a s) (uid core off : Nat) (bs : List Byte) : Keeps a (s.scratchWrite uid core off bs) := by
  unfold State.scratchWrite
  split
  · simp [h]
  · refine foldl_keeps (fun s x h => ?_) _ (by simp [h])
    split <;> simp [h]

@[simp] theorem healScratch_keeps (h : Keeps a s) (u : WorkUnit) (k : Nat) : Keeps a (s.healScratch u k) := by
  unfold State.healScratch
  split <;> simp [h]

@[simp] theorem settleScratch_keeps (h : Keeps a s) (u : WorkUnit) (ws : List (Nat × Nat)) : Keeps a (s.settleScratch u ws) := by
  unfold State.settleScratch
  dsimp only
  split
  · exact h
  · refine foldl_keeps (fun s x h => ?_) _ h
    split
    · simp [h]
    · exact h.same rfl (by simp) rfl

@[simp] theorem noteLoadError_keeps (h : Keeps a s) (g : Gang) (dst : BitVec 9) (wr : Bool) (bad : List (Nat × Nat)) (addr : Nat × Nat → Nat) :
    Keeps a (s.noteLoadError g dst wr bad addr) := by
  unfold State.noteLoadError
  split
  · exact h
  · exact modifyUnit_keeps h _ _

@[simp] theorem finishLong_keeps (h : Keeps a s) (g : Gang) (w : MemWord) (lanes : List (Nat × Nat)) (requests : List Nat) (kind : Nat → LongKind) (writes : Nat → List RegWrite) : Keeps a (State.finishLong s g w lanes requests kind writes) := by
  unfold State.finishLong
  (try dsimp only)
  (repeat' (first | split | (dsimp only; split))) <;>
    first | exact h | exact h.same rfl rfl rfl | (simp +contextual (maxDischargeDepth := 40) [h]; done)

@[simp] theorem finishMem_keeps (h : Keeps a s) (g : Gang) (w : MemWord) : Keeps a (State.finishMem s g w) := by
  unfold State.finishMem
  (try dsimp only)
  (repeat' (first | split | (dsimp only; split))) <;>
    first | exact h | exact h.same rfl rfl rfl | (simp +contextual (maxDischargeDepth := 40) [h]; done)


/-! ### MemInstr.lean -/

@[simp] theorem issueLoad_keeps (h : Keeps a s) (g : Gang) (w : MemWord) (lanes bad : List (Nat × Nat)) (space : Space) (scalar : Bool)
    (requests : List Nat) (va badVa val : Nat × Nat → Nat) : Keeps a (s.issueLoad g w lanes bad space scalar requests va badVa val) :=
  finishLong_keeps (noteLoadError_keeps h _ _ _ _ _) _ _ _ _ _ _

@[simp] theorem loadGlobal_keeps (h : Keeps a s) (g : Gang) (opc : Nat) (w : MemWord) (r i : Bool) (space : Space) (scalar : Bool)
    (align : Nat) : Keeps a (s.loadGlobal g opc w r i space scalar align) := by
  unfold State.loadGlobal
  dsimp only; split
  · simp [h]
  · split
    · exact h
    · exact issueLoad_keeps (sendAll_keeps (request_keeps (countReads_keeps (drawFree_keeps h _) _ _) _ _ _) _ _) _ _ _ _ _ _ _ _ _ _

theorem execLd_goes (w : MemWord) : Goes s (execLd w s) := by
  unfold execLd
  (repeat' (first | split | (dsimp only; split))) <;> simp +contextual (maxDischargeDepth := 40)

theorem execLdc_goes (w : MemWord) : Goes s (execLdc w s) := by
  unfold execLdc
  (repeat' (first | split | (dsimp only; split))) <;> simp +contextual (maxDischargeDepth := 40)

theorem execLds_goes (w : MemWord) : Goes s (execLds w s) := by
  unfold execLds
  split
  · simp
  · dsimp only
    split
    · simp
    · split <;> simp

theorem execSt_goes (w : MemWord) : Goes s (execSt w s) := by
  unfold execSt
  split
  · simp
  · dsimp only
    split
    · simp
    · split
      · simp
      · exact goes_next.2 (finishMem_keeps (sendAll_keeps (request_keeps (modifyUnit_keeps (storePlain_keeps (Keeps.refl s) _ _) _ _) _ _ _) _ _) _ _)

theorem execSts_goes (w : MemWord) : Goes s (execSts w s) := by
  unfold execSts
  (repeat' (first | split | (dsimp only; split))) <;> simp +contextual (maxDischargeDepth := 40)

theorem execFence_goes (w : MemWord) : Goes s (execFence w s) := by
  unfold execFence
  (repeat' (first | split | (dsimp only; split))) <;> simp +contextual (maxDischargeDepth := 40)

theorem execPref_goes (w : MemWord) : Goes s (execPref w s) := by
  unfold execPref
  (repeat' (first | split | (dsimp only; split))) <;> simp +contextual (maxDischargeDepth := 40)

@[simp] theorem zeroPage_keeps (h : Keeps a s) (base size : Nat) : Keeps a (s.zeroPage base size) := by
  have k := dropSnapshot_keeps h base size
  exact ⟨fun w => wf_filter (h.mem w) _, k.dies, k.fixed⟩

@[simp] theorem hintPage_keeps (h : Keeps a s) (w : MemWord) (leaf : Leaf) (next : Word) : Keeps a (s.hintPage w leaf next) := by
  unfold State.hintPage
  split
  · exact h
  · dsimp only
    refine Keeps.hints ?_ _
    split <;> simp [h]

theorem execHint_goes (w : MemWord) : Goes s (execHint w s) := by
  unfold execHint
  split
  · simp
  · dsimp only
    split
    · simp
    · split
      · simp
      · refine goes_next.2 (finishMem_keeps (foldl_keeps (fun s x h => ?_) _ (Keeps.refl s)) _ _)
        split <;> simp [h]

theorem execStepadv_goes (w : MemWord) : Goes s (execStepadv w s) := by
  unfold execStepadv
  (repeat' (first | split | (dsimp only; split))) <;> simp +contextual (maxDischargeDepth := 40)


/-! ### Atomics.lean -/

@[simp] theorem finishAtomic_keeps (h : Keeps a s) (g : Gang) (e : AtomicEntry) (w : MemWord) (lanes bad : List (Nat × Nat))
    (requests : List Nat) (addr : Nat × Nat → Nat) (olds : List ((Nat × Nat) × Nat)) :
    Keeps a (s.finishAtomic g e w lanes bad requests addr olds) := by
  unfold State.finishAtomic
  split
  · simp [h]
  · exact finishLong_keeps (noteLoadError_keeps h _ _ _ _ _) _ _ _ _ _ _

@[simp] theorem atomWord_goes (e : AtomicEntry) (w : MemWord) : Goes s (atomWord e w s) := by
  unfold atomWord
  split
  · simp
  · dsimp only
    split
    · simp
    · split
      · simp
      · refine goes_next.2 (finishAtomic_keeps (sendAll_keeps
          (foldl_keeps_of (fun c : State × List ((Nat × Nat) × Nat) => c.1) (fun c x h => ?_) _ ?_) _ _) _ _ _ _ _ _ _ _)
        · split
          · split <;> simp [h]
          · simp [h]
        · simp

@[simp] theorem atomsWord_goes (e : AtomicEntry) (w : MemWord) : Goes s (atomsWord e w s) := by
  unfold atomsWord
  split
  · simp
  · dsimp only
    split
    · simp
    · split
      · simp
      · refine goes_next.2 (finishAtomic_keeps (foldl_keeps_of (fun c : State × List ((Nat × Nat) × Nat) => c.1) (fun c x h => ?_) _ ?_) _ _ _ _ _ _ _ _)
        · split
          · split <;> simp [h]
          · simp [h]
        · simp

theorem execAtomsAdd_goes (w : MemWord) : Goes s (execAtomsAdd w s) := by
  unfold execAtomsAdd
  (repeat' (first | split | (dsimp only; split))) <;> simp +contextual (maxDischargeDepth := 40)

theorem execAtomsSmin_goes (w : MemWord) : Goes s (execAtomsSmin w s) := by
  unfold execAtomsSmin
  (repeat' (first | split | (dsimp only; split))) <;> simp +contextual (maxDischargeDepth := 40)

theorem execAtomsSmax_goes (w : MemWord) : Goes s (execAtomsSmax w s) := by
  unfold execAtomsSmax
  (repeat' (first | split | (dsimp only; split))) <;> simp +contextual (maxDischargeDepth := 40)

theorem execAtomsUmin_goes (w : MemWord) : Goes s (execAtomsUmin w s) := by
  unfold execAtomsUmin
  (repeat' (first | split | (dsimp only; split))) <;> simp +contextual (maxDischargeDepth := 40)

theorem execAtomsUmax_goes (w : MemWord) : Goes s (execAtomsUmax w s) := by
  unfold execAtomsUmax
  (repeat' (first | split | (dsimp only; split))) <;> simp +contextual (maxDischargeDepth := 40)

theorem execAtomsAnd_goes (w : MemWord) : Goes s (execAtomsAnd w s) := by
  unfold execAtomsAnd
  (repeat' (first | split | (dsimp only; split))) <;> simp +contextual (maxDischargeDepth := 40)

theorem execAtomsOr_goes (w : MemWord) : Goes s (execAtomsOr w s) := by
  unfold execAtomsOr
  (repeat' (first | split | (dsimp only; split))) <;> simp +contextual (maxDischargeDepth := 40)

theorem execAtomsXor_goes (w : MemWord) : Goes s (execAtomsXor w s) := by
  unfold execAtomsXor
  (repeat' (first | split | (dsimp only; split))) <;> simp +contextual (maxDischargeDepth := 40)

theorem execAtomsExch_goes (w : MemWord) : Goes s (execAtomsExch w s) := by
  unfold execAtomsExch
  (repeat' (first | split | (dsimp only; split))) <;> simp +contextual (maxDischargeDepth := 40)

theorem execAtomsCas_goes (w : MemWord) : Goes s (execAtomsCas w s) := by
  unfold execAtomsCas
  (repeat' (first | split | (dsimp only; split))) <;> simp +contextual (maxDischargeDepth := 40)

theorem execAtomsIncw_goes (w : MemWord) : Goes s (execAtomsIncw w s) := by
  unfold execAtomsIncw
  (repeat' (first | split | (dsimp only; split))) <;> simp +contextual (maxDischargeDepth := 40)

theorem execAtomsDecw_goes (w : MemWord) : Goes s (execAtomsDecw w s) := by
  unfold execAtomsDecw
  (repeat' (first | split | (dsimp only; split))) <;> simp +contextual (maxDischargeDepth := 40)

theorem execAtomAdd_goes (w : MemWord) : Goes s (execAtomAdd w s) := by
  unfold execAtomAdd
  (repeat' (first | split | (dsimp only; split))) <;> simp +contextual (maxDischargeDepth := 40)

theorem execAtomSmin_goes (w : MemWord) : Goes s (execAtomSmin w s) := by
  unfold execAtomSmin
  (repeat' (first | split | (dsimp only; split))) <;> simp +contextual (maxDischargeDepth := 40)

theorem execAtomSmax_goes (w : MemWord) : Goes s (execAtomSmax w s) := by
  unfold execAtomSmax
  (repeat' (first | split | (dsimp only; split))) <;> simp +contextual (maxDischargeDepth := 40)

theorem execAtomUmin_goes (w : MemWord) : Goes s (execAtomUmin w s) := by
  unfold execAtomUmin
  (repeat' (first | split | (dsimp only; split))) <;> simp +contextual (maxDischargeDepth := 40)

theorem execAtomUmax_goes (w : MemWord) : Goes s (execAtomUmax w s) := by
  unfold execAtomUmax
  (repeat' (first | split | (dsimp only; split))) <;> simp +contextual (maxDischargeDepth := 40)

theorem execAtomAnd_goes (w : MemWord) : Goes s (execAtomAnd w s) := by
  unfold execAtomAnd
  (repeat' (first | split | (dsimp only; split))) <;> simp +contextual (maxDischargeDepth := 40)

theorem execAtomOr_goes (w : MemWord) : Goes s (execAtomOr w s) := by
  unfold execAtomOr
  (repeat' (first | split | (dsimp only; split))) <;> simp +contextual (maxDischargeDepth := 40)

theorem execAtomXor_goes (w : MemWord) : Goes s (execAtomXor w s) := by
  unfold execAtomXor
  (repeat' (first | split | (dsimp only; split))) <;> simp +contextual (maxDischargeDepth := 40)

theorem execAtomExch_goes (w : MemWord) : Goes s (execAtomExch w s) := by
  unfold execAtomExch
  (repeat' (first | split | (dsimp only; split))) <;> simp +contextual (maxDischargeDepth := 40)

theorem execAtomCas_goes (w : MemWord) : Goes s (execAtomCas w s) := by
  unfold execAtomCas
  (repeat' (first | split | (dsimp only; split))) <;> simp +contextual (maxDischargeDepth := 40)

theorem execAtomIncw_goes (w : MemWord) : Goes s (execAtomIncw w s) := by
  unfold execAtomIncw
  (repeat' (first | split | (dsimp only; split))) <;> simp +contextual (maxDischargeDepth := 40)

theorem execAtomDecw_goes (w : MemWord) : Goes s (execAtomDecw w s) := by
  unfold execAtomDecw
  (repeat' (first | split | (dsimp only; split))) <;> simp +contextual (maxDischargeDepth := 40)

theorem execFatomAdd_goes (w : MemWord) : Goes s (execFatomAdd w s) := by
  unfold execFatomAdd
  (repeat' (first | split | (dsimp only; split))) <;> simp +contextual (maxDischargeDepth := 40)

theorem execFatomMin_goes (w : MemWord) : Goes s (execFatomMin w s) := by
  unfold execFatomMin
  (repeat' (first | split | (dsimp only; split))) <;> simp +contextual (maxDischargeDepth := 40)

theorem execFatomMax_goes (w : MemWord) : Goes s (execFatomMax w s) := by
  unfold execFatomMax
  (repeat' (first | split | (dsimp only; split))) <;> simp +contextual (maxDischargeDepth := 40)

theorem execSop_goes (w : MemWord) : Goes s (execSop w s) := by
  unfold execSop
  split
  · simp
  · dsimp only
    split
    · simp
    · split
      · simp
      · refine goes_next.2 (finishMem_keeps (sendAll_keeps (foldl_keeps (fun s x h => foldl_keeps (fun s y h => ?_) _ h) _ (by simp)) _ _) _ _)
        split <;> simp [h]

@[simp] theorem modifyRunWindow_keeps (h : Keeps a s) (run : RunRef) (x y k : Nat) (f : RunWindow → RunWindow) :
    Keeps a (s.modifyRunWindow run x y k f) := h.same rfl rfl rfl

@[simp] theorem contribute_keeps (h : Keeps a s) (run : RunRef) (c : Contribution) : Keeps a (s.contribute run c) :=
  modifyRunWindow_keeps h _ _ _ _ _

@[simp] theorem contributeAll_keeps (h : Keeps a s) (run : RunRef) (cs : List Contribution) : Keeps a (s.contributeAll run cs) :=
  foldl_keeps (fun _ x h => contribute_keeps h run x) _ h

@[simp] theorem addContributions_keeps (h : Keeps a s) (g : Gang) (cs : List Contribution) : Keeps a (s.addContributions g cs) := by
  unfold State.addContributions
  split
  · simp [h]
  · exact contributeAll_keeps (sendAll_keeps h _ _) _ _

theorem execOrdadd_goes (w : MemWord) : Goes s (execOrdadd w s) := by
  unfold execOrdadd
  split
  · simp
  · dsimp only
    split
    · simp
    · split
      · simp
      · refine goes_next.2 ?_
        split
        · exact finishMem_keeps (modifyUnit_keeps (growRoom_keeps (addContributions_keeps (Keeps.refl s) _ _) _ _) _ _) _ _
        · exact abortLaunch_keeps (modifyUnit_keeps (growRoom_keeps (addContributions_keeps (Keeps.refl s) _ _) _ _) _ _) _ _ _ _

theorem execOclose_goes (w : MemWord) : Goes s (execOclose w s) := by
  unfold execOclose
  (repeat' (first | split | (dsimp only; split))) <;> simp +contextual (maxDischargeDepth := 40)

@[simp] theorem sumWord_keeps (h : Keeps a s) (ctx : Nat) (fpm : BitVec 4) (pa : Nat) (wide : Bool) (cs : List Contribution) : Keeps a (State.sumWord s ctx fpm pa wide cs) := by
  unfold State.sumWord
  (try dsimp only)
  (repeat' (first | split | (dsimp only; split))) <;>
    first | exact h | exact h.same rfl rfl rfl | (simp +contextual (maxDischargeDepth := 40) [h]; done)

@[simp] theorem sumWords_keeps (h : Keeps a s) (ctx : Nat) (cs : List Contribution) : Keeps a (s.sumWords ctx cs) := by
  unfold State.sumWords
  exact foldl_keeps (fun s x h => sumWord_keeps h _ _ _ _ _) _ h

@[simp] theorem windowOver_keeps (h : Keeps a s) (die slot scope set k : Nat) : Keeps a (s.windowOver die slot scope set k) := by
  unfold State.windowOver
  exact Keeps.units (modifyLaunch_keeps h _ _ _) _

@[simp] theorem closeWindow_keeps (h : Keeps a s) (die slot scope set k : Nat) : Keeps a (s.closeWindow die slot scope set k) := by
  unfold State.closeWindow
  split
  · exact h
  · exact windowOver_keeps (sendAll_keeps (modifyLaunch_keeps (sumWords_keeps h _ _) _ _ _) _ _) _ _ _ _ _

@[simp] theorem answerTo_keeps (h : Keeps a s) (b : Option (Nat × Nat)) : Keeps a (s.answerTo b) := by
  unfold State.answerTo
  split
  · exact answerFlit_keeps h _ _ _
  · exact h

@[simp] theorem closeRunWindow_keeps (h : Keeps a s) (w : RunWindow) : Keeps a (s.closeRunWindow w) := by
  unfold State.closeRunWindow
  exact foldl_keeps (fun _ x h => answerTo_keeps h x.2) _ ((sumWords_keeps h _ _).same rfl rfl rfl)

@[simp] theorem closeRunWindows_keeps (h : Keeps a s) : Keeps a s.closeRunWindows :=
  foldl_keeps (fun _ x h => closeRunWindow_keeps h x) _ h

@[simp] theorem runSignal_keeps (h : Keeps a s) (run : RunRef) (chip : Nat) (w : Option (Nat × Nat × Nat)) (b : Option (Nat × Nat)) :
    Keeps a (s.runSignal run chip w b) := by
  unfold State.runSignal
  split
  · exact closeRunWindows_keeps (modifyRunWindow_keeps h _ _ _ _ _)
  · refine closeRunWindows_keeps (answerTo_keeps ?_ _)
    exact h.same rfl rfl rfl

@[simp] theorem signalRun_keeps (h : Keeps a s) (l : Launch) (w : Option (Nat × Nat × Nat)) : Keeps a (s.signalRun l w) := by
  unfold State.signalRun
  exact runSignal_keeps (sendAll_keeps h _ _) _ _ _ _

@[simp] theorem closeShared_keeps (h : Keeps a s) (l : Launch) (scope set k : Nat) : Keeps a (s.closeShared l scope set k) := by
  unfold State.closeShared
  dsimp only
  (repeat' split) <;> simp [h]

theorem execWindowClose_goes (die : Nat) (slot : Nat) (scope : Nat) (set : Nat) (k : Nat) : Goes s (execWindowClose die slot scope set k s) := by
  unfold execWindowClose
  (repeat' (first | split | (dsimp only; split))) <;> simp +contextual (maxDischargeDepth := 40)

@[simp] theorem closeSet_keeps (h : Keeps a s) (die : Nat) (slot : Nat) (set : Nat) : Keeps a (State.closeSet s die slot set) := by
  unfold State.closeSet
  (try dsimp only)
  (repeat' (first | split | (dsimp only; split))) <;>
    first | exact h | exact h.same rfl rfl rfl | (simp +contextual (maxDischargeDepth := 40) [h]; done)


/-! ### Rings.lean -/

@[simp] theorem ringStep_keeps (h : Keeps a s) (g : Gang) (w : MemWord) (push : Bool) (lanes : List (Nat × Nat)) :
    Keeps a (s.ringStep g w push lanes).1 := by
  unfold State.ringStep
  refine foldl_keeps_of (fun c : State × List RingGot => c.1) (fun c x h => ?_) lanes h
  dsimp only
  split <;> split <;> simp [h]

@[simp] theorem ringPut_keeps (h : Keeps a s) (g : Gang) (w : MemWord) (r : RingGot) : Keeps a (State.ringPut s g w r) := by
  unfold State.ringPut
  (try dsimp only)
  (repeat' (first | split | (dsimp only; split))) <;>
    first | exact h | exact h.same rfl rfl rfl | (simp +contextual (maxDischargeDepth := 40) [h]; done)

@[simp] theorem ringFinish_keeps (h : Keeps a s) (g : Gang) (w : MemWord) (push pop : Bool) (lanes todo : List (Nat × Nat))
    (got : List RingGot) : Keeps a (s.ringFinish g w push pop lanes todo got) := by
  have k : Keeps a (if push = true then got.foldl (fun s r => s.ringPut g w r) s
      else s.modifyUnit g.u.uid fun u => u.ringResults g w pop lanes got) := by
    split
    · exact foldl_keeps (fun _ x h => ringPut_keeps h g w x) _ h
    · exact modifyUnit_keeps h _ _
  unfold State.ringFinish
  dsimp only
  split
  · exact finishWord_keeps (modifyUnit_keeps (modifyUnit_keeps k _ _) _ _) _ _ _
  · split
    · exact finishWord_keeps (modifyUnit_keeps k _ _) _ _ _
    · exact holdWord_keeps (modifyUnit_keeps k _ _) _

@[simp] theorem ringWord_goes (opc : Nat) (w : MemWord) (push pop : Bool) : Goes s (ringWord opc w push pop s) := by
  unfold ringWord
  split
  · simp
  · next g _ =>
    have k : Keeps s (if (push || pop) = true then s.ringStep g w push ((g.executing w.c).filter fun x => !g.ringHeld x)
        else (s, s.ringPeek g w ((g.executing w.c).filter fun x => !g.ringHeld x))).1 := by
      split <;> simp
    dsimp only
    generalize (if (push || pop) = true then s.ringStep g w push ((g.executing w.c).filter fun x => !g.ringHeld x)
        else (s, s.ringPeek g w ((g.executing w.c).filter fun x => !g.ringHeld x))) = r at k ⊢
    split
    · simp
    · split
      · simp
      · split
        · exact goes_next.2 (holdWord_keeps (modifyUnit_keeps (Keeps.refl s) _ _) _)
        · split
          · exact goes_next.2 (enterTrap_keeps k _ _)
          · exact goes_next.2 (ringFinish_keeps k _ _ _ _ _ _ _)

theorem execQpush_goes (w : MemWord) : Goes s (execQpush w s) := by
  unfold execQpush
  (repeat' (first | split | (dsimp only; split))) <;> simp +contextual (maxDischargeDepth := 40)

theorem execQpop_goes (w : MemWord) : Goes s (execQpop w s) := by
  unfold execQpop
  (repeat' (first | split | (dsimp only; split))) <;> simp +contextual (maxDischargeDepth := 40)

theorem execQpeek_goes (w : MemWord) : Goes s (execQpeek w s) := by
  unfold execQpeek
  (repeat' (first | split | (dsimp only; split))) <;> simp +contextual (maxDischargeDepth := 40)

@[simp] theorem ringAdvance_keeps (h : Keeps a s) (ctx pa c n : Nat) : Keeps a (s.ringAdvance ctx pa c n) := by
  induction n generalizing s with
  | zero => exact h
  | succ n ih =>
    unfold State.ringAdvance
    dsimp only; split
    · refine ih (storeAll_keeps ?_ _ _)
      exact h.same rfl rfl rfl
    · exact h

@[simp] theorem ringRead_keeps (h : Keeps a s) (ctx : Nat) (r : RingRead) : Keeps a (s.ringRead ctx r) := by
  unfold State.ringRead
  split
  · refine ringAdvance_keeps ?_ _ _ _ _
    exact h.same rfl rfl rfl
  · exact h


end Sys2Proof.Machine
end

