-- ==== Sys2Proof/Laws/KeepsSync.lean ====
section
/-! SUPPORT. Tags, barriers and segments keep what every step keeps, and always answer a next state. -/

set_option Elab.async false
set_option linter.all false

namespace Sys2Proof.Machine

variable {a s t : State}

/-! ### Tags.lean -/

theorem onceWord_goes (opc : Nat) (w : StdWord) (e : Gang → AluEntry) (act : State → Gang → List (Nat × Nat) → State)
    (ha : ∀ g l, Keeps s (act s g l)) : Goes s (onceWord opc w e act s) := by
  unfold onceWord
  split
  · simp
  · dsimp only
    (repeat' split) <;> first | exact goes_next.2 (ha _ _) | simp

theorem execTagexp_goes (w : StdWord) : Goes s (execTagexp w s) := by
  unfold execTagexp
  refine onceWord_goes _ _ _ _ fun g l => ?_
  dsimp only
  (repeat' split) <;> simp (maxDischargeDepth := 40)

@[simp] theorem tagTrap_keeps (h : Keeps a s) (g : Gang) (lanes : List (Nat × Nat)) (f : Nat × Cause) : Keeps a (State.tagTrap s g lanes f) := by
  unfold State.tagTrap
  (try dsimp only)
  (repeat' (first | split | (dsimp only; split))) <;>
    first | exact h | exact h.same rfl rfl rfl | (simp +contextual (maxDischargeDepth := 40) [h]; done)

@[simp] theorem tagWait_goes (opc : Nat) (w : StdWord) (mods : Nat) (dst : Option Nat) (done : List Nat → List Nat → Bool)
    (result : List Nat → Nat) : Goes s (tagWait opc w mods dst done result s) := by
  refine onceWord_goes _ _ _ _ fun g l => ?_
  dsimp only
  (repeat' split) <;> simp (maxDischargeDepth := 40)

theorem execTwait_goes (w : StdWord) : Goes s (execTwait w s) := by
  unfold execTwait
  (repeat' (first | split | (dsimp only; split))) <;> simp +contextual (maxDischargeDepth := 40)

theorem execTwany_goes (w : StdWord) : Goes s (execTwany w s) := by
  unfold execTwany
  (repeat' (first | split | (dsimp only; split))) <;> simp +contextual (maxDischargeDepth := 40)

theorem execTfirst_goes (w : StdWord) : Goes s (execTfirst w s) := by
  unfold execTfirst
  (repeat' (first | split | (dsimp only; split))) <;> simp +contextual (maxDischargeDepth := 40)

theorem execCwait_goes (w : StdWord) : Goes s (execCwait w s) := by
  refine onceWord_goes _ _ _ _ fun g l => ?_
  dsimp only
  (repeat' split) <;> simp (maxDischargeDepth := 40)


/-! ### Sync.lean -/

@[simp] theorem arriveAll_keeps (h : Keeps a s) (g : Gang) (slot : Nat) (w : Wait) (un : Bool) : Keeps a (s.arriveAll g slot w un) :=
  afterSlices_keeps (modifyUnit_keeps h _ _) _

@[simp] theorem barrierWait_keeps (h : Keeps a s) (g : Gang) (slot : Nat) (epoch : Option Nat) : Keeps a (State.barrierWait s g slot epoch) := by
  unfold State.barrierWait
  (try dsimp only)
  (repeat' (first | split | (dsimp only; split))) <;>
    first | exact h | exact h.same rfl rfl rfl | (simp +contextual (maxDischargeDepth := 40) [h]; done)

@[simp] theorem barrierWord_keeps (h : Keeps a s) (g : Gang) (y : Bool) (slot : Nat) (epoch : Option Nat) : Keeps a (State.barrierWord s g y slot epoch) := by
  unfold State.barrierWord
  (try dsimp only)
  (repeat' (first | split | (dsimp only; split))) <;>
    first | exact h | exact h.same rfl rfl rfl | (simp +contextual (maxDischargeDepth := 40) [h]; done)

theorem execBar_goes (w : CtlWord) : Goes s (execBar w s) := by
  unfold execBar
  (repeat' (first | split | (dsimp only; split))) <;> simp +contextual (maxDischargeDepth := 40)

theorem execArrive_goes (w : CtlWord) : Goes s (execArrive w s) := by
  unfold execArrive
  (repeat' (first | split | (dsimp only; split))) <;> simp +contextual (maxDischargeDepth := 40)

theorem execWaitb_goes (w : CtlWord) : Goes s (execWaitb w s) := by
  unfold execWaitb
  (repeat' (first | split | (dsimp only; split))) <;> simp +contextual (maxDischargeDepth := 40)

theorem execCbar_goes (w : StdWord) : Goes s (execCbar w s) := by
  unfold execCbar
  (repeat' (first | split | (dsimp only; split))) <;> simp +contextual (maxDischargeDepth := 40)

@[simp] theorem setPreds_keeps (h : Keeps a s) (g : Gang) (lanes : List (Nat × Nat)) (n : Nat) (b : Bool) : Keeps a (State.setPreds s g lanes n b) := by
  unfold State.setPreds
  (try dsimp only)
  (repeat' (first | split | (dsimp only; split))) <;>
    first | exact h | exact h.same rfl rfl rfl | (simp +contextual (maxDischargeDepth := 40) [h]; done)

theorem execTkwait_goes (w : StdWord) : Goes s (execTkwait w s) := by
  unfold execTkwait
  refine onceWord_goes _ _ _ _ fun g l => ?_
  (repeat' split) <;> simp (maxDischargeDepth := 40)

theorem execTkpass_goes (w : CtlWord) : Goes s (execTkpass w s) := by
  unfold execTkpass
  (repeat' (first | split | (dsimp only; split))) <;> simp +contextual (maxDischargeDepth := 40)

theorem execDmerge_goes (w : CtlWord) : Goes s (execDmerge w s) := by
  unfold execDmerge
  (repeat' (first | split | (dsimp only; split))) <;> simp +contextual (maxDischargeDepth := 40)

@[simp] theorem dropContributions_keeps (h : Keeps a s) (u : WorkUnit) (orders : List Nat) : Keeps a (s.dropContributions u orders) := by
  unfold State.dropContributions
  split
  · exact h
  · dsimp only
    refine modifyLaunch_keeps ?_ _ _ _
    exact h.same rfl rfl rfl

theorem mergeOne_keeps {m : Merge} (h : Keeps a m.s) (i : Interval) : Keeps a (m.one i).s := by
  unfold Merge.one
  split
  · exact h
  · simp (maxDischargeDepth := 40) [h]

@[simp] theorem mergeIntervals_keeps (h : Keeps a s) (die slot : Nat) (is : List Interval) :
    Keeps a (s.mergeIntervals die slot is).1 :=
  Keeps.units (foldl_keeps_of Merge.s (fun _ i h => mergeOne_keeps h i) is h) _

@[simp] theorem conflictTraps_keeps (h : Keeps a s) (uid : Nat) (gangs : List GangRef) (a' : DWord) :
    Keeps a (s.conflictTraps uid gangs a') := by
  refine foldl_keeps (fun s x h => ?_) _ (modifyUnit_keeps h _ _)
  dsimp only
  split <;> simp (maxDischargeDepth := 40) [h]

@[simp] theorem conflictAbort_keeps (h : Keeps a s) (die : Nat) (slot : Nat) : Keeps a (State.conflictAbort s die slot) := by
  unfold State.conflictAbort
  (try dsimp only)
  (repeat' (first | split | (dsimp only; split))) <;>
    first | exact h | exact h.same rfl rfl rfl | (simp +contextual (maxDischargeDepth := 40) [h]; done)

@[simp] theorem mergeEpoch_keeps (h : Keeps a s) (l : Launch) : Keeps a (s.mergeEpoch l) := by
  unfold State.mergeEpoch
  dsimp only
  split
  · exact conflictAbort_keeps (foldl_keeps (fun s x h => conflictTraps_keeps h _ _ _) _
      (modifyLaunch_keeps (Keeps.units (mergeIntervals_keeps h _ _ _) _) _ _ _)) _ _
  · exact foldl_keeps (fun s x h => conflictTraps_keeps h _ _ _) _
      (modifyLaunch_keeps (Keeps.units (mergeIntervals_keeps h _ _ _) _) _ _ _)

theorem execEpochMerge_goes (die : Nat) (slot : Nat) : Goes s (execEpochMerge die slot s) := by
  unfold execEpochMerge
  (repeat' (first | split | (dsimp only; split))) <;> simp +contextual (maxDischargeDepth := 40)


/-! ### Segments.lean -/

@[simp] theorem modifySegment_keeps (h : Keeps a s) (ctx : Nat) (name : DWord) (f : Segment → Segment) : Keeps a (State.modifySegment s ctx name f) := by
  unfold State.modifySegment
  (try dsimp only)
  (repeat' (first | split | (dsimp only; split))) <;>
    first | exact h | exact h.same rfl rfl rfl | (simp +contextual (maxDischargeDepth := 40) [h]; done)

@[simp] theorem dropSegment_keeps (h : Keeps a s) (ctx : Nat) (name : DWord) : Keeps a (State.dropSegment s ctx name) := by
  unfold State.dropSegment
  (try dsimp only)
  (repeat' (first | split | (dsimp only; split))) <;>
    first | exact h | exact h.same rfl rfl rfl | (simp +contextual (maxDischargeDepth := 40) [h]; done)

@[simp] theorem fillArea_keeps (h : Keeps a s) (core off : Nat) (bs : List Byte) : Keeps a (s.fillArea core off bs) := by
  unfold State.fillArea
  exact modifyCore_keeps h _ _

theorem writeBlock_keeps (h : Keeps a s) {x : Segment} {core b : Nat} (e : s.writeBlock x core b = .ok t) : Keeps a t := by
  unfold State.writeBlock at e
  dsimp only at e
  split at e
  · cases e
  · split at e
    · cases e
    · next k => cases e; exact deviceWrite_keeps h k

theorem writeBack_keeps (h : Keeps a s) {x : Segment} (e : s.writeBack x = .ok t) : Keeps a t := by
  unfold State.writeBack at e
  split at e
  · cases e; exact h
  · have key : ∀ (l : List Nat) (acc : Except AccessFault State), (∀ r, acc = .ok r → Keeps a r) →
        ∀ f : Except AccessFault State → Nat → Except AccessFault State,
        (∀ acc b, (∀ r, acc = .ok r → Keeps a r) → ∀ r, f acc b = .ok r → Keeps a r) → ∀ r, l.foldl f acc = .ok r → Keeps a r := by
      intro l
      induction l with
      | nil => intro acc ha f _ r hr; exact ha r hr
      | cons y l ih => intro acc ha f hf r hr; exact ih _ (hf acc y ha) f hf r hr
    refine key _ _ (fun r hr => by cases hr; exact h) _ (fun acc b ha r hr => ?_) t e
    split at hr
    · cases hr
    · exact writeBlock_keeps (ha _ rfl) hr

@[simp] theorem freeArea_keeps (h : Keeps a s) (core : Nat) (off : Nat) (size : Nat) : Keeps a (State.freeArea s core off size) := by
  unfold State.freeArea
  (try dsimp only)
  (repeat' (first | split | (dsimp only; split))) <;>
    first | exact h | exact h.same rfl rfl rfl | (simp +contextual (maxDischargeDepth := 40) [h]; done)

theorem evict_keeps (h : Keeps a s) {x : Segment} (e : s.evict x = .ok t) : Keeps a t := by
  unfold State.evict at e
  split at e
  · cases e; exact h
  · split at e
    · cases e
    · next k => cases e; simp (maxDischargeDepth := 40) [writeBack_keeps h k]

@[simp] theorem tryEvict_keeps (h : Keeps a s) (x : Segment) : Keeps a (s.tryEvict x) := by
  unfold State.tryEvict
  split
  · next k => exact evict_keeps h k
  · simp (maxDischargeDepth := 40) [h]

@[simp] theorem makeRoom_keeps (h : Keeps a s) (core size n : Nat) : Keeps a (s.makeRoom core size n).1 := by
  induction n generalizing s with
  | zero => exact h
  | succ n ih =>
    unfold State.makeRoom
    split
    · exact h
    · split
      · exact h
      · exact ih (tryEvict_keeps h _)

@[simp] theorem room_keeps (h : Keeps a s) (core : Nat) (size : Nat) : Keeps a (State.room s core size).1 := by
  unfold State.room
  (try dsimp only)
  (repeat' (first | split | (dsimp only; split))) <;> simp +contextual (maxDischargeDepth := 40) [h]

@[simp] theorem attachTo_keeps (h : Keeps a s) (uid : Nat) (x : Segment) : Keeps a (State.attachTo s uid x) := by
  unfold State.attachTo
  (try dsimp only)
  (repeat' (first | split | (dsimp only; split))) <;>
    first | exact h | exact h.same rfl rfl rfl | (simp +contextual (maxDischargeDepth := 40) [h]; done)

@[simp] theorem beginReload_keeps (h : Keeps a s) (x : Segment) (core : Nat) (off : Nat) : Keeps a (State.beginReload s x core off) := by
  unfold State.beginReload
  (try dsimp only)
  (repeat' (first | split | (dsimp only; split))) <;>
    first | exact h | exact h.same rfl rfl rfl | (simp +contextual (maxDischargeDepth := 40) [h]; done)

@[simp] theorem attachFault_keeps (h : Keeps a s) (uid : Nat) (c : Cause) (addr : DWord) (info : Word) :
    Keeps a (s.attachFault uid c addr info) := modifyUnit_keeps h _ _

@[simp] theorem backingFault_keeps (h : Keeps a s) (uid : Nat) (w : Bool) (f : AccessFault) : Keeps a (s.backingFault uid w f) :=
  attachFault_keeps h _ _ _ _

@[simp] theorem attachWaits_keeps (h : Keeps a s) (uid : Nat) : Keeps a (s.attachWaits uid) := modifyUnit_keeps h _ _

@[simp] theorem attachFree_keeps (h : Keeps a s) (uid : Nat) : Keeps a (s.attachFree uid) := modifyUnit_keeps h _ _

@[simp] theorem attachDone_keeps (h : Keeps a s) (uid : Nat) (x : Segment) : Keeps a (State.attachDone s uid x) := by
  unfold State.attachDone
  (try dsimp only)
  (repeat' (first | split | (dsimp only; split))) <;>
    first | exact h | exact h.same rfl rfl rfl | (simp +contextual (maxDischargeDepth := 40) [h]; done)

@[simp] theorem acquireGo_keeps (h : Keeps a s) (uid n : Nat) : Keeps a (s.acquireGo uid n) := by
  induction n generalizing s with
  | zero => exact h
  | succ n ih =>
    unfold State.acquireGo
    split
    · exact h
    · next u _ =>
      split
      · exact h
      · split
        · exact attachFault_keeps h _ _ _ _
        · dsimp only
          split
          · split
            · exact ih (attachDone_keeps h _ _)
            · exact attachFault_keeps h _ _ _ _
          · split
            · exact attachFault_keeps h _ _ _ _
            · split
              · exact attachFree_keeps h _
              · split
                · exact attachWaits_keeps h _
                · have k := fun size => room_keeps (attachFree_keeps h uid) u.core size
                  split
                  · next r => exact (r ▸ k _ : Keeps a (_, _).1)
                  · next r =>
                    have k := (r ▸ k _ : Keeps a (_, _).1)
                    split
                    · exact backingFault_keeps (tryEvict_keeps k _) _ _ _
                    · next e => exact beginReload_keeps (evict_keeps k e) _ _ _

@[simp] theorem acquire_keeps (h : Keeps a s) (uid : Nat) : Keeps a (State.acquire s uid) := by
  unfold State.acquire
  (try dsimp only)
  (repeat' (first | split | (dsimp only; split))) <;>
    first | exact h | exact h.same rfl rfl rfl | (simp +contextual (maxDischargeDepth := 40) [h]; done)

@[simp] theorem acquireAll_keeps (h : Keeps a s)  : Keeps a (State.acquireAll s) := by
  unfold State.acquireAll
  (try dsimp only)
  (repeat' (first | split | (dsimp only; split))) <;>
    first | exact h | exact h.same rfl rfl rfl | (simp +contextual (maxDischargeDepth := 40) [h]; done)

@[simp] theorem releaseOne_keeps (h : Keeps a s) (uid ctx : Nat) (r : Release) : Keeps a (s.releaseOne uid ctx r) := by
  unfold State.releaseOne
  dsimp only
  split
  · split
    · refine dropSegment_keeps ?_ _ _
      split <;> simp (maxDischargeDepth := 40) [h]
    · simp (maxDischargeDepth := 40) [h]
  · simp (maxDischargeDepth := 40) [h]

@[simp] theorem settleReleases_keeps (h : Keeps a s) (uid : Nat) : Keeps a (State.settleReleases s uid) := by
  unfold State.settleReleases
  (try dsimp only)
  (repeat' (first | split | (dsimp only; split))) <;>
    first | exact h | exact h.same rfl rfl rfl | (simp +contextual (maxDischargeDepth := 40) [h]; done)

@[simp] theorem settleAllReleases_keeps (h : Keeps a s)  : Keeps a (State.settleAllReleases s) := by
  unfold State.settleAllReleases
  (try dsimp only)
  (repeat' (first | split | (dsimp only; split))) <;>
    first | exact h | exact h.same rfl rfl rfl | (simp +contextual (maxDischargeDepth := 40) [h]; done)

@[simp] theorem commandDone_keeps (h : Keeps a s) (uid : Nat) (id : Nat) : Keeps a (State.commandDone s uid id) := by
  unfold State.commandDone
  (try dsimp only)
  (repeat' (first | split | (dsimp only; split))) <;>
    first | exact h | exact h.same rfl rfl rfl | (simp +contextual (maxDischargeDepth := 40) [h]; done)

@[simp] theorem matrixDone_keeps (h : Keeps a s) (uid : Nat) : Keeps a (State.matrixDone s uid) := by
  unfold State.matrixDone
  (try dsimp only)
  (repeat' (first | split | (dsimp only; split))) <;>
    first | exact h | exact h.same rfl rfl rfl | (simp +contextual (maxDischargeDepth := 40) [h]; done)

theorem execSegmentEvict_goes (core : Nat) (ctx : Nat) (name : DWord) : Goes s (execSegmentEvict core ctx name s) := by
  unfold execSegmentEvict
  (repeat' (first | split | (dsimp only; split))) <;> simp +contextual (maxDischargeDepth := 40)

@[simp] theorem segattDone_keeps (h : Keeps a s) (w : SegWaiter) (status : Nat) (off : Nat) : Keeps a (State.segattDone s w status off) := by
  unfold State.segattDone
  (try dsimp only)
  (repeat' (first | split | (dsimp only; split))) <;>
    first | exact h | exact h.same rfl rfl rfl | (simp +contextual (maxDischargeDepth := 40) [h]; done)

@[simp] theorem segattFail_keeps (h : Keeps a s) (w : SegWaiter) (status : Nat) : Keeps a (State.segattFail s w status) := by
  unfold State.segattFail
  (try dsimp only)
  (repeat' (first | split | (dsimp only; split))) <;>
    first | exact h | exact h.same rfl rfl rfl | (simp +contextual (maxDischargeDepth := 40) [h]; done)

@[simp] theorem reloadFailed_keeps (h : Keeps a s) (x : Segment) (core : Nat) (f : AccessFault) : Keeps a (s.reloadFailed x core f) := by
  unfold State.reloadFailed
  dsimp only
  refine foldl_keeps (fun s u h => backingFault_keeps h _ _ _) _ (foldl_keeps (fun s w h => segattFail_keeps h _ _) _ ?_)
  split <;> simp [h]

@[simp] theorem reloadDone_keeps (h : Keeps a s) (x : Segment) (core : Nat) (bs : List Byte) : Keeps a (s.reloadDone x core bs) := by
  unfold State.reloadDone
  dsimp only
  refine foldl_keeps (fun s w h => modifyUnit_keeps (segattDone_keeps ?_ _ _ _) _ _) _
    (foldl_keeps (fun s b h => countRead_keeps h _ _ _) _ (modifySegment_keeps (fillArea_keeps h _ _ _) _ _ _))
  split
  · exact modifyUnit_keeps (modifySegment_keeps h _ _ _) _ _
  · exact attachTo_keeps h _ _

theorem execSegmentReloadComplete_goes (core : Nat) (ctx : Nat) (name : DWord) : Goes s (execSegmentReloadComplete core ctx name s) := by
  unfold execSegmentReloadComplete
  (repeat' (first | split | (dsimp only; split))) <;> simp +contextual (maxDischargeDepth := 40)

theorem segWord_goes (opc : Nat) (w : MemWord) (r i : Gang → Bool) (reads : List Nat)
    (act : State → Gang → List (Nat × Nat) → State) (ha : ∀ t g l, Keeps s t → Keeps s (act t g l)) :
    Goes s (segWord opc w r i reads act s) := by
  unfold segWord
  split
  · simp
  · dsimp only
    split
    · simp
    · split
      · simp
      · split
        · simp
        · exact goes_next.2 (ha _ _ _ (noteSlot_keeps (Keeps.refl s) _))

theorem execSegpub_goes (w : MemWord) : Goes s (execSegpub w s) := by
  refine segWord_goes _ _ _ _ _ _ fun t g l h => ?_
  dsimp only
  split <;> simp [h]

theorem execSegrel_goes (w : MemWord) : Goes s (execSegrel w s) := by
  refine segWord_goes _ _ _ _ _ _ fun t g l h => ?_
  dsimp only
  split <;> simp (maxDischargeDepth := 40) [h]

theorem execSegqry_goes (w : MemWord) : Goes s (execSegqry w s) :=
  segWord_goes _ _ _ _ _ _ fun t g l h => by simp (maxDischargeDepth := 40) [h]

@[simp] theorem armTag_keeps (h : Keeps a s) (uid : Nat) (tag : Nat) (n : Nat) : Keeps a (State.armTag s uid tag n) := by
  unfold State.armTag
  (try dsimp only)
  (repeat' (first | split | (dsimp only; split))) <;>
    first | exact h | exact h.same rfl rfl rfl | (simp +contextual (maxDischargeDepth := 40) [h]; done)

@[simp] theorem segattNew_keeps (h : Keeps a s) (u : WorkUnit) (a' : Segatt) (r : CreateRecord) :
    Keeps a (s.segattNew u a' r) := by
  unfold State.segattNew
  dsimp only
  split
  · simp (maxDischargeDepth := 40) [h]
  · have key : ∀ y : State × Option Nat, (if (s.segments.filter fun x => segmentDie x.name == segmentDie r.name).length ≥ 16384
        then (s, none) else s.room u.core r.size) = y → Keeps a y.1 := by
      intro y e
      subst e
      split <;> simp (maxDischargeDepth := 40) [h]
    split
    · next e => have k := key _ e; simp (maxDischargeDepth := 40) [k]
    · next e =>
      have k := key _ e
      split
      · exact Keeps.segments (by simp (maxDischargeDepth := 40) [k]) _
      · exact segattDone_keeps (modifyUnit_keeps (modifyUnit_keeps (Keeps.segments (fillArea_keeps k _ _ _) _) _ _) _ _) _ _ _

@[simp] theorem segattOld_keeps (h : Keeps a s) (u : WorkUnit) (a' : Segatt) (x : Segment) : Keeps a (s.segattOld u a' x) := by
  unfold State.segattOld
  split
  · split <;> simp (maxDischargeDepth := 40) [h]
  · split
    · simp (maxDischargeDepth := 40) [h]
    · have k := room_keeps h u.core x.size
      split
      · next r => rw [r] at k; simp (maxDischargeDepth := 40) [k]
      · next r =>
        rw [r] at k
        split
        · simp (maxDischargeDepth := 40) [k]
        · next e => simp (maxDischargeDepth := 40) [evict_keeps k e]

theorem segattFault_keeps (h : Keeps a s) {u : WorkUnit} {c : Nat} {name : DWord} {f : Cause × State}
    (e : s.segattFault u c name = some f) : Keeps a f.2 := by
  unfold State.segattFault at e
  split at e
  · cases e; exact h
  · next x _ =>
    dsimp only at e
    split at e
    · cases e; exact h
    · split at e
      · split at e
        · cases e; exact h
        · split at e
          · cases e
          · have k := room_keeps h u.core x.size
            split at e
            · cases e
            · next r =>
              rw [r] at k
              split at e
              · cases e
              · next v => cases e; exact beginReload_keeps (evict_keeps k v) _ _ _
      · cases e

theorem segattIssue_keeps (h : Keeps a s) (g : Gang) (w : MemWord) (lanes : List (Nat × Nat)) (name : DWord)
    {act : State → WorkUnit → Segatt → State} (ha : ∀ t u c, Keeps a t → Keeps a (act t u c)) :
    Keeps a (s.segattIssue g w lanes name act) := by
  unfold State.segattIssue
  dsimp only
  exact finishMem_keeps (ha _ _ _ (by simp (maxDischargeDepth := 40) [h])) _ _

theorem execSegatt_goes (w : MemWord) : Goes s (execSegatt w s) := by
  refine segWord_goes _ _ _ _ _ _ fun t g l h => ?_
  dsimp only
  split
  · split
    · simp (maxDischargeDepth := 40) [h]
    · split
      · simp (maxDischargeDepth := 40) [h]
      · split
        · simp (maxDischargeDepth := 40) [h]
        · split
          · simp (maxDischargeDepth := 40) [h]
          · exact segattIssue_keeps (countElided_keeps h _ _) _ _ _ _ fun t u c h => by simp (maxDischargeDepth := 40) [h]
  · split
    · simp (maxDischargeDepth := 40) [h]
    · split
      · next e => exact enterTrap_keeps (segattFault_keeps h e) _ _
      · exact segattIssue_keeps h _ _ _ _ fun t u c h => by simp (maxDischargeDepth := 40) [h]
      · exact h


end Sys2Proof.Machine
end

