-- ==== Sys2Proof/Laws/KeepsAsync.lean ====
section
/-! SUPPORT. Copy engines, collectives, the matrix engine and the search engine keep what every step keeps. -/

set_option Elab.async false
set_option linter.all false

namespace Sys2Proof.Machine

variable {a s t : State}

/-! ### Engines.lean -/

theorem engineRead_keeps {e : Engine} (h : Keeps a e.s) (scr : Bool) (p n : Nat) : Keeps a (e.read scr p n).1.s := by
  unfold Engine.read
  (repeat' split) <;> first | exact h | exact countElided_keeps h _ _

theorem engineWrite_keeps {e : Engine} (h : Keeps a e.s) (scr : Bool) (p : Nat) (bs : List Byte) : Keeps a (e.write scr p bs).s := by
  unfold Engine.write
  split
  · exact h
  · split
    · split
      · exact h
      · split
        · exact h
        · split
          · exact h
          · exact scratchWrite_keeps h _ _ _ _
    · split
      · exact h
      · split
        · exact h
        · exact foldl_keeps (fun s x h => storeBytes_keeps h _ _) _ h

theorem engineSettle_keeps {e : Engine} (h : Keeps a e.s) : Keeps a e.settle := by
  unfold Engine.settle
  dsimp only
  split <;> simp [h]

theorem enginePut_keeps {e : Engine} (h : Keeps a e.s) (d : List Word) (fpm : BitVec 4) (p : Nat) (v : List Byte) :
    Keeps a (e.put d fpm p v).s := by
  unfold Engine.put
  split
  · exact engineWrite_keeps (engineRead_keeps h _ _ _) _ _ _
  · exact engineWrite_keeps h _ _ _

theorem engineElement_keeps {e : Engine} (h : Keeps a e.s) (d : List Word) (fpm : BitVec 4) (p : Nat) (x : Element) :
    Keeps a (e.element d fpm p x).s := by
  unfold Engine.element
  split
  · exact h
  · exact engineWrite_keeps h _ _ _
  · exact enginePut_keeps (engineRead_keeps h _ _ _) _ _ _ _

theorem engineRow_keeps {e : Engine} (h : Keeps a e.s) (d : List Word) (fpm : BitVec 4) (p : Nat) (f : Nat → Element) :
    Keeps a (e.row d fpm p f).s := by
  unfold Engine.row
  split
  · exact h
  · exact foldl_keeps_of (fun c : Engine × Nat => c.1.s) (fun c x h => engineElement_keeps h _ _ _ _) _ h

theorem engineCpy_keeps {e : Engine} (h : Keeps a e.s) (d : List Word) (fpm : BitVec 4) : Keeps a (e.cpy d fpm).s :=
  foldl_keeps_of Engine.s (fun c x h => foldl_keeps_of Engine.s (fun c x h => engineRow_keeps h _ _ _ _) _ h) _ h

theorem engineIndex_keeps {e : Engine} (h : Keeps a e.s) (d : List Word) (r : Nat) : Keeps a (e.index d r).1.s :=
  engineRead_keeps h _ _ _

theorem engineCpyg_keeps {e : Engine} (h : Keeps a e.s) (d : List Word) (fpm : BitVec 4) : Keeps a (e.cpyg d fpm).s := by
  refine foldl_keeps_of Engine.s (fun c x h => ?_) _ h
  dsimp only
  split
  · exact engineIndex_keeps h _ _
  · exact engineRow_keeps (engineIndex_keeps h _ _) _ _ _ _

theorem engineCpys_keeps {e : Engine} (h : Keeps a e.s) (d : List Word) (fpm : BitVec 4) : Keeps a (e.cpys d fpm).s := by
  refine foldl_keeps_of Engine.s (fun c x h => ?_) _ h
  dsimp only
  split
  · exact engineIndex_keeps h _ _
  · exact engineRow_keeps (engineIndex_keeps h _ _) _ _ _ _

theorem engineWbld_keeps {e : Engine} (h : Keeps a e.s) (src : DWord) (scr : Bool) (o n : Nat) : Keeps a (e.wbld src scr o n).s := by
  refine foldl_keeps_of Engine.s (fun c x h => ?_) _ h
  dsimp only
  split
  · exact h
  · split
    · exact engineRead_keeps h _ _ _
    · exact modifyUnit_keeps (engineRead_keeps h _ _ _) _ _

theorem counterAdd_keeps (h : Keeps a s) {ctx : Nat} {va : DWord} {n : Nat} (e : s.counterAdd ctx va n = .ok t) : Keeps a t := by
  unfold State.counterAdd at e
  split at e
  · cases e
  · split at e
    · cases e
    · split at e
      · cases e
      · cases e; exact storeAll_keeps h _ _

@[simp] theorem logCommand_keeps (h : Keeps a s) (u : WorkUnit) (c : Cause) : Keeps a (State.logCommand s u c) := by
  unfold State.logCommand
  (try dsimp only)
  (repeat' (first | split | (dsimp only; split))) <;>
    first | exact h | exact h.same rfl rfl rfl | (simp +contextual (maxDischargeDepth := 40) [h]; done)

@[simp] theorem commandEnd_keeps (h : Keeps a s) (q : Nat) (c : Command) (count : Nat) (fail : Option Cause) :
    Keeps a (s.commandEnd q c count fail) := by
  unfold State.commandEnd
  split
  · exact h
  · dsimp only
    refine commandDone_keeps (modifyUnit_keeps ?_ _ _) _ _
    split
    · split <;> simp [h]
    · exact h

@[simp] theorem popQueue_keeps (h : Keeps a s) (core bank q : Nat) : Keeps a (s.popQueue core bank q) :=
  Keeps.units (modifyBank_keeps h _ _ _) _

@[simp] theorem commandCounter_keeps (h : Keeps a s) (u : WorkUnit) (c : Command) (count : Nat) (fail : Option Cause) :
    Keeps a (s.commandCounter u c count fail).1 := by
  unfold State.commandCounter
  split
  · split
    · next e => exact counterAdd_keeps h e
    · exact h
  · exact h

theorem performCopy_keeps (h : Keeps a s) (q : Nat) (u : WorkUnit) (c : Command) {run : Engine → Engine}
    (hr : ∀ e : Engine, Keeps a e.s → Keeps a (run e).s) : Keeps a (s.performCopy q u c run) := by
  unfold State.performCopy
  dsimp only
  exact commandEnd_keeps (commandCounter_keeps (engineSettle_keeps (hr _ h)) _ _ _ _) _ _ _ _

@[simp] theorem dropFence_keeps (h : Keeps a s) (core bank id : Nat) : Keeps a (s.dropFence core bank id) :=
  Keeps.units (modifyBank_keeps h _ _ _) _

@[simp] theorem enqueue_keeps (h : Keeps a s) (u : WorkUnit) (q : Nat) (c : Command) : Keeps a (State.enqueue s u q c) := by
  unfold State.enqueue
  (try dsimp only)
  (repeat' (first | split | (dsimp only; split))) <;>
    first | exact h | exact h.same rfl rfl rfl | (simp +contextual (maxDischargeDepth := 40) [h]; done)

@[simp] theorem issueCommand_keeps (h : Keeps a s) (g : Gang) (opc : Nat) (w : StdWord) (q : Nat) (kind : CommandKind) (tag : Option Nat) (counter : Option DWord) (scope : BitVec 2) : Keeps a (State.issueCommand s g opc w q kind tag counter scope) := by
  unfold State.issueCommand
  (try dsimp only)
  (repeat' (first | split | (dsimp only; split))) <;>
    first | exact h | exact h.same rfl rfl rfl | (simp +contextual (maxDischargeDepth := 40) [h]; done)

@[simp] theorem copyWord_goes (opc kind : Nat) (w : StdWord) (mk : List Word → CommandKind) : Goes s (copyWord opc kind w mk s) := by
  unfold copyWord
  refine onceWord_goes _ _ _ _ fun g l => ?_
  dsimp only
  split <;> simp

theorem execCpy_goes (w : StdWord) : Goes s (execCpy w s) := by
  unfold execCpy
  (repeat' (first | split | (dsimp only; split))) <;> simp +contextual (maxDischargeDepth := 40)

theorem execCpyg_goes (w : StdWord) : Goes s (execCpyg w s) := by
  unfold execCpyg
  (repeat' (first | split | (dsimp only; split))) <;> simp +contextual (maxDischargeDepth := 40)

theorem execCpys_goes (w : StdWord) : Goes s (execCpys w s) := by
  unfold execCpys
  (repeat' (first | split | (dsimp only; split))) <;> simp +contextual (maxDischargeDepth := 40)

theorem execEqfence_goes (w : StdWord) : Goes s (execEqfence w s) := by
  unfold execEqfence
  refine onceWord_goes _ _ _ _ fun g l => ?_
  dsimp only
  split
  · simp
  · exact finishWord_keeps (foldl_keeps (fun s x h => enqueue_keeps h _ _ _) _ (newId_keeps (Keeps.refl s))) _ _ _


/-! ### Collect.lean -/

@[simp] theorem beginHead_keeps (h : Keeps a s) (core : Nat) (bank : Nat) (q : Nat) : Keeps a (State.beginHead s core bank q) := by
  unfold State.beginHead
  (try dsimp only)
  (repeat' (first | split | (dsimp only; split))) <;>
    first | exact h | exact h.same rfl rfl rfl | (simp +contextual (maxDischargeDepth := 40) [h]; done)

theorem engineReadLong_keeps {e : Engine} (h : Keeps a e.s) (va k n : Nat) : Keeps a (e.readLong va k n).1.s := by
  induction k generalizing e va n with
  | zero => exact h
  | succ k ih =>
    unfold Engine.readLong
    split
    · exact h
    · exact ih (engineRead_keeps h _ _ _) _ _

theorem engineWriteLong_keeps {e : Engine} (h : Keeps a e.s) (va k : Nat) (bs : List Byte) : Keeps a (e.writeLong va k bs).s := by
  induction k generalizing e va bs with
  | zero => exact h
  | succ k ih =>
    unfold Engine.writeLong
    split
    · exact h
    · exact ih (engineWrite_keeps h _ _ _) _ _

theorem Keeps.meeting (h : Keeps a s) (x : List CollMessage) (y : List Collective) : Keeps a { s with early := x, collectives := y } :=
  h.same rfl rfl rfl

@[simp] theorem collStart_keeps (h : Keeps a s) (core bank : Nat) (u : WorkUnit) (l : Launch) (c : Command) (d : List Word)
    (issued : Nat) : Keeps a (s.collStart core bank u l c d issued) := by
  unfold State.collStart
  dsimp only
  exact Keeps.meeting (beginHead_keeps (modifyLaunch_keeps (newId_keeps
    (engineReadLong_keeps (e := Engine.start s u.uid u.ctx) h _ _ _)) _ _ _) _ _ _) _ _

theorem execCollContribution_goes (m : CollMessage) : Goes s (execCollContribution m s) := by
  unfold execCollContribution
  dsimp only
  split
  · exact goes_next.2 ((Keeps.refl s).same rfl rfl rfl)
  · exact goes_next.2 ((Keeps.refl s).same rfl rfl rfl)

@[simp] theorem collEnd_keeps (h : Keeps a s) (c : Collective) (fail : Option Cause) : Keeps a (s.collEnd c fail) := by
  unfold State.collEnd
  dsimp only
  split
  · exact commandEnd_keeps (popQueue_keeps (h.collectives _) _ _ _) _ _ _ _
  · exact h.collectives _

@[simp] theorem collWrite_keeps (h : Keeps a s) (c : Collective) (l : Launch) : Keeps a (s.collWrite c l) := by
  unfold State.collWrite
  dsimp only
  split
  · exact collEnd_keeps h _ _
  · split
    · exact collEnd_keeps h _ _
    · next e => exact collEnd_keeps (counterAdd_keeps (engineSettle_keeps (engineWriteLong_keeps h _ _ _)) e) _ _

theorem execCollComplete_goes (id : Nat) : Goes s (execCollComplete id s) := by
  unfold execCollComplete
  (repeat' (first | split | (dsimp only; split))) <;> simp +contextual (maxDischargeDepth := 40)

theorem execCollTimeout_goes (id : Nat) : Goes s (execCollTimeout id s) := by
  unfold execCollTimeout
  (repeat' (first | split | (dsimp only; split))) <;> simp +contextual (maxDischargeDepth := 40)

theorem execColl_goes (w : StdWord) : Goes s (execColl w s) := by
  unfold execColl
  refine onceWord_goes _ _ _ _ fun g l => ?_
  (try dsimp only)
  (repeat' split) <;> simp (maxDischargeDepth := 40)


/-! ### Matrix.lean -/

@[simp] theorem matPop_keeps (h : Keeps a s) (uid : Nat) : Keeps a (State.matPop s uid) := by
  unfold State.matPop
  (try dsimp only)
  (repeat' (first | split | (dsimp only; split))) <;>
    first | exact h | exact h.same rfl rfl rfl | (simp +contextual (maxDischargeDepth := 40) [h]; done)

@[simp] theorem matStop_keeps (h : Keeps a s) (uid t : Nat) : Keeps a (s.matStop uid t) := by
  simp (maxDischargeDepth := 40) [State.matStop, h]

@[simp] theorem tileStore_keeps (h : Keeps a s) (u : WorkUnit) (c : MatCfg) (t : Nat) (o st : Word) (bf : Bool) :
    Keeps a (s.tileStore u c t o st bf) := by
  unfold State.tileStore
  dsimp only
  exact settleScratch_keeps (foldl_keeps (fun s x h => scratchWrite_keeps h _ _ _ _) _ h) _ _

@[simp] theorem matDiscard_keeps (h : Keeps a s) (u : WorkUnit) (op : MatOp) : Keeps a (State.matDiscard s u op) := by
  unfold State.matDiscard
  (try dsimp only)
  (repeat' (first | split | (dsimp only; split))) <;>
    first | exact h | exact h.same rfl rfl rfl | (simp +contextual (maxDischargeDepth := 40) [h]; done)

theorem execMatrixOperationPerform_goes (uid : Nat) : Goes s (execMatrixOperationPerform uid s) := by
  unfold execMatrixOperationPerform
  split
  · exact goes_next.2 (Keeps.refl s)
  · next u _ =>
    split
    · exact goes_next.2 (Keeps.refl s)
    · next op rest _ =>
      have d : Goes s (.next (s.matDiscard u op)) := goes_next.2 (matDiscard_keeps (Keeps.refl s) u op)
      have p : ∀ f, Goes s (.next ((s.modifyUnit uid f).matPop uid)) := fun f =>
        goes_next.2 (matPop_keeps (modifyUnit_keeps (Keeps.refl s) uid f) uid)
      have q : ∀ f t, Goes s (.next ((s.modifyUnit uid f).matStop uid t)) := fun f t =>
        goes_next.2 (matStop_keeps (modifyUnit_keeps (Keeps.refl s) uid f) uid t)
      dsimp only
      split
      · exact goes_next.2 (Keeps.refl s)
      · generalize op.kind = kind
        generalize matCfg u.ntiles op.cfg = cfg
        cases kind with
        | tcfg b => exact p _
        | fence => exact goes_next.2 (matPop_keeps (Keeps.refl s) uid)
        | wait _ => exact goes_next.2 (matPop_keeps (Keeps.refl s) uid)
        | mma => exact goes_next.2 (Keeps.refl s)
        | tzero m =>
          cases cfg with
          | none => exact d
          | some c =>
            dsimp only
            split
            · exact d
            · exact p _
        | tld t r =>
          cases cfg with
          | none => exact d
          | some c =>
            dsimp only
            split
            · exact d
            · split
              · exact q _ _
              · exact p _
        | tst t o x b =>
          cases cfg with
          | none => exact d
          | some c =>
            dsimp only
            split
            · exact d
            · split
              · exact goes_next.2 (matStop_keeps (Keeps.refl s) uid _)
              · exact goes_next.2 (matPop_keeps (tileStore_keeps (Keeps.refl s) u _ _ _ _ _) uid)

theorem execKStep_goes (uid : Nat) : Goes s (execKStep uid s) := by
  unfold execKStep
  (repeat' (first | split | (dsimp only; split))) <;> simp +contextual (maxDischargeDepth := 40)

@[simp] theorem matTrap_keeps (h : Keeps a s) (g : Gang) (lanes : List (Nat × Nat)) (w : StdWord) : Keeps a (State.matTrap s g lanes w) := by
  unfold State.matTrap
  (try dsimp only)
  (repeat' (first | split | (dsimp only; split))) <;>
    first | exact h | exact h.same rfl rfl rfl | (simp +contextual (maxDischargeDepth := 40) [h]; done)

@[simp] theorem matBounds_keeps (h : Keeps a s) (g : Gang) (lanes : List (Nat × Nat)) (w : StdWord) (off : Int) (write : Bool) : Keeps a (State.matBounds s g lanes w off write) := by
  unfold State.matBounds
  (try dsimp only)
  (repeat' (first | split | (dsimp only; split))) <;>
    first | exact h | exact h.same rfl rfl rfl | (simp +contextual (maxDischargeDepth := 40) [h]; done)

@[simp] theorem matIssue_keeps (h : Keeps a s) (g : Gang) (opc : Nat) (w : StdWord) (kind : MatKind) (cfg : DWord) : Keeps a (State.matIssue s g opc w kind cfg) := by
  unfold State.matIssue
  (try dsimp only)
  (repeat' (first | split | (dsimp only; split))) <;>
    first | exact h | exact h.same rfl rfl rfl | (simp +contextual (maxDischargeDepth := 40) [h]; done)

theorem withCfg_keeps (h : Keeps a s) (g : Gang) (lanes : List (Nat × Nat)) (w : StdWord) {act : MatCfg → DWord → State}
    (ha : ∀ c b, Keeps a (act c b)) : Keeps a (s.withCfg g lanes w act) := by
  unfold State.withCfg
  split
  · exact ha _ _
  · simp [h]

theorem execTcfg_goes (w : StdWord) : Goes s (execTcfg w s) := by
  unfold execTcfg
  refine onceWord_goes _ _ _ _ fun g l => ?_
  (try dsimp only)
  (repeat' split) <;> simp (maxDischargeDepth := 40)

theorem execTzero_goes (w : StdWord) : Goes s (execTzero w s) := by
  unfold execTzero
  refine onceWord_goes _ _ _ _ fun g l => ?_
  dsimp only
  refine withCfg_keeps (Keeps.refl s) _ _ _ fun c b => ?_
  (try dsimp only)
  (repeat' split) <;> simp (maxDischargeDepth := 40)

theorem execWbld_goes (w : StdWord) : Goes s (execWbld w s) := by
  unfold execWbld
  refine onceWord_goes _ _ _ _ fun g l => ?_
  (try dsimp only)
  (repeat' split) <;> simp (maxDischargeDepth := 40)

@[simp] theorem issueMma_keeps (h : Keeps a s) (g : Gang) (lanes : List (Nat × Nat)) (opc : Nat) (w : StdWord) (x : MmaArgs)
    (b : Bool) : Keeps a (s.issueMma g lanes opc w x b) := by
  unfold State.issueMma
  split
  · simp [h]
  · refine withCfg_keeps h _ _ _ fun c b => ?_
    dsimp only
    split
    · simp [h]
    · split
      · simp [h]
      · split <;> simp [h]

theorem execMma_goes (w : StdWord) : Goes s (execMma w s) := by
  unfold execMma
  refine onceWord_goes _ _ _ _ fun g l => ?_
  (try dsimp only)
  (repeat' split) <;> simp (maxDischargeDepth := 40)

theorem execMloop_goes (w : StdWord) : Goes s (execMloop w s) := by
  unfold execMloop
  refine onceWord_goes _ _ _ _ fun g l => ?_
  (try dsimp only)
  (repeat' split) <;> simp (maxDischargeDepth := 40)

theorem execMfence_goes (w : StdWord) : Goes s (execMfence w s) := by
  unfold execMfence
  refine onceWord_goes _ _ _ _ fun g l => ?_
  refine withCfg_keeps (Keeps.refl s) _ _ _ fun c b => ?_
  (try dsimp only)
  (repeat' split) <;> simp (maxDischargeDepth := 40)

theorem execMwait_goes (w : StdWord) : Goes s (execMwait w s) := by
  unfold execMwait
  refine onceWord_goes _ _ _ _ fun g l => ?_
  dsimp only
  refine withCfg_keeps (Keeps.refl s) _ _ _ fun c b => ?_
  (try dsimp only)
  (repeat' split) <;> simp (maxDischargeDepth := 40)

theorem execTld_goes (w : StdWord) : Goes s (execTld w s) := by
  unfold execTld
  refine onceWord_goes _ _ _ _ fun g l => ?_
  dsimp only
  refine withCfg_keeps (Keeps.refl s) _ _ _ fun c b => ?_
  (try dsimp only)
  (repeat' split) <;> simp (maxDischargeDepth := 40)

theorem execTst_goes (w : StdWord) : Goes s (execTst w s) := by
  unfold execTst
  refine onceWord_goes _ _ _ _ fun g l => ?_
  dsimp only
  refine withCfg_keeps (Keeps.refl s) _ _ _ fun c b => ?_
  (try dsimp only)
  (repeat' split) <;> simp (maxDischargeDepth := 40)


/-! ### Search.lean -/

@[simp] theorem finishQuery_keeps (h : Keeps a s) (q : Query) (c : Command) (status : Nat) (cause : Option Cause) :
    Keeps a (s.finishQuery q c status cause) := by
  have k : Keeps a (({ s with queries := s.queries.filter (·.id != q.id) } : State).popQueue q.core q.bank q.queue) :=
    popQueue_keeps (h.queries _) _ _ _
  unfold State.finishQuery
  dsimp only
  generalize ({ s with queries := s.queries.filter (·.id != q.id) } : State).popQueue q.core q.bank q.queue = r at k ⊢
  split
  · exact commandEnd_keeps k _ _ _ _
  · split
    · exact commandEnd_keeps k _ _ _ _
    · have e := fun (e : Engine) (h : Keeps a e.s) va n bs => engineSettle_keeps (engineWriteLong_keeps h va n bs)
      split
      · next v => exact commandEnd_keeps (counterAdd_keeps (e _ (by exact k) _ _ _) v) _ _ _ _
      · exact commandEnd_keeps (e _ (by exact k) _ _ _) _ _ _ _

@[simp] theorem finishQueries_keeps (h : Keeps a s) (core bank q n : Nat) : Keeps a (s.finishQueries core bank q n) := by
  induction n generalizing s with
  | zero => exact h
  | succ n ih =>
    unfold State.finishQueries
    split
    · split
      · split
        · exact ih (finishQuery_keeps h _ _ _ _)
        · exact h
      · exact h
    · exact h

@[simp] theorem putQuery_keeps (h : Keeps a s) (q : Query) : Keeps a (s.putQuery q) := by
  unfold State.putQuery
  exact finishQueries_keeps (h.queries _) _ _ _ _

theorem queryBegin_keeps {e : Engine} (h : Keeps a e.s) (q : Query) : Keeps a (q.begin e).2.s := by
  have h1 := engineRead_keeps h false q.packet.toNat 64
  unfold Query.begin
  dsimp only
  split
  · exact h1
  · split
    · exact h1
    · split
      · exact h1
      · split
        · exact h1
        · have h2 := engineRead_keeps h1 false (wordOf (elementWords 8 (e.read false q.packet.toNat 64).2) 0).toNat 256
          split
          · exact h2
          · split
            · exact h2
            · split
              · exact engineRead_keeps h2 _ _ _
              · exact engineRead_keeps h2 _ _ _

@[simp] theorem startQuery_keeps (h : Keeps a s) (core bank qn : Nat) (u : WorkUnit) (c : Command) (packet : DWord) :
    Keeps a (s.startQuery core bank qn u c packet) := by
  unfold State.startQuery
  dsimp only
  split
  · exact h
  · exact putQuery_keeps (Keeps.queries (modifyBank_keeps (queryBegin_keeps (newId_keeps h) _) _ _ _) _) _

theorem readList_keeps {e : Engine} (h : Keeps a e.s) (q : Query) (n : Word) : Keeps a (q.readList e n).2.s := by
  unfold Query.readList
  dsimp only
  split
  · exact engineRead_keeps h _ _ _
  · split
    · exact engineRead_keeps h _ _ _
    · split
      · exact engineRead_keeps (engineRead_keeps h _ _ _) _ _ _
      · exact engineRead_keeps (engineRead_keeps h _ _ _) _ _ _

theorem evaluate_keeps {e : Engine} (h : Keeps a e.s) (q : Query) (n : Word) : Keeps a (q.evaluate e n).2.s := by
  unfold Query.evaluate
  dsimp only
  split <;> exact engineRead_keeps h _ _ _

theorem execSearchExpand_goes (id : Nat) (n : Word) : Goes s (execSearchExpand id n s) := by
  unfold execSearchExpand
  split
  · simp
  · split
    · exact goes_next.2 (putQuery_keeps (readList_keeps (Keeps.refl s) _ _) _)
    · simp

theorem execSearchList_goes (id : Nat) (n : Word) : Goes s (execSearchList id n s) := by
  unfold execSearchList
  (repeat' (first | split | (dsimp only; split))) <;> simp +contextual (maxDischargeDepth := 40)

theorem execSearchEval_goes (id : Nat) (n : Word) : Goes s (execSearchEval id n s) := by
  unfold execSearchEval
  split
  · simp
  · split
    · exact goes_next.2 (putQuery_keeps (evaluate_keeps (Keeps.refl s) _ _) _)
    · simp

theorem execSearchDist_goes (id : Nat) (n : Word) : Goes s (execSearchDist id n s) := by
  unfold execSearchDist
  (repeat' (first | split | (dsimp only; split))) <;> simp +contextual (maxDischargeDepth := 40)

theorem execAnnq_goes (w : StdWord) : Goes s (execAnnq w s) := by
  unfold execAnnq
  refine onceWord_goes _ _ _ _ fun g l => ?_
  (try dsimp only)
  (repeat' split) <;> simp (maxDischargeDepth := 40)

theorem execCopyPerform_goes (core bank q : Nat) : Goes s (execCopyPerform core bank q s) := by
  have k := popQueue_keeps (Keeps.refl s) core bank q
  unfold execCopyPerform
  dsimp only
  split
  · simp
  · split
    · simp
    · split
      · exact goes_next.2 (performCopy_keeps k _ _ _ fun e h => engineCpy_keeps h _ _)
      · exact goes_next.2 (performCopy_keeps k _ _ _ fun e h => engineCpyg_keeps h _ _)
      · exact goes_next.2 (performCopy_keeps k _ _ _ fun e h => engineCpys_keeps h _ _)
      · exact goes_next.2 (performCopy_keeps k _ _ _ fun e h => engineWbld_keeps h _ _ _ _)
      · split <;> simp
      · split <;> simp
      · split
        · split <;> simp
        · simp


end Sys2Proof.Machine
end

