-- ==== Sys2Proof/Laws/KeepsPlace.lean ====
section
/-! SUPPORT. Issue, retirement, placement and rakes keep what every step keeps. -/

set_option Elab.async false
set_option linter.all false

namespace Sys2Proof.Machine

variable {a s t : State}

/-! ### Issue.lean -/

@[simp] theorem ringDeliver_keeps (h : Keeps a s) (u : WorkUnit) (p : Nat) (r : LongResult) (reads : List RingRead) (more : Bool)
    (lane : Option Nat) : Keeps a (s.ringDeliver u p r reads more lane) := by
  unfold State.ringDeliver
  exact foldl_keeps (fun s x h => ringRead_keeps h _ _) _ (modifyUnit_keeps h _ _)

theorem execLongResultWritten_goes (uid : Nat) (result : ResultPart) : Goes s (execLongResultWritten uid result s) := by
  unfold execLongResultWritten
  (repeat' (first | split | (dsimp only; split))) <;> simp +contextual (maxDischargeDepth := 40)

theorem execParkEnd_goes (ref : GangRef) : Goes s (execParkEnd ref s) := by
  unfold execParkEnd
  (repeat' (first | split | (dsimp only; split))) <;> simp +contextual (maxDischargeDepth := 40)

@[simp] theorem takePipe_keeps (h : Keeps a s) (g : Gang) : Keeps a (s.takePipe g) := by
  unfold State.takePipe
  dsimp only
  split
  · exact modifyBank_keeps h _ _ _
  · exact Keeps.units (modifyBank_keeps h _ _ _) _

@[simp] theorem issueWord_keeps (h : Keeps a s) (g : Gang) (lit : Bool) : Keeps a (s.issueWord g lit) :=
  modifyUnit_keeps (countRead_keeps (takePipe_keeps h g) _ _ _) _ _

@[simp] theorem startClause_keeps (h : Keeps a s) (g : Gang) : Keeps a (s.startClause g) := by
  unfold State.startClause
  split
  · exact h
  · split
    · exact enterTrap_keeps h _ _
    · split
      · exact h
      · exact modifyUnit_keeps (takePipe_keeps (countRead_keeps h _ _ _) _) _ _

theorem execClauseStart_goes (ref : GangRef) : Goes s (execClauseStart ref s) := by
  unfold execClauseStart
  (repeat' (first | split | (dsimp only; split))) <;> simp +contextual (maxDischargeDepth := 40)

@[simp] theorem reportLoad_keeps (h : Keeps a s) (g : Gang) (e : LoadError) (ps : List Nat) : Keeps a (s.reportLoad g e ps) := by
  unfold State.reportLoad
  dsimp only
  split
  · exact enterTrap_keeps (modifyUnit_keeps h _ _) _ _
  · exact modifyUnit_keeps h _ _

@[simp] theorem reportAttach_keeps (h : Keeps a s) (g : Gang) (f : Cause × DWord × Word) : Keeps a (s.reportAttach g f) :=
  enterTrap_keeps (modifyUnit_keeps h _ _) _ _

@[simp] theorem charge_keeps (h : Keeps a s) (g : Gang) : Keeps a (State.charge s g) := by
  unfold State.charge
  (try dsimp only)
  (repeat' (first | split | (dsimp only; split))) <;>
    first | exact h | exact h.same rfl rfl rfl | (simp +contextual (maxDischargeDepth := 40) [h]; done)


/-! ### Retire.lean -/

@[simp] theorem writeRecord_keeps (h : Keeps a s) (die ctx : Nat) (compl index word0 : DWord) (rest : List DWord) :
    Keeps a (s.writeRecord die ctx compl index word0 rest) := by
  unfold State.writeRecord
  split
  · exact h
  · split
    · next e =>
      cases k : s.deviceWrite ctx (compl.toNat + 8) (wordsBytes rest) with
      | error c => rw [k] at e; cases e
      | ok s' => rw [k] at e; exact deviceStore8_keeps (deviceWrite_keeps h k) e
    · simp [h]

@[simp] theorem rejectRecord_keeps (h : Keeps a s) (die : Nat) (ctx : Nat) (words : List DWord) (index : DWord) (st : AbortStatus) : Keeps a (State.rejectRecord s die ctx words index st) := by
  unfold State.rejectRecord
  (try dsimp only)
  (repeat' (first | split | (dsimp only; split))) <;>
    first | exact h | exact h.same rfl rfl rfl | (simp +contextual (maxDischargeDepth := 40) [h]; done)

@[simp] theorem closeAll_keeps (h : Keeps a s) (l : Launch) : Keeps a (State.closeAll s l) := by
  unfold State.closeAll
  (try dsimp only)
  (repeat' (first | split | (dsimp only; split))) <;>
    first | exact h | exact h.same rfl rfl rfl | (simp +contextual (maxDischargeDepth := 40) [h]; done)

@[simp] theorem mergeRest_keeps (h : Keeps a s) (l : Launch) : Keeps a (State.mergeRest s l) := by
  unfold State.mergeRest
  (try dsimp only)
  (repeat' (first | split | (dsimp only; split))) <;>
    first | exact h | exact h.same rfl rfl rfl | (simp +contextual (maxDischargeDepth := 40) [h]; done)

@[simp] theorem releaseRest_keeps (h : Keeps a s) (l : Launch) : Keeps a (s.releaseRest l) :=
  foldl_keeps (fun s x h => foldl_keeps (fun s y h => releaseOne_keeps h _ _ _) _ h) _ h

@[simp] theorem freeLaunch_keeps (h : Keeps a s) (die slot : Nat) : Keeps a (s.freeLaunch die slot) := by
  unfold State.freeLaunch
  refine signal_keeps ?_ _ _
  exact h.same rfl rfl rfl

@[simp] theorem storeWords_keeps (h : Keeps a s) (ctx va : Nat) (ws : List DWord) : Keeps a (s.storeWords ctx va ws).1 := by
  induction ws generalizing s va with
  | nil => exact h
  | cons w t ih =>
    unfold State.storeWords
    split
    · next e => exact ih (deviceStore8_keeps h e) _
    · exact h

@[simp] theorem keepSave_keeps (h : Keeps a s) (l : Launch) (save : DWord) (susp : List (Nat × Nat × Nat)) :
    Keeps a (s.keepSave l save susp) := by
  unfold State.keepSave
  dsimp only
  split
  · exact h
  · exact modifyContext_keeps (h.units _) _ _

@[simp] theorem saveFrontier_keeps (h : Keeps a s) (l : Launch) : Keeps a (s.saveFrontier l) := by
  unfold State.saveFrontier
  split
  · next x f _ _ =>
    have k := fun w => keepSave_keeps (storeWords_keeps h l.ctx x.save.toNat w) l x.save (sortBy (fun a b => decide (a.1 < b.1)) x.images)
    split
    · exact h
    · dsimp only
      split
      · exact modifyLaunch_keeps (k _) _ _ _
      · exact modifyLaunch_keeps (modifyDie_keeps (k _) _ _) _ _ _
  · exact h

@[simp] theorem signalEnd_keeps (h : Keeps a s) (l : Launch) : Keeps a (s.signalEnd l) := by
  unfold State.signalEnd
  split
  · exact signalRun_keeps (modifyLaunch_keeps h _ _ _) _ _
  · exact h

theorem execLaunchRetire_goes (die slot : Nat) : Goes s (execLaunchRetire die slot s) := by
  unfold execLaunchRetire
  split
  · simp
  · next l _ =>
    have k := mergeRest_keeps (closeAll_keeps (saveFrontier_keeps (Keeps.refl s) l) l) l
    dsimp only
    generalize ((s.saveFrontier l).closeAll l).mergeRest l = r at k ⊢
    split
    · simp
    · split
      · exact goes_next.2 (signalEnd_keeps (Keeps.refl s) l)
      · split
        · simp
        · split
          · exact goes_next.2 k
          · exact goes_next.2 (acquireAll_keeps (freeLaunch_keeps (dropRoom_keeps (releaseRest_keeps (writeRecord_keeps k _ _ _ _ _ _) _) _) _ _))

theorem execLaunchAbort_goes (die : Nat) (slot : Nat) (st : AbortStatus) : Goes s (execLaunchAbort die slot st s) := by
  unfold execLaunchAbort
  (repeat' (first | split | (dsimp only; split))) <;> simp +contextual (maxDischargeDepth := 40)


/-! ### Place.lean -/

@[simp] theorem seat_keeps (h : Keeps a s) (uid core bank : Nat) : Keeps a (s.seat uid core bank) := by
  unfold State.seat
  split
  · exact h
  · refine acquire_keeps (modifyCore_keeps (modifyBank_keeps ?_ _ _ _) _ _) _
    exact h.same rfl rfl rfl

@[simp] theorem noteWaits_keeps (h : Keeps a s) : Keeps a s.noteWaits := by
  unfold State.noteWaits
  split
  · exact h
  · exact h.units _

@[simp] theorem joinWaiting_keeps (h : Keeps a s) (u : WorkUnit) (core : Nat) : Keeps a (State.joinWaiting s u core) := by
  unfold State.joinWaiting
  (try dsimp only)
  (repeat' (first | split | (dsimp only; split))) <;>
    first | exact h | exact h.same rfl rfl rfl | (simp +contextual (maxDischargeDepth := 40) [h]; done)

@[simp] theorem takeUnit_keeps (h : Keeps a s) (l : Launch) (o : Offer) : Keeps a (s.takeUnit l o) := by
  unfold State.takeUnit
  refine modifyLaunch_keeps ?_ _ _ _
  exact h.same rfl rfl rfl

@[simp] theorem noteReload_keeps (h : Keeps a s) (l : Launch) (r : Bool) (core : Nat) : Keeps a (s.noteReload l r core) := by
  unfold State.noteReload
  split
  · exact modifyLaunch_keeps h _ _ _
  · exact h

@[simp] theorem offer_keeps (h : Keeps a s) (l : Launch) (core : Nat) : Keeps a (s.offer l core) := by
  unfold State.offer
  split
  · exact h
  · dsimp only
    split
    · exact modifyDie_keeps (noteReload_keeps (seat_keeps (takeUnit_keeps h _ _) _ _ _) _ _ _) _ _
    · split
      · exact noteReload_keeps (joinWaiting_keeps (takeUnit_keeps h _ _) _ _) _ _ _
      · exact h

@[simp] theorem seatWaiting_keeps (h : Keeps a s) (l : Launch) (u : WorkUnit) (core : Nat) : Keeps a (s.seatWaiting l u core) := by
  unfold State.seatWaiting
  dsimp only
  split
  · exact joinWaiting_keeps (modifyCore_keeps h _ _) _ _
  · split
    · exact h
    · split
      · exact seat_keeps h _ _ _
      · exact h

@[simp] theorem placeOn_keeps (h : Keeps a s) (l : Launch) (core : Nat) : Keeps a (s.placeOn l core) := by
  unfold State.placeOn
  dsimp only
  (repeat' split) <;> first | exact h | exact seatWaiting_keeps h _ _ _ | exact offer_keeps h _ _

theorem execUnitPlace_goes (die : Nat) (slot : Nat) (core : Nat) : Goes s (execUnitPlace die slot core s) := by
  unfold execUnitPlace
  (repeat' (first | split | (dsimp only; split))) <;> simp +contextual (maxDischargeDepth := 40)

theorem execAttachWaitTimeout_goes (uid : Nat) : Goes s (execAttachWaitTimeout uid s) := by
  unfold execAttachWaitTimeout
  (repeat' (first | split | (dsimp only; split))) <;> simp +contextual (maxDischargeDepth := 40)

theorem execFrontierDispatch_goes (die : Nat) (slot : Nat) (core : Nat) : Goes s (execFrontierDispatch die slot core s) := by
  unfold execFrontierDispatch
  (repeat' (first | split | (dsimp only; split))) <;> simp +contextual (maxDischargeDepth := 40)

theorem execTaskGather_goes (die slot core : Nat) : Goes s (execTaskGather die slot core s) := by
  unfold execTaskGather
  (repeat' split) <;> simp

theorem execTaskRoundEnd_goes (die : Nat) (slot : Nat) : Goes s (execTaskRoundEnd die slot s) := by
  unfold execTaskRoundEnd
  (repeat' (first | split | (dsimp only; split))) <;> simp +contextual (maxDischargeDepth := 40)


/-! ### Rake.lean -/

@[simp] theorem modifyDomain_keeps (h : Keeps a s) (die : Nat) (slot : Nat) (f : Domain → Domain) : Keeps a (State.modifyDomain s die slot f) := by
  unfold State.modifyDomain
  (try dsimp only)
  (repeat' (first | split | (dsimp only; split))) <;>
    first | exact h | exact h.same rfl rfl rfl | (simp +contextual (maxDischargeDepth := 40) [h]; done)

@[simp] theorem stage_keeps (h : Keeps a s) (g : Gang) (l : Launch) (r : EventRec) : Keeps a (State.stage s g l r) := by
  unfold State.stage
  (try dsimp only)
  (repeat' (first | split | (dsimp only; split))) <;>
    first | exact h | exact h.same rfl rfl rfl | (simp +contextual (maxDischargeDepth := 40) [h]; done)

theorem execSched_goes (w : StdWord) : Goes s (execSched w s) := by
  unfold execSched
  refine onceWord_goes _ _ _ _ fun g l => ?_
  dsimp only
  split
  · simp
  · refine finishWord_keeps (modifyUnit_keeps (foldl_keeps (fun s x h => ?_) _ (Keeps.refl s)) _ _) _ _ _
    split <;> simp [h]

@[simp] theorem answer_keeps (h : Keeps a s) (g : Gang) (w : StdWord) (lanes : List (Nat × Nat)) (of : DWord → Nat) : Keeps a (State.answer s g w lanes of) := by
  unfold State.answer
  (try dsimp only)
  (repeat' (first | split | (dsimp only; split))) <;>
    first | exact h | exact h.same rfl rfl rfl | (simp +contextual (maxDischargeDepth := 40) [h]; done)

theorem send_keeps (h : Keeps a s) (n : Nat) (ms : List NonEventMsg) : Keeps a { s with nextId := n, messages := ms } :=
  h.same rfl rfl rfl

@[simp] theorem cancelOutside_keeps (h : Keeps a s) (g : Gang) (w : StdWord) (lanes : List (Nat × Nat)) :
    Keeps a (s.cancelOutside g w lanes) := by
  unfold State.cancelOutside
  exact finishWord_keeps (modifyUnit_keeps (send_keeps h _ _) _ _) _ _ _

theorem execCancel_goes (w : StdWord) : Goes s (execCancel w s) := by
  refine onceWord_goes _ _ _ _ fun g l => ?_
  dsimp only
  split <;> simp

theorem execEvqry_goes (w : StdWord) : Goes s (execEvqry w s) :=
  onceWord_goes _ _ _ _ fun _ _ => answer_keeps (Keeps.refl s) _ _ _ _

theorem Keeps.messages (h : Keeps a s) (x : List NonEventMsg) : Keeps a { s with messages := x } := h.same rfl rfl rfl

@[simp] theorem arrive_keeps (h : Keeps a s) (l : Launch) (r : EventRec) : Keeps a (s.arrive l r) := modifyDomain_keeps h _ _ _

@[simp] theorem holdCancel_keeps (h : Keeps a s) (l : Launch) (x : CancelRec) : Keeps a (s.holdCancel l x) := by
  unfold State.holdCancel
  split
  · exact modifyDomain_keeps h _ _ _
  · exact h

theorem execNonEventSchedArrival_goes (id : Nat) : Goes s (execNonEventSchedArrival id s) := by
  unfold execNonEventSchedArrival
  split
  · simp
  · split
    · simp
    · dsimp only
      split
      · exact goes_next.2 ((Keeps.refl s).messages _)
      · exact goes_next.2 (arrive_keeps ((Keeps.refl s).messages _) _ _)

theorem execNonEventCancelArrival_goes (id : Nat) : Goes s (execNonEventCancelArrival id s) := by
  unfold execNonEventCancelArrival
  split
  · simp
  · dsimp only
    split
    · simp
    · refine goes_next.2 (modifyUnit_keeps ?_ _ _)
      split
      · exact holdCancel_keeps ((Keeps.refl s).messages _) _ _
      · exact (Keeps.refl s).messages _

theorem execTask_goes (w : StdWord) : Goes s (execTask w s) := by
  refine onceWord_goes _ _ _ _ fun g l => ?_
  dsimp only
  split
  · simp
  · split
    · simp
    · exact finishWord_keeps (modifyUnit_keeps (modifyLaunch_keeps (Keeps.refl s) _ _ _) _ _) _ _ _

@[simp] theorem settleDomain_keeps (h : Keeps a s) (l : Launch) (d : Domain) (n : Nat) : Keeps a (s.settleDomain l d n).1 := by
  unfold State.settleDomain
  dsimp only
  split
  · exact growRoom_keeps (modifyDomain_keeps h _ _ _) _ _
  · exact abortLaunch_keeps (modifyDomain_keeps h _ _ _) _ _ _ _

@[simp] theorem afterCommit_keeps (h : Keeps a s) (l : Launch) (d : Domain) : Keeps a (State.afterCommit s l d) := by
  unfold State.afterCommit
  (try dsimp only)
  (repeat' (first | split | (dsimp only; split))) <;>
    first | exact h | exact h.same rfl rfl rfl | (simp +contextual (maxDischargeDepth := 40) [h]; done)

theorem execBatchCommit_goes (die : Nat) (x : DomainTurn) : Goes s (execBatchCommit die x s) := by
  unfold execBatchCommit
  split
  · simp
  · next l _ =>
    split
    · simp
    · next d _ =>
      split
      · simp
      · dsimp only
        have k : ∀ b : Bool, Keeps s (if b then (s.closeSet die x.slot d.batchNo).mergeIntervals die x.slot
            ((s.closeSet die x.slot d.batchNo).eventIntervals l d.batchNo) else (s.closeSet die x.slot d.batchNo, [])).1 := by
          intro b
          split <;> simp
        have k := k l.det
        generalize (if l.det = true then (s.closeSet die x.slot d.batchNo).mergeIntervals die x.slot
            ((s.closeSet die x.slot d.batchNo).eventIntervals l d.batchNo) else (s.closeSet die x.slot d.batchNo, [])) = r at k ⊢
        split
        · exact goes_next.2 (conflictAbort_keeps k _ _)
        · have m := settleDomain_keeps k l (d.withPeers l x.peers) 1
          split
          · next e => rw [e] at m; exact goes_next.2 (afterCommit_keeps m _ _)
          · next e => rw [e] at m; exact goes_next.2 m

@[simp] theorem setStep_keeps (h : Keeps a s) (ctx : Nat) (x : Word) : Keeps a (State.setStep s ctx x) := by
  unfold State.setStep
  (try dsimp only)
  (repeat' (first | split | (dsimp only; split))) <;>
    first | exact h | exact h.same rfl rfl rfl | (simp +contextual (maxDischargeDepth := 40) [h]; done)

@[simp] theorem agree_keeps (h : Keeps a s) (l : Launch) (d : Domain) : Keeps a (State.agree s l d) := by
  unfold State.agree
  (try dsimp only)
  (repeat' (first | split | (dsimp only; split))) <;>
    first | exact h | exact h.same rfl rfl rfl | (simp +contextual (maxDischargeDepth := 40) [h]; done)

theorem execSpanAgreement_goes (die : Nat) (x : DomainTurn) : Goes s (execSpanAgreement die x s) := by
  unfold execSpanAgreement
  split
  · simp
  · next l _ =>
    split
    · simp
    · next d _ =>
      have m := settleDomain_keeps (Keeps.refl s) l (d.withPeers l x.peers) 0
      dsimp only
      split
      · simp
      · split
        · simp
        · split
          · next e => rw [e] at m; exact goes_next.2 (agree_keeps m _ _)
          · next e => rw [e] at m; exact goes_next.2 m

end Sys2Proof.Machine
end

