-- ==== Sys2Proof/Laws/KeepsTake.lean ====
section
/-! SUPPORT. Queue heads, packet checks, acceptance and pre-emption keep what every step keeps. -/

set_option Elab.async false
set_option linter.all false

namespace Sys2Proof.Machine

variable {a s t : State}

/-! ### Heads.lean -/

@[simp] theorem pollQueue_keeps (h : Keeps a s) (die : Nat) (q : Queue) : Keeps a (State.pollQueue s die q).1 := by
  unfold State.pollQueue
  (try dsimp only)
  (repeat' (first | split | (dsimp only; split))) <;> simp +contextual (maxDischargeDepth := 40) [h]

@[simp] theorem pollAll_keeps (h : Keeps a s) (die : Nat) (which : Queue → Bool) : Keeps a (s.pollAll die which).1 := by
  refine foldl_keeps_of (fun c : State × List (Nat × List DWord) => c.1) (fun c q h => ?_) _ h
  have k := pollQueue_keeps h die q
  split
  · next e => rw [e] at k; exact k
  · next e => rw [e] at k; exact k

theorem execRereadTick_goes (die : Nat) : Goes s (execRereadTick die s) := by
  unfold execRereadTick
  (repeat' (first | split | (dsimp only; split))) <;> simp +contextual (maxDischargeDepth := 40)

@[simp] theorem publish_keeps (h : Keeps a s) (die qn : Nat) (i : DWord) : Keeps a (s.publish die qn i) := by
  unfold State.publish
  split
  · exact h
  · dsimp only
    split
    · next e => exact deviceStore8_keeps (modifyQueue_keeps h _ _ _) e
    · exact queueFault_keeps (modifyQueue_keeps h _ _ _) _ _ _ _ _

@[simp] theorem crcFailed_keeps (h : Keeps a s) (die : Nat) (q : Queue) (ws : List DWord) : Keeps a (State.crcFailed s die q ws) := by
  unfold State.crcFailed
  (try dsimp only)
  (repeat' (first | split | (dsimp only; split))) <;>
    first | exact h | exact h.same rfl rfl rfl | (simp +contextual (maxDischargeDepth := 40) [h]; done)

theorem execCrcReread_goes (die : Nat) (queue : Nat) : Goes s (execCrcReread die queue s) := by
  unfold execCrcReread
  (repeat' (first | split | (dsimp only; split))) <;> simp +contextual (maxDischargeDepth := 40)


/-! ### Check.lean -/


/-! ### Take.lean -/

@[simp] theorem takeSaves_keeps (h : Keeps a s) (die slot ctx : Nat) (susp : List SuspRec) : Keeps a (s.takeSaves die slot ctx susp) := by
  unfold State.takeSaves
  split
  · exact h
  · exact modifyContext_keeps (h.units _) _ _

@[simp] theorem startLaunch_keeps (h : Keeps a s) (die slot queue : Nat) (index : DWord) (ctx : Nat) (ws : List DWord) (t : Tables)
    (cinch : Option Cinch) : Keeps a (s.startLaunch die slot queue index ctx ws t cinch) := by
  have k := fun (l : Launch) => growRoom_keeps (s := { s with nextId := s.nextId + 1, launches := s.launches ++ [l] }) (h.same rfl rfl rfl) die slot
  unfold State.startLaunch
  dsimp only
  split
  · exact takeSaves_keeps (k _) _ _ _ _
  · exact k _

@[simp] theorem passPacket_keeps (h : Keeps a s) (die : Nat) (x : Source) : Keeps a (State.passPacket s die x) := by
  unfold State.passPacket
  (try dsimp only)
  (repeat' (first | split | (dsimp only; split))) <;>
    first | exact h | exact h.same rfl rfl rfl | (simp +contextual (maxDischargeDepth := 40) [h]; done)

@[simp] theorem rejectPacket_keeps (h : Keeps a s) (die : Nat) (x : Source) (ws : List DWord) (code : Nat) : Keeps a (State.rejectPacket s die x ws code) := by
  unfold State.rejectPacket
  (try dsimp only)
  (repeat' (first | split | (dsimp only; split))) <;>
    first | exact h | exact h.same rfl rfl rfl | (simp +contextual (maxDischargeDepth := 40) [h]; done)

@[simp] theorem takePacket_keeps (h : Keeps a s) (die : Nat) (slot : Nat) (x : Source) (ws : List DWord) : Keeps a (State.takePacket s die slot x ws) := by
  unfold State.takePacket
  (try dsimp only)
  (repeat' (first | split | (dsimp only; split))) <;>
    first | exact h | exact h.same rfl rfl rfl | (simp +contextual (maxDischargeDepth := 40) [h]; done)

theorem execArbitration_goes (die : Nat) : Goes s (execArbitration die s) := by
  unfold execArbitration
  split
  · simp
  · dsimp only
    have k := pollAll_keeps (Keeps.refl s) die fun q => q.num != 0
    split
    · exact goes_next.2 k
    · split
      · exact goes_next.2 (modifyDie_keeps k _ _)
      · split
        · exact goes_next.2 (modifyDie_keeps k _ _)
        · exact goes_next.2 (takePacket_keeps (modifyDie_keeps k _ _) _ _ _ _)

theorem execReplicaArrival_goes (generation : DWord) (context : Nat) (words : List DWord) : Goes s (execReplicaArrival generation context words s) := by
  unfold execReplicaArrival
  (repeat' (first | split | (dsimp only; split))) <;> simp +contextual (maxDischargeDepth := 40)

@[simp] theorem failRun_keeps (h : Keeps a s) (l : Launch) (st : AbortStatus) : Keeps a (State.failRun s l st) := by
  unfold State.failRun
  (try dsimp only)
  (repeat' (first | split | (dsimp only; split))) <;>
    first | exact h | exact h.same rfl rfl rfl | (simp +contextual (maxDischargeDepth := 40) [h]; done)

theorem execCinchArrival_goes (die : Nat) (slot : Nat) (chip : Nat) (refusal : Option Byte) : Goes s (execCinchArrival die slot chip refusal s) := by
  unfold execCinchArrival
  (repeat' (first | split | (dsimp only; split))) <;> simp +contextual (maxDischargeDepth := 40)

theorem execCinchRelease_goes (die : Nat) (slot : Nat) : Goes s (execCinchRelease die slot s) := by
  unfold execCinchRelease
  (repeat' (first | split | (dsimp only; split))) <;> simp +contextual (maxDischargeDepth := 40)

theorem execCinchTimeout_goes (die : Nat) (slot : Nat) : Goes s (execCinchTimeout die slot s) := by
  unfold execCinchTimeout
  (repeat' (first | split | (dsimp only; split))) <;> simp +contextual (maxDischargeDepth := 40)


/-! ### Image.lean -/

@[simp] theorem writeLong_keeps (h : Keeps a s) (ctx : Nat) (va : Nat) (bs : List Byte) : Keeps a (State.writeLong s ctx va bs) := by
  unfold State.writeLong
  (try dsimp only)
  (repeat' (first | split | (dsimp only; split))) <;>
    first | exact h | exact h.same rfl rfl rfl | (simp +contextual (maxDischargeDepth := 40) [h]; done)


/-! ### Preempt.lean -/

@[simp] theorem newQuantum_keeps (h : Keeps a s) (core : Nat) : Keeps a (State.newQuantum s core) := by
  unfold State.newQuantum
  (try dsimp only)
  (repeat' (first | split | (dsimp only; split))) <;>
    first | exact h | exact h.same rfl rfl rfl | (simp +contextual (maxDischargeDepth := 40) [h]; done)

@[simp] theorem swapBanks_keeps (h : Keeps a s) (core : Nat) : Keeps a (s.swapBanks core) := by
  unfold State.swapBanks
  exact modifyCore_keeps h _ _

@[simp] theorem noteSpills_keeps (h : Keeps a s) (w : Bool) (core : Nat) : Keeps a (s.noteSpills w core) := by
  unfold State.noteSpills
  split
  · exact h
  · exact h.units _

theorem execQuantumEnd_goes (core : Nat) : Goes s (execQuantumEnd core s) := by
  unfold execQuantumEnd
  split
  · simp
  · refine goes_next.2 (noteSpills_keeps (newQuantum_keeps ?_ _) _ _)
    split <;> simp

@[simp] theorem writeImage_keeps (h : Keeps a s) (group : List Nat) (u : WorkUnit) (off : Nat) (len : Nat) : Keeps a (State.writeImage s group u off len) := by
  unfold State.writeImage
  (try dsimp only)
  (repeat' (first | split | (dsimp only; split))) <;>
    first | exact h | exact h.same rfl rfl rfl | (simp +contextual (maxDischargeDepth := 40) [h]; done)

theorem writeImages_keeps (h : Keeps a s) {us : List WorkUnit} (e : s.writeImages us = some t) : Keeps a t := by
  unfold State.writeImages at e
  have key : ∀ (l : List WorkUnit) (acc : Option State) (f : Option State → WorkUnit → Option State),
      (∀ acc u, (∀ r, acc = some r → Keeps a r) → ∀ r, f acc u = some r → Keeps a r) →
      (∀ r, acc = some r → Keeps a r) → ∀ r, l.foldl f acc = some r → Keeps a r := by
    intro l
    induction l with
    | nil => intro acc f _ ha r hr; exact ha r hr
    | cons y l ih => intro acc f hf ha r hr; exact ih _ f hf (hf acc y ha) r hr
  refine key us _ _ (fun acc u ha r hr => ?_) (fun r hr => by cases hr; exact h) t e
  cases acc with
  | none => cases hr
  | some s' =>
    dsimp only [Option.bind] at hr
    cases k : s'.takeSave u.ctx (u.imageBytes (u.bslots.map fun n => (n, (s'.bank u.core u.bank).slot n)) (s'.unbegun u) 0).length with
    | none => rw [k] at hr; cases hr
    | some x => rw [k] at hr; cases hr; exact writeImage_keeps (takeSave_keeps (ha _ rfl) k) _ _ _ _

@[simp] theorem freeSpilled_keeps (h : Keeps a s) (u : WorkUnit) : Keeps a (State.freeSpilled s u) := by
  unfold State.freeSpilled
  (try dsimp only)
  (repeat' (first | split | (dsimp only; split))) <;>
    first | exact h | exact h.same rfl rfl rfl | (simp +contextual (maxDischargeDepth := 40) [h]; done)

@[simp] theorem afterSpill_keeps (h : Keeps a s) (u : WorkUnit) (us : List WorkUnit) (suspending : Bool) : Keeps a (State.afterSpill s u us suspending) := by
  unfold State.afterSpill
  (try dsimp only)
  (repeat' (first | split | (dsimp only; split))) <;>
    first | exact h | exact h.same rfl rfl rfl | (simp +contextual (maxDischargeDepth := 40) [h]; done)

@[simp] theorem spillGroup_keeps (h : Keeps a s) (u : WorkUnit) (suspending : Bool) : Keeps a (s.spillGroup u suspending) := by
  unfold State.spillGroup
  dsimp only
  split
  · exact h
  · split
    · next e =>
      exact acquireAll_keeps (afterSpill_keeps (foldl_keeps (fun s x h => freeSpilled_keeps h _) _ (writeImages_keeps h e)) _ _ _)
    · exact foldl_keeps (fun s x h => modifyUnit_keeps h _ _) _ h

theorem execSpill_goes (uid : Nat) : Goes s (execSpill uid s) := by
  unfold execSpill
  (repeat' (first | split | (dsimp only; split))) <;> simp +contextual (maxDischargeDepth := 40)

theorem execSpillTimeout_goes (die : Nat) (slot : Nat) : Goes s (execSpillTimeout die slot s) := by
  unfold execSpillTimeout
  (repeat' (first | split | (dsimp only; split))) <;> simp +contextual (maxDischargeDepth := 40)

@[simp] theorem countReread_keeps (h : Keeps a s) (u : WorkUnit) : Keeps a (s.countReread u) := by
  unfold State.countReread
  refine foldl_keeps (fun s x h => ?_) _ h
  split
  · refine foldl_keeps (fun s r h => ?_) _ h
    split
    · exact h
    · exact countRead_keeps h _ _ _
  · exact h

@[simp] theorem requeue_keeps (h : Keeps a s) (uid : Nat) : Keeps a (s.requeue uid) := by
  unfold State.requeue
  split
  · exact h
  · exact modifyUnit_keeps (modifyBank_keeps h _ _ _) _ _

@[simp] theorem requeueAll_keeps (h : Keeps a s) : Keeps a s.requeueAll := foldl_keeps (fun _ u h => requeue_keeps h _) _ h

@[simp] theorem resume_keeps (h : Keeps a s) (uid : Nat) : Keeps a (s.resume uid) := by
  unfold State.resume
  split
  · exact h
  · split
    · refine requeue_keeps (modifyUnit_keeps ?_ _ _) _
      exact (countReread_keeps h _).same rfl rfl rfl
    · exact h

theorem Keeps.engines (h : Keeps a s) (x : List Query) (y : List Collective) : Keeps a { s with queries := x, collectives := y } :=
  h.same rfl rfl rfl

@[simp] theorem moveBegun_keeps (h : Keeps a s) (u : WorkUnit) (core bank : Nat) : Keeps a (s.moveBegun u core bank) := by
  unfold State.moveBegun
  split
  · exact h
  · exact Keeps.engines (modifyBank_keeps (modifyBank_keeps h _ _ _) _ _ _) _ _

@[simp] theorem reseat_keeps (h : Keeps a s) (core bank : Nat) (m : List (Nat × Nat)) (u : WorkUnit) : Keeps a (s.reseat core bank m u) :=
  modifyLaunch_keeps (modifyCore_keeps (modifyUnit_keeps (modifyBank_keeps (moveBegun_keeps (freeSave_keeps h _ _) _ _ _) _ _ _) _ _) _ _) _ _ _

@[simp] theorem restoreGroup_keeps (h : Keeps a s) (core : Nat) (us : List WorkUnit) : Keeps a (s.restoreGroup core us) := by
  unfold State.restoreGroup
  split
  · exact h
  · exact foldl_keeps (fun _ u h => acquire_keeps h _) _ (foldl_keeps (fun _ u h => resume_keeps h _) _ (foldl_keeps (fun _ u h => reseat_keeps h _ _ _ _) _ h))

theorem execRestore_goes (uid : Nat) : Goes s (execRestore uid s) := by
  unfold execRestore
  (repeat' (first | split | (dsimp only; split))) <;> simp +contextual (maxDischargeDepth := 40)


end Sys2Proof.Machine
end

