-- ==== Sys2Proof/Laws/KeepsSystem.lean ====
section
/-! SUPPORT. Bring-up, the memory system, links, power and system commands keep what every step keeps. -/

set_option Elab.async false
set_option linter.all false

namespace Sys2Proof.Machine

variable {a s t : State}

/-! ### Boot.lean -/

/-- Cells spliced in between others keep the form. -/
theorem wf_splice {m new : List Host.Cell} (hm : sparseWf 0 m = true) (hn : sparseWf 0 new = true) {lo hi : Nat} (hlh : lo ≤ hi)
    (hr : ∀ c ∈ new, lo ≤ c.1 ∧ c.1 < hi) : sparseWf 0 (spliceCells m lo hi new) = true := by
  rw [sparseWf_iff] at *
  refine ⟨?_, ?_⟩
  · refine rising_append (rising_append (rising_filter hm.1 _) hn.1 ?_) (rising_filter hm.1 _) ?_
    · intro x hx y hy
      have := (hr y hy).1
      simp only [List.mem_filter, decide_eq_true_eq] at hx
      omega
    · intro x hx y hy
      simp only [List.mem_append, List.mem_filter, decide_eq_true_eq] at hx hy
      rcases hx with hx | hx
      · omega
      · have := (hr x hx).2; omega
  · intro x hx
    simp only [spliceCells, List.mem_append, List.mem_filter] at hx
    rcases hx with (hx | hx) | hx
    · exact hm.2 x hx.1
    · exact hn.2 x hx
    · exact hm.2 x hx.1

/-- Cells of a stretch moved elsewhere keep the form, and stay in the stretch's new place. -/
theorem wf_moved {m : List Host.Cell} (hm : sparseWf 0 m = true) (old new size : Nat) :
    sparseWf 0 ((m.filter fun c => decide (old ≤ c.1 ∧ c.1 < old + size)).map fun c => (c.1 - old + new, c.2)) = true ∧
    ∀ c ∈ (m.filter fun c => decide (old ≤ c.1 ∧ c.1 < old + size)).map (fun c => (c.1 - old + new, c.2)),
      new ≤ c.1 ∧ c.1 < new + size := by
  rw [sparseWf_iff] at *
  refine ⟨⟨?_, ?_⟩, ?_⟩
  · refine rising_map (rising_filter hm.1 _) (fun n => n - old + new) fun x hx y hy h => ?_
    simp only [List.mem_filter, decide_eq_true_eq] at hx hy
    omega
  · intro x hx
    simp only [List.mem_map, List.mem_filter] at hx
    obtain ⟨y, hy, rfl⟩ := hx
    exact hm.2 y hy.1
  · intro x hx
    simp only [List.mem_map, List.mem_filter, decide_eq_true_eq] at hx
    obtain ⟨y, hy, rfl⟩ := hx
    dsimp only
    omega

theorem entryCells_place (pa e : Nat) : ∀ c ∈ entryCells pa e, pa ≤ c.1 ∧ c.1 < pa + 8 ∧ c.2 ≠ 0 := by
  intro c hc
  simp only [entryCells, List.mem_map, List.mem_filter, bne_iff_ne] at hc
  obtain ⟨b, ⟨hb, hz⟩, rfl⟩ := hc
  have := List.mem_zipIdx hb
  have l : (natLe 8 e).length = 8 := by simp [natLe]
  refine ⟨by dsimp only; omega, by dsimp only; omega, hz⟩

theorem entryCells_rising (pa e : Nat) : Rising (entryCells pa e) := by
  unfold entryCells Rising
  rw [List.pairwise_map]
  refine List.Pairwise.filter _ ?_
  simp [natLe, List.zipIdx]

theorem bootEntries_apart (chip : Nat) : (bootEntries chip).Pairwise fun a b => a.1 + 8 ≤ b.1 := by
  have low : ∀ (n base : Nat) (f : Nat → Nat), ((List.range n).map fun k => (base + 8 * k, f k)).Pairwise fun a b => a.1 + 8 ≤ b.1 := by
    intro n base f
    rw [List.pairwise_map]
    exact List.pairwise_lt_range.imp fun h => by dsimp only; omega
  unfold bootEntries
  simp only [List.pairwise_append, List.mem_append, List.mem_map, List.mem_range, List.mem_singleton]
  refine ⟨⟨⟨List.pairwise_singleton _ _, low _ _ _, ?_⟩, ?_, ?_⟩, low _ _ _, ?_⟩
  · rintro _ rfl _ ⟨k, hk, rfl⟩
    dsimp only [bootLevel2]; omega
  · rw [List.pairwise_map]
    exact List.pairwise_lt_range.imp fun h => by dsimp only; omega
  · rintro _ (rfl | ⟨j, hj, rfl⟩) _ ⟨k, hk, rfl⟩
    · dsimp only [bootLevel2]; omega
    · dsimp only; omega
  · rintro _ ((rfl | ⟨j, hj, rfl⟩) | ⟨j, hj, rfl⟩) _ ⟨k, hk, rfl⟩ <;> (dsimp only [bootLevel3, bootLevel2]; omega)

theorem bootEntries_place (chip : Nat) : ∀ e ∈ bootEntries chip, bootRoot ≤ e.1 ∧ e.1 + 8 ≤ bootRoot + 0x100000 := by
  unfold bootEntries
  simp only [List.mem_append, List.mem_map, List.mem_range, List.mem_singleton]
  rintro _ (((rfl | ⟨k, hk, rfl⟩) | ⟨k, hk, rfl⟩) | ⟨k, hk, rfl⟩) <;> (dsimp only [bootLevel3, bootLevel2]; omega)

theorem wf_bootCells (chip base : Nat) :
    sparseWf 0 ((bootEntries chip).flatMap fun e => entryCells (base + e.1) e.2) = true := by
  rw [sparseWf_iff]
  refine ⟨?_, ?_⟩
  · unfold Rising
    rw [List.flatMap_def, List.pairwise_flatten, List.pairwise_map]
    refine ⟨?_, (bootEntries_apart chip).imp fun h x hx y hy => ?_⟩
    · intro l hl
      obtain ⟨e, _, rfl⟩ := List.mem_map.1 hl
      exact entryCells_rising _ _
    · have := entryCells_place _ _ x hx
      have := entryCells_place _ _ y hy
      omega
  · intro x hx
    obtain ⟨e, _, he⟩ := List.mem_flatMap.1 hx
    exact (entryCells_place _ _ x he).2.2

@[simp] theorem writeBootTables_keeps (h : Keeps a s) : Keeps a s.writeBootTables := by
  refine h.store (fun w => wf_splice w (wf_bootCells _ _) (by omega) fun c hc => ?_) rfl rfl
  obtain ⟨e, he, hc⟩ := List.mem_flatMap.1 hc
  have := entryCells_place _ _ c hc
  have := bootEntries_place _ e he
  omega

@[simp] theorem rechip_keeps (h : Keeps a s) (chip : Nat) : Keeps a (s.rechip chip) := by
  unfold State.rechip
  refine h.store (fun w => ?_) rfl rfl
  have m := wf_moved (m := s.mem) w (s.chip * 2 ^ 48) (chip * 2 ^ 48) (2 ^ 48)
  exact wf_splice (wf_filter w _) m.1 (by omega) m.2

theorem reset_dies : State.reset.dies.length = 4 := rfl

theorem afterReset_keeps (s : State) : Keeps s s.afterReset := by
  have k := rechip_keeps (Keeps.refl s) 0
  refine ⟨k.mem, .inr reset_dies, rfl⟩

theorem Keeps.up (h : Keeps a s) (x : List Context) (y : List Die) (b c : Bool) (hy : y.length = s.dies.length) :
    Keeps a { s with contexts := x, dies := y, booted := b, portsUp := c } := h.same rfl hy rfl

@[simp] theorem bringUp_keeps (h : Keeps a s) : Keeps a s.bringUp := by
  unfold State.bringUp
  exact recountFrames_keeps (Keeps.up (writeBootTables_keeps h) _ _ _ _ (by simp))

theorem execReset_goes : Goes s (execReset s) := by
  unfold execReset
  refine goes_next.2 ?_
  split
  · exact bringUp_keeps (afterReset_keeps s)
  · exact Keeps.same (s := s.afterReset) (afterReset_keeps s) rfl rfl rfl


/-! ### Memsys.lean -/

@[simp] theorem followPage_keeps (h : Keeps a s) (f : Nat → Nat) : Keeps a (State.followPage s f) := by
  unfold State.followPage
  (try dsimp only)
  (repeat' (first | split | (dsimp only; split))) <;>
    first | exact h | exact h.same rfl rfl rfl | (simp +contextual (maxDischargeDepth := 40) [h]; done)

@[simp] theorem copyPage_keeps (h : Keeps a s) (p : Movable) (new : Nat) : Keeps a (s.copyPage p new) := by
  refine h.store (fun w => ?_) rfl rfl
  have m := wf_moved (m := s.mem) w (s.fab p.base) (s.fab new) (65536 * p.frames)
  unfold State.copyPage
  dsimp only
  refine wf_splice w ?_ (by omega) ?_ <;> split
  · rfl
  · exact m.1
  · exact fun c hc => by cases hc
  · exact m.2

@[simp] theorem retarget_keeps (h : Keeps a s) (new : Nat) (e : MapEntry) : Keeps a (s.retarget new e) :=
  h.store (fun w => wf_write w _ _) rfl rfl

@[simp] theorem movePage_keeps (h : Keeps a s) (p : Movable) (new : Nat) : Keeps a (s.movePage p new) := by
  unfold State.movePage
  exact recountFrames_keeps (dropTlbs_keeps (foldl_keeps (fun s e h => retarget_keeps h _ _) _
    (Keeps.hints (followPage_keeps (copyPage_keeps h _ _) _) _)) _)

theorem execPageEvict_goes (die : Nat) : Goes s (execPageEvict die s) := by
  unfold execPageEvict
  (repeat' (first | split | (dsimp only; split))) <;> simp +contextual (maxDischargeDepth := 40)

theorem execPageBringBack_goes (die : Nat) : Goes s (execPageBringBack die s) := by
  unfold execPageBringBack
  (repeat' (first | split | (dsimp only; split))) <;> simp +contextual (maxDischargeDepth := 40)

@[simp] theorem logError_keeps (h : Keeps a s) (die : Nat) (kind : Nat) (ctx : Nat) (a' : DWord) : Keeps a (State.logError s die kind ctx a') := by
  unfold State.logError
  (try dsimp only)
  (repeat' (first | split | (dsimp only; split))) <;>
    first | exact h | exact h.same rfl rfl rfl | (simp +contextual (maxDischargeDepth := 40) [h]; done)

@[simp] theorem correctError_keeps (h : Keeps a s) (die : Nat) (x : DWord) : Keeps a (s.correctError die x) := by
  unfold State.correctError
  exact Keeps.same (logError_keeps h die 0 0 x) rfl rfl rfl

theorem execPatrolScrub_goes (address : DWord) : Goes s (execPatrolScrub address s) := by
  unfold execPatrolScrub
  dsimp only
  split <;> simp

@[simp] theorem countError_keeps (h : Keeps a s)  : Keeps a (State.countError s) := by
  unfold State.countError
  (try dsimp only)
  (repeat' (first | split | (dsimp only; split))) <;>
    first | exact h | exact h.same rfl rfl rfl | (simp +contextual (maxDischargeDepth := 40) [h]; done)

@[simp] theorem unitError_keeps (h : Keeps a s) (unit : Nat) (ok : WorkUnit → Bool) (f : WorkUnit → WorkUnit) :
    Keeps a (s.unitError unit ok f) := by
  unfold State.unitError
  split
  · split <;> simp [h]
  · exact h

theorem execUncorrectableError_goes (place : ErrorPlace) : Goes s (execUncorrectableError place s) := by
  unfold execUncorrectableError
  cases place with
  | sector x =>
    dsimp only
    split
    · exact goes_next.2 (Keeps.same (countError_keeps (Keeps.refl s)) rfl rfl rfl)
    · simp
  | area core o =>
    dsimp only
    split <;> simp
  | device die slot =>
    dsimp only
    split <;> simp (maxDischargeDepth := 40)
  | _ => simp

theorem Keeps.controllers (h : Keeps a s) (x : List Controller) : Keeps a { s with controllers := x } := h.same rfl rfl rfl

theorem execCongestionReport_goes (controller : Nat) : Goes s (execCongestionReport controller s) := by
  unfold execCongestionReport
  dsimp only
  split
  · simp
  · split
    · simp
    · exact goes_next.2 (Keeps.controllers (foldl_keeps (fun s n h => modifyCore_keeps h _ _) _ (tally_keeps (Keeps.refl s))) _)

theorem execCongestionLevelExpiry_goes (core : Nat) (controller : Nat) : Goes s (execCongestionLevelExpiry core controller s) := by
  unfold execCongestionLevelExpiry
  (repeat' (first | split | (dsimp only; split))) <;> simp +contextual (maxDischargeDepth := 40)

theorem execHbmRequestComplete_goes (request : Nat) : Goes s (execHbmRequestComplete request s) := by
  unfold execHbmRequestComplete
  exact goes_next.2 (Keeps.same (tally_keeps (Keeps.refl s)) rfl rfl rfl)


/-! ### Links.lean -/

@[simp] theorem homeWrite_keeps (h : Keeps a s) (pa : Nat) (bs : List Byte) : Keeps a (s.homeWrite pa bs) := by
  unfold State.homeWrite
  (repeat' split) <;> simp [h]

@[simp] theorem homeAtomic_keeps (h : Keeps a s) (pa : Nat) (e : AtomicEntry) (wide : Bool) (x y : DWord) :
    Keeps a (s.homeAtomic pa e wide x y).1 := by
  unfold State.homeAtomic
  dsimp only
  generalize (if wide = true then 8 else 4) = n
  split <;> simp [h]

@[simp] theorem homeSop_keeps (h : Keeps a s) (pa : Nat) (fpm : BitVec 4) (k : Nat) (bs : List Byte) : Keeps a (s.homeSop pa fpm k bs) := by
  unfold State.homeSop
  refine foldl_keeps (fun s i h => ?_) _ h
  dsimp only
  split <;> simp [h]

@[simp] theorem answered_keeps (h : Keeps a s) (q : LinkRequest) (data : List Byte) : Keeps a (s.answered q data) := by
  unfold State.answered
  split
  · exact modifyUnit_keeps h _ _
  · exact h

@[simp] theorem takeAnswer_keeps (h : Keeps a s) (id : Nat) (data : List Byte) : Keeps a (s.takeAnswer id data) := by
  unfold State.takeAnswer
  split
  · exact h
  · refine answered_keeps ?_ _ _
    exact h.same rfl rfl rfl

@[simp] theorem applyFlit_keeps (h : Keeps a s) (link : Nat) (f : Flit) : Keeps a (s.applyFlit link f) := by
  unfold State.applyFlit
  split
  · exact h
  · split <;> simp (maxDischargeDepth := 40) [h]

theorem execFlitReceive_goes (link : Nat) (f : Flit) : Goes s (execFlitReceive link f s) := by
  unfold execFlitReceive
  (repeat' (first | split | (dsimp only; split))) <;> simp +contextual (maxDischargeDepth := 40)

theorem execReplayRequest_goes (link : Nat) (seq : Nat) : Goes s (execReplayRequest link seq s) := by
  unfold execReplayRequest
  (repeat' (first | split | (dsimp only; split))) <;> simp +contextual (maxDischargeDepth := 40)

theorem execLinkReplayTimeout_goes (link : Nat) : Goes s (execLinkReplayTimeout link s) := by
  unfold execLinkReplayTimeout
  (repeat' (first | split | (dsimp only; split))) <;> simp +contextual (maxDischargeDepth := 40)


/-! ### Power.lean -/

theorem execPowerLimitThrottle_goes : Goes s (execPowerLimitThrottle s) := by
  unfold execPowerLimitThrottle
  split
  · exact goes_next.2 (Keeps.same (Keeps.refl s) rfl rfl rfl)
  · simp

theorem execClockRaise_goes : Goes s (execClockRaise s) := by
  unfold execClockRaise
  split
  · simp
  · exact goes_next.2 (Keeps.same (Keeps.refl s) rfl rfl rfl)

theorem execThermalStop_goes : Goes s (execThermalStop s) := goes_next.2 (Keeps.same (Keeps.refl s) rfl rfl rfl)

theorem execThermalResume_goes : Goes s (execThermalResume s) := goes_next.2 (Keeps.same (Keeps.refl s) rfl rfl rfl)


/-! ### SysCmd.lean -/

@[simp] theorem commandDoneRecord_keeps (h : Keeps a s) (die : Nat) (compl : DWord) (index : DWord) (res : List DWord) : Keeps a (State.commandDoneRecord s die compl index res) := by
  unfold State.commandDoneRecord
  (try dsimp only)
  (repeat' (first | split | (dsimp only; split))) <;>
    first | exact h | exact h.same rfl rfl rfl | (simp +contextual (maxDischargeDepth := 40) [h]; done)

@[simp] theorem commandFailed_keeps (h : Keeps a s) (die : Nat) (code : Nat) (compl : DWord) (index : DWord) : Keeps a (State.commandFailed s die code compl index) := by
  unfold State.commandFailed
  (try dsimp only)
  (repeat' (first | split | (dsimp only; split))) <;>
    first | exact h | exact h.same rfl rfl rfl | (simp +contextual (maxDischargeDepth := 40) [h]; done)

theorem execSystemCommandTake_goes (die : Nat) : Goes s (execSystemCommandTake die s) := by
  unfold execSystemCommandTake
  split
  · next q _ _ =>
    have k := pollQueue_keeps (Keeps.refl s) die q
    split
    · next e => rw [e] at k; exact goes_next.2 k
    · next e =>
      rw [e] at k
      dsimp only
      split
      · exact goes_next.2 (commandFailed_keeps (publish_keeps k _ _ _) _ _ _ _)
      · exact goes_next.2 (modifyDie_keeps (publish_keeps k _ _ _) _ _)
  · simp

theorem cmdCheck_done {codes : List Nat} {ok : CmdResult} {r : List DWord} (e : cmdCheck codes ok = .done t r) : ok = .done t r := by
  unfold cmdCheck at e
  split at e
  · cases e
  · exact e

theorem sysRun_goes (code : Nat) {f : Nat → SysCommand → CmdResult} (hf : ∀ d c t r, f d c = .done t r → Keeps s t) :
    Goes s (s.sysRun code f) := by
  unfold State.sysRun
  dsimp only
  split
  · simp
  · split
    · simp
    · split
      · simp
      · simp
      · next e => exact goes_next.2 (commandDoneRecord_keeps (modifyDie_keeps (hf _ _ _ _ e) _ _) _ _ _ _)

theorem execNegotiate_goes : Goes s (execNegotiate s) := by
  refine sysRun_goes _ fun d c t r e => ?_
  have e := cmdCheck_done e
  injection e with e _
  subst e
  have k := dropTlbs_keeps (writeBootTables_keeps (rechip_keeps (Keeps.refl s) (wordBits (c.arg 4) 12 0))) fun _ => true
  exact k.same rfl (by simp) rfl

theorem execReadManifest_goes : Goes s (execReadManifest s) := by
  refine sysRun_goes _ fun d c t r e => ?_
  split at e
  · next k => injection e with e _; subst e; exact deviceWrite_keeps (Keeps.refl s) k
  · cases e

theorem execCompareManifest_goes : Goes s (execCompareManifest s) := by
  refine sysRun_goes _ fun d c t r e => ?_
  split at e
  · cases e
  · split at e
    · cases e
    · injection e with e _; subst e; exact Keeps.refl _

theorem execAttest_goes : Goes s (execAttest s) := by
  refine sysRun_goes _ fun d c t r e => ?_
  split at e
  · cases e
  · split at e
    · next k => injection e with e _; subst e; exact deviceWrite_keeps (Keeps.refl s) k
    · cases e

theorem execCreateContext_goes : Goes s (execCreateContext s) := by
  refine sysRun_goes _ fun d c t r e => ?_
  have e := cmdCheck_done e
  injection e with e _
  subst e
  exact Keeps.same (Keeps.refl s) rfl rfl rfl

@[simp] theorem dropContext_keeps (h : Keeps a s) (n : Nat) : Keeps a (s.dropContext n) := by
  have k := foldl_keeps (a := a) (f := fun (s : State) (x : Segment) => match x.core with | some c => s.freeArea c x.offset x.size | none => s)
    (fun s x h => by split <;> simp [h]) (s.segments.filter (·.ctx == n)) h
  unfold State.dropContext
  refine pruneHints_keeps (dropTlbs_keeps ?_ _)
  exact k.same rfl rfl rfl

theorem execDestroyContext_goes : Goes s (execDestroyContext s) := by
  refine sysRun_goes _ fun d c t r e => ?_
  have e := cmdCheck_done e
  injection e with e _
  subst e
  simp

theorem execPtUpdate_goes : Goes s (execPtUpdate s) := by
  refine sysRun_goes _ fun d c t r e => ?_
  have e := cmdCheck_done e
  injection e with e _
  subst e
  simp (maxDischargeDepth := 40)

theorem execPtInvalidate_goes : Goes s (execPtInvalidate s) := by
  refine sysRun_goes _ fun d c t r e => ?_
  have e := cmdCheck_done e
  injection e with e _
  subst e
  simp (maxDischargeDepth := 40)

theorem execReadCounters_goes : Goes s (execReadCounters s) := by
  refine sysRun_goes _ fun d c t r e => ?_
  split at e
  · cases e
  · injection e with e _; subst e; exact Keeps.refl _

@[simp] theorem dropSave_keeps (h : Keeps a s) (ctx : Nat) (r : SaveRec) : Keeps a (s.dropSave ctx r) := by
  unfold State.dropSave
  exact foldl_keeps (fun s u h => foldl_keeps (fun s n h => releaseOne_keeps h _ _ _) _ (freeSave_keeps h _ _)) _
    (modifyContext_keeps h _ _)

theorem execDiscardSave_goes : Goes s (execDiscardSave s) := by
  refine sysRun_goes _ fun d c t r e => ?_
  have e := cmdCheck_done e
  split at e
  · injection e with e _; subst e; exact acquireAll_keeps (dropSave_keeps (Keeps.refl s) _ _)
  · cases e

theorem execCreateQueue_goes : Goes s (execCreateQueue s) := by
  refine sysRun_goes _ fun d c t r e => ?_
  dsimp only at e
  split at e
  · cases e
  · split at e
    · have e := cmdCheck_done e
      injection e with e _
      subst e
      simp
    · cases e

theorem execDestroyQueue_goes : Goes s (execDestroyQueue s) := by
  refine sysRun_goes _ fun d c t r e => ?_
  have e := cmdCheck_done e
  injection e with e _
  subst e
  simp

theorem execResumeQueue_goes : Goes s (execResumeQueue s) := by
  refine sysRun_goes _ fun d c t r e => ?_
  have e := cmdCheck_done e
  injection e with e _
  subst e
  simp

theorem execSetShared_goes : Goes s (execSetShared s) := by
  refine sysRun_goes _ fun d c t r e => ?_
  dsimp only at e
  split at e
  · cases e
  · split at e
    · cases e
    · injection e with e _; subst e; simp

theorem execSetLowwater_goes : Goes s (execSetLowwater s) := by
  refine sysRun_goes _ fun d c t r e => ?_
  have e := cmdCheck_done e
  injection e with e _
  subst e
  simp

theorem execWindowAdd_goes : Goes s (execWindowAdd s) := by
  refine sysRun_goes _ fun d c t r e => ?_
  have e := cmdCheck_done e
  injection e with e _
  subst e
  simp

theorem execWindowRemove_goes : Goes s (execWindowRemove s) := by
  refine sysRun_goes _ fun d c t r e => ?_
  have e := cmdCheck_done e
  injection e with e _
  subst e
  simp

theorem Keeps.cores (h : Keeps a s) (x : List Core) : Keeps a { s with cores := x } := h.same rfl rfl rfl

@[simp] theorem withdraw_keeps (h : Keeps a s) (l : Launch) (save : DWord) : Keeps a (s.withdraw l save) := by
  unfold State.withdraw
  exact modifyLaunch_keeps (Keeps.cores (foldl_keeps (fun s u h => Keeps.units (freeUnit_keeps h _) _) _ h) _) _ _ _

theorem execSuspendLaunch_goes : Goes s (execSuspendLaunch s) := by
  refine sysRun_goes _ fun d c t r e => ?_
  dsimp only at e
  split at e
  · have e := cmdCheck_done e; cases e
  · have e := cmdCheck_done e
    injection e with e _
    subst e
    split <;> simp


end Sys2Proof.Machine
end

