-- ==== Sys2Proof/Laws/KeepsTack.lean ====
section
/-! SUPPORT. Ports, Tack cores and the next turn keep what every step keeps. -/

set_option Elab.async false
set_option linter.all false

namespace Sys2Proof.Machine

variable {a s t : State}

/-! ### Ports.lean -/

@[simp] theorem respond_keeps (h : Keeps a s) (r : Response) : Keeps a (State.respond s r) := by
  unfold State.respond
  (try dsimp only)
  (repeat' (first | split | (dsimp only; split))) <;>
    first | exact h | exact h.same rfl rfl rfl | (simp +contextual (maxDischargeDepth := 40) [h]; done)

theorem execTailStore_goes (die : Nat) (queue : Nat) (value : DWord) : Goes s (execTailStore die queue value s) := by
  unfold execTailStore
  (repeat' (first | split | (dsimp only; split))) <;> simp +contextual (maxDischargeDepth := 40)

theorem execTailLoad_goes (die : Nat) (queue : Nat) : Goes s (execTailLoad die queue s) := by
  unfold execTailLoad
  (repeat' (first | split | (dsimp only; split))) <;> simp +contextual (maxDischargeDepth := 40)

theorem execReadIndexLoad_goes (die : Nat) (queue : Nat) : Goes s (execReadIndexLoad die queue s) := by
  unfold execReadIndexLoad
  (repeat' (first | split | (dsimp only; split))) <;> simp +contextual (maxDischargeDepth := 40)

theorem execWakeOtherAccess_goes (a' : WakeAccess) : Goes s (execWakeOtherAccess a' s) := by
  unfold execWakeOtherAccess
  (repeat' (first | split | (dsimp only; split))) <;> simp +contextual (maxDischargeDepth := 40)

@[simp] theorem rmaStore_keeps (h : Keeps a s) (ctx : Nat) (ps : List Piece) (bs : List Byte) : Keeps a (State.rmaStore s ctx ps bs) := by
  unfold State.rmaStore
  (try dsimp only)
  (repeat' (first | split | (dsimp only; split))) <;>
    first | exact h | exact h.same rfl rfl rfl | (simp +contextual (maxDischargeDepth := 40) [h]; done)

theorem execRmaWrite_goes (m : RmaWrite) : Goes s (execRmaWrite m s) := by
  unfold execRmaWrite
  (repeat' (first | split | (dsimp only; split))) <;> simp +contextual (maxDischargeDepth := 40)

@[simp] theorem rmaLoad_keeps (h : Keeps a s) (ctx : Nat) (ps : List Piece) : Keeps a (State.rmaLoad s ctx ps) := by
  unfold State.rmaLoad
  (try dsimp only)
  (repeat' (first | split | (dsimp only; split))) <;>
    first | exact h | exact h.same rfl rfl rfl | (simp +contextual (maxDischargeDepth := 40) [h]; done)

theorem Keeps.free (h : Keeps a s) (n : Nat) : Keeps a { s with freeIdx := n } := h.same rfl rfl rfl

theorem execRmaRead_goes (m : RmaRead) : Goes s (execRmaRead m s) := by
  unfold execRmaRead
  split
  · simp
  · split
    · simp
    · split
      · simp
      · exact goes_next.2 (Keeps.free (rmaLoad_keeps (Keeps.refl s) _ _) _)

theorem execUnsupportedRequest_goes (port : Nat) : Goes s (execUnsupportedRequest port s) := by
  unfold execUnsupportedRequest
  (repeat' (first | split | (dsimp only; split))) <;> simp +contextual (maxDischargeDepth := 40)


/-! ### Turn.lean -/

@[simp] theorem chargeWord_keeps (h : Keeps a s) (g : Gang) : Keeps a (State.chargeWord s g) := by
  unfold State.chargeWord
  (try dsimp only)
  (repeat' (first | split | (dsimp only; split))) <;>
    first | exact h | exact h.same rfl rfl rfl | (simp +contextual (maxDischargeDepth := 40) [h]; done)

@[simp] theorem modifyTack_keeps (h : Keeps a s) (die : Nat) (core : Nat) (f : TackCore → TackCore) : Keeps a (State.modifyTack s die core f) := by
  unfold State.modifyTack
  (try dsimp only)
  (repeat' (first | split | (dsimp only; split))) <;>
    first | exact h | exact h.same rfl rfl rfl | (simp +contextual (maxDischargeDepth := 40) [h]; done)


/-! ### Tack.lean -/

@[simp] theorem tackStep_keeps (h : Keeps a s) (f : TackCore → TackCore) : Keeps a (State.tackStep s f) := by
  unfold State.tackStep
  (try dsimp only)
  (repeat' (first | split | (dsimp only; split))) <;>
    first | exact h | exact h.same rfl rfl rfl | (simp +contextual (maxDischargeDepth := 40) [h]; done)

theorem xdreox_goes {run : State → TackCore → State} (hr : ∀ t, Keeps s (run s t)) : Goes s (s.xdreox run) := by
  unfold State.xdreox
  dsimp only
  split
  · exact goes_next.2 (hr _)
  · simp

@[simp] theorem fillEntry_keeps (h : Keeps a s) (die : Nat) (ent : Nat) (e : PacketEntry) : Keeps a (State.fillEntry s die ent e) := by
  unfold State.fillEntry
  (try dsimp only)
  (repeat' (first | split | (dsimp only; split))) <;>
    first | exact h | exact h.same rfl rfl rfl | (simp +contextual (maxDischargeDepth := 40) [h]; done)

@[simp] theorem fetchIntake_keeps (h : Keeps a s) (die : Nat) (ent : Nat) (rd : BitVec 5) (index : DWord) : Keeps a (State.fetchIntake s die ent rd index) := by
  unfold State.fetchIntake
  (try dsimp only)
  (repeat' (first | split | (dsimp only; split))) <;>
    first | exact h | exact h.same rfl rfl rfl | (simp +contextual (maxDischargeDepth := 40) [h]; done)

@[simp] theorem fetchQueue_keeps (h : Keeps a s) (die : Nat) (ent : Nat) (q : Queue) (rd : BitVec 5) (index : DWord) : Keeps a (State.fetchQueue s die ent q rd index) := by
  unfold State.fetchQueue
  (try dsimp only)
  (repeat' (first | split | (dsimp only; split))) <;>
    first | exact h | exact h.same rfl rfl rfl | (simp +contextual (maxDischargeDepth := 40) [h]; done)

theorem execRfetch_goes (rd rs1 rs2 : BitVec 5) : Goes s (execRfetch rd rs1 rs2 s) := by
  refine xdreox_goes fun t => ?_
  dsimp only
  (repeat' split) <;> simp

theorem execBfex_goes (rd rs1 rs2 : BitVec 5) : Goes s (execBfex rd rs1 rs2 s) := by
  refine xdreox_goes fun t => ?_
  dsimp only
  (repeat' split) <;> simp

theorem execSigwait_goes (rd rs1 rs2 : BitVec 5) : Goes s (execSigwait rd rs1 rs2 s) := by
  refine xdreox_goes fun t => ?_
  dsimp only
  (repeat' split) <;> simp

theorem execSigwaitTimeout_goes (die : Nat) (core : Nat) : Goes s (execSigwaitTimeout die core s) := by
  unfold execSigwaitTimeout
  (repeat' (first | split | (dsimp only; split))) <;> simp +contextual (maxDischargeDepth := 40)

theorem execDispatch_goes (rd rs1 : BitVec 5) : Goes s (execDispatch rd rs1 s) := by
  refine xdreox_goes fun t => ?_
  dsimp only
  split
  · simp
  · split
    · simp
    · simp (maxDischargeDepth := 40)

end Sys2Proof.Machine
end

