-- ==== Sys2Proof/Laws/KeepsTurn.lean ====
section
/-! SUPPORT. What a step comes to, a next state or an instruction at a state, keeps what every step keeps. -/

set_option Elab.async false
set_option linter.all false

namespace Sys2Proof.Machine

variable {a s t : State}

/-- What a step comes to keeps what every step keeps, so far: a next state does, or the state at which an instruction is to run. -/
def Chosen.Keeps (a : State) : Chosen → Prop
  | .state t => Machine.Keeps a t
  | .run _ t => Machine.Keeps a t
  | .fault _ => True
  | .refuse _ => True

theorem gangTurn_keeps (h : Keeps a s) (g : Gang) : (s.gangTurn g).Keeps a := by
  unfold State.gangTurn
  split
  · exact h
  · split
    · exact reportLoad_keeps h _ _ _
    · split
      · exact reportAttach_keeps h _ _
      · exact h
    · have k := fun lit => chargeWord_keeps (issueWord_keeps h g lit) g
      split
      · exact h
      · split
        · exact enterTrap_keeps h _ _
        · split
          · exact h
          · dsimp only
            split
            · split
              · exact h
              · exact k _
            · exact rawFault_keeps (k _) _ _ _

theorem tackTurn_keeps (h : Keeps a s) (die core : Nat) : (s.tackTurn die core).Keeps a := by
  have k : Keeps a { s with curTack := (die, core) } := h.same rfl rfl rfl
  unfold State.tackTurn
  dsimp only
  split
  · trivial
  · split
    · exact k
    · exact modifyTack_keeps k _ _ _
    · trivial

theorem idle_keeps (h : Keeps a s) : s.idle.Keeps a := by
  unfold State.idle
  split
  · exact h
  · exact h.same rfl rfl rfl

theorem turn_keeps (h : Keeps a s) (t : Turn) : (s.turn t).Keeps a := by
  unfold State.turn
  split
  · exact h
  · exact h.same rfl rfl rfl
  · split
    · refine gangTurn_keeps ?_ _
      exact h.same rfl rfl rfl
    · exact h
  · exact tackTurn_keeps h _ _
  · exact modifyTack_keeps h _ _ _
  · exact startWalk_keeps h _ _ _
  · exact endWalk_keeps h _
  · exact correctError_keeps h _ _

theorem settle_keeps (h : Keeps a s) : Keeps a s.settle :=
  (noteWaits_keeps (requeueAll_keeps (settleAllReleases_keeps h))).same rfl rfl rfl

theorem choose_keeps (s : State) : s.choose.Keeps s := by
  have k := settle_keeps (Keeps.refl s)
  unfold State.choose
  dsimp only
  split
  · exact idle_keeps k
  · refine turn_keeps ?_ _
    exact k.same rfl rfl rfl

end Sys2Proof.Machine
end

