-- ==== Sys2Proof/Laws/PerInstr.lean ====
section
/-! SUPPORT. What holds of every instruction as syntax, one lemma a constructor: its opcode names it in the opcode map of R46, in the one
table its body stands in, and in nine bits. -/

set_option Elab.async false

namespace Sys2Proof.Laws.Opcode

/-- The opcode of an instruction's body names that instruction, in the table of its body, and no table before it has that opcode. -/
def Statement (i : Instr) : Prop :=
  match i.body with
  | .std opc w => opc < 512 ∧ (stdTable.lookup opc).map (· w) = some i
  | .mem opc w => opc < 512 ∧ (stdTable.lookup opc).isNone = true ∧ (memTable.lookup opc).map (· w) = some i
  | .ctl opc w => opc < 512 ∧ (stdTable.lookup opc).isNone = true ∧ (memTable.lookup opc).isNone = true ∧
      (ctlTable.lookup opc).map (· w) = some i
  | .pair p => i = .pairedWord p
  | .raw w => i = .unassignedOpcode w
  | .tack f _ _ _ => f.toNat < 4
  | .event _ => encode i = none

end Sys2Proof.Laws.Opcode

theorem Sys2Proof.Laws.Opcode.tailStore (die queue : Nat) (value : DWord) : Sys2Proof.Laws.Opcode.Statement (.tailStore die queue value) := rfl
theorem Sys2Proof.Laws.Opcode.tailLoad (die queue : Nat) : Sys2Proof.Laws.Opcode.Statement (.tailLoad die queue) := rfl
theorem Sys2Proof.Laws.Opcode.readIndexLoad (die queue : Nat) : Sys2Proof.Laws.Opcode.Statement (.readIndexLoad die queue) := rfl
theorem Sys2Proof.Laws.Opcode.wakeOtherAccess (a : WakeAccess) : Sys2Proof.Laws.Opcode.Statement (.wakeOtherAccess a) := rfl
theorem Sys2Proof.Laws.Opcode.rmaWrite (m : RmaWrite) : Sys2Proof.Laws.Opcode.Statement (.rmaWrite m) := rfl
theorem Sys2Proof.Laws.Opcode.rmaRead (m : RmaRead) : Sys2Proof.Laws.Opcode.Statement (.rmaRead m) := rfl
theorem Sys2Proof.Laws.Opcode.unsupportedRequest (port : Nat) : Sys2Proof.Laws.Opcode.Statement (.unsupportedRequest port) := rfl
theorem Sys2Proof.Laws.Opcode.rereadTick (die : Nat) : Sys2Proof.Laws.Opcode.Statement (.rereadTick die) := rfl
theorem Sys2Proof.Laws.Opcode.crcReread (die queue : Nat) : Sys2Proof.Laws.Opcode.Statement (.crcReread die queue) := rfl
theorem Sys2Proof.Laws.Opcode.arbitration (die : Nat) : Sys2Proof.Laws.Opcode.Statement (.arbitration die) := rfl
theorem Sys2Proof.Laws.Opcode.systemCommandTake (die : Nat) : Sys2Proof.Laws.Opcode.Statement (.systemCommandTake die) := rfl
theorem Sys2Proof.Laws.Opcode.replicaArrival (generation : DWord) (context : Nat) (words : List DWord) : Sys2Proof.Laws.Opcode.Statement (.replicaArrival generation context words) := rfl
theorem Sys2Proof.Laws.Opcode.cinchArrival (die slot chip : Nat) (refusal : Option Byte) : Sys2Proof.Laws.Opcode.Statement (.cinchArrival die slot chip refusal) := rfl
theorem Sys2Proof.Laws.Opcode.cinchRelease (die slot : Nat) : Sys2Proof.Laws.Opcode.Statement (.cinchRelease die slot) := rfl
theorem Sys2Proof.Laws.Opcode.cinchTimeout (die slot : Nat) : Sys2Proof.Laws.Opcode.Statement (.cinchTimeout die slot) := rfl
theorem Sys2Proof.Laws.Opcode.rfetch (rd rs1 rs2 : BitVec 5) : Sys2Proof.Laws.Opcode.Statement (.rfetch rd rs1 rs2) := (by decide : (0 : BitVec 3).toNat < 4)
theorem Sys2Proof.Laws.Opcode.bfex (rd rs1 rs2 : BitVec 5) : Sys2Proof.Laws.Opcode.Statement (.bfex rd rs1 rs2) := (by decide : (1 : BitVec 3).toNat < 4)
theorem Sys2Proof.Laws.Opcode.sigwait (rd rs1 rs2 : BitVec 5) : Sys2Proof.Laws.Opcode.Statement (.sigwait rd rs1 rs2) := (by decide : (2 : BitVec 3).toNat < 4)
theorem Sys2Proof.Laws.Opcode.dispatch (rd rs1 : BitVec 5) : Sys2Proof.Laws.Opcode.Statement (.dispatch rd rs1) := (by decide : (3 : BitVec 3).toNat < 4)
theorem Sys2Proof.Laws.Opcode.sigwaitTimeout (die core : Nat) : Sys2Proof.Laws.Opcode.Statement (.sigwaitTimeout die core) := rfl
theorem Sys2Proof.Laws.Opcode.unitPlace (die slot core : Nat) : Sys2Proof.Laws.Opcode.Statement (.unitPlace die slot core) := rfl
theorem Sys2Proof.Laws.Opcode.frontierDispatch (die slot core : Nat) : Sys2Proof.Laws.Opcode.Statement (.frontierDispatch die slot core) := rfl
theorem Sys2Proof.Laws.Opcode.taskGather (die slot core : Nat) : Sys2Proof.Laws.Opcode.Statement (.taskGather die slot core) := rfl
theorem Sys2Proof.Laws.Opcode.taskRoundEnd (die slot : Nat) : Sys2Proof.Laws.Opcode.Statement (.taskRoundEnd die slot) := rfl
theorem Sys2Proof.Laws.Opcode.attachWaitTimeout (unit : Nat) : Sys2Proof.Laws.Opcode.Statement (.attachWaitTimeout unit) := rfl
theorem Sys2Proof.Laws.Opcode.quantumEnd (core : Nat) : Sys2Proof.Laws.Opcode.Statement (.quantumEnd core) := rfl
theorem Sys2Proof.Laws.Opcode.spill (unit : Nat) : Sys2Proof.Laws.Opcode.Statement (.spill unit) := rfl
theorem Sys2Proof.Laws.Opcode.spillTimeout (die slot : Nat) : Sys2Proof.Laws.Opcode.Statement (.spillTimeout die slot) := rfl
theorem Sys2Proof.Laws.Opcode.restore (unit : Nat) : Sys2Proof.Laws.Opcode.Statement (.restore unit) := rfl
theorem Sys2Proof.Laws.Opcode.congestionReport (controller : Nat) : Sys2Proof.Laws.Opcode.Statement (.congestionReport controller) := rfl
theorem Sys2Proof.Laws.Opcode.congestionLevelExpiry (core controller : Nat) : Sys2Proof.Laws.Opcode.Statement (.congestionLevelExpiry core controller) := rfl
theorem Sys2Proof.Laws.Opcode.hbmRequestComplete (request : Nat) : Sys2Proof.Laws.Opcode.Statement (.hbmRequestComplete request) := rfl
theorem Sys2Proof.Laws.Opcode.longResultWritten (unit : Nat) (result : ResultPart) : Sys2Proof.Laws.Opcode.Statement (.longResultWritten unit result) := rfl
theorem Sys2Proof.Laws.Opcode.parkEnd (g : GangRef) : Sys2Proof.Laws.Opcode.Statement (.parkEnd g) := rfl
theorem Sys2Proof.Laws.Opcode.clauseStart (g : GangRef) : Sys2Proof.Laws.Opcode.Statement (.clauseStart g) := rfl
theorem Sys2Proof.Laws.Opcode.pairedWord (p : PairWord) : Sys2Proof.Laws.Opcode.Statement (.pairedWord p) := rfl
theorem Sys2Proof.Laws.Opcode.unassignedOpcode (w : DWord) : Sys2Proof.Laws.Opcode.Statement (.unassignedOpcode w) := rfl
theorem Sys2Proof.Laws.Opcode.spanAgreement (die : Nat) (slot : DomainTurn) : Sys2Proof.Laws.Opcode.Statement (.spanAgreement die slot) := rfl
theorem Sys2Proof.Laws.Opcode.batchCommit (die : Nat) (slot : DomainTurn) : Sys2Proof.Laws.Opcode.Statement (.batchCommit die slot) := rfl
theorem Sys2Proof.Laws.Opcode.nonEventSchedArrival (message : Nat) : Sys2Proof.Laws.Opcode.Statement (.nonEventSchedArrival message) := rfl
theorem Sys2Proof.Laws.Opcode.nonEventCancelArrival (message : Nat) : Sys2Proof.Laws.Opcode.Statement (.nonEventCancelArrival message) := rfl
theorem Sys2Proof.Laws.Opcode.segmentEvict (core context : Nat) (name : DWord) : Sys2Proof.Laws.Opcode.Statement (.segmentEvict core context name) := rfl
theorem Sys2Proof.Laws.Opcode.segmentReloadComplete (core context : Nat) (name : DWord) : Sys2Proof.Laws.Opcode.Statement (.segmentReloadComplete core context name) := rfl
theorem Sys2Proof.Laws.Opcode.pageEvict (die : Nat) : Sys2Proof.Laws.Opcode.Statement (.pageEvict die) := rfl
theorem Sys2Proof.Laws.Opcode.pageBringBack (die : Nat) : Sys2Proof.Laws.Opcode.Statement (.pageBringBack die) := rfl
theorem Sys2Proof.Laws.Opcode.patrolScrub (address : DWord) : Sys2Proof.Laws.Opcode.Statement (.patrolScrub address) := rfl
theorem Sys2Proof.Laws.Opcode.uncorrectableError (place : ErrorPlace) : Sys2Proof.Laws.Opcode.Statement (.uncorrectableError place) := rfl
theorem Sys2Proof.Laws.Opcode.copyPerform (core bank queue : Nat) : Sys2Proof.Laws.Opcode.Statement (.copyPerform core bank queue) := rfl
theorem Sys2Proof.Laws.Opcode.collContribution (c : CollMessage) : Sys2Proof.Laws.Opcode.Statement (.collContribution c) := rfl
theorem Sys2Proof.Laws.Opcode.collComplete (collective : Nat) : Sys2Proof.Laws.Opcode.Statement (.collComplete collective) := rfl
theorem Sys2Proof.Laws.Opcode.collTimeout (collective : Nat) : Sys2Proof.Laws.Opcode.Statement (.collTimeout collective) := rfl
theorem Sys2Proof.Laws.Opcode.kStep (unit : Nat) : Sys2Proof.Laws.Opcode.Statement (.kStep unit) := rfl
theorem Sys2Proof.Laws.Opcode.matrixOperationPerform (unit : Nat) : Sys2Proof.Laws.Opcode.Statement (.matrixOperationPerform unit) := rfl
theorem Sys2Proof.Laws.Opcode.searchExpand (query : Nat) (node : Word) : Sys2Proof.Laws.Opcode.Statement (.searchExpand query node) := rfl
theorem Sys2Proof.Laws.Opcode.searchList (query : Nat) (node : Word) : Sys2Proof.Laws.Opcode.Statement (.searchList query node) := rfl
theorem Sys2Proof.Laws.Opcode.searchEval (query : Nat) (node : Word) : Sys2Proof.Laws.Opcode.Statement (.searchEval query node) := rfl
theorem Sys2Proof.Laws.Opcode.searchDist (query : Nat) (node : Word) : Sys2Proof.Laws.Opcode.Statement (.searchDist query node) := rfl
theorem Sys2Proof.Laws.Opcode.windowClose (die slot scope set k : Nat) : Sys2Proof.Laws.Opcode.Statement (.windowClose die slot scope set k) := rfl
theorem Sys2Proof.Laws.Opcode.epochMerge (die slot : Nat) : Sys2Proof.Laws.Opcode.Statement (.epochMerge die slot) := rfl
theorem Sys2Proof.Laws.Opcode.flitReceive (link : Nat) (f : Flit) : Sys2Proof.Laws.Opcode.Statement (.flitReceive link f) := rfl
theorem Sys2Proof.Laws.Opcode.replayRequest (link : Nat) (seq : Nat) : Sys2Proof.Laws.Opcode.Statement (.replayRequest link seq) := rfl
theorem Sys2Proof.Laws.Opcode.linkReplayTimeout (link : Nat) : Sys2Proof.Laws.Opcode.Statement (.linkReplayTimeout link) := rfl
theorem Sys2Proof.Laws.Opcode.launchRetire (die slot : Nat) : Sys2Proof.Laws.Opcode.Statement (.launchRetire die slot) := rfl
theorem Sys2Proof.Laws.Opcode.launchAbort (die slot : Nat) (st : AbortStatus) : Sys2Proof.Laws.Opcode.Statement (.launchAbort die slot st) := rfl
theorem Sys2Proof.Laws.Opcode.iadd (w : StdWord) : Sys2Proof.Laws.Opcode.Statement (.iadd w) := ⟨by decide, rfl⟩
theorem Sys2Proof.Laws.Opcode.isub (w : StdWord) : Sys2Proof.Laws.Opcode.Statement (.isub w) := ⟨by decide, rfl⟩
theorem Sys2Proof.Laws.Opcode.imul (w : StdWord) : Sys2Proof.Laws.Opcode.Statement (.imul w) := ⟨by decide, rfl⟩
theorem Sys2Proof.Laws.Opcode.imulh (w : StdWord) : Sys2Proof.Laws.Opcode.Statement (.imulh w) := ⟨by decide, rfl⟩
theorem Sys2Proof.Laws.Opcode.imad (w : StdWord) : Sys2Proof.Laws.Opcode.Statement (.imad w) := ⟨by decide, rfl⟩
theorem Sys2Proof.Laws.Opcode.iadd64 (w : StdWord) : Sys2Proof.Laws.Opcode.Statement (.iadd64 w) := ⟨by decide, rfl⟩
theorem Sys2Proof.Laws.Opcode.imad64 (w : StdWord) : Sys2Proof.Laws.Opcode.Statement (.imad64 w) := ⟨by decide, rfl⟩
theorem Sys2Proof.Laws.Opcode.imin (w : StdWord) : Sys2Proof.Laws.Opcode.Statement (.imin w) := ⟨by decide, rfl⟩
theorem Sys2Proof.Laws.Opcode.imax (w : StdWord) : Sys2Proof.Laws.Opcode.Statement (.imax w) := ⟨by decide, rfl⟩
theorem Sys2Proof.Laws.Opcode.iabs (w : StdWord) : Sys2Proof.Laws.Opcode.Statement (.iabs w) := ⟨by decide, rfl⟩
theorem Sys2Proof.Laws.Opcode.ineg (w : StdWord) : Sys2Proof.Laws.Opcode.Statement (.ineg w) := ⟨by decide, rfl⟩
theorem Sys2Proof.Laws.Opcode.iadds (w : StdWord) : Sys2Proof.Laws.Opcode.Statement (.iadds w) := ⟨by decide, rfl⟩
theorem Sys2Proof.Laws.Opcode.and (w : StdWord) : Sys2Proof.Laws.Opcode.Statement (.and w) := ⟨by decide, rfl⟩
theorem Sys2Proof.Laws.Opcode.or (w : StdWord) : Sys2Proof.Laws.Opcode.Statement (.or w) := ⟨by decide, rfl⟩
theorem Sys2Proof.Laws.Opcode.xor (w : StdWord) : Sys2Proof.Laws.Opcode.Statement (.xor w) := ⟨by decide, rfl⟩
theorem Sys2Proof.Laws.Opcode.not (w : StdWord) : Sys2Proof.Laws.Opcode.Statement (.not w) := ⟨by decide, rfl⟩
theorem Sys2Proof.Laws.Opcode.lop3 (w : StdWord) : Sys2Proof.Laws.Opcode.Statement (.lop3 w) := ⟨by decide, rfl⟩
theorem Sys2Proof.Laws.Opcode.shl (w : StdWord) : Sys2Proof.Laws.Opcode.Statement (.shl w) := ⟨by decide, rfl⟩
theorem Sys2Proof.Laws.Opcode.shr (w : StdWord) : Sys2Proof.Laws.Opcode.Statement (.shr w) := ⟨by decide, rfl⟩
theorem Sys2Proof.Laws.Opcode.shra (w : StdWord) : Sys2Proof.Laws.Opcode.Statement (.shra w) := ⟨by decide, rfl⟩
theorem Sys2Proof.Laws.Opcode.rotl (w : StdWord) : Sys2Proof.Laws.Opcode.Statement (.rotl w) := ⟨by decide, rfl⟩
theorem Sys2Proof.Laws.Opcode.fshf (w : StdWord) : Sys2Proof.Laws.Opcode.Statement (.fshf w) := ⟨by decide, rfl⟩
theorem Sys2Proof.Laws.Opcode.bfx (w : StdWord) : Sys2Proof.Laws.Opcode.Statement (.bfx w) := ⟨by decide, rfl⟩
theorem Sys2Proof.Laws.Opcode.bfi (w : StdWord) : Sys2Proof.Laws.Opcode.Statement (.bfi w) := ⟨by decide, rfl⟩
theorem Sys2Proof.Laws.Opcode.brev (w : StdWord) : Sys2Proof.Laws.Opcode.Statement (.brev w) := ⟨by decide, rfl⟩
theorem Sys2Proof.Laws.Opcode.popc (w : StdWord) : Sys2Proof.Laws.Opcode.Statement (.popc w) := ⟨by decide, rfl⟩
theorem Sys2Proof.Laws.Opcode.clz (w : StdWord) : Sys2Proof.Laws.Opcode.Statement (.clz w) := ⟨by decide, rfl⟩
theorem Sys2Proof.Laws.Opcode.ctz (w : StdWord) : Sys2Proof.Laws.Opcode.Statement (.ctz w) := ⟨by decide, rfl⟩
theorem Sys2Proof.Laws.Opcode.icmp (w : StdWord) : Sys2Proof.Laws.Opcode.Statement (.icmp w) := ⟨by decide, rfl⟩
theorem Sys2Proof.Laws.Opcode.sel (w : StdWord) : Sys2Proof.Laws.Opcode.Statement (.sel w) := ⟨by decide, rfl⟩
theorem Sys2Proof.Laws.Opcode.mov (w : StdWord) : Sys2Proof.Laws.Opcode.Statement (.mov w) := ⟨by decide, rfl⟩
theorem Sys2Proof.Laws.Opcode.movi (w : StdWord) : Sys2Proof.Laws.Opcode.Statement (.movi w) := ⟨by decide, rfl⟩
theorem Sys2Proof.Laws.Opcode.movq (w : StdWord) : Sys2Proof.Laws.Opcode.Statement (.movq w) := ⟨by decide, rfl⟩
theorem Sys2Proof.Laws.Opcode.movs (w : StdWord) : Sys2Proof.Laws.Opcode.Statement (.movs w) := ⟨by decide, rfl⟩
theorem Sys2Proof.Laws.Opcode.plut (w : StdWord) : Sys2Proof.Laws.Opcode.Statement (.plut w) := ⟨by decide, rfl⟩
theorem Sys2Proof.Laws.Opcode.pmov (w : StdWord) : Sys2Proof.Laws.Opcode.Statement (.pmov w) := ⟨by decide, rfl⟩
theorem Sys2Proof.Laws.Opcode.icvt (w : StdWord) : Sys2Proof.Laws.Opcode.Statement (.icvt w) := ⟨by decide, rfl⟩
theorem Sys2Proof.Laws.Opcode.retag (w : StdWord) : Sys2Proof.Laws.Opcode.Statement (.retag w) := ⟨by decide, rfl⟩
theorem Sys2Proof.Laws.Opcode.sread (w : StdWord) : Sys2Proof.Laws.Opcode.Statement (.sread w) := ⟨by decide, rfl⟩
theorem Sys2Proof.Laws.Opcode.swrite (w : StdWord) : Sys2Proof.Laws.Opcode.Statement (.swrite w) := ⟨by decide, rfl⟩
theorem Sys2Proof.Laws.Opcode.vrdi (w : StdWord) : Sys2Proof.Laws.Opcode.Statement (.vrdi w) := ⟨by decide, rfl⟩
theorem Sys2Proof.Laws.Opcode.vwri (w : StdWord) : Sys2Proof.Laws.Opcode.Statement (.vwri w) := ⟨by decide, rfl⟩
theorem Sys2Proof.Laws.Opcode.fadd (w : StdWord) : Sys2Proof.Laws.Opcode.Statement (.fadd w) := ⟨by decide, rfl⟩
theorem Sys2Proof.Laws.Opcode.fsub (w : StdWord) : Sys2Proof.Laws.Opcode.Statement (.fsub w) := ⟨by decide, rfl⟩
theorem Sys2Proof.Laws.Opcode.fmul (w : StdWord) : Sys2Proof.Laws.Opcode.Statement (.fmul w) := ⟨by decide, rfl⟩
theorem Sys2Proof.Laws.Opcode.ffma (w : StdWord) : Sys2Proof.Laws.Opcode.Statement (.ffma w) := ⟨by decide, rfl⟩
theorem Sys2Proof.Laws.Opcode.fmin (w : StdWord) : Sys2Proof.Laws.Opcode.Statement (.fmin w) := ⟨by decide, rfl⟩
theorem Sys2Proof.Laws.Opcode.fmax (w : StdWord) : Sys2Proof.Laws.Opcode.Statement (.fmax w) := ⟨by decide, rfl⟩
theorem Sys2Proof.Laws.Opcode.fcmp (w : StdWord) : Sys2Proof.Laws.Opcode.Statement (.fcmp w) := ⟨by decide, rfl⟩
theorem Sys2Proof.Laws.Opcode.fclass (w : StdWord) : Sys2Proof.Laws.Opcode.Statement (.fclass w) := ⟨by decide, rfl⟩
theorem Sys2Proof.Laws.Opcode.frnd (w : StdWord) : Sys2Proof.Laws.Opcode.Statement (.frnd w) := ⟨by decide, rfl⟩
theorem Sys2Proof.Laws.Opcode.fcvt (w : StdWord) : Sys2Proof.Laws.Opcode.Statement (.fcvt w) := ⟨by decide, rfl⟩
theorem Sys2Proof.Laws.Opcode.fscale (w : StdWord) : Sys2Proof.Laws.Opcode.Statement (.fscale w) := ⟨by decide, rfl⟩
theorem Sys2Proof.Laws.Opcode.frcp (w : StdWord) : Sys2Proof.Laws.Opcode.Statement (.frcp w) := ⟨by decide, rfl⟩
theorem Sys2Proof.Laws.Opcode.fsqrt (w : StdWord) : Sys2Proof.Laws.Opcode.Statement (.fsqrt w) := ⟨by decide, rfl⟩
theorem Sys2Proof.Laws.Opcode.frsq (w : StdWord) : Sys2Proof.Laws.Opcode.Statement (.frsq w) := ⟨by decide, rfl⟩
theorem Sys2Proof.Laws.Opcode.fex2 (w : StdWord) : Sys2Proof.Laws.Opcode.Statement (.fex2 w) := ⟨by decide, rfl⟩
theorem Sys2Proof.Laws.Opcode.flg2 (w : StdWord) : Sys2Proof.Laws.Opcode.Statement (.flg2 w) := ⟨by decide, rfl⟩
theorem Sys2Proof.Laws.Opcode.fsin (w : StdWord) : Sys2Proof.Laws.Opcode.Statement (.fsin w) := ⟨by decide, rfl⟩
theorem Sys2Proof.Laws.Opcode.fcos (w : StdWord) : Sys2Proof.Laws.Opcode.Statement (.fcos w) := ⟨by decide, rfl⟩
theorem Sys2Proof.Laws.Opcode.dadd (w : StdWord) : Sys2Proof.Laws.Opcode.Statement (.dadd w) := ⟨by decide, rfl⟩
theorem Sys2Proof.Laws.Opcode.dmul (w : StdWord) : Sys2Proof.Laws.Opcode.Statement (.dmul w) := ⟨by decide, rfl⟩
theorem Sys2Proof.Laws.Opcode.dfma (w : StdWord) : Sys2Proof.Laws.Opcode.Statement (.dfma w) := ⟨by decide, rfl⟩
theorem Sys2Proof.Laws.Opcode.dcmp (w : StdWord) : Sys2Proof.Laws.Opcode.Statement (.dcmp w) := ⟨by decide, rfl⟩
theorem Sys2Proof.Laws.Opcode.hadd2 (w : StdWord) : Sys2Proof.Laws.Opcode.Statement (.hadd2 w) := ⟨by decide, rfl⟩
theorem Sys2Proof.Laws.Opcode.hmul2 (w : StdWord) : Sys2Proof.Laws.Opcode.Statement (.hmul2 w) := ⟨by decide, rfl⟩
theorem Sys2Proof.Laws.Opcode.hfma2 (w : StdWord) : Sys2Proof.Laws.Opcode.Statement (.hfma2 w) := ⟨by decide, rfl⟩
theorem Sys2Proof.Laws.Opcode.dot4 (w : StdWord) : Sys2Proof.Laws.Opcode.Statement (.dot4 w) := ⟨by decide, rfl⟩
theorem Sys2Proof.Laws.Opcode.qpack (w : StdWord) : Sys2Proof.Laws.Opcode.Statement (.qpack w) := ⟨by decide, rfl⟩
theorem Sys2Proof.Laws.Opcode.qunpk (w : StdWord) : Sys2Proof.Laws.Opcode.Statement (.qunpk w) := ⟨by decide, rfl⟩
theorem Sys2Proof.Laws.Opcode.rand (w : StdWord) : Sys2Proof.Laws.Opcode.Statement (.rand w) := ⟨by decide, rfl⟩
theorem Sys2Proof.Laws.Opcode.fstat (w : StdWord) : Sys2Proof.Laws.Opcode.Statement (.fstat w) := ⟨by decide, rfl⟩
theorem Sys2Proof.Laws.Opcode.vote (w : StdWord) : Sys2Proof.Laws.Opcode.Statement (.vote w) := ⟨by decide, rfl⟩
theorem Sys2Proof.Laws.Opcode.ballot (w : StdWord) : Sys2Proof.Laws.Opcode.Statement (.ballot w) := ⟨by decide, rfl⟩
theorem Sys2Proof.Laws.Opcode.lmask (w : StdWord) : Sys2Proof.Laws.Opcode.Statement (.lmask w) := ⟨by decide, rfl⟩
theorem Sys2Proof.Laws.Opcode.bpick (w : StdWord) : Sys2Proof.Laws.Opcode.Statement (.bpick w) := ⟨by decide, rfl⟩
theorem Sys2Proof.Laws.Opcode.lget (w : StdWord) : Sys2Proof.Laws.Opcode.Statement (.lget w) := ⟨by decide, rfl⟩
theorem Sys2Proof.Laws.Opcode.xchg (w : StdWord) : Sys2Proof.Laws.Opcode.Statement (.xchg w) := ⟨by decide, rfl⟩
theorem Sys2Proof.Laws.Opcode.matchLanes (w : StdWord) : Sys2Proof.Laws.Opcode.Statement (.matchLanes w) := ⟨by decide, rfl⟩
theorem Sys2Proof.Laws.Opcode.redux (w : StdWord) : Sys2Proof.Laws.Opcode.Statement (.redux w) := ⟨by decide, rfl⟩
theorem Sys2Proof.Laws.Opcode.brx (w : StdWord) : Sys2Proof.Laws.Opcode.Statement (.brx w) := ⟨by decide, rfl⟩
theorem Sys2Proof.Laws.Opcode.calli (w : StdWord) : Sys2Proof.Laws.Opcode.Statement (.calli w) := ⟨by decide, rfl⟩
theorem Sys2Proof.Laws.Opcode.cohnew (w : StdWord) : Sys2Proof.Laws.Opcode.Statement (.cohnew w) := ⟨by decide, rfl⟩
theorem Sys2Proof.Laws.Opcode.cohfree (w : StdWord) : Sys2Proof.Laws.Opcode.Statement (.cohfree w) := ⟨by decide, rfl⟩
theorem Sys2Proof.Laws.Opcode.join (w : StdWord) : Sys2Proof.Laws.Opcode.Statement (.join w) := ⟨by decide, rfl⟩
theorem Sys2Proof.Laws.Opcode.leave (w : StdWord) : Sys2Proof.Laws.Opcode.Statement (.leave w) := ⟨by decide, rfl⟩
theorem Sys2Proof.Laws.Opcode.cbar (w : StdWord) : Sys2Proof.Laws.Opcode.Statement (.cbar w) := ⟨by decide, rfl⟩
theorem Sys2Proof.Laws.Opcode.tkwait (w : StdWord) : Sys2Proof.Laws.Opcode.Statement (.tkwait w) := ⟨by decide, rfl⟩
theorem Sys2Proof.Laws.Opcode.fltrd (w : StdWord) : Sys2Proof.Laws.Opcode.Statement (.fltrd w) := ⟨by decide, rfl⟩
theorem Sys2Proof.Laws.Opcode.sched (w : StdWord) : Sys2Proof.Laws.Opcode.Statement (.sched w) := ⟨by decide, rfl⟩
theorem Sys2Proof.Laws.Opcode.cancel (w : StdWord) : Sys2Proof.Laws.Opcode.Statement (.cancel w) := ⟨by decide, rfl⟩
theorem Sys2Proof.Laws.Opcode.evqry (w : StdWord) : Sys2Proof.Laws.Opcode.Statement (.evqry w) := ⟨by decide, rfl⟩
theorem Sys2Proof.Laws.Opcode.task (w : StdWord) : Sys2Proof.Laws.Opcode.Statement (.task w) := ⟨by decide, rfl⟩
theorem Sys2Proof.Laws.Opcode.cpy (w : StdWord) : Sys2Proof.Laws.Opcode.Statement (.cpy w) := ⟨by decide, rfl⟩
theorem Sys2Proof.Laws.Opcode.cpyg (w : StdWord) : Sys2Proof.Laws.Opcode.Statement (.cpyg w) := ⟨by decide, rfl⟩
theorem Sys2Proof.Laws.Opcode.cpys (w : StdWord) : Sys2Proof.Laws.Opcode.Statement (.cpys w) := ⟨by decide, rfl⟩
theorem Sys2Proof.Laws.Opcode.tagexp (w : StdWord) : Sys2Proof.Laws.Opcode.Statement (.tagexp w) := ⟨by decide, rfl⟩
theorem Sys2Proof.Laws.Opcode.twait (w : StdWord) : Sys2Proof.Laws.Opcode.Statement (.twait w) := ⟨by decide, rfl⟩
theorem Sys2Proof.Laws.Opcode.cwait (w : StdWord) : Sys2Proof.Laws.Opcode.Statement (.cwait w) := ⟨by decide, rfl⟩
theorem Sys2Proof.Laws.Opcode.twany (w : StdWord) : Sys2Proof.Laws.Opcode.Statement (.twany w) := ⟨by decide, rfl⟩
theorem Sys2Proof.Laws.Opcode.tfirst (w : StdWord) : Sys2Proof.Laws.Opcode.Statement (.tfirst w) := ⟨by decide, rfl⟩
theorem Sys2Proof.Laws.Opcode.eqfence (w : StdWord) : Sys2Proof.Laws.Opcode.Statement (.eqfence w) := ⟨by decide, rfl⟩
theorem Sys2Proof.Laws.Opcode.coll (w : StdWord) : Sys2Proof.Laws.Opcode.Statement (.coll w) := ⟨by decide, rfl⟩
theorem Sys2Proof.Laws.Opcode.tcfg (w : StdWord) : Sys2Proof.Laws.Opcode.Statement (.tcfg w) := ⟨by decide, rfl⟩
theorem Sys2Proof.Laws.Opcode.tzero (w : StdWord) : Sys2Proof.Laws.Opcode.Statement (.tzero w) := ⟨by decide, rfl⟩
theorem Sys2Proof.Laws.Opcode.wbld (w : StdWord) : Sys2Proof.Laws.Opcode.Statement (.wbld w) := ⟨by decide, rfl⟩
theorem Sys2Proof.Laws.Opcode.mma (w : StdWord) : Sys2Proof.Laws.Opcode.Statement (.mma w) := ⟨by decide, rfl⟩
theorem Sys2Proof.Laws.Opcode.mloop (w : StdWord) : Sys2Proof.Laws.Opcode.Statement (.mloop w) := ⟨by decide, rfl⟩
theorem Sys2Proof.Laws.Opcode.mfence (w : StdWord) : Sys2Proof.Laws.Opcode.Statement (.mfence w) := ⟨by decide, rfl⟩
theorem Sys2Proof.Laws.Opcode.mwait (w : StdWord) : Sys2Proof.Laws.Opcode.Statement (.mwait w) := ⟨by decide, rfl⟩
theorem Sys2Proof.Laws.Opcode.tld (w : StdWord) : Sys2Proof.Laws.Opcode.Statement (.tld w) := ⟨by decide, rfl⟩
theorem Sys2Proof.Laws.Opcode.tst (w : StdWord) : Sys2Proof.Laws.Opcode.Statement (.tst w) := ⟨by decide, rfl⟩
theorem Sys2Proof.Laws.Opcode.annq (w : StdWord) : Sys2Proof.Laws.Opcode.Statement (.annq w) := ⟨by decide, rfl⟩
theorem Sys2Proof.Laws.Opcode.ld (w : MemWord) : Sys2Proof.Laws.Opcode.Statement (.ld w) := ⟨by decide, rfl, rfl⟩
theorem Sys2Proof.Laws.Opcode.st (w : MemWord) : Sys2Proof.Laws.Opcode.Statement (.st w) := ⟨by decide, rfl, rfl⟩
theorem Sys2Proof.Laws.Opcode.lds (w : MemWord) : Sys2Proof.Laws.Opcode.Statement (.lds w) := ⟨by decide, rfl, rfl⟩
theorem Sys2Proof.Laws.Opcode.sts (w : MemWord) : Sys2Proof.Laws.Opcode.Statement (.sts w) := ⟨by decide, rfl, rfl⟩
theorem Sys2Proof.Laws.Opcode.ldc (w : MemWord) : Sys2Proof.Laws.Opcode.Statement (.ldc w) := ⟨by decide, rfl, rfl⟩
theorem Sys2Proof.Laws.Opcode.pref (w : MemWord) : Sys2Proof.Laws.Opcode.Statement (.pref w) := ⟨by decide, rfl, rfl⟩
theorem Sys2Proof.Laws.Opcode.fence (w : MemWord) : Sys2Proof.Laws.Opcode.Statement (.fence w) := ⟨by decide, rfl, rfl⟩
theorem Sys2Proof.Laws.Opcode.hint (w : MemWord) : Sys2Proof.Laws.Opcode.Statement (.hint w) := ⟨by decide, rfl, rfl⟩
theorem Sys2Proof.Laws.Opcode.stepadv (w : MemWord) : Sys2Proof.Laws.Opcode.Statement (.stepadv w) := ⟨by decide, rfl, rfl⟩
theorem Sys2Proof.Laws.Opcode.ordadd (w : MemWord) : Sys2Proof.Laws.Opcode.Statement (.ordadd w) := ⟨by decide, rfl, rfl⟩
theorem Sys2Proof.Laws.Opcode.oclose (w : MemWord) : Sys2Proof.Laws.Opcode.Statement (.oclose w) := ⟨by decide, rfl, rfl⟩
theorem Sys2Proof.Laws.Opcode.sop (w : MemWord) : Sys2Proof.Laws.Opcode.Statement (.sop w) := ⟨by decide, rfl, rfl⟩
theorem Sys2Proof.Laws.Opcode.fatomAdd (w : MemWord) : Sys2Proof.Laws.Opcode.Statement (.fatomAdd w) := ⟨by decide, rfl, rfl⟩
theorem Sys2Proof.Laws.Opcode.fatomMin (w : MemWord) : Sys2Proof.Laws.Opcode.Statement (.fatomMin w) := ⟨by decide, rfl, rfl⟩
theorem Sys2Proof.Laws.Opcode.fatomMax (w : MemWord) : Sys2Proof.Laws.Opcode.Statement (.fatomMax w) := ⟨by decide, rfl, rfl⟩
theorem Sys2Proof.Laws.Opcode.segpub (w : MemWord) : Sys2Proof.Laws.Opcode.Statement (.segpub w) := ⟨by decide, rfl, rfl⟩
theorem Sys2Proof.Laws.Opcode.segatt (w : MemWord) : Sys2Proof.Laws.Opcode.Statement (.segatt w) := ⟨by decide, rfl, rfl⟩
theorem Sys2Proof.Laws.Opcode.segrel (w : MemWord) : Sys2Proof.Laws.Opcode.Statement (.segrel w) := ⟨by decide, rfl, rfl⟩
theorem Sys2Proof.Laws.Opcode.segqry (w : MemWord) : Sys2Proof.Laws.Opcode.Statement (.segqry w) := ⟨by decide, rfl, rfl⟩
theorem Sys2Proof.Laws.Opcode.qpush (w : MemWord) : Sys2Proof.Laws.Opcode.Statement (.qpush w) := ⟨by decide, rfl, rfl⟩
theorem Sys2Proof.Laws.Opcode.qpop (w : MemWord) : Sys2Proof.Laws.Opcode.Statement (.qpop w) := ⟨by decide, rfl, rfl⟩
theorem Sys2Proof.Laws.Opcode.qpeek (w : MemWord) : Sys2Proof.Laws.Opcode.Statement (.qpeek w) := ⟨by decide, rfl, rfl⟩
theorem Sys2Proof.Laws.Opcode.atomsAdd (w : MemWord) : Sys2Proof.Laws.Opcode.Statement (.atomsAdd w) := ⟨by decide, rfl, rfl⟩
theorem Sys2Proof.Laws.Opcode.atomsSmin (w : MemWord) : Sys2Proof.Laws.Opcode.Statement (.atomsSmin w) := ⟨by decide, rfl, rfl⟩
theorem Sys2Proof.Laws.Opcode.atomsSmax (w : MemWord) : Sys2Proof.Laws.Opcode.Statement (.atomsSmax w) := ⟨by decide, rfl, rfl⟩
theorem Sys2Proof.Laws.Opcode.atomsUmin (w : MemWord) : Sys2Proof.Laws.Opcode.Statement (.atomsUmin w) := ⟨by decide, rfl, rfl⟩
theorem Sys2Proof.Laws.Opcode.atomsUmax (w : MemWord) : Sys2Proof.Laws.Opcode.Statement (.atomsUmax w) := ⟨by decide, rfl, rfl⟩
theorem Sys2Proof.Laws.Opcode.atomsAnd (w : MemWord) : Sys2Proof.Laws.Opcode.Statement (.atomsAnd w) := ⟨by decide, rfl, rfl⟩
theorem Sys2Proof.Laws.Opcode.atomsOr (w : MemWord) : Sys2Proof.Laws.Opcode.Statement (.atomsOr w) := ⟨by decide, rfl, rfl⟩
theorem Sys2Proof.Laws.Opcode.atomsXor (w : MemWord) : Sys2Proof.Laws.Opcode.Statement (.atomsXor w) := ⟨by decide, rfl, rfl⟩
theorem Sys2Proof.Laws.Opcode.atomsExch (w : MemWord) : Sys2Proof.Laws.Opcode.Statement (.atomsExch w) := ⟨by decide, rfl, rfl⟩
theorem Sys2Proof.Laws.Opcode.atomsCas (w : MemWord) : Sys2Proof.Laws.Opcode.Statement (.atomsCas w) := ⟨by decide, rfl, rfl⟩
theorem Sys2Proof.Laws.Opcode.atomsIncw (w : MemWord) : Sys2Proof.Laws.Opcode.Statement (.atomsIncw w) := ⟨by decide, rfl, rfl⟩
theorem Sys2Proof.Laws.Opcode.atomsDecw (w : MemWord) : Sys2Proof.Laws.Opcode.Statement (.atomsDecw w) := ⟨by decide, rfl, rfl⟩
theorem Sys2Proof.Laws.Opcode.atomAdd (w : MemWord) : Sys2Proof.Laws.Opcode.Statement (.atomAdd w) := ⟨by decide, rfl, rfl⟩
theorem Sys2Proof.Laws.Opcode.atomSmin (w : MemWord) : Sys2Proof.Laws.Opcode.Statement (.atomSmin w) := ⟨by decide, rfl, rfl⟩
theorem Sys2Proof.Laws.Opcode.atomSmax (w : MemWord) : Sys2Proof.Laws.Opcode.Statement (.atomSmax w) := ⟨by decide, rfl, rfl⟩
theorem Sys2Proof.Laws.Opcode.atomUmin (w : MemWord) : Sys2Proof.Laws.Opcode.Statement (.atomUmin w) := ⟨by decide, rfl, rfl⟩
theorem Sys2Proof.Laws.Opcode.atomUmax (w : MemWord) : Sys2Proof.Laws.Opcode.Statement (.atomUmax w) := ⟨by decide, rfl, rfl⟩
theorem Sys2Proof.Laws.Opcode.atomAnd (w : MemWord) : Sys2Proof.Laws.Opcode.Statement (.atomAnd w) := ⟨by decide, rfl, rfl⟩
theorem Sys2Proof.Laws.Opcode.atomOr (w : MemWord) : Sys2Proof.Laws.Opcode.Statement (.atomOr w) := ⟨by decide, rfl, rfl⟩
theorem Sys2Proof.Laws.Opcode.atomXor (w : MemWord) : Sys2Proof.Laws.Opcode.Statement (.atomXor w) := ⟨by decide, rfl, rfl⟩
theorem Sys2Proof.Laws.Opcode.atomExch (w : MemWord) : Sys2Proof.Laws.Opcode.Statement (.atomExch w) := ⟨by decide, rfl, rfl⟩
theorem Sys2Proof.Laws.Opcode.atomCas (w : MemWord) : Sys2Proof.Laws.Opcode.Statement (.atomCas w) := ⟨by decide, rfl, rfl⟩
theorem Sys2Proof.Laws.Opcode.atomIncw (w : MemWord) : Sys2Proof.Laws.Opcode.Statement (.atomIncw w) := ⟨by decide, rfl, rfl⟩
theorem Sys2Proof.Laws.Opcode.atomDecw (w : MemWord) : Sys2Proof.Laws.Opcode.Statement (.atomDecw w) := ⟨by decide, rfl, rfl⟩
theorem Sys2Proof.Laws.Opcode.bra (w : CtlWord) : Sys2Proof.Laws.Opcode.Statement (.bra w) := ⟨by decide, rfl, rfl, rfl⟩
theorem Sys2Proof.Laws.Opcode.brc (w : CtlWord) : Sys2Proof.Laws.Opcode.Statement (.brc w) := ⟨by decide, rfl, rfl, rfl⟩
theorem Sys2Proof.Laws.Opcode.call (w : CtlWord) : Sys2Proof.Laws.Opcode.Statement (.call w) := ⟨by decide, rfl, rfl, rfl⟩
theorem Sys2Proof.Laws.Opcode.ret (w : CtlWord) : Sys2Proof.Laws.Opcode.Statement (.ret w) := ⟨by decide, rfl, rfl, rfl⟩
theorem Sys2Proof.Laws.Opcode.exit (w : CtlWord) : Sys2Proof.Laws.Opcode.Statement (.exit w) := ⟨by decide, rfl, rfl, rfl⟩
theorem Sys2Proof.Laws.Opcode.regang (w : CtlWord) : Sys2Proof.Laws.Opcode.Statement (.regang w) := ⟨by decide, rfl, rfl, rfl⟩
theorem Sys2Proof.Laws.Opcode.yield (w : CtlWord) : Sys2Proof.Laws.Opcode.Statement (.yield w) := ⟨by decide, rfl, rfl, rfl⟩
theorem Sys2Proof.Laws.Opcode.nop (w : CtlWord) : Sys2Proof.Laws.Opcode.Statement (.nop w) := ⟨by decide, rfl, rfl, rfl⟩
theorem Sys2Proof.Laws.Opcode.bar (w : CtlWord) : Sys2Proof.Laws.Opcode.Statement (.bar w) := ⟨by decide, rfl, rfl, rfl⟩
theorem Sys2Proof.Laws.Opcode.arrive (w : CtlWord) : Sys2Proof.Laws.Opcode.Statement (.arrive w) := ⟨by decide, rfl, rfl, rfl⟩
theorem Sys2Proof.Laws.Opcode.waitb (w : CtlWord) : Sys2Proof.Laws.Opcode.Statement (.waitb w) := ⟨by decide, rfl, rfl, rfl⟩
theorem Sys2Proof.Laws.Opcode.tkpass (w : CtlWord) : Sys2Proof.Laws.Opcode.Statement (.tkpass w) := ⟨by decide, rfl, rfl, rfl⟩
theorem Sys2Proof.Laws.Opcode.dmerge (w : CtlWord) : Sys2Proof.Laws.Opcode.Statement (.dmerge w) := ⟨by decide, rfl, rfl, rfl⟩
theorem Sys2Proof.Laws.Opcode.tfence (w : CtlWord) : Sys2Proof.Laws.Opcode.Statement (.tfence w) := ⟨by decide, rfl, rfl, rfl⟩
theorem Sys2Proof.Laws.Opcode.trap (w : CtlWord) : Sys2Proof.Laws.Opcode.Statement (.trap w) := ⟨by decide, rfl, rfl, rfl⟩
theorem Sys2Proof.Laws.Opcode.bkpt (w : CtlWord) : Sys2Proof.Laws.Opcode.Statement (.bkpt w) := ⟨by decide, rfl, rfl, rfl⟩
theorem Sys2Proof.Laws.Opcode.rtt (w : CtlWord) : Sys2Proof.Laws.Opcode.Statement (.rtt w) := ⟨by decide, rfl, rfl, rfl⟩
theorem Sys2Proof.Laws.Opcode.reset : Sys2Proof.Laws.Opcode.Statement (.reset) := rfl
theorem Sys2Proof.Laws.Opcode.powerLimitThrottle : Sys2Proof.Laws.Opcode.Statement (.powerLimitThrottle) := rfl
theorem Sys2Proof.Laws.Opcode.clockRaise : Sys2Proof.Laws.Opcode.Statement (.clockRaise) := rfl
theorem Sys2Proof.Laws.Opcode.thermalStop : Sys2Proof.Laws.Opcode.Statement (.thermalStop) := rfl
theorem Sys2Proof.Laws.Opcode.thermalResume : Sys2Proof.Laws.Opcode.Statement (.thermalResume) := rfl
theorem Sys2Proof.Laws.Opcode.negotiate : Sys2Proof.Laws.Opcode.Statement (.negotiate) := rfl
theorem Sys2Proof.Laws.Opcode.readManifest : Sys2Proof.Laws.Opcode.Statement (.readManifest) := rfl
theorem Sys2Proof.Laws.Opcode.compareManifest : Sys2Proof.Laws.Opcode.Statement (.compareManifest) := rfl
theorem Sys2Proof.Laws.Opcode.attest : Sys2Proof.Laws.Opcode.Statement (.attest) := rfl
theorem Sys2Proof.Laws.Opcode.createContext : Sys2Proof.Laws.Opcode.Statement (.createContext) := rfl
theorem Sys2Proof.Laws.Opcode.destroyContext : Sys2Proof.Laws.Opcode.Statement (.destroyContext) := rfl
theorem Sys2Proof.Laws.Opcode.ptUpdate : Sys2Proof.Laws.Opcode.Statement (.ptUpdate) := rfl
theorem Sys2Proof.Laws.Opcode.ptInvalidate : Sys2Proof.Laws.Opcode.Statement (.ptInvalidate) := rfl
theorem Sys2Proof.Laws.Opcode.readCounters : Sys2Proof.Laws.Opcode.Statement (.readCounters) := rfl
theorem Sys2Proof.Laws.Opcode.discardSave : Sys2Proof.Laws.Opcode.Statement (.discardSave) := rfl
theorem Sys2Proof.Laws.Opcode.createQueue : Sys2Proof.Laws.Opcode.Statement (.createQueue) := rfl
theorem Sys2Proof.Laws.Opcode.destroyQueue : Sys2Proof.Laws.Opcode.Statement (.destroyQueue) := rfl
theorem Sys2Proof.Laws.Opcode.resumeQueue : Sys2Proof.Laws.Opcode.Statement (.resumeQueue) := rfl
theorem Sys2Proof.Laws.Opcode.setShared : Sys2Proof.Laws.Opcode.Statement (.setShared) := rfl
theorem Sys2Proof.Laws.Opcode.setLowwater : Sys2Proof.Laws.Opcode.Statement (.setLowwater) := rfl
theorem Sys2Proof.Laws.Opcode.windowAdd : Sys2Proof.Laws.Opcode.Statement (.windowAdd) := rfl
theorem Sys2Proof.Laws.Opcode.windowRemove : Sys2Proof.Laws.Opcode.Statement (.windowRemove) := rfl
theorem Sys2Proof.Laws.Opcode.suspendLaunch : Sys2Proof.Laws.Opcode.Statement (.suspendLaunch) := rfl
end

