-- ==== Sys2Proof/Laws/State.lean ====
section
/-! SUPPORT. What the updates of one part of the state leave of its other fields, one lemma per field and update, and what they make of
the part they update. -/

set_option Elab.async false

namespace Sys2Proof.Machine

variable (s : State)

/-! ### State.modifyUnit -/

@[simp] theorem modifyUnit_clock (uid : Nat) (f : WorkUnit → WorkUnit) : (s.modifyUnit uid f).clock = s.clock := rfl
@[simp] theorem modifyUnit_agenda (uid : Nat) (f : WorkUnit → WorkUnit) : (s.modifyUnit uid f).agenda = s.agenda := rfl
@[simp] theorem modifyUnit_cur (uid : Nat) (f : WorkUnit → WorkUnit) : (s.modifyUnit uid f).cur = s.cur := rfl
@[simp] theorem modifyUnit_curTack (uid : Nat) (f : WorkUnit → WorkUnit) : (s.modifyUnit uid f).curTack = s.curTack := rfl
@[simp] theorem modifyUnit_freeIdx (uid : Nat) (f : WorkUnit → WorkUnit) : (s.modifyUnit uid f).freeIdx = s.freeIdx := rfl
@[simp] theorem modifyUnit_nextId (uid : Nat) (f : WorkUnit → WorkUnit) : (s.modifyUnit uid f).nextId = s.nextId := rfl
@[simp] theorem modifyUnit_booted (uid : Nat) (f : WorkUnit → WorkUnit) : (s.modifyUnit uid f).booted = s.booted := rfl
@[simp] theorem modifyUnit_bootFailed (uid : Nat) (f : WorkUnit → WorkUnit) : (s.modifyUnit uid f).bootFailed = s.bootFailed := rfl
@[simp] theorem modifyUnit_portsUp (uid : Nat) (f : WorkUnit → WorkUnit) : (s.modifyUnit uid f).portsUp = s.portsUp := rfl
@[simp] theorem modifyUnit_chip (uid : Nat) (f : WorkUnit → WorkUnit) : (s.modifyUnit uid f).chip = s.chip := rfl
@[simp] theorem modifyUnit_negotiated (uid : Nat) (f : WorkUnit → WorkUnit) : (s.modifyUnit uid f).negotiated = s.negotiated := rfl
@[simp] theorem modifyUnit_features (uid : Nat) (f : WorkUnit → WorkUnit) : (s.modifyUnit uid f).features = s.features := rfl
@[simp] theorem modifyUnit_n (uid : Nat) (f : WorkUnit → WorkUnit) : (s.modifyUnit uid f).n = s.n := rfl
@[simp] theorem modifyUnit_place (uid : Nat) (f : WorkUnit → WorkUnit) : (s.modifyUnit uid f).place = s.place := rfl
@[simp] theorem modifyUnit_fpmode (uid : Nat) (f : WorkUnit → WorkUnit) : (s.modifyUnit uid f).fpmode = s.fpmode := rfl
@[simp] theorem modifyUnit_seeds (uid : Nat) (f : WorkUnit → WorkUnit) : (s.modifyUnit uid f).seeds = s.seeds := rfl
@[simp] theorem modifyUnit_flash (uid : Nat) (f : WorkUnit → WorkUnit) : (s.modifyUnit uid f).flash = s.flash := rfl
@[simp] theorem modifyUnit_rootDigest (uid : Nat) (f : WorkUnit → WorkUnit) : (s.modifyUnit uid f).rootDigest = s.rootDigest := rfl
@[simp] theorem modifyUnit_rootKey (uid : Nat) (f : WorkUnit → WorkUnit) : (s.modifyUnit uid f).rootKey = s.rootKey := rfl
@[simp] theorem modifyUnit_minSvn (uid : Nat) (f : WorkUnit → WorkUnit) : (s.modifyUnit uid f).minSvn = s.minSvn := rfl
@[simp] theorem modifyUnit_resets (uid : Nat) (f : WorkUnit → WorkUnit) : (s.modifyUnit uid f).resets = s.resets := rfl
@[simp] theorem modifyUnit_idKey (uid : Nat) (f : WorkUnit → WorkUnit) : (s.modifyUnit uid f).idKey = s.idKey := rfl
@[simp] theorem modifyUnit_idCert (uid : Nat) (f : WorkUnit → WorkUnit) : (s.modifyUnit uid f).idCert = s.idCert := rfl
@[simp] theorem modifyUnit_inService (uid : Nat) (f : WorkUnit → WorkUnit) : (s.modifyUnit uid f).inService = s.inService := rfl
@[simp] theorem modifyUnit_clockMHz (uid : Nat) (f : WorkUnit → WorkUnit) : (s.modifyUnit uid f).clockMHz = s.clockMHz := rfl
@[simp] theorem modifyUnit_power (uid : Nat) (f : WorkUnit → WorkUnit) : (s.modifyUnit uid f).power = s.power := rfl
@[simp] theorem modifyUnit_temps (uid : Nat) (f : WorkUnit → WorkUnit) : (s.modifyUnit uid f).temps = s.temps := rfl
@[simp] theorem modifyUnit_limitClearSince (uid : Nat) (f : WorkUnit → WorkUnit) : (s.modifyUnit uid f).limitClearSince = s.limitClearSince := rfl
@[simp] theorem modifyUnit_thermalStopped (uid : Nat) (f : WorkUnit → WorkUnit) : (s.modifyUnit uid f).thermalStopped = s.thermalStopped := rfl
@[simp] theorem modifyUnit_mem (uid : Nat) (f : WorkUnit → WorkUnit) : (s.modifyUnit uid f).mem = s.mem := rfl
@[simp] theorem modifyUnit_badSectors (uid : Nat) (f : WorkUnit → WorkUnit) : (s.modifyUnit uid f).badSectors = s.badSectors := rfl
@[simp] theorem modifyUnit_corrected (uid : Nat) (f : WorkUnit → WorkUnit) : (s.modifyUnit uid f).corrected = s.corrected := rfl
@[simp] theorem modifyUnit_uncorrected (uid : Nat) (f : WorkUnit → WorkUnit) : (s.modifyUnit uid f).uncorrected = s.uncorrected := rfl
@[simp] theorem modifyUnit_chips (uid : Nat) (f : WorkUnit → WorkUnit) : (s.modifyUnit uid f).chips = s.chips := rfl
@[simp] theorem modifyUnit_hints (uid : Nat) (f : WorkUnit → WorkUnit) : (s.modifyUnit uid f).hints = s.hints := rfl
@[simp] theorem modifyUnit_dies (uid : Nat) (f : WorkUnit → WorkUnit) : (s.modifyUnit uid f).dies = s.dies := rfl
@[simp] theorem modifyUnit_contexts (uid : Nat) (f : WorkUnit → WorkUnit) : (s.modifyUnit uid f).contexts = s.contexts := rfl
@[simp] theorem modifyUnit_cores (uid : Nat) (f : WorkUnit → WorkUnit) : (s.modifyUnit uid f).cores = s.cores := rfl
@[simp] theorem modifyUnit_launches (uid : Nat) (f : WorkUnit → WorkUnit) : (s.modifyUnit uid f).launches = s.launches := rfl
@[simp] theorem modifyUnit_segments (uid : Nat) (f : WorkUnit → WorkUnit) : (s.modifyUnit uid f).segments = s.segments := rfl
@[simp] theorem modifyUnit_requests (uid : Nat) (f : WorkUnit → WorkUnit) : (s.modifyUnit uid f).requests = s.requests := rfl
@[simp] theorem modifyUnit_controllers (uid : Nat) (f : WorkUnit → WorkUnit) : (s.modifyUnit uid f).controllers = s.controllers := rfl
@[simp] theorem modifyUnit_responses (uid : Nat) (f : WorkUnit → WorkUnit) : (s.modifyUnit uid f).responses = s.responses := rfl
@[simp] theorem modifyUnit_links (uid : Nat) (f : WorkUnit → WorkUnit) : (s.modifyUnit uid f).links = s.links := rfl
@[simp] theorem modifyUnit_queries (uid : Nat) (f : WorkUnit → WorkUnit) : (s.modifyUnit uid f).queries = s.queries := rfl
@[simp] theorem modifyUnit_collectives (uid : Nat) (f : WorkUnit → WorkUnit) : (s.modifyUnit uid f).collectives = s.collectives := rfl
@[simp] theorem modifyUnit_early (uid : Nat) (f : WorkUnit → WorkUnit) : (s.modifyUnit uid f).early = s.early := rfl
@[simp] theorem modifyUnit_messages (uid : Nat) (f : WorkUnit → WorkUnit) : (s.modifyUnit uid f).messages = s.messages := rfl
@[simp] theorem modifyUnit_ringFrees (uid : Nat) (f : WorkUnit → WorkUnit) : (s.modifyUnit uid f).ringFrees = s.ringFrees := rfl
@[simp] theorem modifyUnit_via (uid : Nat) (f : WorkUnit → WorkUnit) : (s.modifyUnit uid f).via = s.via := rfl
@[simp] theorem modifyUnit_usedFrames (uid : Nat) (f : WorkUnit → WorkUnit) : (s.modifyUnit uid f).usedFrames = s.usedFrames := rfl
@[simp] theorem modifyUnit_runWindows (uid : Nat) (f : WorkUnit → WorkUnit) : (s.modifyUnit uid f).runWindows = s.runWindows := rfl
@[simp] theorem modifyUnit_runEnds (uid : Nat) (f : WorkUnit → WorkUnit) : (s.modifyUnit uid f).runEnds = s.runEnds := rfl

/-! ### State.modifyLaunch -/

@[simp] theorem modifyLaunch_clock (d n : Nat) (f : Launch → Launch) : (s.modifyLaunch d n f).clock = s.clock := rfl
@[simp] theorem modifyLaunch_agenda (d n : Nat) (f : Launch → Launch) : (s.modifyLaunch d n f).agenda = s.agenda := rfl
@[simp] theorem modifyLaunch_cur (d n : Nat) (f : Launch → Launch) : (s.modifyLaunch d n f).cur = s.cur := rfl
@[simp] theorem modifyLaunch_curTack (d n : Nat) (f : Launch → Launch) : (s.modifyLaunch d n f).curTack = s.curTack := rfl
@[simp] theorem modifyLaunch_freeIdx (d n : Nat) (f : Launch → Launch) : (s.modifyLaunch d n f).freeIdx = s.freeIdx := rfl
@[simp] theorem modifyLaunch_nextId (d n : Nat) (f : Launch → Launch) : (s.modifyLaunch d n f).nextId = s.nextId := rfl
@[simp] theorem modifyLaunch_booted (d n : Nat) (f : Launch → Launch) : (s.modifyLaunch d n f).booted = s.booted := rfl
@[simp] theorem modifyLaunch_bootFailed (d n : Nat) (f : Launch → Launch) : (s.modifyLaunch d n f).bootFailed = s.bootFailed := rfl
@[simp] theorem modifyLaunch_portsUp (d n : Nat) (f : Launch → Launch) : (s.modifyLaunch d n f).portsUp = s.portsUp := rfl
@[simp] theorem modifyLaunch_chip (d n : Nat) (f : Launch → Launch) : (s.modifyLaunch d n f).chip = s.chip := rfl
@[simp] theorem modifyLaunch_negotiated (d n : Nat) (f : Launch → Launch) : (s.modifyLaunch d n f).negotiated = s.negotiated := rfl
@[simp] theorem modifyLaunch_features (d n : Nat) (f : Launch → Launch) : (s.modifyLaunch d n f).features = s.features := rfl
@[simp] theorem modifyLaunch_n (d n : Nat) (f : Launch → Launch) : (s.modifyLaunch d n f).n = s.n := rfl
@[simp] theorem modifyLaunch_place (d n : Nat) (f : Launch → Launch) : (s.modifyLaunch d n f).place = s.place := rfl
@[simp] theorem modifyLaunch_fpmode (d n : Nat) (f : Launch → Launch) : (s.modifyLaunch d n f).fpmode = s.fpmode := rfl
@[simp] theorem modifyLaunch_seeds (d n : Nat) (f : Launch → Launch) : (s.modifyLaunch d n f).seeds = s.seeds := rfl
@[simp] theorem modifyLaunch_flash (d n : Nat) (f : Launch → Launch) : (s.modifyLaunch d n f).flash = s.flash := rfl
@[simp] theorem modifyLaunch_rootDigest (d n : Nat) (f : Launch → Launch) : (s.modifyLaunch d n f).rootDigest = s.rootDigest := rfl
@[simp] theorem modifyLaunch_rootKey (d n : Nat) (f : Launch → Launch) : (s.modifyLaunch d n f).rootKey = s.rootKey := rfl
@[simp] theorem modifyLaunch_minSvn (d n : Nat) (f : Launch → Launch) : (s.modifyLaunch d n f).minSvn = s.minSvn := rfl
@[simp] theorem modifyLaunch_resets (d n : Nat) (f : Launch → Launch) : (s.modifyLaunch d n f).resets = s.resets := rfl
@[simp] theorem modifyLaunch_idKey (d n : Nat) (f : Launch → Launch) : (s.modifyLaunch d n f).idKey = s.idKey := rfl
@[simp] theorem modifyLaunch_idCert (d n : Nat) (f : Launch → Launch) : (s.modifyLaunch d n f).idCert = s.idCert := rfl
@[simp] theorem modifyLaunch_inService (d n : Nat) (f : Launch → Launch) : (s.modifyLaunch d n f).inService = s.inService := rfl
@[simp] theorem modifyLaunch_clockMHz (d n : Nat) (f : Launch → Launch) : (s.modifyLaunch d n f).clockMHz = s.clockMHz := rfl
@[simp] theorem modifyLaunch_power (d n : Nat) (f : Launch → Launch) : (s.modifyLaunch d n f).power = s.power := rfl
@[simp] theorem modifyLaunch_temps (d n : Nat) (f : Launch → Launch) : (s.modifyLaunch d n f).temps = s.temps := rfl
@[simp] theorem modifyLaunch_limitClearSince (d n : Nat) (f : Launch → Launch) : (s.modifyLaunch d n f).limitClearSince = s.limitClearSince := rfl
@[simp] theorem modifyLaunch_thermalStopped (d n : Nat) (f : Launch → Launch) : (s.modifyLaunch d n f).thermalStopped = s.thermalStopped := rfl
@[simp] theorem modifyLaunch_mem (d n : Nat) (f : Launch → Launch) : (s.modifyLaunch d n f).mem = s.mem := rfl
@[simp] theorem modifyLaunch_badSectors (d n : Nat) (f : Launch → Launch) : (s.modifyLaunch d n f).badSectors = s.badSectors := rfl
@[simp] theorem modifyLaunch_corrected (d n : Nat) (f : Launch → Launch) : (s.modifyLaunch d n f).corrected = s.corrected := rfl
@[simp] theorem modifyLaunch_uncorrected (d n : Nat) (f : Launch → Launch) : (s.modifyLaunch d n f).uncorrected = s.uncorrected := rfl
@[simp] theorem modifyLaunch_chips (d n : Nat) (f : Launch → Launch) : (s.modifyLaunch d n f).chips = s.chips := rfl
@[simp] theorem modifyLaunch_hints (d n : Nat) (f : Launch → Launch) : (s.modifyLaunch d n f).hints = s.hints := rfl
@[simp] theorem modifyLaunch_dies (d n : Nat) (f : Launch → Launch) : (s.modifyLaunch d n f).dies = s.dies := rfl
@[simp] theorem modifyLaunch_contexts (d n : Nat) (f : Launch → Launch) : (s.modifyLaunch d n f).contexts = s.contexts := rfl
@[simp] theorem modifyLaunch_cores (d n : Nat) (f : Launch → Launch) : (s.modifyLaunch d n f).cores = s.cores := rfl
@[simp] theorem modifyLaunch_units (d n : Nat) (f : Launch → Launch) : (s.modifyLaunch d n f).units = s.units := rfl
@[simp] theorem modifyLaunch_segments (d n : Nat) (f : Launch → Launch) : (s.modifyLaunch d n f).segments = s.segments := rfl
@[simp] theorem modifyLaunch_requests (d n : Nat) (f : Launch → Launch) : (s.modifyLaunch d n f).requests = s.requests := rfl
@[simp] theorem modifyLaunch_controllers (d n : Nat) (f : Launch → Launch) : (s.modifyLaunch d n f).controllers = s.controllers := rfl
@[simp] theorem modifyLaunch_responses (d n : Nat) (f : Launch → Launch) : (s.modifyLaunch d n f).responses = s.responses := rfl
@[simp] theorem modifyLaunch_links (d n : Nat) (f : Launch → Launch) : (s.modifyLaunch d n f).links = s.links := rfl
@[simp] theorem modifyLaunch_queries (d n : Nat) (f : Launch → Launch) : (s.modifyLaunch d n f).queries = s.queries := rfl
@[simp] theorem modifyLaunch_collectives (d n : Nat) (f : Launch → Launch) : (s.modifyLaunch d n f).collectives = s.collectives := rfl
@[simp] theorem modifyLaunch_early (d n : Nat) (f : Launch → Launch) : (s.modifyLaunch d n f).early = s.early := rfl
@[simp] theorem modifyLaunch_messages (d n : Nat) (f : Launch → Launch) : (s.modifyLaunch d n f).messages = s.messages := rfl
@[simp] theorem modifyLaunch_ringFrees (d n : Nat) (f : Launch → Launch) : (s.modifyLaunch d n f).ringFrees = s.ringFrees := rfl
@[simp] theorem modifyLaunch_via (d n : Nat) (f : Launch → Launch) : (s.modifyLaunch d n f).via = s.via := rfl
@[simp] theorem modifyLaunch_usedFrames (d n : Nat) (f : Launch → Launch) : (s.modifyLaunch d n f).usedFrames = s.usedFrames := rfl
@[simp] theorem modifyLaunch_runWindows (d n : Nat) (f : Launch → Launch) : (s.modifyLaunch d n f).runWindows = s.runWindows := rfl
@[simp] theorem modifyLaunch_runEnds (d n : Nat) (f : Launch → Launch) : (s.modifyLaunch d n f).runEnds = s.runEnds := rfl

/-! ### State.modifyDie -/

@[simp] theorem modifyDie_clock (d : Nat) (f : Die → Die) : (s.modifyDie d f).clock = s.clock := rfl
@[simp] theorem modifyDie_agenda (d : Nat) (f : Die → Die) : (s.modifyDie d f).agenda = s.agenda := rfl
@[simp] theorem modifyDie_cur (d : Nat) (f : Die → Die) : (s.modifyDie d f).cur = s.cur := rfl
@[simp] theorem modifyDie_curTack (d : Nat) (f : Die → Die) : (s.modifyDie d f).curTack = s.curTack := rfl
@[simp] theorem modifyDie_freeIdx (d : Nat) (f : Die → Die) : (s.modifyDie d f).freeIdx = s.freeIdx := rfl
@[simp] theorem modifyDie_nextId (d : Nat) (f : Die → Die) : (s.modifyDie d f).nextId = s.nextId := rfl
@[simp] theorem modifyDie_booted (d : Nat) (f : Die → Die) : (s.modifyDie d f).booted = s.booted := rfl
@[simp] theorem modifyDie_bootFailed (d : Nat) (f : Die → Die) : (s.modifyDie d f).bootFailed = s.bootFailed := rfl
@[simp] theorem modifyDie_portsUp (d : Nat) (f : Die → Die) : (s.modifyDie d f).portsUp = s.portsUp := rfl
@[simp] theorem modifyDie_chip (d : Nat) (f : Die → Die) : (s.modifyDie d f).chip = s.chip := rfl
@[simp] theorem modifyDie_negotiated (d : Nat) (f : Die → Die) : (s.modifyDie d f).negotiated = s.negotiated := rfl
@[simp] theorem modifyDie_features (d : Nat) (f : Die → Die) : (s.modifyDie d f).features = s.features := rfl
@[simp] theorem modifyDie_n (d : Nat) (f : Die → Die) : (s.modifyDie d f).n = s.n := rfl
@[simp] theorem modifyDie_place (d : Nat) (f : Die → Die) : (s.modifyDie d f).place = s.place := rfl
@[simp] theorem modifyDie_fpmode (d : Nat) (f : Die → Die) : (s.modifyDie d f).fpmode = s.fpmode := rfl
@[simp] theorem modifyDie_seeds (d : Nat) (f : Die → Die) : (s.modifyDie d f).seeds = s.seeds := rfl
@[simp] theorem modifyDie_flash (d : Nat) (f : Die → Die) : (s.modifyDie d f).flash = s.flash := rfl
@[simp] theorem modifyDie_rootDigest (d : Nat) (f : Die → Die) : (s.modifyDie d f).rootDigest = s.rootDigest := rfl
@[simp] theorem modifyDie_rootKey (d : Nat) (f : Die → Die) : (s.modifyDie d f).rootKey = s.rootKey := rfl
@[simp] theorem modifyDie_minSvn (d : Nat) (f : Die → Die) : (s.modifyDie d f).minSvn = s.minSvn := rfl
@[simp] theorem modifyDie_resets (d : Nat) (f : Die → Die) : (s.modifyDie d f).resets = s.resets := rfl
@[simp] theorem modifyDie_idKey (d : Nat) (f : Die → Die) : (s.modifyDie d f).idKey = s.idKey := rfl
@[simp] theorem modifyDie_idCert (d : Nat) (f : Die → Die) : (s.modifyDie d f).idCert = s.idCert := rfl
@[simp] theorem modifyDie_inService (d : Nat) (f : Die → Die) : (s.modifyDie d f).inService = s.inService := rfl
@[simp] theorem modifyDie_clockMHz (d : Nat) (f : Die → Die) : (s.modifyDie d f).clockMHz = s.clockMHz := rfl
@[simp] theorem modifyDie_power (d : Nat) (f : Die → Die) : (s.modifyDie d f).power = s.power := rfl
@[simp] theorem modifyDie_temps (d : Nat) (f : Die → Die) : (s.modifyDie d f).temps = s.temps := rfl
@[simp] theorem modifyDie_limitClearSince (d : Nat) (f : Die → Die) : (s.modifyDie d f).limitClearSince = s.limitClearSince := rfl
@[simp] theorem modifyDie_thermalStopped (d : Nat) (f : Die → Die) : (s.modifyDie d f).thermalStopped = s.thermalStopped := rfl
@[simp] theorem modifyDie_mem (d : Nat) (f : Die → Die) : (s.modifyDie d f).mem = s.mem := rfl
@[simp] theorem modifyDie_badSectors (d : Nat) (f : Die → Die) : (s.modifyDie d f).badSectors = s.badSectors := rfl
@[simp] theorem modifyDie_corrected (d : Nat) (f : Die → Die) : (s.modifyDie d f).corrected = s.corrected := rfl
@[simp] theorem modifyDie_uncorrected (d : Nat) (f : Die → Die) : (s.modifyDie d f).uncorrected = s.uncorrected := rfl
@[simp] theorem modifyDie_chips (d : Nat) (f : Die → Die) : (s.modifyDie d f).chips = s.chips := rfl
@[simp] theorem modifyDie_hints (d : Nat) (f : Die → Die) : (s.modifyDie d f).hints = s.hints := rfl
@[simp] theorem modifyDie_contexts (d : Nat) (f : Die → Die) : (s.modifyDie d f).contexts = s.contexts := rfl
@[simp] theorem modifyDie_cores (d : Nat) (f : Die → Die) : (s.modifyDie d f).cores = s.cores := rfl
@[simp] theorem modifyDie_units (d : Nat) (f : Die → Die) : (s.modifyDie d f).units = s.units := rfl
@[simp] theorem modifyDie_launches (d : Nat) (f : Die → Die) : (s.modifyDie d f).launches = s.launches := rfl
@[simp] theorem modifyDie_segments (d : Nat) (f : Die → Die) : (s.modifyDie d f).segments = s.segments := rfl
@[simp] theorem modifyDie_requests (d : Nat) (f : Die → Die) : (s.modifyDie d f).requests = s.requests := rfl
@[simp] theorem modifyDie_controllers (d : Nat) (f : Die → Die) : (s.modifyDie d f).controllers = s.controllers := rfl
@[simp] theorem modifyDie_responses (d : Nat) (f : Die → Die) : (s.modifyDie d f).responses = s.responses := rfl
@[simp] theorem modifyDie_links (d : Nat) (f : Die → Die) : (s.modifyDie d f).links = s.links := rfl
@[simp] theorem modifyDie_queries (d : Nat) (f : Die → Die) : (s.modifyDie d f).queries = s.queries := rfl
@[simp] theorem modifyDie_collectives (d : Nat) (f : Die → Die) : (s.modifyDie d f).collectives = s.collectives := rfl
@[simp] theorem modifyDie_early (d : Nat) (f : Die → Die) : (s.modifyDie d f).early = s.early := rfl
@[simp] theorem modifyDie_messages (d : Nat) (f : Die → Die) : (s.modifyDie d f).messages = s.messages := rfl
@[simp] theorem modifyDie_ringFrees (d : Nat) (f : Die → Die) : (s.modifyDie d f).ringFrees = s.ringFrees := rfl
@[simp] theorem modifyDie_via (d : Nat) (f : Die → Die) : (s.modifyDie d f).via = s.via := rfl
@[simp] theorem modifyDie_usedFrames (d : Nat) (f : Die → Die) : (s.modifyDie d f).usedFrames = s.usedFrames := rfl
@[simp] theorem modifyDie_runWindows (d : Nat) (f : Die → Die) : (s.modifyDie d f).runWindows = s.runWindows := rfl
@[simp] theorem modifyDie_runEnds (d : Nat) (f : Die → Die) : (s.modifyDie d f).runEnds = s.runEnds := rfl

/-! ### State.modifyContext -/

@[simp] theorem modifyContext_clock (c : Nat) (f : Context → Context) : (s.modifyContext c f).clock = s.clock := rfl
@[simp] theorem modifyContext_agenda (c : Nat) (f : Context → Context) : (s.modifyContext c f).agenda = s.agenda := rfl
@[simp] theorem modifyContext_cur (c : Nat) (f : Context → Context) : (s.modifyContext c f).cur = s.cur := rfl
@[simp] theorem modifyContext_curTack (c : Nat) (f : Context → Context) : (s.modifyContext c f).curTack = s.curTack := rfl
@[simp] theorem modifyContext_freeIdx (c : Nat) (f : Context → Context) : (s.modifyContext c f).freeIdx = s.freeIdx := rfl
@[simp] theorem modifyContext_nextId (c : Nat) (f : Context → Context) : (s.modifyContext c f).nextId = s.nextId := rfl
@[simp] theorem modifyContext_booted (c : Nat) (f : Context → Context) : (s.modifyContext c f).booted = s.booted := rfl
@[simp] theorem modifyContext_bootFailed (c : Nat) (f : Context → Context) : (s.modifyContext c f).bootFailed = s.bootFailed := rfl
@[simp] theorem modifyContext_portsUp (c : Nat) (f : Context → Context) : (s.modifyContext c f).portsUp = s.portsUp := rfl
@[simp] theorem modifyContext_chip (c : Nat) (f : Context → Context) : (s.modifyContext c f).chip = s.chip := rfl
@[simp] theorem modifyContext_negotiated (c : Nat) (f : Context → Context) : (s.modifyContext c f).negotiated = s.negotiated := rfl
@[simp] theorem modifyContext_features (c : Nat) (f : Context → Context) : (s.modifyContext c f).features = s.features := rfl
@[simp] theorem modifyContext_n (c : Nat) (f : Context → Context) : (s.modifyContext c f).n = s.n := rfl
@[simp] theorem modifyContext_place (c : Nat) (f : Context → Context) : (s.modifyContext c f).place = s.place := rfl
@[simp] theorem modifyContext_fpmode (c : Nat) (f : Context → Context) : (s.modifyContext c f).fpmode = s.fpmode := rfl
@[simp] theorem modifyContext_seeds (c : Nat) (f : Context → Context) : (s.modifyContext c f).seeds = s.seeds := rfl
@[simp] theorem modifyContext_flash (c : Nat) (f : Context → Context) : (s.modifyContext c f).flash = s.flash := rfl
@[simp] theorem modifyContext_rootDigest (c : Nat) (f : Context → Context) : (s.modifyContext c f).rootDigest = s.rootDigest := rfl
@[simp] theorem modifyContext_rootKey (c : Nat) (f : Context → Context) : (s.modifyContext c f).rootKey = s.rootKey := rfl
@[simp] theorem modifyContext_minSvn (c : Nat) (f : Context → Context) : (s.modifyContext c f).minSvn = s.minSvn := rfl
@[simp] theorem modifyContext_resets (c : Nat) (f : Context → Context) : (s.modifyContext c f).resets = s.resets := rfl
@[simp] theorem modifyContext_idKey (c : Nat) (f : Context → Context) : (s.modifyContext c f).idKey = s.idKey := rfl
@[simp] theorem modifyContext_idCert (c : Nat) (f : Context → Context) : (s.modifyContext c f).idCert = s.idCert := rfl
@[simp] theorem modifyContext_inService (c : Nat) (f : Context → Context) : (s.modifyContext c f).inService = s.inService := rfl
@[simp] theorem modifyContext_clockMHz (c : Nat) (f : Context → Context) : (s.modifyContext c f).clockMHz = s.clockMHz := rfl
@[simp] theorem modifyContext_power (c : Nat) (f : Context → Context) : (s.modifyContext c f).power = s.power := rfl
@[simp] theorem modifyContext_temps (c : Nat) (f : Context → Context) : (s.modifyContext c f).temps = s.temps := rfl
@[simp] theorem modifyContext_limitClearSince (c : Nat) (f : Context → Context) : (s.modifyContext c f).limitClearSince = s.limitClearSince := rfl
@[simp] theorem modifyContext_thermalStopped (c : Nat) (f : Context → Context) : (s.modifyContext c f).thermalStopped = s.thermalStopped := rfl
@[simp] theorem modifyContext_mem (c : Nat) (f : Context → Context) : (s.modifyContext c f).mem = s.mem := rfl
@[simp] theorem modifyContext_badSectors (c : Nat) (f : Context → Context) : (s.modifyContext c f).badSectors = s.badSectors := rfl
@[simp] theorem modifyContext_corrected (c : Nat) (f : Context → Context) : (s.modifyContext c f).corrected = s.corrected := rfl
@[simp] theorem modifyContext_uncorrected (c : Nat) (f : Context → Context) : (s.modifyContext c f).uncorrected = s.uncorrected := rfl
@[simp] theorem modifyContext_chips (c : Nat) (f : Context → Context) : (s.modifyContext c f).chips = s.chips := rfl
@[simp] theorem modifyContext_hints (c : Nat) (f : Context → Context) : (s.modifyContext c f).hints = s.hints := rfl
@[simp] theorem modifyContext_dies (c : Nat) (f : Context → Context) : (s.modifyContext c f).dies = s.dies := rfl
@[simp] theorem modifyContext_cores (c : Nat) (f : Context → Context) : (s.modifyContext c f).cores = s.cores := rfl
@[simp] theorem modifyContext_units (c : Nat) (f : Context → Context) : (s.modifyContext c f).units = s.units := rfl
@[simp] theorem modifyContext_launches (c : Nat) (f : Context → Context) : (s.modifyContext c f).launches = s.launches := rfl
@[simp] theorem modifyContext_segments (c : Nat) (f : Context → Context) : (s.modifyContext c f).segments = s.segments := rfl
@[simp] theorem modifyContext_requests (c : Nat) (f : Context → Context) : (s.modifyContext c f).requests = s.requests := rfl
@[simp] theorem modifyContext_controllers (c : Nat) (f : Context → Context) : (s.modifyContext c f).controllers = s.controllers := rfl
@[simp] theorem modifyContext_responses (c : Nat) (f : Context → Context) : (s.modifyContext c f).responses = s.responses := rfl
@[simp] theorem modifyContext_links (c : Nat) (f : Context → Context) : (s.modifyContext c f).links = s.links := rfl
@[simp] theorem modifyContext_queries (c : Nat) (f : Context → Context) : (s.modifyContext c f).queries = s.queries := rfl
@[simp] theorem modifyContext_collectives (c : Nat) (f : Context → Context) : (s.modifyContext c f).collectives = s.collectives := rfl
@[simp] theorem modifyContext_early (c : Nat) (f : Context → Context) : (s.modifyContext c f).early = s.early := rfl
@[simp] theorem modifyContext_messages (c : Nat) (f : Context → Context) : (s.modifyContext c f).messages = s.messages := rfl
@[simp] theorem modifyContext_ringFrees (c : Nat) (f : Context → Context) : (s.modifyContext c f).ringFrees = s.ringFrees := rfl
@[simp] theorem modifyContext_via (c : Nat) (f : Context → Context) : (s.modifyContext c f).via = s.via := rfl
@[simp] theorem modifyContext_usedFrames (c : Nat) (f : Context → Context) : (s.modifyContext c f).usedFrames = s.usedFrames := rfl
@[simp] theorem modifyContext_runWindows (c : Nat) (f : Context → Context) : (s.modifyContext c f).runWindows = s.runWindows := rfl
@[simp] theorem modifyContext_runEnds (c : Nat) (f : Context → Context) : (s.modifyContext c f).runEnds = s.runEnds := rfl

/-! ### State.modifyCore -/

@[simp] theorem modifyCore_clock (c : Nat) (f : Core → Core) : (s.modifyCore c f).clock = s.clock := rfl
@[simp] theorem modifyCore_agenda (c : Nat) (f : Core → Core) : (s.modifyCore c f).agenda = s.agenda := rfl
@[simp] theorem modifyCore_cur (c : Nat) (f : Core → Core) : (s.modifyCore c f).cur = s.cur := rfl
@[simp] theorem modifyCore_curTack (c : Nat) (f : Core → Core) : (s.modifyCore c f).curTack = s.curTack := rfl
@[simp] theorem modifyCore_freeIdx (c : Nat) (f : Core → Core) : (s.modifyCore c f).freeIdx = s.freeIdx := rfl
@[simp] theorem modifyCore_nextId (c : Nat) (f : Core → Core) : (s.modifyCore c f).nextId = s.nextId := rfl
@[simp] theorem modifyCore_booted (c : Nat) (f : Core → Core) : (s.modifyCore c f).booted = s.booted := rfl
@[simp] theorem modifyCore_bootFailed (c : Nat) (f : Core → Core) : (s.modifyCore c f).bootFailed = s.bootFailed := rfl
@[simp] theorem modifyCore_portsUp (c : Nat) (f : Core → Core) : (s.modifyCore c f).portsUp = s.portsUp := rfl
@[simp] theorem modifyCore_chip (c : Nat) (f : Core → Core) : (s.modifyCore c f).chip = s.chip := rfl
@[simp] theorem modifyCore_negotiated (c : Nat) (f : Core → Core) : (s.modifyCore c f).negotiated = s.negotiated := rfl
@[simp] theorem modifyCore_features (c : Nat) (f : Core → Core) : (s.modifyCore c f).features = s.features := rfl
@[simp] theorem modifyCore_n (c : Nat) (f : Core → Core) : (s.modifyCore c f).n = s.n := rfl
@[simp] theorem modifyCore_place (c : Nat) (f : Core → Core) : (s.modifyCore c f).place = s.place := rfl
@[simp] theorem modifyCore_fpmode (c : Nat) (f : Core → Core) : (s.modifyCore c f).fpmode = s.fpmode := rfl
@[simp] theorem modifyCore_seeds (c : Nat) (f : Core → Core) : (s.modifyCore c f).seeds = s.seeds := rfl
@[simp] theorem modifyCore_flash (c : Nat) (f : Core → Core) : (s.modifyCore c f).flash = s.flash := rfl
@[simp] theorem modifyCore_rootDigest (c : Nat) (f : Core → Core) : (s.modifyCore c f).rootDigest = s.rootDigest := rfl
@[simp] theorem modifyCore_rootKey (c : Nat) (f : Core → Core) : (s.modifyCore c f).rootKey = s.rootKey := rfl
@[simp] theorem modifyCore_minSvn (c : Nat) (f : Core → Core) : (s.modifyCore c f).minSvn = s.minSvn := rfl
@[simp] theorem modifyCore_resets (c : Nat) (f : Core → Core) : (s.modifyCore c f).resets = s.resets := rfl
@[simp] theorem modifyCore_idKey (c : Nat) (f : Core → Core) : (s.modifyCore c f).idKey = s.idKey := rfl
@[simp] theorem modifyCore_idCert (c : Nat) (f : Core → Core) : (s.modifyCore c f).idCert = s.idCert := rfl
@[simp] theorem modifyCore_inService (c : Nat) (f : Core → Core) : (s.modifyCore c f).inService = s.inService := rfl
@[simp] theorem modifyCore_clockMHz (c : Nat) (f : Core → Core) : (s.modifyCore c f).clockMHz = s.clockMHz := rfl
@[simp] theorem modifyCore_power (c : Nat) (f : Core → Core) : (s.modifyCore c f).power = s.power := rfl
@[simp] theorem modifyCore_temps (c : Nat) (f : Core → Core) : (s.modifyCore c f).temps = s.temps := rfl
@[simp] theorem modifyCore_limitClearSince (c : Nat) (f : Core → Core) : (s.modifyCore c f).limitClearSince = s.limitClearSince := rfl
@[simp] theorem modifyCore_thermalStopped (c : Nat) (f : Core → Core) : (s.modifyCore c f).thermalStopped = s.thermalStopped := rfl
@[simp] theorem modifyCore_mem (c : Nat) (f : Core → Core) : (s.modifyCore c f).mem = s.mem := rfl
@[simp] theorem modifyCore_badSectors (c : Nat) (f : Core → Core) : (s.modifyCore c f).badSectors = s.badSectors := rfl
@[simp] theorem modifyCore_corrected (c : Nat) (f : Core → Core) : (s.modifyCore c f).corrected = s.corrected := rfl
@[simp] theorem modifyCore_uncorrected (c : Nat) (f : Core → Core) : (s.modifyCore c f).uncorrected = s.uncorrected := rfl
@[simp] theorem modifyCore_chips (c : Nat) (f : Core → Core) : (s.modifyCore c f).chips = s.chips := rfl
@[simp] theorem modifyCore_hints (c : Nat) (f : Core → Core) : (s.modifyCore c f).hints = s.hints := rfl
@[simp] theorem modifyCore_dies (c : Nat) (f : Core → Core) : (s.modifyCore c f).dies = s.dies := rfl
@[simp] theorem modifyCore_contexts (c : Nat) (f : Core → Core) : (s.modifyCore c f).contexts = s.contexts := rfl
@[simp] theorem modifyCore_units (c : Nat) (f : Core → Core) : (s.modifyCore c f).units = s.units := rfl
@[simp] theorem modifyCore_launches (c : Nat) (f : Core → Core) : (s.modifyCore c f).launches = s.launches := rfl
@[simp] theorem modifyCore_segments (c : Nat) (f : Core → Core) : (s.modifyCore c f).segments = s.segments := rfl
@[simp] theorem modifyCore_requests (c : Nat) (f : Core → Core) : (s.modifyCore c f).requests = s.requests := rfl
@[simp] theorem modifyCore_controllers (c : Nat) (f : Core → Core) : (s.modifyCore c f).controllers = s.controllers := rfl
@[simp] theorem modifyCore_responses (c : Nat) (f : Core → Core) : (s.modifyCore c f).responses = s.responses := rfl
@[simp] theorem modifyCore_links (c : Nat) (f : Core → Core) : (s.modifyCore c f).links = s.links := rfl
@[simp] theorem modifyCore_queries (c : Nat) (f : Core → Core) : (s.modifyCore c f).queries = s.queries := rfl
@[simp] theorem modifyCore_collectives (c : Nat) (f : Core → Core) : (s.modifyCore c f).collectives = s.collectives := rfl
@[simp] theorem modifyCore_early (c : Nat) (f : Core → Core) : (s.modifyCore c f).early = s.early := rfl
@[simp] theorem modifyCore_messages (c : Nat) (f : Core → Core) : (s.modifyCore c f).messages = s.messages := rfl
@[simp] theorem modifyCore_ringFrees (c : Nat) (f : Core → Core) : (s.modifyCore c f).ringFrees = s.ringFrees := rfl
@[simp] theorem modifyCore_via (c : Nat) (f : Core → Core) : (s.modifyCore c f).via = s.via := rfl
@[simp] theorem modifyCore_usedFrames (c : Nat) (f : Core → Core) : (s.modifyCore c f).usedFrames = s.usedFrames := rfl
@[simp] theorem modifyCore_runWindows (c : Nat) (f : Core → Core) : (s.modifyCore c f).runWindows = s.runWindows := rfl
@[simp] theorem modifyCore_runEnds (c : Nat) (f : Core → Core) : (s.modifyCore c f).runEnds = s.runEnds := rfl

/-! ### State.modifySegment -/

@[simp] theorem modifySegment_clock (c : Nat) (name : DWord) (f : Segment → Segment) : (s.modifySegment c name f).clock = s.clock := rfl
@[simp] theorem modifySegment_agenda (c : Nat) (name : DWord) (f : Segment → Segment) : (s.modifySegment c name f).agenda = s.agenda := rfl
@[simp] theorem modifySegment_cur (c : Nat) (name : DWord) (f : Segment → Segment) : (s.modifySegment c name f).cur = s.cur := rfl
@[simp] theorem modifySegment_curTack (c : Nat) (name : DWord) (f : Segment → Segment) : (s.modifySegment c name f).curTack = s.curTack := rfl
@[simp] theorem modifySegment_freeIdx (c : Nat) (name : DWord) (f : Segment → Segment) : (s.modifySegment c name f).freeIdx = s.freeIdx := rfl
@[simp] theorem modifySegment_nextId (c : Nat) (name : DWord) (f : Segment → Segment) : (s.modifySegment c name f).nextId = s.nextId := rfl
@[simp] theorem modifySegment_booted (c : Nat) (name : DWord) (f : Segment → Segment) : (s.modifySegment c name f).booted = s.booted := rfl
@[simp] theorem modifySegment_bootFailed (c : Nat) (name : DWord) (f : Segment → Segment) : (s.modifySegment c name f).bootFailed = s.bootFailed := rfl
@[simp] theorem modifySegment_portsUp (c : Nat) (name : DWord) (f : Segment → Segment) : (s.modifySegment c name f).portsUp = s.portsUp := rfl
@[simp] theorem modifySegment_chip (c : Nat) (name : DWord) (f : Segment → Segment) : (s.modifySegment c name f).chip = s.chip := rfl
@[simp] theorem modifySegment_negotiated (c : Nat) (name : DWord) (f : Segment → Segment) : (s.modifySegment c name f).negotiated = s.negotiated := rfl
@[simp] theorem modifySegment_features (c : Nat) (name : DWord) (f : Segment → Segment) : (s.modifySegment c name f).features = s.features := rfl
@[simp] theorem modifySegment_n (c : Nat) (name : DWord) (f : Segment → Segment) : (s.modifySegment c name f).n = s.n := rfl
@[simp] theorem modifySegment_place (c : Nat) (name : DWord) (f : Segment → Segment) : (s.modifySegment c name f).place = s.place := rfl
@[simp] theorem modifySegment_fpmode (c : Nat) (name : DWord) (f : Segment → Segment) : (s.modifySegment c name f).fpmode = s.fpmode := rfl
@[simp] theorem modifySegment_seeds (c : Nat) (name : DWord) (f : Segment → Segment) : (s.modifySegment c name f).seeds = s.seeds := rfl
@[simp] theorem modifySegment_flash (c : Nat) (name : DWord) (f : Segment → Segment) : (s.modifySegment c name f).flash = s.flash := rfl
@[simp] theorem modifySegment_rootDigest (c : Nat) (name : DWord) (f : Segment → Segment) : (s.modifySegment c name f).rootDigest = s.rootDigest := rfl
@[simp] theorem modifySegment_rootKey (c : Nat) (name : DWord) (f : Segment → Segment) : (s.modifySegment c name f).rootKey = s.rootKey := rfl
@[simp] theorem modifySegment_minSvn (c : Nat) (name : DWord) (f : Segment → Segment) : (s.modifySegment c name f).minSvn = s.minSvn := rfl
@[simp] theorem modifySegment_resets (c : Nat) (name : DWord) (f : Segment → Segment) : (s.modifySegment c name f).resets = s.resets := rfl
@[simp] theorem modifySegment_idKey (c : Nat) (name : DWord) (f : Segment → Segment) : (s.modifySegment c name f).idKey = s.idKey := rfl
@[simp] theorem modifySegment_idCert (c : Nat) (name : DWord) (f : Segment → Segment) : (s.modifySegment c name f).idCert = s.idCert := rfl
@[simp] theorem modifySegment_inService (c : Nat) (name : DWord) (f : Segment → Segment) : (s.modifySegment c name f).inService = s.inService := rfl
@[simp] theorem modifySegment_clockMHz (c : Nat) (name : DWord) (f : Segment → Segment) : (s.modifySegment c name f).clockMHz = s.clockMHz := rfl
@[simp] theorem modifySegment_power (c : Nat) (name : DWord) (f : Segment → Segment) : (s.modifySegment c name f).power = s.power := rfl
@[simp] theorem modifySegment_temps (c : Nat) (name : DWord) (f : Segment → Segment) : (s.modifySegment c name f).temps = s.temps := rfl
@[simp] theorem modifySegment_limitClearSince (c : Nat) (name : DWord) (f : Segment → Segment) : (s.modifySegment c name f).limitClearSince = s.limitClearSince := rfl
@[simp] theorem modifySegment_thermalStopped (c : Nat) (name : DWord) (f : Segment → Segment) : (s.modifySegment c name f).thermalStopped = s.thermalStopped := rfl
@[simp] theorem modifySegment_mem (c : Nat) (name : DWord) (f : Segment → Segment) : (s.modifySegment c name f).mem = s.mem := rfl
@[simp] theorem modifySegment_badSectors (c : Nat) (name : DWord) (f : Segment → Segment) : (s.modifySegment c name f).badSectors = s.badSectors := rfl
@[simp] theorem modifySegment_corrected (c : Nat) (name : DWord) (f : Segment → Segment) : (s.modifySegment c name f).corrected = s.corrected := rfl
@[simp] theorem modifySegment_uncorrected (c : Nat) (name : DWord) (f : Segment → Segment) : (s.modifySegment c name f).uncorrected = s.uncorrected := rfl
@[simp] theorem modifySegment_chips (c : Nat) (name : DWord) (f : Segment → Segment) : (s.modifySegment c name f).chips = s.chips := rfl
@[simp] theorem modifySegment_hints (c : Nat) (name : DWord) (f : Segment → Segment) : (s.modifySegment c name f).hints = s.hints := rfl
@[simp] theorem modifySegment_dies (c : Nat) (name : DWord) (f : Segment → Segment) : (s.modifySegment c name f).dies = s.dies := rfl
@[simp] theorem modifySegment_contexts (c : Nat) (name : DWord) (f : Segment → Segment) : (s.modifySegment c name f).contexts = s.contexts := rfl
@[simp] theorem modifySegment_cores (c : Nat) (name : DWord) (f : Segment → Segment) : (s.modifySegment c name f).cores = s.cores := rfl
@[simp] theorem modifySegment_units (c : Nat) (name : DWord) (f : Segment → Segment) : (s.modifySegment c name f).units = s.units := rfl
@[simp] theorem modifySegment_launches (c : Nat) (name : DWord) (f : Segment → Segment) : (s.modifySegment c name f).launches = s.launches := rfl
@[simp] theorem modifySegment_requests (c : Nat) (name : DWord) (f : Segment → Segment) : (s.modifySegment c name f).requests = s.requests := rfl
@[simp] theorem modifySegment_controllers (c : Nat) (name : DWord) (f : Segment → Segment) : (s.modifySegment c name f).controllers = s.controllers := rfl
@[simp] theorem modifySegment_responses (c : Nat) (name : DWord) (f : Segment → Segment) : (s.modifySegment c name f).responses = s.responses := rfl
@[simp] theorem modifySegment_links (c : Nat) (name : DWord) (f : Segment → Segment) : (s.modifySegment c name f).links = s.links := rfl
@[simp] theorem modifySegment_queries (c : Nat) (name : DWord) (f : Segment → Segment) : (s.modifySegment c name f).queries = s.queries := rfl
@[simp] theorem modifySegment_collectives (c : Nat) (name : DWord) (f : Segment → Segment) : (s.modifySegment c name f).collectives = s.collectives := rfl
@[simp] theorem modifySegment_early (c : Nat) (name : DWord) (f : Segment → Segment) : (s.modifySegment c name f).early = s.early := rfl
@[simp] theorem modifySegment_messages (c : Nat) (name : DWord) (f : Segment → Segment) : (s.modifySegment c name f).messages = s.messages := rfl
@[simp] theorem modifySegment_ringFrees (c : Nat) (name : DWord) (f : Segment → Segment) : (s.modifySegment c name f).ringFrees = s.ringFrees := rfl
@[simp] theorem modifySegment_via (c : Nat) (name : DWord) (f : Segment → Segment) : (s.modifySegment c name f).via = s.via := rfl
@[simp] theorem modifySegment_usedFrames (c : Nat) (name : DWord) (f : Segment → Segment) : (s.modifySegment c name f).usedFrames = s.usedFrames := rfl
@[simp] theorem modifySegment_runWindows (c : Nat) (name : DWord) (f : Segment → Segment) : (s.modifySegment c name f).runWindows = s.runWindows := rfl
@[simp] theorem modifySegment_runEnds (c : Nat) (name : DWord) (f : Segment → Segment) : (s.modifySegment c name f).runEnds = s.runEnds := rfl

/-! ### Updates that are updates of a larger part -/

theorem modifyBank_eq (c b : Nat) (f : Bank → Bank) : s.modifyBank c b f = s.modifyCore c (·.modifyBank b f) := rfl

theorem modifyTack_eq (d c : Nat) (f : TackCore → TackCore) :
    s.modifyTack d c f = s.modifyDie d fun x => { x with tacks := listModify x.tacks c f } := rfl

@[simp] theorem newId_fst : s.newId.1 = s.nextId := rfl
@[simp] theorem newId_snd : s.newId.2 = { s with nextId := s.nextId + 1 } := rfl
@[simp] theorem drawFree_fst (n : Nat) : (s.drawFree n).1 = s.freeIdx := rfl
@[simp] theorem drawFree_snd (n : Nat) : (s.drawFree n).2 = { s with freeIdx := s.freeIdx + n } := rfl

/-! ### Units -/

variable (u : WorkUnit)

@[simp] theorem WorkUnit.modifySlice_uid (p : Nat) (f : Slice → Slice) : (u.modifySlice p f).uid = u.uid := rfl
@[simp] theorem WorkUnit.modifySlice_die (p : Nat) (f : Slice → Slice) : (u.modifySlice p f).die = u.die := rfl
@[simp] theorem WorkUnit.modifySlice_lslot (p : Nat) (f : Slice → Slice) : (u.modifySlice p f).lslot = u.lslot := rfl
@[simp] theorem WorkUnit.modifySlice_ctx (p : Nat) (f : Slice → Slice) : (u.modifySlice p f).ctx = u.ctx := rfl
@[simp] theorem WorkUnit.modifySlice_unitId (p : Nat) (f : Slice → Slice) : (u.modifySlice p f).unitId = u.unitId := rfl
@[simp] theorem WorkUnit.modifySlice_residence (p : Nat) (f : Slice → Slice) : (u.modifySlice p f).residence = u.residence := rfl
@[simp] theorem WorkUnit.modifySlice_core (p : Nat) (f : Slice → Slice) : (u.modifySlice p f).core = u.core := rfl
@[simp] theorem WorkUnit.modifySlice_bank (p : Nat) (f : Slice → Slice) : (u.modifySlice p f).bank = u.bank := rfl
@[simp] theorem WorkUnit.modifySlice_slots (p : Nat) (f : Slice → Slice) : (u.modifySlice p f).slots = u.slots := rfl
@[simp] theorem WorkUnit.modifySlice_bslots (p : Nat) (f : Slice → Slice) : (u.modifySlice p f).bslots = u.bslots := rfl
@[simp] theorem WorkUnit.modifySlice_entry (p : Nat) (f : Slice → Slice) : (u.modifySlice p f).entry = u.entry := rfl
@[simp] theorem WorkUnit.modifySlice_regs (p : Nat) (f : Slice → Slice) : (u.modifySlice p f).regs = u.regs := rfl
@[simp] theorem WorkUnit.modifySlice_nlanes (p : Nat) (f : Slice → Slice) : (u.modifySlice p f).nlanes = u.nlanes := rfl
@[simp] theorem WorkUnit.modifySlice_ntags (p : Nat) (f : Slice → Slice) : (u.modifySlice p f).ntags = u.ntags := rfl
@[simp] theorem WorkUnit.modifySlice_ntiles (p : Nat) (f : Slice → Slice) : (u.modifySlice p f).ntiles = u.ntiles := rfl
@[simp] theorem WorkUnit.modifySlice_cohs (p : Nat) (f : Slice → Slice) : (u.modifySlice p f).cohs = u.cohs := rfl
@[simp] theorem WorkUnit.modifySlice_pgang (p : Nat) (f : Slice → Slice) : (u.modifySlice p f).pgang = u.pgang := rfl
@[simp] theorem WorkUnit.modifySlice_scratchLen (p : Nat) (f : Slice → Slice) : (u.modifySlice p f).scratchLen = u.scratchLen := rfl
@[simp] theorem WorkUnit.modifySlice_det (p : Nat) (f : Slice → Slice) : (u.modifySlice p f).det = u.det := rfl
@[simp] theorem WorkUnit.modifySlice_wgid (p : Nat) (f : Slice → Slice) : (u.modifySlice p f).wgid = u.wgid := rfl
@[simp] theorem WorkUnit.modifySlice_frpos (p : Nat) (f : Slice → Slice) : (u.modifySlice p f).frpos = u.frpos := rfl
@[simp] theorem WorkUnit.modifySlice_nextIg (p : Nat) (f : Slice → Slice) : (u.modifySlice p f).nextIg = u.nextIg := rfl
@[simp] theorem WorkUnit.modifySlice_nextResult (p : Nat) (f : Slice → Slice) : (u.modifySlice p f).nextResult = u.nextResult := rfl
@[simp] theorem WorkUnit.modifySlice_nextTrap (p : Nat) (f : Slice → Slice) : (u.modifySlice p f).nextTrap = u.nextTrap := rfl
@[simp] theorem WorkUnit.modifySlice_bkpts (p : Nat) (f : Slice → Slice) : (u.modifySlice p f).bkpts = u.bkpts := rfl
@[simp] theorem WorkUnit.modifySlice_scratch (p : Nat) (f : Slice → Slice) : (u.modifySlice p f).scratch = u.scratch := rfl
@[simp] theorem WorkUnit.modifySlice_badScratch (p : Nat) (f : Slice → Slice) : (u.modifySlice p f).badScratch = u.badScratch := rfl
@[simp] theorem WorkUnit.modifySlice_badRegs (p : Nat) (f : Slice → Slice) : (u.modifySlice p f).badRegs = u.badRegs := rfl
@[simp] theorem WorkUnit.modifySlice_badTiles (p : Nat) (f : Slice → Slice) : (u.modifySlice p f).badTiles = u.badTiles := rfl
@[simp] theorem WorkUnit.modifySlice_badWeights (p : Nat) (f : Slice → Slice) : (u.modifySlice p f).badWeights = u.badWeights := rfl
@[simp] theorem WorkUnit.modifySlice_buffer (p : Nat) (f : Slice → Slice) : (u.modifySlice p f).buffer = u.buffer := rfl
@[simp] theorem WorkUnit.modifySlice_ordWords (p : Nat) (f : Slice → Slice) : (u.modifySlice p f).ordWords = u.ordWords := rfl
@[simp] theorem WorkUnit.modifySlice_snapshot (p : Nat) (f : Slice → Slice) : (u.modifySlice p f).snapshot = u.snapshot := rfl
@[simp] theorem WorkUnit.modifySlice_interval (p : Nat) (f : Slice → Slice) : (u.modifySlice p f).interval = u.interval := rfl
@[simp] theorem WorkUnit.modifySlice_tags (p : Nat) (f : Slice → Slice) : (u.modifySlice p f).tags = u.tags := rfl
@[simp] theorem WorkUnit.modifySlice_latches (p : Nat) (f : Slice → Slice) : (u.modifySlice p f).latches = u.latches := rfl
@[simp] theorem WorkUnit.modifySlice_segs (p : Nat) (f : Slice → Slice) : (u.modifySlice p f).segs = u.segs := rfl
@[simp] theorem WorkUnit.modifySlice_releases (p : Nat) (f : Slice → Slice) : (u.modifySlice p f).releases = u.releases := rfl
@[simp] theorem WorkUnit.modifySlice_attaches (p : Nat) (f : Slice → Slice) : (u.modifySlice p f).attaches = u.attaches := rfl
@[simp] theorem WorkUnit.modifySlice_attachSince (p : Nat) (f : Slice → Slice) : (u.modifySlice p f).attachSince = u.attachSince := rfl
@[simp] theorem WorkUnit.modifySlice_firstFault (p : Nat) (f : Slice → Slice) : (u.modifySlice p f).firstFault = u.firstFault := rfl
@[simp] theorem WorkUnit.modifySlice_tiles (p : Nat) (f : Slice → Slice) : (u.modifySlice p f).tiles = u.tiles := rfl
@[simp] theorem WorkUnit.modifySlice_tileTags (p : Nat) (f : Slice → Slice) : (u.modifySlice p f).tileTags = u.tileTags := rfl
@[simp] theorem WorkUnit.modifySlice_weights (p : Nat) (f : Slice → Slice) : (u.modifySlice p f).weights = u.weights := rfl
@[simp] theorem WorkUnit.modifySlice_cfgIssued (p : Nat) (f : Slice → Slice) : (u.modifySlice p f).cfgIssued = u.cfgIssued := rfl
@[simp] theorem WorkUnit.modifySlice_cfgDone (p : Nat) (f : Slice → Slice) : (u.modifySlice p f).cfgDone = u.cfgDone := rfl
@[simp] theorem WorkUnit.modifySlice_matq (p : Nat) (f : Slice → Slice) : (u.modifySlice p f).matq = u.matq := rfl
@[simp] theorem WorkUnit.modifySlice_batchClosed (p : Nat) (f : Slice → Slice) : (u.modifySlice p f).batchClosed = u.batchClosed := rfl
@[simp] theorem WorkUnit.modifySlice_matError (p : Nat) (f : Slice → Slice) : (u.modifySlice p f).matError = u.matError := rfl
@[simp] theorem WorkUnit.modifySlice_matStopped (p : Nat) (f : Slice → Slice) : (u.modifySlice p f).matStopped = u.matStopped := rfl
@[simp] theorem WorkUnit.modifySlice_wset (p : Nat) (f : Slice → Slice) : (u.modifySlice p f).wset = u.wset := rfl
@[simp] theorem WorkUnit.modifySlice_ocloses (p : Nat) (f : Slice → Slice) : (u.modifySlice p f).ocloses = u.ocloses := rfl
@[simp] theorem WorkUnit.modifySlice_contribs (p : Nat) (f : Slice → Slice) : (u.modifySlice p f).contribs = u.contribs := rfl
@[simp] theorem WorkUnit.modifySlice_image (p : Nat) (f : Slice → Slice) : (u.modifySlice p f).image = u.image := rfl
@[simp] theorem WorkUnit.modifySlice_parked (p : Nat) (f : Slice → Slice) : (u.modifySlice p f).parked = u.parked := rfl
@[simp] theorem WorkUnit.modifySlice_savedBars (p : Nat) (f : Slice → Slice) : (u.modifySlice p f).savedBars = u.savedBars := rfl
@[simp] theorem WorkUnit.modifySlice_group (p : Nat) (f : Slice → Slice) : (u.modifySlice p f).group = u.group := rfl
@[simp] theorem WorkUnit.modifySlice_spillSince (p : Nat) (f : Slice → Slice) : (u.modifySlice p f).spillSince = u.spillSince := rfl
@[simp] theorem WorkUnit.modifySlice_startNo (p : Nat) (f : Slice → Slice) : (u.modifySlice p f).startNo = u.startNo := rfl

@[simp] theorem WorkUnit.modifySlices_uid (ps : List Nat) (f : Slice → Slice) : (u.modifySlices ps f).uid = u.uid := rfl
@[simp] theorem WorkUnit.modifySlices_die (ps : List Nat) (f : Slice → Slice) : (u.modifySlices ps f).die = u.die := rfl
@[simp] theorem WorkUnit.modifySlices_lslot (ps : List Nat) (f : Slice → Slice) : (u.modifySlices ps f).lslot = u.lslot := rfl
@[simp] theorem WorkUnit.modifySlices_ctx (ps : List Nat) (f : Slice → Slice) : (u.modifySlices ps f).ctx = u.ctx := rfl
@[simp] theorem WorkUnit.modifySlices_unitId (ps : List Nat) (f : Slice → Slice) : (u.modifySlices ps f).unitId = u.unitId := rfl
@[simp] theorem WorkUnit.modifySlices_residence (ps : List Nat) (f : Slice → Slice) : (u.modifySlices ps f).residence = u.residence := rfl
@[simp] theorem WorkUnit.modifySlices_core (ps : List Nat) (f : Slice → Slice) : (u.modifySlices ps f).core = u.core := rfl
@[simp] theorem WorkUnit.modifySlices_bank (ps : List Nat) (f : Slice → Slice) : (u.modifySlices ps f).bank = u.bank := rfl
@[simp] theorem WorkUnit.modifySlices_slots (ps : List Nat) (f : Slice → Slice) : (u.modifySlices ps f).slots = u.slots := rfl
@[simp] theorem WorkUnit.modifySlices_bslots (ps : List Nat) (f : Slice → Slice) : (u.modifySlices ps f).bslots = u.bslots := rfl
@[simp] theorem WorkUnit.modifySlices_entry (ps : List Nat) (f : Slice → Slice) : (u.modifySlices ps f).entry = u.entry := rfl
@[simp] theorem WorkUnit.modifySlices_regs (ps : List Nat) (f : Slice → Slice) : (u.modifySlices ps f).regs = u.regs := rfl
@[simp] theorem WorkUnit.modifySlices_nlanes (ps : List Nat) (f : Slice → Slice) : (u.modifySlices ps f).nlanes = u.nlanes := rfl
@[simp] theorem WorkUnit.modifySlices_ntags (ps : List Nat) (f : Slice → Slice) : (u.modifySlices ps f).ntags = u.ntags := rfl
@[simp] theorem WorkUnit.modifySlices_ntiles (ps : List Nat) (f : Slice → Slice) : (u.modifySlices ps f).ntiles = u.ntiles := rfl
@[simp] theorem WorkUnit.modifySlices_cohs (ps : List Nat) (f : Slice → Slice) : (u.modifySlices ps f).cohs = u.cohs := rfl
@[simp] theorem WorkUnit.modifySlices_pgang (ps : List Nat) (f : Slice → Slice) : (u.modifySlices ps f).pgang = u.pgang := rfl
@[simp] theorem WorkUnit.modifySlices_scratchLen (ps : List Nat) (f : Slice → Slice) : (u.modifySlices ps f).scratchLen = u.scratchLen := rfl
@[simp] theorem WorkUnit.modifySlices_det (ps : List Nat) (f : Slice → Slice) : (u.modifySlices ps f).det = u.det := rfl
@[simp] theorem WorkUnit.modifySlices_wgid (ps : List Nat) (f : Slice → Slice) : (u.modifySlices ps f).wgid = u.wgid := rfl
@[simp] theorem WorkUnit.modifySlices_frpos (ps : List Nat) (f : Slice → Slice) : (u.modifySlices ps f).frpos = u.frpos := rfl
@[simp] theorem WorkUnit.modifySlices_nextIg (ps : List Nat) (f : Slice → Slice) : (u.modifySlices ps f).nextIg = u.nextIg := rfl
@[simp] theorem WorkUnit.modifySlices_nextResult (ps : List Nat) (f : Slice → Slice) : (u.modifySlices ps f).nextResult = u.nextResult := rfl
@[simp] theorem WorkUnit.modifySlices_nextTrap (ps : List Nat) (f : Slice → Slice) : (u.modifySlices ps f).nextTrap = u.nextTrap := rfl
@[simp] theorem WorkUnit.modifySlices_bkpts (ps : List Nat) (f : Slice → Slice) : (u.modifySlices ps f).bkpts = u.bkpts := rfl
@[simp] theorem WorkUnit.modifySlices_scratch (ps : List Nat) (f : Slice → Slice) : (u.modifySlices ps f).scratch = u.scratch := rfl
@[simp] theorem WorkUnit.modifySlices_badScratch (ps : List Nat) (f : Slice → Slice) : (u.modifySlices ps f).badScratch = u.badScratch := rfl
@[simp] theorem WorkUnit.modifySlices_badRegs (ps : List Nat) (f : Slice → Slice) : (u.modifySlices ps f).badRegs = u.badRegs := rfl
@[simp] theorem WorkUnit.modifySlices_badTiles (ps : List Nat) (f : Slice → Slice) : (u.modifySlices ps f).badTiles = u.badTiles := rfl
@[simp] theorem WorkUnit.modifySlices_badWeights (ps : List Nat) (f : Slice → Slice) : (u.modifySlices ps f).badWeights = u.badWeights := rfl
@[simp] theorem WorkUnit.modifySlices_buffer (ps : List Nat) (f : Slice → Slice) : (u.modifySlices ps f).buffer = u.buffer := rfl
@[simp] theorem WorkUnit.modifySlices_ordWords (ps : List Nat) (f : Slice → Slice) : (u.modifySlices ps f).ordWords = u.ordWords := rfl
@[simp] theorem WorkUnit.modifySlices_snapshot (ps : List Nat) (f : Slice → Slice) : (u.modifySlices ps f).snapshot = u.snapshot := rfl
@[simp] theorem WorkUnit.modifySlices_interval (ps : List Nat) (f : Slice → Slice) : (u.modifySlices ps f).interval = u.interval := rfl
@[simp] theorem WorkUnit.modifySlices_tags (ps : List Nat) (f : Slice → Slice) : (u.modifySlices ps f).tags = u.tags := rfl
@[simp] theorem WorkUnit.modifySlices_latches (ps : List Nat) (f : Slice → Slice) : (u.modifySlices ps f).latches = u.latches := rfl
@[simp] theorem WorkUnit.modifySlices_segs (ps : List Nat) (f : Slice → Slice) : (u.modifySlices ps f).segs = u.segs := rfl
@[simp] theorem WorkUnit.modifySlices_releases (ps : List Nat) (f : Slice → Slice) : (u.modifySlices ps f).releases = u.releases := rfl
@[simp] theorem WorkUnit.modifySlices_attaches (ps : List Nat) (f : Slice → Slice) : (u.modifySlices ps f).attaches = u.attaches := rfl
@[simp] theorem WorkUnit.modifySlices_attachSince (ps : List Nat) (f : Slice → Slice) : (u.modifySlices ps f).attachSince = u.attachSince := rfl
@[simp] theorem WorkUnit.modifySlices_firstFault (ps : List Nat) (f : Slice → Slice) : (u.modifySlices ps f).firstFault = u.firstFault := rfl
@[simp] theorem WorkUnit.modifySlices_tiles (ps : List Nat) (f : Slice → Slice) : (u.modifySlices ps f).tiles = u.tiles := rfl
@[simp] theorem WorkUnit.modifySlices_tileTags (ps : List Nat) (f : Slice → Slice) : (u.modifySlices ps f).tileTags = u.tileTags := rfl
@[simp] theorem WorkUnit.modifySlices_weights (ps : List Nat) (f : Slice → Slice) : (u.modifySlices ps f).weights = u.weights := rfl
@[simp] theorem WorkUnit.modifySlices_cfgIssued (ps : List Nat) (f : Slice → Slice) : (u.modifySlices ps f).cfgIssued = u.cfgIssued := rfl
@[simp] theorem WorkUnit.modifySlices_cfgDone (ps : List Nat) (f : Slice → Slice) : (u.modifySlices ps f).cfgDone = u.cfgDone := rfl
@[simp] theorem WorkUnit.modifySlices_matq (ps : List Nat) (f : Slice → Slice) : (u.modifySlices ps f).matq = u.matq := rfl
@[simp] theorem WorkUnit.modifySlices_batchClosed (ps : List Nat) (f : Slice → Slice) : (u.modifySlices ps f).batchClosed = u.batchClosed := rfl
@[simp] theorem WorkUnit.modifySlices_matError (ps : List Nat) (f : Slice → Slice) : (u.modifySlices ps f).matError = u.matError := rfl
@[simp] theorem WorkUnit.modifySlices_matStopped (ps : List Nat) (f : Slice → Slice) : (u.modifySlices ps f).matStopped = u.matStopped := rfl
@[simp] theorem WorkUnit.modifySlices_wset (ps : List Nat) (f : Slice → Slice) : (u.modifySlices ps f).wset = u.wset := rfl
@[simp] theorem WorkUnit.modifySlices_ocloses (ps : List Nat) (f : Slice → Slice) : (u.modifySlices ps f).ocloses = u.ocloses := rfl
@[simp] theorem WorkUnit.modifySlices_contribs (ps : List Nat) (f : Slice → Slice) : (u.modifySlices ps f).contribs = u.contribs := rfl
@[simp] theorem WorkUnit.modifySlices_image (ps : List Nat) (f : Slice → Slice) : (u.modifySlices ps f).image = u.image := rfl
@[simp] theorem WorkUnit.modifySlices_parked (ps : List Nat) (f : Slice → Slice) : (u.modifySlices ps f).parked = u.parked := rfl
@[simp] theorem WorkUnit.modifySlices_savedBars (ps : List Nat) (f : Slice → Slice) : (u.modifySlices ps f).savedBars = u.savedBars := rfl
@[simp] theorem WorkUnit.modifySlices_group (ps : List Nat) (f : Slice → Slice) : (u.modifySlices ps f).group = u.group := rfl
@[simp] theorem WorkUnit.modifySlices_spillSince (ps : List Nat) (f : Slice → Slice) : (u.modifySlices ps f).spillSince = u.spillSince := rfl
@[simp] theorem WorkUnit.modifySlices_startNo (ps : List Nat) (f : Slice → Slice) : (u.modifySlices ps f).startNo = u.startNo := rfl

@[simp] theorem WorkUnit.modifyTag_uid (n : Nat) (f : TagState → TagState) : (u.modifyTag n f).uid = u.uid := rfl
@[simp] theorem WorkUnit.modifyTag_die (n : Nat) (f : TagState → TagState) : (u.modifyTag n f).die = u.die := rfl
@[simp] theorem WorkUnit.modifyTag_lslot (n : Nat) (f : TagState → TagState) : (u.modifyTag n f).lslot = u.lslot := rfl
@[simp] theorem WorkUnit.modifyTag_ctx (n : Nat) (f : TagState → TagState) : (u.modifyTag n f).ctx = u.ctx := rfl
@[simp] theorem WorkUnit.modifyTag_unitId (n : Nat) (f : TagState → TagState) : (u.modifyTag n f).unitId = u.unitId := rfl
@[simp] theorem WorkUnit.modifyTag_residence (n : Nat) (f : TagState → TagState) : (u.modifyTag n f).residence = u.residence := rfl
@[simp] theorem WorkUnit.modifyTag_core (n : Nat) (f : TagState → TagState) : (u.modifyTag n f).core = u.core := rfl
@[simp] theorem WorkUnit.modifyTag_bank (n : Nat) (f : TagState → TagState) : (u.modifyTag n f).bank = u.bank := rfl
@[simp] theorem WorkUnit.modifyTag_slots (n : Nat) (f : TagState → TagState) : (u.modifyTag n f).slots = u.slots := rfl
@[simp] theorem WorkUnit.modifyTag_bslots (n : Nat) (f : TagState → TagState) : (u.modifyTag n f).bslots = u.bslots := rfl
@[simp] theorem WorkUnit.modifyTag_entry (n : Nat) (f : TagState → TagState) : (u.modifyTag n f).entry = u.entry := rfl
@[simp] theorem WorkUnit.modifyTag_regs (n : Nat) (f : TagState → TagState) : (u.modifyTag n f).regs = u.regs := rfl
@[simp] theorem WorkUnit.modifyTag_nlanes (n : Nat) (f : TagState → TagState) : (u.modifyTag n f).nlanes = u.nlanes := rfl
@[simp] theorem WorkUnit.modifyTag_ntags (n : Nat) (f : TagState → TagState) : (u.modifyTag n f).ntags = u.ntags := rfl
@[simp] theorem WorkUnit.modifyTag_ntiles (n : Nat) (f : TagState → TagState) : (u.modifyTag n f).ntiles = u.ntiles := rfl
@[simp] theorem WorkUnit.modifyTag_cohs (n : Nat) (f : TagState → TagState) : (u.modifyTag n f).cohs = u.cohs := rfl
@[simp] theorem WorkUnit.modifyTag_pgang (n : Nat) (f : TagState → TagState) : (u.modifyTag n f).pgang = u.pgang := rfl
@[simp] theorem WorkUnit.modifyTag_scratchLen (n : Nat) (f : TagState → TagState) : (u.modifyTag n f).scratchLen = u.scratchLen := rfl
@[simp] theorem WorkUnit.modifyTag_det (n : Nat) (f : TagState → TagState) : (u.modifyTag n f).det = u.det := rfl
@[simp] theorem WorkUnit.modifyTag_wgid (n : Nat) (f : TagState → TagState) : (u.modifyTag n f).wgid = u.wgid := rfl
@[simp] theorem WorkUnit.modifyTag_frpos (n : Nat) (f : TagState → TagState) : (u.modifyTag n f).frpos = u.frpos := rfl
@[simp] theorem WorkUnit.modifyTag_slices (n : Nat) (f : TagState → TagState) : (u.modifyTag n f).slices = u.slices := rfl
@[simp] theorem WorkUnit.modifyTag_nextIg (n : Nat) (f : TagState → TagState) : (u.modifyTag n f).nextIg = u.nextIg := rfl
@[simp] theorem WorkUnit.modifyTag_nextResult (n : Nat) (f : TagState → TagState) : (u.modifyTag n f).nextResult = u.nextResult := rfl
@[simp] theorem WorkUnit.modifyTag_nextTrap (n : Nat) (f : TagState → TagState) : (u.modifyTag n f).nextTrap = u.nextTrap := rfl
@[simp] theorem WorkUnit.modifyTag_bkpts (n : Nat) (f : TagState → TagState) : (u.modifyTag n f).bkpts = u.bkpts := rfl
@[simp] theorem WorkUnit.modifyTag_scratch (n : Nat) (f : TagState → TagState) : (u.modifyTag n f).scratch = u.scratch := rfl
@[simp] theorem WorkUnit.modifyTag_badScratch (n : Nat) (f : TagState → TagState) : (u.modifyTag n f).badScratch = u.badScratch := rfl
@[simp] theorem WorkUnit.modifyTag_badRegs (n : Nat) (f : TagState → TagState) : (u.modifyTag n f).badRegs = u.badRegs := rfl
@[simp] theorem WorkUnit.modifyTag_badTiles (n : Nat) (f : TagState → TagState) : (u.modifyTag n f).badTiles = u.badTiles := rfl
@[simp] theorem WorkUnit.modifyTag_badWeights (n : Nat) (f : TagState → TagState) : (u.modifyTag n f).badWeights = u.badWeights := rfl
@[simp] theorem WorkUnit.modifyTag_buffer (n : Nat) (f : TagState → TagState) : (u.modifyTag n f).buffer = u.buffer := rfl
@[simp] theorem WorkUnit.modifyTag_ordWords (n : Nat) (f : TagState → TagState) : (u.modifyTag n f).ordWords = u.ordWords := rfl
@[simp] theorem WorkUnit.modifyTag_snapshot (n : Nat) (f : TagState → TagState) : (u.modifyTag n f).snapshot = u.snapshot := rfl
@[simp] theorem WorkUnit.modifyTag_interval (n : Nat) (f : TagState → TagState) : (u.modifyTag n f).interval = u.interval := rfl
@[simp] theorem WorkUnit.modifyTag_latches (n : Nat) (f : TagState → TagState) : (u.modifyTag n f).latches = u.latches := rfl
@[simp] theorem WorkUnit.modifyTag_segs (n : Nat) (f : TagState → TagState) : (u.modifyTag n f).segs = u.segs := rfl
@[simp] theorem WorkUnit.modifyTag_releases (n : Nat) (f : TagState → TagState) : (u.modifyTag n f).releases = u.releases := rfl
@[simp] theorem WorkUnit.modifyTag_attaches (n : Nat) (f : TagState → TagState) : (u.modifyTag n f).attaches = u.attaches := rfl
@[simp] theorem WorkUnit.modifyTag_attachSince (n : Nat) (f : TagState → TagState) : (u.modifyTag n f).attachSince = u.attachSince := rfl
@[simp] theorem WorkUnit.modifyTag_firstFault (n : Nat) (f : TagState → TagState) : (u.modifyTag n f).firstFault = u.firstFault := rfl
@[simp] theorem WorkUnit.modifyTag_tiles (n : Nat) (f : TagState → TagState) : (u.modifyTag n f).tiles = u.tiles := rfl
@[simp] theorem WorkUnit.modifyTag_tileTags (n : Nat) (f : TagState → TagState) : (u.modifyTag n f).tileTags = u.tileTags := rfl
@[simp] theorem WorkUnit.modifyTag_weights (n : Nat) (f : TagState → TagState) : (u.modifyTag n f).weights = u.weights := rfl
@[simp] theorem WorkUnit.modifyTag_cfgIssued (n : Nat) (f : TagState → TagState) : (u.modifyTag n f).cfgIssued = u.cfgIssued := rfl
@[simp] theorem WorkUnit.modifyTag_cfgDone (n : Nat) (f : TagState → TagState) : (u.modifyTag n f).cfgDone = u.cfgDone := rfl
@[simp] theorem WorkUnit.modifyTag_matq (n : Nat) (f : TagState → TagState) : (u.modifyTag n f).matq = u.matq := rfl
@[simp] theorem WorkUnit.modifyTag_batchClosed (n : Nat) (f : TagState → TagState) : (u.modifyTag n f).batchClosed = u.batchClosed := rfl
@[simp] theorem WorkUnit.modifyTag_matError (n : Nat) (f : TagState → TagState) : (u.modifyTag n f).matError = u.matError := rfl
@[simp] theorem WorkUnit.modifyTag_matStopped (n : Nat) (f : TagState → TagState) : (u.modifyTag n f).matStopped = u.matStopped := rfl
@[simp] theorem WorkUnit.modifyTag_wset (n : Nat) (f : TagState → TagState) : (u.modifyTag n f).wset = u.wset := rfl
@[simp] theorem WorkUnit.modifyTag_ocloses (n : Nat) (f : TagState → TagState) : (u.modifyTag n f).ocloses = u.ocloses := rfl
@[simp] theorem WorkUnit.modifyTag_contribs (n : Nat) (f : TagState → TagState) : (u.modifyTag n f).contribs = u.contribs := rfl
@[simp] theorem WorkUnit.modifyTag_image (n : Nat) (f : TagState → TagState) : (u.modifyTag n f).image = u.image := rfl
@[simp] theorem WorkUnit.modifyTag_parked (n : Nat) (f : TagState → TagState) : (u.modifyTag n f).parked = u.parked := rfl
@[simp] theorem WorkUnit.modifyTag_savedBars (n : Nat) (f : TagState → TagState) : (u.modifyTag n f).savedBars = u.savedBars := rfl
@[simp] theorem WorkUnit.modifyTag_group (n : Nat) (f : TagState → TagState) : (u.modifyTag n f).group = u.group := rfl
@[simp] theorem WorkUnit.modifyTag_spillSince (n : Nat) (f : TagState → TagState) : (u.modifyTag n f).spillSince = u.spillSince := rfl
@[simp] theorem WorkUnit.modifyTag_startNo (n : Nat) (f : TagState → TagState) : (u.modifyTag n f).startNo = u.startNo := rfl

/-! ### Reading back -/

/-- The changed launch is the old one, changed; the other slots hold what they held. -/
theorem launch?_modifyLaunch (d n i j : Nat) {f : Launch → Launch} (hf : ∀ l, (f l).die = l.die ∧ (f l).slot = l.slot) :
    (s.modifyLaunch d n f).launch? i j = if i = d ∧ j = n then (s.launch? i j).map f else s.launch? i j := by
  unfold State.launch? State.modifyLaunch
  dsimp only
  induction s.launches with
  | nil => simp
  | cons a l ih =>
    simp only [List.map_cons, List.find?_cons]
    by_cases e : a.die = d ∧ a.slot = n
    · rw [if_pos e]
      by_cases k : i = d ∧ j = n
      · simp [(hf a).1, (hf a).2, e.1, e.2, k.1, k.2]
      · rw [(hf a).1, (hf a).2, ih, if_neg k, if_neg k]
        have h : (a.die == i && a.slot == j) = false := by
          rw [e.1, e.2]
          by_cases p : d = i
          · by_cases q : n = j
            · exact absurd ⟨p.symm, q.symm⟩ k
            · simp [q]
          · simp [p]
        rw [h]
    · rw [if_neg e, ih]
      by_cases k : i = d ∧ j = n
      · have h : (a.die == i && a.slot == j) = false := by
          rw [k.1, k.2]
          by_cases p : a.die = d
          · by_cases q : a.slot = n
            · exact absurd ⟨p, q⟩ e
            · simp [q]
          · simp [p]
        rw [h]
      · rw [if_neg k, if_neg k]

/-- The changed die is the old one, changed, where it is in the list. -/
theorem die_modifyDie (d i : Nat) (f : Die → Die) :
    (s.modifyDie d f).die i = if i = d ∧ i < s.dies.length then f (s.die i) else s.die i := by
  unfold State.die State.modifyDie listAt listModify
  simp only [List.getD, List.getElem?_mapIdx]
  by_cases h : i < s.dies.length
  · by_cases e : i = d
    · subst e
      simp [h]
    · simp [e]
  · simp [h]

theorem dies_modifyDie_length (d : Nat) (f : Die → Die) : (s.modifyDie d f).dies.length = s.dies.length := listModify_length _ _ _

end Sys2Proof.Machine
end

