-- ==== Sys2Proof/Tests/Slice0.lean ====
section
/-! SUPPORT. Tests of one step or one word each, with values from the spec's tables and examples or worked out by hand from its rules,
and for every statement of the certificate that has hypotheses a witness that meets them. -/

set_option Elab.async false
set_option linter.all false

namespace Sys2Proof

/-! ### Encodings -/

/-- The integer words (R169-R184) of the spec's tables and examples. -/
theorem test_decode_integer : [
    0x0E00080601010000, 0x0E00780202018000, 0x0E00B80202018000, 0x0E00F80202018000, 0x0E01380202018100, 0x0E01780404030000,
    0x0E01B80404030200, 0x0E01F80202018000, 0x0E02380202018000, 0x0E02780202000000, 0x0E02B80202000000, 0x0E02F80202018000,
    0x0E04380202018000, 0x0E04780202018000, 0x0E04B80202018000, 0x0E04F80202000000, 0x0E05100202018116, 0x0E05780202018000,
    0x0E05B80202018000, 0x0E05F80202018000, 0x0E06380202018000, 0x0E06780202018100, 0x0E08380202018000, 0x0E08780202018100,
    0x0E08B80202000000, 0x0E08F80202000000, 0x0E09380202000000, 0x0E09780202000000, 0x0E0C382202018000, 0x0E0C780202018080,
    0x0E0CB80202000000, 0x0F0CF802000003E8, 0x0E0D3A0202000003, 0x0E0D7A2202000000, 0x0E0DB82202018100, 0x0E0DF80200000000,
    0x0E0E380202018004, 0x0E0E780202000000, 0x0E10380206000000, 0x0E10784202000000, 0x0E10B80202000000, 0x0E10F80002018000].map (fun w => decode (.belga w none)) = [
    .ok (.iadd ⟨⟨false, 0, 7, 1, false⟩, 3, 1, .spec 2, 0, 0⟩),
    .ok (.isub ⟨⟨false, 0, 7, 7, false⟩, 1, 2, .spec 3, 0, 0⟩),
    .ok (.imul ⟨⟨false, 0, 7, 7, false⟩, 1, 2, .spec 3, 0, 0⟩),
    .ok (.imulh ⟨⟨false, 0, 7, 7, false⟩, 1, 2, .spec 3, 0, 0⟩),
    .ok (.imad ⟨⟨false, 0, 7, 7, false⟩, 1, 2, .spec 3, 4, 0⟩),
    .ok (.iadd64 ⟨⟨false, 0, 7, 7, false⟩, 2, 4, .spec 6, 0, 0⟩),
    .ok (.imad64 ⟨⟨false, 0, 7, 7, false⟩, 2, 4, .spec 6, 8, 0⟩),
    .ok (.imin ⟨⟨false, 0, 7, 7, false⟩, 1, 2, .spec 3, 0, 0⟩),
    .ok (.imax ⟨⟨false, 0, 7, 7, false⟩, 1, 2, .spec 3, 0, 0⟩),
    .ok (.iabs ⟨⟨false, 0, 7, 7, false⟩, 1, 2, .spec 0, 0, 0⟩),
    .ok (.ineg ⟨⟨false, 0, 7, 7, false⟩, 1, 2, .spec 0, 0, 0⟩),
    .ok (.iadds ⟨⟨false, 0, 7, 7, false⟩, 1, 2, .spec 3, 0, 0⟩),
    .ok (.and ⟨⟨false, 0, 7, 7, false⟩, 1, 2, .spec 3, 0, 0⟩),
    .ok (.or ⟨⟨false, 0, 7, 7, false⟩, 1, 2, .spec 3, 0, 0⟩),
    .ok (.xor ⟨⟨false, 0, 7, 7, false⟩, 1, 2, .spec 3, 0, 0⟩),
    .ok (.not ⟨⟨false, 0, 7, 7, false⟩, 1, 2, .spec 0, 0, 0⟩),
    .ok (.lop3 ⟨⟨false, 0, 7, 2, false⟩, 1, 2, .spec 3, 4, 22⟩),
    .ok (.shl ⟨⟨false, 0, 7, 7, false⟩, 1, 2, .spec 3, 0, 0⟩),
    .ok (.shr ⟨⟨false, 0, 7, 7, false⟩, 1, 2, .spec 3, 0, 0⟩),
    .ok (.shra ⟨⟨false, 0, 7, 7, false⟩, 1, 2, .spec 3, 0, 0⟩),
    .ok (.rotl ⟨⟨false, 0, 7, 7, false⟩, 1, 2, .spec 3, 0, 0⟩),
    .ok (.fshf ⟨⟨false, 0, 7, 7, false⟩, 1, 2, .spec 3, 4, 0⟩),
    .ok (.bfx ⟨⟨false, 0, 7, 7, false⟩, 1, 2, .spec 3, 0, 0⟩),
    .ok (.bfi ⟨⟨false, 0, 7, 7, false⟩, 1, 2, .spec 3, 4, 0⟩),
    .ok (.brev ⟨⟨false, 0, 7, 7, false⟩, 1, 2, .spec 0, 0, 0⟩),
    .ok (.popc ⟨⟨false, 0, 7, 7, false⟩, 1, 2, .spec 0, 0, 0⟩),
    .ok (.clz ⟨⟨false, 0, 7, 7, false⟩, 1, 2, .spec 0, 0, 0⟩),
    .ok (.ctz ⟨⟨false, 0, 7, 7, false⟩, 1, 2, .spec 0, 0, 0⟩),
    .ok (.icmp ⟨⟨false, 0, 7, 7, false⟩, 17, 2, .spec 3, 0, 0⟩),
    .ok (.sel ⟨⟨false, 0, 7, 7, false⟩, 1, 2, .spec 3, 2, 0⟩),
    .ok (.mov ⟨⟨false, 0, 7, 7, false⟩, 1, 2, .spec 0, 0, 0⟩),
    .ok (.movi ⟨⟨false, 0, 7, 7, false⟩, 1, 0, .imm 0x3E8, 0, 0⟩),
    .ok (.movq ⟨⟨false, 0, 7, 7, false⟩, 257, 2, .spec 0, 0, 3⟩),
    .ok (.movs ⟨⟨false, 0, 7, 7, false⟩, 273, 2, .spec 0, 0, 0⟩),
    .ok (.plut ⟨⟨false, 0, 7, 7, false⟩, 17, 2, .spec 3, 4, 0⟩),
    .ok (.pmov ⟨⟨false, 0, 7, 7, false⟩, 1, 0, .spec 0, 0, 0⟩),
    .ok (.icvt ⟨⟨false, 0, 7, 7, false⟩, 1, 2, .spec 3, 0, 4⟩),
    .ok (.retag ⟨⟨false, 0, 7, 7, false⟩, 1, 2, .spec 0, 0, 0⟩),
    .ok (.sread ⟨⟨false, 0, 7, 7, false⟩, 1, 6, .spec 0, 0, 0⟩),
    .ok (.swrite ⟨⟨false, 0, 7, 7, false⟩, 33, 2, .spec 0, 0, 0⟩),
    .ok (.vrdi ⟨⟨false, 0, 7, 7, false⟩, 1, 2, .spec 0, 0, 0⟩),
    .ok (.vwri ⟨⟨false, 0, 7, 7, false⟩, 0, 2, .spec 3, 0, 0⟩)] := rfl

/-- The floating-point words (R231-R244) of the spec's tables and examples. -/
theorem test_decode_float : [
    0x0F203804033FC000, 0x0E20780202018000, 0x0E20B80202018000, 0x0E20F80202018100, 0x0E21380202018000, 0x0E21780202018000,
    0x0E21B82202018000, 0x0E21F80202000000, 0x0E22380202000001, 0x0E22780202098400, 0x0E22B80202018000, 0x0E24380202000000,
    0x0E24780202000000, 0x0E24B80202000000, 0x0E24F80202000000, 0x0E25380202000000, 0x0E25780202000000, 0x0E25B80202000000,
    0x0E28380404030000, 0x0E28780404030000, 0x0E28B80404030200, 0x0E28F82204030000, 0x0E2C380202018000, 0x0E2C780202018000,
    0x0E2CB80202018101, 0x0E2CF80202018100, 0x0E30381404A65400, 0x0E30780202260002, 0x0E30B80200000000, 0x0E30F80200000000].map (fun w => decode (.belga w none)) = [
    .ok (.fadd ⟨⟨false, 0, 7, 7, false⟩, 2, 3, .imm 0x3FC000, 0, 0⟩),
    .ok (.fsub ⟨⟨false, 0, 7, 7, false⟩, 1, 2, .spec 3, 0, 0⟩),
    .ok (.fmul ⟨⟨false, 0, 7, 7, false⟩, 1, 2, .spec 3, 0, 0⟩),
    .ok (.ffma ⟨⟨false, 0, 7, 7, false⟩, 1, 2, .spec 3, 4, 0⟩),
    .ok (.fmin ⟨⟨false, 0, 7, 7, false⟩, 1, 2, .spec 3, 0, 0⟩),
    .ok (.fmax ⟨⟨false, 0, 7, 7, false⟩, 1, 2, .spec 3, 0, 0⟩),
    .ok (.fcmp ⟨⟨false, 0, 7, 7, false⟩, 17, 2, .spec 3, 0, 0⟩),
    .ok (.fclass ⟨⟨false, 0, 7, 7, false⟩, 1, 2, .spec 0, 0, 0⟩),
    .ok (.frnd ⟨⟨false, 0, 7, 7, false⟩, 1, 2, .spec 0, 0, 1⟩),
    .ok (.fcvt ⟨⟨false, 0, 7, 7, false⟩, 1, 2, .spec 19, 16, 0⟩),
    .ok (.fscale ⟨⟨false, 0, 7, 7, false⟩, 1, 2, .spec 3, 0, 0⟩),
    .ok (.frcp ⟨⟨false, 0, 7, 7, false⟩, 1, 2, .spec 0, 0, 0⟩),
    .ok (.fsqrt ⟨⟨false, 0, 7, 7, false⟩, 1, 2, .spec 0, 0, 0⟩),
    .ok (.frsq ⟨⟨false, 0, 7, 7, false⟩, 1, 2, .spec 0, 0, 0⟩),
    .ok (.fex2 ⟨⟨false, 0, 7, 7, false⟩, 1, 2, .spec 0, 0, 0⟩),
    .ok (.flg2 ⟨⟨false, 0, 7, 7, false⟩, 1, 2, .spec 0, 0, 0⟩),
    .ok (.fsin ⟨⟨false, 0, 7, 7, false⟩, 1, 2, .spec 0, 0, 0⟩),
    .ok (.fcos ⟨⟨false, 0, 7, 7, false⟩, 1, 2, .spec 0, 0, 0⟩),
    .ok (.dadd ⟨⟨false, 0, 7, 7, false⟩, 2, 4, .spec 6, 0, 0⟩),
    .ok (.dmul ⟨⟨false, 0, 7, 7, false⟩, 2, 4, .spec 6, 0, 0⟩),
    .ok (.dfma ⟨⟨false, 0, 7, 7, false⟩, 2, 4, .spec 6, 8, 0⟩),
    .ok (.dcmp ⟨⟨false, 0, 7, 7, false⟩, 17, 4, .spec 6, 0, 0⟩),
    .ok (.hadd2 ⟨⟨false, 0, 7, 7, false⟩, 1, 2, .spec 3, 0, 0⟩),
    .ok (.hmul2 ⟨⟨false, 0, 7, 7, false⟩, 1, 2, .spec 3, 0, 0⟩),
    .ok (.hfma2 ⟨⟨false, 0, 7, 7, false⟩, 1, 2, .spec 3, 4, 1⟩),
    .ok (.dot4 ⟨⟨false, 0, 7, 7, false⟩, 1, 2, .spec 3, 4, 0⟩),
    .ok (.qpack ⟨⟨false, 0, 7, 7, false⟩, 10, 4, .spec 332, 336, 0⟩),
    .ok (.qunpk ⟨⟨false, 0, 7, 7, false⟩, 1, 2, .spec 76, 0, 2⟩),
    .ok (.rand ⟨⟨false, 0, 7, 7, false⟩, 1, 0, .spec 0, 0, 0⟩),
    .ok (.fstat ⟨⟨false, 0, 7, 7, false⟩, 1, 0, .spec 0, 0, 0⟩)] := rfl

/-- The cross-lane, branch-type, cohort and fault words (R203-R211, R191-R194, R393-R396, R417) of the spec's tables and examples. -/
theorem test_decode_cross_lane : [
    0x0E40380202A90001, 0x0E4078020AA90000, 0x0E40B80200000000, 0x0E40F80202018100, 0x0E42380202018100, 0x0E42781601A90304,
    0x0043380202A90000, 0x0243780202A90000, 0x0E44380004890000, 0x0E44780004000000, 0x0E46380202000000, 0x0E46780202000000,
    0x0E46B80202000000, 0x0E46F80202000000, 0x0E47380001000000, 0x0E47780000000000, 0x0E48380400000000].map (fun w => decode (.belga w none)) = [
    .ok (.vote ⟨⟨false, 0, 7, 7, false⟩, 1, 2, .spec 338, 0, 1⟩),
    .ok (.ballot ⟨⟨false, 0, 7, 7, false⟩, 1, 10, .spec 338, 0, 0⟩),
    .ok (.lmask ⟨⟨false, 0, 7, 7, false⟩, 1, 0, .spec 0, 0, 0⟩),
    .ok (.bpick ⟨⟨false, 0, 7, 7, false⟩, 1, 2, .spec 3, 4, 0⟩),
    .ok (.lget ⟨⟨false, 0, 7, 7, false⟩, 1, 2, .spec 3, 4, 0⟩),
    .ok (.xchg ⟨⟨false, 0, 7, 7, false⟩, 11, 1, .spec 338, 12, 4⟩),
    .ok (.matchLanes ⟨⟨false, 0, 0, 7, false⟩, 1, 2, .spec 338, 0, 0⟩),
    .ok (.redux ⟨⟨false, 0, 1, 7, false⟩, 1, 2, .spec 338, 0, 0⟩),
    .ok (.brx ⟨⟨false, 0, 7, 7, false⟩, 0, 4, .spec 274, 0, 0⟩),
    .ok (.calli ⟨⟨false, 0, 7, 7, false⟩, 0, 4, .spec 0, 0, 0⟩),
    .ok (.cohnew ⟨⟨false, 0, 7, 7, false⟩, 1, 2, .spec 0, 0, 0⟩),
    .ok (.cohfree ⟨⟨false, 0, 7, 7, false⟩, 1, 2, .spec 0, 0, 0⟩),
    .ok (.join ⟨⟨false, 0, 7, 7, false⟩, 1, 2, .spec 0, 0, 0⟩),
    .ok (.leave ⟨⟨false, 0, 7, 7, false⟩, 1, 2, .spec 0, 0, 0⟩),
    .ok (.cbar ⟨⟨false, 0, 7, 7, false⟩, 0, 1, .spec 0, 0, 0⟩),
    .ok (.tkwait ⟨⟨false, 0, 7, 7, false⟩, 0, 0, .spec 0, 0, 0⟩),
    .ok (.fltrd ⟨⟨false, 0, 7, 7, false⟩, 2, 0, .spec 0, 0, 0⟩)] := rfl

/-- The memory words (R276-R289, R390) of the spec's tables and examples. -/
theorem test_decode_memory : [
    0x0250382802004040, 0x0E50782802004040, 0x0050B80A01001040, 0x0E50F80A01001040, 0x04513A2910000040, 0x0E51780002000000,
    0x0E51B8000000001E, 0x0E51F80C02000040, 0x0E52380C00000000, 0x0E52780C02000058, 0x0E52B8000000001A, 0x0E52F81002000081,
    0x0053380C02000040, 0x0053780C02000040, 0x0053B80C02000040, 0x0E54380002000000, 0x0054780C02000000, 0x0E54B80002000001,
    0x0254F80C02000000, 0x0E553820040000BC, 0x00557830040001BA, 0x0255B81404000072].map (fun w => decode (.belga w none)) = [
    .ok (.ld ⟨⟨false, 0, 1, 7, false⟩, 20, 2, 64, 2, 0, 0, false⟩),
    .ok (.st ⟨⟨false, 0, 7, 7, false⟩, 20, 2, 64, 2, 0, 0, false⟩),
    .ok (.lds ⟨⟨false, 0, 0, 7, false⟩, 5, 1, 16, 2, 0, 0, false⟩),
    .ok (.sts ⟨⟨false, 0, 7, 7, false⟩, 5, 1, 16, 2, 0, 0, false⟩),
    .ok (.ldc ⟨⟨false, 0, 2, 7, false⟩, 276, 272, 0, 2, 0, 0, false⟩),
    .ok (.pref ⟨⟨false, 0, 7, 7, false⟩, 0, 2, 0, 0, 0, 0, false⟩),
    .ok (.fence ⟨⟨false, 0, 7, 7, false⟩, 0, 0, 0, 0, 3, 3, false⟩),
    .ok (.hint ⟨⟨false, 0, 7, 7, false⟩, 6, 2, 0, 2, 0, 0, false⟩),
    .ok (.stepadv ⟨⟨false, 0, 7, 7, false⟩, 6, 0, 0, 0, 0, 0, false⟩),
    .ok (.ordadd ⟨⟨false, 0, 7, 7, false⟩, 6, 2, 0, 2, 3, 0, false⟩),
    .ok (.oclose ⟨⟨false, 0, 7, 7, false⟩, 0, 0, 0, 0, 3, 1, false⟩),
    .ok (.sop ⟨⟨false, 0, 7, 7, false⟩, 8, 2, 0, 4, 0, 0, true⟩),
    .ok (.fatomAdd ⟨⟨false, 0, 0, 7, false⟩, 6, 2, 0, 2, 0, 0, false⟩),
    .ok (.fatomMin ⟨⟨false, 0, 0, 7, false⟩, 6, 2, 0, 2, 0, 0, false⟩),
    .ok (.fatomMax ⟨⟨false, 0, 0, 7, false⟩, 6, 2, 0, 2, 0, 0, false⟩),
    .ok (.segpub ⟨⟨false, 0, 7, 7, false⟩, 0, 2, 0, 0, 0, 0, false⟩),
    .ok (.segatt ⟨⟨false, 0, 0, 7, false⟩, 6, 2, 0, 0, 0, 0, false⟩),
    .ok (.segrel ⟨⟨false, 0, 7, 7, false⟩, 0, 2, 0, 0, 0, 0, true⟩),
    .ok (.segqry ⟨⟨false, 0, 1, 7, false⟩, 6, 2, 0, 0, 0, 0, false⟩),
    .ok (.qpush ⟨⟨false, 0, 7, 7, false⟩, 16, 4, 0, 5, 3, 2, false⟩),
    .ok (.qpop ⟨⟨false, 0, 0, 7, false⟩, 24, 4, 1, 5, 3, 1, false⟩),
    .ok (.qpeek ⟨⟨false, 0, 1, 7, false⟩, 10, 4, 0, 3, 2, 1, false⟩)] := rfl

/-- The atomic words (R278, R279) of the spec's tables and examples. -/
theorem test_decode_atomic : [
    0x0258380C01000040, 0x0258780C01000040, 0x0258B80C01000040, 0x0258F80C01000040, 0x0259380C01000040, 0x0259780C01000040,
    0x0259B80C01000040, 0x0259F80C01000040, 0x025A380C01000040, 0x025A780C01000040, 0x025AB80C01000040, 0x025AF80C01000040,
    0x0E5C38140C00005D, 0x005C780C02000040, 0x005CB80C02000040, 0x005CF80C02000040, 0x005D380C02000040, 0x005D780C02000040,
    0x005DB80C02000040, 0x005DF80C02000040, 0x005E380C02000040, 0x005E78100200007E, 0x005EB80C02000040, 0x005EF80C02000040].map (fun w => decode (.belga w none)) = [
    .ok (.atomsAdd ⟨⟨false, 0, 1, 7, false⟩, 6, 1, 0, 2, 0, 0, false⟩),
    .ok (.atomsSmin ⟨⟨false, 0, 1, 7, false⟩, 6, 1, 0, 2, 0, 0, false⟩),
    .ok (.atomsSmax ⟨⟨false, 0, 1, 7, false⟩, 6, 1, 0, 2, 0, 0, false⟩),
    .ok (.atomsUmin ⟨⟨false, 0, 1, 7, false⟩, 6, 1, 0, 2, 0, 0, false⟩),
    .ok (.atomsUmax ⟨⟨false, 0, 1, 7, false⟩, 6, 1, 0, 2, 0, 0, false⟩),
    .ok (.atomsAnd ⟨⟨false, 0, 1, 7, false⟩, 6, 1, 0, 2, 0, 0, false⟩),
    .ok (.atomsOr ⟨⟨false, 0, 1, 7, false⟩, 6, 1, 0, 2, 0, 0, false⟩),
    .ok (.atomsXor ⟨⟨false, 0, 1, 7, false⟩, 6, 1, 0, 2, 0, 0, false⟩),
    .ok (.atomsExch ⟨⟨false, 0, 1, 7, false⟩, 6, 1, 0, 2, 0, 0, false⟩),
    .ok (.atomsCas ⟨⟨false, 0, 1, 7, false⟩, 6, 1, 0, 2, 0, 0, false⟩),
    .ok (.atomsIncw ⟨⟨false, 0, 1, 7, false⟩, 6, 1, 0, 2, 0, 0, false⟩),
    .ok (.atomsDecw ⟨⟨false, 0, 1, 7, false⟩, 6, 1, 0, 2, 0, 0, false⟩),
    .ok (.atomAdd ⟨⟨false, 0, 7, 7, false⟩, 10, 12, 0, 2, 3, 2, true⟩),
    .ok (.atomSmin ⟨⟨false, 0, 0, 7, false⟩, 6, 2, 0, 2, 0, 0, false⟩),
    .ok (.atomSmax ⟨⟨false, 0, 0, 7, false⟩, 6, 2, 0, 2, 0, 0, false⟩),
    .ok (.atomUmin ⟨⟨false, 0, 0, 7, false⟩, 6, 2, 0, 2, 0, 0, false⟩),
    .ok (.atomUmax ⟨⟨false, 0, 0, 7, false⟩, 6, 2, 0, 2, 0, 0, false⟩),
    .ok (.atomAnd ⟨⟨false, 0, 0, 7, false⟩, 6, 2, 0, 2, 0, 0, false⟩),
    .ok (.atomOr ⟨⟨false, 0, 0, 7, false⟩, 6, 2, 0, 2, 0, 0, false⟩),
    .ok (.atomXor ⟨⟨false, 0, 0, 7, false⟩, 6, 2, 0, 2, 0, 0, false⟩),
    .ok (.atomExch ⟨⟨false, 0, 0, 7, false⟩, 6, 2, 0, 2, 0, 0, false⟩),
    .ok (.atomCas ⟨⟨false, 0, 0, 7, false⟩, 8, 2, 0, 3, 3, 3, false⟩),
    .ok (.atomIncw ⟨⟨false, 0, 0, 7, false⟩, 6, 2, 0, 2, 0, 0, false⟩),
    .ok (.atomDecw ⟨⟨false, 0, 0, 7, false⟩, 6, 2, 0, 2, 0, 0, false⟩)] := rfl

/-- The event, streamer and matrix words (R146-R148, R290-R309, R317-R326) of the spec's tables and examples. -/
theorem test_decode_engine : [
    0x0E60380A02020201, 0x0060781406000000, 0x0260B81606000000, 0x0E60F80002000200, 0x0E62380010000001, 0x0E62780020000002,
    0x0E62B80120000003, 0x0E62F80001010000, 0x0E63380006000000, 0x0E63780006040003, 0x0063B81406000000, 0x0263F81806000000,
    0x0E64380000000003, 0x0E64780018000000, 0x0E68380004000000, 0x0E687801C5000000, 0x0E68B8001403800C, 0x0E68F80408050000,
    0x0E6938001AA80300, 0x0E69780000000000, 0x0E69B801C1000000, 0x0069F83803000000, 0x0E6A380005030001, 0x0E6C38000403000D].map (fun w => decode (.belga w none)) = [
    .ok (.sched ⟨⟨false, 0, 7, 7, false⟩, 5, 2, .spec 4, 8, 1⟩),
    .ok (.cancel ⟨⟨false, 0, 0, 7, false⟩, 10, 6, .spec 0, 0, 0⟩),
    .ok (.evqry ⟨⟨false, 0, 1, 7, false⟩, 11, 6, .spec 0, 0, 0⟩),
    .ok (.task ⟨⟨false, 0, 7, 7, false⟩, 0, 2, .spec 0, 8, 0⟩),
    .ok (.cpy ⟨⟨false, 0, 7, 7, false⟩, 0, 16, .spec 0, 0, 1⟩),
    .ok (.cpyg ⟨⟨false, 0, 7, 7, false⟩, 0, 32, .spec 0, 0, 2⟩),
    .ok (.cpys ⟨⟨false, 0, 7, 7, false⟩, 0, 288, .spec 0, 0, 3⟩),
    .ok (.tagexp ⟨⟨false, 0, 7, 7, false⟩, 0, 1, .spec 2, 0, 0⟩),
    .ok (.twait ⟨⟨false, 0, 7, 7, false⟩, 0, 6, .spec 0, 0, 0⟩),
    .ok (.cwait ⟨⟨false, 0, 7, 7, false⟩, 0, 6, .spec 8, 0, 3⟩),
    .ok (.twany ⟨⟨false, 0, 0, 7, false⟩, 10, 6, .spec 0, 0, 0⟩),
    .ok (.tfirst ⟨⟨false, 0, 1, 7, false⟩, 12, 6, .spec 0, 0, 0⟩),
    .ok (.eqfence ⟨⟨false, 0, 7, 7, false⟩, 0, 0, .spec 0, 0, 3⟩),
    .ok (.coll ⟨⟨false, 0, 7, 7, false⟩, 0, 24, .spec 0, 0, 0⟩),
    .ok (.tcfg ⟨⟨false, 0, 7, 7, false⟩, 0, 4, .spec 0, 0, 0⟩),
    .ok (.tzero ⟨⟨false, 0, 7, 7, false⟩, 0, 453, .spec 0, 0, 0⟩),
    .ok (.wbld ⟨⟨false, 0, 7, 7, false⟩, 0, 20, .spec 7, 0, 12⟩),
    .ok (.mma ⟨⟨false, 0, 7, 7, false⟩, 2, 8, .spec 10, 0, 0⟩),
    .ok (.mloop ⟨⟨false, 0, 7, 7, false⟩, 0, 26, .spec 336, 12, 0⟩),
    .ok (.mfence ⟨⟨false, 0, 7, 7, false⟩, 0, 0, .spec 0, 0, 0⟩),
    .ok (.mwait ⟨⟨false, 0, 7, 7, false⟩, 0, 449, .spec 0, 0, 0⟩),
    .ok (.tld ⟨⟨false, 0, 0, 7, false⟩, 28, 3, .spec 0, 0, 0⟩),
    .ok (.tst ⟨⟨false, 0, 7, 7, false⟩, 0, 5, .spec 6, 0, 1⟩),
    .ok (.annq ⟨⟨false, 0, 7, 7, false⟩, 0, 4, .spec 6, 0, 13⟩)] := rfl

/-- The control words (R189-R201, R392-R419) of the spec's tables and examples. -/
theorem test_decode_control : [
    0x0E70380000000003, 0x0E70500000300014, 0x0E70B80000000028, 0x0E70F80000000000, 0x0E71080000000000, 0x0E71780000000000,
    0x0E71B80000000000, 0x0E71F80000000000, 0x0E74380000000000, 0x0E74780000000000, 0x0E74B80000000000, 0x0E74F80000000000,
    0x0E75380000000000, 0x0E78380000000000, 0x0E7878000000002A, 0x0E78B80000000007, 0x0E78F80000000000].map (fun w => decode (.belga w none)) = [
    .ok (.bra ⟨⟨false, 0, 7, 7, false⟩, 0, 3⟩),
    .ok (.brc ⟨⟨false, 0, 7, 2, false⟩, 0, 3145748⟩),
    .ok (.call ⟨⟨false, 0, 7, 7, false⟩, 0, 40⟩),
    .ok (.ret ⟨⟨false, 0, 7, 7, false⟩, 0, 0⟩),
    .ok (.exit ⟨⟨false, 0, 7, 1, false⟩, 0, 0⟩),
    .ok (.regang ⟨⟨false, 0, 7, 7, false⟩, 0, 0⟩),
    .ok (.yield ⟨⟨false, 0, 7, 7, false⟩, 0, 0⟩),
    .ok (.nop ⟨⟨false, 0, 7, 7, false⟩, 0, 0⟩),
    .ok (.bar ⟨⟨false, 0, 7, 7, false⟩, 0, 0⟩),
    .ok (.arrive ⟨⟨false, 0, 7, 7, false⟩, 0, 0⟩),
    .ok (.waitb ⟨⟨false, 0, 7, 7, false⟩, 0, 0⟩),
    .ok (.tkpass ⟨⟨false, 0, 7, 7, false⟩, 0, 0⟩),
    .ok (.dmerge ⟨⟨false, 0, 7, 7, false⟩, 0, 0⟩),
    .ok (.tfence ⟨⟨false, 0, 7, 7, false⟩, 0, 0⟩),
    .ok (.trap ⟨⟨false, 0, 7, 7, false⟩, 0, 42⟩),
    .ok (.bkpt ⟨⟨false, 0, 7, 7, false⟩, 0, 7⟩),
    .ok (.rtt ⟨⟨false, 0, 7, 7, false⟩, 0, 0⟩)] := rfl

/-- The immediate, literal and paired forms of R36, R37 and R39, an opcode that R55 leaves unassigned, and the Tack words of R102. -/
theorem test_decode_forms :
    decode (.belga 0x0F003808040003E8 none) = .ok (.iadd ⟨⟨false, 0, 7, 7, false⟩, 4, 4, .imm 1000, 0, 0⟩) ∧
    decode (.belga 0x0F80380A06FF8000 (some 0x12345678)) = .ok (.iadd ⟨⟨false, 0, 7, 7, false⟩, 5, 6, .lit 0x1FF 0x12345678, 0, 0⟩) ∧
    decode (.belga 0x0E8004084800D20A none) = .ok (.pairedWord ⟨false, 0, 7, false, ⟨.iadd, 8, 1, 9⟩, ⟨.iadd, 13, 2, 10⟩⟩) ∧
    decode (.belga 0x0E7FF80000000000 none) = .ok (.unassignedOpcode 0x0E7FF80000000000) ∧
    [0x0005B50B, 0x00C5850B, 0x0073128B, 0x0005A50B].map (fun w => decode (.tack w)) =
      [.ok (.dispatch 10 11), .ok (.rfetch 10 11 12), .ok (.bfex 5 6 7), .ok (.sigwait 10 11 0)] := by
  refine ⟨rfl, rfl, ?_, rfl, rfl⟩
  rfl

/-! ### Small states -/

namespace Tests

open Machine

/-- A package in which one unit of four lanes has its turn at word w, every feature negotiated, its lanes holding main registers; clause
headers of class ANY stand around the word. -/
def testState (w : Nat) (v : Nat → List (Nat × Word)) (unit : WorkUnit → WorkUnit) (rest : State → State) : State :=
  let s := State.reset.withFetchWord 64 w
  let header := fun (m : List Host.Cell) (a : Nat) => sparseWrite m a (natLe 8 0xC500000020000060)
  let s := { s with mem := [0x40000, 0x40020, 0x40040, 0x40100, 0x40200, 0x40300].foldl header s.mem }
  rest { s.modifyUnit 1 (fun u => unit { u with slices := u.slices.map fun sl =>
           { sl with lanes := sl.lanes.mapIdx fun j ln => { ln with v := (v j).map fun e => (e.1, ⟨e.2, 0⟩) } } }) with
         cur := ⟨1, 0, 0⟩, features := 0x7F1, negotiated := true, n := 384, agenda := [] }

/-- The gang whose turn it is. -/
def testGang (s : State) : Gang := s.gang.getD ⟨s.cur, default, default, default, []⟩

theorem gang_of {s : State} (h : s.gang.isSome = true) : s.gang = some (testGang s) := by
  unfold testGang
  cases h' : s.gang with
  | none => simp [h'] at h
  | some g => rfl

/-- The state an outcome comes to. -/
def testNext (o : Host.Outcome State Fault Refusal) : State := match o with | .next t => t | _ => State.reset

/-- Lane j of the unit. -/
def testLane (s : State) (j : Nat) : Lane := ((s.unit? 1).getD default).lane 0 j

/-- The guard p7, no scoreboard, no other field. -/
def plain : Common := ⟨false, 0, 7, 7, false⟩

/-! ### Checks that stand for the statements' hypotheses -/

def laneCheck (x : LaneInstr) (s : State) (g : Gang) : Bool :=
  s.featureOk x.opc && g.classOk x.opc (sourceWords x.word.srcB) && !x.reserved s g && !x.illegal s g &&
  decide (g.badReaders (x.lanes s g) (x.op s g).regs = []) && decide (∀ y ∈ x.lanes s g, (x.op s g).mismatch g y = none) &&
  !g.sbFull x.word.c.sb (x.lanes s g)

theorem fits_of {x : LaneInstr} {s : State} {g : Gang} (h : laneCheck x s g = true) : x.Fits s g := by
  simp only [laneCheck, Bool.and_eq_true, Bool.not_eq_true', decide_eq_true_eq] at h
  obtain ⟨⟨⟨⟨⟨⟨a, b⟩, c⟩, d⟩, e⟩, f⟩, k⟩ := h
  exact ⟨a, b, c, d, e, f, k⟩

def onceCheck (s : State) (g : Gang) (opc : Nat) (w : StdWord) (e : AluEntry) : Bool :=
  let lanes := if e.once then (g.executing w.c).take 1 else g.executing w.c
  decide (g.executing w.c ≠ []) && s.featureOk opc && g.classOk opc (sourceWords w.srcB) && !(e.reserved || e.modBad w || !(e.op w).reservedOk) &&
  !(e.illegal || !(e.op w).specsOk g.head.regs) && decide (g.badReaders lanes (e.op w).regs = []) &&
  decide (∀ y ∈ lanes, (e.op w).mismatch g y = none) && !g.sbFull w.c.sb (g.executing w.c)

theorem onceFits_of {s : State} {g : Gang} {opc : Nat} {w : StdWord} {e : AluEntry} (h : onceCheck s g opc w e = true) : OnceFits s g opc w e := by
  simp only [onceCheck, Bool.and_eq_true, Bool.not_eq_true', decide_eq_true_eq] at h
  obtain ⟨⟨⟨⟨⟨⟨⟨a, b⟩, c⟩, d⟩, e⟩, f⟩, k⟩, l⟩ := h
  exact ⟨a, b, c, d, e, f, k, l⟩

theorem ctlFits_of {s : State} {g : Gang} {opc : Nat} {w : CtlWord} {p7 : Bool} {mods ofs : Nat}
    (h : (s.featureOk opc && g.classOk opc 1 && (!p7 || (decide (w.c.pred = 7) && !w.c.pneg)) && decide (w.m &&& (63 - mods) = 0) &&
      decide (w.ofs.toNat &&& (2 ^ 36 - 1 - ofs) = 0)) = true) : CtlFits s g opc w p7 mods ofs := by
  simp only [Bool.and_eq_true, Bool.or_eq_true, Bool.not_eq_true', decide_eq_true_eq] at h
  obtain ⟨⟨⟨⟨a, b⟩, c⟩, d⟩, e⟩ := h
  exact ⟨a, b, fun k => c.resolve_left (by simp [k]), d, e⟩

theorem memFits_of {s : State} {g : Gang} {opc : Nat} {w : MemWord} {A B : Prop} {reads : List Nat} {bad : Nat × Nat → Option Nat}
    (h : (decide (g.executing w.c ≠ []) && s.featureOk opc && g.classOk opc 1 && decide (g.badReaders (g.executing w.c) reads = []) &&
      decide (∀ x ∈ g.executing w.c, bad x = none) && !g.sbFull w.c.sb (g.executing w.c)) = true) (a : A) (b : B) :
    MemFits s g opc w A B reads bad := by
  simp only [Bool.and_eq_true, Bool.not_eq_true', decide_eq_true_eq] at h
  obtain ⟨⟨⟨⟨⟨c, d⟩, e⟩, f⟩, i⟩, j⟩ := h
  exact ⟨c, d, e, a, b, f, i, j⟩

/-! ### Words on lanes and control flow: states that meet the statements' hypotheses -/

/-- Four lanes with a and b in v2 and v3. -/
def regsState (w : Nat) (a b : Word) : State := testState w (fun _ => [(2, a), (3, b)]) id id

def iaddWord : StdWord := ⟨plain, 1, 2, .spec 3, 0, 0⟩

theorem witness_LaneWordsWriteTheirResults : ∃ (x : LaneInstr) (s : State) (g : Gang),
    laneInstr (.iadd iaddWord) = some x ∧ s.gang = some g ∧ x.Fits s g ∧ x.lanes s g ≠ [] :=
  ⟨_, regsState 0 7 8, testGang (regsState 0 7 8), rfl, rfl,
    fits_of (by decide +kernel), by decide +kernel⟩

/-- A word whose guard no lane meets; one whose opcode is off; one of another class; one with a reserved bit; one beyond its budget. -/
theorem witness_LaneWordsStepOnOrStopInOrder : ∃ (s t c : State) (g h k : Gang) (x off res ill : LaneInstr),
    s.gang = some g ∧ t.gang = some h ∧ c.gang = some k ∧
    laneInstr (.iadd { iaddWord with c := { plain with pred := 0 } }) = some x ∧ x.lanes s g = [] ∧
    laneInstr (.iadd iaddWord) = some off ∧ off.lanes s g ≠ [] ∧
    (s.featureOk off.opc = true ∧ k.classOk off.opc 1 = false ∧ off.lanes c k ≠ []) ∧
    laneInstr (.iadd { iaddWord with mod := 1 }) = some res ∧ (g.classOk res.opc 1 = true ∧ res.reserved s g = true) ∧
    laneInstr (.iadd { iaddWord with srcA := 256 }) = some ill ∧ (ill.reserved t h = false ∧ ill.illegal t h = false) ∧
    (∃ y, laneInstr (.iadd { iaddWord with dst := 0x1FF }) = some y ∧ y.reserved s g = false ∧ y.illegal s g = true) := by
  refine ⟨regsState 0 7 8, regsState 0 7 8,
    testState 0 (fun _ => []) (fun u => { u with slices := u.slices.map fun sl => { sl with clause := some ⟨0x10000, 1, 2⟩ } }) id,
    testGang (regsState 0 7 8), testGang (regsState 0 7 8), _, _, _, _, _, rfl, rfl, rfl, rfl, ?_, rfl, ?_, ?_, rfl, ?_, rfl, ?_, _, rfl, ?_⟩ <;> decide +kernel

/-- A lane word whose feature is off is one of a numbered feature; none of the lane words' opcodes is (R54), so that clause holds of none
of them: a word with a feature is checked by the same rule. -/
theorem test_featureOff : State.reset.featureOk 0x180 = false ∧ (regsState 0 0 0).featureOk 0x180 = true := by decide +kernel

def p0Lanes (u : WorkUnit) : WorkUnit :=
  { u with slices := u.slices.map fun sl => { sl with lanes := sl.lanes.mapIdx fun j ln => { ln with p := if j < 2 then 1 else 0 } } }

def branchState : State := testState 0 (fun _ => []) p0Lanes id

theorem witness_BranchesMoveTheirLanes : ∃ (s : State) (g : Gang), s.gang = some g ∧
    CtlFits s g 0x1C0 ⟨plain, 0, 4⟩ true 0 (2 ^ 36 - 1) ∧ s.destFault g.u.ctx (g.target 36 4) = none ∧
    CtlFits s g 0x1C1 ⟨{ plain with pred := 0 }, 0, 4 * 2 ^ 18 + 8⟩ false 0 (2 ^ 36 - 1) ∧ s.destFault g.u.ctx (g.target 18 4) = none ∧
    s.destFault g.u.ctx (g.target 18 8) = none ∧ ∀ p ∈ g.ps, (joined (g.u.slice p) (g.target 18 8)).length ≤ 32 :=
  ⟨branchState, testGang branchState, rfl, ctlFits_of (by decide +kernel), by decide +kernel,
    ctlFits_of (by decide +kernel), by decide +kernel, by decide +kernel, by decide +kernel⟩

/-- BRC: the lanes whose predicate holds go to the target, the others wait at the join (R190). -/
theorem test_brc_splits :
    ((testNext (exec (.brc ⟨{ plain with pred := 0 }, 0, 4 * 2 ^ 18 + 8⟩) branchState)).units.map fun u =>
      ((u.slice 0).pc, (u.slice 0).active, (u.slice 0).stack)) = [(0x10020, 3, [⟨.join, 0x10040, 15⟩])] := by decide +kernel

/-- Targets in v4:v5, the join in s0:s1; a header of four registers' budget stands at the targets. -/
def callState : State :=
  testState 0 (fun j => [(4, if j < 2 then 0x10100 else 0x10200), (6, 0x10100)])
    (fun u => { u with slices := u.slices.map fun sl => { sl with s := [(0, 0x10300)] } }) id

theorem witness_CallsAndReturnsMoveTheirLanes : ∃ (s : State) (g : Gang) (ts : Slice → List DWord),
    s.gang = some g ∧ g.activePlaces ≠ [] ∧ s.featureOk 0x110 = true ∧ g.classOk 0x110 1 = true ∧ g.classOk 0x111 1 = true ∧
    pairSpecOk g.head.regs 4 = true ∧ sRunOk 0x110 2 2 = true ∧ g.badReaders g.activePlaces [4, 5] = [] ∧
    (∀ x ∈ g.activePlaces, s.destFault g.u.ctx (pairAddress (g.u.slice x.1) 4 x.2) = none ∧
      s.destFault g.u.ctx (pairAddress (g.u.slice x.1) 0x110 0) = none ∧
      (s.fetch g.u.ctx (pairAddress (g.u.slice x.1) 4 x.2)).toOption.map (fun h => entryFault h g.head.regs) = some none) ∧
    (∀ p ∈ g.ps, (g.u.slice p).stack.length ≤ 28 ∧ (g.u.slice p).live ≠ 0 ∧
      ts (g.u.slice p) = [0x10100, 0x10200] ∧ ∀ j < 4, (pairAddress (g.u.slice p) 4 j) = if j < 2 then 0x10100 else 0x10200) ∧
    CtlFits s g 0x1C2 ⟨plain, 0, 0x20⟩ true 0 (2 ^ 36 - 1) ∧ s.destFault g.u.ctx (g.target 36 0x20) = none := by
  refine ⟨callState, testGang callState, fun _ => [0x10100, 0x10200], rfl, ?_, ?_, ?_, ?_, ?_, ?_, ?_, ?_, ?_, ?_, ?_⟩
  case refine_10 => exact ctlFits_of (by decide +kernel)
  all_goals decide +kernel

/-- BRX: the lowest target first, the other to resume, the join below (R191). -/
theorem test_brx_targets :
    ((testNext (exec (.brx ⟨plain, 0, 4, .spec 0x110, 0, 0⟩) callState)).units.map fun u =>
      ((u.slice 0).pc, (u.slice 0).active, (u.slice 0).stack)) =
      [(0x10100, 3, [⟨.resume, 0x10200, 12⟩, ⟨.join, 0x10300, 15⟩])] := by decide +kernel

def stackState : State :=
  testState 0 (fun _ => [])
    (fun u => { u with slices := u.slices.map fun sl => { sl with stack := [⟨.join, 0x10300, 15⟩, ⟨.ret, 0x10040, 15⟩] } }) id

theorem witness_RetWaitsInItsEntry : ∃ (s : State) (g : Gang), s.gang = some g ∧ CtlFits s g 0x1C3 ⟨plain, 0, 0⟩ true 0 0 ∧
    ∀ p ∈ g.ps, ∃ above r below, (g.u.slice p).stack = above ++ r :: below ∧ r.kind = .ret ∧ ∀ e ∈ above, e.kind ≠ .ret :=
  ⟨stackState, testGang stackState, rfl, ctlFits_of (by decide +kernel), fun p hp =>
    ⟨[⟨.join, 0x10300, 15⟩], ⟨.ret, 0x10040, 15⟩, [], by
      have : p = 0 := by revert hp; revert p; decide
      subst this; exact ⟨by decide +kernel, rfl, by decide +kernel⟩⟩⟩

theorem witness_ExitsEndLanesAndUnits : ∃ (s : State) (g : Gang) (t : State) (u : WorkUnit) (l : Launch),
    s.gang = some g ∧ CtlFits s g 0x1C4 ⟨plain, 0, 0⟩ false 0 0 ∧ g.fenceTrap (g.executing plain) = none ∧
    CtlFits s g 0x1C7 ⟨plain, 0, 0⟩ true 0 0 ∧ CtlFits s g 0x1C6 ⟨plain, 0, 0⟩ true 0 0 ∧
    t.unit? 1 = some u ∧ t.launch? u.die u.lslot = some l ∧ u.residence = .resident ∧ u.slices.all Slice.hasExited = true ∧ u.det = false := by
  refine ⟨branchState, testGang branchState,
    testState 0 (fun _ => []) (fun u => { u with slices := u.slices.map fun sl => { sl with exited := 15, active := 0 } }) id, _, _, rfl,
    ctlFits_of (by decide +kernel), ?_, ctlFits_of (by decide +kernel),
    ctlFits_of (by decide +kernel), rfl, rfl, ?_, ?_, ?_⟩ <;> decide +kernel

/-- EXIT of every lane ends the unit and is counted (R195, R196). -/
theorem test_exit_ends : let t := testNext (exec (.exit ⟨plain, 0, 0⟩) branchState)
    (t.units.map (·.residence), t.launches.map (·.exited)) = ([.exited], [1]) := by decide +kernel

/-- Two gangs of one home gang at one place: the first takes in the second. -/
def gangsState : State :=
  testState 0xE71780000000000 (fun _ => []) (fun u => { u with nextIg := 2, nlanes := 8, slices :=
    u.slices ++ (u.slices.map fun sl => { sl with idx := 1, ig := 1 }) }) id

theorem witness_RegangFusesIssueGangs : ∃ (s : State) (g : Gang) (cl : Clause), s.gang = some g ∧
    CtlFits s g 0x1C5 ⟨plain, 0, 0⟩ true 0 0 ∧ g.head.clause = some cl ∧ ((s.headerAt g.u.ctx cl.header).any fun h =>
      g.u.absorbable (fun home _ => s.throttledHome g.u home) g.pc cl h.wait (g.u.slice 1)) = true :=
  ⟨gangsState, testGang gangsState, _, rfl, ctlFits_of (by decide +kernel), rfl, by decide +kernel⟩

/-- REGANG: the other gang's slice joins the issuing gang (R154). -/
theorem test_regang : ((testNext (exec (.regang ⟨plain, 0, 0⟩) gangsState)).units.map fun u => u.slices.map (·.ig)) = [[0, 0]] := by
  decide +kernel

/-- The gang stands at a header, has yielded, and another gang of its pipeline is ready. -/
def yieldState : State :=
  testState 0 (fun _ => []) (fun u => { u with nextIg := 2, nlanes := 8, slices :=
    (u.slices.map fun sl => { sl with pc := 0x10000, clause := none, yieldTo := some [] }) ++
    (u.slices.map fun sl => { sl with idx := 1, ig := 1, pc := 0x10040, clause := none }) }) id

theorem witness_YieldHoldsTheNextClause : ∃ (s : State) (g : Gang), s.gangOf g.ref = some g ∧ (g.clauseHeader s).isOk = true ∧
    s.yieldHeld g.u g.ref.home g.ref.ig = true := by
  refine ⟨yieldState, testGang yieldState, ?_, ?_⟩
  · exact gang_of (by decide +kernel)
  · decide +kernel

/-! ### Traps, flags, pairs, cohorts and waits -/

/-- Every cause has its handler at 0x10100; entry 0 enables every flag. -/
def vectored (s : State) : State :=
  { s with launches := s.launches.map fun l => { l with vectors := 0x9F :: List.replicate 127 0x10100 } }

def trapState : State := testState 0 (fun _ => []) id vectored

theorem witness_TakingATrapStartsOrAborts : ∃ (s t n : State) (g h k : Gang) (tr : Trap),
    s.gang = some g ∧ g.holding tr.lanes ≠ [] ∧ (∀ p ∈ g.holding tr.lanes, (g.u.slice p).inTrap = false) ∧
    wordOf g.l.vectors tr.cause.code = 0x10100 ∧ (s.fetch g.u.ctx 0x10100).toOption = some 0xC500000020000060 ∧
    headerFault 0xC500000020000060 = none ∧ entryFault 0xC500000020000060 g.u.regs = none ∧
    t.gang = some h ∧ h.holding tr.lanes ≠ [] ∧ (∀ p ∈ h.holding tr.lanes, (h.u.slice p).inTrap = false) ∧
    wordOf h.l.vectors tr.cause.code = 0 ∧ ((t.launch? h.u.die h.u.lslot).map (·.abort)) = some none ∧
    n.gang = some k ∧ k.holding tr.lanes ≠ [] ∧ (∃ p ∈ k.holding tr.lanes, (k.u.slice p).inTrap = true) ∧
    ((n.launch? k.u.die k.u.lslot).map (·.abort)) = some none := by
  refine ⟨trapState, branchState, testState 0 (fun _ => []) (fun u => { u with slices := u.slices.map fun sl => { sl with inTrap := true } }) id,
    testGang trapState, testGang branchState, testGang (testState 0 (fun _ => [])
      (fun u => { u with slices := u.slices.map fun sl => { sl with inTrap := true } }) id),
    (testGang trapState).trapAt .softTrap 1 0, rfl, ?_, ?_, ?_, ?_, ?_, ?_, rfl, ?_, ?_, ?_, ?_, rfl, ?_, ?_, ?_⟩ <;> decide +kernel

/-- TRAP: the record, the saved place past the word, and the handler (R410, R411, R418). -/
theorem test_trap_enters : ((testNext (exec (.trap ⟨plain, 0, 0x1234⟩) trapState)).units.map fun u =>
    ((u.slice 0).fltcause, (u.slice 0).fltlanes, (u.slice 0).fltpc, [(u.slice 0).tpc, (u.slice 0).pc], (u.lane 0 2).fltInfo)) =
      [(0x71, 15, 0x10008, [0x10010, 0x10100], 0x1234)] := by decide +kernel

def flagState : State := testState 0 (fun _ => [(1, 0x13)]) (fun u => { u with slices := u.slices.map fun sl =>
  { sl with lanes := sl.lanes.map fun ln => { ln with flags := 0x13 } } }) vectored

theorem witness_TrapWordsAndFencesTrap : ∃ (s f : State) (g h : Gang), s.gang = some g ∧ f.gang = some h ∧
    (CtlFits s g 0x1E0 ⟨plain, 0, 0⟩ true 0 0 ∧ (∀ p ∈ g.ps, (g.u.slice p).pend = []) ∧ (g.fenceTrap g.activePlaces).isNone = true) ∧
    (CtlFits s g 0x1E1 ⟨plain, 0, 0xFFFF⟩ false 0 0xFFFF ∧ g.executing plain ≠ []) ∧
    (CtlFits s g 0x1E2 ⟨plain, 0, 0xFFFF⟩ false 0 0xFFFF ∧ wordOf g.l.vectors 0x70 ≠ 0) ∧
    g.executing { plain with pneg := true } = [] ∧ wordOf (testGang branchState).l.vectors 0x70 = 0 ∧
    g.rawLanes 0x0E03380000000000 ≠ [] ∧ g.rawLanes 0x0E033C0000000000 = [] ∧
    ((wordOf h.l.vectors 0).getLsbD 0 = true ∧ ∃ x ∈ h.activePlaces, (h.u.slice x.1).inTrap = false ∧ (h.u.lane x.1 x.2).flags.getLsbD 0 = true) := by
  refine ⟨trapState, flagState, testGang trapState, testGang flagState, rfl, rfl,
    ⟨ctlFits_of (by decide +kernel), by decide +kernel, by decide +kernel⟩,
    ⟨ctlFits_of (by decide +kernel), by decide +kernel⟩,
    ⟨ctlFits_of (by decide +kernel), by decide +kernel⟩, ?_, ?_, ?_, ?_, ?_⟩ <;> decide +kernel

/-- TFENCE: the least enabled flag traps, FP_INVALID before FP_DIVZERO (R408, R409). -/
theorem test_tfence_traps : ((testNext (exec (.tfence ⟨plain, 0, 0⟩) flagState)).units.map fun u => ((u.slice 0).fltcause, (u.slice 0).fltlanes)) =
    [(0x30, 15)] := by decide +kernel

def handlerState : State := testState 0 (fun _ => []) (fun u => { u with slices := u.slices.map fun sl =>
  { sl with inTrap := true, tpc := 0x10040, tmask := 7, tregs := 128, tclause := none } }) vectored

theorem witness_RttRestoresWhatTheTrapSaved : ∃ (s : State) (g : Gang), s.gang = some g ∧ CtlFits s g 0x1E3 ⟨plain, 0, 0⟩ true 1 0 ∧
    CtlFits s g 0x1E3 ⟨plain, 1, 0⟩ true 1 0 ∧ ∀ p ∈ g.ps, (g.u.slice p).inTrap = true :=
  ⟨handlerState, testGang handlerState, rfl, ctlFits_of (by decide +kernel),
    ctlFits_of (by decide +kernel), by decide +kernel⟩

/-- RTT: mask, budget and place as the trap saved them (R416). -/
theorem test_rtt : ((testNext (exec (.rtt ⟨plain, 0, 0⟩) handlerState)).units.map fun u =>
    ((u.slice 0).inTrap, (u.slice 0).pc, (u.slice 0).active, (u.slice 0).regs)) = [(false, 0x10040, 7, 128)] := by decide +kernel

def pendState : State := testState 0 (fun _ => []) (fun u => { u with slices := u.slices.map fun sl =>
  { sl with pend := [⟨9, 0, .ready, [], 0, [], true⟩], sb := [1, 0, 0, 0, 0, 0, 0] } }) id

/-- FSTAT with v1 as the clear mask. -/
def fstatWord (m : BitVec 6) : StdWord := ⟨plain, 5, if m = 2 then 1 else 0, .spec 0, 0, m⟩

theorem witness_FstatReadsAndClearsFlags : ∃ (s t : State) (g h : Gang), s.gang = some g ∧ t.gang = some h ∧
    LaneInstr.Fits ⟨0x0C3, fstatWord 0, fun _ _ => fstatEntry (fstatWord 0)⟩ s g ∧
    LaneInstr.Fits ⟨0x0C3, fstatWord 2, fun _ _ => fstatEntry (fstatWord 2)⟩ s g ∧ (∀ p ∈ g.ps, (g.u.slice p).pend = []) ∧
    LaneInstr.Fits ⟨0x0C3, fstatWord 0, fun _ _ => fstatEntry (fstatWord 0)⟩ t h ∧ (∃ p ∈ h.ps, (h.u.slice p).pend ≠ []) ∧
    LaneInstr.lanes ⟨0x0C3, fstatWord 0, fun _ _ => fstatEntry (fstatWord 0)⟩ t h ≠ [] := by
  refine ⟨flagState, pendState, testGang flagState, testGang pendState, rfl, rfl,
    fits_of (by decide +kernel),
    fits_of (by decide +kernel), ?_,
    fits_of (by decide +kernel), ?_, ?_⟩ <;>
  decide +kernel

theorem witness_PairedMatchAndReduxGiveResults : ∃ (s : State) (g : Gang) (w : PairWord), s.gang = some g ∧ w.rsv = false ∧
    pairConflict w = false ∧ s.featureOk (pairEntry w.first.op).1 = true ∧ g.classOk (pairEntry w.first.op).1 1 = true ∧
    (∀ op ∈ [halfOp w.first, halfOp w.second], op.specsOk g.head.regs = true ∧ g.badReaders g.activePlaces op.regs = [] ∧
      ∀ y ∈ g.activePlaces, op.mismatch g y = none) ∧ g.sbFull w.sb g.activePlaces = false ∧
    LaneInstr.Fits ⟨0x10C, ⟨{ plain with sb := 1 }, 5, 2, .spec 3, 0, 0⟩, fun _ _ => matchLanesEntry ⟨{ plain with sb := 1 }, 5, 2, .spec 3, 0, 0⟩ g⟩ s g ∧
    LaneInstr.Fits ⟨0x10D, ⟨{ plain with sb := 1 }, 5, 2, .spec 3, 0, 0⟩, fun _ _ => reduxEntry ⟨{ plain with sb := 1 }, 5, 2, .spec 3, 0, 0⟩ g⟩ s g := by
  refine ⟨regsState 0 7 15, testGang (regsState 0 7 15), ⟨false, 0, 7, false, ⟨.iadd, 4, 2, 3⟩, ⟨.imul, 5, 2, 3⟩⟩, rfl, ?_, ?_, ?_, ?_, ?_, ?_,
    fits_of (by decide +kernel),
    fits_of (by decide +kernel)⟩ <;>
  decide +kernel

/-- Barrier slots in bank 0 of core 0, and the unit's barrier slots and tags. -/
def slotsState (v : Nat → List (Nat × Word)) (slots : List (Nat × BarrierSlot)) (unit : WorkUnit → WorkUnit) (rest : State → State) : State :=
  testState 0 v (fun u => unit { u with bslots := slots.map (·.1), cohs := slots.length - 1 })
    fun s => rest (s.modifyCore 0 fun c => { c with bank0 := { emptyBank with barriers := slots } })

def ownSlot : BarrierSlot := ⟨0, 1, 0, false, true⟩

/-- v2 holds a; slot 1 is the unit's cohort slot x. -/
def cohortState (a : Word) (x : BarrierSlot) : State := slotsState (fun _ => [(2, a)]) [(0, ownSlot), (1, x)] id id

/-- A unit of another launch beside it, with slot 3 as its cohort slot. -/
def foreignState (slot : Nat) : State :=
  slotsState (fun _ => [(2, 3)]) [(0, ownSlot)] id fun s =>
    { (s.modifyCore 0 fun c => { c with bank0 := { emptyBank with barriers := [(0, ownSlot), (2, ⟨1, 2, 0, false, true⟩), (3, ⟨1, 3, 0, false, true⟩)] } }) with
      units := s.units ++ (s.units.map fun u => { u with uid := 7, lslot := slot, slots := [1], bslots := [2, 3] })
      launches := s.launches ++ (s.launches.map fun l => { l with slot := slot + 1 }) }

def cohortWord : StdWord := ⟨plain, 1, 2, .spec 0, 0, 0⟩

def cohortFits (s : State) (opc : Nat) : Bool := laneCheck ⟨opc, cohortWord, fun _ _ => cohortEntry cohortWord (testGang s).head.regs⟩ s (testGang s)

/-- The gang of slot 5 has acted in this cycle. -/
def actedState (s : State) : State :=
  s.modifyCore 0 fun c => { c with bank0 := { c.bank0 with lastOp := some (s.clock, 5) } }

theorem witness_CohortWordsActOnce :
    let slot := fun (s : State) n => (s.bank 0 0).slot n
    let found := fun (s : State) a => (s.cohortSlot (testGang s) a).map fun x => (x.1, x.2.uid, x.2.lslot)
    (∃ s, s.gang = some (testGang s) ∧ (testGang s).executing cohortWord.c = [(0, 0), (0, 1), (0, 2), (0, 3)] ∧ cohortFits s 0x118 = true ∧
      1 ∈ (testGang s).u.bslots.drop 1 ∧ (slot s 1).live = false) ∧
    (∃ s, s.gang = some (testGang s) ∧ cohortFits s 0x118 = true ∧ (∀ n ∈ (testGang s).u.bslots.drop 1, (slot s n).live = true) ∧
      cohortFits s 0x119 = true ∧ cohortFits s 0x11A = true ∧ cohortFits s 0x11B = true ∧ found s 1 = some (1, 1, 0) ∧
      (slot s 1).members &&& ~~~(slotBit (testGang s).slot) ≠ 0 ∧ (slot s 1).members.getLsbD (testGang s).slot = true) ∧
    (∃ s, s.gang = some (testGang s) ∧ cohortFits s 0x11A = true ∧ cohortFits s 0x119 = true ∧ found s 1 = some (1, 1, 0) ∧
      (slot s 1).members.getLsbD (testGang s).slot = false ∧ (slot s 1).members &&& ~~~(slotBit (testGang s).slot) = 0) ∧
    (∃ s, s.gang = some (testGang s) ∧ cohortFits s 0x119 = true ∧ found s 9 = none) ∧
    (∃ s, s.gang = some (testGang s) ∧ cohortFits s 0x119 = true ∧ found s 3 = some (3, 7, 0)) ∧
    (∃ s, s.gang = some (testGang s) ∧ cohortFits s 0x118 = true ∧ (s.bank 0 0).lastOp = some (s.clock, 5) ∧ (testGang s).slot < 5) ∧
    ∃ s, s.gang = some (testGang s) ∧ cohortFits s 0x11A = true ∧ found s 3 = some (3, 7, 1) := by
  refine ⟨⟨cohortState 1 ⟨0, 0, 0, false, false⟩, rfl, ?_⟩, ⟨cohortState 1 ⟨0, 3, 0, false, true⟩, rfl, ?_⟩,
    ⟨cohortState 1 ⟨0, 0, 0, false, true⟩, rfl, ?_⟩, ⟨cohortState 9 ⟨0, 3, 0, false, true⟩, rfl, ?_⟩, ⟨foreignState 0, rfl, ?_⟩,
    ⟨actedState (cohortState 1 ⟨0, 0, 0, false, false⟩), rfl, ?_⟩, ⟨foreignState 1, rfl, ?_⟩⟩ <;> decide +kernel

/-- COHNEW answers the slot, tagged n32; its members are the slots the operand names that the launch's units hold (R199). -/
theorem test_cohnew : (testLane (testNext (exec (.cohnew cohortWord) (cohortState 1 ⟨0, 0, 0, false, false⟩))) 3).getV 1 = ⟨1, 2⟩ := by decide +kernel

def waitIs (x : Wait) (u : WorkUnit) : WorkUnit := { u with slices := u.slices.map fun sl => { sl with wait := x } }
def arrived (n : Nat) (u : WorkUnit) : WorkUnit := { u with slices := u.slices.map fun sl => { sl with arrivals := [(n, false)] } }

def barState (unit : WorkUnit → WorkUnit) : State := slotsState (fun _ => [(2, 1)]) [(0, ⟨0, 3, 0, false, true⟩), (1, ⟨0, 3, 0, false, true⟩)] unit id

theorem witness_BarrierWordsArriveAndPhasesEnd : ∃ (s t d c : State) (g h k m : Gang), s.gang = some g ∧ t.gang = some h ∧ d.gang = some k ∧ c.gang = some m ∧
    (CtlFits s g 0x1D0 ⟨plain, 0, 0⟩ true 0 0 ∧ CtlFits s g 0x1D1 ⟨plain, 0, 0⟩ true 0 0 ∧ CtlFits s g 0x1D2 ⟨plain, 0, 0⟩ true 0 0) ∧
    (∀ p ∈ g.ps, (g.u.slice p).wait = .none ∧ ∀ a ∈ (g.u.slice p).arrivals, a.1 ≠ g.u.bslots.headD 0) ∧
    (CtlFits t h 0x1D0 ⟨plain, 0, 0⟩ true 0 0 ∧ CtlFits t h 0x1D1 ⟨plain, 0, 0⟩ true 0 0 ∧ CtlFits t h 0x1D2 ⟨plain, 0, 0⟩ true 0 0) ∧
    (∀ p ∈ h.ps, (h.u.slice p).wait = .none ∧ ∃ a ∈ (h.u.slice p).arrivals, a.1 = h.u.bslots.headD 0) ∧
    (CtlFits d k 0x1D0 ⟨plain, 0, 0⟩ true 0 0 ∧ ∀ p ∈ k.ps, (k.u.slice p).wait = .done) ∧
    (∃ v, v.gang = some (testGang v) ∧ CtlFits v (testGang v) 0x1D0 ⟨plain, 0, 0⟩ true 0 0 ∧
      ∃ p ∈ (testGang v).ps, ((testGang v).u.slice p).wait.isWaiting = true) ∧
    (s.featureOk 0x11C = true ∧ g.classOk 0x11C 1 = true ∧ g.activePlaces ≠ [] ∧ srcSpecOk g.head.regs false false 2 = true ∧
      g.badReaders g.activePlaces [2] = []) ∧
    (let bank := s.bank g.u.core g.u.bank; (bank.slot 1).live = true ∧ (bank.slot 1).members.getLsbD g.slot = true ∧ (bank.slot 2).live = false) ∧
    (∃ p ∈ m.ps, ∃ a ∈ (m.u.slice p).arrivals, a.1 = 1) ∧ (∃ u, s.unit? 1 = some u) := by
  refine ⟨barState id, barState (arrived 0), barState (waitIs .done), barState (arrived 1), testGang (barState id),
    testGang (barState (arrived 0)), testGang (barState (waitIs .done)), testGang (barState (arrived 1)), rfl, rfl, rfl, rfl,
    ⟨ctlFits_of ?_, ctlFits_of ?_, ctlFits_of ?_⟩, ?_, ⟨ctlFits_of ?_, ctlFits_of ?_, ctlFits_of ?_⟩, ?_, ⟨ctlFits_of ?_, ?_⟩,
    ⟨barState (waitIs (.barrier 0 false none)), rfl, ctlFits_of ?_, ?_⟩, ?_, ?_, ?_, _, rfl⟩ <;>
  decide +kernel

/-- BAR of the only member ends the phase at once: the slot's phase turns and the gang goes on (R392, R393). -/
theorem test_bar_phase : let t := testNext (exec (.bar ⟨plain, 0, 0⟩) (slotsState (fun _ => []) [(0, ownSlot)] id id))
    (((t.bank 0 0).slot 0).phase, ((t.bank 0 0).slot 0).arrived, t.units.map fun u => (u.slice 0).wait) = (true, 0, [.done]) := by decide +kernel

def launchIs (f : Launch → Launch) (s : State) : State := { s with launches := s.launches.map f }
def ticketState (f : Launch → Launch) : State := testState 0 (fun _ => []) id (launchIs f)

def ticketFits (s : State) (g : Gang) : Prop :=
  s.gang = some g ∧ g.executing plain ≠ [] ∧ s.featureOk 0x11D = true ∧ g.classOk 0x11D 1 = true ∧ g.sbFull 7 (g.executing plain) = false ∧
    CtlFits s g 0x1D3 ⟨plain, 0, 0⟩ true 0 0

theorem witness_TicketsKeepTheirOrder : ∃ (s t a e : State) (g h k m : Gang),
    (ticketFits s g ∧ g.l.kind < 2 ∧ g.l.abort = none ∧ g.l.turn = BitVec.ofNat 64 g.u.unitId) ∧
    (ticketFits t h ∧ h.l.kind < 2 ∧ h.l.abort = none ∧ h.l.turn ≠ BitVec.ofNat 64 h.u.unitId) ∧
    (ticketFits a k ∧ k.l.kind < 2 ∧ k.l.abort ≠ none) ∧ (ticketFits e m ∧ 2 ≤ m.l.kind) ∧
    (∃ (l : Launch) (x : List Nat) (n : DWord), n.toNat + x.length + (l.frontier.map (·.completed)).getD 0 < 2 ^ 64 ∧ x = [1, 2] ∧ n = 1) := by
  refine ⟨ticketState id, ticketState fun l => { l with turn := 5 }, ticketState fun l => { l with abort := some (⟨1, 1, 0⟩, 0, 0, 0) },
    ticketState fun l => { l with words := 6 :: List.replicate 15 0 }, testGang (ticketState id), testGang (ticketState fun l => { l with turn := 5 }),
    testGang (ticketState fun l => { l with abort := some (⟨1, 1, 0⟩, 0, 0, 0) }),
    testGang (ticketState fun l => { l with words := 6 :: List.replicate 15 0 }), ⟨⟨rfl, ?_, ?_, ?_, ?_, ctlFits_of ?_⟩, ?_⟩,
    ⟨⟨rfl, ?_, ?_, ?_, ?_, ctlFits_of ?_⟩, ?_⟩, ⟨⟨rfl, ?_, ?_, ?_, ?_, ctlFits_of ?_⟩, ?_⟩, ⟨⟨rfl, ?_, ?_, ?_, ?_, ctlFits_of ?_⟩, ?_⟩,
    (default : Launch), [1, 2], 1, ?_⟩ <;> decide +kernel

/-- TKPASS: the turn passes over units that have exited (R397, R398). -/
theorem test_tkpass : (testNext (exec (.tkpass ⟨plain, 0, 0⟩) (testState 0 (fun _ => []) id fun s => { s with units :=
    s.units ++ (s.units.map fun u => { u with uid := 5, unitId := 1, residence := .exited }) }))).launches.map (·.turn) = [2] := by decide +kernel

def detState (kind : DWord) (unit : WorkUnit → WorkUnit) : State :=
  testState 0 (fun _ => []) (fun u => unit { u with det := true }) (launchIs fun l => { l with words := kind :: List.replicate 15 0 })

theorem witness_DmergeEndsTheInterval : ∃ (s t r : State) (g h : Gang) (u : WorkUnit) (l : Launch), s.gang = some g ∧ t.gang = some h ∧
    (CtlFits s g 0x1D4 ⟨plain, 0, 0⟩ true 0 0 ∧ g.u.det = false) ∧
    (CtlFits t h 0x1D4 ⟨plain, 0, 0⟩ true 0 0 ∧ h.u.det = true ∧ h.l.kind < 2 ∧ h.head.wait ≠ .done ∧ h.head.wait.isWaiting = false) ∧
    (r.unit? h.u.uid = some u ∧ r.launch? u.die u.lslot = some l ∧ l.kind = 1 ∧ u.residence = .resident ∧ u.running ≠ [] ∧
      u.running.all (·.dmergeAt) = true ∧ u.running.all (fun sl => sl.ocloseAt == none) = true) := by
  refine ⟨branchState, detState 0 id,
    detState 2 (fun u => { u with slices := u.slices.map fun sl => { sl with dmergeAt := true, wait := .merge 0 } }),
    testGang branchState, testGang (detState 0 id), _, _, rfl, rfl, ⟨ctlFits_of ?_, ?_⟩, ⟨ctlFits_of ?_, ?_⟩, ⟨rfl, rfl, ?_⟩⟩ <;> decide +kernel

/-! ### Tags -/

/-- Tag 0 has 3 of 3, tag 1 has 1 of 2; v2 and v3 as given. -/
def tagState (a b : Word) (f : TagState → TagState) : State :=
  testState 0 (fun _ => [(2, a), (3, b)]) (fun u => { u with ntags := 2, tags := [f ⟨3, 3, 0, none, false⟩, ⟨2, 1, 0, none, false⟩] }) id

def tagWord (m : BitVec 6) : StdWord := ⟨plain, 0, 2, .spec 3, 0, m⟩
def waitWord (d : BitVec 9) (m : BitVec 6) : StdWord := ⟨{ plain with sb := 0 }, d, 2, .spec 0, 0, m⟩
def tagEntry : AluEntry := { once := true, dst := .unused, a := src32 anyTag, b := src32 anyTag, fn := fun _ _ _ _ _ => {} }
def waitEntry (d : Dst) : AluEntry := { once := true, mods := 1, dst := d, a := src64 anyTag, fn := fun _ _ _ _ _ => {} }

theorem witness_TagsAreArmedAndWaitedFor : ∃ (s b f o : State) (g h k q : Gang), s.gang = some g ∧ b.gang = some h ∧ f.gang = some k ∧ o.gang = some q ∧
    OnceFits s g 0x18B (tagWord 0) tagEntry ∧ onceValue g (tagWord 0) false (.spec 2) < g.u.ntags ∧ g.ref.home = g.u.pgang ∧
    (g.u.tag 0).infl = 0 ∧ (g.u.tag 0).c = (g.u.tag 0).e ∧ (g.u.tag 0).fail = none ∧
    OnceFits b h 0x18B (tagWord 0) tagEntry ∧ onceValue h (tagWord 0) false (.spec 2) = 1 ∧ (h.u.tag 1).c ≠ (h.u.tag 1).e ∧ (h.u.tag 1).faulted = false ∧
    OnceFits o q 0x18B (tagWord 0) tagEntry ∧ q.ref.home ≠ q.u.pgang ∧
    (OnceFits s g 0x18C (waitWord 0 0) (waitEntry .unused) ∧ OnceFits s g 0x18E (waitWord 4 0) (waitEntry .field) ∧
      OnceFits s g 0x18F (waitWord 4 1) (waitEntry .field) ∧ vRunOk g.head.regs 4 2 2 = true) ∧
    maskList 64 (onceValue h (waitWord 0 0) true (.spec 2)) = [0] ∧ (h.u.tag 0).ready = true ∧
    (OnceFits f k 0x18C (waitWord 0 0) (waitEntry .unused) ∧ maskList 64 (onceValue k (waitWord 0 0) true (.spec 2)) = [0] ∧
      (k.u.tag 0).fail = some .pageNotPresent) ∧
    maskList 64 (onceValue (testGang (tagState 2 0 id)) (waitWord 0 0) true (.spec 2)) = [1] ∧ ((testGang (tagState 2 0 id)).u.tag 1).ready = false := by
  let other := testState 0 (fun _ => [(2, 0), (3, 4)]) (fun u => { u with pgang := 1, ntags := 2, tags := [⟨3, 3, 0, none, false⟩, ⟨2, 1, 0, none, false⟩] }) id
  let failed := tagState 1 0 fun t => { t with fail := some .pageNotPresent, faulted := true }
  refine ⟨tagState 0 4 id, tagState 1 0 id, failed, other, testGang (tagState 0 4 id), testGang (tagState 1 0 id), testGang failed, testGang other,
    rfl, rfl, rfl, rfl, onceFits_of ?_, ?_, ?_, ?_, ?_, ?_, onceFits_of ?_, ?_, ?_, ?_, onceFits_of ?_, ?_,
    ⟨onceFits_of ?_, onceFits_of ?_, onceFits_of ?_, ?_⟩, ?_, ?_, ⟨onceFits_of ?_, ?_, ?_⟩, ?_, ?_⟩ <;> decide +kernel

/-- TAGEXP: the expected count, the count cleared (R303). -/
theorem test_tagexp : (testNext (exec (.tagexp (tagWord 0)) (tagState 0 4 id))).units.map (fun u => (u.tag 0).e) = [4] := by decide +kernel

/-- TFIRST: the lowest ready tag in the mask of both (R305). -/
theorem test_tfirst : (testNext (exec (.tfirst (waitWord 4 0)) (tagState 3 0 id))).units.map (fun u => ((u.slice 0).pend.map fun r =>
    r.writes.map fun x => (x.reg, x.val.val))) = [[[(4, 0), (4, 0), (4, 0), (4, 0)]]] := by decide +kernel

/-! ### Memory: states that meet the statements' hypotheses -/

/-- Store an 8-byte number at a place of this chip's HBM. -/
def put8 (loc v : Nat) (s : State) : State := { s with mem := sparseWrite s.mem (s.fab loc) (natLe 8 v) }

/-- Root entry 1 and level-2 entry 1 are malformed, level-2 entry 2 a 512 MiB leaf, entry 3 absent, entry 4 a leaf that is misaligned; level-3
entry 2 is malformed, 3 read only, 4 at a hole, 5 a table entry. -/
def walkState : State :=
  testState 0 (fun _ => []) id fun s => put8 0x10008 0x41 (put8 0x20008 0x41 (put8 0x20010 0x20000007 (put8 0x30010 0x83
    (put8 0x30018 0x50003 (put8 0x30020 (0xC0000000000 + 0xF) s)))))

theorem witness_TranslationWalksTheTables : ∃ (s : State) (c : Context) (e1 t1 t2 : Nat), s.context 1 = some c ∧ c.root = 0x10000 ∧
    let entry := fun table i => s.natAt (s.chip * 2 ^ 48 + table + 8 * i) 8
    (entry c.root 2).testBit 0 = false ∧ (entry c.root 1).testBit 0 = true ∧ tableEntryOk (entry c.root 1) = false ∧
    e1 = entry c.root 0 ∧ (e1.testBit 0 = true ∧ e1.testBit 1 = false ∧ tableEntryOk e1 = true) ∧ t1 = e1 / 2 ^ 16 % 2 ^ 32 * 65536 ∧
    (entry t1 3).testBit 0 = false ∧ ((entry t1 1).testBit 0 = true ∧ (entry t1 1).testBit 1 = false ∧ tableEntryOk (entry t1 1) = false) ∧
    ((entry t1 2).testBit 1 = true ∧ s.leafEntryOk 2 (entry t1 2) = true) ∧
    ((entry t1 0).testBit 1 = false ∧ tableEntryOk (entry t1 0) = true ∧ t2 = (entry t1 0) / 2 ^ 16 % 2 ^ 32 * 65536) ∧
    (entry t2 5).testBit 0 = false ∧ ((entry t2 2).testBit 0 = true ∧ s.leafEntryOk 3 (entry t2 2) = false) ∧
    (s.leafEntryOk 3 (entry t2 3) = true ∧ (entry t2 3).testBit 2 = false ∧ (entry t2 3).testBit 3 = false) ∧
    (s.leafEntryOk 3 (entry t2 4) = true ∧ s.mapped ((entry t2 4) / 2 ^ 16 % 2 ^ 32 * 65536) = false) ∧
    (s.leafEntryOk 3 (entry t2 1) = true ∧ (entry t2 1) / 4 % 4 = 3 ∧ s.mapped 0x40000 = true) :=
  ⟨walkState, (walkState.context 1).getD default, 0x20001, 0x20000, 0x30000, by decide +kernel⟩

/-- The core's TLB holds page 1 writable, page 2 read only and page 3 at a hole; the tables have no such leaves. -/
def tlbState : State :=
  let leaf := fun pa w => ({ pa := pa, base := pa, logSize := 16, w := w, x := true, kind := 1, mov := false, level := 3, pte := 0 } : Leaf)
  let s := testState 0 (fun _ => []) id fun s => s.modifyCore 0 fun c => { c with tlb :=
    [⟨1, 0x10000, leaf 0x40000 true⟩, ⟨1, 0x20000, leaf 0x40000 false⟩, ⟨1, 0x30000, leaf 0xC0000000000 true⟩] }
  { s with via := some 0 }

theorem witness_TranslationTakesWhatATlbHolds : ∃ (s : State) (a b c : Leaf),
    s.tlbLeaf 1 0x10000 = some a ∧ a.w = true ∧ s.mapped a.pa = true ∧ s.tlbLeaf 1 0x20000 = some b ∧ b.w = false ∧
    s.tlbLeaf 1 0x30000 = some c ∧ c.w = true ∧ s.mapped c.pa = false :=
  ⟨tlbState, _, _, _, rfl, rfl, by decide +kernel, rfl, rfl, rfl, rfl, by decide +kernel⟩

/-- An address that is not present, a page that may not be written, a hole (R250). -/
theorem test_walk_faults : ([0x3 * 2 ^ 29, 0x30000, 0x40000, 2 ^ 54].map fun va => match walkState.translate 1 .write va with
    | .ok _ => none
    | .error f => some f) = [some (.pageNotPresent, 2), some (.pagePermission, 3), some (.physUnmapped, 3), some (.pageNotPresent, 0)] := by
  decide +kernel

/-- Lane j's pair v2:v3 holds VA 0x10800 + 8j; its v6:v7 a number, its v4 a scratch offset, s0:s1 the VA 0x10820; 64 bytes of scratchpad,
and segment 9 of one 4 KiB block attached. -/
def memUnit (u : WorkUnit) : WorkUnit :=
  { u with scratchLen := 64, segs := [9], slices := u.slices.map fun sl => { sl with s := [(0, 0x10820)] } }

def testSegment : Segment :=
  { (default : Segment) with name := 9, ctx := 1, backing := 0x18000, size := 1, n := 1, gen := 3, core := some 0, att := 1 }

def memState (scratch : Nat) (unit : WorkUnit → WorkUnit) (rest : State → State) : State :=
  testState 0 (fun j => [(2, BitVec.ofNat 32 (0x10800 + 8 * j)), (4, BitVec.ofNat 32 (scratch + 8 * j)), (6, BitVec.ofNat 32 (j + 1)), (7, 5)])
    (fun u => unit (memUnit u)) fun s => rest (put8 0x40820 77 { s with segments := [testSegment] })

def memPlan (s : State) (k : AccessKind) (w : MemWord) (x : Nat × Nat) : List Piece :=
  planPieces (s.plan 1 k ((testGang s).laneVa w x) (2 ^ w.size.toNat))

theorem plan_ok {e : Except LaneFault (List Piece)} (h : planFault e = none) : e = .ok (planPieces e) := by
  cases e <;> simp_all [planFault, planPieces]

theorem plans_of {α : Type} {xs : List α} {f : α → Except LaneFault (List Piece)} {P : α → Prop}
    (h : ∀ x ∈ xs, planFault (f x) = none ∧ P x) : ∀ x ∈ xs, f x = .ok (planPieces (f x)) ∧ P x :=
  fun x hx => ⟨plan_ok (h x hx).1, (h x hx).2⟩

def ldWord : MemWord := ⟨{ plain with sb := 1 }, 20, 2, 0, 2, 0, 0, false⟩
def ldcWord : MemWord := ⟨{ plain with sb := 1 }, 20, 0x110, 0, 2, 0, 0, false⟩
def ldsWord : MemWord := ⟨{ plain with sb := 1 }, 20, 4, 0, 3, 0, 1, false⟩

theorem witness_LoadsIssueWhatIsThere : ∃ (s : State) (g : Gang) (ps qs : Nat × Nat → List Piece), s.gang = some g ∧
    MemFits s g 0x140 ldWord (ldWord.size.toNat < 6 ∧ ldWord.order.toNat < 2)
      (addrOk g.head.regs true 2 = true ∧ vRunOk g.head.regs 20 1 1 = true) (addrRegs ldWord true) (fun _ => none) ∧
    (∀ x ∈ g.executing plain, s.plan g.u.ctx ⟨.read, 1, false⟩ (g.laneVa ldWord x) 4 = .ok (ps x) ∧ s.unreadable (ps x) = false ∧
      s.remoteWake (ps x) = false) ∧
    MemFits s g 0x144 ldcWord (ldcWord.size.toNat < 6 ∧ ldcWord.scope = 0 ∧ ldcWord.order = 0)
      (sRunOk 0x110 2 2 = true ∧ vRunOk g.head.regs 20 1 1 = true ∧ sRunOk 0x114 1 1 = true) (addrRegs ldcWord true) (fun _ => none) ∧
    (∀ x ∈ g.executing plain, s.plan g.u.ctx ⟨.read, 1, false⟩ (g.laneVa ldcWord x) 4 = .ok (qs x) ∧ s.unreadable (qs x) = false ∧
      s.remoteWake (qs x) = false) ∧
    MemFits s g 0x142 ldsWord (ldsWord.size.toNat < 6 ∧ ldsWord.scope = 0 ∧ ldsWord.cache = false ∧ ldsWord.order.toNat < 2)
      (addrOk g.head.regs false 4 = true ∧ vRunOk g.head.regs 20 2 2 = true) (addrRegs ldsWord false) (fun _ => none) ∧
    (∀ x ∈ g.executing plain, s.scratchAccess g false 8 (g.laneOffset ldsWord x) 8 = none ∧
      s.scratchUnreadable g.u (g.laneOffset ldsWord x).toNat 8 = false) := by
  refine ⟨memState 0 id id, testGang (memState 0 id id), memPlan (memState 0 id id) ⟨.read, 1, false⟩ ldWord,
    memPlan (memState 0 id id) ⟨.read, 1, false⟩ ldcWord, rfl, memFits_of ?_ ?_ ?_, plans_of ?_, memFits_of ?_ ?_ ?_, plans_of ?_,
    memFits_of ?_ ?_ ?_, ?_⟩ <;> decide +kernel

/-- LD: the word at the lane's address is on its way to v20 (R276). -/
theorem test_ld : ((testNext (exec (.ld { ldWord with ofs := 0x20 }) (memState 0 id id))).units.map fun u => (u.slice 0).pend.map fun r =>
    r.writes.map fun x => (x.lane, x.reg, x.val.val)) = [[[(some 0, 20, 77), (some 1, 20, 0), (some 2, 20, 0), (some 3, 20, 0)]]] := by
  decide +kernel

/-! #### Stores -/

def stWord : MemWord := ⟨plain, 6, 2, 0, 2, 0, 0, false⟩
def stsWord : MemWord := ⟨plain, 6, 4, 0, 2, 0, 0, false⟩

/-- The data page is of kind MG and the unit is in deterministic mode. -/
def detMem (lanes : BitVec 4) (buffer : List Buffered) : State :=
  memState 0 (fun u => { u with det := true, buffer := buffer, slices := u.slices.map fun sl => { sl with active := lanes } }) fun s =>
    launchIs (fun l => { l with words := [0] ++ List.replicate 15 0 }) (put8 0x30008 (0x40000 + 0x3F) s)

/-- 8192 words held, of another owner. -/
def fullBuffer : List Buffered := List.replicate 8192 ⟨1, 0, 0, 0, 15⟩

def storeFits (s : State) : Prop :=
  MemFits s (testGang s) 0x141 stWord (stWord.size.toNat < 6 ∧ (stWord.order = 0 ∨ stWord.order = 2))
    (addrOk (testGang s).head.regs true 2 = true ∧ storeRunOk (testGang s).head.regs 6 1 = true)
    (addrRegs stWord true ++ runRegs 6 1) (fun _ => none)

def storePlans (s : State) : Prop :=
  ∀ x ∈ (testGang s).executing plain, s.plan 1 ⟨.write, 1, false⟩ ((testGang s).laneVa stWord x) 4 =
    .ok (memPlan s ⟨.write, 1, false⟩ stWord x) ∧ ∀ p ∈ memPlan s ⟨.write, 1, false⟩ stWord x, inWake p.leaf.pa = false

def storeParts (s : State) : List ((Nat × Nat) × List (Piece × List Byte)) :=
  ((testGang s).executing plain).map fun x => (x, cutBytes (memPlan s ⟨.write, 1, false⟩ stWord x)
    (natLe 4 (((testGang s).u.slice x.1).storeValue x.2 6 4)))

def allBuffered (s : State) (b : Bool) : Prop :=
  ∀ x ∈ (testGang s).executing plain, ∀ p ∈ memPlan s ⟨.write, 1, false⟩ stWord x, (testGang s).buffered p.leaf = b

theorem witness_StoresWriteTheirBytes :
    (∃ s, s.gang = some (testGang s) ∧ storeFits s ∧ storePlans s ∧ allBuffered s false ∧ (testGang s).u.buffer.length ≤ 8192) ∧
    (∃ s, s.gang = some (testGang s) ∧ storeFits s ∧ storePlans s ∧ allBuffered s true ∧ ((testGang s).bufferAll (storeParts s)).2 = []) ∧
    ∃ s, s.gang = some (testGang s) ∧ storeFits s ∧ storePlans s ∧ allBuffered s true ∧ ((testGang s).bufferAll (storeParts s)).2 ≠ [] := by
  refine ⟨⟨memState 0 id id, rfl, memFits_of ?_ ?_ ?_, plans_of ?_, ?_⟩, ⟨detMem 15 [], rfl, memFits_of ?_ ?_ ?_, plans_of ?_, ?_⟩,
    ⟨detMem 1 fullBuffer, gang_of ?_, memFits_of ?_ ?_ ?_, plans_of ?_, ?_⟩⟩ <;> (try unfold allBuffered) <;> decide +kernel

/-- ST: each lane's word at its address (R276). -/
theorem test_st : let t := testNext (exec (.st stWord) (memState 0 id id))
    [0x40800, 0x40804, 0x40808, 0x40818].map (fun a => t.natAt a 4) = [1, 0, 2, 4] := by decide +kernel

def scratchFits (s : State) : Prop :=
  MemFits s (testGang s) 0x143 stsWord (stsWord.size.toNat < 6 ∧ stsWord.scope = 0 ∧ stsWord.cache = false ∧ (stsWord.order = 0 ∨ stsWord.order = 2))
    (addrOk (testGang s).head.regs false 4 = true ∧ storeRunOk (testGang s).head.regs 6 1 = true)
    (addrRegs stsWord false ++ runRegs 6 1) (fun _ => none) ∧
  ∀ x ∈ (testGang s).executing plain, s.scratchAccess (testGang s) true 1 ((testGang s).laneOffset stsWord x) 4 = none

theorem witness_ScratchStoresWriteTheirBytes :
    (∃ s, s.gang = some (testGang s) ∧ scratchFits s ∧ ∀ x ∈ (testGang s).executing plain, (testGang s).laneOffset stsWord x + 4 ≤ 0x100000) ∧
    ∃ s x, s.gang = some (testGang s) ∧ scratchFits s ∧ (∀ x ∈ (testGang s).executing plain, 0x100000 ≤ (testGang s).laneOffset stsWord x) ∧
      s.segment? (testGang s).u.ctx 9 = some x := by
  refine ⟨⟨memState 0 id id, rfl, ⟨memFits_of ?_ ?_ ?_, ?_⟩, ?_⟩, ⟨memState 0x100000 id id, _, rfl, ⟨memFits_of ?_ ?_ ?_, ?_⟩, ?_, rfl⟩⟩ <;>
    decide +kernel

/-- STS to an attached segment: the block is dirty (R266). -/
theorem test_sts_segment : let t := testNext (exec (.sts stsWord) (memState 0x100000 id id))
    (t.segments.map (·.dirty), (t.core 0).segArea) = ([1], [(0, 1), (8, 2), (16, 3), (24, 4)]) := by decide +kernel

/-! #### Faults -/

/-- Lanes 2 and 3 aim at a page that is not there, lane 1 is misaligned for a release store. -/
def faultState : State :=
  testState 0 (fun j => [(2, if j < 2 then BitVec.ofNat 32 (0x10800 + 3 * j) else 0x50000), (6, 1)]) memUnit id

def stRelWord : MemWord := { stWord with order := 2 }

theorem witness_MemoryFaultsStopTheWord : ∃ (s : State) (g : Gang) (x : Nat × Nat) (f y : LaneFault), s.gang = some g ∧
    MemFits s g 0x141 stRelWord (stRelWord.size.toNat < 6) (addrOk g.head.regs true 2 = true) (addrRegs stRelWord true ++ runRegs 6 1) (fun _ => none) ∧
    MemFits s g 0x140 ldWord (ldWord.size.toNat < 6) (addrOk g.head.regs true 2 = true) (addrRegs ldWord true ++ []) (fun _ => none) ∧
    x ∈ g.executing plain ∧ planFault (s.plan g.u.ctx ⟨.write, 4, false⟩ (g.laneVa stRelWord x) 4) = some f ∧
    (∀ z ∈ g.executing plain, (planFault (s.plan g.u.ctx ⟨.write, 4, false⟩ (g.laneVa stRelWord z) 4)).all fun e =>
      decide (memRank f.cause ≤ memRank e.cause)) ∧
    planFault (s.plan g.u.ctx ⟨.read, 1, false⟩ (g.laneVa ldWord (0, 2)) 4) = some y ∧ y.cause = .pageNotPresent := by
  refine ⟨faultState, testGang faultState, (0, 1), (planFault (faultState.plan 1 ⟨.write, 4, false⟩ 0x10803 4)).getD default,
    (planFault (faultState.plan 1 ⟨.read, 1, false⟩ 0x50000 4)).getD default, rfl, memFits_of ?_ ?_ ?_, memFits_of ?_ ?_ ?_, ?_⟩ <;> decide +kernel

/-- Of MISALIGNED and PAGE_NOT_PRESENT the first is raised (R274). -/
theorem test_fault_order : (testNext (exec (.st stRelWord) faultState)).launches.map (fun l => l.abort.map fun a => a.1.code) =
    [some Cause.misaligned.code] := by decide +kernel

/-! ### Atomics, ordered additions, fences and hints -/

def atomWord : MemWord := ⟨{ plain with sb := 1 }, 6, 2, 0, 2, 0, 0, false⟩
def atomsWord : MemWord := ⟨{ plain with sb := 1 }, 6, 4, 0, 2, 0, 0, true⟩

theorem witness_AtomicsComputeTheirNewValues : ∃ n : Nat, ∃ _ _ _ : BitVec n, n = 32 ∨ n = 64 := ⟨32, 0, 0, 0, .inl rfl⟩

/-- A wrap at the increment's limit, and the signed and unsigned minima of 1 and all ones (R278). -/
theorem test_atomicOp : [atomicOp 10 32 7 7 0, atomicOp 10 32 6 7 0, atomicOp 11 32 0 7 0, atomicOp 1 32 1 0xFFFFFFFF 0,
    atomicOp 3 32 1 0xFFFFFFFF 0, atomicOp 0 32 0xFFFFFFFF 2 0] = [0, 7, 7, 0xFFFFFFFF, 1, 1] := by decide +kernel

def atomFits (s : State) (e : AtomicEntry) : Prop :=
  MemFits s (testGang s) e.opc atomWord (atomWord.size = 2 ∨ atomWord.size = 3)
    (addrOk (testGang s).head.regs true 2 = true ∧ e.dataOk (testGang s).head.regs atomWord = true)
    (addrRegs atomWord true ++ runRegs 6 (e.run atomWord)) (e.badTag (testGang s) atomWord)

def atomPieces (s : State) (x : Nat × Nat) : List Piece := memPlan s ⟨.write, 4, true⟩ atomWord x

theorem witness_AtomicsActInAscendingLane :
    (∃ s, ∃ pa : Nat × Nat → Nat, s.gang = some (testGang s) ∧
      (∃ e, atomInstr (testGang s).c.fpmode (.atomAdd atomWord) = some (atomWord, e) ∧ atomFits s e) ∧
      (∃ e, atomInstr (testGang s).c.fpmode (.fatomAdd atomWord) = some (atomWord, e) ∧ atomFits s e) ∧
      ∀ x ∈ (testGang s).executing plain, ∃ p, s.plan 1 ⟨.write, 4, true⟩ ((testGang s).laneVa atomWord x) 4 = .ok [p] ∧
        p.leaf.pa = pa x ∧ s.uncorrectableAt (pa x) 4 = false) ∧
    ∃ s e, s.gang = some (testGang s) ∧ atomsInstr (.atomsAdd atomsWord) = some (atomsWord, e) ∧
      MemFits s (testGang s) e.opc atomsWord ((atomsWord.size = 2 ∨ atomsWord.size = 3) ∧ atomsWord.scope = 0)
        (addrOk (testGang s).head.regs false 4 = true ∧ e.dataOk (testGang s).head.regs atomsWord = true)
        (addrRegs atomsWord false ++ runRegs 6 (e.run atomsWord)) (e.badTag (testGang s) atomsWord) ∧
      ∀ x ∈ (testGang s).executing plain, s.scratchFault (testGang s).u true ((testGang s).laneOffset atomsWord x) 4 = none ∧
        ((testGang s).laneOffset atomsWord x).toNat % 4 = 0 ∧
        s.scratchUnreadable (testGang s).u ((testGang s).laneOffset atomsWord x).toNat 4 = false := by
  refine ⟨⟨memState 0 id id, fun x => ((atomPieces (memState 0 id id) x).head?.getD default).leaf.pa, rfl,
      ⟨_, rfl, memFits_of ?_ ?_ ?_⟩, ⟨_, rfl, memFits_of ?_ ?_ ?_⟩, fun x hx => ?_⟩,
    ⟨memState 0 id id, _, rfl, rfl, memFits_of ?_ ?_ ?_, ?_⟩⟩
  case refine_7 =>
    have h : ∀ x ∈ (testGang (memState 0 id id)).executing plain,
        planFault ((memState 0 id id).plan 1 ⟨.write, 4, true⟩ ((testGang (memState 0 id id)).laneVa atomWord x) 4) = none ∧
        atomPieces (memState 0 id id) x = [(atomPieces (memState 0 id id) x).head?.getD default] ∧
        (memState 0 id id).uncorrectableAt ((atomPieces (memState 0 id id) x).head?.getD default).leaf.pa 4 = false := by
      decide +kernel
    obtain ⟨a, b, c⟩ := h x hx
    exact ⟨_, (plan_ok a).trans (congrArg Except.ok b), rfl, c⟩
  all_goals decide +kernel

/-- Four lanes add 1, 2, 3 and 4 to one word; each sees what the lanes before it left (R272, R278). -/
theorem test_atom_add : let s := testState 0 (fun j => [(2, 0x10820), (6, BitVec.ofNat 32 (j + 1))]) memUnit (put8 0x40820 77)
    let t := testNext (exec (.atomAdd atomWord) s)
    (t.natAt 0x40820 4, t.units.map fun u => (u.slice 0).pend.map fun r => r.writes.map (·.val.val)) = (87, [[[77, 78, 80, 83]]]) := by
  decide +kernel

def sopWord : MemWord := ⟨plain, 6, 2, 0, 3, 0, 0, false⟩

theorem witness_StreamedOperationsCombineElements : ∃ (s : State) (g : Gang) (ps : Nat × Nat → List Piece), s.gang = some g ∧
    MemFits s g 0x14B sopWord (2 ≤ sopWord.size.toNat ∧ sopWord.size.toNat < 6)
      (addrOk g.head.regs true 2 = true ∧ storeRunOk g.head.regs 6 2 = true) (addrRegs sopWord true ++ runRegs 6 2)
      (fun x => ((runRegs 6 2).map fun r => ((g.u.lane x.1 x.2).getV r).tag.toNat).find? fun t => t != 0 && !sopTags 0 t) ∧
    ∀ x ∈ g.executing plain, s.plan g.u.ctx ⟨.write, 1, true⟩ (g.laneVa sopWord x) 8 = .ok (ps x) ∧ (g.laneVa sopWord x % 4 = 0 ∧
      ∀ p ∈ ps x, s.uncorrectableAt p.leaf.pa p.len = false) := by
  refine ⟨memState 0 id id, testGang (memState 0 id id), memPlan (memState 0 id id) ⟨.write, 1, true⟩ sopWord, rfl, memFits_of ?_ ?_ ?_,
    plans_of ?_⟩ <;> decide +kernel

/-- SOP.add over the elements of four lanes (R282). -/
theorem test_sop : (testNext (exec (.sop sopWord) (memState 0 id id))).natAt 0x40800 8 = 1 + 5 * 2 ^ 32 := by decide +kernel

def ordWord : MemWord := ⟨plain, 6, 2, 0, 2, 1, 0, false⟩
def ocloseWord : MemWord := ⟨plain, 0, 0, 0, 0, 1, 1, false⟩

/-- Contributions of 1.0 and 2.0 to one word and of 3.0 to another; every unit has closed once. -/
def windowState : State :=
  memState 0 (fun u => { u with ocloses := [0, 1, 0, 0] }) fun s => launchIs (fun l => { l with nextUnit := 1, contribs :=
    [⟨1, 0, 1, 0x40880, false, 0, 0, 0, 0, 0x3F800000⟩, ⟨1, 0, 1, 0x40884, false, 0, 0, 0, 1, 0x40400000⟩,
     ⟨1, 0, 1, 0x40880, false, 0, 0, 1, 2, 0x40000000⟩] }) s

theorem witness_OrderedAdditionsAreSummedAtTheClose :
    (∃ (s : State) (g : Gang) (ps : Nat × Nat → List Piece), s.gang = some g ∧
      MemFits s g 0x149 ordWord ((ordWord.size = 2 ∨ ordWord.size = 3) ∧ ordWord.order = 0 ∧ ordWord.cache = false)
        (addrOk g.head.regs true 2 = true ∧ storeRunOk g.head.regs 6 1 = true) (addrRegs ordWord true ++ runRegs 6 1)
        (fun x => let e : AtomicEntry := { opc := 0, tags := some (tagF32, tagF64), op := fun _ a _ _ => a }; e.badTag g ordWord x) ∧
      (∀ x ∈ g.executing plain, s.plan g.u.ctx ⟨.write, 4, true⟩ (g.laneVa ordWord x) 4 = .ok (ps x) ∧ True) ∧
      MemFits s g 0x14A ocloseWord (ocloseWord.data = 0 ∧ ocloseWord.addr = 0 ∧ ocloseWord.ofs = 0 ∧ ocloseWord.size = 0 ∧
        ocloseWord.cache = false ∧ ocloseWord.order.toNat ≤ 1) True [] (fun _ => none) ∧
      g.head.wait ≠ .done ∧ g.head.wait.isWaiting = false) ∧
    (∃ (s : State) (g : Gang), s.gang = some g ∧ MemFits s g 0x14A ocloseWord (ocloseWord.data = 0 ∧ ocloseWord.addr = 0 ∧ ocloseWord.ofs = 0 ∧
        ocloseWord.size = 0 ∧ ocloseWord.cache = false ∧ ocloseWord.order.toNat ≤ 1) True [] (fun _ => none) ∧ g.head.wait = .done) ∧
    ∃ (s : State) (l : Launch) (c : Context), s.launch? 0 0 = some l ∧ s.context l.ctx = some c ∧ s.windowReady l 1 0 1 = true ∧
      l.contribs.length = 3 ∧ ∀ x ∈ l.contribs, s.uncorrectableAt x.pa 4 = false ∧
        ∀ y ∈ l.contribs, (x.pa, x.wide) = (y.pa, y.wide) ∨ x.pa + 4 ≤ y.pa ∨ y.pa + 4 ≤ x.pa := by
  refine ⟨⟨memState 0 id id, testGang (memState 0 id id), memPlan (memState 0 id id) ⟨.write, 4, true⟩ ordWord, rfl, memFits_of ?_ ?_ ?_,
    plans_of ?_, memFits_of ?_ ?_ trivial, ?_⟩,
    ⟨memState 0 (waitIs .done) id, testGang (memState 0 (waitIs .done) id), rfl, memFits_of ?_ ?_ trivial, ?_⟩,
    ⟨windowState, _, _, rfl, rfl, ?_⟩⟩ <;> decide +kernel

/-- A launch of two chips, the run's first chip this one. -/
def replicatedLaunch (l : Launch) : Launch := { l with words := [0, 0, 0, 0, 0, 2] ++ List.replicate 10 0, cinch := some ⟨9, true, [0, 1], true, 0⟩ }

/-- The launch's tables want one granule; its context has a save area of one granule or of none. -/
def roomState (len : Nat) : State :=
  memState 0 id fun s => (launchIs (fun l => { l with domain := some { (default : Domain) with staged := [default] } }) s).modifyContext 1
    fun c => { c with saveLen := len }

def runWindowState (signals closed : List (Nat × Nat × Nat)) (windows : List RunWindow) (links : List Link) : State :=
  memState 0 id fun s => { launchIs (fun l => { replicatedLaunch l with signals := signals, closed := closed }) s with runWindows := windows, links := links }

theorem witness_OrderedAdditionsTakeRoomAndShareWindows :
    (∀ len, (len = 0 ∨ len = 65536) → let s := roomState len
      (testGang s).l.replicated = false ∧ (testGang s).l.abort = none ∧
      granules (s.roomBytes (testGang s).l) - ((testGang s).l.room.map (·.2)).sum = 1 ∧ (s.takeSave 1 65536).isSome = (len == 65536)) ∧
    (let s := runWindowState [] [] [] []; (testGang s).l.replicated = true ∧ s.roomBytes (testGang s).l = 0) ∧
    (∃ (s : State) (l : Launch), s.launch? 0 0 = some l ∧ l.replicated = true ∧ (1, 0, 1) ∈ l.signals ∧ (1, 0, 1) ∉ l.closed ∧ ∃ w ∈ s.runWindows,
      w.run.generation = l.runRef.generation ∧ w.scope = 1 ∧ w.set = 0 ∧ w.k = 1) ∧
    (∃ (s : State) (l : Launch), s.launch? 0 0 = some l ∧ l.replicated = true ∧ (1, 0, 1) ∈ l.signals ∧ (1, 0, 1) ∉ l.closed ∧ s.runWindows = [] ∧
      s.launchRequests l.die l.slot = []) ∧
    (∃ (s : State) (l : Launch), s.launch? 0 0 = some l ∧ l.replicated = true ∧ (1, 0, 1) ∉ l.signals ∧ s.unitsClosed l 1 0 1 = false) ∧
    ∃ (s : State) (l : Launch), s.launch? 0 0 = some l ∧ l.replicated = true ∧ (1, 0, 1) ∉ l.signals ∧
      ∃ q ∈ s.launchRequests l.die l.slot, q.purpose.closes = false := by
  refine ⟨fun len h => ?_, ?_, ⟨runWindowState [(1, 0, 1)] [] [⟨⟨9, 1, 0, 2⟩, 1, 0, 1, [], []⟩] [], _, rfl, ?_⟩,
    ⟨runWindowState [(1, 0, 1)] [] [] [], _, rfl, ?_⟩, ⟨runWindowState [] [] [] [], _, rfl, ?_⟩,
    ⟨runWindowState [] [] [] [{ (default : Link) with outstanding := [⟨4, 0, 0, 1, [0], false, .store⟩] }], _, rfl, ?_⟩⟩
  case refine_1 => rcases h with rfl | rfl <;> decide +kernel
  all_goals decide +kernel

/-- The window's sums, 0 + 1.0 + 2.0 and 3.0 (R281). -/
theorem test_window : let t := testNext (exec (.windowClose 0 0 1 0 1) windowState)
    ([0x40880, 0x40884].map (fun a => t.natAt a 4), t.launches.map (·.closed)) = ([0x40400000, 0x40400000], [[(1, 0, 1)]]) := by decide +kernel

def fenceWord : MemWord := ⟨plain, 1, 0, 0, 0, 2, 3, false⟩
def prefWord : MemWord := ⟨plain, 0, 2, 0, 0, 0, 0, false⟩
def stepadvWord : MemWord := ⟨plain, 6, 0, 0, 0, 0, 0, false⟩
def hintWord : MemWord := ⟨plain, 6, 2, 0, 6, 0, 0, false⟩

/-- The pages are movable (MOV). -/
def movState : State := memState 0 id (put8 0x30008 (0x40000 + 0x5F))

theorem witness_FencesHintsAndTheStepCounter : ∃ (s : State) (g : Gang) (x : Nat × Nat) (rest : List (Nat × Nat)) (leaf : Nat × Nat → Leaf),
    s.gang = some g ∧
    MemFits s g 0x146 fenceWord (fenceWord.order ≠ 0 ∧ fenceWord.data.toNat < 4 ∧ (fenceWord.data.toNat % 2 = 1 → fenceWord.order = 3) ∧
      (2 ≤ fenceWord.data.toNat → 2 ≤ fenceWord.scope.toNat) ∧ fenceWord.addr = 0 ∧ fenceWord.ofs = 0 ∧ fenceWord.size = 0 ∧
      fenceWord.cache = false) True [] (fun _ => none) ∧
    MemFits s g 0x145 prefWord (prefWord.data = 0 ∧ prefWord.size = 0 ∧ prefWord.scope = 0 ∧ prefWord.order = 0)
      (addrOk g.head.regs true 2 = true) (addrRegs prefWord true) (fun _ => none) ∧ g.executing plain = x :: rest ∧
    MemFits s g 0x148 stepadvWord (stepadvWord.addr = 0 ∧ stepadvWord.ofs = 0 ∧ stepadvWord.size = 0 ∧ stepadvWord.scope = 0 ∧
      stepadvWord.order = 0) (storeRunOk g.head.regs 6 1 = true) (runRegs 6 1) (fun _ => none) ∧
    MemFits s g 0x147 hintWord (hintWord.order = 0 ∧ (hintWord.cache = true → hintWord.data = 0))
      (addrOk g.head.regs true 2 = true ∧ vRunOk g.head.regs 6 1 1 = true) (addrRegs hintWord true ++ runRegs 6 1) (fun _ => none) ∧
    (∀ y ∈ g.executing plain, s.translate g.u.ctx .write (g.laneVa hintWord y) = .ok (leaf y) ∧ (leaf y).mov = true) := by
  refine ⟨movState, testGang movState, (0, 0), [(0, 1), (0, 2), (0, 3)],
    fun y => ((movState.translate 1 .write ((testGang movState).laneVa hintWord y)).toOption).getD default, rfl, memFits_of ?_ ?_ trivial,
    memFits_of ?_ ?_ ?_, ?_, memFits_of ?_ ?_ ?_, memFits_of ?_ ?_ ?_, fun y hy => ?_⟩
  case refine_13 =>
    have h : ∀ y ∈ (testGang movState).executing plain,
        (movState.translate 1 .write ((testGang movState).laneVa hintWord y)).toOption.any (·.mov) = true := by decide +kernel
    have k := h y hy
    show movState.translate 1 .write _ = _ ∧ _
    cases e : movState.translate 1 .write ((testGang movState).laneVa hintWord y) with
    | error f => simp [e, Except.toOption] at k
    | ok l => simp only [e, Except.toOption, Option.any, Option.getD] at k ⊢; exact ⟨trivial, k⟩
  all_goals decide +kernel

/-- HINT.dead: the page reads as zero afterwards (R262). -/
theorem test_hint_dead : let t := testNext (exec (.hint hintWord) movState)
    (movState.natAt 0x40820 8, t.natAt 0x40820 8, t.hints.map fun e => (e.1, e.2.dead)) = (77, 0, [(0x30008, true)]) := by decide +kernel

/-! ### Rings -/

def pushWord : MemWord := ⟨plain, 6, 2, 0, 2, 0, 2, false⟩
def popWord : MemWord := ⟨{ plain with sb := 1 }, 20, 2, 0, 2, 0, 1, false⟩

/-- A ring of two slots, or 2 ^ n, at VA 0x10900 with its slots at 0x10A00: p items pushed, t taken, f free. -/
def ringState (logn p t f : Nat) : State :=
  testState 0 (fun j => [(2, 0x10900), (6, BitVec.ofNat 32 (j + 10))]) memUnit fun s =>
    put8 0x40900 p (put8 0x40908 logn (put8 0x40910 0x10A00 (put8 0x40920 t (put8 0x40928 f s))))

def ringFits (s : State) (opc : Nat) (w : MemWord) (push : Bool) : Prop :=
  MemFits s (testGang s) opc w (w.size ≠ 7 ∧ w.order = (if push then 2 else 1) ∧ w.ofs.toNat < 64 ∧ (w.cache = false → w.ofs.toNat / 8 % 8 = 0) ∧
      (push = true → ringConsumer w = 0))
    (addrOk (testGang s).head.regs true w.addr.toNat = true ∧ ringDataOk (testGang s).head.regs w push = true)
    (addrRegs w true ++ if push then runRegs w.data.toNat (ringRun w) else []) (fun _ => none)

def ringGot (s : State) (w : MemWord) (push : Bool) : List RingGot :=
  (s.ringStep (testGang s) w push ((testGang s).executing plain)).2

theorem witness_RingStepsFillTheirSlots :
    (∃ (s : State) (f : Nat), ringConsumer pushWord < 8 ∧ (s.ringHeader (s.ringPa (testGang s) pushWord (0, 0))).length = 32 ∧
      s.natAt 0x40928 8 = f ∧ f + 2 ≤ s.natAt 0x40900 8) ∧
    (∃ s : State, s.ringPa (testGang s) popWord (0, 0) = 0x40900 ∧ s.natAt 0x40900 8 ≤ s.natAt 0x40920 8) ∧
    (∃ s : State, s.ringPa (testGang s) popWord (0, 0) = 0x40900 ∧ s.natAt 0x40920 8 < s.natAt 0x40900 8 ∧
      s.natAt 0x40900 8 < s.natAt 0x40928 8 + 8) ∧
    ∃ (s : State) (e : RingGot) (p : Piece) (ps : List Piece), s.slotPlan (testGang s) true e = .ok (p :: ps) ∧
      s.uncorrectableAt p.leaf.pa 64 = false ∧ ringBytes pushWord ≤ 56 := by
  refine ⟨⟨ringState 1 2 0 0, 0, ?_⟩, ⟨ringState 1 2 2 0, ?_⟩, ⟨ringState 3 2 0 0, ?_⟩,
    ⟨ringState 1 0 0 0, ⟨(0, 0), 0x40900, 0, 0x10A00⟩, (planPieces ((ringState 1 0 0 0).slotPlan (testGang (ringState 1 0 0 0)) true
      ⟨(0, 0), 0x40900, 0, 0x10A00⟩)).headD default, [], ?_⟩⟩
  case refine_4 => exact ⟨plan_ok (by decide +kernel) |>.trans (congrArg Except.ok (by decide +kernel)), by decide +kernel, by decide +kernel⟩
  all_goals decide +kernel

/-- Rings in which every lane gets an index, and in which some lanes do not; with .blk and with .nb (R389, R390). -/
theorem witness_RingWordsGoOnWithTheirIndices :
    (∃ s, s.gang = some (testGang s) ∧ (∀ x ∈ (testGang s).executing plain, s.ringFault (testGang s) pushWord x = none) ∧
      ringFits s 0x154 pushWord true ∧ ringFits s 0x154 { pushWord with cache := true, ofs := 8 } true ∧
      (∀ e ∈ ringGot s pushWord true, planFault ((s.ringStep (testGang s) pushWord true ((testGang s).executing plain)).1.slotPlan
        (testGang s) true e) = none) ∧ (ringGot s pushWord true).length = 4) ∧
    (∃ s, s.gang = some (testGang s) ∧ ringFits s 0x154 pushWord true ∧ (∀ x ∈ (testGang s).executing plain, s.ringFault (testGang s) pushWord x = none) ∧
      (∀ e ∈ ringGot s pushWord true, planFault ((s.ringStep (testGang s) pushWord true ((testGang s).executing plain)).1.slotPlan
        (testGang s) true e) = none) ∧ (ringGot s pushWord true).length = 2) ∧
    (∃ s, s.gang = some (testGang s) ∧ (∀ x ∈ (testGang s).executing plain, s.ringFault (testGang s) popWord x = none) ∧
      ringFits s 0x155 popWord false ∧ ringFits s 0x156 popWord false ∧ ringFits s 0x155 { popWord with cache := true, ofs := 8 } false ∧
      (ringGot s popWord false).length = 4 ∧ (s.ringPeek (testGang s) popWord ((testGang s).executing plain)).length = 4 ∧
      ∀ e ∈ ringGot s popWord false, planFault ((s.ringStep (testGang s) popWord false ((testGang s).executing plain)).1.slotPlan
        (testGang s) false e) = none) ∧
    ∃ s, s.gang = some (testGang s) ∧ (∀ x ∈ (testGang s).executing plain, s.ringFault (testGang s) popWord x = none) ∧
      ringFits s 0x155 popWord false ∧ ringFits s 0x156 popWord false ∧ (ringGot s popWord false).length = 2 ∧
      (s.ringPeek (testGang s) popWord ((testGang s).executing plain)).length < 4 := by
  refine ⟨⟨ringState 3 0 0 0, rfl, ?_, memFits_of ?_ ?_ ?_, memFits_of ?_ ?_ ?_, ?_⟩, ⟨ringState 1 0 0 0, rfl, memFits_of ?_ ?_ ?_, ?_⟩,
    ⟨ringState 3 4 0 0, rfl, ?_, memFits_of ?_ ?_ ?_, memFits_of ?_ ?_ ?_, memFits_of ?_ ?_ ?_, ?_⟩,
    ⟨ringState 3 2 0 0, rfl, ?_, memFits_of ?_ ?_ ?_, memFits_of ?_ ?_ ?_, ?_⟩⟩ <;> decide +kernel

/-- QPUSH: PIDX counts four items; the second slot's word 0 is its index plus one, word 1 its payload (R389). -/
theorem test_qpush : let t := testNext (exec (.qpush pushWord) (ringState 3 0 0 0))
    [0x40900, 0x40A40, 0x40A48].map (fun a => t.natAt a 8) = [4, 2, 11] := by decide +kernel

/-! ### Segments -/

def segWord : MemWord := ⟨{ plain with sb := 1 }, 0, 2, 0, 0, 0, 0, false⟩
def segqryWord : MemWord := { segWord with data := 20 }
def segFits (s : State) (opc : Nat) (w : MemWord) : Prop :=
  MemFits s (testGang s) opc w (w.ofs = 0 ∧ w.size = 0 ∧ w.scope = 0 ∧ w.order = 0 ∧ w.cache = false)
    (addrOk (testGang s).head.regs true w.addr.toNat = true) (addrRegs w true) (fun _ => none)

/-- Lane 0 names a segment in v2:v3 and a control word in v6; the unit has segment 9, which is resident on its core. -/
def segState (name c : Word) (unit : WorkUnit → WorkUnit) (rest : State → State) : State :=
  testState 0 (fun _ => [(2, name), (6, c)]) (fun u => unit { memUnit u with ntags := 1, tags := [⟨0, 0, 0, none, false⟩] })
    fun s => rest { s with segments := [testSegment] }

def segUpdate (f : Segment → Segment) (s : State) : State := { s with segments := s.segments.map f }
/-- The segment's block is dirty, and the word just past it is bad. -/
def wornArea (s : State) : State :=
  (segUpdate (fun x => { x with att := 0, life := 2, dirty := 1 }) s).modifyCore 0 fun c => { c with badArea := [512] }

def matqState (u : WorkUnit) : WorkUnit := { u with matq := [⟨.fence, 0, 0, 0⟩] }

theorem deviceOk {ε α : Type} {e : Except ε α} (h : e.toOption.isSome = true) : ∃ a, e = .ok a := by
  cases e with
  | error c => simp [Except.toOption] at h
  | ok a => exact ⟨a, rfl⟩

theorem witness_SegmentsArePublishedQueriedAndMoved :
    (∃ s, s.gang = some (testGang s) ∧ (segFits s 0x150 segWord ∧ segFits s 0x152 segWord ∧ segFits s 0x153 segqryWord) ∧
      (s.bank 0 0).lastOp = some (s.clock, 5) ∧ (testGang s).slot < 5) ∧
    (∃ s x rest, s.gang = some (testGang s) ∧ (testGang s).executing plain = x :: rest ∧
      BitVec.ofNat 64 (((testGang s).u.slice x.1).runValue x.2 2 2) = 9 ∧ segFits s 0x150 segWord ∧ segFits s 0x152 segWord ∧
      (segFits s 0x153 segqryWord ∧ vRunOk (testGang s).head.regs 20 2 2 = true) ∧ 9 ∈ (testGang s).u.segs ∧
      ((testGang s).u.releases.filter (·.name == 9)).length < (testGang s).u.segs.count 9 ∧ (testGang s).u.matq = [] ∧
      s.unitCommands (testGang s).u = [] ∧ (testGang s).u.releases = [] ∧ (∀ v ∈ s.units, v.attaches = []) ∧
      ∃ y, s.segment? 1 9 = some y ∧ y.dropAtZero = false) ∧
    (∃ s, s.gang = some (testGang s) ∧ segFits s 0x152 segWord ∧ (testGang s).u.matq ≠ [] ∧
      ∀ r ∈ (testGang s).u.releases, r.ready = false) ∧
    (∃ s, s.gang = some (testGang s) ∧ segFits s 0x150 segWord ∧ segFits s 0x152 segWord ∧ segFits s 0x153 segqryWord ∧
      8 ∉ (testGang s).u.segs ∧ s.segment? 1 8 = none) ∧
    (∃ (s m : State) (x : Segment), s.segment? 1 9 = some x ∧ x.core = some 0 ∧ (∀ u ∈ s.units, u.attaches = []) ∧ x.att = 0 ∧
      x.wbFailed = false ∧ x.reloading = false ∧ x.life = 2 ∧ x.dirtyBlocks = [] ∧ m = s) ∧
    (∃ (s m : State) (x : Segment), s.segment? 1 9 = some x ∧ x.core = some 0 ∧ x.att = 0 ∧ x.life = 2 ∧ x.dirtyBlocks = [0] ∧
      ((s.core 0).badArea = [512] ∧ x.offset = 0) ∧ s.deviceWrite 1 0x18000 ((List.range 4096).map fun k => sparseGet 0 (s.core 0).segArea (x.offset + k)) = .ok m) ∧
    ∃ (s : State) (x : Segment) (bs : List Byte) (wt : SegWaiter) (u : WorkUnit), s.segment? 1 9 = some x ∧ x.reloading = true ∧
      x.fresh = false ∧ x.waiters = [wt] ∧ s.readBacking x = .ok bs ∧ s.unit? wt.unit = some u ∧ u.residence = .resident := by
  have write : ∃ m, (segState 9 0 id wornArea).deviceWrite 1 0x18000
      ((List.range 4096).map fun k => sparseGet 0 ((segState 9 0 id wornArea).core 0).segArea (0 + k)) = .ok m := deviceOk (by decide +kernel)
  have read : ∃ bs, (segState 9 0 id (segUpdate fun x => { x with reloading := true, waiters := [⟨1, [5], 0⟩] })).readBacking
      { testSegment with reloading := true, waiters := [⟨1, [5], 0⟩] } = .ok bs :=
    deviceOk (by decide +kernel)
  obtain ⟨m, hm⟩ := write
  obtain ⟨bs, hbs⟩ := read
  refine ⟨⟨actedState (segState 9 0 id id), rfl, ⟨memFits_of ?_ ?_ ?_, memFits_of ?_ ?_ ?_, memFits_of ?_ ?_ ?_⟩, ?_⟩,
    ⟨segState 9 0 id id, (0, 0), [(0, 1), (0, 2), (0, 3)], rfl, ?_, ?_, memFits_of ?_ ?_ ?_, memFits_of ?_ ?_ ?_, ⟨memFits_of ?_ ?_ ?_, ?_⟩,
      ?_, ?_, ?_, ?_, ?_, ?_, testSegment, ?_⟩,
    ⟨segState 9 0 matqState id, rfl, memFits_of ?_ ?_ ?_, ?_⟩, ⟨segState 8 0 id id, rfl, memFits_of ?_ ?_ ?_, memFits_of ?_ ?_ ?_, memFits_of ?_ ?_ ?_, ?_⟩,
    ⟨segState 9 0 id (segUpdate fun x => { x with att := 0, life := 2 }), _, { testSegment with att := 0, life := 2 }, ?_, rfl, ?_, rfl, rfl, rfl, rfl,
      ?_, rfl⟩,
    ⟨segState 9 0 id wornArea, m, { testSegment with att := 0, life := 2, dirty := 1 },
      ?_, rfl, rfl, rfl, ?_, ?_, hm⟩,
    ⟨segState 9 0 id (segUpdate fun x => { x with reloading := true, waiters := [⟨1, [5], 0⟩] }),
      { testSegment with reloading := true, waiters := [⟨1, [5], 0⟩] }, bs, ⟨1, [5], 0⟩,
      ((segState 9 0 id id).unit? 1).getD default, ?_, rfl, rfl, rfl, hbs, ?_, ?_⟩⟩ <;> decide +kernel

/-- SEGQRY of the resident, attached segment of generation 3 (R288). -/
theorem test_segqry : ((testNext (exec (.segqry segqryWord) (segState 9 0 id id))).units.map fun u => (u.slice 0).pend.map fun r =>
    r.writes.map (·.val.val)) =
    [[[0xB0003, 0x100000, 0xB0003, 0x100000, 0xB0003, 0x100000, 0xB0003, 0x100000]]] := by decide +kernel

/-- v6 = c; the word's DATA is v6. -/
def segattWord : MemWord := { segWord with data := 6 }

def segattFits (s : State) (c : Nat) : Prop :=
  s.gang = some (testGang s) ∧ (∃ x rest, (testGang s).executing plain = x :: rest ∧ (((testGang s).u.slice x.1).getSpec x.2 6).val.toNat = c) ∧
  (∀ sl ∈ (testGang s).u.slices, ∀ r ∈ sl.pend, r.id < (testGang s).u.nextResult) ∧
  MemFits s (testGang s) 0x151 segattWord (segattWord.ofs = 0 ∧ segattWord.size = 0 ∧ segattWord.scope = 0 ∧ segattWord.order = 0 ∧
    segattWord.cache = false ∧ c / 2 ^ 9 % 2 ^ 7 = 0 ∧ (c.testBit 8 = true → c.testBit 7 = false ∧ c / 2 ^ 16 = 0))
    (addrOk (testGang s).head.regs true 2 = true ∧ vRunOk (testGang s).head.regs 6 1 1 = true ∧ c % 64 < (testGang s).u.ntags)
    (addrRegs segattWord true ++ [6]) (fun _ => none)

/-- The create record of segment 12 of one block, with and without a load, at VA 0x10800. -/
def createState (load : Nat) (segs : State → State) : State :=
  segState 0x10800 0x100 id fun s => segs (put8 0x40800 12 (put8 0x40808 0x18000 (put8 0x40810 (0x201 + load * 2 ^ 10) s)))

def createWords (s : State) : List DWord :=
  (List.range 4).map fun k => BitVec.ofNat 64
    ((testGang s).readLane (s.countElided 1 (planPieces (s.plan 1 ⟨.read, 1, false⟩ 0x10800 32))) (0, 0) 0
      (planPieces (s.plan 1 ⟨.read, 1, false⟩ 0x10800 32)) / 2 ^ (64 * k))

theorem witness_SegattAttachesReloadsOrCreates :
    (∃ s, segattFits s 0 ∧ (testGang s).u.tag 0 = ⟨2, 1, 0, none, false⟩) ∧
    (∃ s, segattFits s 0 ∧ (testGang s).u.tag 0 = ⟨0, 0, 0, none, false⟩ ∧ s.segment? 1 8 = none) ∧
    (∃ s y, segattFits s 0 ∧ s.segment? 1 9 = some y ∧ y.core = some (testGang s).u.core ∧ y.reloading = false) ∧
    (∃ s y, segattFits s 0x40 ∧ s.segment? 1 9 = some y ∧ y.core = none) ∧
    (∃ s, segattFits s 0 ∧ (s.bank 0 0).lastOp = some (s.clock, 5) ∧ (testGang s).slot < 5) ∧
    (∃ s y, segattFits s (0x80 + 5 * 2 ^ 16) ∧ s.segment? 1 9 = some y ∧ y.gen.toNat ≠ 5 ∧ y.core = some 0) ∧
    (∃ s y bs, segattFits s (0x80 + 5 * 2 ^ 16) ∧ s.segment? 1 9 = some y ∧ y.gen.toNat ≠ 5 ∧ y.core = none ∧ y.reloading = false ∧
      s.areaRoom 0 y.size = some 0 ∧ (s.noteSlot (testGang s)).readBacking y = .ok bs) ∧
    (∃ s y, segattFits s 0 ∧ s.segment? 1 9 = some y ∧ y.core = some (testGang s).u.core ∧ y.reloading = true) ∧
    (∃ s y, segattFits s 0 ∧ s.segment? 1 9 = some y ∧ y.core = some 5 ∧ 0 < y.att) ∧
    (∃ s y, segattFits s 0 ∧ s.segment? 1 9 = some y ∧ y.core = none ∧ s.areaRoom 0 y.size = some 0) ∧
    (∃ s y, segattFits s 0x100 ∧ ((createRecord (createWords s)).any fun r => r.name == 9) = true ∧ s.segment? 1 9 = some y) ∧
    ∀ load < 2, ∃ s, segattFits s 0x100 ∧ ((createRecord (createWords s)).any fun r => r.name == 12 && r.load == (load == 1)) = true ∧
      planFault (s.plan 1 ⟨.read, 1, false⟩ 0x10800 32) = none ∧ s.unreadable (planPieces (s.plan 1 ⟨.read, 1, false⟩ 0x10800 32)) = false ∧
      s.segment? 1 12 = none ∧ s.areaRoom 0 1 = some 0x1000 ∧ (s.segments.filter fun y => segmentDie y.name == segmentDie 12).length < 16384 := by
  have fits : ∀ (s : State) (c : Nat), s.gang.isSome = true → ((testGang s).executing plain = [(0, 0), (0, 1), (0, 2), (0, 3)] ∧
      (((testGang s).u.slice 0).getSpec 0 6).val.toNat = c ∧
      ∀ sl ∈ (testGang s).u.slices, ∀ r ∈ sl.pend, r.id < (testGang s).u.nextResult) →
      (decide ((testGang s).executing segattWord.c ≠ []) && s.featureOk 0x151 && (testGang s).classOk 0x151 1 &&
        decide ((testGang s).badReaders ((testGang s).executing segattWord.c) (addrRegs segattWord true ++ [6]) = []) &&
        decide (∀ x ∈ (testGang s).executing segattWord.c, (none : Option Nat) = none) &&
        !(testGang s).sbFull segattWord.c.sb ((testGang s).executing segattWord.c)) = true →
      (c / 2 ^ 9 % 2 ^ 7 = 0 ∧ (c.testBit 8 = true → c.testBit 7 = false ∧ c / 2 ^ 16 = 0)) →
      (addrOk (testGang s).head.regs true 2 = true ∧ vRunOk (testGang s).head.regs 6 1 1 = true ∧ c % 64 < (testGang s).u.ntags) →
      segattFits s c := fun s c g e m a b =>
    ⟨gang_of g, ⟨(0, 0), [(0, 1), (0, 2), (0, 3)], e.1, e.2.1⟩, e.2.2, memFits_of m ⟨rfl, rfl, rfl, rfl, rfl, a⟩ b⟩
  obtain ⟨bs, hbs⟩ : ∃ bs, ((segState 9 (0x80 + 5 * 2 ^ 16) id (segUpdate fun x => { x with core := none })).noteSlot (testGang
      (segState 9 (0x80 + 5 * 2 ^ 16) id (segUpdate fun x => { x with core := none })))).readBacking { testSegment with core := none } = .ok bs :=
    deviceOk (by decide +kernel)
  refine ⟨⟨segState 9 0 (fun u => { u with tags := [⟨2, 1, 0, none, false⟩] }) id, fits _ _ ?_ ?_ ?_ ?_ ?_, ?_⟩,
    ⟨segState 8 0 id id, fits _ _ ?_ ?_ ?_ ?_ ?_, ?_⟩, ⟨segState 9 0 id id, testSegment, fits _ _ ?_ ?_ ?_ ?_ ?_, ?_⟩,
    ⟨segState 9 0x40 id (segUpdate fun x => { x with core := none }), { testSegment with core := none }, fits _ _ ?_ ?_ ?_ ?_ ?_, ?_⟩,
    ⟨actedState (segState 9 0 id id), fits _ _ ?_ ?_ ?_ ?_ ?_, ?_⟩,
    ⟨segState 9 (0x80 + 5 * 2 ^ 16) id id, testSegment, fits _ _ ?_ ?_ ?_ ?_ ?_, ?_⟩,
    ⟨segState 9 (0x80 + 5 * 2 ^ 16) id (segUpdate fun x => { x with core := none }), { testSegment with core := none }, bs,
      fits _ _ ?_ ?_ ?_ ?_ ?_, ?_, ?_, ?_, ?_, ?_, hbs⟩,
    ⟨segState 9 0 id (segUpdate fun x => { x with reloading := true }), { testSegment with reloading := true }, fits _ _ ?_ ?_ ?_ ?_ ?_, ?_⟩,
    ⟨segState 9 0 id (segUpdate fun x => { x with core := some 5 }), { testSegment with core := some 5 }, fits _ _ ?_ ?_ ?_ ?_ ?_, ?_⟩,
    ⟨segState 9 0 id (segUpdate fun x => { x with core := none }), { testSegment with core := none }, fits _ _ ?_ ?_ ?_ ?_ ?_, ?_⟩,
    ⟨createState 0 (put8 0x40800 9), testSegment, fits _ _ ?_ ?_ ?_ ?_ ?_, ?_⟩, fun load h => ?_⟩
  case refine_71 =>
    rcases (by omega : load = 0 ∨ load = 1) with rfl | rfl
    · refine ⟨createState 0 id, fits _ _ ?_ ?_ ?_ ?_ ?_, ?_⟩ <;> decide +kernel
    · refine ⟨createState 1 id, fits _ _ ?_ ?_ ?_ ?_ ?_, ?_⟩ <;> decide +kernel
  all_goals decide +kernel

/-- SEGATT of a segment resident here answers its offset with status 0 (R287, R288). -/
theorem test_segatt : ((testNext (exec (.segatt segattWord) (segState 9 0 id id))).units.map fun u => ((u.slice 0).pend.map fun r =>
    r.writes.map (·.val.val), u.segs)) = [([[0x100000, 0x100000, 0x100000, 0x100000]], [9, 9])] := by decide +kernel

/-! ### Streamer commands -/

/-- A copy of four words from VA 0x10800 to scratch offset 0; a gather and a scatter of row 0 with the index list at 0x10C00. -/
def cpyDesc : List Word := [0x10800, 0, 0, 0, 0x42, 3, 0, 0, 0, 0, 4, 0, 0, 0, 0, 0]
def gatherDesc : List Word := [0x10800, 0, 0, 0, 0x42, 3, 0, 0x10C00, 0, 0, 4, 1, 16, 0, 16, 0]
def collDesc : List Word := [0x10800, 0, 0x10900, 0, 0x10A00, 0, 4, 0x5000E]

def runOf (base : Nat) (d : List Word) : List (Nat × Word) := d.zipIdx.map fun e => (base + e.2, e.1)

/-- Lane 0's pairs v2:v3 and v4:v5 hold VA 0x10800 and 0x10820, v6 is 0, v10:v11 is 5; a descriptor stands in v16-v31, one in v32-v39. -/
def commandState (d : List Word) (unit : WorkUnit → WorkUnit) (rest : State → State) : State :=
  testState 0 (fun _ => [(2, 0x10800), (4, 0x10820), (10, 5)] ++ runOf 16 d ++ runOf 32 collDesc)
    (fun u => unit { memUnit u with ntiles := 1, ntags := 1, tags := [⟨0, 0, 0, none, false⟩] })
    fun s => rest (put8 0x40800 0x700000005 s)

def cpyWord (m : BitVec 6) : StdWord := ⟨plain, 0, 16, .spec (if m = 4 then 4 else 0), 0, m⟩
def wbldWord (m : BitVec 6) : StdWord := ⟨plain, 0, if m = 4 then 6 else 2, .spec 6, 0, m⟩
def collWord : StdWord := ⟨plain, 0, 32, .spec 0, 0, 0⟩
def annqWord : StdWord := ⟨plain, 0, 2, .spec 4, 0, 0⟩
def eqfenceWord : StdWord := ⟨plain, 0, 0, .spec 0, 0, 3⟩
def cwaitWord : StdWord := ⟨plain, 0, 2, .spec 10, 0, 4⟩

def noFn : LaneFn := fun _ _ _ _ _ => {}
def cpyEntry (counted : Bool) (reads : List Nat) : AluEntry :=
  { mods := 63, dst := .unused, a := .field, b := if counted then .field else .unused, reads, fn := noFn }

def theCwait : AluEntry := { mods := 63, dst := .unused, a := .field, b := src64 anyTag, reads := runRegs 2 2, fn := noFn }

theorem witness_CommandsEnterAndCountersAreWaitedFor :
    (∃ s x rest, s.gang = some (testGang s) ∧ (testGang s).executing plain = x :: rest ∧
      (OnceFits s (testGang s) 0x188 (cpyWord 0) (cpyEntry false (runRegs 16 16)) ∧
        descRunOk (testGang s).head.regs 16 16 = true ∧
        descBad (testGang s).u ((List.range 16).map fun k => (((testGang s).u.slice x.1).getSpec x.2 (16 + k)).val) 0 = false) ∧
      OnceFits s (testGang s) 0x188 (cpyWord 4) (cpyEntry true (runRegs 16 16 ++ runRegs 4 2)) ∧
      (OnceFits s (testGang s) 0x1A2 (wbldWord 0) { mods := 15, dst := .unused, a := .field, b := src32 anyTag, reads := runRegs 2 2, fn := noFn } ∧
        pairSpecOk (testGang s).head.regs 2 = true ∧ onceValue (testGang s) (wbldWord 0) false (.spec 6) = 0 ∧ 32 ≤ (testGang s).u.ntiles * 16384) ∧
      (OnceFits s (testGang s) 0x1A2 (wbldWord 4) { mods := 15, dst := .unused, a := src32 anyTag, b := src32 anyTag, fn := noFn } ∧
        onceValue (testGang s) (wbldWord 4) false (.spec 6) % 32 = 0) ∧
      (OnceFits s (testGang s) 0x191 collWord { dst := .unused, a := .field, reads := runRegs 32 8, fn := noFn } ∧ descRunOk (testGang s).head.regs 32 8 = true ∧
        collBad ((List.range 8).map fun k => (((testGang s).u.slice x.1).getSpec x.2 (32 + k)).val) = false) ∧
      (OnceFits s (testGang s) 0x1B0 annqWord { mods := 15, dst := .unused, a := .field, b := .field, reads := runRegs 2 2 ++ runRegs 4 2, fn := noFn } ∧
        pairSpecOk (testGang s).head.regs 2 = true ∧ pairSpecOk (testGang s).head.regs 4 = true ∧
        ((testGang s).u.slice x.1).runValue x.2 2 2 = 0x10800 ∧ ((testGang s).u.slice x.1).runValue x.2 4 2 = 0x10820) ∧
      OnceFits s (testGang s) 0x190 eqfenceWord { mods := 15, dst := .unused, fn := noFn } ∧
      (testGang s).ref.home = (testGang s).u.pgang ∧ ∀ q < 4, ((s.bank 0 0).queues.getD q []).length < 64) ∧
    (∃ s, s.gang = some (testGang s) ∧ OnceFits s (testGang s) 0x189 (cpyWord 0) (cpyEntry false (runRegs 16 16)) ∧
      OnceFits s (testGang s) 0x18A (cpyWord 0) (cpyEntry false (runRegs 16 16)) ∧
      descBad (testGang s).u ((List.range 16).map fun k => (((testGang s).u.slice 0).getSpec 0 (16 + k)).val) 1 = false ∧
      descBad (testGang s).u ((List.range 16).map fun k => (((testGang s).u.slice 0).getSpec 0 (16 + k)).val) 2 = false) ∧
    (∃ s, s.gang = some (testGang s) ∧ OnceFits s (testGang s) 0x190 eqfenceWord { mods := 15, dst := .unused, fn := noFn } ∧
      (testGang s).ref.home ≠ (testGang s).u.pgang) ∧
    (∃ s, s.gang = some (testGang s) ∧ OnceFits s (testGang s) 0x190 eqfenceWord { mods := 15, dst := .unused, fn := noFn } ∧
      (testGang s).ref.home = (testGang s).u.pgang ∧ 64 ≤ ((s.bank 0 0).queues.getD 0 []).length) ∧
    let counter := fun (s : State) => ∃ ps, s.plan (testGang s).u.ctx ⟨.read, 8, false⟩ (((testGang s).u.slice 0).runValue 0 2 2) 8 = .ok ps ∧
      s.unreadable ps = false ∧ s.remoteWake ps = false ∧ OnceFits s (testGang s) 0x18D cwaitWord theCwait
    (∃ s c, s.gang = some (testGang s) ∧ counter s ∧ (testGang s).u.latches.getD 0 none = some c) ∧
    (∃ s, s.gang = some (testGang s) ∧ counter s ∧ (testGang s).u.latches.getD 0 none = none ∧
      onceValue (testGang s) cwaitWord true (.spec 10) ≤ s.natAt 0x40800 8) ∧
    ∃ s, s.gang = some (testGang s) ∧ counter s ∧ (testGang s).u.latches.getD 0 none = none ∧
      s.natAt 0x40800 8 < onceValue (testGang s) cwaitWord true (.spec 10) := by
  refine ⟨⟨commandState cpyDesc id id, (0, 0), [(0, 1), (0, 2), (0, 3)], rfl, ?_, ⟨onceFits_of ?_, ?_, ?_⟩, onceFits_of ?_, ⟨onceFits_of ?_, ?_⟩,
      ⟨onceFits_of ?_, ?_⟩, ⟨onceFits_of ?_, ?_, ?_⟩, ⟨onceFits_of ?_, ?_⟩, onceFits_of ?_, ?_⟩,
    ⟨commandState gatherDesc id id, rfl, onceFits_of ?_, onceFits_of ?_, ?_⟩,
    ⟨commandState cpyDesc (fun u => { u with pgang := 1 }) id, rfl, onceFits_of ?_, ?_⟩,
    ⟨commandState cpyDesc id fun s => s.modifyBank 0 0 fun b => { b with queues := [List.replicate 64 default, [], [], []] }, rfl,
      onceFits_of ?_, ?_⟩,
    ⟨commandState cpyDesc (fun u => { u with latches := [some .physUnmapped, none, none, none] }) id, .physUnmapped, rfl,
      ⟨_, plan_ok ?_, ?_, ?_, onceFits_of ?_⟩, ?_⟩,
    ⟨commandState cpyDesc id id, rfl, ⟨_, plan_ok ?_, ?_, ?_, onceFits_of ?_⟩, ?_⟩,
    ⟨commandState cpyDesc id (put8 0x40800 4), rfl, ⟨_, plan_ok ?_, ?_, ?_, onceFits_of ?_⟩, ?_⟩⟩ <;> decide +kernel

/-- A command at the head of queue e0 of the unit's bank. -/
def queueState (kind : CommandKind) (counter : Option DWord) : State :=
  commandState cpyDesc (fun u => { u with tags := [⟨1, 0, 1, none, false⟩] }) fun s => put8 0x40808 9 (s.modifyBank 0 0 fun b =>
    { b with queues := [[⟨7, 1, kind, some 0, counter, 3, false, 0⟩], [], [], []] })

theorem enginePieces_ok {e : Except Cause (List Piece)} (h : e.toOption.isSome = true) : e = .ok (e.toOption.getD []) := by
  cases e <;> simp_all [Except.toOption]

/-- CPY: element k of row 0 comes from VA 0x10800 + 4k while k is below the extent 4 (R296). -/
theorem witness_CopyCommandsArePerformed :
    (∃ (s : State) (c : Command) (u : WorkUnit) (g : Nat → Nat → Nat → Element) (data : Nat → List Byte),
      (s.bank u.core u.bank).queues.getD 0 [] = [c] ∧ s.unit? c.unit = some u ∧ c.kind = .cpy cpyDesc ∧ (s.context u.ctx).isSome = true ∧
      (∀ z y (k : Nat), (0 ≤ (k : Int) ∧ (k : Int) < 4 → g z y k = .copy ((0x10800 + k * 4) % 2 ^ 64)) ∧ (¬ (k : Int) < 4 → g z y k = .zero)) ∧
      c.counter = none ∧ u.badScratch = [] ∧ u.releases = [] ∧ (∀ t, c.tag = some t → t < u.tags.length) ∧ u.scratchLen = 64 ∧
      ∀ k < 4, ∃ ps, s.enginePieces u.ctx .read (0x10800 + 4 * k) 4 = .ok ps ∧ (∀ p ∈ ps, s.uncorrectableAt p.leaf.pa p.len = false) ∧
        data (0x10800 + 4 * k) = s.readPieces ps) ∧
    (∃ (s : State) (u : WorkUnit), s.unit? 1 = some u ∧ u.releases = [] ∧ ∃ ps, s.enginePieces u.ctx .read 0x10C00 4 = .ok ps ∧
      (∀ p ∈ ps, s.uncorrectableAt p.leaf.pa p.len = false) ∧ natLe 4 0 = s.readPieces ps ∧ (0 : Nat) < 2 ^ 32 ∧ (0 : Nat) < descAt gatherDesc 11) ∧
    (∃ (s : State) (u : WorkUnit), s.unit? 1 = some u ∧ u.releases = [] ∧ u.residence ≠ .exited) ∧
    (∃ (s : State) (c : Command) (u : WorkUnit), (s.bank 0 0).queues.getD 0 [] = [c] ∧ c.kind = .fence 7 ∧ s.unit? c.unit = some u) ∧
    ∃ (s : State) (p : Piece), s.enginePieces 1 .write 0x10808 8 = .ok [p] ∧ s.uncorrectableAt p.leaf.pa 8 = false := by
  refine ⟨⟨queueState (.cpy cpyDesc) none, ⟨7, 1, .cpy cpyDesc, some 0, none, 3, false, 0⟩, ((queueState (.cpy cpyDesc) none).unit? 1).getD default,
      fun _ _ k => if k < 4 then .copy ((0x10800 + k * 4) % 2 ^ 64) else .zero,
      fun a => (queueState (.cpy cpyDesc) none).readPieces (((queueState (.cpy cpyDesc) none).enginePieces 1 .read a 4).toOption.getD []),
      ?_, ?_, rfl, ?_, fun z y k => ⟨fun h => if_pos (by omega), fun h => if_neg (by omega)⟩, rfl, ?_, ?_, ?_, ?_, fun k hk =>
        ⟨_, enginePieces_ok ?_, ?_, ?_⟩⟩,
    ⟨commandState gatherDesc id id, ((commandState gatherDesc id id).unit? 1).getD default, ?_, ?_, _, enginePieces_ok ?_, ?_⟩,
    ⟨commandState cpyDesc id id, ((commandState cpyDesc id id).unit? 1).getD default, ?_, ?_, ?_⟩,
    ⟨queueState (.fence 7) none, ⟨7, 1, .fence 7, some 0, none, 3, false, 0⟩, ((queueState (.fence 7) none).unit? 1).getD default, ?_, rfl, ?_⟩,
    ⟨queueState (.cpy cpyDesc) none, ((((queueState (.cpy cpyDesc) none).enginePieces 1 .write 0x10808 8).toOption.getD []).headD default),
      (enginePieces_ok ?_).trans (congrArg Except.ok ?_), ?_⟩⟩
  case refine_6 => intro t h; cases h; decide +kernel
  case refine_8 => revert k; decide +kernel
  case refine_9 => revert k; decide +kernel
  case refine_10 => revert k; decide +kernel
  all_goals decide +kernel

/-- The copy: 5 and 7 stand in the scratchpad, one sector is counted on tag 0, and the queue is empty (R296, R299, R303). -/
theorem test_cpy : let t := testNext (exec (.copyPerform 0 0 0) (queueState (.cpy cpyDesc) none))
    ((t.units.map fun u => (u.scratch, (u.tag 0).c)), (t.bank 0 0).queues) = ([([(0, 5), (4, 7), (8, 9)], 1)], [[], [], [], []]) := by decide +kernel

/-- A fence that heads both its queues goes from both (R301). -/
theorem test_eqfence : ((testNext (exec (.copyPerform 0 0 0) (commandState cpyDesc id fun s => s.modifyBank 0 0 fun b =>
    { b with queues := [[⟨7, 1, .fence 7, none, none, 0, false, 0⟩], [⟨7, 1, .fence 7, none, none, 0, false, 0⟩], [], []] }))).bank 0 0).queues =
    [[], [], [], []] := by decide +kernel

/-! #### Collectives -/

def theColl : Collective :=
  { (default : Collective) with
    id := 30, unit := 1, command := 7, cnum := 5, occurrence := 1, params := ⟨2, 3, 0, 1⟩, dst := 0x10900, counter := 0x10A00, ctx := 1,
    inputs := [(0, [1, 2, 3, 4])] }

def collState (c : Collective) (rest : State → State) : State :=
  commandState cpyDesc id fun s => rest ({ s with collectives := [c] }.modifyBank 0 0 fun b =>
    { b with queues := [[⟨7, 1, .coll collDesc 0, none, none, 0, true, 0⟩], [], [], []] })

/-- The launch runs on two chips. -/
def twoChips : State → State := launchIs fun l => { l with words := List.replicate 5 0 ++ [2] ++ List.replicate 10 0 }

/-- R310's tree over 2^24, 1, 1, 1, 1 gives 0x4B80_0002. -/
theorem test_tree : tree (collOp 0 ⟨2, 0, 0, 1⟩) [0x4B800000, 0x3F800000, 0x3F800000, 0x3F800000, 0x3F800000] = 0x4B800002 := by
  decide +kernel

theorem witness_CollectivesCombineTheirInputs :
    (∃ (l : List Nat), 2 ≤ l.length ∧ l[2 * 0]? = some 1 ∧ l[2 * 0 + 1]? = some 2 ∧ l[2 * 1]? = some 3 ∧ l[2 * 1 + 1]? = none) ∧
    (∃ (p q : CollParams), p.kind = 1 ∧ q.kind ≠ 1 ∧ 0 < q.count ∧ q.fmt = 3) ∧
    (∃ (s : State) (c : Command) (u : WorkUnit) (l : Launch) (ps : List Piece), (s.bank 0 0).queues.getD 0 [] = [c] ∧ c.kind = .coll collDesc 0 ∧
      c.begun = false ∧ s.unit? c.unit = some u ∧ s.launch? u.die u.lslot = some l ∧ s.early = [] ∧
      s.enginePieces u.ctx .read 0x10800 16 = .ok ps ∧ ∀ q ∈ ps, s.uncorrectableAt q.leaf.pa q.len = false) ∧
    (∃ (s : State) (m n : CollMessage) (c : Collective) (l : Launch), s.collectives = [c] ∧ s.launch? c.die c.lslot = some l ∧
      (c.generation = m.generation ∧ c.cnum = m.cnum ∧ c.occurrence = m.occurrence) ∧ c.cnum ≠ n.cnum ∧
      1 < l.chips ∧ l.chip0 ≤ m.chip ∧ m.chip < l.chip0 + l.chips ∧ m.params = c.params ∧ m.input = some [1, 0, 0, 0] ∧
      ∀ e ∈ c.inputs, e.1 ≠ m.chip - l.chip0) ∧
    (∃ (s : State) (c : Collective) (cmd : Command) (u : WorkUnit) (l : Launch) (x : Context) (p : Piece) (m : State),
      s.collectives.find? (·.id == c.id) = some c ∧ (s.bank c.core c.bank).queues.getD 0 [] = [cmd] ∧ cmd.id = c.command ∧ s.unit? cmd.unit = some u ∧
      u.releases = [] ∧ cmd.tag = none ∧ s.launch? c.die c.lslot = some l ∧ c.failed = none ∧ c.inputs.length = (if 1 < l.chips then l.chips else 1) ∧
      s.context c.ctx = some x ∧
      let out := collResult x.fpmode c.params (if 1 < l.chips then s.chip - l.chip0 else 0)
        ((List.range c.inputs.length).map fun r => ((c.inputs.find? (·.1 == r)).map (·.2)).getD [])
      out.length = 4 ∧ s.enginePieces c.ctx .write c.dst.toNat 4 = .ok [p] ∧ p.len = 4 ∧ s.uncorrectableAt p.leaf.pa 4 = false ∧
      ((s.storeBytes p.leaf.pa out)).counterAdd c.ctx c.counter 1 = .ok m) ∧
    (∃ (s : State) (l : Launch), s.collectives = [{ theColl with failed := some .collMismatch }] ∧ s.launch? 0 0 = some l) ∧
    ∃ (s : State) (c : Collective) (l : Launch), s.collectives = [c] ∧ s.launch? c.die c.lslot = some l ∧ c.failed = none ∧
      c.inputs.length < (if 1 < l.chips then l.chips else 1) ∧ c.since + 2 ^ 28 ≤ s.clock := by
  let piece : Piece := (((collState theColl id).enginePieces 1 .write 0x10900 4).toOption.getD []).headD default
  have add : ∃ m, ((collState theColl id).storeBytes piece.leaf.pa [1, 2, 3, 4]).counterAdd 1 0x10A00 1 = .ok m := by
    have h : (((collState theColl id).storeBytes piece.leaf.pa [1, 2, 3, 4]).counterAdd 1 0x10A00 1).toOption.isSome = true := by decide +kernel
    cases e : ((collState theColl id).storeBytes piece.leaf.pa [1, 2, 3, 4]).counterAdd 1 0x10A00 1 with
    | error c => rw [e] at h; simp [Except.toOption] at h
    | ok m => exact ⟨m, rfl⟩
  obtain ⟨m, hm⟩ := add
  refine ⟨⟨[1, 2, 3], by decide⟩, ⟨⟨1, 3, 0, 1⟩, ⟨2, 3, 0, 1⟩, by decide⟩,
    ⟨queueState (.coll collDesc 0) none, ⟨7, 1, .coll collDesc 0, some 0, none, 3, false, 0⟩, ((queueState (.coll collDesc 0) none).unit? 1).getD default,
      ((queueState (.coll collDesc 0) none).launch? 0 0).getD default, _, ?_, rfl, rfl, ?_, ?_, ?_, enginePieces_ok ?_, ?_⟩,
    ⟨collState theColl twoChips, ⟨0, 1, 5, 1, ⟨2, 3, 0, 1⟩, some [1, 0, 0, 0], false⟩, ⟨0, 1, 6, 1, ⟨2, 3, 0, 1⟩, none, true⟩, theColl,
      ((collState theColl twoChips).launch? 0 0).getD default, ?_⟩,
    ⟨collState theColl id, theColl, ⟨7, 1, .coll collDesc 0, none, none, 0, true, 0⟩, ((collState theColl id).unit? 1).getD default,
      ((collState theColl id).launch? 0 0).getD default, ((collState theColl id).context 1).getD default, piece, m, ?_, ?_, rfl, ?_, ?_, rfl, ?_, rfl, ?_, ?_,
      ?_, (enginePieces_ok ?_).trans (congrArg Except.ok ?_), ?_, ?_, hm⟩,
    ⟨collState { theColl with failed := some .collMismatch } id, ((collState theColl id).launch? 0 0).getD default, ?_⟩,
    ⟨collState theColl fun s => twoChips { s with clock := 2 ^ 28 }, theColl, ((collState theColl twoChips).launch? 0 0).getD default, ?_⟩⟩ <;>
    decide +kernel

/-- The one chip's reduction is its input; the counter goes up and the queue goes on (R310, R311). -/
theorem test_coll : let t := testNext (exec (.collComplete 30) (collState theColl id))
    ([0x40900, 0x40A00].map fun a => t.natAt a 8, (t.bank 0 0).queues, t.collectives) = ([0x04030201, 1], [[], [], [], []], []) := by decide +kernel

/-! ### The matrix unit -/

/-- 8 by 8 elements of I8 and I8 into one I32 tile, rows of A 64 bytes apart (R315). -/
def matBlock : DWord := BitVec.ofNat 64 (0x50540 + 2 ^ 32 + 64 * 2 ^ 40)

/-- v2:v3 A and scale offsets, v4:v5 a block, v6 B offset, v7 a tile mask, v8-v11 an MLOOP's run, v12 a batch, v13 an element index, v14 and v15
a tile's place and stride. -/
def matState (rest : WorkUnit → WorkUnit) (batch mask : Word) : State :=
  testState 0 (fun _ => [(4, 0x50540), (5, 0x4001), (7, mask), (8, 1), (9, 64), (10, 512), (12, batch), (14, 512), (15, 32)])
    (fun u => rest { u with ntiles := 1, scratchLen := 1024, cfgIssued := some matBlock }) id

def matWord (dst srcA : BitVec 9) (b : BSource) (c : BitVec 9) : StdWord := ⟨plain, dst, srcA, b, c, 0⟩
def tcfgWord : StdWord := matWord 0 4 (.spec 0) 0
def tzeroWord : StdWord := matWord 0 7 (.spec 0) 0
def mmaWord : StdWord := matWord 0 2 (.spec 6) 0
def mloopWord : StdWord := matWord 0 2 (.spec 6) 8
def mfenceWord : StdWord := matWord 0 0 (.spec 0) 0
def mwaitWord : StdWord := matWord 0 12 (.spec 0) 0
def tldWord : StdWord := { matWord 20 13 (.spec 0) 0 with c := { plain with sb := 1 } }
def tstWord : StdWord := matWord 0 14 (.spec 15) 0

def tcfgEntry : AluEntry := { once := true, dst := .unused, a := .field, reads := runRegs 4 2, fn := noFn }
def oneEntry : AluEntry := { once := true, dst := .unused, a := src32 anyTag, fn := noFn }
def mfenceEntry : AluEntry := { once := true, dst := .unused, fn := noFn }
def mmaEntry : AluEntry := { once := true, mods := 1, dst := .field, a := .field, b := src32 anyTag, c := .unused, reads := runRegs 2 2, fn := noFn }
def mloopEntry : AluEntry := { once := true, mods := 1, dst := .field, a := .field, b := src32 anyTag, c := .field, reads := runRegs 2 2 ++ runRegs 8 4, fn := noFn }
def tldEntry : AluEntry := { mods := 15, dst := .field, a := src32 anyTag, fn := noFn }
def tstEntry : AluEntry := { once := true, mods := 63, dst := .unused, a := src32 anyTag, b := src32 anyTag, fn := noFn }

def matBase (s : State) : Prop :=
  s.gang = some (testGang s) ∧ (testGang s).executing plain = [(0, 0), (0, 1), (0, 2), (0, 3)] ∧
    OnceFits s (testGang s) 0x1A0 tcfgWord tcfgEntry ∧ OnceFits s (testGang s) 0x1A1 tzeroWord oneEntry ∧
    OnceFits s (testGang s) 0x1A5 mfenceWord mfenceEntry ∧ OnceFits s (testGang s) 0x1A6 mwaitWord oneEntry

theorem matBase_of {s : State} (g : s.gang.isSome = true) (e : (testGang s).executing plain = [(0, 0), (0, 1), (0, 2), (0, 3)])
    (h : (onceCheck s (testGang s) 0x1A0 tcfgWord tcfgEntry && (onceCheck s (testGang s) 0x1A1 tzeroWord oneEntry &&
      (onceCheck s (testGang s) 0x1A5 mfenceWord mfenceEntry && onceCheck s (testGang s) 0x1A6 mwaitWord oneEntry))) = true) : matBase s := by
  obtain ⟨a, h⟩ := Bool.and_eq_true_iff.mp h
  obtain ⟨b, h⟩ := Bool.and_eq_true_iff.mp h
  obtain ⟨c, d⟩ := Bool.and_eq_true_iff.mp h
  exact ⟨gang_of g, e, onceFits_of a, onceFits_of b, onceFits_of c, onceFits_of d⟩

def matA (s : State) (w : StdWord) : Nat := onceValue (testGang s) w false (.spec w.srcA)

theorem witness_MatrixWordsEnterTheQueue :
    let step := fun (base inc : Word) (k : Nat) => (base.toNat : Int) + k * inc.toInt
    (∃ s c, matBase s ∧ pairSpecOk (testGang s).head.regs 4 = true ∧ ((testGang s).u.slice 0).runValue 0 4 2 = matBlock.toNat ∧
      (testGang s).u.cfgIssued = some matBlock ∧ matCfg (testGang s).u.ntiles matBlock = some c ∧ (testGang s).u.matq.length < 16 ∧
      (matA s tzeroWord = 1 ∧ ∀ t < 16, (1 : Nat).testBit t = true → t < c.tcnt ∧ (c.cfmt = 2 → t % 2 = 0)) ∧
      (OnceFits s (testGang s) 0x1A3 mmaWord mmaEntry ∧ OnceFits s (testGang s) 0x1A4 mloopWord mloopEntry) ∧
      (pairSpecOk (testGang s).head.regs 2 = true ∧ descRunOk (testGang s).head.regs 8 4 = true) ∧
      ((List.range 4).map (fun k => (((testGang s).u.slice 0).getSpec 0 (8 + k)).val) = [1, 64, 512, 0] ∧
        ((testGang s).u.slice 0).runValue 0 2 2 = 0 ∧ onceValue (testGang s) mmaWord false (.spec 6) = 0) ∧
      (∀ k < 2, (∀ m < c.m, s.scratchBad (testGang s).u (step 0 64 k + (m * c.astr : Nat)) 64 = none) ∧ step 0 64 k % 4 = 0 ∧
        step 0 512 k % 32 = 0 ∧ 0 ≤ step 0 512 k ∧ step 0 512 k + c.layout.size ≤ ((testGang s).u.ntiles * 16384 : Nat)) ∧
      c.aScales = false ∧
      ((testGang s).u.batchClosed = 0 ∧ matA s mwaitWord = 0 ∧ (testGang s).u.matError = none ∧
        ((testGang s).u.matq.filter (·.kind == .fence)).length ≤ 0) ∧
      (OnceFits s (testGang s) 0x1A7 tldWord tldEntry ∧ vRunOk (testGang s).head.regs 20 1 1 = true ∧ (testGang s).u.matStopped = none ∧
        ∀ y ∈ (testGang s).executing plain, (((testGang s).u.slice y.1).readSpec y.2 (intUse false anyTag) 13).val = 0) ∧
      OnceFits s (testGang s) 0x1A8 tstWord tstEntry ∧ matA s tstWord = 512 ∧ onceValue (testGang s) tstWord false (.spec 15) = 32 ∧
        c.n * 4 ≤ 32 ∧ ∀ m < c.m, s.scratchBad (testGang s).u ((512 + m * 32 : Nat) : Int) (c.n * 4) = none) ∧
    (∃ s, matBase s ∧ (testGang s).u.cfgIssued = none) ∧
    (∃ s, matBase s ∧ 16 ≤ (testGang s).u.matq.length ∧ ((testGang s).u.matq.any fun o => o.kind == .wait (testGang s).ref) = false) ∧
    (∃ s, matBase s ∧ ((testGang s).u.matq.any fun o => o.kind == .wait (testGang s).ref) = true ∧ (testGang s).u.matError = none ∧
      ((testGang s).u.matq.filter (·.kind == .fence)).length ≤ ((testGang s).u.batchClosed - BitVec.ofNat 32 (matA s mwaitWord)).toNat) ∧
    (∃ s, matBase s ∧ (testGang s).u.matStopped ≠ none ∧ ∃ o ∈ (testGang s).u.matq, o.kind = .tcfg o.cfg) ∧
    (∃ s, matBase s ∧ (testGang s).u.ntiles = 0 ∧ matCfg 0 matBlock = none) ∧
    (∃ s, matBase s ∧ 2 ^ 16 ≤ matA s tzeroWord) ∧ (∃ s, matBase s ∧ matA s tzeroWord = 2) ∧
    (∃ s, matBase s ∧ 2 ^ 31 < ((testGang s).u.batchClosed - BitVec.ofNat 32 (matA s mwaitWord)).toNat) ∧
    (∃ s t, matBase s ∧ (testGang s).u.matError = some t ∧ ((testGang s).u.batchClosed - BitVec.ofNat 32 (matA s mwaitWord)).toNat ≤ 2 ^ 31) ∧
    ∃ s, matBase s ∧ (testGang s).u.matError = none ∧ ((testGang s).u.batchClosed - BitVec.ofNat 32 (matA s mwaitWord)).toNat <
      ((testGang s).u.matq.filter (·.kind == .fence)).length := by
  intro step
  refine ⟨⟨matState id 0 1, (matCfg 1 matBlock).getD default, matBase_of ?_ ?_ ?_, ?_, ?_, ?_, ?_, ?_, ?_, ⟨onceFits_of ?_, onceFits_of ?_⟩, ?_, ?_, ?_, ?_, ?_,
      ⟨onceFits_of ?_, ?_⟩, onceFits_of ?_, ?_⟩,
    ⟨matState (fun u => { u with cfgIssued := none }) 0 1, matBase_of ?_ ?_ ?_, ?_⟩,
    ⟨matState (fun u => { u with matq := List.replicate 16 ⟨.fence, matBlock, 0, 0⟩ }) 0 1, matBase_of ?_ ?_ ?_, ?_⟩,
    ⟨matState (fun u => { u with matq := [⟨.wait ⟨1, 0, 0⟩, matBlock, 0, 0⟩] }) 0 1, matBase_of ?_ ?_ ?_, ?_⟩,
    ⟨matState (fun u => { u with matStopped := some 0, matq := [⟨.tcfg matBlock, matBlock, 0, 0⟩] }) 0 1, matBase_of ?_ ?_ ?_, ?_⟩,
    ⟨matState (fun u => { u with ntiles := 0 }) 0 1, matBase_of ?_ ?_ ?_, ?_⟩, ⟨matState id 0 0x10000, matBase_of ?_ ?_ ?_, ?_⟩,
    ⟨matState id 0 2, matBase_of ?_ ?_ ?_, ?_⟩, ⟨matState id 1 1, matBase_of ?_ ?_ ?_, ?_⟩,
    ⟨matState (fun u => { u with matError := some 0 }) 0 1, 0, matBase_of ?_ ?_ ?_, ?_⟩,
    ⟨matState (fun u => { u with matq := [⟨.fence, matBlock, 0, 0⟩] }) 0 1, matBase_of ?_ ?_ ?_, ?_⟩⟩ <;> decide +kernel

/-- MLOOP puts two steps into the queue (R334). -/
theorem test_mloop : ((testNext (exec (.mloop mloopWord) (matState id 0 1))).units.map fun u => u.matq.map (·.kind)) =
    [[.mma 0 false 2 0 0 0 64 512 0]] := by decide +kernel

/-- A unit whose matrix queue holds one operation; A's first row is 2, -3, B's first column 5, 7, element (0, 0) is 10. -/
def matOpState (kind : MatKind) : State :=
  matState (fun u => { u with
    matq := [⟨kind, matBlock, 0, 0⟩], scratch := [(0, 2), (1, 0xFD)], weights := [(0, 5), (1, 7)], tiles := [(0, 10)] }) 0 1

theorem witness_MatrixOperationsArePerformed :
    (∀ kind : MatKind, ∃ (s : State) (u : WorkUnit) (op : MatOp), s.unit? 1 = some u ∧ u.matq = [op] ∧ op.kind = kind ∧ u.releases = [] ∧ u.residence = .resident ∧
      (s.core u.core).active = u.bank ∧ u.ntiles = 1 ∧ op.cfg = matBlock ∧ u.matStopped = none ∧ u.badTiles = [] ∧ u.badScratch = []) ∧
    (∃ c, matCfg 1 matBlock = some c ∧ 512 + c.m * 32 ≤ 0x100000 ∧ c.n * tstSize c false ≤ 32 ∧ c.cfmt = 1 ∧ c.bcomp = 0 ∧
      ∀ z, ((matOpState .fence).unit? 1).any fun u => !(matOpState .fence).stepBad u c 0 z ⟨0, 0, 0⟩) := by
  refine ⟨fun kind => ⟨matOpState kind, ((matOpState kind).unit? 1).getD default, ⟨kind, matBlock, 0, 0⟩, rfl, rfl, rfl, rfl, rfl, rfl, rfl, rfl, rfl, rfl, rfl⟩,
    (matCfg 1 matBlock).getD default, ?_⟩
  decide +kernel

/-- One K-step: 10 + 2 * 5 - 3 * 7 = -1 in element (0, 0), the rest unchanged (R321, R322). -/
theorem test_kstep : ((testNext (exec (.kStep 1) (matOpState (.mma 0 false 1 0 0 0 0 0 0)))).units.map fun u => (u.tiles, u.matq)) =
    [([(0, 0xFFFFFFFF)], [])] := by decide +kernel

/-! ### Search -/

/-- A graph of two nodes of four U8 elements at VA 0x11000, its descriptor at 0x10C00, a query packet at 0x10B00: one entry point, node 0. -/
def searchState (rest : State → State) : State :=
  commandState cpyDesc id fun s => rest ((put8 0x40C00 0x11000 (put8 0x40C60 2 (put8 0x40C90 (3 + 6 * 2 ^ 12 + 4 * 2 ^ 32) (put8 0x40C98 32
    (put8 0x41000 (0x04030201 + 2 ^ 32) (put8 0x41008 1 (put8 0x41020 (2 ^ 32) (put8 0x40B00 0x10C00 (put8 0x40B08 0x10E00
    (put8 0x40B10 (3 + 6 * 2 ^ 12 + 2 ^ 24 + 2 ^ 32 + 5 * 2 ^ 48) (put8 0x40B40 0x01010101 s))))))))))).modifyBank 0 0 fun b =>
      { b with queues := [[⟨7, 1, .annq 0x10B00, none, none, 0, false, 0⟩], [], [], []] })

def askedQuery (s : State) : Query :=
  { (default : Query) with id := s.nextId, core := 0, bank := 0, queue := 0, unit := 1, ctx := 1, command := 7, packet := 0x10B00 }

/-- The query as it begins, with node 0 to evaluate. -/
def theQuery : Query :=
  { (default : Query) with
    id := 2, unit := 1, ctx := 1, command := 7, packet := 0x10B00, visited := [0], fresh := [0], msgs := [.eval 0]
    head := [0x10C00, 0x10E00, 0x5000101006003, 0, 0, 0, 0, 0]
    graph := 0x11000 :: List.replicate 11 0 ++ [2, 0, 0, 0, 0, 0, 0x400006003, 0x20] ++ List.replicate 12 0
    vector := [1, 1, 1, 1] }

/-- What the engine reads at the start of a query (R344). -/
theorem test_query_begins : ((askedQuery (searchState id)).begin (Engine.start (searchState id).newId.2 1 1)).1 = theQuery := by decide +kernel

def queryState (f : Query → Query) : State := searchState fun s => { s with queries := [f theQuery] }

def theList : ListReply := ⟨0, 1, [1], none⟩
def theDist : DistReply := ⟨0, 0x41600000, none⟩

theorem witness_SearchMessagesRunTheRounds :
    let read := fun (s : State) va k => ∃ ps, s.enginePieces 1 .read va k = .ok ps ∧ ∀ p ∈ ps, s.uncorrectableAt p.leaf.pa p.len = false
    let has := fun (s : State) (f : Query → Query) => s.queries.find? (·.id == theQuery.id) = some (f theQuery) ∧ ∀ x ∈ s.queries, x.outcome = none
    (∃ s f, has s f ∧ f theQuery = theQuery ∧ .eval 0 ∈ theQuery.msgs ∧ .expand 0 ∉ theQuery.msgs ∧ read s 0x11000 4 ∧
      queryDim theQuery.head * vectorSize (graphFmt theQuery.graph) = 4 ∧ wordOf theQuery.graph 0 = 0x11000) ∧
    (∃ s f, has s f ∧ .expand 0 ∈ (f theQuery).msgs ∧ read s 0x11004 4 ∧ (s.natAt 0x41004 4 = 1 ∧ (wordOf (f theQuery).graph 18).toNat / 2 ^ 32 = 4) ∧
      read s 0x11008 4) ∧
    (∃ s f, has s f ∧ .eval 0 ∈ (f theQuery).msgs ∧ (match s.enginePieces 1 .read 0x50000 4 with
        | .error c => c == .pageNotPresent
        | .ok _ => false) = true ∧ wordOf (f theQuery).graph 0 = 0x50000) ∧
    (∃ s f, has s f ∧ (f theQuery).msgs = [.list theList] ∧ (f theQuery).lists = [] ∧ (f theQuery).expand = [0] ∧
      ({ f theQuery with msgs := [], lists := [theList] } : Query).scan.outcome = none) ∧
    (∃ s f, has s f ∧ (f theQuery).msgs = [.list theList] ∧ (f theQuery).lists = [] ∧ (f theQuery).expand = [0, 1]) ∧
    (∃ s f, has s f ∧ (f theQuery).msgs = [.dist theDist] ∧ (f theQuery).dists = [] ∧ (f theQuery).fresh = [0] ∧
      ({ f theQuery with msgs := [], dists := [theDist] } : Query).insert.outcome = none) ∧
    (∃ s f, has s f ∧ (f theQuery).msgs = [.dist theDist] ∧ (f theQuery).dists = [] ∧ (f theQuery).fresh = [0, 1]) ∧
    (∃ (xs ys : List Byte), xs.length = 4 ∧ ys.length = 4) ∧
    ∃ (s : State) (c : Command) (u : WorkUnit), (s.bank 0 0).queues.getD 0 [] = [c] ∧ c.kind = .annq 0x10B00 ∧ c.begun = false ∧
      s.unit? c.unit = some u ∧ s.queries = [] ∧ theQuery.outcome = none ∧ askedQuery s = askedQuery (searchState id) := by
  intro read has
  refine ⟨⟨queryState id, id, ?_, ?_, ?_, ?_, ⟨_, enginePieces_ok ?_, ?_⟩, ?_⟩,
    ⟨queryState fun q => { q with msgs := [.expand 0] }, fun q => { q with msgs := [.expand 0] }, ?_, ?_, ⟨_, enginePieces_ok ?_, ?_⟩, ?_,
      ⟨_, enginePieces_ok ?_, ?_⟩⟩,
    ⟨queryState fun q => { q with graph := 0x50000 :: q.graph.drop 1 }, fun q => { q with graph := 0x50000 :: q.graph.drop 1 }, ?_, ?_, ?_, ?_⟩,
    ⟨queryState fun q => { q with msgs := [.list theList], expand := [0], fresh := [], started := true },
      fun q => { q with msgs := [.list theList], expand := [0], fresh := [], started := true }, ?_, ?_, ?_, ?_, ?_⟩,
    ⟨queryState fun q => { q with msgs := [.list theList], expand := [0, 1] }, fun q => { q with msgs := [.list theList], expand := [0, 1] }, ?_, ?_, ?_, ?_⟩,
    ⟨queryState fun q => { q with msgs := [.dist theDist] }, fun q => { q with msgs := [.dist theDist] }, ?_, ?_, ?_, ?_, ?_⟩,
    ⟨queryState fun q => { q with msgs := [.dist theDist], fresh := [0, 1] }, fun q => { q with msgs := [.dist theDist], fresh := [0, 1] }, ?_, ?_, ?_, ?_⟩,
    ⟨[1, 1, 1, 1], [1, 2, 3, 4], rfl, rfl⟩,
    ⟨searchState id, ⟨7, 1, .annq 0x10B00, none, none, 0, false, 0⟩, ((searchState id).unit? 1).getD default, ?_⟩⟩ <;> decide +kernel

/-- EVAL of node 0: the squared distance 0 + 1 + 4 + 9 = 14.0 (R340). -/
theorem test_eval : (testNext (exec (.searchEval theQuery.id 0) (queryState id))).queries.map (·.msgs) = [[.dist theDist]] := by decide +kernel

/-! ### Events and tasks -/

/-- A pending event of handler 0. -/
def theEvent (time : DWord) (id : BitVec 48) : EventRec := ⟨time, 0, 0, 0, id, 0, List.replicate 8 0⟩

/-- Domain 7 with handler 0; the window [0, 99] is open, and the event of identity 5 at time 100 is pending. -/
def theDomain : Domain :=
  { (default : Domain) with
    number := 7, handlers := [⟨0x10000, 0⟩, ⟨0, 0⟩], store := [theEvent 100 5], window := some (0, 99), running := true, counter := 9 }

/-- Words of an event domain's packet: KIND 2, LOOK 10, END 1000, DOMAIN 7, two handlers, batches of at most 8, 3 re-batches. -/
def domainWords : List DWord :=
  [4, 0, 0, 0, 0, 0, 10, 1000, 0, 0, BitVec.ofNat 64 (7 * 2 ^ 32 + 2 ^ 48), BitVec.ofNat 64 (3 + 8 * 2 ^ 16), 0, 0, 0, 0]

/-- The launch of the unit is an event domain, or the domain is another launch's; v2:v3 a time, v6 a tie and handler, v12 the flags. -/
def eventState (own : Bool) (time tie : Word) (f : Domain → Domain) (rest : State → State) : State :=
  testState 0 (fun _ => [(2, time), (6, tie), (12, 0x70000)] ++ runOf 16 [1, 2, 3, 4, 5, 6, 7, 8]) id fun s =>
    let l := { loadLaunch with serial := 6, words := domainWords, domain := some (f theDomain) }
    rest (if own then { s with launches := [l] } else { s with launches := s.launches ++ [{ l with slot := 1 }] })

def schedWord : StdWord := ⟨plain, 12, 2, .spec 6, 16, 0⟩
def cancelWord : StdWord := ⟨{ plain with sb := 1 }, 20, 2, .spec 0, 0, 0⟩
def taskWord : StdWord := ⟨plain, 0, 2, .spec 0, 16, 0⟩

def schedEntry : AluEntry :=
  { mods := 1, dst := .field, a := .field, b := src32 anyTag, c := .field, reads := runRegs 2 2 ++ runRegs 12 1 ++ runRegs 16 8, fn := fun _ _ _ _ _ => {} }
def cancelEntry : AluEntry := { dst := .field, a := .field, reads := runRegs 2 2, fn := fun _ _ _ _ _ => {} }
def taskEntry : AluEntry := { dst := .unused, a := .field, c := .field, reads := runRegs 2 2 ++ runRegs 16 8, fn := fun _ _ _ _ _ => {} }

def eventFits (s : State) (own : Bool) : Prop :=
  s.gang = some (testGang s) ∧ (testGang s).executing plain = [(0, 0), (0, 1), (0, 2), (0, 3)] ∧ decide ((testGang s).l.kind = 2) = own ∧
    OnceFits s (testGang s) 0x180 schedWord schedEntry ∧ OnceFits s (testGang s) 0x181 cancelWord cancelEntry ∧
    OnceFits s (testGang s) 0x182 cancelWord cancelEntry ∧ OnceFits s (testGang s) 0x183 taskWord taskEntry

theorem eventFits_of {s : State} {own : Bool} (g : s.gang.isSome = true) (e : (testGang s).executing plain = [(0, 0), (0, 1), (0, 2), (0, 3)])
    (o : decide ((testGang s).l.kind = 2) = own)
    (h : (onceCheck s (testGang s) 0x180 schedWord schedEntry && (onceCheck s (testGang s) 0x181 cancelWord cancelEntry &&
      (onceCheck s (testGang s) 0x182 cancelWord cancelEntry && onceCheck s (testGang s) 0x183 taskWord taskEntry))) = true) : eventFits s own := by
  obtain ⟨a, h⟩ := Bool.and_eq_true_iff.mp h
  obtain ⟨b, h⟩ := Bool.and_eq_true_iff.mp h
  obtain ⟨c, d⟩ := Bool.and_eq_true_iff.mp h
  exact ⟨gang_of g, e, o, onceFits_of a, onceFits_of b, onceFits_of c, onceFits_of d⟩

def eventPair (s : State) (x : Nat × Nat) : Nat := (pairAddress ((testGang s).u.slice x.1) 2 x.2).toNat

def thePool (tasks : List TaskRec) (cap : Nat) : Pool := { (default : Pool) with tasks := tasks, cap := cap }
def poolState (det : Bool) (pool : Pool) : State :=
  testState 0 (fun _ => runOf 16 [1, 2, 3, 4, 5, 6, 7, 8] ++ [(2, 0x10000), (12, 0x70000)]) id
    (launchIs fun l => { l with words := 6 :: List.replicate 15 0, desc := [0, if det then 64 else 0, 0, 0, 0, 0, 0, 0], pool := some pool })

theorem witness_EventWordsStageAndAnswer :
    (∃ s d, eventFits s true ∧ (testGang s).l.domain = some d ∧ d.number = 7 ∧ (d.handlers.getD 0 ⟨0, 0⟩).entry ≠ 0 ∧ (testGang s).l.hcount = 2 ∧
      (testGang s).l.domainNo = 7 ∧ (∀ x ∈ (testGang s).executing plain, eventPair s x = 50 ∧ ((testGang s).u.lane x.1 x.2).evtime = 0 ∧
        ((testGang s).u.lane x.1 x.2).schedOrd = 0) ∧ pairSpecOk (testGang s).head.regs 2 = true ∧
      srcSpecOk (testGang s).head.regs false false 12 = true ∧ vRunOk (testGang s).head.regs 16 8 8 = true ∧
      vRunOk (testGang s).head.regs 20 1 1 = true) ∧
    (∃ s l d, eventFits s false ∧ s.domainOf 1 7 = some l ∧ l.domain = some d ∧ d.number = 7 ∧ d.window = some (0, 99)) ∧
    (∃ s, eventFits s true ∧ ∀ x ∈ (testGang s).executing plain,
      (((testGang s).u.slice x.1).readB x.2 (intUse false anyTag) (.spec 6)).val / 2 ^ 20 % 2 ^ 12 = 1) ∧
    (∃ s, eventFits s true ∧ (∀ x ∈ (testGang s).executing plain, eventPair s x = 5) ∧ ∃ d, (testGang s).l.domain = some d ∧ d.store.map (·.id) = [5]) ∧
    (∃ s, eventFits s false ∧ s.domainOf 1 0 = none ∧ (testGang s).l.pool = none) ∧
    ∀ det : Bool, (∃ s p, eventFits s false ∧ (testGang s).l.pool = some p ∧ (testGang s).l.det = det ∧ p.tasks.length + p.spawned.length + 4 ≤ p.cap) ∧
      ∃ s p, eventFits s false ∧ (testGang s).l.pool = some p ∧ p.cap < p.tasks.length + p.spawned.length + 4 := by
  refine ⟨⟨eventState true 50 0 id id, theDomain, eventFits_of ?_ ?_ ?_ ?_, ?_⟩,
    ⟨eventState false 500 0 id id, ((eventState false 500 0 id id).domainOf 1 7).getD default, theDomain, eventFits_of ?_ ?_ ?_ ?_, ?_⟩,
    ⟨eventState true 50 0x100000 id id, eventFits_of ?_ ?_ ?_ ?_, ?_⟩, ⟨eventState true 5 0 id id, eventFits_of ?_ ?_ ?_ ?_, ?_, theDomain, ?_⟩,
    ⟨eventState false 50 0 id id, eventFits_of ?_ ?_ ?_ ?_, ?_⟩, fun det => ?_⟩
  case refine_27 =>
    cases det
    · refine ⟨⟨poolState false (thePool [] 4), thePool [] 4, eventFits_of ?_ ?_ ?_ ?_, ?_⟩, ⟨poolState false (thePool [] 3), thePool [] 3, eventFits_of ?_ ?_ ?_ ?_, ?_⟩⟩ <;>
        decide +kernel
    · refine ⟨⟨poolState true (thePool [] 4), thePool [] 4, eventFits_of ?_ ?_ ?_ ?_, ?_⟩, ⟨poolState true (thePool [] 3), thePool [] 3, eventFits_of ?_ ?_ ?_ ?_, ?_⟩⟩ <;>
        decide +kernel
  all_goals decide +kernel

/-- SCHED of an event lane stages one record a lane, at its own time plus the delay (R145). -/
theorem test_sched : (testNext (exec (.sched schedWord) (eventState true 50 0 id id))).launches.map (fun l => l.domain.map fun d =>
    d.staged.map fun e => (e.time, e.handler, e.args.getD 7 0)) = [some (List.replicate 4 (50, 0, 8))] := by decide +kernel

/-- EVQRY of the pending event 5 answers 0, of an unknown one 2 (R147). -/
theorem test_evqry : [5, 6].map (fun n => (testNext (exec (.evqry cancelWord) (eventState true n 0 (fun d => { d with number := 0 }) id))).units.map fun u =>
    (u.slice 0).pend.map fun r => (r.writes.headD default).val.val) = [[[0]], [[2]]] := by decide +kernel

/-! ### Batches -/

def commitState (f : Domain → Domain) : State := eventState true 0 0 f fun s => { s with units := [] }

def theLaunch (s : State) : Launch := (s.launch? 0 0).getD default

theorem witness_BatchesAndCommitsAdvanceTheDomain :
    let runs := fun (s : State) (l : Launch) (d : Domain) => s.launch? 0 0 = some l ∧ l.domain = some d ∧ l.runsDomain = true
    let closes := fun (s : State) (l : Launch) (d : Domain) => runs s l d ∧ d.running = true ∧ d.gangs = [] ∧ s.units = [] ∧ l.det = false ∧
      ∃ lb, (s.closeSet 0 0 d.batchNo).launch? 0 0 = some lb ∧ lb.domain = some d ∧ lb.abort = none ∧ d.window = some (0, 99)
    (∃ (d : Domain) (l m : Launch) (e : DWord), d.store.Nodup ∧ (d.store.filter fun x => decide (x.time ≤ e)).length = 1 ∧ l.replicated = false ∧
      m.replicated = true ∧ m.bcap = l.bcap) ∧
    (∃ s l d, runs s l d ∧ d.running = true ∧ s.setOpen l d.batchNo = true) ∧
    (∃ s l d, runs s l d ∧ d.running = false ∧ d.committed = true ∧ d.arrivals = [] ∧ d.cancels = [] ∧ d.store = []) ∧
    (∃ s l d, runs s l d ∧ d.running = false ∧ d.committed = true ∧ d.store.map (·.time) = [1001] ∧ l.endTime < 1001) ∧
    (∃ s l d, runs s l d ∧ d.running = false ∧ d.committed = true ∧ d.store.map (·.time) = [100] ∧ 100 ≤ l.endTime) ∧
    (∃ s l d, closes s l d ∧ d.counter + 0 ≤ 2 ^ 35 - 1 ∧ d.staged = [] ∧ d.arrivals = [] ∧ d.cancels = [] ∧ ∀ e ∈ d.store, (99 : DWord) < e.time) ∧
    (∃ s l d, closes s l d ∧ (∃ e ∈ d.staged, e.time ≤ 99) ∧ d.rebatches < l.rblim ∧ d.batch = [] ∧ d.cancels = []) ∧
    (∃ s l d, closes s l d ∧ (∃ e ∈ d.staged, e.time ≤ 99) ∧ l.rblim ≤ d.rebatches ∧ d.batch = [] ∧ d.cancels = []) ∧
    (∃ s l d, closes s l d ∧ 2 ^ 35 - 1 < d.counter + d.staged.length) ∧
    ∃ (l : Launch) (d : Domain), l.domain = some d ∧ d.cancels = [] ∧ d.counter + 0 ≤ 2 ^ 35 - 1 ∧
      2 ^ 32 < (d.store.filter fun _ => true).length := by
  intro runs closes
  let go := fun f => commitState f
  let both := launchIs fun l => { l with words := l.words.set 5 2 }
  let open' := both { go id with runWindows := [⟨⟨0, 1, 0, 2⟩, 1, 0, 1, [], []⟩] }
  refine ⟨⟨theDomain, theLaunch (go id), theLaunch (both (go id)), 100, by decide +kernel⟩,
    ⟨open', theLaunch open', theDomain, by decide +kernel⟩,
    ⟨go fun d => { d with running := false, committed := true, store := [] }, theLaunch (go fun d => { d with running := false, committed := true, store := [] }),
      { theDomain with running := false, committed := true, store := [] }, by decide +kernel⟩,
    ⟨go fun d => { d with running := false, committed := true, store := [theEvent 1001 5] },
      theLaunch (go fun d => { d with running := false, committed := true, store := [theEvent 1001 5] }),
      { theDomain with running := false, committed := true, store := [theEvent 1001 5] }, by decide +kernel⟩,
    ⟨go fun d => { d with running := false, committed := true }, theLaunch (go fun d => { d with running := false, committed := true }),
      { theDomain with running := false, committed := true }, by decide +kernel⟩,
    ⟨go id, theLaunch (go id), theDomain, ⟨by decide +kernel, rfl, rfl, rfl, by decide +kernel, theLaunch ((go id).closeSet 0 0 0), by decide +kernel⟩, by decide +kernel⟩,
    ⟨go fun d => { d with staged := [theEvent 60 9] }, theLaunch (go fun d => { d with staged := [theEvent 60 9] }), { theDomain with staged := [theEvent 60 9] },
      ⟨by decide +kernel, rfl, rfl, rfl, by decide +kernel, theLaunch ((go fun d => { d with staged := [theEvent 60 9] }).closeSet 0 0 0), by decide +kernel⟩, by decide +kernel⟩,
    ⟨go fun d => { d with staged := [theEvent 60 9], rebatches := 3 }, theLaunch (go fun d => { d with staged := [theEvent 60 9], rebatches := 3 }),
      { theDomain with staged := [theEvent 60 9], rebatches := 3 },
      ⟨by decide +kernel, rfl, rfl, rfl, by decide +kernel, theLaunch ((go fun d => { d with staged := [theEvent 60 9], rebatches := 3 }).closeSet 0 0 0), by decide +kernel⟩,
      by decide +kernel⟩,
    ⟨go fun d => { d with staged := [theEvent 60 9], counter := 2 ^ 35 - 1 }, theLaunch (go fun d => { d with staged := [theEvent 60 9], counter := 2 ^ 35 - 1 }),
      { theDomain with staged := [theEvent 60 9], counter := 2 ^ 35 - 1 },
      ⟨by decide +kernel, rfl, rfl, rfl, by decide +kernel, theLaunch ((go fun d => { d with staged := [theEvent 60 9], counter := 2 ^ 35 - 1 }).closeSet 0 0 0), by decide +kernel⟩,
      by decide +kernel⟩,
    ⟨{ loadLaunch with domain := some { theDomain with store := List.replicate (2 ^ 32 + 1) (theEvent 100 5) } },
      { theDomain with store := List.replicate (2 ^ 32 + 1) (theEvent 100 5) }, rfl, rfl, by decide, ?_⟩⟩
  simp only [List.filter_replicate, if_true, List.length_replicate]
  decide

/-- A commit: the staged event gets the counter's serial, the batch is over (R449). -/
theorem test_commit : (testNext (exec (.batchCommit 0 ⟨0, default⟩) (commitState fun d => { d with staged := [theEvent 160 9] }))).launches.map (fun l =>
    l.domain.map fun d => (d.store.map (·.serial), d.counter, d.committed)) = [some ([0, 9], 10, true)] := by decide +kernel

/-! ### Messages to the Rake -/

def schedMsg : NonEventMsg := { (default : NonEventMsg) with id := 40, ctx := 1, launch := 6, sched := some (theEvent 500 0) }
def cancelMsg (num : Nat) : NonEventMsg :=
  { (default : NonEventMsg) with id := 41, ctx := 1, target := BitVec.ofNat 64 (num * 2 ^ 48 + 5), unit := 1, slice := 0, lane := 2, result := 8, dst := 20 }
def rakeUnit (u : WorkUnit) : WorkUnit := { u with slices := u.slices.map fun sl => { sl with pend := [⟨8, 1, .rake 2, [], 0, [], false⟩] } }

def messageState (m : NonEventMsg) (f : Domain → Domain) : State :=
  eventState false 0 0 f fun s => { s with messages := [m], units := s.units.map rakeUnit }

/-- The gangs of the batch are still to be placed. -/
def busyDomain (d : Domain) : Domain := { d with gangs := [(0, [theEvent 50 4])] }

theorem witness_ArrivalsJoinTheNextCommit :
    let due := fun (s : State) (l : Launch) (d : Domain) => d.running = true ∧ d.gangs = [] ∧ l.replicated = false ∧
      ∀ u ∈ s.units, u.die = l.die → u.lslot = l.slot → u.wset = d.batchNo → u.residence = .exited
    let sched := fun (s : State) (m : NonEventMsg) (l : Launch) (d : Domain) => s.messages = [m] ∧ m.sched = some (theEvent 500 0) ∧
      s.launches.find? (fun l => l.serial == m.launch && l.originates) = some l ∧ s.launch? l.die l.slot = some l ∧ l.domain = some d
    let cancel := fun (s : State) (m : NonEventMsg) (l : Launch) (d : Domain) => s.messages = [m] ∧ m.sched = none ∧
      s.domainOf m.ctx (m.target.toNat / 2 ^ 48) = some l ∧ l.domain = some d ∧ d.number = m.target.toNat / 2 ^ 48 ∧
      s.launch? l.die l.slot = some l ∧ ∃ e ∈ d.store, e.id = m.target.extractLsb' 0 48
    (∃ (s : State) (m : NonEventMsg), s.messages = [m] ∧ m.sched = some (theEvent 500 0) ∧ ∀ l ∈ s.launches, l.serial = m.launch → l.originates = false) ∧
    (∃ s m l d, sched s m l d ∧ l.runsDomain = true ∧ ¬ due s l d) ∧ (∃ s m l d, sched s m l d ∧ l.runsDomain = true ∧ due s l d) ∧
    (∃ s m l d, sched s m l d ∧ l.runsDomain = false) ∧
    (∃ (s : State) (m : NonEventMsg) (u : WorkUnit), s.messages = [m] ∧ m.sched = none ∧ s.domainOf m.ctx (m.target.toNat / 2 ^ 48) = none ∧
      s.unit? m.unit = some u ∧ m.slice < u.slices.length) ∧
    (∃ s m l d, cancel s m l d ∧ due s l d) ∧ ∃ s m l d, cancel s m l d ∧ ¬ due s l d := by
  intro due sched cancel
  let of := fun (s : State) => (s.launch? 0 1).getD default
  let retiring := launchIs fun l => { l with ended := some 0 }
  exact ⟨⟨messageState { schedMsg with launch := 9 } id, { schedMsg with launch := 9 }, by decide +kernel⟩,
    ⟨messageState schedMsg busyDomain, schedMsg, of (messageState schedMsg busyDomain), busyDomain theDomain, by decide +kernel⟩,
    ⟨messageState schedMsg id, schedMsg, of (messageState schedMsg id), theDomain, by decide +kernel⟩,
    ⟨retiring (messageState schedMsg id), schedMsg, of (retiring (messageState schedMsg id)), theDomain, by decide +kernel⟩,
    ⟨messageState (cancelMsg 3) id, cancelMsg 3, ((messageState (cancelMsg 3) id).unit? 1).getD default, by decide +kernel⟩,
    ⟨messageState (cancelMsg 7) id, cancelMsg 7, of (messageState (cancelMsg 7) id), theDomain, by decide +kernel⟩,
    ⟨messageState (cancelMsg 7) busyDomain, cancelMsg 7, of (messageState (cancelMsg 7) busyDomain), busyDomain theDomain, by decide +kernel⟩⟩

/-- A cancel of a pending event: its lane is answered 0, and it acts at the next commit (R147, R148). -/
theorem test_cancel_arrival :
    (testNext (exec (.nonEventCancelArrival 41) (messageState (cancelMsg 7) busyDomain))).units.map (fun u =>
      (u.slice 0).pend.map fun r => r.writes.map fun x => (x.lane, x.val.val)) = [[[(some 2, 0)]]] ∧
    (testNext (exec (.nonEventCancelArrival 41) (messageState (cancelMsg 7) busyDomain))).launches.map (fun l =>
      l.domain.map fun d => d.cancels.map (·.status)) = [none, some [0]] := by
  constructor <;> decide +kernel

/-! ### Placing work -/

def putUnits (us : List WorkUnit) (s : State) : State := { s with units := us }
def putLaunch (l : Launch) (s : State) : State := { s with launches := [l] }

/-- No turn: launch l, units us, on core 0. -/
def placeState (l : Launch) (us : List WorkUnit) (rest : State → State) : State :=
  testState 0 (fun _ => []) id fun s => rest (putUnits us (putLaunch l s))

/-- A unit of 32 lanes and 64 registers, waiting for core 0; one that fills a bank. -/
def smallUnit : WorkUnit := { loadUnit 5 1 with unitId := 3, nlanes := 32, regs := 64, residence := .waiting, slots := [], bslots := [] }
def bigUnit (uid bank : Nat) : WorkUnit := { loadUnit uid 1 with nlanes := 1024, regs := 128, bank := bank }

/-- A descriptor with BUDGET 8 and, in deterministic mode, D; its entry is VA 0x10000. -/
def testDesc (det : Bool) : List DWord := [0x10000, if det then 0x48 else 8, 0x12345678ABCDEF00, 0, 0, 0, 0, 0]

/-- A grid of 4 workgroups of 32 lanes; a frontier of 2 by 1 by 1 points; a task pool. -/
def gridLaunch (det : Bool) : Launch := { loadLaunch with words := [0, 0, 0, 0, 0, 0, 4 + 2 ^ 32, 1, 32 + 2 ^ 11 + 2 ^ 22, 0, 0, 0, 0, 0, 0, 0], desc := testDesc det }
def frontLaunch : Launch :=
  { loadLaunch with
    words := [2, 0, 0, 0, 0, 0, 1, 0, 32 + 2 ^ 11 + 2 ^ 22, 0, 0, 0, 0, 0, 0, 0], desc := testDesc false
    frontier := some ⟨[(0, 0), (0, 0)], [], [], false, none⟩ }
def theTask (n : Nat) : TaskRec := ⟨0x10000, List.replicate 8 0, n, n⟩
def taskLaunch (det : Bool) (p : Pool) : Launch := { loadLaunch with words := 6 :: List.replicate 15 0, desc := testDesc det, pool := some p }

def livePool : Pool := { (default : Pool) with tasks := [theTask 0, theTask 1], cap := 8, nextNumber := 2 }
def spawnPool : Pool := { (default : Pool) with spawned := [(1, 0, theTask 7), (0, 0, theTask 8)], cap := 8, nextNumber := 2, roundGangs := 1 }

/-- The unit has segment 9 to attach, which core 5 holds; it has waited for that since cycle 0. -/
def attachState (mode : AttachMode) (unit : WorkUnit → WorkUnit) (rest : State → State) : State :=
  segState 9 0 (fun u => unit { u with attaches := [⟨9, none, mode⟩], attachSince := some 0 })
    fun s => rest (segUpdate (fun x => { x with core := some 5 }) s)

/-- A deterministic grid one of whose workgroups is steered by segment 9 and waits for core 0. -/
def steeredUnit (s : State) : State :=
  launchIs (fun _ => { gridLaunch true with attach := [(9, 2)] }) { s with clock := 2 ^ 24 }

theorem witness_UnitsStartAndTasksAreGathered :
    (∃ (e : EventRec) (t : TaskRec), e.args.length ≤ 8 ∧ t.args.length ≤ 8) ∧
    (∃ (s : State) (l : Launch) (p : Pool) (b : Nat), s.launch? 0 0 = some l ∧ l.kind = 3 ∧ l.pool = some p ∧ l.mayStart = true ∧
      s.launchTurn 0 0 = true ∧ p.tasks = [theTask 0, theTask 1] ∧ l.coresField = 0 ∧ 0 < s.n ∧ l.det = false ∧ p.tasks.Nodup ∧
      s.bankFor 0 (l.taskUnit p s.nextId [theTask 0, theTask 1]) = some b ∧ s.launchWaits 0 l = false ∧
      s.behindAssigned 0 (l.taskUnit p s.nextId [theTask 0, theTask 1]) = false ∧ s.unit? s.nextId = none) ∧
    (∃ (s : State) (l : Launch) (p : Pool), s.launch? 0 0 = some l ∧ l.pool = some p ∧ l.mayStart = true ∧ p.tasks = [theTask 0, theTask 1] ∧
      l.det = true ∧ p.roundGangs % s.n = 0 ∧ s.bankFor 0 (l.taskUnit p s.nextId [theTask 0, theTask 1]) = none) ∧
    (∃ (s : State) (l : Launch) (p : Pool), s.launch? 0 0 = some l ∧ l.kind = 3 ∧ l.pool = some p ∧ l.mayStart = true ∧
      p.tasks = [theTask 0, theTask 1] ∧ s.launchWaits 0 l = true) ∧
    (∃ (s : State) (l : Launch) (p : Pool), s.launch? 0 0 = some l ∧ l.pool = some p ∧ l.mayStart = true ∧ p.tasks = []) ∧
    (∃ (s : State) (l : Launch) (p : Pool) (lb : Launch), s.launch? 0 0 = some l ∧ l.pool = some p ∧ l.abort = none ∧ l.det = true ∧
      s.setOpen l p.round = false ∧ p.tasks = [] ∧
      s.units = [] ∧ p.roundGangs ≠ 0 ∧ ((s.closeSet 0 0 p.round).mergeIntervals 0 0 ((s.closeSet 0 0 p.round).taskIntervals l p.round)).2 = [] ∧
      ((s.closeSet 0 0 p.round).mergeIntervals 0 0 ((s.closeSet 0 0 p.round).taskIntervals l p.round)).1.launch? 0 0 = some lb ∧ lb.pool = some p) ∧
    (∀ clock, (clock = 5 ∨ clock = 2 ^ 24) → ∃ (s : State) (u : WorkUnit) (l : Launch) (x : Segment), s.unit? 1 = some u ∧ s.clock = clock ∧
      s.launch? u.die u.lslot = some l ∧ u.residence = .resident ∧ u.attaches = [⟨9, none, .reload⟩] ∧ u.attachSince = some 0 ∧
      s.segment? u.ctx 9 = some x ∧ x.core = some 5 ∧ u.core = 0 ∧ 0 < x.att ∧ x.reloading = false) ∧
    ∃ (s : State) (u : WorkUnit) (l : Launch), s.unit? 1 = some u ∧ s.launch? u.die u.lslot = some l ∧ u.residence = .waiting ∧
      l.steer u = some (9, false) ∧ s.steerBlocked l u u.core = true ∧ u.attachSince = some 0 ∧ 2 ^ 24 ≤ s.clock := by
  refine ⟨⟨theEvent 1 1, theTask 0, by decide⟩,
    ⟨placeState (taskLaunch false livePool) [] id, taskLaunch false livePool, livePool, 0, by decide +kernel⟩,
    ⟨placeState (taskLaunch true livePool) [bigUnit 8 0, bigUnit 9 1] id, taskLaunch true livePool, livePool, by decide +kernel⟩,
    ⟨placeState (taskLaunch false livePool) [smallUnit] fun s => s.modifyCore 0 fun c => { c with waiting := [5] }, taskLaunch false livePool,
      livePool, by decide +kernel⟩,
    ⟨placeState (taskLaunch false spawnPool) [] id, taskLaunch false spawnPool, spawnPool, by decide +kernel⟩,
    ⟨placeState (taskLaunch true spawnPool) [] id, taskLaunch true spawnPool, spawnPool, taskLaunch true spawnPool, by decide +kernel⟩, fun clock h => ?_,
    ⟨attachState .reload (fun u => { u with residence := .waiting, core := 0 }) steeredUnit,
      ((attachState .reload (fun u => { u with residence := .waiting, core := 0 }) steeredUnit).unit? 1).getD default,
      { gridLaunch true with attach := [(9, 2)] }, by decide +kernel⟩⟩
  refine ⟨attachState .reload id fun s => { s with clock := clock }, ((attachState .reload id id).unit? 1).getD default, loadLaunch,
    { testSegment with core := some 5 }, ?_⟩
  rcases h with rfl | rfl <;> decide +kernel

/-- The tasks a round spawned enter in the order of spawner and ordinal, numbered on (R130). -/
theorem test_taskRoundEnd : (testNext (exec (.taskRoundEnd 0 0) (placeState (taskLaunch true spawnPool) [] id))).launches.map (fun l =>
    l.pool.map fun p => p.tasks.map fun t => (t.number, t.pos)) = [some [(2, 0), (3, 1)]] := by decide +kernel

/-- An event's lane starts with the event's identity, its serial and its arguments (R134, R143). -/
theorem test_eventUnit : let u := loadLaunch.eventUnit theDomain 9 (0, [{ theEvent 50 5 with serial := 6, args := [1, 2, 3, 4, 5, 6, 7, 8] }])
    ((u.lane 0 0).evtime, (u.lane 0 0).evid, (u.lane 0 0).evser, ((u.lane 0 0).getV 7).val) = (50, 0x7000000000005, 6, 8) := by decide +kernel

/-- Room for a unit in a bank of core 0 (R114). -/
def roomFor (s : State) (u : WorkUnit) (b : Nat) : Bool :=
  let us := s.units.filter fun v => v.residence == .resident && v.core == 0 && v.bank == b
  let sum := fun (f : WorkUnit → Nat) => (us.map f).sum + f u
  let gangs := fun (v : WorkUnit) => (v.nlanes + 31) / 32
  decide (sum gangs ≤ 32 ∧ sum (fun v => 32 * gangs v * v.regs) ≤ 131072 ∧ sum (·.ntags) ≤ 64 ∧ sum (·.ntiles) ≤ 16 ∧
    sum (fun v => 1 + v.cohs) ≤ 32 ∧
    sum (fun v => v.scratchLen + if v.det then 65536 else 0) + ((s.segments.filter (·.core == some 0)).map fun x => 4096 * x.size).sum ≤ 2 ^ 20)

def full0 : List WorkUnit := [bigUnit 8 0]
def full2 : List WorkUnit := [bigUnit 8 0, bigUnit 9 1]
def waits5 (s : State) : State := s.modifyCore 0 fun c => { c with waiting := [5] }

/-- Segment 9 on a core, or on none. -/
def segmentOn (core : Option Nat) (s : State) : State := { s with segments := [{ testSegment with core := core, att := 0 }] }

/-- A grid whose workgroups are steered by their segments, 9 first: AMODE RELOAD or FAULT. -/
def steered (fault : Bool) : Launch := { gridLaunch false with attach := [(9, if fault then 3 else 2)] }

def allPlaced : Launch := { gridLaunch false with nextUnit := 4 }

theorem witness_UnitsArePlacedWhereTheyFit :
    let base := fun (s : State) (l : Launch) => s.launch? 0 0 = some l ∧ (0 < s.n ∧ s.unit? s.nextId = none) ∧ s.nextId ∉ (s.core 0).waiting
    let room := fun (s : State) u => [0, 1].map (roomFor s u)
    let clear := fun (s : State) (l : Launch) u => (s.steerBlocked l u 0 || s.behindAssigned 0 u || s.behindUnplaced 0 u) = false
    let mine := fun (s : State) (l : Launch) (u : WorkUnit) => base s l ∧ s.firstWaiting 0 0 0 = some u ∧ u.core = 0 ∧ l.maySeat = true
    let fresh := fun (s : State) (l : Launch) => base s l ∧ l.mayStart = true ∧ s.launchTurn 0 0 = true
    let grid := fun (s : State) (l : Launch) (u : WorkUnit) => fresh s l ∧ l.kind = 0 ∧ l.nextUnit < l.unitsTotal ∧ u = l.gridUnit s.nextId l.nextUnit
    let goes := fun (s : State) (l : Launch) u => (s.launchWaits 0 l || s.steerBlocked l u 0 || s.behindAssigned 0 u) = false
    (∃ s l u, mine s l u ∧ s.homeNow l u 0 = 0 ∧ clear s l u ∧ room s u = [true, true]) ∧
    (∃ s l u, mine s l u ∧ s.homeNow l u 0 = 0 ∧ clear s l u ∧ room s u = [false, true]) ∧
    (∃ s l u, mine s l u ∧ s.homeNow l u 0 = 0 ∧ room s u = [false, false] ∧ fresh s l ∧ s.launchWaits 0 l = true) ∧
    (∃ s l u, mine s l u ∧ s.homeNow l u 0 = 5) ∧
    (∃ s l, base s l ∧ l.mayStart = false ∧ (s.core 0).waiting = []) ∧
    (∃ s l, base s l ∧ l.mayStart = true ∧ s.firstWaiting 0 0 0 = none ∧ s.launchTurn 0 0 = false) ∧
    (∀ det : Bool, ∃ s l u, grid s l u ∧ (s.core 0).waiting = [] ∧ l.det = det ∧ l.steer u = none ∧ goes s l u ∧ u.unitId % s.n = 0 ∧
      room s u = [true, true]) ∧
    (∃ s l u, grid s l u ∧ l.det = false ∧ l.steer u = none ∧ room s u = [false, false]) ∧
    (∃ s l u, grid s l u ∧ l.det = true ∧ l.steer u = none ∧ room s u = [false, false]) ∧
    (∃ s l u x, grid s l u ∧ l.det = false ∧ l.steer u = some (9, false) ∧ s.segment? l.ctx 9 = some x ∧ x.core = some 0 ∧ goes s l u ∧
      room s u = [true, true]) ∧
    (∃ s l u, grid s l u ∧ l.steer u = some (9, false) ∧ s.segment? l.ctx 9 = none ∧ goes s l u ∧ room s u = [true, true]) ∧
    (∃ s l u x, grid s l u ∧ l.steer u = some (9, true) ∧ s.segment? l.ctx 9 = some x ∧ x.core = none ∧ goes s l u ∧ room s u = [true, true]) ∧
    (∃ s l u x, grid s l u ∧ l.steer u = some (9, false) ∧ s.segment? l.ctx 9 = some x ∧ x.core = none ∧ s.reloadCore l u x = some 0 ∧ goes s l u ∧
      room s u = [true, true]) ∧
    (∃ s l u x, grid s l u ∧ l.steer u = some (9, false) ∧ s.segment? l.ctx 9 = some x ∧ x.core = none ∧ s.reloadCore l u x = some 1) ∧
    (∃ s l u d, fresh s l ∧ l.kind = 2 ∧ l.domain = some d ∧ d.gangs = [(0, [theEvent 5 5])] ∧
      u = l.eventUnit d s.nextId (0, [theEvent 5 5]) ∧ l.steer u = none ∧ u.unitId = 0 ∧ room s u = [true, true]) ∧
    (∃ s l f, fresh s l ∧ l.frontier = some f ∧ l.kind = 1 ∧ f.stopped = false ∧ f.restoring = [] ∧ f.doneAt = none ∧ l.nvec = 0 ∧
      f.lines.length = 2 ∧ f.lines.getD 0 (0, 0) = (0, 0) ∧ 0 ∉ f.dispatched ∧ room s (l.pointUnit s.nextId 0) = [true, true]) ∧
    (∃ s l f, fresh s l ∧ l.frontier = some f ∧ l.kind = 1 ∧ f.stopped = false ∧ f.doneAt = some s.clock) ∧
    ∃ s l f, base s l ∧ l.frontier = some f ∧ l.kind = 1 ∧ f.stopped = true := by
  intro base room clear mine fresh grid goes
  let event : Launch := { loadLaunch with words := domainWords, desc := testDesc false, domain := some { theDomain with gangs := [(0, [theEvent 5 5])] } }
  let front := fun f : Frontier => { frontLaunch with frontier := some f }
  let two := fun s : State => { s with launches := s.launches ++ [{ gridLaunch false with slot := 1 }] }.modifyDie 0 fun d => { d with turn := 1 }
  refine ⟨⟨placeState allPlaced [smallUnit] waits5, allPlaced, smallUnit, by decide +kernel⟩,
    ⟨placeState allPlaced (smallUnit :: full0) waits5, allPlaced, smallUnit, by decide +kernel⟩,
    ⟨placeState (gridLaunch false) (smallUnit :: full2) waits5, gridLaunch false, smallUnit, by decide +kernel⟩,
    ⟨placeState (steered false) [{ smallUnit with unitId := 0 }] fun s => segmentOn (some 5) (waits5 s), steered false,
      { smallUnit with unitId := 0 }, by decide +kernel⟩,
    ⟨placeState { gridLaunch false with ended := some 0 } [] id, { gridLaunch false with ended := some 0 }, by decide +kernel⟩,
    ⟨placeState (gridLaunch false) [] two, gridLaunch false, by decide +kernel⟩, fun det => ?_,
    ⟨placeState (gridLaunch false) full2 id, gridLaunch false, (gridLaunch false).gridUnit 2 0, by decide +kernel⟩,
    ⟨placeState (gridLaunch true) full2 id, gridLaunch true, (gridLaunch true).gridUnit 2 0, by decide +kernel⟩,
    ⟨placeState (steered false) [] (segmentOn (some 0)), steered false, (steered false).gridUnit 2 0,
      { testSegment with core := some 0, att := 0 }, by decide +kernel⟩,
    ⟨placeState (steered false) [] id, steered false, (steered false).gridUnit 2 0, by decide +kernel⟩,
    ⟨placeState (steered true) [] (segmentOn none), steered true, (steered true).gridUnit 2 0, { testSegment with core := none, att := 0 }, by decide +kernel⟩,
    ⟨placeState (steered false) [] (segmentOn none), steered false, (steered false).gridUnit 2 0, { testSegment with core := none, att := 0 },
      by decide +kernel⟩,
    ⟨placeState { steered false with lastReload := some 0 } [] (segmentOn none), { steered false with lastReload := some 0 },
      ({ steered false with lastReload := some 0 } : Launch).gridUnit 2 0, { testSegment with core := none, att := 0 }, by decide +kernel⟩,
    ⟨placeState event [] id, _, event.eventUnit { theDomain with gangs := [(0, [theEvent 5 5])] } 2 (0, [theEvent 5 5]),
      { theDomain with gangs := [(0, [theEvent 5 5])] }, ⟨⟨rfl, by decide +kernel⟩, by decide +kernel⟩, by decide +kernel⟩,
    ⟨placeState frontLaunch [] id, frontLaunch, ⟨[(0, 0), (0, 0)], [], [], false, none⟩, by decide +kernel⟩,
    ⟨placeState (front ⟨[(0, 0), (0, 0)], [], [], false, some 0⟩) [] id, front ⟨[(0, 0), (0, 0)], [], [], false, some 0⟩,
      ⟨[(0, 0), (0, 0)], [], [], false, some 0⟩, by decide +kernel⟩,
    ⟨placeState (front ⟨[], [], [], true, none⟩) [] id, front ⟨[], [], [], true, none⟩, ⟨[], [], [], true, none⟩, by decide +kernel⟩⟩
  cases det
  · exact ⟨placeState (gridLaunch false) [] id, gridLaunch false, (gridLaunch false).gridUnit 2 0, by decide +kernel⟩
  · exact ⟨placeState (gridLaunch true) [] id, gridLaunch true, (gridLaunch true).gridUnit 2 0, by decide +kernel⟩

/-- The next workgroup takes gang slot 0 and barrier slot 0 of core 0, and the launch counts it (R115, R156). -/
theorem test_unitPlace : let t := testNext (exec (.unitPlace 0 0 0) (placeState (gridLaunch false) [] id))
    ((t.units.map fun u => (u.unitId, u.residence, u.slots, u.bslots)), t.launches.map (·.nextUnit), ((t.bank 0 0).slot 0).live) =
      ([(0, .resident, [0], [0])], [1], true) := by decide +kernel

/-! ### Pre-emption -/

/-- Unit 1 of 8 registers a lane, in bank 0 of core 0, whose active bank is 1 after a swap that sends unit 1 out; a unit waits. -/
def swapState (unit : WorkUnit → WorkUnit) (rest : State → State) : State :=
  testState 0 (fun _ => []) (fun u => unit { u with regs := 8, slices := u.slices.map fun sl => { sl with regs := 8 } }) fun s =>
    rest (({ s with clock := 65536, units := s.units ++ [{ smallUnit with uid := 5 }] }.modifyCore 0 fun c => { c with active := 1, waiting := [5], outgoing := [1] }).modifyContext 1
      fun c => { c with weight := 2, saveBase := 0x20000, saveLen := 0x100000 })

def noSave (s : State) : State := s.modifyContext 1 fun c => { c with saveLen := 0 }
def suspended (s : State) : State := launchIs (fun l => { l with suspend := some ⟨true, 0x20000, []⟩ }) s

/-- Unit 1 spilled, first in the waiting order of core 0. -/
def spilledState (rest : State → State) : State :=
  swapState (fun u => { u with residence := .spilled, image := some (0, 1), group := [1], savedBars := [(0, ⟨0, 1, 0, false, true⟩)] }) fun s =>
    rest (s.modifyCore 0 fun c => { c with waiting := [1] })

/-- The unit is the suspended point 0 of a seeded frontier launch. -/
def seededState : State :=
  spilledState (launchIs fun _ => { frontLaunch with frontier := some ⟨[(0, 0), (0, 0)], [], [0], false, none⟩ })

theorem witness_QuantaSwapSpillAndRestore :
    let spilled := fun (s : State) (u : WorkUnit) (l : Launch) => s.unit? u.uid = some u ∧ u.uid = 1 ∧ s.launch? u.die u.lslot = some l ∧
      (s.units.map (·.uid)).Nodup ∧ u.residence = .spilled ∧ l.abort = none ∧ l.suspend = none ∧ l.cinch = none ∧ s.spilledGroup u = [u]
    let returns := fun (s : State) (u : WorkUnit) => s.mayReturn 0 u = true ∧ u.core = 0 ∧
      (s.core 0).waiting.find? (fun n => (s.unit? n).any (·.residence == .spilled)) = some 1
    let goes := fun (s : State) (u : WorkUnit) (bank : Nat) => s.bankForGroup 0 [u] = some bank ∧ (s.context u.ctx).isSome = true ∧
      u.bslots.Nodup ∧ u.savedBars.map (·.1) = u.bslots
    (∃ (s : State) (c : Nat), c < s.n ∧ (s.core c).quantumStart + 65536 ≤ s.clock ∧ s.coreWanted c = true ∧
      (s.units.any fun u => u.residence == .resident && u.core == c && decide (u.bank < 2)) = true ∧ ((s.swapBanks c).presentOn c).Nodup) ∧
    (∃ (s : State) (c : Nat), c < s.n ∧ (s.core c).quantumStart + 65536 ≤ s.clock ∧ s.coreWanted c = false ∧ s.sharingSwap c = false ∧
      (s.presentOn c).Nodup) ∧
    (∃ (s : State) (c : Nat), s.clock < (s.core c).quantumStart + 65536) ∧
    (∀ susp : Bool, ∃ (s : State) (u : WorkUnit) (l : Launch), s.unit? u.uid = some u ∧ u.uid = 1 ∧ s.launch? u.die u.lslot = some l ∧ u.residence = .resident ∧
      (s.units.map (·.uid)).Nodup ∧ l.abort = none ∧ (l.suspend.any fun x => x.spill) = susp ∧ (s.core u.core).active ≠ u.bank ∧ u.uid ∈ (s.core u.core).outgoing ∧
      (∀ x ∈ s.cohortGroup u, s.spillReady x = true) ∧ ∃ s', s.writeImages (s.cohortGroup u) = some s') ∧
    (∃ (s : State) (u : WorkUnit) (l : Launch), s.unit? u.uid = some u ∧ u.uid = 1 ∧ s.launch? u.die u.lslot = some l ∧ l.abort = none ∧
      (s.core u.core).active ≠ u.bank ∧ u.uid ∈ (s.core u.core).outgoing ∧ (∀ x ∈ s.cohortGroup u, s.spillReady x = true) ∧ s.writeImages (s.cohortGroup u) = none) ∧
    (∃ (s : State) (u : WorkUnit), s.unit? u.uid = some u ∧ u.uid = 1 ∧ ∃ x ∈ s.cohortGroup u, s.spillReady x = false) ∧
    (∃ (s : State) (l : Launch), (∃ u ∈ s.units, u.die = 0 ∧ u.lslot = 0 ∧ u.residence = .resident ∧ s.coreWanted u.core = true ∧ u.spillSince = some 0 ∧
      0 + 2 ^ 24 ≤ s.clock) ∧ s.launch? 0 0 = some l ∧ l.abort = none) ∧
    (∃ s u l bank, spilled s u l ∧ l.frontier = none ∧ returns s u ∧ goes s u bank) ∧
    (∃ s u l, spilled s u l ∧ l.frontier = none ∧ s.mayReturn 0 u = false) ∧
    (∃ s u l, spilled s u l ∧ l.frontier = none ∧ returns s u ∧ s.bankForGroup 0 [u] = none) ∧
    ∃ s u l bank, spilled s u l ∧ l.frontier.map (·.restoring) = some [u.unitId] ∧ s.seedCore l [u] = some 0 ∧ goes s u bank := by
  intro spilled returns goes
  have some_of : ∀ {o : Option State}, o.isSome = true → ∃ s, o = some s := fun {o} h => Option.isSome_iff_exists.mp h
  let behind := spilledState fun s => s.modifyCore 0 fun c => { c with waiting := [5, 1] }
  let full := spilledState fun s => { s with units := s.units ++ full2 }
  refine ⟨⟨swapState id id, 0, by decide +kernel⟩, ⟨swapState id fun s => s.modifyCore 0 fun c => { c with active := 0, waiting := [] }, 0, by decide +kernel⟩,
    ⟨swapState id fun s => { s with clock := 5 }, 0, by decide +kernel⟩, fun susp => ?_,
    ⟨swapState id noSave, ((swapState id noSave).unit? 1).getD default, ((swapState id noSave).launch? 0 0).getD default, by decide +kernel⟩,
    ⟨swapState rakeUnit id, ((swapState rakeUnit id).unit? 1).getD default, by decide +kernel⟩,
    ⟨swapState (fun u => { u with spillSince := some 0 }) fun s => { s with clock := 2 ^ 24 },
      ((swapState (fun u => { u with spillSince := some 0 }) fun s => { s with clock := 2 ^ 24 }).launch? 0 0).getD default, by decide +kernel⟩,
    ⟨spilledState id, ((spilledState id).unit? 1).getD default, ((spilledState id).launch? 0 0).getD default,
      ((spilledState id).bankForGroup 0 [((spilledState id).unit? 1).getD default]).getD 9, by decide +kernel⟩,
    ⟨behind, (behind.unit? 1).getD default, (behind.launch? 0 0).getD default, by decide +kernel⟩,
    ⟨full, (full.unit? 1).getD default, (full.launch? 0 0).getD default, by decide +kernel⟩,
    ⟨seededState, (seededState.unit? 1).getD default, (seededState.launch? 0 0).getD default,
      (seededState.bankForGroup 0 [(seededState.unit? 1).getD default]).getD 9, by decide +kernel⟩⟩
  cases susp
  · refine ⟨swapState id id, ((swapState id id).unit? 1).getD default, ((swapState id id).launch? 0 0).getD default, ?_⟩
    repeat (first | exact some_of (by decide +kernel) | refine ⟨by decide +kernel, ?_⟩)
  · refine ⟨swapState id suspended, ((swapState id suspended).unit? 1).getD default, ((swapState id suspended).launch? 0 0).getD default, ?_⟩
    repeat (first | exact some_of (by decide +kernel) | refine ⟨by decide +kernel, ?_⟩)

/-- The end of a quantum swaps the banks, since a unit waits, and gives the one context its whole share (R421, R434). -/
theorem test_quantumEnd : let c := (testNext (exec (.quantumEnd 0) (swapState id id))).core 0
    (c.active, c.quantumStart, c.deficit 1) = (0, 65536, 262144) := by decide +kernel

/-- A restore: resident again in the lowest free gang slot (R426). -/
theorem test_restore : let t := testNext (exec (.restore 1) (spilledState id))
    ((t.units.map fun u => (u.uid, u.residence, u.slots)), (t.core 0).waiting) = ([(1, .resident, [0]), (5, .waiting, [])], []) := by decide +kernel

/-! ### Issue -/

def pendingState (kind : LongKind) (ws : List RegWrite) (rest : State → State) : State :=
  testState 0 (fun _ => [(2, 0x10900)]) (fun u => { memUnit u with slices := u.slices.map fun sl => { sl with pend := [⟨8, 1, kind, ws, 0, [], true⟩], sb := [0, 1, 0, 0, 0, 0, 0] } })
    fun s => rest (put8 0x40900 2 (put8 0x40908 3 (put8 0x40910 0x10A00 (put8 0x40920 1 s))))

def ringRead (pop : Bool) : RingRead := ⟨0, 0x40900, 0x10A00, 0, 0, 4, 20, pop⟩
def itemHere (s : State) : State := put8 0x40A00 1 (put8 0x40A08 77 s)

/-- A unit at its kernel's entry, or another place, at the header h. -/
def headState (h : Nat) (entry : Bool) (regs : Nat) (f : Slice → Slice) : State :=
  testState 0 (fun _ => []) (fun u => { u with regs := regs, slices := u.slices.map fun sl => f { sl with pc := 0x10100, clause := none, atEntry := entry } })
    (put8 0x40100 h)

def parkAll (s : State) : State := s.modifyUnit 1 fun u => { u with slices := u.slices.map fun sl => { sl with parked := true, pend := [] } }

def canStart (s : State) : Bool := match s.gangOf s.cur with
  | some g => s.canGo g.u g.ref.home g.ref.ig
  | none => false

theorem witness_ResultsArriveAndClausesStart :
    (∀ kind, ∃ (s : State) (u : WorkUnit) (r : LongResult), s.unit? u.uid = some u ∧ 0 < u.slices.length ∧ r ∈ (u.slice 0).pend ∧ r.kind = kind ∧
      (∀ q < u.slices.length, ∀ x ∈ (u.slice q).pend, x.id = r.id → q = 0 ∧ x = r) ∧ u.residence = .resident ∧ s.requests = []) ∧
    (∀ pop : Bool, ∃ (s : State) (u : WorkUnit) (ps : List Piece), s.unit? 1 = some u ∧ (u.slice 0).pend.map (·.kind) = [.ring [ringRead pop] false] ∧
      s.pieces u.ctx .read 0x10A00 64 = .ok ps ∧ leNat ((s.readPieces ps).take 8) = 0 + 1 ∧ s.natAt (0x40900 + 40) 8 = 0 ∧ s.ringFrees = []) ∧
    (∃ (s : State) (u : WorkUnit) (ps : List Piece), s.unit? 1 = some u ∧ (u.slice 0).pend.map (·.kind) = [.ring [ringRead true] false] ∧
      s.pieces u.ctx .read 0x10A00 64 = .ok ps ∧ leNat ((s.readPieces ps).take 8) ≠ 0 + 1) ∧
    (∀ free, free = 0 ∨ free = 1 → ∃ s : State, s.natAt (0x40900 + 40) 8 = free) ∧
    (∃ (s : State) (g : Gang), s.gangOf s.cur = some g ∧ ∀ p ∈ g.ps, (g.u.slice p).parked = true ∧ (g.u.slice p).pend = []) ∧
    (∀ e ∈ [(0, false, 64), (0xC500000020000070, false, 64), (0xC500000000000060, true, 64), (0xC500000020000060, true, 64), (0xC500000008000060, true, 64),
        (0xC500000020000260, false, 64)], ∃ s : State, canStart s = true ∧ (s.gangOf s.cur).isSome = true ∧
      (s.gangOf s.cur).any (fun g => g.head.clause == none && g.head.atEntry == e.2.1 && g.u.regs == 64 &&
        (match s.fetch g.u.ctx g.pc with
          | .ok w => w == BitVec.ofNat 64 e.1
          | .error _ => false)) = true) ∧
    ∃ s : State, canStart s = true ∧ (s.gangOf s.cur).any (fun g => match s.fetch g.u.ctx g.pc with
      | .ok _ => false
      | .error f => f.cause == .pageNotPresent) = true := by
  have pieces_ok : ∀ {e : Except AccessFault (List Piece)}, e.toOption.isSome = true → e = .ok (e.toOption.getD []) := by
    intro e h; cases e <;> simp_all [Except.toOption]
  refine ⟨fun kind => ⟨pendingState kind [] id, ((pendingState kind [] id).unit? 1).getD default, ⟨8, 1, kind, [], 0, [], true⟩, ?_⟩, fun pop => ?_,
    ⟨pendingState (.ring [ringRead true] false) [] id, ((pendingState (.ring [ringRead true] false) [] id).unit? 1).getD default, _, ?_, ?_, pieces_ok ?_, ?_⟩,
    fun free h => ?_, ⟨pendingState .ready [] parkAll, ?_⟩,
    fun e he => ?_, ⟨headState 0xC500000020000060 false 64 fun sl => { sl with pc := 0x50000 }, ?_⟩⟩
  case refine_1 => exact ⟨rfl, Nat.one_pos, List.mem_singleton.mpr rfl, rfl, fun q hq x hx _ => by
      have : q = 0 := by have : q < 1 := hq; omega
      subst this; exact ⟨rfl, List.mem_singleton.mp hx⟩, rfl, rfl⟩
  case refine_2 =>
    cases pop
    · refine ⟨pendingState (.ring [ringRead false] false) [] itemHere, ((pendingState (.ring [ringRead false] false) [] itemHere).unit? 1).getD default, _, ?_, ?_, pieces_ok ?_, ?_⟩ <;> decide +kernel
    · refine ⟨pendingState (.ring [ringRead true] false) [] itemHere, ((pendingState (.ring [ringRead true] false) [] itemHere).unit? 1).getD default, _, ?_, ?_, pieces_ok ?_, ?_⟩ <;> decide +kernel
  case refine_7 =>
    rcases h with rfl | rfl
    · exact ⟨pendingState .ready [] id, by decide +kernel⟩
    · exact ⟨pendingState .ready [] (put8 0x40928 1), by decide +kernel⟩
  case refine_8 =>
    refine ⟨testGang (pendingState .ready [] parkAll), gang_of ?_, ?_⟩ <;> decide +kernel
  case refine_9 =>
    refine ⟨headState e.1 e.2.1 e.2.2 id, ?_⟩
    revert e; decide +kernel
  all_goals decide +kernel

/-- A clause starts: the words after the header, the class and count of the header (R21, R152). -/
theorem test_clauseStart : ((testNext (exec (.clauseStart ⟨1, 0, 0⟩) (headState 0xC500000008000013 true 64 id))).units.map fun u =>
    ((u.slice 0).pc, (u.slice 0).clause, (u.slice 0).regs)) = [(0x10108, some ⟨0x10100, 4, 1⟩, 64)] := by decide +kernel

/-- QPOP's item is written and FREE comes up (R390). -/
theorem test_qpop_item : let t := testNext (exec (.longResultWritten 1 ⟨8, none⟩) (pendingState (.ring [ringRead true] false) [] itemHere))
    (((testLane t 0).getV 20).val, t.natAt 0x40928 8, t.units.map fun u => (u.slice 0).sb.getD 1 9) = (77, 1, [0]) := by decide +kernel

/-! ### The memory system, power and links -/

/-- Another level-3 entry names a movable page at VA 0x20000; die 0's engine runs. -/
def pageState (loc : Nat) (rest : State → State) : State :=
  testState 0 (fun _ => []) id fun s =>
    let s := put8 0x30010 (loc + 0x47) s
    rest (({ s with usedFrames := s.namedFrames } : State).modifyDie 0 fun d => { d with evicting := true, lowWater := 1 })

def hinted (s : State) : State := { s.modifyContext 1 (fun c => { c with step := 4 }) with hints := [(0x30010, ⟨0x100000000000, 16, 4, true, 1, false⟩)] }


/-- The movable page of HBM is dead. -/
def deadPage (s : State) : State := { s with hints := [(0x30010, ⟨0x50000, 16, 0, false, 1, true⟩)] }
def hbm0 : Nat × Nat := (3 * 2 ^ 20 * 0, 3 * 2 ^ 20 * (0 + 1))
def capacity0 : Nat × Nat := (0x10000000 + 0xC00000 * 0, 0x10000000 + 0xC00000 * (0 + 1))
def movable1 (s : State) (r : Nat × Nat) : Movable := (s.movables s.mapEntries r).headD default

theorem witness_PagesMoveAndErrorsAreReported :
    (∃ (s : State) (p : Movable), Memory.wf s.mem = true ∧ (s.die 0).evicting = true ∧ s.movables s.mapEntries hbm0 = [p] ∧ p.dist ≤ 2 ^ 32 ∧
      0x10000000 % p.frames = 0 ∧ (∃ x ∈ s.freeRuns capacity0, x.1 ≤ 0x10000000 ∧ 0x10000000 + p.frames ≤ x.1 + x.2) ∧
      ∀ x ∈ s.freeRuns capacity0, 0x10000000 ≤ x.1) ∧
    (∃ (s : State) (p : Movable), Memory.wf s.mem = true ∧ s.movables s.mapEntries capacity0 = [p] ∧ p.dist = 0 ∧ p.pri ≤ 3 ∧
      (s.die 0).lowWater < s.freeHbm 0 ∧ 0 % p.frames = 0 ∧ ∃ x ∈ s.freeRuns hbm0, x.1 ≤ 0 ∧ 0 + p.frames ≤ x.1 + x.2) ∧
    (∃ s : State, (s.die 0).evicting = false ∧ s.movables s.mapEntries hbm0 = [] ∧ Memory.wf s.mem = true ∧ s.freeHbm 0 ≤ (s.die 0).lowWater) ∧
    (∀ a ∈ [0x40, 0x100000000000], ∃ s : State, (a < 0x00C000000000 ∨ 0x100000000000 ≤ a ∧ a < 0x130000000000) ∧
      (s.chip * 2 ^ 48 + a) / (if a < 0x00C000000000 then 32 else 64) * (if a < 0x00C000000000 then 32 else 64) ∉ s.badSectors ∧ s.dies.length = 4 ∧
      s.deadAt (s.chip * 2 ^ 48 + a) = false) ∧
    (∃ s : State, s.mapped 0xFC0000000000 = true ∧ s.chip = 0 ∧ s.deadAt 0xFC0000000000 = false) ∧
    (∃ s : State, 0x40 ∈ s.badSectors) ∧ (∃ s : State, s.deadAt 0x50000 = true ∧ s.chip = 0) ∧
    (∃ (s : State) (u : WorkUnit) (l : Launch), s.unit? u.uid = some u ∧ u.uid = 1 ∧ u.residence = .resident ∧ 0 < u.nlanes ∧ 0 < u.regs ∧ 0 < u.ntiles ∧
      s.scratchOk u 0 = true ∧ s.launch? 0 0 = some l ∧ l.abort = none ∧ 0 < s.dies.length) ∧
    ∀ clock, clock = 255 ∨ clock = 256 → ∃ s : State, s.clock = clock ∧ s.controllers = [⟨3, 0, 0, 0⟩] ∧ s.requests.length = 1 := by
  refine ⟨⟨pageState 0x50000 id, movable1 (pageState 0x50000 id) hbm0, by decide +kernel⟩,
    ⟨pageState 0x100000000000 hinted, movable1 (pageState 0x100000000000 hinted) capacity0, by decide +kernel⟩,
    ⟨testState 0 (fun _ => []) id fun s => s.modifyDie 0 fun d => { d with lowWater := 3 * 2 ^ 20 }, by decide +kernel⟩,
    fun a ha => ⟨pageState 0x50000 id, ?_⟩, ⟨pageState 0x50000 fun s => s.modifyDie 0 fun d => { d with shared := 1 }, by decide +kernel⟩,
    ⟨{ State.reset with badSectors := [0x40] }, by decide⟩, ⟨pageState 0x50000 deadPage, by decide +kernel⟩,
    ⟨memState 0 (fun u => { u with ntiles := 1 }) id, ((memState 0 (fun u => { u with ntiles := 1 }) id).unit? 1).getD default, loadLaunch, by decide +kernel⟩,
    fun clock h => ⟨testState 0 (fun _ => []) id fun s => { s with clock := clock, controllers := [⟨3, 0, 0, 0⟩], requests := [⟨8, 3, 0, ⟨1, 0, 0⟩, 1⟩] }, ?_⟩⟩
  · revert a; decide +kernel
  · rcases h with rfl | rfl <;> decide +kernel

/-- The page at frame 0x50000 moves to the first frame of the capacity tier; its entry names it (R260, R261). -/
theorem test_pageEvict : let t := testNext (exec (.pageEvict 0) (pageState 0x50000 (put8 0x50008 9)))
    (t.natAt 0x30010 8, t.natAt 0x100000000008 8) = (0x100000000047, 9) := by decide +kernel

def sensorState (power : Nat) (temp : Nat) (clock : Nat) : State := { State.reset with power := power, temps := [temp, 40, 40, 40], clock := clock }

def linkState (f : Link → Link) (rest : State → State) : State :=
  testState 0 (fun _ => []) id fun s => rest { s with links := putLink s.links (f (freshLink 3)) }

/-- A flit with a store of four bytes. -/
def theFlit (seq : Nat) (ok : Bool) : Flit := ⟨seq, ok, 0, .write 9 0x40800 [1, 2, 3, 4]⟩

def asked (s : State) : State := s.modifyLink 3 fun k => { k with outstanding := [⟨9, 0, 0, 1, [0], false, .store⟩] }

theorem witness_LimitsSetTheClockAndLinksDeliverInOrder :
    (∃ s : State, 2200 < s.power) ∧ (∃ s : State, ∃ t ∈ s.temps, 105 ≤ t) ∧
    (∃ s : State, ¬ (2200 < s.power ∨ ∃ t ∈ s.temps, 95 < t) ∧ s.limitClearSince + 1000 * s.clockMHz ≤ s.clock ∧ ∀ t ∈ s.temps, t < 100) ∧
    (∃ s : State, ¬ (2200 < s.power ∨ ∃ t ∈ s.temps, 95 < t) ∧ s.clock < s.limitClearSince + 1000 * s.clockMHz) ∧
    (∃ (s : State) (f g h : Flit), (s.link 3).inService = true ∧ f.crcOk = false ∧ f.fits = true ∧ g.crcOk = true ∧ g.fits = true ∧
      g.seq = (s.link 3).expected ∧ h.seq ≠ (s.link 3).expected ∧ h.crcOk = true) ∧
    (∃ s : State, (s.link 3).inService = false) ∧ (∃ f : Flit, f.fits = false) ∧
    (∃ s : State, 0x40800 / 2 ^ 48 = s.chip ∧ s.mapped 0x40800 = true ∧ s.mapped (0x40800 + 8 - 1) = true ∧ inWake 0x40800 = false ∧
      s.uncorrectableAt 0x40800 8 = false) ∧
    (∃ s : State, ∃ q ∈ (s.link 3).outstanding, q.id = 9) ∧
    (∃ s : State, (s.link 3).replaySince = none) ∧
    ∀ clock, clock = 5 ∨ clock = 2 ^ 24 → ∃ (s : State) (l : Launch), (s.link 3).replaySince = some (0, 1) ∧
      (∃ q ∈ (s.link 3).outstanding, (q.die, q.lslot) = (0, 0)) ∧ (s.link 3).inService = true ∧
      s.clock = clock ∧ s.launch? 0 0 = some l ∧ l.abort = none := by
  refine ⟨⟨sensorState 2300 40 0, by decide⟩, ⟨sensorState 0 105 0, by decide⟩, ⟨sensorState 0 40 1750000, by decide⟩, ⟨sensorState 0 40 5, by decide⟩,
    ⟨linkState id id, theFlit 0 false, theFlit 0 true, theFlit 7 true, by decide +kernel⟩,
    ⟨linkState (fun k => { k with inService := false }) id, by decide +kernel⟩, ⟨⟨0, true, 0, .read 9 0x408F8 16⟩, by decide⟩,
    ⟨linkState id id, by decide +kernel⟩, ⟨linkState id asked, by decide +kernel⟩, ⟨linkState id id, by decide +kernel⟩,
    fun clock h => ⟨linkState (fun k => { k with replaySince := some (0, 1) }) fun s => { asked s with clock := clock }, loadLaunch, ?_⟩⟩
  rcases h with rfl | rfl <;> decide +kernel

/-- A good flit in sequence is applied and counted; one out of sequence is not (R370). -/
theorem test_flits : [theFlit 0 true, theFlit 7 true].map (fun f => let t := testNext (exec (.flitReceive 3 f) (linkState id id))
    (t.natAt 0x40800 4, (t.link 3).expected, (t.link 3).sent.length)) = [(0x04030201, 1, 1), (0, 0, 0)] := by decide +kernel

/-- A failed flit is asked for again, and an acknowledged one leaves the replay buffer (R370). -/
theorem test_replay : [theFlit 0 false, { theFlit 0 true with upTo := 1 }].map (fun f =>
    let k := (testNext (exec (.flitReceive 3 f) (linkState (fun k => { k with replay := [theFlit 0 true], nextSeq := 1, discarding := true }) id))).link 3
    (k.discarding, k.requests, k.replay.map (·.seq))) = [(true, [0], [0]), (false, [], [1])] := by decide +kernel

/-! ### Ports and the Tack cores -/

/-- Queue 3 of die 0 at VA 0x10800, 16 slots, of context 1, with its first packet; an RMA window on it; every port up. -/
def testQueue : Queue :=
  { (default : Queue) with num := 3, base := 0x10800, logsz := 4, ctx := 1, rdptr := 0x10E00, faultrec := 0x10F00, tail := 1 }
def testWindow : Window := ⟨2, 1, 0x10800, 0x800, 0xABCD⟩

def portState (f : Die → Die) (rest : State → State) : State :=
  testState 0 (fun _ => []) id fun s => rest ({ s with portsUp := true }.modifyDie 0 fun d => f { d with queues := [testQueue], windows := [testWindow] })

def testRma (len : Nat) : RmaWrite := ⟨0, 2, 0xABCD, 8, List.replicate len 5, default⟩

theorem witness_WakeCellsAndPortsAnswer :
    (∃ (s : State) (x : Queue), 0 < s.dies.length ∧ s.queue? 0 3 = some x ∧ x.stopped = false ∧ x.rd.toNat + 2 ^ x.logsz < (100 : DWord).toNat ∧
      ¬ x.rd.toNat + 2 ^ x.logsz < (2 : DWord).toNat ∧ s.queue? 0 5 = none) ∧
    (∃ a b c : WakeAccess, a.kind = .atomic ∧ a.port ≠ none ∧ b.kind = .other ∧ b.port = none ∧ c.kind = .engine) ∧
    (∃ s : State, s.portsUp = true) ∧ (∃ s : State, s.portsUp = false) ∧
    (∃ (s : State) (m : RmaWrite) (w : Window) (ps : List Piece), s.portsUp = true ∧ (s.die m.port).windows.find? (·.num == m.window) = some w ∧ w.key = m.key ∧
      1 ≤ m.data.length ∧ m.data.length ≤ 2 ^ 24 ∧ m.offset + m.data.length ≤ w.len ∧
      s.rmaPieces w.ctx .write ((w.va.toNat + m.offset) % 2 ^ 64) m.data.length = some ps ∧ s.rmaPieces w.ctx .read ((w.va.toNat + m.offset) % 2 ^ 64) m.data.length = some ps ∧
      ∀ p ∈ ps, inWake p.leaf.pa = false) ∧
    (∃ (s : State) (m : RmaWrite) (w : Window), s.portsUp = true ∧ (s.die m.port).windows.find? (·.num == m.window) = some w ∧ w.key = m.key ∧
      m.offset + m.data.length ≤ w.len ∧ s.rmaPieces w.ctx .write ((w.va.toNat + m.offset) % 2 ^ 64) m.data.length = none) ∧
    ∃ (s : State) (m : RmaWrite), s.portsUp = true ∧ (s.die m.port).windows.find? (·.num == m.window) = none := by
  have pieces : ∀ {o : Option (List Piece)}, o.isSome = true → o = some (o.getD []) := fun {o} h => by cases o <;> simp_all
  let far : Die → Die := fun d => { d with windows := [{ testWindow with va := 0x50000 }] }
  refine ⟨⟨portState id id, testQueue, by decide +kernel⟩, ⟨⟨.atomic, 0, some 1⟩, ⟨.other, 0, none⟩, ⟨.engine, 0, none⟩, by decide⟩,
    ⟨portState id id, rfl⟩, ⟨State.reset, rfl⟩,
    ⟨portState id id, testRma 4, testWindow, _, rfl, by decide +kernel, rfl, by decide, by decide, by decide, pieces (by decide +kernel), by decide +kernel, by decide +kernel⟩,
    ⟨portState far id, testRma 4, { testWindow with va := 0x50000 }, by decide +kernel⟩,
    ⟨portState (fun d => { d with windows := [] }) id, testRma 4, by decide +kernel⟩⟩

/-- A tail store takes the greater value and signals the Tack cores (R91, R103). -/
theorem test_tailStore : let t := testNext (exec (.tailStore 0 3 9) (portState id id))
    ((t.queue? 0 3).map (·.tail), (t.tack 0 7).pending) = (some 9, 1) := by decide +kernel

/-! #### Xdreox -/

/-- x11 and x12 of core 0 of die 0, whose word at pc is sigwait x10, x11, x12. -/
def tackState (a b : DWord) (f : TackCore → TackCore) (rest : State → State) : State :=
  rest ((portState (fun d => { d with tacks := d.tacks.map fun c => { c with x := [(11, a), (12, b)] } }) fun s => s.withFetchWord 32 0x00C5A50B).modifyDie 0 fun d =>
    { d with tacks := d.tacks.map f })

/-- A good packet in the queue's first slot: VALID for the first lap, not checked. -/
def goodSlot (s : State) : State := put8 0x40800 1 s
def badSlot (s : State) : State := put8 0x40800 (0x11 + 5 * 2 ^ 32) s
def bufferState (e : PacketEntry) (rest : State → State) : State :=
  tackState 2 0 id fun s => rest (s.modifyDie 0 fun d => { d with buffer := [(2, e)] })
def fullSlots (s : State) : State :=
  { s with launches := (List.range 32).map fun n => { loadLaunch with slot := n } }

def theEntry : PacketEntry := ⟨List.replicate 16 0, true, false, 3, 0, 1, none⟩

theorem witness_XdreoxInstructionsRun :
    let at0 := fun (s : State) (a b : DWord) (m : TackMode) => s.curTack = (0, 0) ∧ 0 < s.dies.length ∧ 0 < (s.die 0).tacks.length ∧
      (s.tack 0 0).getX 11 = a ∧ (s.tack 0 0).getX 12 = b ∧ (s.tack 0 0).mode = m
    (∃ s, at0 s 1 1 .user) ∧
    (∀ e ∈ [(0x12345678, 0x1002), (0x12345678, 0x0002), (0, 0), (3, 5), (0x3000, 0), (0x4003, 0), (0xFFF, 0)],
      ∃ s, at0 s (BitVec.ofNat 64 e.1) (BitVec.ofNat 64 e.2) .machine) ∧
    (∃ s : State, (s.tack 0 0).pending &&& (s.tack 0 0).getX 11 ≠ 0) ∧
    (∀ clock, clock = 4 ∨ clock = 5 → ∃ s : State, at0 s 3 5 .machine ∧ s.clock = clock ∧ (s.tack 0 0).waiting = some 0 ∧
      ((s.die 0).word (s.tack 0 0).pc.toNat).map (fun w => match decode (.tack w) with
        | .ok i => i == .sigwait 10 11 12
        | .error _ => false) = some true ∧ (s.tack 0 0).pending &&& (s.tack 0 0).getX 11 = 0) ∧
    (∀ k < 3, ∃ (s : State) (q : Queue) (ws : List DWord), at0 s 3 0 .machine ∧ s.queue? 0 3 = some q ∧ s.readSlot q 0 = .ok ws ∧
      ((wordOf ws 0).getLsbD 0 = decide (k ≠ 0)) ∧ (wordOf ws 0).getLsbD 4 = decide (k = 2)) ∧
    (∃ (s : State) (q : Queue) (c : Cause), at0 s 3 0 .machine ∧ s.queue? 0 3 = some q ∧ s.readSlot q 0 = .error c) ∧
    (∃ (s : State) (g : DWord) (c : Nat) (ws : List DWord), at0 s 0xFFF 0 .machine ∧ (s.die 0).intake = [(g, c, ws)]) ∧
    (∃ s, at0 s 0xFFF 0 .machine ∧ (s.die 0).intake = []) ∧
    (∃ s, at0 s 2 0 .machine ∧ (sparseGet emptyEntry (s.die 0).buffer 2).filled = true ∧ (sparseGet emptyEntry (s.die 0).buffer 2).dispatched = false ∧
      s.freeSlot 0 = some 1) ∧
    (∃ s, at0 s 2 0 .machine ∧ (sparseGet emptyEntry (s.die 0).buffer 2).filled = true ∧ s.freeSlot 0 = none) ∧
    ∃ s, at0 s 2 0 .machine ∧ (sparseGet emptyEntry (s.die 0).buffer 2).filled = false := by
  have slot : ∀ {e : Except Cause (List DWord)}, e.toOption.isSome = true → e = .ok (e.toOption.getD []) := by
    intro e h; cases e <;> simp_all [Except.toOption]
  have bad : ∀ {e : Except Cause (List DWord)}, e.toOption.isSome = false → ∃ c, e = .error c := by
    intro e h; cases e with
    | error c => exact ⟨c, rfl⟩
    | ok a => simp [Except.toOption] at h
  refine ⟨⟨tackState 1 1 (fun c => { c with mode := .user }) id, by decide +kernel⟩, fun e h => ⟨tackState (BitVec.ofNat 64 e.1) (BitVec.ofNat 64 e.2) id id, ?_⟩,
    ⟨tackState 3 0 (fun c => { c with pending := 2 }) id, by decide +kernel⟩,
    fun clock h => ⟨tackState 3 5 (fun c => { c with waiting := some 0 }) fun s => { s with clock := clock }, ?_⟩, fun k h => ?_,
    ⟨tackState 3 0 id fun s => s.modifyQueue 0 3 fun q => { q with base := 0x50000 }, { testQueue with base := 0x50000 }, ?_⟩,
    ⟨tackState 0xFFF 0 id fun s => s.modifyDie 0 fun d => { d with intake := [(7, 1, List.replicate 16 0)] }, 7, 1, List.replicate 16 0, by decide +kernel⟩,
    ⟨tackState 0xFFF 0 id id, by decide +kernel⟩, ⟨bufferState theEntry id, by decide +kernel⟩, ⟨bufferState theEntry fullSlots, by decide +kernel⟩,
    ⟨tackState 2 0 id id, by decide +kernel⟩⟩
  case refine_1 => revert e; decide +kernel
  case refine_2 => rcases h with rfl | rfl <;> decide +kernel
  case refine_3 =>
    rcases (by omega : k = 0 ∨ k = 1 ∨ k = 2) with rfl | rfl | rfl
    · exact ⟨tackState 3 0 id id, testQueue, _, by decide +kernel, by decide +kernel, slot (by decide +kernel), by decide +kernel, by decide +kernel⟩
    · exact ⟨tackState 3 0 id goodSlot, testQueue, _, by decide +kernel, by decide +kernel, slot (by decide +kernel), by decide +kernel, by decide +kernel⟩
    · exact ⟨tackState 3 0 id badSlot, testQueue, _, by decide +kernel, by decide +kernel, slot (by decide +kernel), by decide +kernel, by decide +kernel⟩
  obtain ⟨c, hc⟩ := bad (e := (tackState 3 0 id fun s => s.modifyQueue 0 3 fun q => { q with base := 0x50000 }).readSlot { testQueue with base := 0x50000 } 0)
    (by decide +kernel)
  exact ⟨c, by decide +kernel, by decide +kernel, hc⟩

/-- BFEX takes W bits at LO (R102); SIGWAIT returns and clears what it finds (R104). -/
theorem test_bfex : ((testNext (exec (.bfex 10 11 12) (tackState 0x12345678 (8 + 12 * 64) id id))).tack 0 0).getX 10 = 0x456 := by decide +kernel
theorem test_sigwait : let c := (testNext (exec (.sigwait 10 11 12) (tackState 6 0 (fun c => { c with pending := 3 }) id))).tack 0 0
    (c.getX 10, c.pending) = (2, 1) := by decide +kernel

/-! ### Packets -/

def putWords : Nat → List DWord → State → State
  | _, [], s => s
  | loc, w :: ws, s => putWords (loc + 8) ws (put8 loc w.toNat s)

/-- A grid packet of one workgroup of 32 lanes, its descriptor at VA 0x12000, its record at VA 0x13000. -/
def gridPacket (tickets prio : Nat) : List DWord :=
  [BitVec.ofNat 64 (1 + prio * 2 ^ 8 + tickets * 2 ^ 16), 0x12000, 0x13000, 0, 0, 1, 1 + 2 ^ 32, 1, 32 + 2 ^ 11 + 2 ^ 22, 0, 0, 0, 0, 0, 0, 0]

/-- Queue 3 with the packet in its first slot, the descriptor in place, the vector table at VA 0x11000. -/
def packetState (ws : List DWord) (rest : State → State) : State :=
  portState id fun s => rest ({ (putWords 0x42000 [0x10000, 8, 0x4000, 0, 0, 0, 0, 0] (putWords 0x40800 ws s)).modifyContext 1 (fun c => { c with vectab := 0x11000 }) with
    launches := [] })

def queueIs (f : Queue → Queue) (s : State) : State := s.modifyQueue 0 3 f
def tablesOf (s : State) (ws : List DWord) : Option Tables := (s.checkPacket 1 ws).toOption

def headKind : HeadRead → Nat
  | .fault => 0
  | .notValid => 1
  | .badCrc _ => 2
  | .good _ => 3

/-- A head of that kind, with that many reads that failed. -/
def slotState (kind reads crc : Nat) : State :=
  portState id fun s => queueIs (fun q => { q with crcReads := reads, base := if kind = 0 then 0x50000 else q.base })
    (match kind with
      | 2 => put8 0x40800 (0x11 + crc * 2 ^ 32) s
      | 3 => goodSlot s
      | _ => s)

theorem ok_of {e : Except Nat Tables} (h : e.toOption.isSome = true) : e = .ok (e.toOption.getD default) := by
  cases e <;> simp_all [Except.toOption]

/-- Of two packets that differ in their CRC fields alone, one fails its CRC. -/
theorem badCrc_of {s t : State} {q : Queue} {a b : List DWord} (ha : s.readSlot q q.rd = .ok a) (hb : t.readSlot q q.rd = .ok b)
    (h : ((wordOf a 0).getLsbD 0 = q.gen q.rd ∧ (wordOf b 0).getLsbD 0 = q.gen q.rd) ∧ (pktChk a = true ∧ pktChk b = true) ∧ a.drop 1 = b.drop 1 ∧
      (wordOf a 0).extractLsb' 32 32 ≠ (wordOf b 0).extractLsb' 32 32) : headKind (s.readHead q) = 2 ∨ headKind (t.readHead q) = 2 := by
  obtain ⟨⟨a0, b0⟩, ⟨ac, bc⟩, d, n⟩ := h
  by_cases c : (wordOf a 0).extractLsb' 32 32 = crc32c (wordsBytes (a.drop 1))
  · have c' : ((wordOf b 0).extractLsb' 32 32 == crc32c (wordsBytes (b.drop 1))) = false := by rw [← d, ← c]; simpa using Ne.symm n
    have k : pktCrcOk b = false := c'
    refine .inr ?_
    simp only [State.readHead, Queue.judge, hb, b0, bc, k, bne_self_eq_false]; rfl
  · have k : pktCrcOk a = false := by simpa [pktCrcOk] using c
    refine .inl ?_
    simp only [State.readHead, Queue.judge, ha, a0, ac, k, bne_self_eq_false]; rfl

theorem slot_ok {e : Except Cause (List DWord)} (h : e.toOption.isSome = true) : e = .ok (e.toOption.getD []) := by
  cases e <;> simp_all [Except.toOption]

/-- The code a packet fails with. -/
def codeOf (e : Except Nat Tables) : Option Nat :=
  match e with
  | .error c => some c
  | .ok _ => none

theorem error_of {e : Except Nat Tables} {c : Nat} (h : codeOf e = some c) : e = .error c := by
  cases e <;> simp_all [codeOf]

/-- A write of 8 bytes can be made, and none of it to a wake cell. -/
def quietWrite (s : State) (ctx va : Nat) : Prop := ∃ ps, s.pieces ctx .write va 8 = .ok ps ∧ ∀ p ∈ ps, inWake p.leaf.pa = false

theorem pieces_all {e : Except AccessFault (List Piece)} (h : e.toOption.any (fun ps => ps.all fun p => !inWake p.leaf.pa) = true) :
    ∃ ps, e = .ok ps ∧ ∀ p ∈ ps, inWake p.leaf.pa = false := by
  cases e <;> simp_all [Except.toOption]

theorem pieces_only {e : Except AccessFault (List Piece)} (h : e.toOption.all (fun ps => ps.all fun p => !inWake p.leaf.pa) = true) :
    ∀ ps, e = .ok ps → ∀ p ∈ ps, inWake p.leaf.pa = false := by
  intro ps k; subst k; simpa [Except.toOption] using h

theorem packet_accepted : (packetState (gridPacket 1 0) id).checkPacket 1 (gridPacket 1 0) =
    .ok (((packetState (gridPacket 1 0) id).checkPacket 1 (gridPacket 1 0)).toOption.getD default) := ok_of (by decide +kernel)

theorem witness_PacketsAreTakenByPriorityAndLottery :
    (∀ kind < 4, ∀ reads ∈ [0, 1, 4], ∃ (s : State) (q : Queue), s.queue? 0 q.num = some q ∧ 0 < s.dies.length ∧ q.num = 3 ∧ q.stopped = false ∧ q.rd < q.tail ∧
      q.crcReads = reads ∧ q.crcDue ≤ s.clock ∧ headKind (s.readHead q) = kind) ∧
    (∃ (s : State) (q : Queue), s.queue? 0 q.num = some q ∧ 0 < s.dies.length ∧ q.stopped = true) ∧
    (∃ (s : State) (q : Queue), s.queue? 0 q.num = some q ∧ 0 < s.dies.length ∧ q.crcReads ≠ 0 ∧ s.clock < q.crcDue) ∧
    (∃ s : State, (s.die 0).queues.Pairwise (fun a b => a.num < b.num) ∧ s.freeSlot 0 = none) ∧
    (∀ e ∈ [(0, 0, 0), (0, 1, 1), (1, 0, 1), (1, 1, 2)], ∃ s : State, s.freeSlot 0 = some 0 ∧ 0 < s.dies.length ∧ (s.die 0).queues.map (·.num) = [3] ∧
      (∀ q ∈ (s.die 0).queues, headKind (s.readHead q) = 1 + 2 * e.1) ∧ (s.die 0).intake.length = e.2.1 ∧
      (s.pollAll 0 fun q => q.num != 0).2.length + (s.die 0).intake.length = e.2.2) ∧
    (∃ (s : State) (x : Source) (ws : List DWord) (q : Queue) (code : Nat), s.launch? 0 5 = none ∧ x.generation = none ∧ s.queue? 0 x.queue = some q ∧ x.queue = 3 ∧
      x.index = q.rd ∧ (wordOf ws 5).toNat % 2 ^ 7 ≤ 1 ∧ quietWrite s q.ctx q.rdptr.toNat ∧
      (∀ ps, s.pieces x.ctx .write (wordOf ws 2).toNat 8 = .ok ps → ∀ p ∈ ps, inWake p.leaf.pa = false) ∧
      s.checkPacket x.ctx ws = .error code ∧ 0 < s.dies.length) ∧
    (∃ (s : State) (x : Source) (ws : List DWord) (q : Queue) (tb : Tables), s.launch? 0 5 = none ∧ x.generation = none ∧ s.queue? 0 x.queue = some q ∧ x.queue = 3 ∧
      x.index = q.rd ∧ (wordOf ws 5).toNat % 2 ^ 7 ≤ 1 ∧ quietWrite s q.ctx q.rdptr.toNat ∧
      (∀ ps, s.pieces x.ctx .write (wordOf ws 2).toNat 8 = .ok ps → ∀ p ∈ ps, inWake p.leaf.pa = false) ∧
      s.checkPacket x.ctx ws = .ok tb ∧ 0 < s.dies.length) ∧
    ∃ s : State, s.dies ≠ [] := by
  refine ⟨fun kind hk reads hr => ?_,
    ⟨portState id (queueIs fun q => { q with stopped := true }), { testQueue with stopped := true }, by decide +kernel⟩,
    ⟨portState id (queueIs fun q => { q with crcReads := 1, crcDue := 1024 }), { testQueue with crcReads := 1, crcDue := 1024 }, by decide +kernel⟩,
    ⟨portState id fullSlots, by decide +kernel⟩, fun e he => ?_,
    ⟨packetState [9] id, ⟨3, 0, 1, none⟩, [9], testQueue, 2, by decide +kernel, rfl, by decide +kernel, rfl, by decide +kernel, by decide +kernel,
      pieces_all (by decide +kernel), pieces_only (by decide +kernel), error_of (by decide +kernel), by decide +kernel⟩,
    ⟨packetState (gridPacket 1 0) id, ⟨3, 0, 1, none⟩, gridPacket 1 0, testQueue, _, by decide +kernel, rfl, by decide +kernel, rfl, by decide +kernel, by decide +kernel,
      pieces_all (by decide +kernel), pieces_only (by decide +kernel), packet_accepted, by decide +kernel⟩, ⟨State.reset, by simp [State.reset]⟩⟩
  · have other : ∀ kind ∈ [0, 1, 3], ∀ reads ∈ [0, 1, 4], let s := slotState kind reads 0; let q := (s.queue? 0 3).getD default
        headKind (s.readHead q) = kind := by decide +kernel
    have at0 : ∀ kind < 4, ∀ reads ∈ [0, 1, 4], ∀ crc ∈ [0, 5], let s := slotState kind reads crc; let q := (s.queue? 0 3).getD default
        s.queue? 0 q.num = some q ∧ 0 < s.dies.length ∧ q.num = 3 ∧ q.stopped = false ∧ q.rd < q.tail ∧ q.crcReads = reads ∧ q.crcDue ≤ s.clock := by decide +kernel
    have done : ∀ crc ∈ [0, 5], let s := slotState kind reads crc; let q := (s.queue? 0 3).getD default
        headKind (s.readHead q) = kind → ∃ (s : State) (q : Queue), s.queue? 0 q.num = some q ∧ 0 < s.dies.length ∧ q.num = 3 ∧ q.stopped = false ∧ q.rd < q.tail ∧
          q.crcReads = reads ∧ q.crcDue ≤ s.clock ∧ headKind (s.readHead q) = kind := fun crc hc k => by
      obtain ⟨a, b, c, d, e, f, g⟩ := at0 kind hk reads hr crc hc
      exact ⟨_, _, a, b, c, d, e, f, g, k⟩
    by_cases h2 : kind = 2
    · subst h2
      have q5 : ((slotState 2 reads 5).queue? 0 3).getD default = ((slotState 2 reads 0).queue? 0 3).getD default ∧
          (((slotState 2 reads 0).queue? 0 3).getD default).rd = 0 := by clear done at0 other; revert reads; decide +kernel
      let q := ((slotState 2 reads 0).queue? 0 3).getD default
      let a := ((slotState 2 reads 0).readSlot q q.rd).toOption.getD []
      let b := ((slotState 2 reads 5).readSlot q q.rd).toOption.getD []
      have k : ((slotState 2 reads 0).readSlot q q.rd).toOption.isSome = true ∧ ((slotState 2 reads 5).readSlot q q.rd).toOption.isSome = true ∧
          ((wordOf a 0).getLsbD 0 = q.gen q.rd ∧ (wordOf b 0).getLsbD 0 = q.gen q.rd) ∧ (pktChk a = true ∧ pktChk b = true) ∧ a.drop 1 = b.drop 1 ∧
            (wordOf a 0).extractLsb' 32 32 ≠ (wordOf b 0).extractLsb' 32 32 := by
        clear done at0 other; revert reads; decide +kernel
      rcases badCrc_of (slot_ok k.1) (slot_ok k.2.1) k.2.2 with e | e
      · exact done 0 (by decide) e
      · exact done 5 (by decide) (by rw [q5.1]; exact e)
    · exact done 0 (by decide) (other kind (by simp; omega) reads hr)
  · refine ⟨packetState (gridPacket 1 0) fun s => queueIs (fun q => if e.1 = 0 then { q with tail := 0, base := 0x11000 } else q)
      (s.modifyDie 0 fun d => { d with intake := if e.2.1 = 1 then [(7, 1, gridPacket 2 0)] else [] }), ?_⟩
    revert e; decide +kernel

/-- A system command of die 0 in progress; context 0 has context 1's tables; a save of context 1. -/
def sysState (code : Nat) (args : List DWord) (rest : State → State) : State :=
  portState id fun s => rest (State.modifyDie { s with
    contexts := (s.contexts.map fun c => { c with num := 0 }) ++ s.contexts.map (fun c => { c with saves := [⟨0x8000, [], []⟩] })
    launches := []
    seeds := [1, 2, 3, 4] } 0 fun d => { d with running := some ⟨code, args, 0x13000, 0⟩ })

def sysCommand (s : State) : SysCommand := (s.die 0).running.getD default

/-- A frontier launch of queue 3 with one point dispatched. -/
def running : Launch := { frontLaunch with queue := 3, frontier := some ⟨[(0, 0), (0, 0)], [0], [], false, none⟩ }

/-- The page-table entry of VA 0x20000; a queue descriptor's words. -/
def leafWord : DWord := 0x50003
def queueWords : List DWord := [0x16000, 4 + 1 * 2 ^ 5, 0x10E00, 0x10F00, 0, 0, 0, 0]

theorem write_ok {s : State} {ctx va n : Nat} {bs : List Byte} (hn : bs.length = n) (h : (s.pieces ctx .write va n).toBool = true) :
    ∃ t, s.deviceWrite ctx va bs = .ok t := by
  subst hn
  unfold State.deviceWrite
  cases k : s.pieces ctx .write va bs.length with
  | error e => simp [k, Except.toBool] at h
  | ok ps => exact ⟨_, rfl⟩

theorem write_error {s : State} {ctx va n : Nat} {bs : List Byte} (hn : bs.length = n) (h : (s.pieces ctx .write va n).toBool = false) :
    ∃ e, s.deviceWrite ctx va bs = .error e := by
  subst hn
  unfold State.deviceWrite
  cases k : s.pieces ctx .write va bs.length with
  | error e => exact ⟨_, rfl⟩
  | ok ps => simp [k, Except.toBool] at h

theorem fit_length (n : Nat) (bs : List Byte) : (fitBytes n bs).length = n := by simp [fitBytes]

theorem natLe_length (n x : Nat) : (natLe n x).length = n := by
  induction n generalizing x with
  | zero => rfl
  | succ n ih => simp [natLe, ih]

theorem report_length (s : State) (nonce : List Byte) (h : s.manifest.length = 256) (hn : nonce.length = 32) : (s.report nonce).length = 16096 := by
  simp only [State.report, List.length_append, fit_length, natLe_length, h, hn]

/-- Memory that lists, after s's own bytes, bs from address a on. -/
def beside (a : Nat) (bs : List Byte) (s : State) : State := { s with mem := s.mem ++ bs.mapIdx fun i b => (a + i, b) }

theorem get_beside (m : List Host.Cell) (a : Nat) (bs : List Byte) (k : Nat) (hk : k < bs.length) (hm : ∀ e ∈ m, e.1 < a) :
    sparseGet 0 (m ++ bs.mapIdx fun i b => (a + i, b)) (a + k) = bs.getD k 0 := by
  induction m with
  | cons e m ih =>
    have := hm e (by simp)
    simp only [List.cons_append, sparseGet]
    rw [if_neg (by omega), ih fun e h => hm e (by simp [h])]
  | nil =>
    clear hm
    induction bs generalizing a k with
    | nil => simp at hk
    | cons b bs ih =>
      simp only [List.nil_append, List.mapIdx_cons, sparseGet]
      cases k with
      | zero => simp
      | succ k =>
        rw [if_neg (by omega)]
        have := ih (a + 1) k (by simpa using hk)
        simpa [Nat.add_assoc, Nat.add_comm, Nat.add_left_comm] using this

theorem read_beside (s : State) (a : Nat) (bs : List Byte) (hm : ∀ e ∈ s.mem, e.1 < a) : (beside a bs s).bytesAt a bs.length = bs := by
  unfold State.bytesAt sparseBytes beside
  refine List.ext_getElem (by simp) fun k h1 h2 => ?_
  simp only [List.getElem_map, List.getElem_range]
  rw [get_beside s.mem a bs k (by simpa using h1) hm]
  simp [h2]

theorem beside_manifest (a : Nat) (bs : List Byte) (s : State) : (beside a bs s).manifest = s.manifest := rfl

theorem manifest_end {s : State} (h : s.manifest.length = 256) : s.manifest.drop 240 = natLe 16 0 := by
  obtain ⟨xs, w⟩ : ∃ xs : List Byte, s.manifest = xs ++ natLe 16 0 := ⟨_, rfl⟩
  rw [w, List.length_append, natLe_length] at h
  rw [w, show 240 = xs.length by omega, List.drop_left]

/-- COMPARE_MANIFEST's table is the manifest itself. -/
def sameManifest : State := let s := sysState 3 [0x14000] id; beside 0x44000 s.manifest s

theorem piece_of {e : Except AccessFault (List Piece)} {a n : Nat} (h : e.toOption.map (fun ps => ps.map fun p => (p.leaf.pa, p.len)) = some [(a, n)]) :
    ∃ p, e = .ok [p] ∧ p.leaf.pa = a ∧ p.len = n := by
  rcases e with e | (_ | ⟨p, _ | ⟨q, ps⟩⟩) <;> simp [Except.toOption] at h
  exact ⟨p, rfl, h⟩

theorem same_manifest : ∃ r, sameManifest.deviceRead 0 0x14000 256 = .ok r ∧ (∀ b ∈ r.drop 240, b = 0) ∧ r.take 240 = sameManifest.manifest.take 240 := by
  have k : (sameManifest.pieces 0 .read 0x14000 256).toOption.map (fun ps => ps.map fun p => (p.leaf.pa, p.len)) = some [(0x44000, 256)] ∧
      sameManifest.badSectors = [] := by decide +kernel
  have len : (sysState 3 [0x14000] id).manifest.length = 256 := by decide +kernel
  have r : sameManifest.bytesAt 0x44000 256 = (sysState 3 [0x14000] id).manifest := by
    have h := read_beside (sysState 3 [0x14000] id) 0x44000 (sysState 3 [0x14000] id).manifest (by decide +kernel)
    rw [len] at h; exact h
  refine ⟨(sysState 3 [0x14000] id).manifest, ?_, ?_, congrArg (List.take 240) (beside_manifest 0x44000 _ _).symm⟩
  · unfold State.deviceRead
    obtain ⟨p, h, e1, e2⟩ := piece_of k.1
    have bad : State.uncorrectableAt sameManifest 0x44000 256 = false := by decide +kernel
    rw [h]
    simp only [List.any_cons, List.any_nil, e1, e2, bad, State.readPieces, List.flatMap_cons, List.flatMap_nil, List.append_nil, r, Bool.or_false]
    rfl
  · rw [manifest_end len]
    decide

theorem words_ok {e : Except Cause (List DWord)} {ws : List DWord} (h : e.toOption = some ws) : e = .ok ws := by
  cases e <;> simp_all [Except.toOption]

theorem words_error {α : Type} {e : Except Cause α} (h : e.toOption.isSome = false) : ∃ c, e = .error c := by
  cases e with
  | error c => exact ⟨c, rfl⟩
  | ok a => simp [Except.toOption] at h

theorem bytes_ok {e : Except Cause (List Byte)} (h : e.toOption.isSome = true) : e = .ok (e.toOption.getD []) := by
  cases e <;> simp_all [Except.toOption]

theorem nonce_ok {e : Except Cause (List Byte)} (h : (e.toOption.map List.length) = some 32) : ∃ n, e = .ok n ∧ n.length = 32 := by
  cases e with
  | error c => simp [Except.toOption] at h
  | ok a => exact ⟨a, rfl, by simpa [Except.toOption] using h⟩

theorem witness_SystemCommandsHaveTheirEffects :
    let at0 := fun (s : State) (code : Nat) => s.curTack.1 = 0 ∧ (s.die 0).running = some (sysCommand s) ∧ (sysCommand s).code = code
    let a := fun (s : State) n => (wordOf (sysCommand s).args n).toNat
    let known := fun (s : State) n => ∃ x ∈ s.contexts, x.num = n
    let canonical := fun n => n < 2 ^ 54 ∨ 2 ^ 64 - 2 ^ 54 ≤ n
    let good := fun (s : State) =>
      let named : MapEntry := ⟨a s 0, 3, if bitOf (a s 2) 1 && s.serves (a s 0) (a s 1) 2 then 29 else 16, s.chip * 2 ^ 48 + a s 1, a s 2⟩
      s.entryOk (a s 0) (a s 1) (a s 2) && !(bitOf (a s 2) 0 && s.namesOwn named && named.meetsBoot)
    ((∃ s, at0 s 1 ∧ s.inService = [96, 96, 96, 96] ∧ s.negotiated = false ∧ a s 4 / 2 ^ 13 % 2 ^ 9 = 388) ∧
      ∃ s, at0 s 1 ∧ s.inService = [96, 96, 96, 96] ∧ s.negotiated = false ∧ a s 4 / 2 ^ 13 % 2 ^ 9 = 384 ∧ a s 4 % 2 ^ 13 = 4607) ∧
    ((∃ s e, at0 s 2 ∧ s.deviceWrite 0 (a s 0) s.manifest = .error e) ∧ ∃ s t, at0 s 2 ∧ s.deviceWrite 0 (a s 0) s.manifest = .ok t ∧ 4 ≤ s.seeds.length) ∧
    ((∃ s e, at0 s 3 ∧ s.deviceRead 0 (a s 0) 256 = .error e) ∧ (∃ s r, at0 s 3 ∧ s.deviceRead 0 (a s 0) 256 = .ok r ∧ ∃ b ∈ r.drop 240, b ≠ 0) ∧
      (∃ s r, at0 s 3 ∧ s.deviceRead 0 (a s 0) 256 = .ok r ∧ (∀ b ∈ r.drop 240, b = 0) ∧ r.take 8 ≠ s.manifest.take 8) ∧
      ∃ s r, at0 s 3 ∧ s.deviceRead 0 (a s 0) 256 = .ok r ∧ (∀ b ∈ r.drop 240, b = 0) ∧ r.take 240 = s.manifest.take 240) ∧
    ((∃ s e, at0 s 4 ∧ s.deviceRead 0 (a s 0) 32 = .error e) ∧
      (∃ s n e, at0 s 4 ∧ s.deviceRead 0 (a s 0) 32 = .ok n ∧ s.deviceWrite 0 (a s 1) (s.report n) = .error e) ∧
      ∃ s n t, at0 s 4 ∧ s.deviceRead 0 (a s 0) 32 = .ok n ∧ s.deviceWrite 0 (a s 1) (s.report n) = .ok t) ∧
    ((∃ s, at0 s 8 ∧ a s 1 % 2 ^ 16 ≠ 0) ∧
      (∃ s, at0 s 8 ∧ (a s 1 % 2 ^ 16 = 0 ∧ a s 1 < 0xC000000000 ∧ ¬ (0xFFFF00000 ≤ a s 1 ∧ a s 1 < 0x1000000000) ∧ a s 2 % 1024 = 0 ∧ canonical (a s 2) ∧ a s 3 % 2 ^ 16 = 0 ∧ canonical (a s 3)) ∧ known s (a s 0 % 2 ^ 6)) ∧
      ∃ s, at0 s 8 ∧ (a s 1 % 2 ^ 16 = 0 ∧ a s 1 < 0xC000000000 ∧ ¬ (0xFFFF00000 ≤ a s 1 ∧ a s 1 < 0x1000000000) ∧ a s 2 % 1024 = 0 ∧ canonical (a s 2) ∧ a s 3 % 2 ^ 16 = 0 ∧ canonical (a s 3)) ∧
        a s 0 % 2 ^ 6 = 63 ∧ ¬ known s 63 ∧ a s 0 / 2 ^ 6 % 2 ^ 8 = 1 ∧ a s 4 % 2 ^ 16 = 0) ∧
    ((∃ s, at0 s 9 ∧ known s (a s 0) ∧ ∃ d ∈ s.dies, ∃ q ∈ d.queues, q.ctx = a s 0) ∧
      ∃ s, at0 s 9 ∧ known s (a s 0) ∧ ¬ ((∃ d ∈ s.dies, (∃ q ∈ d.queues, q.ctx = a s 0) ∨ ∃ v ∈ d.windows, v.ctx = a s 0) ∨ ∃ l ∈ s.launches, l.ctx = a s 0)) ∧
    ((∃ s, at0 s 0x0A ∧ a s 1 % 8 ≠ 0) ∧ (∃ s, at0 s 0x0A ∧ a s 1 = 0x30010 ∧ known s (a s 0) ∧ good s = false) ∧
      ∃ s, at0 s 0x0A ∧ a s 1 = 0x30010 ∧ known s (a s 0) ∧ good s = true) ∧
    ((∃ s, at0 s 0x0B ∧ ¬ canonical (a s 1)) ∧ (∃ s, at0 s 0x0B ∧ canonical (a s 1) ∧ ¬ known s (a s 0)) ∧ ∃ s, at0 s 0x0B ∧ canonical (a s 1) ∧ known s (a s 0)) ∧
    ((∃ s, at0 s 0x0C ∧ ¬ known s (a s 0)) ∧ ∃ s x, at0 s 0x0C ∧ s.context (a s 0) = some x) ∧
    ((∃ s, at0 s 0x0D ∧ canonical (a s 1) ∧ s.context (a s 0) = none) ∧
      ∃ s x r, at0 s 0x0D ∧ canonical (a s 1) ∧ s.context (a s 0) = some x ∧ x.saves.find? (·.addr == wordOf (sysCommand s).args 1) = some r) ∧
    ((∃ s e, at0 s 0x10 ∧ s.deviceWords 0 (a s 1) 8 = .error e) ∧ (∃ s, at0 s 0x10 ∧ s.deviceWords 0 (a s 1) 8 = .ok [1, 0, 0, 0, 0, 0, 0, 0]) ∧
      ∀ e ∈ [(5, true), (3, false)], ∃ s, at0 s 0x10 ∧ a s 0 = e.1 ∧ s.deviceWords 0 (a s 1) 8 = .ok queueWords ∧ known s 1 ∧ ((s.queue? 0 (a s 0)).isNone = e.2)) ∧
    ((∃ s, at0 s 0x11 ∧ a s 0 = 0) ∧ ∃ s, at0 s 0x11 ∧ a s 0 = 3 ∧ s.queue? 0 (a s 0) ≠ none ∧ s.launches = []) ∧
    ((∃ s, at0 s 0x12 ∧ a s 0 = 0) ∧ ∃ s q, at0 s 0x12 ∧ a s 0 = 3 ∧ s.queue? 0 (a s 0) = some q ∧ q.stopped = true) ∧
    ((∃ s, at0 s 0x13 ∧ a s 0 = 13) ∧ (∃ s, at0 s 0x13 ∧ a s 0 = 12 ∧ ∃ l ∈ s.launches, l.die = 0) ∧ ∃ s, at0 s 0x13 ∧ a s 0 = 12 ∧ ∀ l ∈ s.launches, l.die ≠ 0) ∧
    ((∃ s, at0 s 0x14 ∧ a s 0 = 3 * 2 ^ 20 + 1) ∧ ∃ s, at0 s 0x14 ∧ a s 0 = 3 * 2 ^ 20 ∧ 0 < s.dies.length) ∧
    ((∃ s, at0 s 0x18 ∧ a s 1 % 2 ^ 16 ≠ 0) ∧ (∃ s, at0 s 0x18 ∧ a s 1 = 0x10000 ∧ known s (a s 0) ∧ a s 2 = 2 ^ 40 + 2 ^ 16) ∧
      ∃ s, at0 s 0x18 ∧ a s 1 = 0x10000 ∧ known s (a s 0) ∧ a s 2 = 2 ^ 40 ∧ (s.die 0).windows.length < 256) ∧
    ((∃ s, at0 s 0x19 ∧ ∀ x ∈ (s.die 0).windows, x.num ≠ a s 0) ∧ ∃ s, at0 s 0x19 ∧ ∃ x ∈ (s.die 0).windows, x.num = a s 0) ∧
    (∃ s, at0 s 0x1C ∧ a s 3 = 0x15000 ∧ s.suspendable 0 (wordOf (sysCommand s).args 0) (wordOf (sysCommand s).args 1) = none) ∧
    ∀ e ∈ [(143, 0), (144, 0), (144, 1)], ∃ s l f, at0 s 0x1C ∧ a s 3 = 0x15000 ∧ s.suspendable 0 (wordOf (sysCommand s).args 0) (wordOf (sysCommand s).args 1) = some l ∧
      l.frontier = some f ∧ s.launch? 0 l.slot = some l ∧ 64 + 24 * f.lines.length + 32 * f.dispatched.length = 144 ∧ (a s 4, a s 2) = e := by
  intro at0 a known canonical good
  refine ⟨⟨⟨sysState 1 [0, 0, 0, 0, BitVec.ofNat 64 (388 * 2 ^ 13)] fun s => { s with negotiated := false }, ?_⟩,
      ⟨sysState 1 [0, 0, 0, 0, BitVec.ofNat 64 (4607 + 384 * 2 ^ 13)] fun s => { s with negotiated := false }, ?_⟩⟩, ⟨?_, ?_⟩, ⟨?_, ?_, ?_, ?_⟩, ⟨?_, ?_, ?_⟩,
    ⟨⟨sysState 8 [66, 1, 0, 0, 0] id, ?_⟩, ⟨sysState 8 [65, 0x10000, 0, 0, 0] id, ?_⟩, ⟨sysState 8 [127, 0x10000, 0, 0, 0] id, ?_⟩⟩,
    ⟨⟨sysState 9 [1] id, ?_⟩, ⟨sysState 9 [0] id, ?_⟩⟩,
    ⟨⟨sysState 0x0A [1, 1, 0] id, ?_⟩, ⟨sysState 0x0A [1, 0x30010, 0x41] id, ?_⟩, ⟨sysState 0x0A [1, 0x30010, leafWord] id, ?_⟩⟩,
    ⟨⟨sysState 0x0B [1, 0x40000000000000, 1] id, ?_⟩, ⟨sysState 0x0B [2, 0x3FFFFFFFFFFFFF, 1] id, ?_⟩, ⟨sysState 0x0B [1, 0x3FFFFFFFFFFFFF, 1] id, ?_⟩⟩,
    ⟨⟨sysState 0x0C [2] id, ?_⟩, ⟨sysState 0x0C [1] id, ((sysState 0x0C [1] id).context 1).getD default, ?_⟩⟩,
    ⟨⟨sysState 0x0D [2, 0x8000] id, ?_⟩, ⟨sysState 0x0D [1, 0x8000] id, ((sysState 0x0D [1] id).context 1).getD default, ⟨0x8000, [], []⟩, ?_⟩⟩,
    ⟨?_, ⟨sysState 0x10 [5, 0x14000] (put8 0x44000 1), ?_⟩, fun e he => ⟨sysState 0x10 [BitVec.ofNat 64 e.1, 0x14000] (putWords 0x44000 queueWords), ?_⟩⟩,
    ⟨⟨sysState 0x11 [0] id, ?_⟩, ⟨sysState 0x11 [3] id, ?_⟩⟩,
    ⟨⟨sysState 0x12 [0] id, ?_⟩, ⟨sysState 0x12 [3] (queueIs fun q => { q with stopped := true }), { testQueue with stopped := true }, ?_⟩⟩,
    ⟨⟨sysState 0x13 [13] id, ?_⟩, ⟨sysState 0x13 [12] (putLaunch loadLaunch), ?_⟩, ⟨sysState 0x13 [12] id, ?_⟩⟩,
    ⟨⟨sysState 0x14 [BitVec.ofNat 64 (3 * 2 ^ 20 + 1)] id, ?_⟩, ⟨sysState 0x14 [BitVec.ofNat 64 (3 * 2 ^ 20)] id, ?_⟩⟩,
    ⟨⟨sysState 0x18 [1, 1, 0x10000, 0] id, ?_⟩, ⟨sysState 0x18 [1, 0x10000, BitVec.ofNat 64 (2 ^ 40 + 2 ^ 16), 0] id, ?_⟩,
      ⟨sysState 0x18 [1, 0x10000, BitVec.ofNat 64 (2 ^ 40), 0] id, ?_⟩⟩, ⟨⟨sysState 0x19 [0] id, ?_⟩, ⟨sysState 0x19 [2] id, ?_⟩⟩,
    ⟨sysState 0x1C [3, 0, 0, 0x15000, 144] id, ?_⟩,
    fun e he => ⟨sysState 0x1C [3, 0, BitVec.ofNat 64 e.2, 0x15000, BitVec.ofNat 64 e.1] (putLaunch running), running, ⟨[(0, 0), (0, 0)], [0], [], false, none⟩, ?_⟩⟩
  case refine_3 =>
    obtain ⟨e, he⟩ := write_error (s := sysState 2 [0x50000] id) (ctx := 0) (va := 0x50000) (n := 256) (bs := (sysState 2 [0x50000] id).manifest)
      (by decide +kernel) (by decide +kernel)
    exact ⟨_, e, by decide +kernel, he⟩
  case refine_4 =>
    obtain ⟨t, ht⟩ := write_ok (s := sysState 2 [0x14000] id) (ctx := 0) (va := 0x14000) (n := 256) (bs := (sysState 2 [0x14000] id).manifest)
      (by decide +kernel) (by decide +kernel)
    exact ⟨_, t, by decide +kernel, ht, by decide +kernel⟩
  case refine_5 =>
    obtain ⟨e, he⟩ := words_error (e := (sysState 3 [0x50000] id).deviceRead 0 0x50000 256) (by decide +kernel)
    exact ⟨_, e, by decide +kernel, he⟩
  case refine_6 => exact ⟨sysState 3 [0x14000] (put8 0x440F8 1), _, by decide +kernel, bytes_ok (by decide +kernel), by decide +kernel⟩
  case refine_7 => exact ⟨sysState 3 [0x14000] id, _, by decide +kernel, bytes_ok (by decide +kernel), by decide +kernel, by decide +kernel⟩
  case refine_8 =>
    obtain ⟨r, h, k, e⟩ := same_manifest
    exact ⟨sameManifest, r, by decide +kernel, h, k, e⟩
  case refine_9 =>
    obtain ⟨e, he⟩ := words_error (e := (sysState 4 [0x50000, 0x14000] id).deviceRead 0 0x50000 32) (by decide +kernel)
    exact ⟨_, e, by decide +kernel, he⟩
  case refine_10 =>
    obtain ⟨n, hn, l⟩ := nonce_ok (e := (sysState 4 [0x14000, 0x50000] id).deviceRead 0 0x14000 32) (by decide +kernel)
    obtain ⟨e, he⟩ := write_error (s := sysState 4 [0x14000, 0x50000] id) (ctx := 0) (va := 0x50000) (n := 16096)
      (report_length (sysState 4 [0x14000, 0x50000] id) n (by decide +kernel) l) (by decide +kernel)
    exact ⟨_, n, e, by decide +kernel, hn, he⟩
  case refine_11 =>
    obtain ⟨n, hn, l⟩ := nonce_ok (e := (sysState 4 [0x14000, 0x14040] id).deviceRead 0 0x14000 32) (by decide +kernel)
    obtain ⟨e, he⟩ := write_ok (s := sysState 4 [0x14000, 0x14040] id) (ctx := 0) (va := 0x14040) (n := 16096)
      (report_length (sysState 4 [0x14000, 0x14040] id) n (by decide +kernel) l) (by decide +kernel)
    exact ⟨_, n, e, by decide +kernel, hn, he⟩
  case refine_27 =>
    obtain ⟨e, he⟩ := words_error (e := (sysState 0x10 [5, 0x50000] id).deviceWords 0 0x50000 8) (by decide +kernel)
    exact ⟨_, e, by decide +kernel, he⟩
  case refine_28 => exact ⟨by decide +kernel, words_ok (by decide +kernel)⟩
  case refine_29 =>
    rcases (by simpa using he : e = (5, true) ∨ e = (3, false)) with rfl | rfl <;>
      exact ⟨by decide +kernel, by decide +kernel, words_ok (by decide +kernel), by decide +kernel, by decide +kernel⟩
  all_goals first | decide +kernel | (revert e; decide +kernel)

/-- R99's draw from the value 1: Next() gives 0x40822041. -/
theorem test_xorshift : xorshift 1 = 0x40822041 := by decide

def kindWords (kind : Nat) (rest : List DWord) : List DWord := BitVec.ofNat 64 (1 + 2 * kind + 2 ^ 16) :: rest

/-- Queue 0 of die 0 with the packet in its first slot. -/
def queue0 : Queue := { testQueue with num := 0 }
def queue0State (ws : List DWord) (f : Queue → Queue) (r : Option SysCommand) : State :=
  portState (fun d => { d with queues := [f queue0], running := r }) fun s => putWords 0x40800 ws s

/-- SET_LOWWATER 7. -/
def systemPacket (kind code args compl : Nat) : List DWord :=
  kindWords kind [0, BitVec.ofNat 64 compl, 0, 0, 1, BitVec.ofNat 64 code, BitVec.ofNat 64 args, 0, 0, 0, 0, 0, 0, 0, 0]

theorem witness_PacketsAndCommandsAreChecked :
    (∃ (s : State) (ws : List DWord), 4 ≤ (wordOf ws 0).toNat / 2 % 8 ∧ s.checkPacket 1 ws = .error 2) ∧
    (∃ (s : State) (ws : List DWord), (wordOf ws 0).toNat / 2 % 8 = 2 ∧ s.negotiated = true ∧ s.features.getLsbD 4 = false) ∧
    (∃ (s : State) (ws : List DWord), (wordOf ws 0).toNat / 2 % 8 = 3 ∧ s.negotiated = true ∧ s.features.getLsbD 5 = true ∧ (wordOf ws 5).toNat / 2 ^ 8 % 2 ^ 5 = 0 ∧
      (wordOf ws 0).toNat / 2 ^ 10 % 2 ^ 6 ≠ 0) ∧
    (∃ (s : State) (ws : List DWord) (t : Tables), s.checkPacket 1 ws = .ok t ∧ (wordOf ws 0).toNat / 2 % 8 = 0) ∧
    (∃ (s : State) (q : Queue), s.queue? 0 0 = some q ∧ q.num = 0 ∧ 0 < s.dies.length ∧ (s.die 0).running ≠ none) ∧
    (∃ (s : State) (q : Queue), s.queue? 0 0 = some q ∧ q.num = 0 ∧ 0 < s.dies.length ∧ (s.die 0).running = none ∧ q.stopped = false ∧ q.tail ≤ q.rd) ∧
    (∃ (s : State) (q : Queue), s.queue? 0 0 = some q ∧ q.num = 0 ∧ 0 < s.dies.length ∧ (s.die 0).running = none ∧ q.stopped = false ∧ s.readHead q = .notValid) ∧
    ∀ e ∈ [(systemPacket 7 0x14 7 0x13000, []), (systemPacket 0 0x14 7 0x13000, [2]), (systemPacket 7 0x14 7 0x13008, [5]), (systemPacket 7 0x15 0 0x13000, [6])],
      ∃ (s : State) (q : Queue), s.queue? 0 0 = some q ∧ q.num = 0 ∧ 0 < s.dies.length ∧ (s.die 0).running = none ∧ q.stopped = false ∧ q.rd < q.tail ∧ q.crcReads = 0 ∧
        s.readHead q = .good e.1 ∧ s.commandCodes 0 e.1 = e.2 := by
  refine ⟨⟨State.reset, kindWords 4 [], ?_, error_of ?_⟩, ⟨{ State.reset with negotiated := true }, kindWords 2 [], ?_⟩,
    ⟨{ State.reset with negotiated := true, features := 0x20 }, [1 + 6 + 2 ^ 10], ?_⟩, ⟨_, _, _, packet_accepted, ?_⟩,
    ⟨queue0State [] id (some ⟨3, [], 0, 0⟩), queue0, ?_⟩, ⟨queue0State [] (fun q => { q with tail := 0 }) none, { queue0 with tail := 0 }, ?_⟩,
    ⟨queue0State [] id none, queue0, ?_⟩, fun e he => ⟨queue0State e.1 id none, queue0, ?_⟩⟩
  all_goals first | decide +kernel | (revert e; decide +kernel)

/-- Before NEGOTIATE a command but those of R456 gives PKT_FEATURE. -/
theorem test_commandCodes : State.reset.commandCodes 0 (systemPacket 7 0x1C 0 0) = [3] ∧ State.reset.commandCodes 1 (systemPacket 7 0x01 0 0) = [6] := by
  decide +kernel

def cinchLaunch (c : Cinch) : Launch := { running with words := [2, 0, 0, 0, 0, 2, 1, 0, 32 + 2 ^ 11 + 2 ^ 22, 0, 0, 0, 0, 0, 0, 0], cinch := some c }

theorem witness_CinchBarriersOpenOrFail :
    let at0 := fun (s : State) (l : Launch) (c : Cinch) => s.launch? 0 0 = some l ∧ l.cinch = some c ∧ 0 < s.dies.length ∧ l.abort = none ∧ c.released = false ∧
      (List.range l.chips).map (l.chip0 + ·) = [0, 1] ∧ ∃ q, l.queue = 3 ∧ l.die = 0 ∧ s.queue? 0 3 = some q
    (∃ s l c, at0 s l c ∧ c.originator = true ∧ c.arrived = [0, 1] ∧ s.clock < c.since + 2 ^ 24) ∧
    (∀ clock, clock = 2 ^ 24 - 1 ∨ clock = 2 ^ 24 → ∃ s l c, at0 s l c ∧ c.originator = true ∧ c.arrived = [0] ∧ c.since = 0 ∧ s.clock = clock) ∧
    ∃ s l c, at0 s l c ∧ c.originator = false := by
  intro at0
  have q : ∀ l clock, (portState id fun s => putLaunch l { s with clock := clock }).queue? 0 3 = some testQueue := fun l clock => rfl
  refine ⟨⟨portState id (fun s => putLaunch (cinchLaunch ⟨0, true, [0, 1], false, 0⟩) s), cinchLaunch ⟨0, true, [0, 1], false, 0⟩, ⟨0, true, [0, 1], false, 0⟩, ?_⟩, fun clock h =>
    ⟨portState id (fun s => putLaunch (cinchLaunch ⟨0, true, [0], false, 0⟩) { s with clock := clock }), cinchLaunch ⟨0, true, [0], false, 0⟩, ⟨0, true, [0], false, 0⟩, ?_⟩,
    ⟨portState id (fun s => putLaunch (cinchLaunch ⟨0, false, [], false, 0⟩) s), cinchLaunch ⟨0, false, [], false, 0⟩, ⟨0, false, [], false, 0⟩, ?_⟩⟩
  · exact ⟨⟨by decide +kernel, rfl, by decide +kernel, rfl, rfl, by decide +kernel, testQueue, rfl, rfl, by decide +kernel⟩, rfl, rfl, by decide +kernel⟩
  · rcases h with rfl | rfl <;>
      exact ⟨⟨by decide +kernel, rfl, by decide +kernel, rfl, rfl, by decide +kernel, testQueue, rfl, rfl, by decide +kernel⟩, rfl, rfl, rfl, by decide +kernel⟩
  · exact ⟨⟨by decide +kernel, rfl, by decide +kernel, rfl, rfl, by decide +kernel, testQueue, rfl, rfl, by decide +kernel⟩, rfl⟩

/-! #### Retirement -/

def gone : WorkUnit := { smallUnit with residence := .exited }
def mergeUnit : WorkUnit := { loadUnit 5 1 with interval := 1, buffer := [⟨1, 0x10800, 0x40800, 7, 15⟩] }
def doneGrid : Launch := { gridLaunch false with nextUnit := 4 }
def detGrid : Launch := { gridLaunch true with nextUnit := 4 }
def emptyPool : Pool := { (default : Pool) with cap := 8 }

theorem witness_LaunchesRetireAbortAndMerge :
    let live := fun (u : WorkUnit) => (u.die = 0 ∧ u.lslot = 0) ∧ u.residence ≠ .exited
    let shared := fun (s : State) (l : Launch) => s.launch? 0 0 = some l ∧ s.launchBusy l = false ∧ l.replicated = true
    let retires := fun (s : State) (l : Launch) => s.launch? 0 0 = some l ∧ s.launchBusy l = false ∧
      (l.replicated = true → l.endSignalled = true ∧ s.runOpen l = false) ∧
      (((s.saveFrontier l).closeAll l).mergeRest l).launch? 0 0 ≠ none ∧ 0 < (((s.saveFrontier l).closeAll l).mergeRest l).dies.length
    (∃ s l, retires s l ∧ l.abort ≠ none) ∧ (∃ s l, retires s l ∧ l.abort = none ∧ l.cinch = none ∧ l.kind = 0 ∧ l.unitsTotal = 4 ∧ l.nextUnit = 4 ∧ ∀ u ∈ s.units, ¬ live u) ∧
    (∃ s l f, retires s l ∧ l.abort = none ∧ l.cinch = none ∧ l.kind = 1 ∧ l.suspend = none ∧ l.frontier = some f ∧ (∀ e ∈ f.lines, e.1 = l.xk + 1) ∧ ∀ u ∈ s.units, ¬ live u) ∧
    (∃ s l x, retires s l ∧ l.abort = none ∧ l.cinch = none ∧ l.kind = 1 ∧ l.suspend = some x ∧ ∀ u ∈ s.units, ¬ live u) ∧
    (∃ s l, retires s l ∧ l.abort = none ∧ l.cinch = none ∧ l.kind = 2 ∧ l.ended = some 3) ∧
    (∀ det : Bool, ∃ s l p, retires s l ∧ l.abort = none ∧ l.cinch = none ∧ l.kind = 3 ∧ l.det = det ∧ l.pool = some p ∧ p.tasks = [] ∧ p.spawned = [] ∧ p.roundGangs = 0 ∧
      ∀ u ∈ s.units, ¬ live u) ∧
    (∃ (s : State) (l : Launch), s.launch? 0 0 = some l ∧ l.abort = none ∧ l.kind = 0 ∧ l.nextUnit < l.unitsTotal) ∧
    (∃ (s : State) (l : Launch), s.launch? 0 0 = some l ∧ l.abort ≠ none ∧ s.launchBusy l = true) ∧
    (∃ (s : State) (l : Launch), s.launch? 0 0 = some l ∧ l.abort = none ∧ ∃ u ∈ s.units, live u) ∧
    (∃ (s : State) (l : Launch) (u : WorkUnit), s.launch? 0 0 = some l ∧ l.abort = none ∧ l.kind = 0 ∧ l.det = true ∧ l.unitsTotal ≤ l.nextUnit ∧ s.units = [u] ∧
      u.die = 0 ∧ u.lslot = 0 ∧ l.epoch < u.interval ∧ u.buffer ≠ [] ∧ (s.mergeIntervals 0 0 ([u].map fun u => ⟨u.uid, 0⟩)).2 = []) ∧
    (∃ (s : State) (l : Launch), s.launch? 0 0 = some l ∧ l.det = false) ∧
    (∀ q : Bool, ∃ s l, shared s l ∧ l.abort ≠ none ∧ l.endSignalled = false ∧ s.runQuiet l = q) ∧
    (∀ o : Bool, ∃ s l, shared s l ∧ l.abort ≠ none ∧ l.endSignalled = true ∧ s.runOpen l = o ∧ (o = false → retires s l)) ∧
    ∀ c : Bool, ∃ (s : State) (l : Launch), s.launch? 0 0 = some l ∧ l.replicated = true ∧ l.chip0 = 0 ∧ l.chips = 2 ∧ s.chip = 0 ∧ l.abort = none ∧
      l.cinch.map (fun x => (x.originator, x.released)) = if c then some (false, false) else none := by
  intro live shared retires
  let dead (l : Launch) : Launch := { l with abort := some (⟨2, 1, 0⟩, 0, 0, 0) }
  let runDead (sent : Bool) : Launch := dead { replicatedLaunch doneGrid with endSignalled := sent }
  let onLink (q : LinkRequest) (s : State) : State := s.modifyLink 3 fun k => { k with outstanding := [q] }
  refine ⟨⟨placeState (dead doneGrid) [] id, dead doneGrid, ?_⟩, ⟨placeState doneGrid [gone] id, doneGrid, ?_⟩,
    ⟨placeState { frontLaunch with frontier := some ⟨[(1, 0), (1, 0)], [], [], false, none⟩ } [] id, { frontLaunch with frontier := some ⟨[(1, 0), (1, 0)], [], [], false, none⟩ },
      ⟨[(1, 0), (1, 0)], [], [], false, none⟩, ?_⟩,
    ⟨placeState { frontLaunch with suspend := some ⟨false, 0x15000, []⟩ } [] id, { frontLaunch with suspend := some ⟨false, 0x15000, []⟩ }, ⟨false, 0x15000, []⟩, ?_⟩,
    ⟨placeState { loadLaunch with words := domainWords, domain := some theDomain, ended := some 3 } [] id,
      { loadLaunch with words := domainWords, domain := some theDomain, ended := some 3 }, ?_⟩,
    fun det => ?_, ⟨placeState (gridLaunch false) [] id, gridLaunch false, ?_⟩,
    ⟨placeState (dead doneGrid) [{ mergeUnit with matq := [default] }] id, dead doneGrid, ?_⟩, ⟨placeState doneGrid [smallUnit] id, doneGrid, ?_⟩,
    ⟨placeState detGrid [mergeUnit] id, detGrid, mergeUnit, ?_⟩, ⟨placeState doneGrid [] id, doneGrid, ?_⟩,
    fun q => ⟨placeState (runDead false) [] (if q then id else onLink ⟨9, 0, 0, 1, [0], false, .store⟩), runDead false, ?_⟩,
    fun o => ⟨placeState (runDead true) [] (if o then onLink ⟨9, 0, 0, 1, [0], false, .close 0 0 0⟩ else id), runDead true, ?_⟩,
    fun c => ⟨placeState { replicatedLaunch doneGrid with cinch := if c then some ⟨9, false, [], false, 0⟩ else none } [] id,
      { replicatedLaunch doneGrid with cinch := if c then some ⟨9, false, [], false, 0⟩ else none }, ?_⟩⟩
  case refine_6 => cases det
                   · exact ⟨placeState (taskLaunch false emptyPool) [] id, taskLaunch false emptyPool, emptyPool, by decide +kernel⟩
                   · exact ⟨placeState (taskLaunch true emptyPool) [] id, taskLaunch true emptyPool, emptyPool, by decide +kernel⟩
  all_goals first | decide +kernel | (revert q; decide +kernel) | (revert o; decide +kernel) | (revert c; decide +kernel)

/-- A finished grid leaves its slot, and its record's status word says so (R443). -/
theorem test_launchRetire : let t := testNext (exec (.launchRetire 0 0) (placeState { doneGrid with words := doneGrid.words.set 2 0x13000, units := 4 } [gone] id))
    (t.launches, t.units, t.natAt 0x43000 8, t.natAt 0x43008 8) = ([], [], 2 ^ 16, 4) := by decide +kernel

/-! ### Turns, encodings and the invariant -/

theorem next_of {o : Host.Outcome State Fault Refusal} (h : (match o with
    | .next _ => true
    | _ => false) = true) : o = .next (testNext o) := by
  cases o <;> first | rfl | simp at h

def turnState (t : Turn) (rest : State → State) : State := testState 0x0E00380202018000 (fun _ => []) id fun s => rest { s with agenda := [(3, t)] }

/-- What the turn of a gang asks for. -/
def gangCheck (s : State) (ref : GangRef) : Bool :=
  let r : State := { s.settleAllReleases with clock := s.settleAllReleases.clock + 3, agenda := [] }
  match r.gangOf ref with
  | none => false
  | some g => ({ r with cur := ref } : State).mayIssue g && decide (g.loadError = none ∧ g.u.firstFault = none ∧ g.head.clause.isSome = true) &&
    match g.fetchWord { r with cur := ref } with
    | .ok (w, lit) => (match decode (.belga w lit) with
      | .ok _ => true
      | .error _ => false)
    | .error _ => false

theorem witness_TurnsRunTheirInstructions :
    (∃ (s : State) (ref : GangRef), s.settleAllReleases.agenda = [(3, .gang ref)] ∧ gangCheck s ref = true) ∧
    (∃ (s : State) (die core : Nat) (w : Word) (i : Instr), s.settleAllReleases.agenda = [(3, .tack die core)] ∧
      (s.die die).word (s.tack die core).pc.toNat = some w ∧ decode (.tack w) = .ok i) ∧
    (∃ (s : State) (i : Instr), s.settleAllReleases.agenda = [(3, .event i)]) ∧ ∃ (s : State) (i : Instr), s.settleAllReleases.agenda = [(3, .system 2 i)] := by
  exact ⟨⟨turnState (.gang ⟨1, 0, 0⟩) id, ⟨1, 0, 0⟩, by decide +kernel⟩,
    ⟨tackState 0 0 id fun s => { s with agenda := [(3, .tack 0 0)] }, 0, 0, 0x00C5A50B, .sigwait 10 11 12, by decide +kernel, by decide +kernel, rfl⟩,
    ⟨turnState (.event (.rereadTick 0)) id, .rereadTick 0, by decide +kernel⟩, ⟨turnState (.system 2 .attest) id, .attest, by decide +kernel⟩⟩

theorem witness_EveryStepKeepsItsInvariant : ∃ s t : State, step s = .next t ∧ Memory.wf s.mem = true ∧ s.dies.length = 4 ∧ s.mem ≠ [] :=
  ⟨turnState (.gang ⟨1, 0, 0⟩) id, _, next_of (by decide +kernel), by decide +kernel, by decide +kernel, by decide +kernel⟩

theorem witness_EncodedWordsDecode : (∃ (i : Instr) (c : Code), i.wf = true ∧ encode i = some c) ∧
    (∃ (w : DWord) (lit : Option DWord) (i : Instr), decode (.belga w lit) = .ok i ∧ takesLiteral w = true ∧ lit.isSome = true) ∧
    ∃ (w : Word) (i : Instr), decode (.tack w) = .ok i :=
  ⟨⟨.iadd iaddWord, .belga 0x0E00380202018000 none, rfl, by decide⟩, ⟨0x0F80380A06FF8000, some 0x12345678, _, rfl, rfl, rfl⟩, ⟨0x0073128B, _, rfl⟩⟩

/-- 1 + 2, with fp32's codes of finite numbers. -/
theorem witness_FloatResultsAreRoundedOnce : fp32 ∈ [fp64, fp32, fp16, bf16] ∧ ∀ x ∈ [0x3F800000, 0x40000000], x < 2 ^ fp32.width ∧ fp32.isNan x = false ∧ fp32.isInf x = false := by
  decide

theorem witness_IntegerResultsAreExact : ∀ k < 3, ∃ w : StdWord, w.m % 4 = k ∧ ∃ s : State, s.gang.isSome = true :=
  fun k hk => ⟨{ iaddWord with mod := BitVec.ofNat 6 k }, by revert k; decide, regsState 0 0 0, by decide +kernel⟩

/-! ### Ill-formed instructions -/

/-- What R36, R49-R51 and R55 do not encode, and a step whose subject the part does not have, is refused. -/
theorem test_illFormed :
    (Instr.sel ⟨plain, 1, 2, .imm 0, 0, 0⟩).wf = false ∧ (Instr.iadd ⟨plain, 1, 2, .imm 3, 4, 0⟩).wf = false ∧ (Instr.iadd ⟨plain, 1, 2, .imm 3, 0, 1⟩).wf = false ∧
    (Instr.movi ⟨plain, 1, 0, .spec 3, 0, 0⟩).wf = false ∧ (Instr.ballot ⟨plain, 1, 0, .lit 3 5, 0, 0⟩).wf = false ∧
    (Instr.unassignedOpcode 0x0E00380202018000).wf = false ∧ (Instr.rereadTick 4).wf = false := by decide

end Tests

end Sys2Proof
end

section
/-! PROOFS. What the integer, logic, shift and bit-field words compute of their sources (R169-R175): each value the model computes on
numbers is the value of the operation on bit vectors, and O7 is assembled from these. -/

namespace Sys2Proof.Machine

/-! ### Numbers and bit vectors -/

/-- The low bits of an integer are those of its bit vector. -/
theorem wrapTo_eq_toNat_ofInt (n : Nat) (x : Int) : wrapTo n x = (BitVec.ofInt n x).toNat := (BitVec.toNat_ofInt x).symm

theorem sext_eq_toInt_ofNat {n : Nat} (h : 0 < n) (x : Nat) : sext x n = (BitVec.ofNat n x).toInt := by
  obtain ⟨k, rfl⟩ : ∃ k, n = k + 1 := ⟨n - 1, by omega⟩
  simp only [sext, BitVec.toInt_eq_toNat_cond, BitVec.toNat_ofNat, Nat.add_sub_cancel]
  have hhalf : 2 * (x % 2 ^ (k + 1)) < 2 ^ (k + 1) ↔ x % 2 ^ (k + 1) < 2 ^ k := by rw [Nat.pow_succ 2 k]; omega
  simp only [hhalf]

theorem s32_toNat (a : BitVec 32) : s32 a.toNat = a.toInt := by
  rw [s32, sext_eq_toInt_ofNat (by decide), BitVec.ofNat_toNat, BitVec.setWidth_eq]

/-- Narrowing a wrapped integer wraps it to the narrower width. -/
theorem setWidth_ofInt {m n : Nat} (h : m ≤ n) (x : Int) : (BitVec.ofInt n x).setWidth m = BitVec.ofInt m x := by
  apply BitVec.eq_of_toInt_eq
  rw [← BitVec.signExtend_eq_setWidth_of_le _ h, BitVec.toInt_signExtend, BitVec.toInt_ofInt, BitVec.toInt_ofInt,
    Nat.min_eq_left h, Int.bmod_bmod_of_dvd (Nat.pow_dvd_pow 2 h)]

theorem toNat_append_eq_add {m n : Nat} (x : BitVec m) (y : BitVec n) : (x ++ y).toNat = x.toNat * 2 ^ n + y.toNat := by
  rw [BitVec.toNat_append, ← Nat.shiftLeft_add_eq_or_of_lt y.isLt, Nat.shiftLeft_eq]

/-! ### Masks of positions -/

theorem testBit_foldl_or (l : List Nat) (m j : Nat) :
    (l.foldl (fun m i => m ||| 2 ^ i) m).testBit j = (m.testBit j || decide (j ∈ l)) := by
  induction l generalizing m with
  | nil => simp
  | cons i l ih =>
    rw [List.foldl_cons, ih, Nat.testBit_or, Nat.testBit_two_pow]
    simp [eq_comm (a := j), Bool.or_assoc]

theorem testBit_maskOf (l : List Nat) (j : Nat) : (Machine.maskOf l).testBit j = decide (j ∈ l) := by
  rw [Machine.maskOf, testBit_foldl_or, Nat.zero_testBit, Bool.false_or]

/-- The mask of the positions below n where p holds is the bit vector whose bits are p. -/
theorem maskOf_filter_range_eq_toNat {n : Nat} {p : Nat → Bool} (v : BitVec n) (h : ∀ j < n, v.getLsbD j = p j) :
    Machine.maskOf ((List.range n).filter p) = v.toNat := by
  apply Nat.eq_of_testBit_eq
  intro j
  rw [testBit_maskOf, BitVec.testBit_toNat]
  by_cases hj : j < n
  · rw [h j hj]; simp [hj]
  · simp [hj, BitVec.getLsbD_of_ge v j (by omega)]

theorem getLsbD_ofNat_maskOf {n j : Nat} (p : Nat → Bool) (hj : j < n) :
    (BitVec.ofNat n (Machine.maskOf ((List.range n).filter p))).getLsbD j = p j := by
  rw [BitVec.getLsbD_ofNat, testBit_maskOf]
  simp [hj]

/-! ### Arithmetic (R169-R171) -/

theorem wrapTo_sub (a b : BitVec 32) : wrapTo 32 ((a.toNat : Int) - b.toNat) = (a - b).toNat := by
  have hb := b.isLt
  rw [wrapTo, BitVec.toNat_sub]
  omega

theorem mulAdd_toNat (a b c : BitVec 32) : (a.toNat * b.toNat + c.toNat) % 2 ^ 32 = (a * b + c).toNat := by
  rw [BitVec.toNat_add, BitVec.toNat_mul, Nat.mod_add_mod]

theorem mulHigh_unsigned (a b : BitVec 32) :
    mulHigh true a.toNat b.toNat = ((a.zeroExtend 64 * b.zeroExtend 64).extractLsb' 32 32).toNat := by
  have hab : a.toNat * b.toNat < 2 ^ 32 * 2 ^ 32 := Nat.mul_lt_mul'' a.isLt b.isLt
  have ha := a.isLt
  have hb := b.isLt
  simp only [mulHigh, if_true, BitVec.extractLsb'_toNat, BitVec.toNat_mul, BitVec.zeroExtend, BitVec.toNat_setWidth, Nat.shiftRight_eq_div_pow]
  rw [Nat.mod_eq_of_lt (by omega : a.toNat < 2 ^ 64), Nat.mod_eq_of_lt (by omega : b.toNat < 2 ^ 64), Nat.mod_eq_of_lt (by omega : a.toNat * b.toNat < 2 ^ 64)]

theorem mulHigh_signed (a b : BitVec 32) :
    mulHigh false a.toNat b.toNat = ((a.signExtend 64 * b.signExtend 64).extractLsb' 32 32).toNat := by
  have hprod : wrapTo 64 (a.toInt * b.toInt) = (a.signExtend 64 * b.signExtend 64).toNat := by
    rw [wrapTo_eq_toNat_ofInt, BitVec.ofInt_mul]; rfl
  rw [BitVec.extractLsb'_toNat, ← hprod, Nat.shiftRight_eq_div_pow]
  simp only [mulHigh, s32_toNat, Bool.false_eq_true, if_false]
  rw [Nat.mod_eq_of_lt]
  have := (a.signExtend 64 * b.signExtend 64).isLt
  omega

theorem mulHigh_eq (unsigned : Bool) (a b : BitVec 32) :
    mulHigh unsigned a.toNat b.toNat =
      (if unsigned then (a.zeroExtend 64 * b.zeroExtend 64).extractLsb' 32 32
        else (a.signExtend 64 * b.signExtend 64).extractLsb' 32 32).toNat := by
  cases unsigned
  · exact mulHigh_signed a b
  · exact mulHigh_unsigned a b

theorem mad64_pairs {m : Nat} (hm : m = 0) (p q r : BitVec 64) : mad64 m p.toNat q.toNat r.toNat = (p * q + r).toNat := by
  simp [mad64, hm]

theorem mad64_signed {m : Nat} (hm : m = 1) (a b : BitVec 32) (r : BitVec 64) :
    mad64 m a.toNat b.toNat r.toNat = (a.signExtend 64 * b.signExtend 64 + r).toNat := by
  have hr : BitVec.ofInt 64 (r.toNat : Int) = r := by rw [BitVec.ofInt_natCast, BitVec.ofNat_toNat, BitVec.setWidth_eq]
  rw [mad64, if_pos hm, s32_toNat, s32_toNat, wrapTo_eq_toNat_ofInt, BitVec.ofInt_add, BitVec.ofInt_mul, hr]
  rfl

theorem mad64_unsigned {m : Nat} (hm : m = 2) (a b : BitVec 32) (r : BitVec 64) :
    mad64 m a.toNat b.toNat r.toNat = (a.zeroExtend 64 * b.zeroExtend 64 + r).toNat := by
  simp [mad64, hm]

theorem lessInt_toNat (u : Bool) (a b : BitVec 32) : lessInt u a.toNat b.toNat = if u then a.ult b else a.slt b := by
  cases u
  · rw [if_neg Bool.false_ne_true, BitVec.slt_eq_decide, ← s32_toNat, ← s32_toNat]; rfl
  · rw [if_pos rfl, BitVec.ult_eq_decide]; rfl

/-- IMIN and IMAX take one of their sources. -/
theorem select_toNat {c c' : Bool} (h : c = c') (a b : BitVec 32) : (if c then b.toNat else a.toNat) = (if c' then b else a).toNat := by
  rw [h, apply_ite BitVec.toNat]

theorem toInt_eq_min_iff (a : BitVec 32) : a.toInt = -0x80000000 ↔ a = 0x80000000#32 := by
  rw [← BitVec.toInt_inj]; rfl

theorem ofInt_natAbs_toInt (a : BitVec 32) : BitVec.ofInt 32 (a.toInt.natAbs : Int) = a.abs := by
  rw [BitVec.abs_eq, BitVec.msb_eq_toInt]
  by_cases h : a.toInt < 0
  · rw [Int.ofNat_natAbs_of_nonpos (by omega), BitVec.ofInt_neg, BitVec.ofInt_toInt, if_pos (by simpa using h)]
  · rw [Int.natAbs_of_nonneg (by omega), BitVec.ofInt_toInt, if_neg (by simpa using h)]

/-- Only the least integer has a negative that .sat changes. -/
theorem satNeg_eq {sat : Bool} {x : Int} {a v : BitVec 32} (hx : x = 0x80000000 ↔ a.toInt = -0x80000000) (hv : BitVec.ofInt 32 x = v) :
    satNeg sat x = (if sat = true ∧ a = 0x80000000#32 then 0x7FFFFFFF#32 else v).toNat := by
  have hcond : (sat && x == 0x80000000) = true ↔ sat = true ∧ a = 0x80000000#32 := by
    rw [Bool.and_eq_true, beq_iff_eq, hx, toInt_eq_min_iff]
  rw [satNeg, wrapTo_eq_toNat_ofInt, hv, apply_ite BitVec.toNat]
  simp only [hcond]
  rfl

theorem satNeg_abs (sat : Bool) (a : BitVec 32) :
    satNeg sat ((s32 a.toNat).natAbs : Int) = (if sat = true ∧ a = 0x80000000#32 then 0x7FFFFFFF#32 else a.abs).toNat := by
  have hlt := BitVec.toInt_lt (x := a)
  rw [s32_toNat]
  exact satNeg_eq (by omega) (ofInt_natAbs_toInt a)

theorem satNeg_neg (sat : Bool) (a : BitVec 32) :
    satNeg sat (-(s32 a.toNat)) = (if sat = true ∧ a = 0x80000000#32 then 0x7FFFFFFF#32 else -a).toNat := by
  rw [s32_toNat]
  exact satNeg_eq (by omega) (by rw [BitVec.ofInt_neg, BitVec.ofInt_toInt])

theorem clampInt_eq_max_min {lo hi : Int} (h : lo ≤ hi) (x : Int) : clampInt lo hi x = max lo (min hi x) := by
  unfold clampInt
  split
  · omega
  · split <;> omega

theorem satAdd_unsigned (sub : Bool) (a b : BitVec 32) :
    satAdd true sub a.toNat b.toNat =
      (BitVec.ofInt 32 (max 0 (min (2 ^ 32 - 1) (if sub then (a.toNat : Int) - b.toNat else a.toNat + b.toNat)))).toNat := by
  have hhi : (2 ^ 32 - 1 : Int) = 0xFFFFFFFF := rfl
  rw [hhi, ← wrapTo_eq_toNat_ofInt, ← clampInt_eq_max_min (by decide)]
  simp only [satAdd, if_true]

theorem satAdd_signed (sub : Bool) (a b : BitVec 32) :
    satAdd false sub a.toNat b.toNat =
      (BitVec.ofInt 32 (max (-2 ^ 31) (min (2 ^ 31 - 1) (if sub then a.toInt - b.toInt else a.toInt + b.toInt)))).toNat := by
  have hlo : (-2 ^ 31 : Int) = -0x80000000 := rfl
  have hhi : (2 ^ 31 - 1 : Int) = 0x7FFFFFFF := rfl
  rw [hlo, hhi, ← wrapTo_eq_toNat_ofInt, ← clampInt_eq_max_min (by decide), ← s32_toNat a, ← s32_toNat b]
  rfl

theorem satAdd_eq (unsigned sub : Bool) (a b : BitVec 32) :
    satAdd unsigned sub a.toNat b.toNat =
      (if unsigned then BitVec.ofInt 32 (max 0 (min (2 ^ 32 - 1) (if sub then (a.toNat : Int) - b.toNat else a.toNat + b.toNat)))
        else BitVec.ofInt 32 (max (-2 ^ 31) (min (2 ^ 31 - 1) (if sub then a.toInt - b.toInt else a.toInt + b.toInt)))).toNat := by
  cases unsigned
  · exact satAdd_signed sub a b
  · exact satAdd_unsigned sub a b

/-! ### Logic and shifts (R172, R173) -/

/-- LOP3's table of the word's fields, TT[7:6] before TT[5:0]. -/
theorem lopTable_eq_toNat (w : StdWord) : lopTable w = (w.c.pred.setWidth 2 ++ w.mod : BitVec 8).toNat := by
  rw [toNat_append_eq_add, BitVec.toNat_setWidth]; rfl

theorem lop3Value_bits (w : StdWord) (a b c : BitVec 32) :
    ∃ v : BitVec 32, lop3Value (lopTable w) a.toNat b.toNat c.toNat = v.toNat ∧ ∀ j < 32, v.getLsbD j =
      (w.c.pred.setWidth 2 ++ w.mod : BitVec 8).getLsbD (4 * (a.getLsbD j).toNat + 2 * (b.getLsbD j).toNat + (c.getLsbD j).toNat) := by
  have hindex : ∀ x y z : Bool, (if x then 4 else 0) + (if y then 2 else 0) + (if z then 1 else 0) = 4 * x.toNat + 2 * y.toNat + z.toNat := by decide
  refine ⟨_, maskOf_filter_range_eq_toNat _ fun j hj => getLsbD_ofNat_maskOf _ hj, fun j hj => ?_⟩
  rw [getLsbD_ofNat_maskOf _ hj, hindex, lopTable_eq_toNat, BitVec.testBit_toNat]
  rfl

theorem not_toNat (a : BitVec 32) : 0xFFFFFFFF - a.toNat = (~~~a).toNat := by
  rw [BitVec.toNat_not]

theorem shl_toNat (a : BitVec 32) (n : Nat) : (if n ≥ 32 then 0 else a.toNat * 2 ^ n % 2 ^ 32) = (a <<< n).toNat := by
  rw [BitVec.toNat_shiftLeft, Nat.shiftLeft_eq]
  split
  case isTrue h => exact (Nat.mod_eq_zero_of_dvd (Nat.dvd_mul_left_of_dvd (Nat.pow_dvd_pow 2 h) _)).symm
  case isFalse => rfl

theorem shr_toNat (a : BitVec 32) (n : Nat) : (if n ≥ 32 then 0 else a.toNat / 2 ^ n) = (a >>> n).toNat := by
  rw [BitVec.toNat_ushiftRight, Nat.shiftRight_eq_div_pow]
  split
  case isTrue h => exact (Nat.div_eq_of_lt (Nat.lt_of_lt_of_le a.isLt (Nat.pow_le_pow_right (by decide) h))).symm
  case isFalse => rfl

theorem wrapTo_div_two_pow (a : BitVec 32) (k : Nat) : wrapTo 32 (s32 a.toNat / (2 ^ k : Nat)) = (a.sshiftRight k).toNat := by
  rw [s32_toNat, wrapTo_eq_toNat_ofInt, ← Int.shiftRight_eq_div_pow]; rfl

/-- The two parts of a rotated word share no bit, so their sum is their union. -/
theorem rotl_toNat (a : BitVec 32) (n : Nat) :
    a.toNat * 2 ^ (n % 32) % 2 ^ 32 + a.toNat / 2 ^ (32 - n % 32) = (a.rotateLeft (n % 32)).toNat := by
  have hk : n % 32 ≤ 32 := by omega
  rw [BitVec.toNat_rotateLeft, Nat.mod_mod, Nat.shiftLeft_eq, Nat.shiftRight_eq_div_pow]
  have hsplit : a.toNat * 2 ^ (n % 32) % 2 ^ 32 = (a.toNat % 2 ^ (32 - n % 32)) <<< (n % 32) := by
    rw [Nat.shiftLeft_eq, ← Nat.mul_mod_mul_right, ← Nat.pow_add, Nat.sub_add_cancel hk]
  have hlow : a.toNat / 2 ^ (32 - n % 32) < 2 ^ (n % 32) := by
    rw [Nat.div_lt_iff_lt_mul (Nat.two_pow_pos _), ← Nat.pow_add, Nat.add_sub_cancel' hk]
    exact a.isLt
  rw [hsplit, Nat.shiftLeft_add_eq_or_of_lt hlow]

theorem funnel_right (clamp : Bool) (a b : BitVec 32) (c : Nat) :
    funnel false clamp a.toNat b.toNat c = (((b ++ a : BitVec 64) >>> (if clamp then min c 32 else c % 32)).setWidth 32).toNat := by
  rw [BitVec.toNat_setWidth, BitVec.toNat_ushiftRight, toNat_append_eq_add, Nat.shiftRight_eq_div_pow]
  simp only [funnel, Bool.false_eq_true, if_false]

theorem funnel_left (clamp : Bool) (a b : BitVec 32) (c : Nat) :
    funnel true clamp a.toNat b.toNat c = (((b ++ a : BitVec 64) <<< (if clamp then min c 32 else c % 32)).extractLsb' 32 32).toNat := by
  rw [BitVec.extractLsb'_toNat, BitVec.toNat_shiftLeft, toNat_append_eq_add, Nat.shiftRight_eq_div_pow, Nat.shiftLeft_eq]
  simp only [funnel, if_true]
  omega

theorem funnel_eq (left clamp : Bool) (a b : BitVec 32) (c : Nat) :
    funnel left clamp a.toNat b.toNat c =
      (if left then ((b ++ a : BitVec 64) <<< (if clamp then min c 32 else c % 32)).extractLsb' 32 32
        else ((b ++ a : BitVec 64) >>> (if clamp then min c 32 else c % 32)).setWidth 32).toNat := by
  cases left
  · exact funnel_right clamp a b c
  · exact funnel_left clamp a b c

/-! ### Bit fields and counts (R174, R175) -/

theorem toNat_fieldMask {w : Nat} (h : w ≤ 32) : (BitVec.ofNat 32 (2 ^ w - 1)).toNat = 2 ^ w - 1 := by
  have hpow : 2 ^ w ≤ 2 ^ 32 := Nat.pow_le_pow_right (by decide) h
  have hpos := Nat.two_pow_pos w
  rw [BitVec.toNat_ofNat, Nat.mod_eq_of_lt (by omega)]

theorem fieldWidth_le (b : Nat) : fieldWidth b ≤ 32 := Nat.min_le_right _ _

theorem extractField_unsigned (a : BitVec 32) (b : Nat) :
    extractField false a.toNat b = ((a >>> bitsOf b 7 0) &&& BitVec.ofNat 32 (2 ^ fieldWidth b - 1)).toNat := by
  rw [BitVec.toNat_and, toNat_fieldMask (fieldWidth_le b), Nat.and_two_pow_sub_one_eq_mod, BitVec.toNat_ushiftRight,
    Nat.shiftRight_eq_div_pow]
  simp only [extractField, Bool.false_eq_true, if_false]
  split
  case isTrue h => rw [h, Nat.pow_zero, Nat.mod_one]
  case isFalse => rfl

/-- The field of the sign-shifted source is its integer quotient wrapped to the field's width, and a field of width 0 is 0. -/
theorem extractField_signed (a : BitVec 32) (b : Nat) :
    extractField true a.toNat b = (((a.sshiftRight (bitsOf b 7 0)).setWidth (fieldWidth b)).signExtend 32).toNat := by
  have hfield : (a.sshiftRight (bitsOf b 7 0)).setWidth (fieldWidth b) = BitVec.ofInt (fieldWidth b) (a.toInt / (2 ^ bitsOf b 7 0 : Nat)) := by
    rw [← Int.shiftRight_eq_div_pow]; exact setWidth_ofInt (fieldWidth_le b) _
  rw [hfield]
  simp only [extractField, if_true, s32_toNat]
  rw [← wrapTo, wrapTo_eq_toNat_ofInt]
  split
  case isTrue h => rw [h, BitVec.eq_nil (BitVec.ofInt 0 _)]; rfl
  case isFalse h => rw [sext_eq_toInt_ofNat (by omega), wrapTo_eq_toNat_ofInt, BitVec.ofNat_toNat, BitVec.setWidth_eq]; rfl

theorem extractField_eq (signed : Bool) (a : BitVec 32) (b : Nat) :
    extractField signed a.toNat b =
      (if signed then ((a.sshiftRight (bitsOf b 7 0)).setWidth (fieldWidth b)).signExtend 32
        else (a >>> bitsOf b 7 0) &&& BitVec.ofNat 32 (2 ^ fieldWidth b - 1)).toNat := by
  cases signed
  · exact extractField_unsigned a b
  · exact extractField_signed a b

theorem insertField_eq (a c : BitVec 32) (b : Nat) :
    insertField a.toNat b c.toNat =
      ((c &&& ~~~(BitVec.ofNat 32 (2 ^ fieldWidth b - 1) <<< bitsOf b 7 0)) |||
        ((a <<< bitsOf b 7 0) &&& (BitVec.ofNat 32 (2 ^ fieldWidth b - 1) <<< bitsOf b 7 0))).toNat := by
  simp only [BitVec.toNat_or, BitVec.toNat_and, BitVec.toNat_not, BitVec.toNat_shiftLeft, toNat_fieldMask (fieldWidth_le b), Nat.shiftLeft_eq]
  rfl

/-- BREV: bit j of the result is bit 31 - j of the source. -/
theorem brev_toNat (a : BitVec 32) : Machine.maskOf ((List.range 32).filter fun i => a.toNat.testBit (31 - i)) = a.reverse.toNat :=
  maskOf_filter_range_eq_toNat _ fun j hj => by rw [BitVec.getLsbD_reverse, BitVec.getMsbD_eq_getLsbD, decide_eq_true hj]; rfl

theorem popCount_toNat (a : BitVec 32) : popCount a.toNat = (BitVec.ofNat 32 ((List.range 32).countP a.getLsbD)).toNat := by
  have hle := List.countP_le_length (p := a.getLsbD) (l := List.range 32)
  rw [List.length_range] at hle
  rw [BitVec.toNat_ofNat, Nat.mod_eq_of_lt (by omega), List.countP_eq_length_filter]
  rfl

theorem toNat_ofNat_of_le {z : Nat} (h : z ≤ 32) : (BitVec.ofNat 32 z).toNat = z := by
  rw [BitVec.toNat_ofNat, Nat.mod_eq_of_lt (by omega)]

/-- CLZ counts the zeros above the highest set bit. -/
theorem clz_counts (a : BitVec 32) :
    ∃ z ≤ 32, (if a.toNat = 0 then 32 else 31 - Nat.log2 a.toNat) = (BitVec.ofNat 32 z).toNat ∧ (∀ j < z, a.getMsbD j = false) ∧
      (z < 32 → a.getMsbD z = true) := by
  by_cases h0 : a.toNat = 0
  · refine ⟨32, Nat.le_refl 32, by rw [if_pos h0]; rfl, fun j _ => ?_, fun h => absurd h (by decide)⟩
    rw [BitVec.eq_of_toNat_eq (x := a) (y := 0#32) h0]
    exact BitVec.getMsbD_zero
  · have hlog : a.toNat.log2 < 32 := (Nat.log2_lt h0).2 a.isLt
    refine ⟨31 - a.toNat.log2, by omega, ?_, fun j hj => ?_, fun _ => ?_⟩
    · rw [if_neg h0, toNat_ofNat_of_le (by omega)]
    · rw [BitVec.getMsbD_eq_getLsbD, ← BitVec.testBit_toNat, Nat.testBit_lt_two_pow, Bool.and_false]
      exact Nat.lt_of_lt_of_le Nat.lt_log2_self (Nat.pow_le_pow_right (by decide) (by omega))
    · rw [BitVec.getMsbD_eq_getLsbD, ← BitVec.testBit_toNat, (by omega : 32 - 1 - (31 - a.toNat.log2) = a.toNat.log2),
        Nat.testBit_log2 h0, decide_eq_true (by omega)]
      rfl

/-- CTZ finds the lowest set bit. -/
theorem ctz_counts (a : BitVec 32) :
    ∃ z ≤ 32, trailingZeros a.toNat = (BitVec.ofNat 32 z).toNat ∧ (∀ j < z, a.getLsbD j = false) ∧ (z < 32 → a.getLsbD z = true) := by
  have hhead : trailingZeros a.toNat = ((List.range 32).find? a.getLsbD).getD 32 := by
    rw [← List.head?_filter]; rfl
  rw [hhead]
  cases hfind : (List.range 32).find? a.getLsbD with
  | none =>
    refine ⟨32, Nat.le_refl 32, rfl, fun j hj => ?_, fun h => absurd h (by decide)⟩
    simpa using List.find?_range_eq_none.1 hfind j hj
  | some z =>
    obtain ⟨hset, hmem, hbelow⟩ := List.find?_range_eq_some.1 hfind
    have hz : z < 32 := List.mem_range.1 hmem
    exact ⟨z, Nat.le_of_lt hz, (toNat_ofNat_of_le (Nat.le_of_lt hz)).symm, fun j hj => by simpa using hbelow j hj, fun _ => hset⟩

/-! ### The words (R169-R175) -/

/-- Equal values and equal tags are equal results of a word that sets no flag (R167). -/
theorem result_eq {x v t u : Nat} (hv : x = v) (ht : t = u) : some (x, t, 0) = some (v, u, 0) := by rw [hv, ht]

/-- Settles O7: the entries' values on numbers are, word by word, those of the operations on bit vectors above; what is left of an
entry, its tag and its empty flags, holds by definition. -/
theorem integerResultsAreExact : Obligations.IntegerResultsAreExact := by
  unfold Obligations.IntegerResultsAreExact
  intro w s g y a b c p q r ta tb tc out gives m0 n clamp sum k pos wd field
  have hpos : pos = bitsOf b.toNat 7 0 := by simp [pos, bitsOf]
  refine ⟨?iadd, ?isub, ?imul, ?imulh, ?imad, ?iadd64, ?lo, ?ws, ?wu, ?imin, ?imax, ?iabs, ?ineg, ?iadds, ?and, ?or, ?xor, ?not,
    ?lop3, ?shl, ?shr, ?shra, ?rotl, ?fshf, ?bfx, ?bfi, ?brev, ?popc, ?clz, ?ctz⟩
  case iadd => exact result_eq (BitVec.toNat_add a b).symm rfl
  case isub => exact result_eq (wrapTo_sub a b) rfl
  case imul => exact result_eq (BitVec.toNat_mul a b).symm rfl
  case imulh => exact result_eq (mulHigh_eq m0 a b) rfl
  case imad => exact result_eq (mulAdd_toNat a b c) rfl
  case iadd64 => exact result_eq (BitVec.toNat_add p q).symm rfl
  case lo => exact fun hm => result_eq (mad64_pairs hm p q r) rfl
  case ws => exact fun hm => result_eq (mad64_signed hm a b r) rfl
  case wu => exact fun hm => result_eq (mad64_unsigned hm a b r) rfl
  case imin => exact result_eq (select_toNat (lessInt_toNat m0 b a) a b) rfl
  case imax => exact result_eq (select_toNat (lessInt_toNat m0 a b) a b) rfl
  case iabs => exact result_eq (satNeg_abs m0 a) rfl
  case ineg => exact result_eq (satNeg_neg m0 a) rfl
  case iadds => exact result_eq (satAdd_eq m0 (w.m.testBit 1) a b) rfl
  case and => exact result_eq (BitVec.toNat_and a b).symm rfl
  case or => exact result_eq (BitVec.toNat_or a b).symm rfl
  case xor => exact result_eq (BitVec.toNat_xor a b).symm rfl
  case not => exact result_eq (not_toNat a) rfl
  case lop3 =>
    obtain ⟨v, hv, hbits⟩ := lop3Value_bits w a b c
    exact ⟨v, result_eq hv rfl, hbits⟩
  case shl => exact result_eq (shl_toNat a n) rfl
  case shr => exact result_eq (shr_toNat a n) rfl
  case shra => exact result_eq (wrapTo_div_two_pow a (min n 31)) rfl
  case rotl => exact result_eq (rotl_toNat a n) rfl
  case fshf => exact result_eq (funnel_eq m0 (w.m.testBit 1) a b c.toNat) rfl
  case bfx => rw [hpos]; exact result_eq (extractField_eq m0 a b.toNat) rfl
  case bfi => rw [hpos]; exact result_eq (insertField_eq a c b.toNat) rfl
  case brev => exact result_eq (brev_toNat a) rfl
  case popc => exact result_eq (popCount_toNat a) rfl
  case clz =>
    obtain ⟨z, hz, hv, hcount⟩ := clz_counts a
    exact ⟨z, hz, result_eq hv rfl, hcount⟩
  case ctz =>
    obtain ⟨z, hz, hv, hcount⟩ := ctz_counts a
    exact ⟨z, hz, result_eq hv rfl, hcount⟩

end Sys2Proof.Machine
end

section
/-! PROOFS. BRA and BRC (R189, R190): no check stops a word that fits and whose destinations can be gone to, and each slice of the gang goes
to an address, so that the word ends as R153 and R188 say. O10 is assembled from these. -/

namespace Sys2Proof.Machine

section Words
variable {s : State} {g : Gang}

/-! ### Checks that pass -/

theorem decodeFault_eq_none {opc n : Nat} (hf : s.featureOk opc = true) (hc : g.classOk opc n = true) :
    g.decodeFault s opc n false false = none := by
  simp [Gang.decodeFault, hf, hc]

theorem ctlTrap_eq_none {opc : Nat} {w : CtlWord} {p7 : Bool} {mods ofs : Nat} (h : CtlFits s g opc w p7 mods ofs)
    (lanes : List (Nat × Nat)) : g.ctlTrap s opc w lanes p7 mods ofs = none := by
  have hguard : (p7 && p7Bad w.c) = false := by
    cases p7 with
    | false => rfl
    | true => simp [p7Bad, h.guard rfl]
  unfold Gang.ctlTrap
  simp only [hguard, h.mods, h.offset, bne_self_eq_false, Bool.or_false, decodeFault_eq_none h.feature h.cls, Option.map_none, ite_self]

/-- Destinations none of which fails raise nothing (R186). -/
theorem branchTrap_eq_none {dests : Nat × Nat → List DWord}
    (h : ∀ x ∈ g.activePlaces, ∀ a ∈ dests x, s.destFault g.u.ctx a = none) : g.branchTrap s dests = none := by
  have hfail : (g.activePlaces.flatMap dests).eraseDups.filter (fun a => (s.destFault g.u.ctx a).isSome) = [] := by
    rw [List.filter_eq_nil_iff]
    intro a ha
    obtain ⟨x, hx, hax⟩ := List.mem_flatMap.1 (List.mem_eraseDups.1 ha)
    simp [h x hx a hax]
  unfold Gang.branchTrap
  dsimp only
  rw [hfail]
  rfl

theorem stackTrap_eq_none {push : Slice → Nat} (h : ∀ p ∈ g.ps, (g.u.slice p).stack.length + push (g.u.slice p) ≤ 32) :
    g.stackTrap push = none := by
  simpa [Gang.stackTrap] using h

/-! ### Slices that go to an address -/

/-- A word whose checks pass and that sends each slice of its gang somewhere turns the gang so. -/
theorem turns_of_jumpWord {i : Instr} {y : Bool} {move : Slice → Slice} (hg : s.gang = some g)
    (hexec : exec i s = .next (s.jumpWord g y none fun _ => move)) (hmove : ∀ sl : Slice, ∃ a m st, move sl = sl.goesTo a m st) :
    Turns i s g y move := by
  obtain ⟨hunit, hps, hne⟩ := gang_is hg
  have hmoved : (s.modifyUnit g.u.uid fun u => u.modifySlices g.ps move).unit? g.u.uid = some (g.u.modifySlices g.ps move) := by
    rw [unit?_modifyUnit (f := fun u => u.modifySlices g.ps move) _ _ fun _ => rfl, hunit]
    rfl
  refine ⟨_, hexec, finishJump_follows _ g y hmoved (fun p hp => ?_) hne,
    ⟨rfl, rfl, hmoved, fun n hn => unit?_modifyUnit_other _ hn fun _ => rfl⟩⟩
  obtain ⟨hlt, hrun⟩ := hps p hp
  obtain ⟨a, m, st, hgoes⟩ := hmove (g.u.slice p)
  rw [modifySlices_slice _ _ _ hlt, if_pos (List.contains_iff_mem.2 hp), hgoes]
  exact ⟨by simpa [WorkUnit.modifySlices] using hlt, hrun, fun _ => (kept_kept _).symm⟩

/-! ### BRA (R189) -/

theorem exec_bra (w : CtlWord) (hg : s.gang = some g) :
    exec (.bra w) s = .next (s.jumpWord g w.c.y
      (firstTrap [g.ctlTrap s 0x1C0 w g.activePlaces true 0 (2 ^ 36 - 1), g.branchTrap s fun _ => [g.target 36 w.ofs.toNat]])
      fun _ sl => sl.goesTo (g.target 36 w.ofs.toNat) sl.active sl.stack) := by
  change execBra w s = _
  unfold execBra
  rw [hg]
  rfl

theorem bra_turns {w : CtlWord} (hg : s.gang = some g) (hfits : CtlFits s g 0x1C0 w true 0 (2 ^ 36 - 1))
    (htarget : s.destFault g.u.ctx (g.target 36 w.ofs.toNat) = none) :
    Turns (.bra w) s g w.c.y fun sl => sl.goesTo (g.target 36 w.ofs.toNat) sl.active sl.stack := by
  have hdests := branchTrap_eq_none (s := s) (g := g) (dests := fun _ => [g.target 36 w.ofs.toNat]) fun _ _ a ha => by
    rw [List.mem_singleton.1 ha, htarget]
  refine turns_of_jumpWord hg ?_ fun _ => ⟨_, _, _, rfl⟩
  rw [exec_bra w hg, ctlTrap_eq_none hfits, hdests]
  rfl

/-! ### BRC (R190) -/

theorem joined_eq (sl : Slice) (join : DWord) :
    joined sl join = if sl.topJoin join then sl.stack else ⟨.join, join, sl.live⟩ :: sl.stack := by
  cases hstack : sl.stack with
  | nil => simp [joined, Slice.topJoin, hstack]
  | cons e st => simp [joined, Slice.topJoin, hstack]

theorem pushJoin_eq (sl : Slice) (join : DWord) : sl.pushJoin join = { sl with stack := joined sl join } := by
  rw [joined_eq]
  unfold Slice.pushJoin
  split <;> rfl

/-- The stack that BRC pushes onto is no deeper than the one with the join on top. -/
theorem stack_add_brcPushes_le (sl : Slice) (c : Common) (join : DWord) :
    sl.stack.length + sl.brcPushes c join ≤ (joined sl join).length := by
  rw [joined_eq]
  unfold Slice.brcPushes
  dsimp only
  split <;> split <;> simp_all

/-- Where BRC sends a slice: to the target, to the join, or divided, the stack then holding the join. -/
def Slice.brcGoes (c : Common) (target join : DWord) (sl : Slice) : Slice :=
  let k := sl.condition c
  if k = sl.live then sl.goesTo target sl.active sl.stack
  else if k = 0 then sl.goesTo join sl.active sl.stack
  else sl.goesTo target k (joined sl join)

theorem brc_eq_brcGoes (sl : Slice) (c : Common) (target join : DWord) : sl.brc c target join = sl.brcGoes c target join := by
  unfold Slice.brc Slice.brcGoes
  rw [pushJoin_eq]
  rfl

theorem brcGoes_goesTo (c : Common) (target join : DWord) (sl : Slice) :
    ∃ a m st, sl.brcGoes c target join = sl.goesTo a m st := by
  unfold Slice.brcGoes
  dsimp only
  split
  · exact ⟨_, _, _, rfl⟩
  · split
    · exact ⟨_, _, _, rfl⟩
    · exact ⟨_, _, _, rfl⟩

theorem exec_brc (w : CtlWord) {target join : DWord} (hg : s.gang = some g) (ht : target = g.target 18 (bitsOf w.ofs.toNat 35 18))
    (hj : join = g.target 18 (bitsOf w.ofs.toNat 17 0)) :
    exec (.brc w) s = .next (s.jumpWord g w.c.y
      (firstTrap [g.ctlTrap s 0x1C1 w g.activePlaces false 0 (2 ^ 36 - 1), g.branchTrap s fun _ => [target, join],
        g.stackTrap fun sl => sl.brcPushes w.c join])
      fun _ => Slice.brcGoes w.c target join) := by
  change execBrc w s = _
  unfold execBrc
  rw [hg, ht, hj]
  simp only [brc_eq_brcGoes]

theorem brc_turns {w : CtlWord} {target join : DWord} (hg : s.gang = some g) (hfits : CtlFits s g 0x1C1 w false 0 (2 ^ 36 - 1))
    (ht : target = g.target 18 (bitsOf w.ofs.toNat 35 18)) (hj : join = g.target 18 (bitsOf w.ofs.toNat 17 0))
    (htarget : s.destFault g.u.ctx target = none) (hjoin : s.destFault g.u.ctx join = none)
    (hroom : ∀ p ∈ g.ps, (joined (g.u.slice p) join).length ≤ 32) : Turns (.brc w) s g w.c.y (Slice.brcGoes w.c target join) := by
  have hdests := branchTrap_eq_none (s := s) (g := g) (dests := fun _ => [target, join]) fun _ _ a ha => by
    rcases List.mem_cons.1 ha with rfl | ha
    · exact htarget
    · rw [List.mem_singleton.1 ha, hjoin]
  have hstack := stackTrap_eq_none (g := g) (push := fun sl => sl.brcPushes w.c join) fun p hp =>
    Nat.le_trans (stack_add_brcPushes_le _ _ _) (hroom p hp)
  refine turns_of_jumpWord hg ?_ (brcGoes_goesTo _ _ _)
  rw [exec_brc w hg ht hj, ctlTrap_eq_none hfits, hdests, hstack]
  rfl

end Words

/-- Settles O10: the checks pass, and each slice goes where R189 and R190 send it. -/
theorem branchesMoveTheirLanes : Obligations.BranchesMoveTheirLanes := by
  unfold Obligations.BranchesMoveTheirLanes
  intro w s g hg
  exact ⟨bra_turns hg, fun hfits htarget hjoin hroom => brc_turns hg hfits rfl rfl htarget hjoin hroom⟩

end Sys2Proof.Machine
end

section
/-! PROOFS. COHNEW, COHFREE, JOIN and LEAVE (R198-R200): what each makes of the barrier slots of its bank and the status it answers, and the
course they share, from the checks to the result in the executing lanes. O19 is assembled from these. -/

namespace Sys2Proof.Machine

section Words
variable {s t : State} {g : Gang}

/-! ### The checks of a standard word -/

/-- A lane word that fits takes no trap (R44, R161, R269). -/
theorem aluTrap_eq_none {x : LaneInstr} (h : x.Fits s g) :
    g.aluTrap s x.opc (sourceWords x.word.srcB) (x.lanes s g) [x.op s g] ((x.entry s g).reserved || (x.entry s g).modBad x.word)
      (x.entry s g).illegal = none := by
  have hdecode : g.decodeTrap s x.opc (sourceWords x.word.srcB) (x.lanes s g) [x.op s g]
      ((x.entry s g).reserved || (x.entry s g).modBad x.word) (x.entry s g).illegal = none := by
    have hres := h.reserved
    have hops := h.operands
    unfold LaneInstr.reserved at hres
    unfold LaneInstr.illegal at hops
    simp only [Gang.decodeTrap, List.any_cons, List.any_nil, Bool.or_false, hres, hops, decodeFault_eq_none h.feature h.cls,
      Option.map_none]
  have hunread : g.unreadTrap [x.op s g] (x.lanes s g) = none := by
    simp [Gang.unreadTrap, h.good]
  have htags : g.mismatchTrap [x.op s g] (x.lanes s g) = none := by
    have hnil : ((x.lanes s g).filterMap fun y => ([x.op s g].findSome? fun op => op.mismatch g y).map fun m => (y, m)) = [] :=
      List.filterMap_eq_nil_iff.2 fun y hy => by simp [h.tags y hy]
    exact if_pos hnil
  rw [Gang.aluTrap, hdecode, hunread, htags]
  rfl

theorem stdTrap_eq_none {opc : Nat} {w : StdWord} {e : AluEntry} (h : LaneInstr.Fits ⟨opc, w, fun _ _ => e⟩ s g) :
    g.stdTrap s opc w (e.lanes g w) e = none := by
  unfold Gang.stdTrap
  split
  · rfl
  · exact aluTrap_eq_none h

/-! ### Numbers of a list in ascending order -/

theorem mem_insertBy {α : Type} (lt : α → α → Bool) (x y : α) (l : List α) : y ∈ insertBy lt x l ↔ y = x ∨ y ∈ l := by
  induction l with
  | nil => simp [insertBy]
  | cons z l ih =>
    unfold insertBy
    split
    · simp
    · rw [List.mem_cons, ih, List.mem_cons]
      exact or_left_comm

theorem pairwise_insertBy (x : Nat) {l : List Nat} (h : l.Pairwise (· ≤ ·)) :
    (insertBy (fun a b => decide (a < b)) x l).Pairwise (· ≤ ·) := by
  induction l with
  | nil => simp [insertBy]
  | cons z l ih =>
    obtain ⟨hz, hl⟩ := List.pairwise_cons.1 h
    unfold insertBy
    split
    · next hlt =>
      have hxz : x < z := of_decide_eq_true hlt
      refine List.pairwise_cons.2 ⟨fun y hy => ?_, h⟩
      rcases List.mem_cons.1 hy with rfl | hy
      · exact Nat.le_of_lt hxz
      · exact Nat.le_trans (Nat.le_of_lt hxz) (hz y hy)
    · next hge =>
      refine List.pairwise_cons.2 ⟨fun y hy => ?_, ih hl⟩
      rcases (mem_insertBy _ _ _ _).1 hy with rfl | hy
      · simpa using hge
      · exact hz y hy

theorem sortBy_sorts (l acc : List Nat) (h : acc.Pairwise (· ≤ ·)) :
    (l.foldl (fun acc x => insertBy (fun a b => decide (a < b)) x acc) acc).Pairwise (· ≤ ·) ∧
      ∀ y, y ∈ l.foldl (fun acc x => insertBy (fun a b => decide (a < b)) x acc) acc ↔ y ∈ l ∨ y ∈ acc := by
  induction l generalizing acc with
  | nil => simp [h]
  | cons x l ih =>
    obtain ⟨hsorted, hmem⟩ := ih _ (pairwise_insertBy x h)
    refine ⟨hsorted, fun y => ?_⟩
    rw [List.foldl_cons, hmem, mem_insertBy, List.mem_cons, or_left_comm, or_assoc]

theorem pairwise_eraseDups {r : Nat → Nat → Prop} : ∀ {l : List Nat}, l.Pairwise r → l.eraseDups.Pairwise r
  | [], _ => List.Pairwise.nil
  | a :: l, h => by
    obtain ⟨ha, hl⟩ := List.pairwise_cons.1 h
    rw [List.eraseDups_cons]
    exact List.pairwise_cons.2 ⟨fun b hb => ha b (List.mem_filter.1 (List.mem_eraseDups.1 hb)).1, pairwise_eraseDups (hl.filter _)⟩
termination_by l => l.length
decreasing_by exact Nat.lt_succ_of_le (List.length_filter_le _ _)

theorem sortedNats_pairwise (l : List Nat) : (sortedNats l).Pairwise (· ≤ ·) :=
  pairwise_eraseDups (sortBy_sorts l [] List.Pairwise.nil).1

theorem mem_sortedNats (l : List Nat) (n : Nat) : n ∈ sortedNats l ↔ n ∈ l := by
  rw [sortedNats, List.mem_eraseDups, sortBy, (sortBy_sorts l [] List.Pairwise.nil).2]
  simp

/-- The first number of an ascending list where p holds is the least one. -/
theorem find?_eq_least {p : Nat → Bool} {l : List Nat} {n : Nat} (hl : l.Pairwise (· ≤ ·)) (hn : n ∈ l) (hp : p n = true)
    (hbelow : ∀ m ∈ l, m < n → p m = false) : l.find? p = some n := by
  cases hfind : l.find? p with
  | none => exact absurd hp (by simpa using List.find?_eq_none.1 hfind n hn)
  | some m =>
    obtain ⟨hpm, before, after, rfl, hbefore⟩ := List.find?_eq_some_iff_append.1 hfind
    have hge : n ≤ m := Nat.le_of_not_lt fun hlt => by simp [hbelow m (by simp) hlt] at hpm
    obtain ⟨_, hafter, _⟩ := List.pairwise_append.1 hl
    rcases List.mem_append.1 hn with hn | hn
    · exact absurd hp (by simpa using hbefore n hn)
    · rcases List.mem_cons.1 hn with rfl | hn
      · rfl
      · rw [Nat.le_antisymm hge ((List.pairwise_cons.1 hafter).1 n hn)]

/-! ### Barrier slots -/

theorem sparseGet_map {α : Type} {d : α} {f : α → α} (hd : f d = d) (l : List (Nat × α)) (n : Nat) :
    sparseGet d (l.map fun x => (x.1, f x.2)) n = f (sparseGet d l n) := by
  induction l with
  | nil => exact hd.symm
  | cons x l ih =>
    obtain ⟨k, v⟩ := x
    simp only [List.map_cons, sparseGet, ih]
    split <;> rfl

@[simp] theorem slot_setSlot (b : Bank) (n k : Nat) (x : BarrierSlot) : (b.setSlot n x).slot k = if k = n then x else b.slot k := by
  unfold Bank.slot Bank.setSlot
  split
  · next h => rw [h]; exact get_put_same _ _ _
  · next h => exact get_put_other h _

/-- A slot whose phase is complete begins the next phase; any other stays (R392). -/
theorem settled_eq (b : BarrierSlot) : b.settled = if b.complete then { b with arrived := 0, phase := !b.phase } else b := by
  simp [BarrierSlot.settled, BarrierSlot.complete, and_assoc]

@[simp] theorem bank_modifyBank_same (s : State) (core bank : Nat) (f : Bank → Bank) :
    (s.modifyBank core bank f).bank core bank = f (s.bank core bank) := by
  rw [bank_modifyBank, if_pos ⟨rfl, Iff.rfl⟩]

theorem settleBarriers_slot (s : State) (core bank n : Nat) :
    ((s.settleBarriers core bank).bank core bank).slot n = ((s.bank core bank).slot n).settled := by
  have hbank : ((s.settleBarriers core bank).bank core bank).barriers =
      (s.bank core bank).barriers.map fun x => (x.1, x.2.settled) := by
    change ((s.modifyBank core bank _).bank core bank).barriers = _
    rw [bank_modifyBank_same]
    refine List.map_congr_left fun x _ => ?_
    rw [settled_eq]
    split <;> rfl
  unfold Bank.slot
  rw [hbank, sparseGet_map rfl]

/-- Slot n of the gang's bank. -/
abbrev State.slotOf (s : State) (g : Gang) (n : Nat) : BarrierSlot := (s.bank g.u.core g.u.bank).slot n

/-! ### Noting the gang's slot (R198) -/

@[simp] theorem noteSlot_slot (s : State) (g : Gang) (n : Nat) : ((s.noteSlot g).bank g.u.core g.u.bank).slot n = s.slotOf g n := by
  rw [State.noteSlot, bank_modifyBank_same]
  rfl

@[simp] theorem noteSlot_unit? (s : State) (g : Gang) (uid : Nat) : (s.noteSlot g).unit? uid = s.unit? uid := rfl

@[simp] theorem noteSlot_cohortSlot (s : State) (g : Gang) (a : Nat) : (s.noteSlot g).cohortSlot g a = s.cohortSlot g a := by
  unfold State.cohortSlot
  rw [noteSlot_slot]
  rfl

theorem afterSlot_iff (s : State) (g : Gang) :
    s.afterSlot g = true ↔ ∃ n, (s.bank g.u.core g.u.bank).lastOp = some (s.clock, n) ∧ g.slot < n := by
  unfold State.afterSlot
  cases (s.bank g.u.core g.u.bank).lastOp with
  | none => simp
  | some x =>
    obtain ⟨c, n⟩ := x
    simp only [Option.any_some, Bool.and_eq_true, beq_iff_eq, decide_eq_true_eq, Option.some.injEq, Prod.mk.injEq]
    exact ⟨fun ⟨hc, hn⟩ => ⟨n, ⟨hc, rfl⟩, hn⟩, fun ⟨_, ⟨hc, hn⟩, hlt⟩ => ⟨hc, hn ▸ hlt⟩⟩

/-! ### What the words make of the slots (R199, R200) -/

/-- From s to r only slots of the gang's bank change, to those given. -/
structure SlotsBecome (s r : State) (g : Gang) (after : Nat → BarrierSlot) : Prop where
  undisturbed : Undisturbed s r
  slots : ∀ n, (r.bank g.u.core g.u.bank).slot n = after n

theorem slotsBecome_refl (s : State) (g : Gang) : SlotsBecome (s.noteSlot g) (s.noteSlot g) g (s.slotOf g) :=
  ⟨.refl _, noteSlot_slot s g⟩

theorem slotsBecome_setSlot (s : State) (g : Gang) (n : Nat) (x : Bank → BarrierSlot) {v : BarrierSlot}
    (hx : x ((s.noteSlot g).bank g.u.core g.u.bank) = v) :
    SlotsBecome (s.noteSlot g) ((s.noteSlot g).modifyBank g.u.core g.u.bank fun b => b.setSlot n (x b)) g
      fun k => if k = n then v else s.slotOf g k :=
  ⟨modifyBank_undisturbed _ _ _ fun _ => rfl, fun k => by simp [hx]⟩

theorem SlotsBecome.settle {r : State} {after : Nat → BarrierSlot} (h : SlotsBecome s r g after) :
    SlotsBecome s (r.settleBarriers g.u.core g.u.bank) g fun k => (after k).settled :=
  ⟨h.undisturbed.trans (settleBarriers_undisturbed _ _ _), fun k => by rw [settleBarriers_slot, h.slots]⟩

/-- A cohort operation of gang g on source a answers v, and the slots become those given. -/
def Answers (act : State → Gang → Nat → Nat × State) (s : State) (g : Gang) (a v : Nat) (after : Nat → BarrierSlot) : Prop :=
  ∃ r, act (s.noteSlot g) g a = (v, r) ∧ SlotsBecome (s.noteSlot g) r g after

theorem cohNew_takes {a n : Nat} (hn : n ∈ g.u.bslots.drop 1) (hfree : (s.slotOf g n).live = false)
    (hbelow : ∀ m ∈ g.u.bslots.drop 1, m < n → (s.slotOf g m).live = true) :
    Answers cohNew s g a n fun k =>
      if k = n then ⟨g.u.slots.headD 0, g.cohortMembers a, 0, false, true⟩ else s.slotOf g k := by
  have hfind : (sortedNats (g.u.bslots.drop 1)).find? (fun n => !(s.slotOf g n).live) = some n :=
    find?_eq_least (sortedNats_pairwise _) ((mem_sortedNats _ _).2 hn) (by rw [hfree]; rfl)
      fun m hm hlt => by rw [hbelow m ((mem_sortedNats _ _).1 hm) hlt]; rfl
  refine ⟨_, ?_, slotsBecome_setSlot s g n (fun _ => _) rfl⟩
  simp only [cohNew, noteSlot_slot, hfind]

theorem cohNew_full {a : Nat} (hlive : ∀ n ∈ g.u.bslots.drop 1, (s.slotOf g n).live = true) :
    Answers cohNew s g a 0xFFFFFFFF (s.slotOf g) := by
  have hfind : (sortedNats (g.u.bslots.drop 1)).find? (fun n => !(s.slotOf g n).live) = none :=
    List.find?_eq_none.2 fun n hn => by simp [hlive n ((mem_sortedNats _ _).1 hn)]
  refine ⟨_, ?_, slotsBecome_refl s g⟩
  simp only [cohNew, noteSlot_slot, hfind]

section Unnamed
variable {a : Nat} (hnone : s.cohortSlot g a = none)
include hnone

theorem cohFree_unnamed : Answers cohFree s g a 1 (s.slotOf g) :=
  ⟨_, by simp only [cohFree, noteSlot_cohortSlot, hnone], slotsBecome_refl s g⟩

theorem cohJoin_unnamed : Answers cohJoin s g a 1 (s.slotOf g) :=
  ⟨_, by simp only [cohJoin, noteSlot_cohortSlot, hnone], slotsBecome_refl s g⟩

theorem cohLeave_unnamed : Answers cohLeave s g a 1 (s.slotOf g) :=
  ⟨_, by simp only [cohLeave, noteSlot_cohortSlot, hnone], slotsBecome_refl s g⟩

end Unnamed

section Named
variable {a n : Nat} {o : WorkUnit} (hsome : s.cohortSlot g a = some (n, o))
include hsome

theorem cohFree_foreign (ho : o.uid ≠ g.u.uid) : Answers cohFree s g a 1 (s.slotOf g) :=
  ⟨_, by simp only [cohFree, noteSlot_cohortSlot, hsome, if_pos ho], slotsBecome_refl s g⟩

theorem cohFree_members (ho : o.uid = g.u.uid) (hm : (s.slotOf g n).members &&& ~~~(slotBit g.slot) ≠ 0) :
    Answers cohFree s g a 2 (s.slotOf g) :=
  ⟨_, by simp only [cohFree, noteSlot_cohortSlot, hsome, if_neg (Decidable.not_not.2 ho), noteSlot_slot, if_pos hm], slotsBecome_refl s g⟩

theorem cohFree_frees (ho : o.uid = g.u.uid) (hm : (s.slotOf g n).members &&& ~~~(slotBit g.slot) = 0) :
    Answers cohFree s g a 0 fun k => (if k = n then { s.slotOf g n with live := false, members := 0, arrived := 0 }
      else s.slotOf g k).settled := by
  refine ⟨_, ?_, (slotsBecome_setSlot s g n (fun b => { b.slot n with live := false, members := 0, arrived := 0 })
    (by rw [noteSlot_slot])).settle⟩
  simp only [cohFree, noteSlot_cohortSlot, hsome, if_neg (Decidable.not_not.2 ho), noteSlot_slot, if_neg (Decidable.not_not.2 hm)]

theorem cohJoin_foreign (ho : ¬ (o.die = g.u.die ∧ o.lslot = g.u.lslot)) : Answers cohJoin s g a 1 (s.slotOf g) :=
  ⟨_, by simp only [cohJoin, noteSlot_cohortSlot, hsome, if_pos (Decidable.not_and_iff_or_not.1 ho)], slotsBecome_refl s g⟩

theorem cohJoin_member (hd : o.die = g.u.die) (hl : o.lslot = g.u.lslot)
    (hm : (s.slotOf g n).members.getLsbD g.slot = true) :
    Answers cohJoin s g a 2 (s.slotOf g) :=
  ⟨_, by simp [cohJoin, hsome, hd, hl, hm], slotsBecome_refl s g⟩

theorem cohJoin_joins (hd : o.die = g.u.die) (hl : o.lslot = g.u.lslot)
    (hm : (s.slotOf g n).members.getLsbD g.slot = false) :
    Answers cohJoin s g a 0 fun k => if k = n then { s.slotOf g n with members := (s.slotOf g n).members ||| slotBit g.slot }
      else s.slotOf g k :=
  ⟨_, by simp [cohJoin, hsome, hd, hl, hm], slotsBecome_setSlot s g n (fun _ => _) rfl⟩

theorem cohLeave_outsider (hm : (s.slotOf g n).members.getLsbD g.slot = false) : Answers cohLeave s g a 2 (s.slotOf g) :=
  ⟨_, by simp [cohLeave, hsome, hm], slotsBecome_refl s g⟩

theorem cohLeave_leaves (hm : (s.slotOf g n).members.getLsbD g.slot = true) :
    Answers cohLeave s g a 0 fun k => (if k = n then
      { s.slotOf g n with
        members := (s.slotOf g n).members &&& ~~~(slotBit g.slot)
        arrived := (s.slotOf g n).arrived &&& ~~~(slotBit g.slot) }
      else s.slotOf g k).settled :=
  ⟨_, by simp [cohLeave, hsome, hm], (slotsBecome_setSlot s g n (fun _ => _) rfl).settle⟩

end Named

/-! ### The result in the executing lanes -/

/-- Slice p with a 32-bit result, tagged n32, in its lanes among those given. -/
def Slice.given (sl : Slice) (p : Nat) (lanes : List (Nat × Nat)) (dst : BitVec 9) (val : Nat) : Slice :=
  { sl with lanes := sl.lanes.mapIdx fun j ln => if lanes.contains (p, j) then ln.putDst false dst.toNat val 2 else ln }

/-- A unit each of whose slices has been given the result. -/
def WorkUnit.given (u : WorkUnit) (lanes : List (Nat × Nat)) (dst : BitVec 9) (val : Nat) : WorkUnit :=
  { u with slices := u.slices.mapIdx fun p sl => sl.given p lanes dst val }

section Given
variable (lanes : List (Nat × Nat)) (dst : BitVec 9) (val : Nat)

theorem giveLanes_unit? (s : State) (g : Gang) :
    (s.giveLanes g lanes dst val).unit? g.u.uid = (s.unit? g.u.uid).map fun u => u.given lanes dst val :=
  unit?_modifyUnit s g.u.uid (f := fun u => u.given lanes dst val) fun _ => rfl

theorem giveLanes_unit?_other (s : State) {g : Gang} {n : Nat} (h : n ≠ g.u.uid) :
    (s.giveLanes g lanes dst val).unit? n = s.unit? n :=
  unit?_modifyUnit_other s h (f := fun u => u.given lanes dst val) fun _ => rfl

theorem putDst_kept (ln : Lane) (spec tag : Nat) : (ln.kept.putDst false spec val tag).kept = (ln.putDst false spec val tag).kept := by
  simp only [Lane.putDst, Lane.putSpec, Bool.false_eq_true, if_false]
  split
  · rfl
  · split <;> rfl

theorem Slice.given_kept (sl : Slice) (p : Nat) : (sl.kept.given p lanes dst val).kept = (sl.given p lanes dst val).kept := by
  unfold Slice.kept Slice.given
  congr 1
  refine List.ext_getElem? fun j => ?_
  simp only [List.getElem?_map, List.getElem?_mapIdx, Option.map_map]
  congr 1
  funext ln
  simp only [Function.comp_apply]
  split
  · exact putDst_kept val ln _ _
  · rfl

/-- What is kept of a unit that has been given a result depends on what was kept of it alone. -/
theorem WorkUnit.given_kept (u : WorkUnit) : (u.kept.given lanes dst val).kept = (u.given lanes dst val).kept := by
  unfold WorkUnit.kept WorkUnit.given
  congr 1
  refine List.ext_getElem? fun p => ?_
  simp only [List.getElem?_map, List.getElem?_mapIdx, Option.map_map]
  congr 1
  funext sl
  exact Slice.given_kept lanes dst val sl p

theorem Undisturbed.giveLanes (h : Undisturbed s t) (g : Gang) :
    Undisturbed (s.giveLanes g lanes dst val) (t.giveLanes g lanes dst val) := by
  refine ⟨h.elsewhere, h.cores, fun n => ?_⟩
  by_cases hn : n = g.u.uid
  · subst hn
    have hgiven := congrArg (Option.map fun u => (WorkUnit.given u lanes dst val).kept) (h.units g.u.uid)
    simpa only [giveLanes_unit?, Option.map_map, Function.comp_def, WorkUnit.given_kept] using hgiven
  · rw [giveLanes_unit?_other _ _ _ _ hn, giveLanes_unit?_other _ _ _ _ hn]
    exact h.units n

theorem slice_given (u : WorkUnit) {p : Nat} (hp : p < u.slices.length) :
    (u.given lanes dst val).slice p = (u.slice p).given p lanes dst val := by
  simp [WorkUnit.slice, WorkUnit.given, listAt, List.getD, hp]

theorem slice_kept (u : WorkUnit) {p : Nat} (hp : p < u.slices.length) : u.kept.slice p = (u.slice p).kept := by
  simp [WorkUnit.slice, WorkUnit.kept, listAt, List.getD, hp]

/-- The slices of a unit that has kept what is kept are there and run as before. -/
theorem runs_of_kept {u v : WorkUnit} (h : v.kept = u.kept) {p : Nat} (hp : p < u.slices.length ∧ (u.slice p).hasExited = false) :
    p < v.slices.length ∧ (v.slice p).hasExited = false := by
  obtain ⟨hlt, hrun⟩ := hp
  have hlen : v.slices.length = u.slices.length := by
    simpa [WorkUnit.kept] using congrArg (fun w : WorkUnit => w.slices.length) h
  have hlt' : p < v.slices.length := hlen ▸ hlt
  have hslice : (v.slice p).kept = (u.slice p).kept := by rw [← slice_kept v hlt', ← slice_kept u hlt, h]
  have hexited : (v.slice p).exited = (u.slice p).exited := (congrArg Slice.exited hslice : (v.slice p).kept.exited = (u.slice p).kept.exited)
  exact ⟨hlt', by rw [Slice.hasExited, hexited]; exact hrun⟩

/-- The word of a gang that runs ends so after its unit has been given a result and slots of its bank have changed. -/
theorem giveLanes_follows (hg : s.gang = some g) (h : Undisturbed (s.noteSlot g) t) (y : Bool) (n : Nat) :
    Follows (t.giveLanes g lanes dst val) ((t.giveLanes g lanes dst val).finishWord g y n) g.u.uid g.ps := by
  obtain ⟨hunit, hps, hne⟩ := gang_is hg
  obtain ⟨v, hv, hkept⟩ := h.some ((noteSlot_unit? s g g.u.uid).trans hunit)
  have hgiven : (t.giveLanes g lanes dst val).unit? g.u.uid = some (v.given lanes dst val) := by
    rw [giveLanes_unit?, hv, Option.map_some]
  refine finishWord_follows _ g y n hgiven (fun p hp => ?_) hne
  obtain ⟨hlt, hrun⟩ := runs_of_kept hkept (hps p hp)
  exact ⟨by simpa [WorkUnit.given] using hlt, by rw [slice_given _ _ _ _ hlt]; exact hrun⟩

end Given

/-! ### The course of a cohort word (R198) -/

/-- A cohort word waits for the next cycle while a gang of a higher slot has acted in this one; else it completes with its result in the
executing lanes and the slots as given. -/
def ActsOnce (i : Instr) (w : StdWord) (s : State) (g : Gang) (v : Nat) (after : Nat → BarrierSlot) : Prop :=
  let late := ∃ n, (s.bank g.u.core g.u.bank).lastOp = some (s.clock, n) ∧ g.slot < n
  (late → exec i s = .next s) ∧ (¬ late →
    ∃ r, Completes i s r g w.c.y 1 ∧ Undisturbed ((s.noteSlot g).giveLanes g (g.executing w.c) w.dst v) r ∧
      ∀ n, (r.bank g.u.core g.u.bank).slot n = after n)

/-- The value of source A in the lane where a cohort word acts. -/
def Gang.cohortSource (g : Gang) (w : StdWord) (y : Nat × Nat) : Nat :=
  ((g.u.slice y.1).readSpec y.2 (intUse false anyTag) w.srcA.toNat).val

section Course
variable {opc : Nat} {w : StdWord} {act : State → Gang → Nat → Nat × State} {y : Nat × Nat} {rest : List (Nat × Nat)}

theorem cohortWord_eq (hg : s.gang = some g) (hlanes : g.executing w.c = y :: rest)
    (hfits : LaneInstr.Fits ⟨opc, w, fun _ _ => cohortEntry w g.head.regs⟩ s g) :
    cohortWord opc w act s = if s.afterSlot g then .next s else
      let r := act (s.noteSlot g) g (g.cohortSource w y)
      .next ((r.2.giveLanes g (g.executing w.c) w.dst r.1).finishWord g w.c.y 1) := by
  have htrap : g.stdTrap s opc w (g.executing w.c) (cohortEntry w g.head.regs) = none := stdTrap_eq_none hfits
  unfold cohortWord
  simp only [hg, htrap]
  rw [hlanes]
  rfl

theorem actsOnce_of_answers {i : Instr} {v : Nat} {after : Nat → BarrierSlot} (hexec : exec i s = cohortWord opc w act s)
    (hg : s.gang = some g) (hlanes : g.executing w.c = y :: rest)
    (hfits : LaneInstr.Fits ⟨opc, w, fun _ _ => cohortEntry w g.head.regs⟩ s g)
    (hact : Answers act s g (g.cohortSource w y) v after) : ActsOnce i w s g v after := by
  rw [cohortWord_eq hg hlanes hfits] at hexec
  refine ⟨fun hlate => ?_, fun hlate => ?_⟩
  · rw [hexec, if_pos ((afterSlot_iff s g).2 hlate)]
  · obtain ⟨r, hr, hbecome⟩ := hact
    rw [if_neg (mt (afterSlot_iff s g).1 hlate), hr] at hexec
    exact ⟨_, ⟨hexec, giveLanes_follows _ _ _ hg hbecome.undisturbed _ _⟩, hbecome.undisturbed.giveLanes _ _ _ g, hbecome.slots⟩

end Course

end Words

/-- Settles O19: each word answers what R199 and R200 say, case by case, and acts in the course of R198. -/
theorem cohortWordsActOnce : Obligations.CohortWordsActOnce := by
  unfold Obligations.CohortWordsActOnce
  intro w s g y rest hg hlanes a fits bank late ends me
  have hnew : ∀ {v after}, fits 0x118 → Answers cohNew s g a v after → ActsOnce (.cohnew w) w s g v after :=
    actsOnce_of_answers rfl hg hlanes
  have hfree : ∀ {v after}, fits 0x119 → Answers cohFree s g a v after → ActsOnce (.cohfree w) w s g v after :=
    actsOnce_of_answers rfl hg hlanes
  have hjoin : ∀ {v after}, fits 0x11A → Answers cohJoin s g a v after → ActsOnce (.join w) w s g v after :=
    actsOnce_of_answers rfl hg hlanes
  have hleave : ∀ {v after}, fits 0x11B → Answers cohLeave s g a v after → ActsOnce (.leave w) w s g v after :=
    actsOnce_of_answers rfl hg hlanes
  refine ⟨fun hf => ⟨fun n hn hdead hbelow => hnew hf (cohNew_takes hn hdead hbelow), fun hlive => hnew hf (cohNew_full hlive)⟩,
    fun hnone => ⟨fun hf => hfree hf (cohFree_unnamed hnone), fun hf => hjoin hf (cohJoin_unnamed hnone),
      fun hf => hleave hf (cohLeave_unnamed hnone)⟩,
    fun n o hsome => ⟨?foreign, ?members, ?member, ?joins, ?otherLaunch, ?frees, ?outsider, ?leaves⟩⟩
  case foreign => exact fun hf ho => hfree hf (cohFree_foreign hsome ho)
  case members => exact fun hf ho hm => hfree hf (cohFree_members hsome ho hm)
  case member => exact fun hf hd hl hm => hjoin hf (cohJoin_member hsome hd hl hm)
  case joins => exact fun hf hd hl hm => hjoin hf (cohJoin_joins hsome hd hl hm)
  case otherLaunch => exact fun hf ho => hjoin hf (cohJoin_foreign hsome ho)
  case frees => exact fun hf ho hm => hfree hf (cohFree_frees hsome ho hm)
  case outsider => exact fun hf hm => hleave hf (cohLeave_outsider hsome hm)
  case leaves => exact fun hf hm => hleave hf (cohLeave_leaves hsome hm)

end Sys2Proof.Machine
end
